-- ==== Sys2Proof/Word.lean ====
section
/-! DEFINITION. The word types of the KH4-2400. -/

namespace Sys2Proof

/-- One byte of memory. -/
abbrev Byte := BitVec 8
/-- A general register, an address in a register, a system register (09_scalar_compute.md R198). -/
abbrev Word64 := BitVec 64
/-- A scalar word (08_encodings.md R175). -/
abbrev Word32 := BitVec 32
/-- A stream command (08_encodings.md R189). -/
abbrev CmdWord := BitVec 128
/-- An operator configuration word (08_encodings.md R193). -/
abbrev OpWord := BitVec 256

end Sys2Proof
end

