-- ==== Sys2Proof/Machine/Bits.lean ====
section
/-! DEFINITION. Bit fields, extension and byte order (00_scope.md R4, 08_encodings.md R196-R197). -/

namespace Sys2Proof

/-- The `len` bits of `n` from bit `lo` up, x[lo+len-1:lo] of R4. -/
def bf (n lo len : Nat) : Nat := n / 2 ^ lo % 2 ^ len

/-- Bit `i` of `n`. -/
def bit (n i : Nat) : Bool := n / 2 ^ i % 2 == 1

/-- A Bool as a number. -/
def b2n (b : Bool) : Nat := if b then 1 else 0

/-- The value of `n`'s low `w` bits read as two's complement (R196). -/
def toSigned (n w : Nat) : Int :=
  let m := n % 2 ^ w
  if m < 2 ^ (w - 1) then (m : Int) else (m : Int) - (2 ^ w : Nat)

/-- An integer reduced modulo 2^w: its two's-complement bits. -/
def ofSigned (i : Int) (w : Nat) : Nat := (i % ((2 ^ w : Nat) : Int)).toNat

/-- sext(x, 64) of an x of `w` bits (R197). -/
def sext64 (n w : Nat) : Word64 := BitVec.ofNat 64 (ofSigned (toSigned n w) 64)

/-- The bytes of `n`, `k` of them, little-endian (R4). -/
def toBytes (k n : Nat) : List Byte :=
  match k with
  | 0 => []
  | k + 1 => BitVec.ofNat 8 n :: toBytes k (n / 256)

/-- The number whose little-endian bytes are given (R4). -/
def ofBytes : List Byte → Nat
  | [] => 0
  | b :: bs => b.toNat + 256 * ofBytes bs

/-- The numbers `a`, `a+1`, …, `n` of them. -/
def upFrom (a : Nat) : Nat → List Nat
  | 0 => []
  | n + 1 => a :: upFrom (a + 1) n

/-- Number of one bits among the low `w` bits. -/
def popcount (n : Nat) : Nat → Nat
  | 0 => 0
  | w + 1 => b2n (bit n w) + popcount n w

/-- Update of the entry of an association list that `p` selects, or its addition. -/
def upsert {α : Type} (p : α → Bool) (new : α) : List α → List α
  | [] => [new]
  | x :: xs => if p x then new :: xs else x :: upsert p new xs

/-- Ascending insertion without repeats. -/
def insertNat (n : Nat) : List Nat → List Nat
  | [] => [n]
  | x :: xs => if n < x then n :: x :: xs else if n = x then x :: xs else x :: insertNat n xs

/-- Union of ascending lists. -/
def unionNat (a b : List Nat) : List Nat := b.foldl (fun acc n => insertNat n acc) a

/-- Ascending insertion with repeats. -/
def insertSorted (n : Int) : List Int → List Int
  | [] => [n]
  | x :: xs => if n ≤ x then n :: x :: xs else x :: insertSorted n xs

end Sys2Proof
end

