-- ==== Sys2Proof/Machine/Num.lean ====
section
/-! DEFINITION. Exact arithmetic: floating formats, exact real values, and the one rounding of 04_numbers.md
R89-R104, R107-R108 and R435. -/

namespace Sys2Proof.Machine

/-- Floating formats: those of R89 and FP64 (09_scalar_compute.md R199). -/
inductive Fmt | fp64 | fp32 | bf16 | fp16 | e4m3 | e5m2 | e2m1 | e8m0
  deriving DecidableEq, Repr

/-- Width in bits (R89). -/
def Fmt.w : Fmt → Nat
  | .fp64 => 64 | .fp32 => 32 | .bf16 => 16 | .fp16 => 16 | .e4m3 => 8 | .e5m2 => 8 | .e2m1 => 4 | .e8m0 => 8

/-- Fraction bits (R89). -/
def Fmt.fb : Fmt → Nat
  | .fp64 => 52 | .fp32 => 23 | .bf16 => 7 | .fp16 => 10 | .e4m3 => 3 | .e5m2 => 2 | .e2m1 => 1 | .e8m0 => 0

/-- Exponent bias (R89). -/
def Fmt.bias : Fmt → Nat
  | .fp64 => 1023 | .fp32 => 127 | .bf16 => 127 | .fp16 => 15 | .e4m3 => 7 | .e5m2 => 15 | .e2m1 => 1 | .e8m0 => 127

/-- The code of the largest finite value (R89, R101). -/
def Fmt.maxCode : Fmt → Nat
  | .fp64 => 0x7FEFFFFFFFFFFFFF | .fp32 => 0x7F7FFFFF | .bf16 => 0x7F7F | .fp16 => 0x7BFF | .e4m3 => 0x7E
  | .e5m2 => 0x7B | .e2m1 => 0x7 | .e8m0 => 0xFE

/-- The code of +infinity, where the format has one (R89). -/
def Fmt.infCode : Fmt → Option Nat
  | .fp64 => some 0x7FF0000000000000 | .fp32 => some 0x7F800000 | .bf16 => some 0x7F80 | .fp16 => some 0x7C00
  | .e5m2 => some 0x7C | .e4m3 => none | .e2m1 => none | .e8m0 => none

/-- The canonical NaN (R92, R199); E2M1 has none, and a NaN takes code 0 there (R104). -/
def Fmt.nanCode : Fmt → Nat
  | .fp64 => 0x7FF8000000000000 | .fp32 => 0x7FC00000 | .bf16 => 0x7FC0 | .fp16 => 0x7E00 | .e4m3 => 0x7F
  | .e5m2 => 0x7E | .e2m1 => 0 | .e8m0 => 0xFF

/-- An exact real number: a sign, which a zero keeps, and a magnitude num/den. -/
structure Ex where
  neg : Bool
  num : Nat
  den : Nat
  deriving DecidableEq, Repr

/-- The value of an element. -/
inductive FVal
  | nan
  | inf (neg : Bool)
  | fin (x : Ex)
  deriving DecidableEq, Repr

def Ex.zero (neg : Bool) : Ex := { neg := neg, num := 0, den := 1 }
def Ex.one : Ex := { neg := false, num := 1, den := 1 }
def Ex.ofInt (i : Int) : Ex := { neg := decide (i < 0), num := i.natAbs, den := 1 }
/-- 2^e -/
def Ex.pow2 (e : Int) : Ex :=
  if 0 ≤ e then { neg := false, num := 2 ^ e.toNat, den := 1 } else { neg := false, num := 1, den := 2 ^ (-e).toNat }
def Ex.isZero (x : Ex) : Bool := x.num == 0
def Ex.negate (x : Ex) : Ex := { x with neg := !x.neg }
def Ex.mul (x y : Ex) : Ex := { neg := xor x.neg y.neg, num := x.num * y.num, den := x.den * y.den }
/-- The signed numerator over the common denominator. -/
def Ex.int (x : Ex) (k : Nat) : Int := if x.neg then -((x.num * k : Nat) : Int) else ((x.num * k : Nat) : Int)
/-- Sum; `zneg` is the sign of an exact zero sum of unlike signs (R216). -/
def Ex.add (x y : Ex) (zneg : Bool) : Ex :=
  let s := x.int y.den + y.int x.den
  if s = 0 then { neg := if x.neg == y.neg then x.neg else zneg, num := 0, den := 1 }
  else { neg := decide (s < 0), num := s.natAbs, den := x.den * y.den }
/-- Quotient by a non-zero number. -/
def Ex.div (x y : Ex) : Ex := { neg := xor x.neg y.neg, num := x.num * y.den, den := x.den * y.num }
def Ex.lt (x y : Ex) : Bool := decide (x.int y.den < y.int x.den)
def Ex.eqv (x y : Ex) : Bool := decide (x.int y.den = y.int x.den)

/-- floor(log2 (num/den)) of a positive quotient. -/
def ilog2 (num den : Nat) : Int :=
  let e : Int := (num.log2 : Int) - (den.log2 : Int)
  let ge : Bool := if 0 ≤ e then decide (den * 2 ^ e.toNat ≤ num) else decide (den ≤ num * 2 ^ (-e).toNat)
  if ge then e else e - 1

/-- Sticky flags (R103), as numbers to be combined bitwise. -/
def NX : Nat := 1
def UF : Nat := 2
def OF : Nat := 4
def DZ : Nat := 8
def NV : Nat := 16
def SAT : Nat := 32
def IDZ : Nat := 64

/-- Union of flags. -/
def orF (a b : Nat) : Nat := a ||| b

/-- Rounding of num/den to an integer by mode (R100, R108), and whether it is inexact: 0 RNE, 1 RTZ, 2 RDN, 3 RUP,
4 SR with the draw given. -/
def roundQ (mode draw : Nat) (neg : Bool) (num den : Nat) : Nat × Bool :=
  let lo := num / den
  let rem := num % den
  let up : Bool :=
    match mode with
    | 0 => decide (2 * rem > den) || (decide (2 * rem = den) && lo % 2 == 1)
    | 2 => neg && rem != 0
    | 3 => !neg && rem != 0
    | 4 => decide (draw < rem * 2 ^ 32 / den)
    | _ => false
  (if up then lo + 1 else lo, rem != 0)

/-- Magnitude num/den rounded at a last place of weight 2^u. -/
def roundAt (mode draw : Nat) (neg : Bool) (num den : Nat) (u : Int) : Nat × Bool :=
  if 0 ≤ u then roundQ mode draw neg num (den * 2 ^ u.toNat) else roundQ mode draw neg (num * 2 ^ (-u).toNat) den

/-- What an overflow yields (R101): IEEE, or the largest finite value under the saturate policy. -/
inductive OvfPolicy | ieee | saturate
  deriving DecidableEq, Repr

/-- Sign bit of a code. -/
def Fmt.signed (f : Fmt) (neg : Bool) (code : Nat) : Nat := if neg then code + 2 ^ (f.w - 1) else code

/-- Code of an overflow (R101). -/
def overflowCode (f : Fmt) (mode : Nat) (neg : Bool) (p : OvfPolicy) : Nat :=
  let toInf : Bool :=
    match p with
    | .saturate => false
    | .ieee =>
      match mode with
      | 1 => false
      | 2 => neg
      | 3 => !neg
      | _ => true
  match f.infCode with
  | some c => f.signed neg (if toInf then c else f.maxCode)
  | none => f.signed neg f.maxCode

/-- round(x, E8M0, mode) (R435). E8M0 has no fraction bit to be even: RNE takes the larger of two equally near powers
of two (log 76). -/
def roundE8M0 (mode draw : Nat) : FVal → Nat × Nat
  | .nan => (0xFF, 0)
  | .inf _ => (0xFF, NV)
  | .fin x =>
    if x.num == 0 || x.neg then (0xFF, NV)
    else
      let e := ilog2 x.num x.den
      if e < -127 then (0, orF UF NX)
      else
        let (m, ix) := roundAt mode draw false x.num x.den e
        let r := if m = 1 then e else e + 1
        if r > 127 then (0xFE, orF OF NX) else ((r + 127).toNat, if ix then NX else 0)

/-- round(x, fmt, mode) (R100-R104, R90): the code and the flags raised. -/
def roundF (f : Fmt) (mode draw : Nat) (p : OvfPolicy) (v : FVal) : Nat × Nat :=
  if f = .e8m0 then roundE8M0 mode draw v
  else
    match v with
    | .nan => if f = .e2m1 then (0, NV) else (f.nanCode, 0)
    | .inf neg =>
      match f.infCode with
      | some c => (f.signed neg c, 0)
      | none => (f.signed neg f.maxCode, orF OF NX)
    | .fin x =>
      if x.num == 0 then (f.signed x.neg 0, 0)
      else
        let emin : Int := 1 - (f.bias : Int)
        let e := ilog2 x.num x.den
        let u := (if e < emin then emin else e) - (f.fb : Int)
        let (m, ix) := roundAt mode draw x.neg x.num x.den u
        let code := (u - (emin - (f.fb : Int))).toNat * 2 ^ f.fb + m
        if code > f.maxCode then (overflowCode f mode x.neg p, orF OF NX)
        else
          let tiny : Bool :=
            if mode = 4 then decide (code < 2 ^ f.fb)
            else
              let (m', _) := roundAt mode draw x.neg x.num x.den (e - (f.fb : Int))
              decide (e < emin) && !(decide (e + 1 = emin) && m' == 2 ^ (f.fb + 1))
          (f.signed x.neg code, if ix then (if tiny then orF NX UF else NX) else 0)

/-- The value of a code (R89). -/
def decodeF (f : Fmt) (bits : Nat) : FVal :=
  if f = .e8m0 then (if bits % 256 = 255 then .nan else .fin (Ex.pow2 ((bits % 256 : Nat) - 127)))
  else
    let neg := bit bits (f.w - 1)
    let mag := bits % 2 ^ (f.w - 1)
    match f.infCode with
    | some c =>
      if mag = c then .inf neg
      else if mag > c then .nan
      else .fin (decodeMag f neg mag)
    | none => if f = .e4m3 && mag = 0x7F then .nan else .fin (decodeMag f neg mag)
where
  decodeMag (f : Fmt) (neg : Bool) (mag : Nat) : Ex :=
    let ef := mag / 2 ^ f.fb
    let fr := mag % 2 ^ f.fb
    let m := if ef = 0 then fr else fr + 2 ^ f.fb
    let k : Int := (if ef = 0 then 1 else (ef : Int)) - (f.bias : Int) - (f.fb : Int)
    { Ex.pow2 k with neg := neg, num := m * (Ex.pow2 k).num }

/-- Sum of two values: exact result and flags; `zneg` as for `Ex.add` (R102, R216, R217). -/
def addV (x y : FVal) (zneg : Bool) : FVal × Nat :=
  match x, y with
  | .nan, _ => (.nan, 0)
  | _, .nan => (.nan, 0)
  | .inf a, .inf b => if a == b then (.inf a, 0) else (.nan, NV)
  | .inf a, .fin _ => (.inf a, 0)
  | .fin _, .inf b => (.inf b, 0)
  | .fin a, .fin b => (.fin (a.add b zneg), 0)

def negV : FVal → FVal
  | .nan => .nan
  | .inf a => .inf (!a)
  | .fin x => .fin x.negate

/-- Product (R102, R217). -/
def mulV (x y : FVal) : FVal × Nat :=
  match x, y with
  | .nan, _ => (.nan, 0)
  | _, .nan => (.nan, 0)
  | .inf a, .inf b => (.inf (xor a b), 0)
  | .inf a, .fin b => if b.num == 0 then (.nan, NV) else (.inf (xor a b.neg), 0)
  | .fin a, .inf b => if a.num == 0 then (.nan, NV) else (.inf (xor a.neg b), 0)
  | .fin a, .fin b => (.fin (a.mul b), 0)

/-- x·y + z with no intermediate rounding (R217). A NaN operand raises nothing (R216). -/
def fmaV (x y z : FVal) (zneg : Bool) : FVal × Nat :=
  match z with
  | .nan => (.nan, 0)
  | _ =>
    let (p, fl) := mulV x y
    if fl ≠ 0 then (p, fl) else addV p z zneg

/-- Quotient (R217). -/
def divV (x y : FVal) : FVal × Nat :=
  match x, y with
  | .nan, _ => (.nan, 0)
  | _, .nan => (.nan, 0)
  | .inf _, .inf _ => (.nan, NV)
  | .inf a, .fin b => (.inf (xor a b.neg), 0)
  | .fin a, .inf b => (.fin (Ex.zero (xor a.neg b)), 0)
  | .fin a, .fin b =>
    if b.num == 0 then (if a.num == 0 then (.nan, NV) else (.inf (xor a.neg b.neg), DZ))
    else (.fin (a.div b), 0)

/-- Digits of floor(sqrt n) from bit `k` down. -/
def sqrtLoop (n : Nat) : Nat → Nat → Nat
  | 0, r => r
  | k + 1, r => let t := r + 2 ^ k; sqrtLoop n k (if t * t ≤ n then t else r)

/-- floor(sqrt n) -/
def isqrt (n : Nat) : Nat := sqrtLoop n (n.log2 / 2 + 1) 0

/-- The square root (R217), exact to any rounding of up to 64 bits: 80 bits of it, and a sticky bit that stands for
the rest. -/
def sqrtV : FVal → FVal × Nat
  | .nan => (.nan, 0)
  | .inf false => (.inf false, 0)
  | .inf true => (.nan, NV)
  | .fin x =>
    if x.num == 0 then (.fin x, 0)
    else if x.neg then (.nan, NV)
    else
      -- num/den = (num·den·4^k) / (den·2^k)^2
      let k := 160 + x.den.log2
      let n := x.num * x.den * 4 ^ k
      let s := isqrt n
      let sticky := if s * s = n then 0 else 1
      (.fin { neg := false, num := 2 * s + sticky, den := 2 * (x.den * 2 ^ k) }, 0)

/-- x < y for values that are no NaN; −0 and +0 are equal. -/
def ltV (x y : FVal) : Bool :=
  match x, y with
  | .nan, _ => false
  | _, .nan => false
  | .inf a, .inf b => a && !b
  | .inf a, .fin _ => a
  | .fin _, .inf b => !b
  | .fin a, .fin b => a.lt b

/-- x = y for values that are no NaN. -/
def eqV (x y : FVal) : Bool :=
  match x, y with
  | .inf a, .inf b => a == b
  | .fin a, .fin b => a.eqv b
  | _, _ => false

def FVal.isNaN : FVal → Bool
  | .nan => true
  | _ => false

/-- The sign a value shows. -/
def FVal.neg? : FVal → Bool
  | .nan => false
  | .inf a => a
  | .fin x => x.neg

/-- x below y where −0 is less than +0 (R218). -/
def ltZ (x y : FVal) : Bool := ltV x y || (eqV x y && x.neg? && !y.neg?)

/-- A value rounded to an integer by mode (R104, R221), and whether it is inexact. -/
def roundInt (mode draw : Nat) (x : Ex) : Int × Bool :=
  let (m, ix) := roundQ mode draw x.neg x.num x.den
  (if x.neg then -(m : Int) else (m : Int), ix)

/-- Conversion into an integer range (R104): the integer, and the flags of R104 and R221. A value that passes a bound is
invalid and sets NV alone, no SAT (log 77). -/
def toIntRange (mode draw : Nat) (lo hi : Int) (v : FVal) : Int × Nat :=
  match v with
  | .nan => (0, NV)
  | .inf neg => (if neg then lo else hi, NV)
  | .fin x =>
    let (t, ix) := roundInt mode draw x
    if t > hi then (hi, NV) else if t < lo then (lo, NV) else (t, if ix then NX else 0)

/-! ### The generator of a tile -/

/-- draw(): the new state, which is also the value drawn (R107). -/
def draw (x : BitVec 32) : BitVec 32 :=
  let a := x ^^^ (x <<< 13)
  let b := a ^^^ (a >>> 17)
  b ^^^ (b <<< 5)

/-- The seed of tile (x, y), region-relative (R107). -/
def seedOf (seed : BitVec 32) (x y : Nat) : BitVec 32 :=
  let v := seed ^^^ (0x9E3779B9#32 * BitVec.ofNat 32 (1 + 32 * y + x))
  if v = 0 then 0x6C078965#32 else v

end Sys2Proof.Machine
end

