-- ==== Sys2Proof/Syntax.lean ====
section
/-! DEFINITION. The steps of the KH4-2400, one constructor per row of spec/opcode_table.json: the scalar
instructions with the operand fields of 08_encodings.md R175-R188, the stream commands with the fields of R189 and
11_stream_commands.md R262, the operators with the fields of R193 and 12_operators.md, and the steps that the rest of
the package takes, each with the parties it names. -/

namespace Sys2Proof

/-- A g register field (R175). -/
abbrev GReg := BitVec 5
/-- An f register field (R175). -/
abbrev FReg := BitVec 4
/-- A c register field (R175). -/
abbrev CReg := BitVec 3
/-- An edge number of an operator port; 0xFFF marks an unconnected port (R193). -/
abbrev EdgeNo := BitVec 12

/-- Relations of `cmp` (R209). -/
inductive CmpRel | eq | ne | lt | ge | ltu | geu
  deriving DecidableEq, Repr
/-- Relations of `cmpi` (R210). -/
inductive CmpiRel | eq | ne | lt | ltu
  deriving DecidableEq, Repr
/-- Relations of `fcmp` (R224). -/
inductive FRel | eq | lt | le | unord
  deriving DecidableEq, Repr
/-- Scalar floating formats (R184). -/
inductive FFmt | f64 | f32 | bf16 | f16
  deriving DecidableEq, Repr
/-- Rounding field of a scalar instruction (R100, R184). -/
inductive FRnd | rne | rtz | rdn | rup | dyn
  deriving DecidableEq, Repr
/-- Integer kinds of `fcvti` and `icvtf` (R184). -/
inductive IKind | i64 | u64 | i32 | u32
  deriving DecidableEq, Repr
/-- Modes of `ld` and widths of `vld` (R185, R186). -/
inductive LdMode | b | h | w | d | bu | hu | wu
  deriving DecidableEq, Repr
/-- Modes of `st` (R185). -/
inductive StMode | b | h | w | d
  deriving DecidableEq, Repr
/-- Modes of `ldc` (R185). -/
inductive LdcMode | w | d | wu
  deriving DecidableEq, Repr
/-- Modes of `fld` and `fst` (R185, R239). -/
inductive FMode | f16 | f32 | f64 | bf16
  deriving DecidableEq, Repr
/-- Modes of a versioned load (R136). -/
inductive VMode | exact | atLeast | newest
  deriving DecidableEq, Repr
/-- Order bits of an atomic (R186). -/
inductive AmoOrder | relaxed | acq | rel | acqrel
  deriving DecidableEq, Repr

/-- The common flags of a stream command (R189): NOTIFY, ARRIVE, AFTER, INHERIT and SEL. -/
structure CmdHead where
  notify : Bool
  arrive : Bool
  after : Bool
  inherit : Bool
  sel : BitVec 8
  deriving DecidableEq, Repr

/-- The common fields of an operator word (R193). -/
structure OpCfg where
  deferred : Bool
  sat : Bool
  rnd : BitVec 3
  in0 : EdgeNo
  in1 : EdgeNo
  in2 : EdgeNo
  in3 : EdgeNo
  out0 : EdgeNo
  out1 : EdgeNo
  out2 : EdgeNo
  out3 : EdgeNo
  deriving DecidableEq, Repr

/-- PARAM of `mmp` (R295). -/
structure MmpParam where
  tsa : BitVec 32
  tsb : BitVec 32
  bdesc : BitVec 32
  cmpr : Bool
  uadd : Bool
  deriving DecidableEq, Repr

/-- PARAM of the operators 0x20 to 0x34 (R303). -/
structure VecParam where
  afmt : BitVec 8
  acc : BitVec 2
  alev : BitVec 3
  rel : BitVec 3
  op : BitVec 2
  span : BitVec 2
  immb : Bool
  const : BitVec 32
  deriving DecidableEq, Repr

/-- PARAM of `agen` (R314). -/
structure AgenParam where
  n0 : BitVec 16
  n1 : BitVec 16
  n2 : BitVec 16
  n3 : BitVec 16
  s0 : BitVec 16
  s1 : BitVec 16
  s2 : BitVec 16
  s3 : BitVec 16
  nt : BitVec 16
  deriving DecidableEq, Repr

/-- PARAM of `gather` and `scatter` (R315). -/
structure RowParam where
  row : BitVec 32
  limit : BitVec 32
  base : BitVec 32
  dim : BitVec 2
  deriving DecidableEq, Repr

/-- PARAM of the port-tile operators (R316). -/
structure PortParam where
  xport : BitVec 6
  mode : Bool
  aop : BitVec 4
  seq : BitVec 32
  dir : Bool
  deriving DecidableEq, Repr

/-- PARAM of `count` (R322). -/
structure CountParam where
  n : BitVec 16
  ii : BitVec 6
  dist : BitVec 6
  lev : BitVec 3
  deriving DecidableEq, Repr

/-- Edge numbers of ports 4 to 7 of `merge`, `split` and `dup` (R283). -/
structure Edges4 where
  e4 : EdgeNo
  e5 : EdgeNo
  e6 : EdgeNo
  e7 : EdgeNo
  deriving DecidableEq, Repr

/-- PARAM of `merge` and `split` (R322). -/
structure TurnParam where
  ports : Edges4
  m : BitVec 3
  byTensor : Bool
  dim : BitVec 2
  deriving DecidableEq, Repr

/-- PARAM of `delay` (R322). -/
structure DelayParam where
  n : BitVec 10
  init : Bool
  const : BitVec 32
  carry : Bool
  deriving DecidableEq, Repr

/-- PARAM of `stopgen` (R322). -/
structure StopgenParam where
  run1 : BitVec 16
  lev1 : BitVec 3
  run2 : BitVec 16
  lev2 : BitVec 3
  deriving DecidableEq, Repr

/-- PARAM of `siding` (R322). -/
structure SidingParam where
  gbase : BitVec 17
  gcnt : BitVec 12
  d : BitVec 32
  edge : EdgeNo
  deriving DecidableEq, Repr

/-- The party whose access the 64 microsecond bound ends (02_execution.md R58). -/
inductive Party
  | task (die seq ctx : Nat)
  | port (job region op : Nat)
  | command (job qid tln : Nat)
  deriving DecidableEq, Repr

/-- The steps of the part. -/
inductive Instr
  -- integer ALU (R202-R204)
  | add (d a b : GReg) (w : Bool)
  | sub (d a b : GReg) (w : Bool)
  | and (d a b : GReg) (w : Bool)
  | or (d a b : GReg) (w : Bool)
  | xor (d a b : GReg) (w : Bool)
  | andn (d a b : GReg) (w : Bool)
  | shl (d a b : GReg) (w : Bool)
  | shr (d a b : GReg) (w : Bool)
  | sar (d a b : GReg) (w : Bool)
  | mul (d a b : GReg) (w : Bool)
  | mulh (d a b : GReg) (w : Bool)
  | mulhu (d a b : GReg) (w : Bool)
  | div (d a b : GReg) (w : Bool)
  | divu (d a b : GReg) (w : Bool)
  | rem (d a b : GReg) (w : Bool)
  | remu (d a b : GReg) (w : Bool)
  | min (d a b : GReg) (w : Bool)
  | max (d a b : GReg) (w : Bool)
  | minu (d a b : GReg) (w : Bool)
  | maxu (d a b : GReg) (w : Bool)
  | clz (d a : GReg) (w : Bool)
  | ctz (d a : GReg) (w : Bool)
  | popc (d a : GReg) (w : Bool)
  | brev (d a : GReg) (w : Bool)
  -- immediates, constants (R205-R208)
  | addi (d a : GReg) (i : BitVec 16)
  | andi (d a : GReg) (i : BitVec 16)
  | ori (d a : GReg) (i : BitVec 16)
  | xori (d a : GReg) (i : BitVec 16)
  | shli (d a : GReg) (sh : BitVec 6)
  | shri (d a : GReg) (sh : BitVec 6)
  | sari (d a : GReg) (sh : BitVec 6)
  | lim (d : GReg) (i : BitVec 21)
  | lsh (d : GReg) (i : BitVec 16)
  -- compares, conditions, selection, address arithmetic, taint (R209-R214)
  | cmp (c : CReg) (a b : GReg) (w : Bool) (r : CmpRel)
  | cmpi (r : CmpiRel) (c : CReg) (a : GReg) (i : BitVec 16)
  | cand (d a b : CReg)
  | cor (d a b : CReg)
  | cxor (d a b : CReg)
  | cnot (d a : CReg)
  | sel (d a b : GReg) (c : CReg)
  | lea (d a b : GReg) (sh : BitVec 3)
  | untaint (d a : GReg)
  | istaint (d a : GReg)
  -- scalar floating point (R215-R224)
  | fadd (d a b : FReg) (f : FFmt) (r : FRnd)
  | fsub (d a b : FReg) (f : FFmt) (r : FRnd)
  | fmul (d a b : FReg) (f : FFmt) (r : FRnd)
  | fdiv (d a b : FReg) (f : FFmt) (r : FRnd)
  | fsqrt (d a : FReg) (f : FFmt) (r : FRnd)
  | fmin (d a b : FReg) (f : FFmt)
  | fmax (d a b : FReg) (f : FFmt)
  | fmac (d a b : FReg) (f : FFmt) (r : FRnd)
  | fneg (d a : FReg) (f : FFmt)
  | fabs (d a : FReg) (f : FFmt)
  | fcvt (d a : FReg) (src : FFmt) (f : FFmt) (r : FRnd)
  | fcvti (d : GReg) (a : FReg) (k : IKind) (f : FFmt) (r : FRnd)
  | icvtf (d : FReg) (a : GReg) (k : IKind) (f : FFmt) (r : FRnd)
  | fmvg (d : GReg) (a : FReg) (f : FFmt)
  | gmvf (d : FReg) (a : GReg) (f : FFmt)
  | fcmp (c : CReg) (a b : FReg) (f : FFmt) (r : FRel)
  -- memory (R235-R239)
  | ld (d b : GReg) (m : LdMode) (i : BitVec 13)
  | st (d b : GReg) (m : StMode) (i : BitVec 13)
  | ldc (d b : GReg) (m : LdcMode) (i : BitVec 13)
  | fld (d : FReg) (b : GReg) (m : FMode) (i : BitVec 13)
  | fst (d : FReg) (b : GReg) (m : FMode) (i : BitVec 13)
  -- versions (R240-R242)
  | vld (d a n : GReg) (w : LdMode) (m : VMode)
  | vpub (d a n : GReg)
  | vretire (a n : GReg)
  | vfloor (d a : GReg)
  | vnewest (d a : GReg)
  | vstamp (d a n : GReg)
  -- atomics (R243)
  | amoadd (d a b : GReg) (w : Bool) (o : AmoOrder) (sc : BitVec 3)
  | amoand (d a b : GReg) (w : Bool) (o : AmoOrder) (sc : BitVec 3)
  | amoor (d a b : GReg) (w : Bool) (o : AmoOrder) (sc : BitVec 3)
  | amoxor (d a b : GReg) (w : Bool) (o : AmoOrder) (sc : BitVec 3)
  | amomin (d a b : GReg) (w : Bool) (o : AmoOrder) (sc : BitVec 3)
  | amomax (d a b : GReg) (w : Bool) (o : AmoOrder) (sc : BitVec 3)
  | amominu (d a b : GReg) (w : Bool) (o : AmoOrder) (sc : BitVec 3)
  | amomaxu (d a b : GReg) (w : Bool) (o : AmoOrder) (sc : BitVec 3)
  | amoswap (d a b : GReg) (w : Bool) (o : AmoOrder) (sc : BitVec 3)
  | amocas (d a b : GReg) (w : Bool) (o : AmoOrder) (sc : BitVec 3)
  -- reductions (R244)
  | redf (d a : GReg) (b : FReg) (f32 : Bool)
  | redinit (a b : GReg) (f32 : Bool)
  -- phases, barriers, timelines, time (R245-R248)
  | phase (sc : BitVec 3)
  | pwait (c : CReg) (a : GReg) (sc : BitVec 3)
  | pnum (d : GReg) (sc : BitVec 3)
  | barm (d a b : GReg)
  | barr (a b : GReg)
  | barw (c : CReg) (a b : GReg)
  | tlwait (a b : GReg)
  | tlread (d a : GReg)
  | stime (d : GReg)
  | twait (a : GReg)
  -- the task machine (R250-R252)
  | tdec (a : GReg)
  | tspawn (a : GReg)
  | tset (a b : GReg)
  | tdeadline (a b : GReg)
  | tcancelTask (a : GReg)
  | tcancelLaunch (a : GReg)
  | tcancelReplay (a : GReg)
  | tcancelPhase (sc : BitVec 3)
  | tcancelJob
  | trun (a : GReg)
  -- exits (R225-R231)
  | bex (c : CReg) (o : BitVec 21)
  | jex (o : BitVec 21)
  | cex (a : GReg)
  | call (d : GReg) (o : BitVec 21)
  | done
  | yield
  | skip (c : CReg) (k : BitVec 7)
  -- command issue, system (R249, R253-R256)
  | scmd (p q : GReg)
  | scmdt (p q t : GReg)
  | sysrd (d : GReg) (n : BitVec 12)
  | syswr (a : GReg) (n : BitVec 12)
  | trap (k : BitVec 12)
  | halt
  -- steps of the schedulers (R26, R40-R44, R58, R248, R271-R272)
  | blockDispatch (die seq ctx : Nat)
  | contextPreempt (die : Nat)
  | classBudgetPeriod (die : Nat)
  | deadlineMiss (job idx : Nat)
  | taskNotify (job idx gen : Nat)
  | twaitWake (job idx : Nat)
  | accessTimeout (p : Party)
  | schedulerFillIssue (job idx : Nat)
  | schedulerFill (die k : Nat)
  | schedulerFillRetry (die k : Nat)
  -- barriers, commands, replays, staffs, versions, reductions, refresh
  | barrierArrival (job die num : Nat) (w : BitVec 32) (err : Bool) (agent : Nat)
  | commandStart (job qid : Nat)
  | commandFinish (job qid tln : Nat)
  | launchComplete (job region : Nat)
  | replayStart (job : Nat) (va : Word64)
  | nodeComplete (job : Nat) (va : Word64) (node : Nat)
  | staffSend (job : Nat) (sc : BitVec 3) (die : Nat)
  | staffReceive (job : Nat) (sc : BitVec 3) (sdie ddie : Nat)
  | versionPublish (k : Nat)
  | versionRetire (job : Nat) (a : Word64) (n : BitVec 32)
  | reductionContribution (k : Nat)
  | refreshWindowEnd (die bank : Nat)
  -- region commands (R262-R266)
  | load (h : CmdHead) (region port : BitVec 6) (last : Bool) (len : BitVec 36) (a : BitVec 56)
  | store (h : CmdHead) (region port : BitVec 6) (len : BitVec 36) (a : BitVec 56)
  | publish (h : CmdHead) (region port : BitVec 6) (ver : BitVec 36) (a : BitVec 56)
  | vload (h : CmdHead) (region port : BitVec 6) (mode : BitVec 2) (last : Bool) (ver : BitVec 36) (a : BitVec 56)
  | copy (h : CmdHead) (a : BitVec 56)
  | copyv (h : CmdHead) (a : BitVec 56)
  | fill (h : CmdHead) (a : BitVec 56)
  | arm (h : CmdHead) (region : BitVec 6) (len : BitVec 36) (a : BitVec 56)
  | disarm (h : CmdHead) (region : BitVec 6)
  | config (h : CmdHead) (region port : BitVec 6) (count : BitVec 36) (a : BitVec 56)
  | stop (h : CmdHead) (region : BitVec 6)
  | marker (h : CmdHead) (region : BitVec 6) (mark : BitVec 36)
  | snap (h : CmdHead) (region : BitVec 6) (len : BitVec 36) (a : BitVec 56)
  | resume (h : CmdHead) (region : BitVec 6) (len : BitVec 36) (a : BitVec 56)
  | hang (h : CmdHead) (region : BitVec 6) (us : BitVec 36) (a : BitVec 56)
  | hangDetect (job region : Nat)
  -- weight store, berths, transducers, encoders, collectives, all queues (R270-R282)
  | wsload (h : CmdHead) (b : BitVec 36) (a : BitVec 56)
  | wsread (h : CmdHead) (b : BitVec 36) (a : BitVec 56)
  | berthfill (h : CmdHead) (berth : BitVec 36) (a : BitVec 56)
  | berthevict (h : CmdHead) (force : Bool) (berth : BitVec 36) (a : BitVec 56)
  | berthpin (h : CmdHead) (pin : Bool) (berth : BitVec 36)
  | berthfree (h : CmdHead) (berth : BitVec 36)
  | txload (h : CmdHead) (len : BitVec 36) (a : BitVec 56)
  | txrun (h : CmdHead) (chunks : BitVec 36) (a : BitVec 56)
  | txChunkDecoded (job qid tln k : Nat)
  | encode (h : CmdHead) (retire : Bool) (frame : BitVec 36) (a : BitVec 56)
  | coll (h : CmdHead) (id : BitVec 36) (a : BitVec 56)
  | collMembersMatched (job id : Nat)
  | notify (h : CmdHead)
  | bwait (h : CmdHead) (bar : BitVec 36) (n : BitVec 56)
  | tlwaitq (h : CmdHead) (q : BitVec 36) (n : BitVec 56)
  | preemptWatchdog (job region : Nat)
  -- operators (12_operators.md)
  | mmp (c : OpCfg) (p : MmpParam)
  | mmload (c : OpCfg)
  | vadd (c : OpCfg) (p : VecParam)
  | vsub (c : OpCfg) (p : VecParam)
  | vmul (c : OpCfg) (p : VecParam)
  | vfma (c : OpCfg) (p : VecParam)
  | vmax (c : OpCfg) (p : VecParam)
  | vmin (c : OpCfg) (p : VecParam)
  | vabs (c : OpCfg) (p : VecParam)
  | vneg (c : OpCfg) (p : VecParam)
  | vexp2 (c : OpCfg) (p : VecParam)
  | vlog2 (c : OpCfg) (p : VecParam)
  | vrcp (c : OpCfg) (p : VecParam)
  | vrsqrt (c : OpCfg) (p : VecParam)
  | vcvt (c : OpCfg) (p : VecParam)
  | vcmp (c : OpCfg) (p : VecParam)
  | vand (c : OpCfg) (p : VecParam)
  | vor (c : OpCfg) (p : VecParam)
  | vxor (c : OpCfg) (p : VecParam)
  | vshl (c : OpCfg) (p : VecParam)
  | vshr (c : OpCfg) (p : VecParam)
  | vred (c : OpCfg) (p : VecParam)
  | vscan (c : OpCfg) (p : VecParam)
  | vquant (c : OpCfg) (type : BitVec 2)
  | vdequant (c : OpCfg)
  | planes (c : OpCfg) (types : BitVec 4) (cmpr : Bool)
  | buf (c : OpCfg) (depth : BitVec 13)
  | scratch (c : OpCfg) (size : BitVec 13)
  | window (c : OpCfg) (n : BitVec 2) (d : BitVec 11)
  | pin (c : OpCfg) (size : BitVec 13)
  | agen (c : OpCfg) (p : AgenParam)
  | gather (c : OpCfg) (p : RowParam)
  | scatter (c : OpCfg) (p : RowParam)
  | mload (c : OpCfg) (p : PortParam)
  | mstore (c : OpCfg) (p : PortParam)
  | matom (c : OpCfg) (p : PortParam)
  | mvers (c : OpCfg) (p : PortParam)
  | siding (c : OpCfg) (p : SidingParam)
  | race (c : OpCfg) (e : BitVec 8) (k : BitVec 4)
  | count (c : OpCfg) (p : CountParam)
  | merge (c : OpCfg) (p : TurnParam)
  | split (c : OpCfg) (p : TurnParam)
  | dup (c : OpCfg) (ports : Edges4) (m : BitVec 3)
  | gate (c : OpCfg)
  | select (c : OpCfg)
  | delay (c : OpCfg) (p : DelayParam)
  | stopgen (c : OpCfg) (p : StopgenParam)
  | filter (c : OpCfg)
  | sortnet (c : OpCfg) (desc : Bool)
  | wsport (c : OpCfg) (base0 base1 : BitVec 14) (sel : Bool)
  | regionTrapStop (job region : Nat)
  | configSoftError (job region : Nat)
  -- host ports and jobs (20_host.md)
  | jobSubmit (port : Nat) (v : Word64)
  | jobStart (job : Nat)
  | jobEnd (job : Nat)
  | jobCancel (port : Nat) (job : Nat)
  | jobRelease (port : Nat) (job : Nat)
  | jobRetire (port : Nat) (job : Nat)
  | jobres (port : Nat)
  | intstat (port : Nat) (v : Word64)
  | semWrite (port n : Nat) (v : Word64)
  | windata (port : Nat) (v : Word64)
  | registerWrite (port off : Nat) (v : Word64)
  | apertureAccess (port off : Nat) (write : Bool) (v : Word64)
  | hostPortReset (port : Nat)
  -- trunks and time (R387-R388, R411-R412)
  | trunkCellReceive (sdie ddie : Nat) (cell : BitVec 512) (good : Bool)
  | linkDown (d1 d2 : Nat)
  | timeExchange (die : Nat)
  | treq (die : Nat)
  | trsp (die : Nat)
  | tfup (die : Nat)
  -- the pager (21_paging.md)
  | faultRecordPost (die : Nat)
  | pgdoneRetry (die token : Nat)
  | pgdonePage (die token : Nat)
  | pgdoneNoframe (die token : Nat)
  | pgswap (die : Nat)
  | swapComplete (die : Nat)
  | unmap
  | migrate
  -- bring-up, Depot, budgets (22_bringup.md, 23_fleet.md)
  | powerOn
  | fence (die : Nat)
  | seqrst (die : Nat)
  | mgmtWatchdog (die : Nat)
  | report (port : Nat)
  | update (port : Nat)
  | setbudget (port : Nat)
  | getbudget (port : Nat)
  | telemetry (port : Nat)
  | log (port : Nat)
  | reset (port : Nat)
  | rcvgo (port : Nat)
  | budgetPeriodStart (die : Nat)
  | powerCheck (die : Nat)
  | schedulerFillComplete (die k : Nat)
  | grandmasterLock (t : Word64)
  | linkRetrain (d1 d2 : Nat) (ok : Bool)
  | externalSwitchResult (job : Nat) (a : Word64) (reduce : Bool) (w : Bool) (op : BitVec 4) (seq : BitVec 32) (v : Word64)
  | switchBoundaryComplete (job : Nat) (sc : BitVec 3) (die : Nat)
  deriving DecidableEq, Repr

end Sys2Proof
end

