-- ==== Sys2Proof/WellFormed.lean ====
section
/-! DEFINITION. Which steps stand for an encoding: the field values that the encoding rules of 08_encodings.md
exclude although their type allows them. -/

namespace Sys2Proof

/-- The system register numbers of 10_scalar_memory.md R253. -/
def sysRegs : List Nat :=
  [0x000, 0x001, 0x002, 0x003, 0x004, 0x005, 0x006, 0x010, 0x011, 0x012, 0x013, 0x014, 0x015, 0x016, 0x020]

/-- A scope code that has phase boundaries (R187). -/
def phaseScope (sc : BitVec 3) : Bool := 2 ≤ sc.toNat

/-- SEL is 0 when NOTIFY and ARRIVE both are (R189). -/
def CmdHead.wf (h : CmdHead) : Bool := h.notify || h.arrive || h.sel == 0

/-- The step is one that its encoding rules admit. -/
def WellFormed : Instr → Bool
  | .vld _ _ n _ m => decide (m ≠ .newest) || n == 0
  | .phase sc => phaseScope sc
  | .pwait _ _ sc => phaseScope sc
  | .pnum _ sc => phaseScope sc
  | .tcancelPhase sc => phaseScope sc
  | .skip _ k => k != 0
  | .scmd p _ => p.toNat % 2 == 0
  | .scmdt p _ _ => p.toNat % 2 == 0
  | .sysrd _ n => sysRegs.contains n.toNat
  | .syswr _ n => sysRegs.contains n.toNat
  | .load h _ _ _ _ _ => h.wf
  | .store h _ _ _ _ => h.wf
  | .publish h _ _ _ _ => h.wf
  | .vload h _ _ _ _ _ _ => h.wf
  | .copy h _ => h.wf
  | .copyv h _ => h.wf
  | .fill h _ => h.wf
  | .arm h _ _ _ => h.wf
  | .disarm h _ => h.wf
  | .config h _ _ _ _ => h.wf
  | .stop h _ => h.wf
  | .marker h _ _ => h.wf
  | .snap h _ _ _ => h.wf
  | .resume h _ _ _ => h.wf
  | .hang h _ _ _ => h.wf
  | .wsload h _ _ => h.wf
  | .wsread h _ _ => h.wf
  | .berthfill h _ _ => h.wf
  | .berthevict h _ _ _ => h.wf
  | .berthpin h _ _ => h.wf
  | .berthfree h _ => h.wf
  | .txload h _ _ => h.wf
  | .txrun h _ _ => h.wf
  | .encode h _ _ _ => h.wf
  | .coll h _ _ => h.wf
  | .notify h => h.wf
  | .bwait h _ _ => h.wf
  | .tlwaitq h _ _ => h.wf
  | _ => true

end Sys2Proof
end

