-- ==== Sys2Proof/Decode.lean ====
section
/-! DEFINITION. Decoding and encoding of scalar words, stream commands and operator words (08_encodings.md
R175-R195, 11_stream_commands.md R262, 12_operators.md). A scalar word that the maps do not admit is rejected with the
reason number of R178; reason 7 needs the block and is found there. -/

namespace Sys2Proof

/-- The answer of a field check of R178, taken in its order: 2, 9, 4, 3. -/
def checked (ok2 ok9 ok4 ok3 : Bool) (i : Instr) : Except Nat Instr :=
  if !ok2 then .error 2 else if !ok9 then .error 9 else if !ok4 then .error 4 else if !ok3 then .error 3 else .ok i

/-- `checked` for an instruction of the map that may be unassigned (reason 2). -/
def checkedOpt (i : Option Instr) (ok9 ok4 ok3 : Bool) : Except Nat Instr :=
  match i with
  | none => .error 2
  | some i => checked true ok9 ok4 ok3 i

def CmpRel.ofCode? : Nat → Option CmpRel
  | 0 => some .eq | 1 => some .ne | 2 => some .lt | 3 => some .ge | 4 => some .ltu | 5 => some .geu | _ => none
def CmpRel.code : CmpRel → Nat
  | .eq => 0 | .ne => 1 | .lt => 2 | .ge => 3 | .ltu => 4 | .geu => 5
def CmpiRel.ofCode : Nat → CmpiRel
  | 0 => .eq | 1 => .ne | 2 => .lt | _ => .ltu
def CmpiRel.code : CmpiRel → Nat
  | .eq => 0 | .ne => 1 | .lt => 2 | .ltu => 3
def FRel.ofCode? : Nat → Option FRel
  | 0 => some .eq | 1 => some .lt | 2 => some .le | 3 => some .unord | _ => none
def FRel.code : FRel → Nat
  | .eq => 0 | .lt => 1 | .le => 2 | .unord => 3
def FFmt.ofCode : Nat → FFmt
  | 0 => .f64 | 1 => .f32 | 2 => .bf16 | _ => .f16
def FFmt.code : FFmt → Nat
  | .f64 => 0 | .f32 => 1 | .bf16 => 2 | .f16 => 3
def FRnd.ofCode? : Nat → Option FRnd
  | 0 => some .rne | 1 => some .rtz | 2 => some .rdn | 3 => some .rup | 7 => some .dyn | _ => none
def FRnd.code : FRnd → Nat
  | .rne => 0 | .rtz => 1 | .rdn => 2 | .rup => 3 | .dyn => 7
def IKind.ofCode : Nat → IKind
  | 0 => .i64 | 1 => .u64 | 2 => .i32 | _ => .u32
def IKind.code : IKind → Nat
  | .i64 => 0 | .u64 => 1 | .i32 => 2 | .u32 => 3
def LdMode.ofCode? : Nat → Option LdMode
  | 0 => some .b | 1 => some .h | 2 => some .w | 3 => some .d | 4 => some .bu | 5 => some .hu | 6 => some .wu | _ => none
def LdMode.code : LdMode → Nat
  | .b => 0 | .h => 1 | .w => 2 | .d => 3 | .bu => 4 | .hu => 5 | .wu => 6
def StMode.ofCode? : Nat → Option StMode
  | 0 => some .b | 1 => some .h | 2 => some .w | 3 => some .d | _ => none
def StMode.code : StMode → Nat
  | .b => 0 | .h => 1 | .w => 2 | .d => 3
def LdcMode.ofCode? : Nat → Option LdcMode
  | 2 => some .w | 3 => some .d | 6 => some .wu | _ => none
def LdcMode.code : LdcMode → Nat
  | .w => 2 | .d => 3 | .wu => 6
def FMode.ofCode? : Nat → Option FMode
  | 1 => some .f16 | 2 => some .f32 | 3 => some .f64 | 5 => some .bf16 | _ => none
def FMode.code : FMode → Nat
  | .f16 => 1 | .f32 => 2 | .f64 => 3 | .bf16 => 5
def VMode.ofCode? : Nat → Option VMode
  | 0 => some .exact | 1 => some .atLeast | 2 => some .newest | _ => none
def VMode.code : VMode → Nat
  | .exact => 0 | .atLeast => 1 | .newest => 2
def AmoOrder.ofCode : Nat → AmoOrder
  | 0 => .relaxed | 1 => .acq | 2 => .rel | _ => .acqrel
def AmoOrder.code : AmoOrder → Nat
  | .relaxed => 0 | .acq => 1 | .rel => 2 | .acqrel => 3

/-- A g register field at bit `lo`. -/
def gAt (n lo : Nat) : GReg := BitVec.ofNat 5 (bf n lo 5)
/-- An f register field at bit `lo`; its bit 4 is checked apart (R175). -/
def fAt (n lo : Nat) : FReg := BitVec.ofNat 4 (bf n lo 4)
/-- A c register field at bit `lo`; its bits 4:3 are checked apart (R175). -/
def cAt (n lo : Nat) : CReg := BitVec.ofNat 3 (bf n lo 3)

/-- Integer ALU group, major 0x01 (R182). -/
def decodeAlu (n : Nat) : Except Nat Instr :=
  let d := gAt n 21; let a := gAt n 16; let b := gAt n 11; let w := bit n 10
  let ok3 := bf n 6 4 == 0
  match bf n 0 6 with
  | 0 => checked true true true ok3 (.add d a b w)
  | 1 => checked true true true ok3 (.sub d a b w)
  | 2 => checked true true true ok3 (.and d a b w)
  | 3 => checked true true true ok3 (.or d a b w)
  | 4 => checked true true true ok3 (.xor d a b w)
  | 5 => checked true true true ok3 (.andn d a b w)
  | 6 => checked true true true ok3 (.shl d a b w)
  | 7 => checked true true true ok3 (.shr d a b w)
  | 8 => checked true true true ok3 (.sar d a b w)
  | 9 => checked true true true ok3 (.mul d a b w)
  | 10 => checked true true true ok3 (.mulh d a b w)
  | 11 => checked true true true ok3 (.mulhu d a b w)
  | 12 => checked true true true ok3 (.div d a b w)
  | 13 => checked true true true ok3 (.divu d a b w)
  | 14 => checked true true true ok3 (.rem d a b w)
  | 15 => checked true true true ok3 (.remu d a b w)
  | 16 => checked true true true ok3 (.min d a b w)
  | 17 => checked true true true ok3 (.max d a b w)
  | 18 => checked true true true ok3 (.minu d a b w)
  | 19 => checked true true true ok3 (.maxu d a b w)
  | 20 => checked true true true (ok3 && b == 0) (.clz d a w)
  | 21 => checked true true true (ok3 && b == 0) (.ctz d a w)
  | 22 => checked true true true (ok3 && b == 0) (.popc d a w)
  | 23 => checked true true true (ok3 && b == 0) (.brev d a w)
  | _ => .error 2

/-- Condition logic, major 0x0B (R183). -/
def decodeCond (n : Nat) : Except Nat Instr :=
  let d := cAt n 21; let a := cAt n 16; let b := cAt n 11
  let okda := bf n 24 2 == 0 && bf n 19 2 == 0
  let okb := bf n 14 2 == 0
  match bf n 0 11 with
  | 0 => checked true true (okda && okb) true (.cand d a b)
  | 1 => checked true true (okda && okb) true (.cor d a b)
  | 2 => checked true true (okda && okb) true (.cxor d a b)
  | 3 => checked true true (okda && okb) (bf n 11 5 == 0) (.cnot d a)
  | _ => .error 2

/-- Scalar floating point, major 0x10 (R184). -/
def decodeFp (n : Nat) : Except Nat Instr :=
  let d := fAt n 21; let a := fAt n 16; let b := fAt n 11; let f := FFmt.ofCode (bf n 9 2)
  let gd := gAt n 21; let ga := gAt n 16
  let okd := !bit n 25; let oka := !bit n 20; let okb := !bit n 15
  let b0 := bf n 11 5 == 0; let bk := bf n 13 3 == 0; let r0 := bf n 6 3 == 0
  let rnd := FRnd.ofCode? (bf n 6 3)
  match bf n 0 6 with
  | 0 => checkedOpt (rnd.map (.fadd d a b f)) true (okd && oka && okb) true
  | 1 => checkedOpt (rnd.map (.fsub d a b f)) true (okd && oka && okb) true
  | 2 => checkedOpt (rnd.map (.fmul d a b f)) true (okd && oka && okb) true
  | 3 => checkedOpt (rnd.map (.fdiv d a b f)) true (okd && oka && okb) true
  | 4 => checkedOpt (rnd.map (.fsqrt d a f)) true (okd && oka) b0
  | 5 => checked true true (okd && oka && okb) r0 (.fmin d a b f)
  | 6 => checked true true (okd && oka && okb) r0 (.fmax d a b f)
  | 7 => checkedOpt (rnd.map (.fmac d a b f)) true (okd && oka && okb) true
  | 8 => checked true true (okd && oka) (b0 && r0) (.fneg d a f)
  | 9 => checked true true (okd && oka) (b0 && r0) (.fabs d a f)
  | 10 => checkedOpt (rnd.map (.fcvt d a (FFmt.ofCode (bf n 11 2)) f)) true (okd && oka) bk
  | 11 => checkedOpt (rnd.map (.fcvti gd a (IKind.ofCode (bf n 11 2)) f)) true oka bk
  | 12 => checkedOpt (rnd.map (.icvtf d ga (IKind.ofCode (bf n 11 2)) f)) true okd bk
  | 13 => checked true true oka (b0 && r0) (.fmvg gd a f)
  | 14 => checked true true okd (b0 && r0) (.gmvf d ga f)
  | _ => .error 2

/-- Versions, majors 0x1D to 0x1F (R186). -/
def decodeVersion (major n : Nat) : Except Nat Instr :=
  let d := gAt n 21; let a := gAt n 16; let b := gAt n 11
  let d0 := bf n 21 5 == 0; let b0 := bf n 11 5 == 0
  if major == 0x1D then
    match VMode.ofCode? (bf n 0 2), LdMode.ofCode? (bf n 2 3) with
    | some m, some w => checked true true true (bf n 5 6 == 0 && (decide (m ≠ .newest) || b0)) (.vld d a b w m)
    | _, _ => .error 2
  else if major == 0x1E then checked (bf n 0 11 == 0) true true true (.vpub d a b)
  else
    let ok := bf n 4 7 == 0
    match bf n 0 4 with
    | 0 => checked true true true (ok && d0) (.vretire a b)
    | 1 => checked true true true (ok && b0) (.vfloor d a)
    | 2 => checked true true true (ok && b0) (.vnewest d a)
    | 3 => checked true true true ok (.vstamp d a b)
    | _ => .error 2

/-- Atomics and reductions, majors 0x20 and 0x21 (R186). -/
def decodeAtomic (major n : Nat) : Except Nat Instr :=
  let d := gAt n 21; let a := gAt n 16; let b := gAt n 11; let w := bit n 10
  let o := AmoOrder.ofCode (bf n 8 2); let sc := BitVec.ofNat 3 (bf n 5 3); let ok3 := !bit n 4
  if major == 0x20 then
    match bf n 0 4 with
    | 0 => checked true true true ok3 (.amoadd d a b w o sc)
    | 1 => checked true true true ok3 (.amoand d a b w o sc)
    | 2 => checked true true true ok3 (.amoor d a b w o sc)
    | 3 => checked true true true ok3 (.amoxor d a b w o sc)
    | 4 => checked true true true ok3 (.amomin d a b w o sc)
    | 5 => checked true true true ok3 (.amomax d a b w o sc)
    | 6 => checked true true true ok3 (.amominu d a b w o sc)
    | 7 => checked true true true ok3 (.amomaxu d a b w o sc)
    | 8 => checked true true true ok3 (.amoswap d a b w o sc)
    | 9 => checked true true true ok3 (.amocas d a b w o sc)
    | _ => .error 2
  else
    let ok := bf n 4 6 == 0
    match bf n 0 4 with
    | 0 => checked true true (!bit n 15) ok (.redf d a (fAt n 11) w)
    | 1 => checked true true true (ok && bf n 21 5 == 0) (.redinit a b w)
    | _ => .error 2

/-- Synchronisation, major 0x24 (R187). -/
def decodeSync (n : Nat) : Except Nat Instr :=
  let d := gAt n 21; let a := gAt n 16; let b := gAt n 11; let c := cAt n 21
  let d0 := bf n 21 5 == 0; let a0 := bf n 16 5 == 0; let b0 := bf n 11 5 == 0
  let okc := bf n 24 2 == 0; let z := bf n 4 4 == 0; let s0 := bf n 8 3 == 0
  let sc := BitVec.ofNat 3 (bf n 8 3); let oks := 2 ≤ bf n 8 3
  match bf n 0 4 with
  | 0 => checked oks true true (z && d0 && a0 && b0) (.phase sc)
  | 1 => checked oks true okc (z && b0) (.pwait c a sc)
  | 2 => checked oks true true (z && a0 && b0) (.pnum d sc)
  | 3 => checked true true true (z && s0) (.barm d a b)
  | 4 => checked true true true (z && s0 && d0) (.barr a b)
  | 5 => checked true true okc (z && s0) (.barw c a b)
  | 6 => checked true true true (z && s0 && d0) (.tlwait a b)
  | 7 => checked true true true (z && s0 && b0) (.tlread d a)
  | 8 => checked true true true (z && s0 && a0 && b0) (.stime d)
  | 9 => checked true true true (z && s0 && d0 && b0) (.twait a)
  | _ => .error 2

/-- Task machine, major 0x28 (R187). -/
def decodeTask (n : Nat) : Except Nat Instr :=
  let a := gAt n 16; let b := gAt n 11
  let d0 := bf n 21 5 == 0; let a0 := bf n 16 5 == 0; let b0 := bf n 11 5 == 0
  let z := bf n 4 7 == 0; let y := bf n 4 4 == 0
  match bf n 0 4 with
  | 0 => checked true true true (z && d0 && b0) (.tdec a)
  | 1 => checked true true true (z && d0 && b0) (.tspawn a)
  | 2 => checked true true true (z && d0) (.tset a b)
  | 3 => checked true true true (z && d0) (.tdeadline a b)
  | 4 =>
    match bf n 8 3 with
    | 0 => checked true true true (y && d0 && b0) (.tcancelTask a)
    | 1 => checked true true true (y && d0 && b0) (.tcancelLaunch a)
    | 2 => checked true true true (y && d0 && b0) (.tcancelReplay a)
    | 3 => checked (2 ≤ bf n 5 3) true true (!bit n 4 && d0 && a0 && b0) (.tcancelPhase (BitVec.ofNat 3 (bf n 5 3)))
    | 4 => checked true true true (y && d0 && a0 && b0) .tcancelJob
    | _ => .error 2
  | 5 => checked true true true (z && d0 && b0) (.trun a)
  | _ => .error 2

/-- Exits, majors 0x30 to 0x36 (R180). A `skip` of 0 is taken as an unassigned value, reason 2 (DEDUCED, log 12). -/
def decodeExit (major n : Nat) : Except Nat Instr :=
  let c := BitVec.ofNat 3 (bf n 23 3); let o := BitVec.ofNat 21 (bf n 0 21)
  match major with
  | 0x30 => checked true true true (bf n 21 2 == 0) (.bex c o)
  | 0x31 => checked true true true (bf n 21 5 == 0) (.jex o)
  | 0x32 => checked true true true (bf n 21 5 == 0 && bf n 0 16 == 0) (.cex (gAt n 16))
  | 0x33 => .ok (.call (gAt n 21) o)
  | 0x34 => checked true true true (bf n 0 26 == 0) .done
  | 0x35 => checked true true true (bf n 0 26 == 0) .yield
  | _ => checked (bf n 0 7 != 0) true true (bf n 7 16 == 0) (.skip c (BitVec.ofNat 7 (bf n 0 7)))

/-- Command issue and system words, majors 0x38 and 0x3F (R188). -/
def decodeSys (major n : Nat) : Except Nat Instr :=
  let d := gAt n 21; let a := gAt n 16; let t := gAt n 11
  let a0 := bf n 16 5 == 0; let d0 := bf n 21 5 == 0
  let num := BitVec.ofNat 12 (bf n 0 12); let okn := sysRegs.contains (bf n 0 12)
  if major == 0x38 then
    match bf n 0 11 with
    | 0 => checked true true (bf n 21 1 == 0) (bf n 11 5 == 0) (.scmd d a)
    | 1 => checked true true (bf n 21 1 == 0) true (.scmdt d a t)
    | _ => .error 2
  else
    match bf n 12 4 with
    | 0 => checked true okn true a0 (.sysrd d num)
    | 1 => checked true okn true a0 (.syswr d num)
    | 2 => checked true true true (a0 && d0) (.trap num)
    | 3 => checked true true true (a0 && d0 && bf n 0 12 == 0) .halt
    | _ => .error 2

/-- A scalar word, or the reason of R178 that rejects it (R181). -/
def decodeScalarNat (n : Nat) : Except Nat Instr :=
  let d := gAt n 21; let a := gAt n 16; let b := gAt n 11
  let i16 := BitVec.ofNat 16 (bf n 0 16); let i13 := BitVec.ofNat 13 (bf n 0 13)
  let c := cAt n 21; let okc := bf n 24 2 == 0
  match bf n 26 6 with
  | 0x00 => .error 8
  | 0x01 => decodeAlu n
  | 0x02 => .ok (.addi d a i16)
  | 0x03 => .ok (.andi d a i16)
  | 0x04 => .ok (.ori d a i16)
  | 0x05 => .ok (.xori d a i16)
  | 0x06 =>
    let sh := BitVec.ofNat 6 (bf n 0 6); let z := bf n 6 8 == 0
    match bf n 14 2 with
    | 0 => checked true true true z (.shli d a sh)
    | 1 => checked true true true z (.shri d a sh)
    | 2 => checked true true true z (.sari d a sh)
    | _ => .error 2
  | 0x07 => .ok (.lim d (BitVec.ofNat 21 (bf n 0 21)))
  | 0x08 => checked true true true (bf n 16 5 == 0) (.lsh d i16)
  | 0x09 => checkedOpt ((CmpRel.ofCode? (bf n 0 3)).map (.cmp c a b (bit n 10))) true okc (bf n 3 7 == 0)
  | 0x0A => .ok (.cmpi (CmpiRel.ofCode (bf n 24 2)) c a i16)
  | 0x0B => decodeCond n
  | 0x0C => checked true true true (bf n 3 8 == 0) (.sel d a b (BitVec.ofNat 3 (bf n 0 3)))
  | 0x0D => checked true true true (bf n 3 8 == 0) (.lea d a b (BitVec.ofNat 3 (bf n 0 3)))
  | 0x0E =>
    match bf n 0 11 with
    | 0 => checked true true true (bf n 11 5 == 0) (.untaint d a)
    | 1 => checked true true true (bf n 11 5 == 0) (.istaint d a)
    | _ => .error 2
  | 0x10 => decodeFp n
  | 0x11 => checkedOpt ((FRel.ofCode? (bf n 0 3)).map (.fcmp c (fAt n 16) (fAt n 11) (FFmt.ofCode (bf n 9 2)))) true
      (okc && !bit n 20 && !bit n 15) (bf n 3 6 == 0)
  | 0x18 => checkedOpt ((LdMode.ofCode? (bf n 13 3)).map (.ld d a · i13)) true true true
  | 0x19 => checkedOpt ((StMode.ofCode? (bf n 13 3)).map (.st d a · i13)) true true true
  | 0x1A => checkedOpt ((LdcMode.ofCode? (bf n 13 3)).map (.ldc d a · i13)) true true true
  | 0x1B => checkedOpt ((FMode.ofCode? (bf n 13 3)).map (.fld (fAt n 21) a · i13)) true (!bit n 25) true
  | 0x1C => checkedOpt ((FMode.ofCode? (bf n 13 3)).map (.fst (fAt n 21) a · i13)) true (!bit n 25) true
  | 0x1D => decodeVersion 0x1D n
  | 0x1E => decodeVersion 0x1E n
  | 0x1F => decodeVersion 0x1F n
  | 0x20 => decodeAtomic 0x20 n
  | 0x21 => decodeAtomic 0x21 n
  | 0x24 => decodeSync n
  | 0x28 => decodeTask n
  | 0x30 => decodeExit 0x30 n
  | 0x31 => decodeExit 0x31 n
  | 0x32 => decodeExit 0x32 n
  | 0x33 => decodeExit 0x33 n
  | 0x34 => decodeExit 0x34 n
  | 0x35 => decodeExit 0x35 n
  | 0x36 => decodeExit 0x36 n
  | 0x38 => decodeSys 0x38 n
  | 0x3F => decodeSys 0x3F n
  | _ => .error 1

/-- A scalar word, or the reason of R178 that rejects it. -/
def decodeScalar (w : Word32) : Except Nat Instr := decodeScalarNat w.toNat

/-- The header of a block: N and NOSTORE, or none when it is malformed (R176). -/
def decodeHeader (w : Word32) : Option (Nat × Bool) :=
  let n := w.toNat
  if bf n 26 6 == 0 && bf n 0 18 == 0 then some (bf n 19 7, bit n 18) else none

/-- The header word of a block of `k + 1` instructions (R176). -/
def encodeHeader (k : Nat) (nostore : Bool) : Word32 := BitVec.ofNat 32 (k * 2 ^ 19 + b2n nostore * 2 ^ 18)

/-! ### Stream commands -/

/-- Fields of a command word (R189). -/
def cmdOpcode (n : Nat) : Nat := bf n 120 8
def cmdHead (n : Nat) : CmdHead := ⟨bit n 119, bit n 118, bit n 117, bit n 116, BitVec.ofNat 8 (bf n 0 8)⟩
def cmdX (n : Nat) : Nat := bf n 112 4
def cmdRegion (n : Nat) : Nat := bf n 106 6
def cmdPort (n : Nat) : Nat := bf n 100 6
def cmdB (n : Nat) : Nat := bf n 64 36
def cmdA (n : Nat) : Nat := bf n 8 56

/-- The assigned opcodes (R191). -/
def cmdAssigned (op : Nat) : Bool :=
  (0x01 ≤ op && op ≤ 0x0E) || (0x10 ≤ op && op ≤ 0x15) || (0x18 ≤ op && op ≤ 0x1F)

/-- The command of a word whose unused and reserved fields, X included, are 0 (R192 check 3); none otherwise. -/
def decodeCmdFields (n : Nat) : Option Instr :=
  let h := cmdHead n
  let r := BitVec.ofNat 6 (cmdRegion n); let p := BitVec.ofNat 6 (cmdPort n)
  let b := BitVec.ofNat 36 (cmdB n); let a := BitVec.ofNat 56 (cmdA n)
  let x := cmdX n
  let x0 := x == 0; let r0 := cmdRegion n == 0; let p0 := cmdPort n == 0
  let b0 := cmdB n == 0; let a0 := cmdA n == 0
  let x1 := x < 2; let lastX := bit x 0
  let ok (c : Bool) (i : Instr) : Option Instr := if c && h.wf then some i else none
  match cmdOpcode n with
  | 0x01 => ok x1 (.load h r p lastX b a)
  | 0x02 => ok x0 (.store h r p b a)
  | 0x03 => ok x0 (.publish h r p b a)
  | 0x04 => ok (x < 8) (.vload h r p (BitVec.ofNat 2 x) (bit x 2) b a)
  | 0x05 => ok (x0 && r0 && p0 && b0) (.copy h a)
  | 0x06 => ok (x0 && r0 && p0 && b0) (.copyv h a)
  | 0x07 => ok (x0 && r0 && p0 && b0) (.fill h a)
  | 0x08 => ok (x0 && p0) (.arm h r b a)
  | 0x09 => ok (x0 && p0 && b0 && a0) (.disarm h r)
  | 0x0A => ok x0 (.config h r p b a)
  | 0x0B => ok (x0 && p0 && b0 && a0) (.stop h r)
  | 0x0C => ok (x0 && p0 && a0) (.marker h r b)
  | 0x0D => ok (x0 && p0) (.snap h r b a)
  | 0x0E => ok (x0 && p0) (.resume h r b a)
  | 0x10 => ok (x0 && r0 && p0) (.wsload h b a)
  | 0x11 => ok (x0 && r0 && p0) (.wsread h b a)
  | 0x12 => ok (x0 && r0 && p0) (.berthfill h b a)
  | 0x13 => ok (x1 && r0 && p0) (.berthevict h lastX b a)
  | 0x14 => ok (x1 && r0 && p0 && a0) (.berthpin h lastX b)
  | 0x15 => ok (x0 && r0 && p0 && a0) (.berthfree h b)
  | 0x18 => ok (x0 && r0 && p0) (.txload h b a)
  | 0x19 => ok (x0 && r0 && p0) (.txrun h b a)
  | 0x1A => ok (x1 && r0 && p0) (.encode h lastX b a)
  | 0x1B => ok (x0 && r0 && p0) (.coll h b a)
  | 0x1C => ok (x0 && r0 && p0 && b0 && a0) (.notify h)
  | 0x1D => ok (x0 && r0 && p0) (.bwait h b a)
  | 0x1E => ok (x0 && r0 && p0) (.tlwaitq h b a)
  | 0x1F => ok (x0 && p0) (.hang h r b a)
  | _ => none

/-- A command word: the command, or the failing check of R192 that needs the word alone (1 or 3). -/
def decodeCmd (w : CmdWord) : Except Nat Instr :=
  if cmdAssigned (cmdOpcode w.toNat) then
    match decodeCmdFields w.toNat with
    | some i => .ok i
    | none => .error 3
  else .error 1

/-- The bits of a command (R189). -/
def cmdNat (op : Nat) (h : CmdHead) (x region port b a : Nat) : Nat :=
  op * 2 ^ 120 + b2n h.notify * 2 ^ 119 + b2n h.arrive * 2 ^ 118 + b2n h.after * 2 ^ 117 + b2n h.inherit * 2 ^ 116
    + x * 2 ^ 112 + region * 2 ^ 106 + port * 2 ^ 100 + b * 2 ^ 64 + a * 2 ^ 8 + h.sel.toNat

/-- The word of a stream command; none for a step that is not a command. -/
def encodeCmd (i : Instr) : Option CmdWord :=
  let mk (op : Nat) (h : CmdHead) (x region port b a : Nat) : Option CmdWord :=
    some (BitVec.ofNat 128 (cmdNat op h x region port b a))
  match i with
  | .load h r p l b a => mk 0x01 h (b2n l) r.toNat p.toNat b.toNat a.toNat
  | .store h r p b a => mk 0x02 h 0 r.toNat p.toNat b.toNat a.toNat
  | .publish h r p b a => mk 0x03 h 0 r.toNat p.toNat b.toNat a.toNat
  | .vload h r p m l b a => mk 0x04 h (m.toNat + 4 * b2n l) r.toNat p.toNat b.toNat a.toNat
  | .copy h a => mk 0x05 h 0 0 0 0 a.toNat
  | .copyv h a => mk 0x06 h 0 0 0 0 a.toNat
  | .fill h a => mk 0x07 h 0 0 0 0 a.toNat
  | .arm h r b a => mk 0x08 h 0 r.toNat 0 b.toNat a.toNat
  | .disarm h r => mk 0x09 h 0 r.toNat 0 0 0
  | .config h r p b a => mk 0x0A h 0 r.toNat p.toNat b.toNat a.toNat
  | .stop h r => mk 0x0B h 0 r.toNat 0 0 0
  | .marker h r b => mk 0x0C h 0 r.toNat 0 b.toNat 0
  | .snap h r b a => mk 0x0D h 0 r.toNat 0 b.toNat a.toNat
  | .resume h r b a => mk 0x0E h 0 r.toNat 0 b.toNat a.toNat
  | .wsload h b a => mk 0x10 h 0 0 0 b.toNat a.toNat
  | .wsread h b a => mk 0x11 h 0 0 0 b.toNat a.toNat
  | .berthfill h b a => mk 0x12 h 0 0 0 b.toNat a.toNat
  | .berthevict h f b a => mk 0x13 h (b2n f) 0 0 b.toNat a.toNat
  | .berthpin h f b => mk 0x14 h (b2n f) 0 0 b.toNat 0
  | .berthfree h b => mk 0x15 h 0 0 0 b.toNat 0
  | .txload h b a => mk 0x18 h 0 0 0 b.toNat a.toNat
  | .txrun h b a => mk 0x19 h 0 0 0 b.toNat a.toNat
  | .encode h f b a => mk 0x1A h (b2n f) 0 0 b.toNat a.toNat
  | .coll h b a => mk 0x1B h 0 0 0 b.toNat a.toNat
  | .notify h => mk 0x1C h 0 0 0 0 0
  | .bwait h b a => mk 0x1D h 0 0 0 b.toNat a.toNat
  | .tlwaitq h b a => mk 0x1E h 0 0 0 b.toNat a.toNat
  | .hang h r b a => mk 0x1F h 0 r.toNat 0 b.toNat a.toNat
  | _ => none

/-! ### Operator words -/

/-- The opcode of an operator word (R193). -/
def opOpcode (n : Nat) : Nat := bf n 248 8

/-- The common fields of an operator word (R193). -/
def opCfg (n : Nat) : OpCfg :=
  let e (lo : Nat) : EdgeNo := BitVec.ofNat 12 (bf n lo 12)
  ⟨bit n 247, bit n 246, BitVec.ofNat 3 (bf n 243 3), e 192, e 204, e 216, e 228, e 144, e 156, e 168, e 180⟩

/-- Vector PARAM (R303); bits 122:112 and 79:0 are reserved. -/
def vecParam (n : Nat) : VecParam :=
  ⟨BitVec.ofNat 8 (bf n 136 8), BitVec.ofNat 2 (bf n 134 2), BitVec.ofNat 3 (bf n 131 3), BitVec.ofNat 3 (bf n 128 3),
    BitVec.ofNat 2 (bf n 126 2), BitVec.ofNat 2 (bf n 124 2), bit n 123, BitVec.ofNat 32 (bf n 80 32)⟩

/-- PARAM of `gather` and `scatter` (R315). -/
def rowParam (n : Nat) : RowParam :=
  ⟨BitVec.ofNat 32 (bf n 112 32), BitVec.ofNat 32 (bf n 80 32), BitVec.ofNat 32 (bf n 48 32), BitVec.ofNat 2 (bf n 46 2)⟩

/-- PARAM of a port-tile operator (R316). -/
def portParam (n : Nat) : PortParam :=
  ⟨BitVec.ofNat 6 (bf n 138 6), bit n 137, BitVec.ofNat 4 (bf n 133 4), BitVec.ofNat 32 (bf n 101 32), bit n 100⟩

/-- Edge numbers of ports 4 to 7 (R283). -/
def edges4 (n : Nat) : Edges4 :=
  let e (lo : Nat) : EdgeNo := BitVec.ofNat 12 (bf n lo 12)
  ⟨e 96, e 108, e 120, e 132⟩

/-- PARAM of `merge` and `split` (R322). -/
def turnParam (n : Nat) : TurnParam :=
  ⟨edges4 n, BitVec.ofNat 3 (bf n 93 3), bit n 92, BitVec.ofNat 2 (bf n 90 2)⟩

/-- The operators 0x20 to 0x34. -/
def decodeVec (k : Nat) (c : OpCfg) (p : VecParam) : Option Instr :=
  match k with
  | 0 => some (.vadd c p)
  | 1 => some (.vsub c p)
  | 2 => some (.vmul c p)
  | 3 => some (.vfma c p)
  | 4 => some (.vmax c p)
  | 5 => some (.vmin c p)
  | 6 => some (.vabs c p)
  | 7 => some (.vneg c p)
  | 8 => some (.vexp2 c p)
  | 9 => some (.vlog2 c p)
  | 10 => some (.vrcp c p)
  | 11 => some (.vrsqrt c p)
  | 12 => some (.vcvt c p)
  | 13 => some (.vcmp c p)
  | 14 => some (.vand c p)
  | 15 => some (.vor c p)
  | 16 => some (.vxor c p)
  | 17 => some (.vshl c p)
  | 18 => some (.vshr c p)
  | 19 => some (.vred c p)
  | 20 => some (.vscan c p)
  | _ => none

/-- The reserved PARAM bits of an opcode are 0 (R285; 12_operators.md). -/
def opParamOk (n : Nat) : Bool :=
  let op := opOpcode n
  if op == 0x10 then bf n 34 14 == 0 && bf n 0 32 == 0
  else if op == 0x11 then bf n 0 144 == 0
  else if 0x20 ≤ op && op ≤ 0x34 then bf n 112 11 == 0 && bf n 0 80 == 0
  else if op == 0x35 then bf n 0 142 == 0
  else if op == 0x36 then bf n 0 144 == 0
  else if op == 0x37 then bf n 0 139 == 0
  else if 0x40 ≤ op && op ≤ 0x43 then bf n 0 131 == 0
  else if op == 0x50 then true
  else if op == 0x51 || op == 0x52 then bf n 0 46 == 0
  else if 0x60 ≤ op && op ≤ 0x63 then bf n 0 100 == 0
  else if op == 0x70 then bf n 0 71 == 0
  else if op == 0x71 then bf n 0 132 == 0
  else if op == 0x72 then bf n 0 113 == 0
  else if op == 0x73 || op == 0x74 then bf n 0 90 == 0
  else if op == 0x75 then bf n 0 93 == 0
  else if op == 0x76 || op == 0x77 || op == 0x7A then bf n 0 144 == 0
  else if op == 0x78 then bf n 0 100 == 0
  else if op == 0x79 then bf n 0 106 == 0
  else if op == 0x7B then bf n 0 143 == 0
  else if op == 0x7C then bf n 0 115 == 0
  else false

/-- The operator of a word with an assigned opcode (R194), whatever its reserved bits. -/
def decodeOpFields (n : Nat) : Option Instr :=
  let c := opCfg n
  let op := opOpcode n
  if 0x20 ≤ op && op ≤ 0x34 then decodeVec (op - 0x20) c (vecParam n)
  else
    match op with
    | 0x10 => some (.mmp c ⟨BitVec.ofNat 32 (bf n 112 32), BitVec.ofNat 32 (bf n 80 32), BitVec.ofNat 32 (bf n 48 32), bit n 33, bit n 32⟩)
    | 0x11 => some (.mmload c)
    | 0x35 => some (.vquant c (BitVec.ofNat 2 (bf n 142 2)))
    | 0x36 => some (.vdequant c)
    | 0x37 => some (.planes c (BitVec.ofNat 4 (bf n 140 4)) (bit n 139))
    | 0x40 => some (.buf c (BitVec.ofNat 13 (bf n 131 13)))
    | 0x41 => some (.scratch c (BitVec.ofNat 13 (bf n 131 13)))
    | 0x42 => some (.window c (BitVec.ofNat 2 (bf n 142 2)) (BitVec.ofNat 11 (bf n 131 11)))
    | 0x43 => some (.pin c (BitVec.ofNat 13 (bf n 131 13)))
    | 0x50 =>
      let h (lo : Nat) : BitVec 16 := BitVec.ofNat 16 (bf n lo 16)
      some (.agen c ⟨h 128, h 112, h 96, h 80, h 64, h 48, h 32, h 16, h 0⟩)
    | 0x51 => some (.gather c (rowParam n))
    | 0x52 => some (.scatter c (rowParam n))
    | 0x60 => some (.mload c (portParam n))
    | 0x61 => some (.mstore c (portParam n))
    | 0x62 => some (.matom c (portParam n))
    | 0x63 => some (.mvers c (portParam n))
    | 0x70 => some (.siding c ⟨BitVec.ofNat 17 (bf n 127 17), BitVec.ofNat 12 (bf n 115 12), BitVec.ofNat 32 (bf n 83 32), BitVec.ofNat 12 (bf n 71 12)⟩)
    | 0x71 => some (.race c (BitVec.ofNat 8 (bf n 136 8)) (BitVec.ofNat 4 (bf n 132 4)))
    | 0x72 => some (.count c ⟨BitVec.ofNat 16 (bf n 128 16), BitVec.ofNat 6 (bf n 122 6), BitVec.ofNat 6 (bf n 116 6), BitVec.ofNat 3 (bf n 113 3)⟩)
    | 0x73 => some (.merge c (turnParam n))
    | 0x74 => some (.split c (turnParam n))
    | 0x75 => some (.dup c (edges4 n) (BitVec.ofNat 3 (bf n 93 3)))
    | 0x76 => some (.gate c)
    | 0x77 => some (.select c)
    | 0x78 => some (.delay c ⟨BitVec.ofNat 10 (bf n 134 10), bit n 133, BitVec.ofNat 32 (bf n 101 32), bit n 100⟩)
    | 0x79 => some (.stopgen c ⟨BitVec.ofNat 16 (bf n 128 16), BitVec.ofNat 3 (bf n 125 3), BitVec.ofNat 16 (bf n 109 16), BitVec.ofNat 3 (bf n 106 3)⟩)
    | 0x7A => some (.filter c)
    | 0x7B => some (.sortnet c (bit n 143))
    | 0x7C => some (.wsport c (BitVec.ofNat 14 (bf n 130 14)) (BitVec.ofNat 14 (bf n 116 14)) (bit n 115))
    | _ => none

/-- An operator word, or none for an unassigned opcode or a non-zero reserved bit (R193-R195, R285). -/
def decodeOp (w : OpWord) : Option Instr :=
  let n := w.toNat
  if bf n 240 3 == 0 && opParamOk n then decodeOpFields n else none

/-- Edge numbers from bit 144 up, and the common fields (R193). -/
def cfgNat (op : Nat) (c : OpCfg) : Nat :=
  op * 2 ^ 248 + b2n c.deferred * 2 ^ 247 + b2n c.sat * 2 ^ 246 + c.rnd.toNat * 2 ^ 243
    + c.in3.toNat * 2 ^ 228 + c.in2.toNat * 2 ^ 216 + c.in1.toNat * 2 ^ 204 + c.in0.toNat * 2 ^ 192
    + c.out3.toNat * 2 ^ 180 + c.out2.toNat * 2 ^ 168 + c.out1.toNat * 2 ^ 156 + c.out0.toNat * 2 ^ 144

def vecNat (p : VecParam) : Nat :=
  p.afmt.toNat * 2 ^ 136 + p.acc.toNat * 2 ^ 134 + p.alev.toNat * 2 ^ 131 + p.rel.toNat * 2 ^ 128 + p.op.toNat * 2 ^ 126
    + p.span.toNat * 2 ^ 124 + b2n p.immb * 2 ^ 123 + p.const.toNat * 2 ^ 80

def rowNat (p : RowParam) : Nat :=
  p.row.toNat * 2 ^ 112 + p.limit.toNat * 2 ^ 80 + p.base.toNat * 2 ^ 48 + p.dim.toNat * 2 ^ 46

def portNat (p : PortParam) : Nat :=
  p.xport.toNat * 2 ^ 138 + b2n p.mode * 2 ^ 137 + p.aop.toNat * 2 ^ 133 + p.seq.toNat * 2 ^ 101 + b2n p.dir * 2 ^ 100

def edges4Nat (e : Edges4) : Nat :=
  e.e7.toNat * 2 ^ 132 + e.e6.toNat * 2 ^ 120 + e.e5.toNat * 2 ^ 108 + e.e4.toNat * 2 ^ 96

def turnNat (p : TurnParam) : Nat :=
  edges4Nat p.ports + p.m.toNat * 2 ^ 93 + b2n p.byTensor * 2 ^ 92 + p.dim.toNat * 2 ^ 90

/-- The word of an operator; none for a step that is not an operator. -/
def encodeOp (i : Instr) : Option OpWord :=
  let mk (op : Nat) (c : OpCfg) (param : Nat) : Option OpWord := some (BitVec.ofNat 256 (cfgNat op c + param))
  match i with
  | .mmp c p => mk 0x10 c (p.tsa.toNat * 2 ^ 112 + p.tsb.toNat * 2 ^ 80 + p.bdesc.toNat * 2 ^ 48 + b2n p.cmpr * 2 ^ 33 + b2n p.uadd * 2 ^ 32)
  | .mmload c => mk 0x11 c 0
  | .vadd c p => mk 0x20 c (vecNat p)
  | .vsub c p => mk 0x21 c (vecNat p)
  | .vmul c p => mk 0x22 c (vecNat p)
  | .vfma c p => mk 0x23 c (vecNat p)
  | .vmax c p => mk 0x24 c (vecNat p)
  | .vmin c p => mk 0x25 c (vecNat p)
  | .vabs c p => mk 0x26 c (vecNat p)
  | .vneg c p => mk 0x27 c (vecNat p)
  | .vexp2 c p => mk 0x28 c (vecNat p)
  | .vlog2 c p => mk 0x29 c (vecNat p)
  | .vrcp c p => mk 0x2a c (vecNat p)
  | .vrsqrt c p => mk 0x2b c (vecNat p)
  | .vcvt c p => mk 0x2c c (vecNat p)
  | .vcmp c p => mk 0x2d c (vecNat p)
  | .vand c p => mk 0x2e c (vecNat p)
  | .vor c p => mk 0x2f c (vecNat p)
  | .vxor c p => mk 0x30 c (vecNat p)
  | .vshl c p => mk 0x31 c (vecNat p)
  | .vshr c p => mk 0x32 c (vecNat p)
  | .vred c p => mk 0x33 c (vecNat p)
  | .vscan c p => mk 0x34 c (vecNat p)
  | .vquant c t => mk 0x35 c (t.toNat * 2 ^ 142)
  | .vdequant c => mk 0x36 c 0
  | .planes c t z => mk 0x37 c (t.toNat * 2 ^ 140 + b2n z * 2 ^ 139)
  | .buf c d => mk 0x40 c (d.toNat * 2 ^ 131)
  | .scratch c d => mk 0x41 c (d.toNat * 2 ^ 131)
  | .window c n d => mk 0x42 c (n.toNat * 2 ^ 142 + d.toNat * 2 ^ 131)
  | .pin c d => mk 0x43 c (d.toNat * 2 ^ 131)
  | .agen c p => mk 0x50 c (p.n0.toNat * 2 ^ 128 + p.n1.toNat * 2 ^ 112 + p.n2.toNat * 2 ^ 96 + p.n3.toNat * 2 ^ 80
      + p.s0.toNat * 2 ^ 64 + p.s1.toNat * 2 ^ 48 + p.s2.toNat * 2 ^ 32 + p.s3.toNat * 2 ^ 16 + p.nt.toNat)
  | .gather c p => mk 0x51 c (rowNat p)
  | .scatter c p => mk 0x52 c (rowNat p)
  | .mload c p => mk 0x60 c (portNat p)
  | .mstore c p => mk 0x61 c (portNat p)
  | .matom c p => mk 0x62 c (portNat p)
  | .mvers c p => mk 0x63 c (portNat p)
  | .siding c p => mk 0x70 c (p.gbase.toNat * 2 ^ 127 + p.gcnt.toNat * 2 ^ 115 + p.d.toNat * 2 ^ 83 + p.edge.toNat * 2 ^ 71)
  | .race c e k => mk 0x71 c (e.toNat * 2 ^ 136 + k.toNat * 2 ^ 132)
  | .count c p => mk 0x72 c (p.n.toNat * 2 ^ 128 + p.ii.toNat * 2 ^ 122 + p.dist.toNat * 2 ^ 116 + p.lev.toNat * 2 ^ 113)
  | .merge c p => mk 0x73 c (turnNat p)
  | .split c p => mk 0x74 c (turnNat p)
  | .dup c e m => mk 0x75 c (edges4Nat e + m.toNat * 2 ^ 93)
  | .gate c => mk 0x76 c 0
  | .select c => mk 0x77 c 0
  | .delay c p => mk 0x78 c (p.n.toNat * 2 ^ 134 + b2n p.init * 2 ^ 133 + p.const.toNat * 2 ^ 101 + b2n p.carry * 2 ^ 100)
  | .stopgen c p => mk 0x79 c (p.run1.toNat * 2 ^ 128 + p.lev1.toNat * 2 ^ 125 + p.run2.toNat * 2 ^ 109 + p.lev2.toNat * 2 ^ 106)
  | .filter c => mk 0x7A c 0
  | .sortnet c d => mk 0x7B c (b2n d * 2 ^ 143)
  | .wsport c b0 b1 s => mk 0x7C c (b0.toNat * 2 ^ 130 + b1.toNat * 2 ^ 116 + b2n s * 2 ^ 115)
  | _ => none

/-! ### Encoding of scalar instructions -/

/-- A TRI word (R179). -/
def tri (major d a b func : Nat) : Nat := major * 2 ^ 26 + d * 2 ^ 21 + a * 2 ^ 16 + b * 2 ^ 11 + func
/-- An IMM word (R179). -/
def imm (major d a i : Nat) : Nat := major * 2 ^ 26 + d * 2 ^ 21 + a * 2 ^ 16 + i
/-- A MEM word (R179). -/
def memWord (major d b m i : Nat) : Nat := major * 2 ^ 26 + d * 2 ^ 21 + b * 2 ^ 16 + m * 2 ^ 13 + i
/-- func of the integer ALU group (R182). -/
def aluFunc (w : Bool) (k : Nat) : Nat := b2n w * 2 ^ 10 + k
/-- func of the floating group (R184). -/
def fpFunc (f : FFmt) (r k : Nat) : Nat := f.code * 2 ^ 9 + r * 2 ^ 6 + k
/-- func of the atomics (R186). -/
def amoFunc (w : Bool) (o : AmoOrder) (sc : BitVec 3) (k : Nat) : Nat := b2n w * 2 ^ 10 + o.code * 2 ^ 8 + sc.toNat * 2 ^ 5 + k

/-- The word of a scalar instruction as a number; none for any other step. -/
def encodeScalarNat (i : Instr) : Option Nat :=
  match i with
  | .add d a b w => some (tri 0x01 d.toNat a.toNat b.toNat (aluFunc w 0))
  | .sub d a b w => some (tri 0x01 d.toNat a.toNat b.toNat (aluFunc w 1))
  | .and d a b w => some (tri 0x01 d.toNat a.toNat b.toNat (aluFunc w 2))
  | .or d a b w => some (tri 0x01 d.toNat a.toNat b.toNat (aluFunc w 3))
  | .xor d a b w => some (tri 0x01 d.toNat a.toNat b.toNat (aluFunc w 4))
  | .andn d a b w => some (tri 0x01 d.toNat a.toNat b.toNat (aluFunc w 5))
  | .shl d a b w => some (tri 0x01 d.toNat a.toNat b.toNat (aluFunc w 6))
  | .shr d a b w => some (tri 0x01 d.toNat a.toNat b.toNat (aluFunc w 7))
  | .sar d a b w => some (tri 0x01 d.toNat a.toNat b.toNat (aluFunc w 8))
  | .mul d a b w => some (tri 0x01 d.toNat a.toNat b.toNat (aluFunc w 9))
  | .mulh d a b w => some (tri 0x01 d.toNat a.toNat b.toNat (aluFunc w 10))
  | .mulhu d a b w => some (tri 0x01 d.toNat a.toNat b.toNat (aluFunc w 11))
  | .div d a b w => some (tri 0x01 d.toNat a.toNat b.toNat (aluFunc w 12))
  | .divu d a b w => some (tri 0x01 d.toNat a.toNat b.toNat (aluFunc w 13))
  | .rem d a b w => some (tri 0x01 d.toNat a.toNat b.toNat (aluFunc w 14))
  | .remu d a b w => some (tri 0x01 d.toNat a.toNat b.toNat (aluFunc w 15))
  | .min d a b w => some (tri 0x01 d.toNat a.toNat b.toNat (aluFunc w 16))
  | .max d a b w => some (tri 0x01 d.toNat a.toNat b.toNat (aluFunc w 17))
  | .minu d a b w => some (tri 0x01 d.toNat a.toNat b.toNat (aluFunc w 18))
  | .maxu d a b w => some (tri 0x01 d.toNat a.toNat b.toNat (aluFunc w 19))
  | .clz d a w => some (tri 0x01 d.toNat a.toNat 0 (aluFunc w 20))
  | .ctz d a w => some (tri 0x01 d.toNat a.toNat 0 (aluFunc w 21))
  | .popc d a w => some (tri 0x01 d.toNat a.toNat 0 (aluFunc w 22))
  | .brev d a w => some (tri 0x01 d.toNat a.toNat 0 (aluFunc w 23))
  | .addi d a i => some (imm 0x2 d.toNat a.toNat i.toNat)
  | .andi d a i => some (imm 0x3 d.toNat a.toNat i.toNat)
  | .ori d a i => some (imm 0x4 d.toNat a.toNat i.toNat)
  | .xori d a i => some (imm 0x5 d.toNat a.toNat i.toNat)
  | .shli d a h => some (imm 0x06 d.toNat a.toNat (0 * 2 ^ 14 + h.toNat))
  | .shri d a h => some (imm 0x06 d.toNat a.toNat (1 * 2 ^ 14 + h.toNat))
  | .sari d a h => some (imm 0x06 d.toNat a.toNat (2 * 2 ^ 14 + h.toNat))
  | .lim d i => some (0x07 * 2 ^ 26 + d.toNat * 2 ^ 21 + i.toNat)
  | .lsh d i => some (imm 0x08 d.toNat 0 i.toNat)
  | .cmp c a b w r => some (tri 0x09 c.toNat a.toNat b.toNat (b2n w * 2 ^ 10 + r.code))
  | .cmpi r c a i => some (imm 0x0A (r.code * 8 + c.toNat) a.toNat i.toNat)
  | .cand d a b => some (tri 0x0B d.toNat a.toNat b.toNat 0)
  | .cor d a b => some (tri 0x0B d.toNat a.toNat b.toNat 1)
  | .cxor d a b => some (tri 0x0B d.toNat a.toNat b.toNat 2)
  | .cnot d a => some (tri 0x0B d.toNat a.toNat 0 3)
  | .sel d a b c => some (tri 0x0C d.toNat a.toNat b.toNat c.toNat)
  | .lea d a b h => some (tri 0x0D d.toNat a.toNat b.toNat h.toNat)
  | .untaint d a => some (tri 0x0E d.toNat a.toNat 0 0)
  | .istaint d a => some (tri 0x0E d.toNat a.toNat 0 1)
  | .fadd d a b f r => some (tri 0x10 d.toNat a.toNat b.toNat (fpFunc f r.code 0))
  | .fsub d a b f r => some (tri 0x10 d.toNat a.toNat b.toNat (fpFunc f r.code 1))
  | .fmul d a b f r => some (tri 0x10 d.toNat a.toNat b.toNat (fpFunc f r.code 2))
  | .fdiv d a b f r => some (tri 0x10 d.toNat a.toNat b.toNat (fpFunc f r.code 3))
  | .fsqrt d a f r => some (tri 0x10 d.toNat a.toNat 0 (fpFunc f r.code 4))
  | .fmin d a b f => some (tri 0x10 d.toNat a.toNat b.toNat (fpFunc f 0 5))
  | .fmax d a b f => some (tri 0x10 d.toNat a.toNat b.toNat (fpFunc f 0 6))
  | .fmac d a b f r => some (tri 0x10 d.toNat a.toNat b.toNat (fpFunc f r.code 7))
  | .fneg d a f => some (tri 0x10 d.toNat a.toNat 0 (fpFunc f 0 8))
  | .fabs d a f => some (tri 0x10 d.toNat a.toNat 0 (fpFunc f 0 9))
  | .fcvt d a s f r => some (tri 0x10 d.toNat a.toNat s.code (fpFunc f r.code 10))
  | .fcvti d a k f r => some (tri 0x10 d.toNat a.toNat k.code (fpFunc f r.code 11))
  | .icvtf d a k f r => some (tri 0x10 d.toNat a.toNat k.code (fpFunc f r.code 12))
  | .fmvg d a f => some (tri 0x10 d.toNat a.toNat 0 (fpFunc f 0 13))
  | .gmvf d a f => some (tri 0x10 d.toNat a.toNat 0 (fpFunc f 0 14))
  | .fcmp c a b f r => some (tri 0x11 c.toNat a.toNat b.toNat (f.code * 2 ^ 9 + r.code))
  | .ld d b m i => some (memWord 0x18 d.toNat b.toNat m.code i.toNat)
  | .st d b m i => some (memWord 0x19 d.toNat b.toNat m.code i.toNat)
  | .ldc d b m i => some (memWord 0x1A d.toNat b.toNat m.code i.toNat)
  | .fld d b m i => some (memWord 0x1B d.toNat b.toNat m.code i.toNat)
  | .fst d b m i => some (memWord 0x1C d.toNat b.toNat m.code i.toNat)
  | .vld d a n w m => some (tri 0x1D d.toNat a.toNat n.toNat (w.code * 4 + m.code))
  | .vpub d a n => some (tri 0x1E d.toNat a.toNat n.toNat 0)
  | .vretire a n => some (tri 0x1F 0 a.toNat n.toNat 0)
  | .vfloor d a => some (tri 0x1F d.toNat a.toNat 0 1)
  | .vnewest d a => some (tri 0x1F d.toNat a.toNat 0 2)
  | .vstamp d a n => some (tri 0x1F d.toNat a.toNat n.toNat 3)
  | .amoadd d a b w o sc => some (tri 0x20 d.toNat a.toNat b.toNat (amoFunc w o sc 0))
  | .amoand d a b w o sc => some (tri 0x20 d.toNat a.toNat b.toNat (amoFunc w o sc 1))
  | .amoor d a b w o sc => some (tri 0x20 d.toNat a.toNat b.toNat (amoFunc w o sc 2))
  | .amoxor d a b w o sc => some (tri 0x20 d.toNat a.toNat b.toNat (amoFunc w o sc 3))
  | .amomin d a b w o sc => some (tri 0x20 d.toNat a.toNat b.toNat (amoFunc w o sc 4))
  | .amomax d a b w o sc => some (tri 0x20 d.toNat a.toNat b.toNat (amoFunc w o sc 5))
  | .amominu d a b w o sc => some (tri 0x20 d.toNat a.toNat b.toNat (amoFunc w o sc 6))
  | .amomaxu d a b w o sc => some (tri 0x20 d.toNat a.toNat b.toNat (amoFunc w o sc 7))
  | .amoswap d a b w o sc => some (tri 0x20 d.toNat a.toNat b.toNat (amoFunc w o sc 8))
  | .amocas d a b w o sc => some (tri 0x20 d.toNat a.toNat b.toNat (amoFunc w o sc 9))
  | .redf d a b w => some (tri 0x21 d.toNat a.toNat b.toNat (b2n w * 2 ^ 10))
  | .redinit a b w => some (tri 0x21 0 a.toNat b.toNat (b2n w * 2 ^ 10 + 1))
  | .phase sc => some (tri 0x24 0 0 0 (sc.toNat * 2 ^ 8))
  | .pwait c a sc => some (tri 0x24 c.toNat a.toNat 0 (sc.toNat * 2 ^ 8 + 1))
  | .pnum d sc => some (tri 0x24 d.toNat 0 0 (sc.toNat * 2 ^ 8 + 2))
  | .barm d a b => some (tri 0x24 d.toNat a.toNat b.toNat 3)
  | .barr a b => some (tri 0x24 0 a.toNat b.toNat 4)
  | .barw c a b => some (tri 0x24 c.toNat a.toNat b.toNat 5)
  | .tlwait a b => some (tri 0x24 0 a.toNat b.toNat 6)
  | .tlread d a => some (tri 0x24 d.toNat a.toNat 0 7)
  | .stime d => some (tri 0x24 d.toNat 0 0 8)
  | .twait a => some (tri 0x24 0 a.toNat 0 9)
  | .tdec a => some (tri 0x28 0 a.toNat 0 0)
  | .tspawn a => some (tri 0x28 0 a.toNat 0 1)
  | .tset a b => some (tri 0x28 0 a.toNat b.toNat 2)
  | .tdeadline a b => some (tri 0x28 0 a.toNat b.toNat 3)
  | .tcancelTask a => some (tri 0x28 0 a.toNat 0 4)
  | .tcancelLaunch a => some (tri 0x28 0 a.toNat 0 (1 * 2 ^ 8 + 4))
  | .tcancelReplay a => some (tri 0x28 0 a.toNat 0 (2 * 2 ^ 8 + 4))
  | .tcancelPhase sc => some (tri 0x28 0 0 0 (3 * 2 ^ 8 + sc.toNat * 2 ^ 5 + 4))
  | .tcancelJob => some (tri 0x28 0 0 0 (4 * 2 ^ 8 + 4))
  | .trun a => some (tri 0x28 0 a.toNat 0 5)
  | .bex c o => some (0x30 * 2 ^ 26 + c.toNat * 2 ^ 23 + o.toNat)
  | .jex o => some (0x31 * 2 ^ 26 + o.toNat)
  | .cex a => some (0x32 * 2 ^ 26 + a.toNat * 2 ^ 16)
  | .call d o => some (0x33 * 2 ^ 26 + d.toNat * 2 ^ 21 + o.toNat)
  | .done => some (0x34 * 2 ^ 26)
  | .yield => some (0x35 * 2 ^ 26)
  | .skip c k => some (0x36 * 2 ^ 26 + c.toNat * 2 ^ 23 + k.toNat)
  | .scmd p q => some (tri 0x38 p.toNat q.toNat 0 0)
  | .scmdt p q t => some (tri 0x38 p.toNat q.toNat t.toNat 1)
  | .sysrd d n => some (0x3F * 2 ^ 26 + d.toNat * 2 ^ 21 + n.toNat)
  | .syswr a n => some (0x3F * 2 ^ 26 + a.toNat * 2 ^ 21 + 1 * 2 ^ 12 + n.toNat)
  | .trap k => some (0x3F * 2 ^ 26 + 2 * 2 ^ 12 + k.toNat)
  | .halt => some (0x3F * 2 ^ 26 + 3 * 2 ^ 12)
  | _ => none

/-- The word of a scalar instruction. -/
def encodeScalar (i : Instr) : Option Word32 := (encodeScalarNat i).map (BitVec.ofNat 32)

/-- Decoding of bytes as the hardware stores a scalar word (R4): the instruction and the bytes after it, or the
reason that rejects it; 0 when fewer than four bytes are given. -/
def decodeBytes (bs : List Byte) : Except Nat (Instr × List Byte) :=
  match bs with
  | b0 :: b1 :: b2 :: b3 :: rest =>
    match decodeScalarNat (ofBytes [b0, b1, b2, b3]) with
    | .ok i => .ok (i, rest)
    | .error r => .error r
  | _ => .error 0

/-- What the decoders read from a word of the opcode table: a scalar word of 32 bits laid out as four little-endian
bytes, a stream command of 128 bits, an operator word of 256 bits. -/
def decodeTableWord (nbits w : Nat) : Option Instr :=
  if nbits ≤ 32 then
    match decodeBytes (toBytes 4 (w % 2 ^ nbits)) with
    | .ok (i, _) => some i
    | .error _ => none
  else if nbits ≤ 128 then
    match decodeCmd (BitVec.ofNat 128 (w % 2 ^ nbits)) with
    | .ok i => some i
    | .error _ => none
  else decodeOp (BitVec.ofNat 256 (w % 2 ^ nbits))

end Sys2Proof
end

