-- ==== Sys2Proof/Config.lean ====
section
/-! DEFINITION. What an implementation fixes and what the manual leaves open: constants without a body, so that no
proof can see their values, and sizes that the manual gives. -/

namespace Sys2Proof.Config

/-- Beats that the link path of an edge with the given number of intermediate tiles can hold: 21_paging.md R404
counts such beats, no rule gives their number. Free value (log 10). -/
opaque linkRoom : Nat → Nat

/-- The coded frame in an encoder's bitstream, behind the units that 11_stream_commands.md R279 states. Its arguments are the descriptor, the frame's bytes and a fresh number. Free value (log 10). -/
opaque bitstream : BitVec 512 → List (BitVec 8) → Nat → List (BitVec 8)

/-- The contents of a unit that R279 wants on a key frame: 0 VPS, 1 SPS, 2 PPS, 3 the AV1 sequence header, for a fresh
number. Free value (log 10). -/
opaque streamHeader : Nat → Nat → List (BitVec 8)

/-- Bytes that an overrun left between OUT and OUT + OLIM - 1 (R279). Free value (log 10). -/
opaque overrunByte : Nat → Nat → BitVec 8

/-- Whether a byte that an earlier command of the context wrote reads old in a copy without AFTER (R269), for a fresh
number and an address. Free value (log 10). -/
opaque readsOld : Nat → Nat → Bool

/-- Bytes of the parts of a region image whose layout is not architectural (R402). Free value (log 10). -/
opaque imageByte : Nat → Nat → BitVec 8

/-- The STATEVER of this device's opaque state layout (R401). Implementation constant (log 10). -/
opaque stateVer : BitVec 32

/-- The number that the signing engine draws for a signature (R421). Free value (log 10). -/
opaque signNonce : Nat → Nat

/-- What the fuses hold as the device identity key, a private key (R421). Implementation constant (log 10). -/
opaque fuseIdentity : Nat

/-- The key digest in the fuses (R417). Implementation constant (log 10). -/
opaque fuseKeyDigest : BitVec 256

/-- The value of a task record's word 0 after an ordinary store to it while VALID = 1, which R24 leaves undefined for
that record. Free value (log 10). -/
opaque recordWord : Nat → BitVec 64

/-- What an `amo` addressed to a reduction window returns (05_memory.md R142 gives no result). Free value (log 10). -/
opaque windowOld : Nat → BitVec 64

/-- What a host read of data that holds an uncorrectable error returns (23_fleet.md R431 gives no value). Free value
(log 10). -/
opaque badRead : Nat → BitVec 64

/-- Lane `n` of the outputs of a `race` whose token has fewer scores than K, by what was latched (12_operators.md R324
states no winner there). Free value (log 10). -/
opaque raceIndex : List (Nat × Nat × Nat) → Nat → BitVec 32
opaque raceScore : List (Nat × Nat × Nat) → Nat → BitVec 32

/-- DRAM of one die in bytes: two stacks of 48 GiB (01_machine.md R15). -/
def dramBytes : Nat := 96 * 2 ^ 30
/-- Berth store of one die in bytes (05_memory.md R118). -/
def berthStoreBytes : Nat := 48 * 2 ^ 20
/-- Offset of the weight store in the on-chip window (R118). -/
def wsOffset : Nat := 0x40000000
/-- Weight store of one die in bytes (R118). -/
def wsBytes : Nat := 2 ^ 30
/-- Ready-queue entries of one die (02_execution.md R40). -/
def readyEntries : Nat := 16384
/-- Commands an on-chip queue holds (R45). -/
def onChipQueue : Nat := 256
/-- Commands a spill ring holds (R45). -/
def spillRing : Nat := 65536
/-- Granules of one die's siding pool (03_fabric.md R75). -/
def poolGranules : Nat := 131072
/-- Bytes of one die's formation store (01 R15). -/
def formationStore : Nat := 8 * 2 ^ 20
/-- Contributions the reorder buffer of an atomic unit holds (05 R141). -/
def reorderCapacity : Nat := 256
/-- Started data commands a port holds (11 R263). -/
def portQueue : Nat := 16
/-- One microsecond of station time (01 R18). -/
def usec : Nat := 16000

end Sys2Proof.Config
end

