-- ==== Sys2Proof/Machine/State.lean ====
section
/-! DEFINITION. The state of one KH4-2400 package: all that the manual gives the machine, as plain data. -/

namespace Sys2Proof.Machine

/-- Bytes by location (log 5): ascending, no repeats, no entry equal to what an unlisted location reads as (log 4). -/
abbrev Memory := List Host.Cell

/-! ### Ordering (06_ordering.md) -/

/-- The stores that happen before something, by their numbers in the store history, ascending (R145). -/
abbrev View := List Nat

/-- One concrete group of agents of a scope (R143): the scope code, the job, and what tells the groups of that scope
and job apart. -/
structure ScopeAt where
  scope : Nat
  job : Nat
  key : Nat
  deriving DecidableEq, Repr

/-- An agent as a member of scopes (R143, R144): its job, agent number, die, quarter group and region. -/
structure Agent where
  job : Nat
  num : Nat
  die : Nat
  quarter : Nat
  region : Option Nat
  deriving DecidableEq, Repr

/-- A performed release: who can acquire it and what it makes available (R146). -/
structure Release where
  by_ : Agent
  inst : ScopeAt
  view : View
  deriving DecidableEq, Repr

/-- Where a task's store stands: its die, the record index, the block and the address (10_scalar_memory.md R237), the page
entries that its bytes went through, and among them the leaves (21_paging.md R394, R395). -/
structure StoreSrc where
  die : Nat
  idx : Nat
  pc : Word64
  va : Word64
  path : List Nat
  leaves : List Nat
  deriving DecidableEq, Repr

/-- One committed store, atomic or hardware write (R145, R154, R155). `placed` is its place in the order of its home,
0 while no release has brought it there. -/
structure StoreRec where
  by_ : Agent
  bytes : List Host.Cell
  view : View
  placed : Nat
  /-- an ordinary store, which R155 may count as conflicting -/
  ordinary : Bool
  /-- what a busy weight store reports of a task's store (R237) -/
  src : Option StoreSrc
  deriving DecidableEq, Repr

def StoreRec.job (r : StoreRec) : Nat := r.by_.job
def StoreRec.agent (r : StoreRec) : Nat := r.by_.num

/-- What an agent knows: `view` for its own accesses, `rel` what its releases make available beyond that (R152). -/
structure AgentView where
  job : Nat
  num : Nat
  view : View
  rel : View
  deriving DecidableEq, Repr

/-- The release-ordered atomics of an aligned 8-byte word, newest first (R147, R154). -/
structure WordOrder where
  word : Nat
  rels : List Release
  deriving DecidableEq, Repr

/-- A phase counter as one die (package scope and wider) or group knows it (R148, R157). -/
structure PhaseAt where
  at_ : ScopeAt
  die : Nat
  p : BitVec 32
  /-- arrivals toward boundary p + 1 -/
  arrived : Nat
  /-- releases of the arrivals, each with the boundary it counts toward -/
  rels : List (Nat × Release)
  /-- per other die, the PHASE of the newest staff held -/
  held : List (Nat × Nat)
  /-- the PHASE of the newest staff of SKIND 0x01 sent -/
  sent : Nat
  /-- the RSEQ of the newest staff sent: how many releases of this die's agents to the instance it covers -/
  rseq : Nat
  /-- what the phase agent has acquired by the staffs that it received (R147) -/
  known : View
  /-- stores counted at earlier boundaries (R155) -/
  counted : View
  deriving DecidableEq, Repr

/-- A staff in flight (R156), with the arrivals at boundaries that it tells of and the stores that the releases which it
covers make available (R146). -/
structure Staff where
  skind : Nat
  sdie : Nat
  ddie : Nat
  scope : Nat
  job : Nat
  phase : Nat
  rseq : Nat
  stamp : Word64
  rels : List (Nat × Release)
  covers : View
  deriving DecidableEq, Repr

/-! ### Versions and reductions (05_memory.md) -/

/-- A slot of a job, as an address names it: range number, slot number, offset, range entry (R131). -/
structure SlotRef where
  range : Nat
  slot : Nat
  off : Nat
  entry : BitVec 256
  deriving DecidableEq, Repr

/-- A live version (R132). -/
structure Version where
  num : BitVec 32
  stamp : Word64
  retired : Nat
  data : Memory
  deriving DecidableEq, Repr

/-- A slot that has left its state at creation: its live set, ascending, and the releases of its publications. -/
structure Slot where
  job : Nat
  range : Nat
  slot : Nat
  live : List Version
  rels : List (BitVec 32 × Release)
  deriving DecidableEq, Repr

/-- A publication that has reached a slot's home (R133). `wait` ones found the pool full. -/
structure Publication where
  job : Nat
  va : Word64
  target : SlotRef
  num : BitVec 32
  /-- the number is NEWEST + 1 when it is applied (R140) -/
  auto : Bool
  /-- bytes of the new version by offset in the slot; the others are carried forward -/
  data : List Host.Cell
  agent : Agent
  view : View
  /-- the command that waits for it, if one does -/
  cmd : Option (Nat × Nat)
  deriving DecidableEq, Repr

/-- Who contributes to a reduction: a task of a generation, whose FLAGS take an overflow, a `matom` on a tile of a region,
whose TFLAGS do, or an external switch (R140, R142). -/
inductive RedSource
  | task (idx gen : Nat)
  | tile (v x y : Nat)
  | switch
  deriving DecidableEq, Repr

/-- A contribution to a reduction (R140). -/
structure Contribution where
  job : Nat
  va : Word64
  target : SlotRef
  f32 : Bool
  index : Nat
  value : Word64
  source : RedSource
  deriving DecidableEq, Repr

/-- An open reduction (R140, R141). -/
structure Reduction where
  job : Nat
  va : Word64
  target : SlotRef
  f32 : Bool
  count : Nat
  next : Nat
  acc : Word64
  held : List Contribution
  /-- the opener, whose release the publication makes -/
  agent : Agent
  view : View
  deriving DecidableEq, Repr

/-! ### Tasks (02_execution.md) -/

/-- The registers of a context (R37, 09_scalar_compute.md R198). `tview` holds, per tainted g register, what its
`ldc` ordered (06 R152). -/
structure RegFile where
  g : Vector Word64 32
  f : Vector Word64 16
  c : Vector Bool 8
  taint : Vector Bool 32
  tview : Vector View 32
  fpctl : BitVec 16
  deriving DecidableEq, Repr

/-- Why a task is parked (R35). -/
inductive Park
  | slot (va : Word64)
  | pool (va : Word64)
  | phase (sc : Nat) (die key : Nat) (n : Nat)
  | barrier (die num : Nat)
  | timeline (qid : Nat) (n : Nat)
  | time (t : Nat)
  | pager (die token : Nat)
  | spill (qid : Nat)
  /-- until a bank of a die's weight store opens, or a period of its budgets begins, at a station time (05_memory.md R128,
  23_fleet.md R425) -/
  | bank (die t : Nat)
  deriving DecidableEq, Repr

/-- A held operation of a block (10_scalar_memory.md R232), in program order. `view` is what happens before it where it
stands; `rel` what its release makes available beyond that. -/
inductive HeldOp
  | store (va : Word64) (loc : List Nat) (bytes : List Byte) (view : View)
  | vpub (va : Word64) (value : Word64) (n : BitVec 32) (view rel : View)
  | vretire (va : Word64) (n : BitVec 32)
  | phase (sc : Nat)
  | barm (word notify : Word64) (expect : BitVec 32)
  | barr (word : Word64) (w : BitVec 32)
  deriving DecidableEq, Repr

/-- Operations of the `amo` group (R243). -/
inductive AmoOp | add | and | or | xor | min | max | minu | maxu | swap | cas
  deriving DecidableEq, Repr

/-- The commit-point instruction of a block (02 R32). -/
inductive CommitPoint
  | amo (op : AmoOp) (va : Word64) (w32 : Bool) (o : AmoOrder) (sc : Nat) (b x : Word64) (d : GReg)
  | redf (va : Word64) (f32 : Bool) (index : Nat) (value : Word64)
  | redinit (va : Word64) (f32 : Bool) (count : Nat)
  deriving DecidableEq, Repr

/-- A task-machine operation of a block (R250). -/
inductive TaskOp
  | dec (target : Word64)
  | spawn (idx : Nat)
  | set (idx : Nat) (w : Word64)
  | deadline (target d : Word64)
  | cancelTask (target : Word64)
  | cancelLaunch (v : Nat)
  | cancelReplay (va : Word64)
  | cancelPhase (sc : Nat)
  | cancelJob
  | run (va : Word64)
  deriving DecidableEq, Repr

/-- A captured command issue (R249). -/
structure Issue where
  qid : Nat
  word : CmdWord
  dest : Option GReg
  deriving DecidableEq, Repr

/-- How a block ends (R34, R39, R231). -/
inductive Exit
  | goto (pc : Word64)
  | done
  | yield
  deriving DecidableEq, Repr

/-- A sequencer context that runs a task: the fetched block, the index of the next instruction (1 is the first), the
registers of the last commit and those of the running block, and what the block holds until it commits. -/
structure Ctx where
  die : Nat
  seq : Nat
  ctx : Nat
  job : Nat
  idx : Nat
  /-- the generation that was dispatched -/
  gen : Nat
  pc : Word64
  words : List Word32
  ip : Nat
  base : RegFile
  regs : RegFile
  /-- flags raised since the block began or since its last `syswr FPCTL` -/
  raised : BitVec 8
  baseView : View
  view : View
  baseRel : View
  rel : View
  /-- held operations and the commit-point instruction, each with its word's index -/
  held : List (Nat × HeldOp)
  commitPt : Option (Nat × CommitPoint)
  issues : List Issue
  taskOps : List TaskOp
  /-- `halt` executed in this block (R256) -/
  halting : Bool
  /-- an access that cannot reach its home, since this station time (R58) -/
  stalled : Option (Nat × Word64)
  deriving DecidableEq, Repr

/-- What the machine keeps of a task beside its record (R22-R43). -/
structure TaskAux where
  job : Nat
  idx : Nat
  /-- registers of the last commit and the next block, when the task has been dispatched before (R37) -/
  saved : Option (RegFile × Word64)
  park : Option Park
  /-- DEADLINE_MISS was posted for the record's generation (R43) -/
  missed : Bool
  /-- an overflow of a reduction waits for the next commit (10 R244) -/
  owesOF : Bool
  /-- the node of a running replay that started it (R49, R54): the timetable and the node -/
  node : Option (Word64 × Nat)
  /-- the phases in which it started (R49) -/
  startedIn : List (ScopeAt × Nat)
  deriving DecidableEq, Repr

/-- An entry of a ready queue, which is kept in the order of R40 and R39, or of the PARK chain. -/
structure ReadyEntry where
  job : Nat
  idx : Nat
  deriving DecidableEq, Repr

/-- A stage barrier that has left its state at reset (R47). -/
structure Barrier where
  die : Nat
  num : Nat
  expect : BitVec 32
  sum : BitVec 32
  gen : BitVec 32
  err : Bool
  lasterr : Bool
  overrun : Bool
  notify : Option (Nat × Nat)
  owner : Nat
  rels : List (BitVec 32 × Release)
  deriving DecidableEq, Repr

/-- The state of a timetable node in a running replay (R55). -/
structure NodeSt where
  /-- predecessors still missing, and whether a completion has come since the counter was set -/
  left : Nat
  seen : Bool
  started : Bool
  /-- a launch node whose commands wait for room in their queue -/
  due : Bool
  /-- its work has ended, so that it can complete -/
  ready : Bool
  /-- a while node in its loop, and the iterations it has counted -/
  looping : Bool
  iter : Nat
  /-- the successor entry that a conditional or while node goes to -/
  choice : Nat
  /-- what its predecessors released (R54) -/
  view : View
  deriving DecidableEq, Repr

/-- A running replay (R55, R56). -/
structure Replay where
  job : Nat
  va : Word64
  /-- the parameter version that it is bound to (R56) -/
  params : Version
  nodes : List NodeSt
  capped : Bool
  /-- the phases in which it started (R49) -/
  startedIn : List (ScopeAt × Nat)
  deriving DecidableEq, Repr

/-! ### Commands (11_stream_commands.md) -/

/-- How a command ended. -/
inductive CmdResult
  | ok
  /-- completed unsuccessfully without an event (`bwait` with LASTERR, R282) -/
  | err
  | fail (code : Nat) (subc : Nat) (addr : Word64) (det : BitVec 160)
  | rejected (check : Nat)
  | discarded
  deriving DecidableEq, Repr

/-- Where a started command stands. -/
inductive CmdPhase
  | running
  /-- waits at its port, or for the launch it belongs to (R263, R264) -/
  | atPort
  /-- stopped on a page fault (R261) -/
  | faulted (die token : Nat)
  | ended (r : CmdResult)
  deriving DecidableEq, Repr

/-- A queued or started command (R257). -/
structure Cmd where
  tln : Nat
  word : CmdWord
  cls : Nat
  deadline : Word64
  /-- what its issue releases toward it (06 R146) -/
  view : View
  phase : CmdPhase
  /-- units already done, for a command that goes on where it stopped -/
  progress : Nat
  /-- bytes read and not yet written -/
  buf : List Byte
  /-- the descriptor read at its start, or another value that it keeps -/
  desc : Nat
  /-- an access of it waits for its home since this station time (02 R58) -/
  stalled : Option (Nat × Word64)
  /-- the timetable node that issued it (R54) -/
  node : Option (Word64 × Nat)
  /-- page leaves at which its write is counted, with bits 63:0 of the entry that it used (R122, 21_paging.md R394; log 100) -/
  counted : List (Nat × Nat)
  deriving DecidableEq, Repr

/-- A job's context on a queue (R257). -/
structure Queue where
  job : Nat
  qid : Nat
  onChip : List Cmd
  spill : List Cmd
  /-- the spill slot it holds, and the ring entry of the oldest spilled command (R46) -/
  slot : Option Nat
  spillAt : Nat
  next : Nat
  counter : Nat
  finished : List Nat
  started : List Cmd
  /-- a `bwait` or `tlwaitq` that holds the context -/
  hold : Option Nat
  overflowed : Bool
  rels : List (Nat × Release)
  /-- what finished `bwait`s and `tlwaitq`s acquired for the commands that follow (R282) -/
  acq : View
  /-- stores that commands of the context made: timeline number and store (R269) -/
  writes : List (Nat × Nat)
  deriving DecidableEq, Repr

/-- A chunk of a transducer run (R276). -/
structure Chunk where
  out : Option (List Byte)
  cause : Nat
  deriving DecidableEq, Repr

/-- A transducer run (R275-R277). -/
structure TxRun where
  job : Nat
  qid : Nat
  tln : Nat
  lane : Nat
  lanes : Nat
  desc : BitVec 256
  chunks : List (BitVec 192)
  decoded : List (Option Chunk)
  released : Nat
  outBytes : Nat
  deriving DecidableEq, Repr

/-- A transducer table (R273). -/
structure TxTable where
  states : Nat
  trans : List (BitVec 32)
  emits : List Word64
  accept : List Bool
  deriving DecidableEq, Repr

/-- A stream of a video encoder (R279): the key of its last key frame. -/
structure EncStream where
  unit : Nat
  stream : Nat
  key : Nat
  deriving DecidableEq, Repr

/-- A member's started `coll` (R281): the member dies of this package, and whether there are members in others, as they
stood when it started (20 R386). -/
structure CollCall where
  job : Nat
  id : Nat
  die : Nat
  qid : Nat
  tln : Nat
  desc : BitVec 256
  members : List Nat
  beyond : Bool
  deriving DecidableEq, Repr

/-- Berth states (05 R127). -/
inductive BerthState | free | filling | resident | pinned | evicting
  deriving DecidableEq, Repr

/-- A berth that has left its state at reset. -/
structure Berth where
  job : Nat
  idx : Nat
  state : BerthState
  gen : BitVec 16
  deriving DecidableEq, Repr

/-- A scheduler fill on its way, running, or held behind an eviction (R271, R272). -/
structure SchedFill where
  job : Nat
  idx : Nat
  gen : BitVec 16
  running : Bool
  /-- held behind an eviction, and, once that has completed, until the berth queue of its job has passed this timeline
  number -/
  held : Bool
  heldTo : Option Nat
  /-- stopped in place on a page fault (R261) -/
  stopped : Option Nat
  deriving DecidableEq, Repr

/-! ### Regions (03_fabric.md, 12_operators.md, 18_arming.md, 21_paging.md) -/

/-- Beat kinds (R63); kind 7 is never emitted. -/
inductive BeatKind | data | stop | config | marker | poison | cond | group
  deriving DecidableEq, Repr

/-- A beat. `held` marks a copy of the trap poison (R291, R402). -/
structure Beat where
  kind : BeatKind
  data : BitVec 512
  held : Bool
  deriving DecidableEq, Repr

/-- A factor of an order type (R69). -/
structure Factor where
  dim : Nat
  ext : Nat
  step : Nat
  ragged : Bool
  deriving DecidableEq, Repr

/-- An order type (R69). -/
structure Order where
  lanes : List Factor
  beats : List Factor
  deriving DecidableEq, Repr

/-- An edge of an armed formation (R59, R349): `link` holds the beats from the producer, `out` those that a siding has
sent on. -/
structure Edge where
  sop : Nat
  dop : Nat
  sport : Nat
  dport : Nat
  fmt : Nat
  desc : BitVec 32
  strict : Bool
  p : Order
  q : Order
  link : List Beat
  out : List Beat
  /-- the index of its siding among the region's operators -/
  siding : Option Nat
  /-- beats that its link path can hold (model's own, log 10) -/
  room : Nat
  deriving DecidableEq, Repr

/-- A 64 by 64 tile of B in the weight banks (12 R296): integer forms by k and column, scale codes and X by block. -/
structure Bank where
  tag : BitVec 40
  q : List Int
  scale : List Nat
  x : List Int
  deriving DecidableEq, Repr

/-- State of an `mmp` (R296, R297). -/
structure MmpMem where
  active : Option Bank
  inactive : Option Bank
  /-- bank 1 is the active one -/
  second : Bool
  /-- format tag of the accumulator bank: 0 while it holds nothing (04 R116) -/
  acctag : BitVec 40
  /-- a swap point has been passed and the swap has not been made -/
  swapDue : Bool
  /-- beats of the slice being read, and of the addend -/
  heads : List Beat
  planes : List Beat
  us : List Beat
  /-- the chunk of the row group being read, and what the group has accumulated, 8 by 64: FP32 codes or integers -/
  chunk : Nat
  acc : List Int
  poison : Option Beat
  deriving DecidableEq, Repr

/-- A running value per lane (R307, R308, R113). -/
inductive AccVal
  | empty
  | val (v : Nat)
  | poison (b : Beat)
  deriving DecidableEq, Repr

/-- A tensor, or a slice of a ragged one, in a siding (R76, R78): beats that leave before it, its number in its tensor,
producer beats arrived, consumer beats sent, and the stop that follows it. -/
structure SideTensor where
  before : List Beat
  slice : Nat
  beats : List Beat
  sent : Nat
  closing : List Beat
  closed : Bool
  deriving DecidableEq, Repr

/-- Positional and persistent state of an operator (R288). -/
inductive OpMem
  | idle
  | mmp (m : MmpMem)
  | mmload (beats : List Beat)
  | planes (beats : List Beat)
  /-- running values with the format tag of their register (04 R116): 0 while it holds nothing -/
  | acc (tag : BitVec 40) (vs : List AccVal)
  | fifo (bs : List Beat)
  | scratch (area : List (Nat × Beat)) (wt rt : Nat)
  | window (hist : List Beat)
  | pin (stored : List Beat) (loading : List Beat) (playing : Option (List Beat)) (owed : Nat)
  | agen (i0 i1 i2 i3 t : Nat) (ended : Bool)
  | port (pos : Nat) (open_ : Bool)
  | mvers (n : BitVec 32) (pos : Nat) (data : List Host.Cell) (open_ : Bool)
  | race (keys : List (Nat × Nat × Nat)) (j : Nat) (poison : Option Beat)
  | count (i : Nat) (active : Bool) (loops thrLoops : Nat) (delivered : Nat) (ended : Bool)
  | turn (i : Nat) (gone : List Nat) (mid : Bool)
  /-- the store, whether it is to be filled afresh, and the beats that have left before those that replace them came -/
  | delay (store : List Beat) (fresh : Bool) (ahead : Nat)
  | stopgen (pos runs : Nat)
  | wsport (sel : Bool)
  /-- what a siding holds, and the number of the slice that it takes next (R78) -/
  | siding (ts : List SideTensor) (next : Nat)
  deriving DecidableEq, Repr, Inhabited

/-- The state that a changed STATE, SIDING or TAGS section of an image gives an operator (21 R403: undefined), for a
fresh number. Free value (log 10). -/
opaque alteredMem : Nat → OpMem

/-- An operator of an armed region (R59, R346, R348). -/
structure Op where
  word : OpWord
  /-- the word as the image holds it -/
  armed : OpWord
  forced : Bool
  x : Nat
  y : Nat
  slot : Nat
  /-- deferred mode, forced by arming or configured (R82) -/
  deferred : Bool
  mem : OpMem
  /-- output beats of a burst that have not left, with their port (R286) -/
  outbox : List (Nat × Beat)
  /-- positions consumed in the current tensor, per input port (R65), and the inputs whose streams stand inside a
  tensor (R85) -/
  pos : List Nat
  inside : List Nat
  /-- inputs that have delivered the marker (R88), and those that have delivered a final stop (R67) -/
  marked : List Nat
  finals : List Nat
  frozen : Bool
  deriving DecidableEq, Repr

/-- A tile's sticky flags and generator (04 R106, R107). -/
structure Tile where
  x : Nat
  y : Nat
  tflags : BitVec 8
  gen : BitVec 32
  deriving DecidableEq, Repr

/-- Region states (R61). -/
inductive RegionState | empty | loaded | armed | running | stopped | saved
  deriving DecidableEq, Repr

/-- The first trap of a region (R290, R291). -/
structure TrapRec where
  op : Nat
  cause : Nat
  lane : Nat
  pos : Nat
  port : Nat
  subc : Nat
  addr : Word64
  ox : Nat
  oy : Nat
  oslot : Nat
  poison : Beat
  deriving DecidableEq, Repr

/-- An external port: its operator, its kind, and the data commands it holds, oldest first, each by queue and number
(R263). -/
structure ExtPort where
  op : Nat
  kind : Nat
  cmds : List (Nat × Nat)
  deriving DecidableEq, Repr

/-- What an armed region's tiles hold; it is also what a region image holds (R402). -/
structure Body where
  ops : List Op
  edges : List Edge
  tiles : List Tile
  ports : List ExtPort
  deriving DecidableEq, Repr

/-- A virtual region of a job that is not EMPTY as at reset. -/
structure Region where
  job : Nat
  v : Nat
  state : RegionState
  die : Nat
  x0 : Nat
  y0 : Nat
  w : Nat
  h : Nat
  /-- image address and length (R362, R363) -/
  imgVa : Word64
  imgLen : Nat
  seed : BitVec 32
  watchdog : Nat
  ranges : List (BitVec 256)
  body : Body
  /-- granule runs held: base and count (R361) -/
  granules : List (Nat × Nat)
  /-- data commands and `config`s of the launch, by queue and number (R264) -/
  launch : Option (List (Nat × Nat))
  /-- the phases in which the launch started (R49) -/
  launchIn : List (ScopeAt × Nat)
  /-- the node of a replay that started the launch, and every node that has commands in it (R54) -/
  node : Option (Word64 × Nat)
  nodes : List (Word64 × Nat)
  trap : Option TrapRec
  /-- a stop: CAUSE and station time (R401) -/
  cause : Nat
  marker : BitVec 32
  stopTime : Word64
  /-- the faulting port access is performed first on resume (R401): its operator and fault token -/
  fault : Option (Nat × Nat)
  hangUs : Nat
  hangBuf : Word64
  /-- station time of the last beat moved while RUNNING (R266) -/
  moved : Word64
  /-- ports whose access waits for its home: operator, address, and since when (02 R58) -/
  stalls : List (Nat × Nat × Word64)
  /-- a marker waits since this station time (R57), with its command -/
  preempt : Option (Word64 × Nat × Nat)
  /-- the waiting marker may be injected: no group boundary stands before it (R57); until then, the sources that a group
  beat has passed since it began to wait -/
  cutOpen : Bool
  grouped : List Nat
  /-- where the image of a SAVED region lies, its length, and whether that is a scan buffer at a physical address -/
  saved : Option (Word64 × Nat × Bool)
  /-- its beats are frozen until its formation image has been read again (R363) -/
  reloading : Bool
  /-- the occupancy map of a hang that is still to be written (R404) -/
  mapDue : Option (List Byte)
  /-- a SAVED region whose fault has been answered with RETRY, and which resumes as soon as nothing overlaps it (R399) -/
  resumeDue : Bool
  deriving DecidableEq, Repr

/-- What a written region image stands for (21 R401-R403): the region and the time of its stop, which the image's header
names, the region's tiles, and the operator whose port access faulted. -/
structure Snap where
  job : Nat
  v : Nat
  time : Word64
  body : Body
  fault : Option Nat
  deriving DecidableEq, Repr

/-! ### Jobs and host ports (20_host.md) -/

/-- A resident job, or one that has ended and has not been retired (R385). -/
structure Job where
  num : Nat
  record : BitVec 1024
  /-- physical address of the record -/
  recPa : Nat
  ranges : List (BitVec 256)
  /-- places in the home order at acceptance: later stores are later than creation (06 R145) -/
  createdAt : Nat
  /-- station time of the acceptance on each die (05 R132) -/
  stamp : Vector Word64 4
  started : Bool
  ended : Option Nat
  cancelling : Bool
  /-- launches held after NO_FRAME (21 R400) -/
  held : Bool
  /-- arms of the arm list still to run -/
  arms : List CmdWord
  /-- what the release of the doorbell made available to the job engine (R383) -/
  view : View
  deriving DecidableEq, Repr

/-- An operation of the host that waits at its port: an access through the aperture, whose place is then a physical address, or
a write of JOBDB or JOBCTL that came behind one (R377, 21 R390). -/
structure PortOp where
  register : Bool
  write : Bool
  off : Nat
  value : Word64
  deriving DecidableEq, Repr

/-- A job's completion word: its locations, and what the ended job's agents have released to package scope (R377). -/
structure EndWord where
  locs : List Nat
  view : View
  deriving DecidableEq, Repr

/-- The registers of a host port (R376, 22 R419). -/
structure Port where
  apbase : Word64
  jobres : Word64
  intstat : Word64
  winsel : Word64
  rcvstat : Nat
  rcvaddr : Word64
  rcvlen : Word64
  /-- data of the last host read (model's own: what the port returned) -/
  rdata : Word64
  /-- MSI-X vectors raised, newest first -/
  vectors : List Nat
  /-- accesses and doorbells that wait, in the order in which the host made them (21 R390) -/
  waiting : List PortOp
  deriving DecidableEq, Repr

/-- A semaphore entry that is held (R379). -/
structure Sem where
  n : Nat
  owner : Nat
  token : BitVec 32
  deriving DecidableEq, Repr

/-! ### Dies, links, time, the pager and Depot -/

/-- DIECTL.STATE (22 R406). -/
inductive DieState | off | partition | training | live | fenced
  deriving DecidableEq, Repr

/-- The pager interface of a die (21 R393). -/
structure PagerIf where
  pgrbase : Word64
  pgrlog : Nat
  pgprod : Nat
  pgcons : Nat
  pgea : Word64
  pgnew : Word64
  pgexp : BitVec 32
  busy : Bool
  ok : Bool
  /-- address of the entry that the swap under way took up at its step 1 (R395) -/
  swapAt : Nat
  deriving DecidableEq, Repr

/-- Who waits on a page fault (R397, R398). -/
inductive FaultSrc
  | task (idx : Nat)
  | fetch (idx : Nat)
  | region (v : Nat)
  | command (qid tln : Nat)
  | reread (v : Nat)
  /-- a scheduler fill of a berth, beside the berth queue (11 R271) -/
  | fill (qid idx : Nat)
  /-- a walk of the hardware to a structure of the job, for no party that the table of R398 lists (log 95) -/
  | hardware
  deriving DecidableEq, Repr

/-- A pending page fault (R397). -/
structure PageFault where
  token : Nat
  job : Nat
  src : FaultSrc
  va : Word64
  pc : Word64
  kind : Nat
  level : Nat
  cause : Nat
  stamp : Word64
  /-- DETAIL of a task's PAGE event (10 R234) -/
  det : Nat
  posted : Bool
  noframe : Bool
  /-- a release has come since its NOFRAME: the pager owes it another answer (R400) -/
  again : Bool
  /-- a fault of the hardware's own that the pager has answered with PAGE: what lies there is left out from then on (log 95) -/
  lost : Bool
  deriving DecidableEq, Repr

/-- A walk of the hardware to a job's structures that has not come to its bytes (21 R395, R397): the job, the address, and
the level and the cause of a page fault; none where it waits. -/
structure HwMiss where
  job : Nat
  va : Nat
  fault : Option (Nat × Nat)
  deriving DecidableEq, Repr

/-- The servo of a follower (22 R412). -/
structure Servo where
  free : Word64
  xnum : Nat
  t1 : Word64
  t2 : Word64
  t3 : Word64
  t4 : Word64
  /-- 0 idle, 1 TREQ sent, 2 TRSP sent, 3 TRSP received -/
  stage : Nat
  voided : Bool
  locked : Bool
  /-- offset not yet absorbed, in units -/
  residue : Int
  /-- station time of the last complete exchange, and the parent's STIME_EPS then -/
  last : Word64
  epsP : Nat
  /-- units passed since the last slew step -/
  slew : Nat
  deriving DecidableEq, Repr

/-- Telemetry counters (23 R429). -/
structure Counters where
  cfgsoft : Nat
  conflict : Nat
  deadltr : Nat
  dlmiss : Nat
  berthDrops : Nat
  ecccor : Nat
  eccunc : Nat
  trkrpt : Nat
  trkdown : Nat
  budwait : Nat
  deriving DecidableEq, Repr

/-- Units that an activity charges for (23 R425): memory requests, trunk cells, and units of work, of so many PWR each. -/
structure Bill where
  reqs : Nat
  cells : Nat
  work : Nat
  per : Nat
  deriving DecidableEq, Repr

/-- Units of a party at a gate of a die (23 R425): the activity and its unit, the party (a command, one of its parts, a
scheduler fill or a host port), and the units that have not passed. -/
structure GateWait where
  kind : Nat
  unit : Nat
  job : Nat
  qid : Nat
  tln : Nat
  part : Nat
  owes : Bill
  deriving DecidableEq, Repr

/-- One die. -/
structure Die where
  state : DieState
  bustage : Nat
  active : Bool
  orient : BitVec 10
  stime : Word64
  cycle : Word64
  servo : Servo
  stopped : Bool
  ready : List ReadyEntry
  chain : List ReadyEntry
  /-- charges of the eight classes in the current period, in station-time units of one context (R41) -/
  charged : Vector Nat 8
  period : Nat
  /-- the budget table as written, the one waiting for a period start, and the halvings in force (23 R423-R428) -/
  budget : BitVec 1152
  pending : Option (BitVec 1152)
  halved : Nat
  overheated : Bool
  /-- halved once more for the current 1 ms, because the average power exceeded PWRLIM -/
  overpower : Bool
  /-- station time of the last check of the limits (23 R428) -/
  powerAt : Nat
  /-- budgets left in the activity period per unit: kind and index, MEM, TRK in trunk cells, PWR (R425) -/
  left : List (Nat × Nat × Nat × Nat × Nat)
  actPeriod : Nat
  /-- a gate held a unit in this activity period -/
  waited : Bool
  gates : List GateWait
  lanes : List (Nat × TxTable)
  berths : List Berth
  fills : List SchedFill
  streams : List EncStream
  pager : PagerIf
  faults : List PageFault
  nextToken : Nat
  counters : Counters
  /-- junction and inlet in 1/16 degree, average power in W: inputs -/
  junction : Nat
  inlet : Nat
  power : Nat
  /-- replays requested and not started, in order, and those that its walker runs (R56) -/
  replays : List (Nat × Word64)
  running : List Replay
  deriving DecidableEq, Repr

/-- A receive buffer of a trunk link as its sender counts them (R387, 06 R158): its VC, the destination die, and, of a
reserved one, which: the escape buffer of a request channel, or the staff buffer of an SKIND. -/
structure TrunkBuf where
  vc : Nat
  dest : Nat
  reserved : Option Nat
  deriving DecidableEq, Repr

/-- One direction of a trunk link (R387): the SEQ to deliver next, cells that have arrived ahead of a gap, repeat requests
per missing SEQ, and the cells delivered, oldest first. -/
structure LinkDir where
  next : BitVec 16
  ahead : List (BitVec 512)
  repeats : List (BitVec 16 × Nat)
  out : List (BitVec 512)
  /-- the sender's side: the SEQ of its next cell, the cells sent that have not arrived good, the buffers that the
  receiver has advertised and that are free, and the buffers that sent cells hold, by their SEQ -/
  seq : BitVec 16
  flight : List (BitVec 512)
  free : List TrunkBuf
  used : List (BitVec 16 × TrunkBuf)
  /-- response space that the sender has reserved for requests which it has not sent yet (06 R158) -/
  resp : Nat
  deriving DecidableEq, Repr

/-- A trunk link between two dies, the lower first (R387, R388). -/
structure Link where
  a : Nat
  b : Nat
  up : Bool
  toB : LinkDir
  toA : LinkDir
  deriving DecidableEq, Repr

/-- An NVMe drive (22 R417, R418). -/
structure Drive where
  control : Nat
  image : List Byte
  stage : List Byte
  deriving DecidableEq, Repr

/-- An entry of Depot's log (23 R430). -/
structure LogEntry where
  seq : Nat
  stime : Word64
  kind : Nat
  die : Nat
  detail : Word64
  deriving DecidableEq, Repr

/-- The page of a request that the pager works on (21 R391, R396): the entry's address, its old value, its WVER when the
copy began, the new value, and the frame taken for it; `swapping` once the swap has been started. -/
structure PageWork where
  entry : Nat
  old : Nat
  wver : Nat
  new : Nat
  frame : Option (Nat × Nat)
  swapping : Bool
  deriving DecidableEq, Repr

/-- Depot, the pager's own lists and the firmware. -/
structure Depot where
  die : Option Nat
  /-- header bytes and body digest of the running image -/
  image : Option (List Byte × BitVec 256)
  signKey : BitVec 512
  fsvn : Nat
  /-- the two drives of each die's root ports (22 R417) -/
  drives : Vector (Vector Drive 2) 4
  recovery : Bool
  open_ : Bool
  /-- doorbells held: port, value, and what its release made available (R413, R415) -/
  held : List (Nat × Word64 × View)
  reference : Option Nat
  grandmaster : Option Word64
  gmLocked : Bool
  log : List LogEntry
  logNext : Nat
  /-- the pager's free list: pool and frame (R390) -/
  free : List (Nat × Nat)
  /-- the current request has passed its checks; its pages already moved, and the one that is being moved -/
  taken : Bool
  progress : Nat
  work : Option PageWork
  /-- what the management cores last read from a die's control block (R406) -/
  mgmt : Word64
  deriving DecidableEq, Repr

/-- Inputs of bring-up (22 R407, R408): per die the first failing stage (0 for none) and the management block's
self-test; links that fail training; configured interleave groups. -/
structure BringUp where
  failing : Vector Nat 4
  badLinks : List (Nat × Nat)
  mgmtOk : Vector Bool 4
  igroups : Nat
  deriving DecidableEq, Repr

/-- Whose turn it is. -/
inductive Focus
  | none
  | context (die seq ctx : Nat)
  | command (job qid tln : Nat)
  | operator (job region op : Nat)
  deriving DecidableEq, Repr

/-- What a sender or a receiver does on a trunk link (R387): a cell is sent into an ordinary buffer or a reserved one, the
sender reserves space for a response (06 R158), a buffer is advertised, or the oldest delivered cell is consumed. -/
inductive TrunkAct
  | send (cell : BitVec 512) (reserved : Option Nat)
  | reserve
  | advertise (b : TrunkBuf)
  | consume
  deriving DecidableEq, Repr

/-- One turn of the agenda: a step by name, a change of the party whose turn it is, time passing, an action on a trunk,
a try of the oldest access that waits at a host port, or an input (log 1, log 9). -/
inductive Turn
  | event (i : Instr)
  | at (f : Focus)
  /-- time passes: on each die so many units of its clock and so many cycles of its fabric (00 R5) -/
  | time (units cycles : List Nat)
  | trunk (sender receiver : Nat) (a : TrunkAct)
  | aperture (port : Nat)
  /-- the management cores read or write a register of a die's control block, at an address of their own space (22 R406) -/
  | control (addr : Nat) (write : Option Word64)
  /-- input: the host writes its own memory behind a port (R378) -/
  | hostMem (port off : Nat) (bytes : List Byte)
  /-- input: a die's sensors (23 R428) -/
  | sense (die junction inlet power : Nat)
  /-- input: locations whose data turns uncorrectable (23 R431), and how many errors were corrected -/
  | damage (die : Nat) (locs : List Nat) (corrected : Nat)
  deriving DecidableEq, Repr

/-- The package. -/
structure State where
  agenda : List Turn
  focus : Focus
  freeCtr : Nat
  livedies : BitVec 4
  igroups : Nat
  /-- what the homes hold -/
  mem : Memory
  history : List StoreRec
  homeClock : Nat
  /-- stores that a busy weight store has refused and not yet reported (10_scalar_memory.md R237) -/
  refused : List Nat
  releases : List Release
  views : List AgentView
  words : List WordOrder
  phases : List PhaseAt
  staffs : List Staff
  slots : List Slot
  pubs : List Publication
  transit : List Contribution
  reductions : List Reduction
  tasks : List TaskAux
  ctxs : List Ctx
  barriers : List Barrier
  queues : List Queue
  txruns : List TxRun
  colls : List CollCall
  regions : List Region
  /-- region images written so far, by the number that their STATE sections carry (log 38) -/
  snaps : List Snap
  jobs : List Job
  endWords : List EndWord
  ports : Vector Port 2
  sems : List Sem
  windows : Vector (Vector Word64 4) 16
  dies : Vector Die 4
  links : List Link
  depot : Depot
  bringUp : BringUp
  moving : List Nat
  badBytes : List Nat
  /-- within a step: a walk of the hardware that could not be made, so that the step is not taken yet (log 95) -/
  missed : Option HwMiss
  deriving DecidableEq, Repr

/-! ### Reset -/

/-- A register file of zeros: what a task has at first dispatch, but for g1 (R38). -/
def RegFile.zero : RegFile :=
  { g := Vector.replicate 32 0#64, f := Vector.replicate 16 0#64, c := Vector.replicate 8 false,
    taint := Vector.replicate 32 false, tview := Vector.replicate 32 [], fpctl := 0 }

/-- A budget table of defaults (23 R423, R424): class budgets 32 each, PWRLIM 600, activities unlimited. -/
def defaultBudget : BitVec 1152 :=
  BitVec.ofNat 1152 (0x2020202020202020 + 600 * 2 ^ 64 +
    ((2 ^ 96 - 1) * 2 ^ 32) * (2 ^ 128 + 2 ^ 256 + 2 ^ 384 + 2 ^ 512 + 2 ^ 640 + 2 ^ 768 + 2 ^ 896 + 2 ^ 1024))

/-- The straps' ORIENT of a die (22 R410). -/
def strapOrient (d : Nat) : BitVec 10 :=
  match d with
  | 0 => 0x0090#10
  | 1 => 0x0285#10
  | 2 => 0x0192#10
  | _ => 0x0387#10

def Servo.zero : Servo :=
  { free := 0, xnum := 0, t1 := 0, t2 := 0, t3 := 0, t4 := 0, stage := 0, voided := false, locked := false,
    residue := 0, last := 0, epsP := 0, slew := 0 }

def PagerIf.zero : PagerIf :=
  { pgrbase := 0, pgrlog := 0, pgprod := 0, pgcons := 0, pgea := 0, pgnew := 0, pgexp := 0, busy := false, ok := false,
    swapAt := 0 }

def Counters.zero : Counters :=
  { cfgsoft := 0, conflict := 0, deadltr := 0, dlmiss := 0, berthDrops := 0, ecccor := 0, eccunc := 0, trkrpt := 0,
    trkdown := 0, budwait := 0 }

/-- Die `d` before bring-up (22 R406, R411, R412, 23 R423, R429; log 3). -/
def Die.reset (d : Nat) : Die :=
  { state := .off, bustage := 0, active := false, orient := strapOrient d, stime := 0, cycle := 0, servo := Servo.zero,
    stopped := false, ready := [], chain := [], charged := Vector.replicate 8 0, period := 0, budget := defaultBudget,
    pending := none, halved := 0, overheated := false, overpower := false, powerAt := 0, left := [], actPeriod := 0, waited := false, gates := [], lanes := [],
    berths := [], fills := [], streams := [], pager := PagerIf.zero, faults := [],
    nextToken := 0, counters := Counters.zero, junction := 0, inlet := 0, power := 0, replays := [], running := [] }

/-- A host port after reset (20 R376, 22 R419). -/
def Port.reset : Port :=
  { apbase := 0, jobres := 0, intstat := 0, winsel := 0, rcvstat := 0, rcvaddr := 0, rcvlen := 0, rdata := 0,
    vectors := [], waiting := [] }

def LinkDir.reset : LinkDir :=
  { next := 0, ahead := [], repeats := [], out := [], seq := 0, flight := [], free := [], used := [], resp := 0 }

/-- The trunk link between two dies before training (log 3). -/
def Link.reset (a b : Nat) : Link :=
  { a := a, b := b, up := false, toB := LinkDir.reset, toA := LinkDir.reset }

def Drive.empty : Drive := { control := 0, image := [], stage := [] }

def Depot.reset : Depot :=
  { die := none, image := none, signKey := 0, fsvn := 0, drives := Vector.replicate 4 (Vector.replicate 2 Drive.empty), recovery := false,
    open_ := false, held := [], reference := none, grandmaster := none, gmLocked := false, log := [], logNext := 0,
    free := [], taken := false, progress := 0, work := none, mgmt := 0 }

/-- The package just out of reset, before any bring-up stage has run (22 R405, R407; log 2, log 3): the first step of
a run is `powerOn`. -/
def State.reset : State :=
  { agenda := [], focus := .none, freeCtr := 0, livedies := 0, igroups := 0, mem := [], history := [], homeClock := 0, refused := [],
    releases := [], views := [], words := [], phases := [], staffs := [], slots := [], pubs := [], transit := [],
    reductions := [], tasks := [], ctxs := [], barriers := [], queues := [], txruns := [], colls := [],
    regions := [], snaps := [], jobs := [], endWords := [], ports := Vector.replicate 2 Port.reset, sems := [],
    windows := Vector.replicate 16 (Vector.replicate 4 0#64),
    dies := #v[Die.reset 0, Die.reset 1, Die.reset 2, Die.reset 3],
    links := [Link.reset 0 1, Link.reset 0 2, Link.reset 0 3, Link.reset 1 2, Link.reset 1 3, Link.reset 2 3],
    depot := Depot.reset,
    bringUp := { failing := Vector.replicate 4 0, badLinks := [], mgmtOk := Vector.replicate 4 true, igroups := 0 },
    moving := [], badBytes := [], missed := none }

/-- How the machine stops with a fault: it does not. Every fault that the manual describes leads to a next state. -/
inductive Fault
  /-- Raised by no step: kept so that the type is not empty. Safe. -/
  | none
  deriving DecidableEq, Repr

/-- Why `exec` has no meaning to give. -/
inductive Refusal
  /-- Raised by an arm of `exec` whose instruction has no meaning yet. Safe. -/
  | notModelled (mnemonic : String)
  /-- Raised by a scalar instruction when the focus names no context that runs a task: `step` never calls `exec` so. Safe. -/
  | noTask
  /-- Raised by a stream command when the focus names no started command: `step` never calls `exec` so. Safe. -/
  | noCommand
  /-- Raised by an operator when the focus names no operator of an armed region: `step` never calls `exec` so. Safe. -/
  | noOperator
  deriving DecidableEq, Repr

end Sys2Proof.Machine
end

