-- ==== Sys2Proof/Machine/Mem.lean ====
section
/-! DEFINITION. Memory by location, the happens-before order over it (06_ordering.md R143-R155), and translation
(05_memory.md R117-R125, 21_paging.md R392-R395). -/

namespace Sys2Proof.Machine

/-! ### Plain access to the parts of the state -/

def vget {α : Type} {n : Nat} (v : Vector α n) (i : Nat) (d : α) : α := v.toList.getD i d

def vset {α : Type} {n : Nat} (v : Vector α n) (i : Nat) (x : α) : Vector α n := v.setIfInBounds i x

def State.die (s : State) (d : Nat) : Die := vget s.dies d (Die.reset 0)
def State.setDie (s : State) (d : Nat) (x : Die) : State := { s with dies := vset s.dies d x }
/-- Bit d of LIVEDIES (01_machine.md R11). -/
def State.live (s : State) (d : Nat) : Bool := bit s.livedies.toNat d && decide (d < 4)
def State.liveDies (s : State) : List Nat := [0, 1, 2, 3].filter s.live
/-- A die that is not live is replaced by the lowest-numbered live one (R25). -/
def State.dieFor (s : State) (d : Nat) : Nat := if s.live d then d else s.liveDies.headD d
def State.job? (s : State) (j : Nat) : Option Job := s.jobs.find? (fun x => x.num == j)
def State.setJob (s : State) (x : Job) : State := { s with jobs := upsert (fun y => y.num == x.num) x s.jobs }
/-- A job that is resident (R383, R385). -/
def State.resident? (s : State) (j : Nat) : Option Job := s.jobs.find? (fun x => x.num == j && x.ended.isNone)
/-- A fresh number for a free value (log 10). -/
def State.fresh (s : State) : Nat × State := (s.freeCtr, { s with freeCtr := s.freeCtr + 1 })

/-- Field lo .. lo+len-1 of a job record (R381). -/
def Job.f (j : Job) (lo len : Nat) : Nat := bf j.record.toNat lo len

/-! ### Memory as its homes hold it -/

/-- What an unlisted location reads as (log 4). -/
def Memory.unlisted : Byte := 0

def Memory.read : Memory → Nat → Byte
  | [], _ => Memory.unlisted
  | (k, v) :: m, a => if a = k then v else Memory.read m a

/-- One byte written, in canonical form. -/
def Memory.write : Memory → Nat → Byte → Memory
  | [], a, v => if v = Memory.unlisted then [] else [(a, v)]
  | (k, x) :: m, a, v =>
    if a < k then (if v = Memory.unlisted then (k, x) :: m else (a, v) :: (k, x) :: m)
    else if a = k then (if v = Memory.unlisted then m else (a, v) :: m)
    else (k, x) :: Memory.write m a v

/-- Locations strictly rising from above `lo`, and no entry that an unlisted location would read as. -/
def Memory.wfFrom : Option Nat → Memory → Bool
  | _, [] => true
  | lo, (k, v) :: m =>
    (match lo with
      | none => true
      | some l => decide (l < k)) && decide (v ≠ Memory.unlisted) && Memory.wfFrom (some k) m

/-- The canonical form. -/
def Memory.wf (m : Memory) : Bool := Memory.wfFrom none m

def Memory.writeCells (m : Memory) (cs : List Host.Cell) : Memory := cs.foldl (fun m c => m.write c.1 c.2) m

/-! ### Locations (log 5) -/

def dramLoc (d a : Nat) : Nat := d * 2 ^ 40 + a
def windowLoc (d off : Nat) : Nat := 2 ^ 44 + d * 2 ^ 40 + off
def hostLoc (port off : Nat) : Nat := 2 ^ 45 + port * 2 ^ 44 + off
/-- Die of a host port (R17). -/
def portDie (port : Nat) : Nat := if port = 0 then 0 else 2
/-- The die at whose memory partition or host port a location is served. -/
def locDie (l : Nat) : Nat :=
  if l < 2 ^ 44 then l / 2 ^ 40
  else if l < 2 ^ 45 then (l - 2 ^ 44) / 2 ^ 40
  else portDie ((l - 2 ^ 45) / 2 ^ 44)
def isHostLoc (l : Nat) : Bool := decide (2 ^ 45 ≤ l)
/-- The die whose weight store holds the location (R118). -/
def wsDie? (l : Nat) : Option Nat :=
  if 2 ^ 44 ≤ l && l < 2 ^ 45 then
    let o := (l - 2 ^ 44) % 2 ^ 40
    if Config.wsOffset ≤ o && o < Config.wsOffset + Config.wsBytes then some ((l - 2 ^ 44) / 2 ^ 40) else none
  else none

/-- Cells of a run of bytes at given locations. -/
def cells (locs : List Nat) (bs : List Byte) : List Host.Cell := locs.zip bs

/-! ### Agents and scopes (R143, R144) -/

/-- Agent numbers (R144). -/
def taskNum (die idx : Nat) : Nat := 3 * 2 ^ 20 + die * 2 ^ 18 + idx
def engineNum (die qid : Nat) : Nat := 2 ^ 20 + die * 2 ^ 18 + qid
def portOpNum (die v x y slot : Nat) : Nat :=
  2 * 2 ^ 20 + die * 2 ^ 18 + v * 2 ^ 12 + y * 2 ^ 7 + (if x = 31 then 2 ^ 6 else 0) + slot * 2 ^ 4
/-- The hardware, for stores to task records, event rings and headers (R155). -/
def hwNum : Nat := 0xFFFFFF
/-- The job number that stands for a host port, which serves every job. -/
def hostJob : Nat := 64

def hwAgent (job die : Nat) : Agent := { job := job, num := hwNum, die := die, quarter := 4, region := none }
def hostAgent (port : Nat) : Agent := { job := hostJob, num := port, die := 4, quarter := 4, region := none }
/-- A task while it runs on a sequencer (R143). -/
def taskAgent (job die seq idx : Nat) : Agent :=
  { job := job, num := taskNum die idx, die := die, quarter := seq / 4, region := none }
def engineAgent (job die qid : Nat) : Agent :=
  { job := job, num := engineNum die qid, die := die, quarter := 4, region := none }
/-- The quarter in whose rows `h` rows from row `y` on lie wholly; 4 for none. -/
def quarterOf (y h : Nat) : Nat := if y / 8 = (y + h - 1) / 8 then y / 8 else 4
/-- A member of a region. -/
def regionAgent (r : Region) (num : Nat) : Agent :=
  { job := r.job, num := num, die := r.die, quarter := quarterOf r.y0 r.h, region := some r.v }

/-- The instance of a scope to which an agent belongs (R143). -/
def Agent.instOf (a : Agent) (scope : Nat) : ScopeAt :=
  let alone := 2 ^ 32 + a.num
  let key : Nat :=
    match scope with
    | 0 => alone
    | 1 => match a.region with
      | some v => v
      | none => alone
    | 2 =>
      match a.region with
      | some v => if a.quarter < 4 then a.die * 4 + a.quarter else 2 ^ 33 + v
      | none => if a.quarter < 4 then a.die * 4 + a.quarter else alone
    | 3 => if a.die < 4 then a.die else alone
    | _ => 0
  { scope := scope, job := a.job, key := key }

/-- Membership of an agent in an instance; a host port, and the hardware, belong to the scopes from package up of
every job. -/
def Agent.inInst (a : Agent) (i : ScopeAt) : Bool :=
  if a.job = hostJob || i.job = hostJob then decide (4 ≤ i.scope) || a.instOf i.scope == i
  else a.instOf i.scope == i

/-! ### Views -/

def State.viewOf (s : State) (job num : Nat) : View × View :=
  match s.views.find? (fun v => v.job == job && v.num == num) with
  | some v => (v.view, v.rel)
  | none => ([], [])

def State.setView (s : State) (job num : Nat) (view rel : View) : State :=
  { s with views := upsert (fun v => v.job == job && v.num == num) { job := job, num := num, view := view, rel := rel } s.views }

def StoreRec.covers (r : StoreRec) (l : Nat) : Bool := r.bytes.any (fun c => c.1 == l)

def StoreRec.at_ (r : StoreRec) (l : Nat) : Byte :=
  match r.bytes.find? (fun c => c.1 == l) with
  | some c => c.2
  | none => 0

def State.store? (s : State) (i : Nat) : Option StoreRec := s.history[i]?

/-- The stores of a list of numbers that cover a location. -/
def State.covering (s : State) (v : View) (l : Nat) : List (Nat × StoreRec) :=
  v.filterMap (fun i => match s.history[i]? with
    | some r => if r.covers l then some (i, r) else none
    | none => none)

/-- The store to a location that an access with view `v` returns: the hb-latest, and among unordered ones that of the
higher agent number (R145, R155). -/
def State.hbLatest (s : State) (v : View) (l : Nat) : Option (Nat × StoreRec) :=
  let cs := s.covering v l
  let tops := cs.filter (fun c => cs.all (fun d => !(d.2.view.contains c.1)))
  tops.foldl (fun best c =>
    match best with
    | none => some c
    | some b => if b.2.agent ≤ c.2.agent then some c else some b) none

/-- The store that the home placed last at a location, among those placed no later than `t`. -/
def State.placedLast (s : State) (l t : Nat) : Option StoreRec :=
  s.history.foldl (fun best r =>
    if r.placed ≠ 0 && r.placed ≤ t && r.covers l then
      match best with
      | none => some r
      | some b => if b.placed ≤ r.placed then some r else some b
    else best) none

/-- A byte's value at the creation of a job's ranges (R145). -/
def State.creationByte (s : State) (job l : Nat) : Byte :=
  match s.job? job with
  | some j =>
    match s.placedLast l j.createdAt with
    | some r => r.at_ l
    | none => Memory.unlisted
  | none => s.mem.read l

/-- The byte that an ordinary read with view `v` by an agent of `job` returns (R145). -/
def State.readByte (s : State) (job : Nat) (v : View) (l : Nat) : Byte :=
  match s.hbLatest v l with
  | some c => c.2.at_ l
  | none => s.creationByte job l

def State.readBytes (s : State) (job : Nat) (v : View) (ls : List Nat) : List Byte := ls.map (s.readByte job v)

/-- Stores that the hardware made: a host and the job engine read them at their homes (log 8). -/
def State.hwStores (s : State) : View :=
  (upFrom 0 s.history.length).filter (fun i =>
    match s.history[i]? with
    | some r => r.agent == hwNum
    | none => false)

/-- The byte that the job engine reads with view `v`: a store that no release has brought to it is not there for it
(20_host.md R383). -/
def State.knownByte (s : State) (v : View) (l : Nat) : Byte :=
  match s.hbLatest (unionNat v s.hwStores) l with
  | some c => c.2.at_ l
  | none => Memory.unlisted

/-- Bytes as the home holds them. -/
def State.homeBytes (s : State) (ls : List Nat) : List Byte := ls.map s.mem.read

/-! ### Stores and releases -/

/-- A started `wsload` makes its die's weight store loading, a started `wsread` busy (R129, 11_stream_commands.md R270). -/
def State.wsCommand (s : State) (d opcode : Nat) : Bool :=
  s.queues.any (fun q => q.qid == 0x5000 + d * 2 ^ 10 && q.started.any (fun c => bf c.word.toNat 120 8 == opcode))

def hasWsport (r : Region) : Bool := r.body.ops.any (fun o => bf o.word.toNat 248 8 == 0x7C)

/-- The weight store of a die is busy (R129). -/
def State.wsBusy (s : State) (d : Nat) : Bool :=
  s.wsCommand d 0x11 ||
    s.regions.any (fun r => r.die == d && (r.state == .running || r.state == .stopped) && hasWsport r)

/-- A location lies in a busy weight store, which takes no write (R129). -/
def State.wsHit (s : State) (ls : List Nat) : Bool :=
  ls.any (fun l => match wsDie? l with
    | some d => s.wsBusy d
    | none => false)

/-- A store takes its place in the order at its home (R154), where its bytes then stand. -/
def State.putHome (s : State) (i : Nat) : State :=
  match s.history[i]? with
  | some r =>
    { s with
      homeClock := s.homeClock + 1
      mem := s.mem.writeCells r.bytes
      history := s.history.set i { r with placed := s.homeClock + 1 }
      badBytes := s.badBytes.filter (fun l => !(r.covers l)) }
  | none => s

/-- A store that has not reached its home. Its number, and the state. -/
def State.addStore (s : State) (a : Agent) (bytes : List Host.Cell) (view : View) (ordinary : Bool)
    (src : Option StoreSrc := none) : Nat × State :=
  (s.history.length,
    { s with history := s.history ++
        [{ by_ := a, bytes := bytes, view := view, placed := 0, ordinary := ordinary, src := src }] })

/-- A store that reaches its home at once: a write of an engine, a port or the hardware (log 6), or an atomic. -/
def State.storeNow (s : State) (a : Agent) (bytes : List Host.Cell) (view : View) (ordinary : Bool) : Nat × State :=
  let (i, s) := s.addStore a bytes view ordinary
  (i, s.putHome i)

/-- The stores placed at any of the locations. -/
def State.placedAt (s : State) (ls : List Nat) : View :=
  (upFrom 0 s.history.length).filter (fun i =>
    match s.history[i]? with
    | some r => r.placed ≠ 0 && ls.any r.covers
    | none => false)

/-- A write of the hardware: later than every store that its bytes' homes have placed (log 8). -/
def State.hwPlace (s : State) (job : Nat) (bytes : List Host.Cell) : State :=
  (s.storeNow (hwAgent job 4) bytes (s.placedAt (bytes.map (·.1))) true).2

/-- A write of the hardware, of which a busy weight store takes nothing (R129). -/
def State.hwStore (s : State) (job : Nat) (bytes : List Host.Cell) : State :=
  if s.wsHit (bytes.map (·.1)) then s else s.hwPlace job bytes

/-- A write through a page leaf that reaches its home adds 1 to the leaf's WVER, in one atomic step there (R122, R394), whether
or not the leaf lies in a busy weight store (log 89). -/
def State.bumpWver (s : State) (job : Nat) (leaves : List Nat) : State :=
  leaves.eraseDups.foldl (fun s l =>
    let w := ofBytes (s.homeBytes (upFrom (l + 12) 4))
    s.hwPlace job (cells (upFrom (l + 12) 4) (toBytes 4 (w + 1)))) s

/-- The store numbered `i` reaches its home: it is counted at the page leaves that it went through, and then lands (R394). A
task's store that meets a busy weight store writes none of its bytes, is counted nowhere, and is to be reported
(10_scalar_memory.md R237). -/
def State.place (s : State) (i : Nat) : State :=
  match s.history[i]? with
  | some r =>
    if r.placed ≠ 0 then s
    else
      match r.src with
      | none => s.putHome i
      | some x =>
        if s.wsHit (r.bytes.map (·.1)) then
          { s with
            homeClock := s.homeClock + 1
            history := s.history.set i { r with bytes := [], placed := s.homeClock + 1 }
            refused := s.refused ++ [i] }
        else (s.bumpWver r.job x.leaves).putHome i
  | none => s

/-- Every unplaced store of an agent in a view reaches its home, in program order. -/
def State.placeOwn (s : State) (job agent : Nat) (v : View) : State :=
  v.foldl (fun s i =>
    match s.history[i]? with
    | some r => if r.job = job && r.agent = agent then s.place i else s
    | none => s) s

/-- The unplaced stores of an agent in a view that touch one of the locations reach their home. -/
def State.placeCovering (s : State) (job agent : Nat) (ls : List Nat) (v : View) : State :=
  v.foldl (fun s i =>
    match s.history[i]? with
    | some r => if r.job == job && r.agent == agent && ls.any r.covers then s.place i else s
    | none => s) s

/-- release(scope) by an agent with the given views: its stores reach their homes, then the release is performed
(R146; log 6). -/
def State.release (s : State) (a : Agent) (scope : Nat) (view rel : View) : Release × State :=
  let s := s.placeOwn a.job a.num view
  let r : Release := { by_ := a, inst := a.instOf scope, view := unionNat view rel }
  (r, { s with releases := s.releases ++ [r] })

/-- A release or the issue of a command covers store `i`, which is `r`. What the commands of a region know of its own ports'
stores releases nothing. -/
def State.released (s : State) (i : Nat) (r : StoreRec) : Bool :=
  s.releases.any (fun x => x.view.contains i) ||
    s.queues.any (fun q => !(q.job == r.job && r.by_.region == some q.qid) &&
      (q.onChip ++ q.spill ++ q.started).any (fun c => c.view.contains i))

/-- Stores that `p` selects and that nothing has released are discarded: their bytes are again what the stores that remain
have left there (02_execution.md R49). -/
def State.discardStores (s : State) (p : StoreRec → Bool) : State :=
  let gone := (upFrom 0 s.history.length).filter (fun i =>
    match s.history[i]? with
    | some r => r.ordinary && p r && r.bytes != [] && !s.released i r
    | none => false)
  let ls := (gone.flatMap (fun i => match s.history[i]? with
    | some r => if r.placed ≠ 0 then r.bytes.map (·.1) else []
    | none => [])).eraseDups
  let kept := gone.foldl (fun (h : List StoreRec) i => match h[i]? with
    | some r => h.set i { r with bytes := [] }
    | none => h) s.history
  let t : State := { s with history := kept }
  let left (l : Nat) : Byte := ((t.placedLast l t.homeClock).map (fun r => r.at_ l)).getD Memory.unlisted
  { t with mem := ls.foldl (fun m l => m.write l (left l)) t.mem }

/-- What an acquire by `a` of some of the given releases adds to its view (R147). -/
def acquireFrom (a : Agent) (rs : List Release) : View :=
  rs.foldl (fun v r => if a.inInst r.inst then unionNat v r.view else v) []

/-- The hardware's stores for a job since its creation: a task sees them when it is dispatched (log 8). -/
def State.hwView (s : State) (job : Nat) : View :=
  let from_ := match s.job? job with
    | some j => j.createdAt
    | none => 0
  (upFrom 0 s.history.length).filter (fun i =>
    match s.history[i]? with
    | some r => r.agent == hwNum && r.job == job && decide (from_ < r.placed)
    | none => false)

/-! ### Translation -/

/-- The die of a weight store whose bank at a location is closed for refresh, and when the bank opens (R128). -/
def State.wsShut (s : State) (l : Nat) : Option (Nat × Nat) :=
  match wsDie? l with
  | none => none
  | some d =>
    let bank := ((l - 2 ^ 44) % 2 ^ 40 - Config.wsOffset) / 2 ^ 26
    let now := (s.die d).stime.toNat
    let t := now % 512000
    if 32000 * bank ≤ t && t < 32000 * bank + 16000 then some (d, now - t + 32000 * bank + 16000) else none

def State.wsClosed (s : State) (l : Nat) : Bool := (s.wsShut l).isSome

/-- Kinds of access (R121). -/
inductive AccKind | read | write | fetch | atomic
  deriving DecidableEq, Repr

/-- Bit of PERM that allows a kind (R119). -/
def AccKind.permBit : AccKind → Nat
  | .read => 3 | .write => 2 | .fetch => 1 | .atomic => 0

/-- KIND of a fault record (R397). -/
def AccKind.code : AccKind → Nat
  | .read => 0 | .write => 1 | .atomic => 2 | .fetch => 3

/-- Why an access does not reach its bytes. -/
inductive TFault
  /-- PROTECT with a subcause of R234 -/
  | prot (sub : Nat)
  | dieLost
  | page (level cause : Nat)
  /-- it waits: for a moving entry (R395), a closed bank of a weight store (R128), or a link (20_host.md R388) -/
  | moving
  /-- its data holds an uncorrectable error (23_fleet.md R431): home die and physical address -/
  | data (home pa : Nat)
  deriving DecidableEq, Repr

/-- A translated byte: where it is, its physical address, its home die, the range entry, and the locations of the page
entries it went through, the leaf first. -/
structure Trans where
  loc : Nat
  pa : Nat
  home : Nat
  rng : Nat
  entry : BitVec 256
  path : List Nat
  deriving DecidableEq, Repr

/-- The leaf that a byte of a paged range went through. -/
def Trans.leaf (t : Trans) : Option Nat := t.path.head?

/-- Field of a range entry (R119). -/
def rg (e : BitVec 256) (lo len : Nat) : Nat := bf e.toNat lo len
def rgVbase (e : BitVec 256) : Nat := rg e 216 40
def rgVlast (e : BitVec 256) : Nat := rg e 176 40
def rgVers (e : BitVec 256) : Bool := bit e.toNat 88
def rgK (e : BitVec 256) : Nat := rg e 95 3 + 1
def rgQ (e : BitVec 256) : Nat := rg e 92 3 + 1
def rgScope (e : BitVec 256) : Nat := rg e 89 3
/-- Slot size Z (R131). -/
def rgZ (e : BitVec 256) : Nat := 64 * 2 ^ rg e 98 4

/-- PLACE and PDIE obey R117. -/
def placeOk (place pdie : Nat) : Bool :=
  match place with
  | 0 => pdie == 0
  | 3 => pdie < 2
  | _ => true

/-- Conditions of R120 on an entry with VALID = 1. -/
def rangeIllFormed (e : BitVec 256) : Bool :=
  let vers := rgVers e
  rg e 1 82 != 0 || rgVbase e > rgVlast e || !placeOk (rg e 146 2) (rg e 144 2) || (vers && rg e 98 4 > 10) ||
    (bit e.toNat 87 && (rgVlast e + 1 - rgVbase e) * 2 ^ 16 > 2 ^ 42) || (vers && bit e.toNat 87)

/-- cnt of R123 for position `i` of `n` live dies. -/
def stripeCnt (n i : Nat) : Nat := (64 - i + n - 1) / n

/-- The interleave hash (R123). -/
def stripeHash (x : Nat) : Nat :=
  (x ^^^ (x >>> 6) ^^^ (x >>> 12) ^^^ (x >>> 18) ^^^ (x >>> 24) ^^^ (x >>> 30)) % 64

/-- Bytes at the bottom of a live die's DRAM that the interleaved window takes (R124). -/
def State.ifoot (s : State) (d : Nat) : Nat :=
  let l := s.liveDies
  s.igroups * stripeCnt l.length (l.findIdx (· == d)) * 4096

/-- The channel of a die-local DRAM address (R125). -/
def channelOf (dla : Nat) : Nat :=
  let g := dla / 256
  (g ^^^ (g >>> 7) ^^^ (g >>> 14) ^^^ (g >>> 21) ^^^ (g >>> 28)) % 128

/-- A physical address to its location and home die (R117, R118, R123, R124, R378). -/
def State.resolvePa (s : State) (pa : Nat) : Except TFault (Nat × Nat) :=
  let place := bf pa 46 2
  let pdie := bf pa 44 2
  let off := pa % 2 ^ 44
  if pa ≥ 2 ^ 48 || !placeOk place pdie then .error (.prot 4)
  else
    match place with
    | 0 =>
      if off ≥ s.igroups * 2 ^ 18 then .error (.prot 4)
      else
        let l := s.liveDies
        let n := l.length
        let x := off / 4096
        let h := stripeHash x
        let i := h % n
        let dla := (x / 64 * stripeCnt n i + h / n) * 4096 + off % 4096
        let d := l.getD i 0
        .ok (dramLoc d dla, d)
    | 1 =>
      if !s.live pdie then .error .dieLost
      else if off ≥ Config.dramBytes - s.ifoot pdie then .error (.prot 4)
      else .ok (dramLoc pdie (s.ifoot pdie + off), pdie)
    | 2 =>
      if !(off < Config.berthStoreBytes || (Config.wsOffset ≤ off && off < Config.wsOffset + Config.wsBytes)) then
        .error (.prot 4)
      else if !s.live pdie then .error .dieLost
      else .ok (windowLoc pdie off, pdie)
    | _ =>
      let d := portDie pdie
      if !s.live d then .error .dieLost else .ok (hostLoc pdie off, d)

/-- Physical address of PLACE, PDIE and OFFSET. -/
def paOf (place pdie off : Nat) : Nat := place * 2 ^ 46 + pdie * 2 ^ 44 + off

/-- `n` bytes at a physical address, as the homes hold them. -/
def State.readPa (s : State) (pa n : Nat) : Option Nat :=
  let ls := (upFrom pa n).map s.resolvePa
  if ls.all (fun r => match r with
      | .ok _ => true
      | .error _ => false) then
    some (ofBytes (ls.map (fun r => match r with
      | .ok (l, _) => s.mem.read l
      | .error _ => 0)))
  else none

/-- The three levels of R122: from the table at `table` (a physical address), for offset `o`. Answers the physical
address, the page's permission and the locations of the entries, those in `path` last. The PERM of a table entry restricts nothing: R122 ANDs the
range's PERM with that of the page (log 88). A walk waits at a moving entry (21_paging.md R395), and at one in a closed bank of
a weight store (R128). -/
def State.walk (s : State) (o : Nat) : Nat → Nat → Nat → List Nat → Except TFault (Nat × Nat × List Nat)
  | 0, _, _, _ => .error (.page 3 3)
  | fuel + 1, level, table, path =>
    let ix := match level with
      | 1 => bf o 31 11
      | 2 => bf o 21 10
      | _ => bf o 16 5
    match s.resolvePa (table + 16 * ix) with
    | .error f => .error f
    | .ok (l, _) =>
      if s.moving.contains l || s.wsClosed l then .error .moving
      else
        let e := ofBytes (s.homeBytes (upFrom l 16))
        let type := bf e 0 2
        let frame := bf e 32 28
        if type = 0 || type = 3 then .error (.page level 1)
        else if bf e 60 36 != 0 || bf e 10 18 != 0 || bf e 2 4 != 0 then .error (.page level 2)
        else if type = 1 && level = 3 then .error (.page level 3)
        else if type = 2 && ((level = 1 && bf frame 0 15 != 0) || (level = 2 && bf frame 0 5 != 0)) then
          .error (.page level 4)
        else if !placeOk (bf e 30 2) (bf e 28 2) then .error (.page level 5)
        else
          let base := paOf (bf e 30 2) (bf e 28 2) (frame * 2 ^ 16)
          if type = 1 then s.walk o fuel (level + 1) base (l :: path)
          else
            let sz := match level with
              | 1 => 31
              | 2 => 21
              | _ => 16
            .ok (base + o % 2 ^ sz, bf e 6 4, l :: path)

/-- The berth that a virtual address lies in: die, index, and its offset (R127). -/
def Job.berthAt (j : Job) (va : Nat) : Option (Nat × Nat × Nat) :=
  let base := j.f 584 56
  let size := 2 ^ (16 + j.f 640 4)
  if va < base then none
  else
    let d := (va - base) / 2 ^ 32
    let o := (va - base) % 2 ^ 32
    if d < 4 && o < j.f 704 16 * size then some (d, o / size, o % size) else none

def State.berth (s : State) (job d i : Nat) : Berth :=
  match (s.die d).berths.find? (fun b => b.job == job && b.idx == i) with
  | some b => b
  | none => { job := job, idx := i, state := .free, gen := 0 }

def State.setBerth (s : State) (d : Nat) (b : Berth) : State :=
  let x := s.die d
  s.setDie d { x with berths := upsert (fun y => y.job == b.job && y.idx == b.idx) b x.berths }

def BerthState.served : BerthState → Bool
  | .resident => true
  | .pinned => true
  | _ => false

/-- The first valid entry that holds the address (R121), with its number. -/
def findRange (ranges : List (BitVec 256)) (va : Nat) : Option (Nat × BitVec 256) :=
  (List.zip (upFrom 0 ranges.length) ranges).find? (fun p =>
    bit p.2.toNat 0 && decide (rgVbase p.2 ≤ va / 2 ^ 16) && decide (va / 2 ^ 16 ≤ rgVlast p.2))

/-- Bytes from the pool's start to the entry of slot `n` of a versioned range, and its physical address (R131). -/
def poolOffset (e : BitVec 256) (n : Nat) : Nat := n * (128 + rgK e * rgZ e)
def poolPa (e : BitVec 256) (n : Nat) : Nat := rg e 102 42 * 64 + poolOffset e n

/-- Translation of a virtual address for a kind of access (R121, R122, R127). For a versioned range the location is
that of the slot's pool entry. -/
def State.translate (s : State) (ranges : List (BitVec 256)) (job : Nat) (kind : AccKind) (va : Nat) :
    Except TFault Trans :=
  if va ≥ 2 ^ 56 then .error (.prot 3)
  else
    match findRange ranges va with
    | none => .error (.prot 1)
    | some (k, e) =>
      let berthBad : Bool :=
        match s.job? job with
        | some j =>
          match j.berthAt va with
          | some (d, i, _) => rg e 146 2 == 2 && !(s.berth job d i).state.served
          | none => false
        | none => false
      if !bit (rg e 83 4) kind.permBit then .error (.prot 2)
      else if rgVers e then
        let n := (va - rgVbase e * 2 ^ 16) / rgZ e
        let pa := poolPa e n
        if 2 ^ 44 ≤ rg e 102 42 * 64 % 2 ^ 44 + poolOffset e n then .error (.prot 4)
        else
        match s.resolvePa pa with
        | .error f => .error f
        | .ok (l, d) => .ok { loc := l, pa := pa, home := d, rng := k, entry := e, path := [] }
      else
        let o := va - rgVbase e * 2 ^ 16
        if bit e.toNat 87 then
          match s.walk o 3 1 (paOf (rg e 146 2) (rg e 144 2) (rg e 148 28 * 2 ^ 16)) [] with
          | .error f => .error f
          | .ok (pa, perm, path) =>
            if !bit perm kind.permBit then .error (.prot 2)
            else
              match s.resolvePa pa with
              | .error f => .error f
              | .ok (l, d) =>
                if kind = .atomic && isHostLoc l then .error (.prot 4)
                else .ok { loc := l, pa := pa, home := d, rng := k, entry := e, path := path }
        else
          let pa := paOf (rg e 146 2) (rg e 144 2) (rg e 148 28 * 2 ^ 16 + o)
          -- an OFFSET of more than 44 bits lies beyond every window (R117)
          if 2 ^ 44 ≤ rg e 148 28 * 2 ^ 16 + o then .error (.prot 4)
          else
          match s.resolvePa pa with
          | .error f => .error f
          | .ok (l, d) =>
            if kind = .atomic && isHostLoc l then .error (.prot 4)
            else if berthBad then .error (.prot 6)
            else .ok { loc := l, pa := pa, home := d, rng := k, entry := e, path := [] }

/-- Every store that has not reached its home and that went through one of the page entries does so (21_paging.md R394,
R395). -/
def State.landPath (s : State) (es : List Nat) : State :=
  (upFrom 0 s.history.length).foldl (fun s i =>
    match s.history[i]? with
    | some r => if r.src.any (fun x => x.path.any es.contains) then s.place i else s
    | none => s) s

/-- Translation of each of `n` bytes; the first that fails names its address. -/
def State.translateSpan (s : State) (ranges : List (BitVec 256)) (job : Nat) (kind : AccKind) :
    Nat → Nat → Except (TFault × Nat) (List Trans)
  | _, 0 => .ok []
  | va, n + 1 =>
    match s.translate ranges job kind va with
    | .error f => .error (f, va)
    | .ok t =>
      match s.translateSpan ranges job kind (va + 1) n with
      | .error f => .error f
      | .ok ts => .ok (t :: ts)

/-- The trunk link between two dies is up. -/
def State.linkUp (s : State) (a b : Nat) : Bool :=
  s.links.any (fun l => l.up && ((l.a == a && l.b == b) || (l.a == b && l.b == a)))

/-- Traffic between two dies passes, over their link or through a third die (20_host.md R388). -/
def State.reach (s : State) (a b : Nat) : Bool :=
  a == b || s.linkUp a b || s.liveDies.any (fun k => s.linkUp a k && s.linkUp k b)

/-- A byte waits on its way from die `die`: for a link, or for its bank (R128). -/
def State.waits (s : State) (die : Nat) (t : Trans) : Bool :=
  !s.reach die t.home || (!rgVers t.entry && s.wsClosed t.loc)

/-- What becomes of translated bytes on the way from die `die`: they wait, for the sake of the byte whose index is given,
or a read meets an error in their data (23_fleet.md R431); data of a version stands where its slot's pool entry begins (log 97). -/
def State.passage (s : State) (die : Nat) (reads : Bool) (ts : List Trans) : Option (TFault × Nat) :=
  if ts.any (s.waits die) then some (.moving, ts.findIdx (s.waits die))
  else if reads then
    match ts.find? (fun t => s.badBytes.contains t.loc) with
    | some t => some (.data t.home t.pa, 0)
    | none => none
  else none

/-- `translateSpan` and the passage of its bytes; a fault names its address. -/
def State.access (s : State) (die job : Nat) (ranges : List (BitVec 256)) (kind : AccKind) (va n : Nat) :
    Except (TFault × Nat) (List Trans) :=
  match s.translateSpan ranges job kind va n with
  | .error f => .error f
  | .ok ts =>
    match s.passage die (kind == .read || kind == .fetch || kind == .atomic) ts with
    | some (f, k) => .error (f, va + k)
    | none => .ok ts

/-- An access that waits does so for a closed bank of a weight store (R128): the die, and when the bank opens. -/
def State.bankShut (s : State) (die job : Nat) (ranges : List (BitVec 256)) (kind : AccKind) (va : Nat) : Option (Nat × Nat) :=
  match s.translate ranges job kind va with
  | .ok t => if s.reach die t.home && !rgVers t.entry then s.wsShut t.loc else none
  | .error _ => none

end Sys2Proof.Machine
end

