-- ==== Sys2Proof/Machine/Ops.lean ====
section
/-! DEFINITION. Named operations over tasks: records, events, notifies, the ready queue, taking an exception (a scalar
fault, a page fault, a park) and returning from it (02_execution.md R22-R43). -/

namespace Sys2Proof.Machine

/-! ### Structures in a job's memory -/

/-- `n` bytes of a job's own structures. The hardware reaches them through the job's range table, under the read
permission (log 8). None where the walk faults or waits, for a moving entry (21_paging.md R395) or a closed bank of a weight
store (05_memory.md R128). -/
def State.hwSpan (s : State) (job va n : Nat) : Option (List Trans) :=
  match s.job? job with
  | none => none
  | some j =>
    match s.translateSpan j.ranges job .read va n with
    | .ok ts => if ts.any (fun t => s.wsClosed t.loc) then none else some ts
    | .error _ => none

/-- The pager has answered PAGE to a walk of the hardware to this page: what lies there is left out (log 95). -/
def State.lostAt (s : State) (job va : Nat) : Bool :=
  [0, 1, 2, 3].any (fun d => (s.die d).faults.any (fun f =>
    f.lost && f.job == job && f.va.toNat / 2 ^ 16 == va / 2 ^ 16))

/-- A walk of the hardware that step must make good before it is taken (log 95). -/
def State.miss (s : State) (m : HwMiss) : State :=
  if m.fault.isSome && s.lostAt m.job m.va then s else { s with missed := s.missed <|> some m }

/-- What keeps a walk of the hardware to `n` bytes of a job's structures: it waits, or meets a page fault (21_paging.md R395,
R397; log 95). Any other fault of the walk leaves the structures out (log 8). -/
def State.hwMissed (s : State) (job va n : Nat) : Option HwMiss :=
  match s.job? job with
  | none => none
  | some j =>
    match s.translateSpan j.ranges job .read va n with
    | .ok ts => if ts.any (fun t => s.wsClosed t.loc) then some { job := job, va := va, fault := none } else none
    | .error (.page level cause, a) => some { job := job, va := a, fault := some (level, cause) }
    | .error (.moving, a) => some { job := job, va := a, fault := none }
    | .error _ => none

/-- The hardware needs `n` bytes of a job's structures: where the walk to them cannot be made now, that is kept, so that the
step is not taken yet. -/
def State.hwTouch (s : State) (job va n : Nat) : State :=
  match s.hwMissed job va n with
  | some m => s.miss m
  | none => s

def State.hwLocs (s : State) (job va n : Nat) : Option (List Nat) := (s.hwSpan job va n).map (fun ts => ts.map (·.loc))

/-- `n` bytes of a job's structures as their homes hold them. -/
def State.hwRead (s : State) (job va n : Nat) : Option Nat :=
  (s.hwLocs job va n).map (fun ls => ofBytes (s.homeBytes ls))

/-- Bytes of the hardware at translated places: the write counts at the page leaves that it goes through, as any other does
(21_paging.md R394), and a busy weight store takes none of it (05_memory.md R129). -/
def State.hwPut (s : State) (job : Nat) (ts : List Trans) (bs : List Byte) : State :=
  if s.wsHit (ts.map (·.loc)) then s
  else (s.bumpWver job (ts.filterMap (·.leaf))).hwStore job (cells (ts.map (·.loc)) bs)

/-- A store of the hardware to `n` bytes of a job's structures. -/
def State.hwWrite (s : State) (job va n v : Nat) : State :=
  match s.hwSpan job va n with
  | some ts => s.hwPut job ts (toBytes n v)
  | none => s.hwTouch job va n

/-! ### Task records (R22, R23) -/

def Job.taskTab (j : Job) : Nat := j.f 64 64
def Job.tasks (j : Job) : Nat := j.f 32 16 + 1
def Job.recVa (j : Job) (i : Nat) : Nat := j.taskTab + 128 * i

/-- Bits 511:0 of record `i` of a job. -/
def State.taskRec (s : State) (job i : Nat) : Option Nat :=
  match s.job? job with
  | some j => if i < j.tasks then s.hwRead job (j.recVa i) 64 else none
  | none => none

/-- The hardware needs record `i`, which it could not read. -/
def State.recTouch (s : State) (job i : Nat) : State :=
  match s.job? job with
  | some j => if i < j.tasks then s.hwTouch job (j.recVa i) 64 else s
  | none => s

def recCount (w : Nat) : Nat := bf w 0 32
def recGen (w : Nat) : Nat := bf w 32 16
def recHdie (w : Nat) : Nat := bf w 48 2
def recState (w : Nat) : Nat := bf w 56 4
def recClass (w : Nat) : Nat := bf w 60 3
def recEntry (w : Nat) : Nat := bf w 64 56
def recArg (w : Nat) : Nat := bf w 128 56
def recDeadline (w : Nat) : Nat := bf w 192 64
def recSave (w : Nat) : Nat := bf w 256 56

/-- The berth to which a record is bound (R23). -/
def recBerth (w : Nat) : Option (Nat × Nat) := if bit w 384 then some (bf w 432 2, bf w 416 16) else none

/-- VALID = 1 with every reserved field 0 (R23). -/
def recValid (w : Nat) : Bool :=
  bit w 63 && bf w 64 4 == 0 && bf w 120 8 == 0 && bf w 184 8 == 0 && bf w 312 8 == 0 && bf w 352 31 == 0 &&
    bf w 385 31 == 0 && bf w 434 11 == 0 && bf w 446 2 == 0

/-- Word 0 of record `i` written by the hardware as one atomic (R24). -/
def State.setWord0 (s : State) (job i v : Nat) : State :=
  match s.job? job with
  | some j => s.hwWrite job (j.recVa i) 8 v
  | none => s

/-- A field of word 0 replaced. -/
def putField (w lo len v : Nat) : Nat := w - bf w lo len * 2 ^ lo + v % 2 ^ len * 2 ^ lo

def State.setTaskState (s : State) (job i st : Nat) : State :=
  match s.taskRec job i with
  | some w => s.setWord0 job i (putField (w % 2 ^ 64) 56 4 st)
  | none => s.recTouch job i

/-- The live die that runs the tasks of a record (R25). -/
def State.taskDie (s : State) (w : Nat) : Nat := s.dieFor (recHdie w)

def State.aux (s : State) (job i : Nat) : TaskAux :=
  match s.tasks.find? (fun t => t.job == job && t.idx == i) with
  | some t => t
  | none => { job := job, idx := i, saved := none, park := none, missed := false, owesOF := false, node := none, startedIn := [] }

def State.setAux (s : State) (t : TaskAux) : State :=
  { s with tasks := upsert (fun u => u.job == t.job && u.idx == t.idx) t s.tasks }

/-- The die at whose home record `i` lies, for the counter of dead letters (23 R429). -/
def State.recHome (s : State) (job i : Nat) : Option Nat :=
  match s.job? job with
  | some j =>
    if i < j.tasks then (s.hwLocs job (j.recVa i) 1).map (fun ls => locDie (ls.headD 0)) else none
  | none => none

/-! ### The ready queue (R39, R40) -/

/-- Order of R40 between two entries, by CLASS, DEADLINE, job and index. -/
def State.readyBefore (s : State) (a b : ReadyEntry) : Bool :=
  let wa := (s.taskRec a.job a.idx).getD 0
  let wb := (s.taskRec b.job b.idx).getD 0
  let dl (w : Nat) : Nat := if recDeadline w = 0 then 2 ^ 64 - 1 else recDeadline w
  if recClass wa ≠ recClass wb then decide (recClass wb < recClass wa)
  else if dl wa ≠ dl wb then decide (dl wa < dl wb)
  else if a.job ≠ b.job then decide (a.job < b.job)
  else decide (a.idx < b.idx)

/-- An entry put before the first one that it precedes. -/
def State.insertReady (s : State) (e : ReadyEntry) : List ReadyEntry → List ReadyEntry
  | [] => [e]
  | x :: xs => if s.readyBefore e x then e :: x :: xs else x :: s.insertReady e xs

/-- An entry put behind every entry of its deadline position (R39, `yield`). -/
def State.insertYield (s : State) (e : ReadyEntry) : List ReadyEntry → List ReadyEntry
  | [] => [e]
  | x :: xs =>
    let we := (s.taskRec e.job e.idx).getD 0
    let wx := (s.taskRec x.job x.idx).getD 0
    let same := recClass we == recClass wx && recDeadline we == recDeadline wx
    if s.readyBefore e x && !same then e :: x :: xs else x :: s.insertYield e xs

/-- A class has context time left in the current period: its budget is 1/256 of 128 contexts for 1 µs each, in units of
station time, times the entry of the table (R41). -/
def Die.classLeft (d : Die) (k : Nat) : Bool := decide (vget d.charged k 0 < bf d.budget.toNat (8 * k) 8 * 8000)

/-- The task that stands first in the order of R41 on a die, whether or not its berth is resident. -/
def State.firstReady (s : State) (die : Nat) : Option ReadyEntry :=
  let d := s.die die
  match d.ready.find? (fun e => d.classLeft (recClass ((s.taskRec e.job e.idx).getD 0))) with
  | some e => some e
  | none => d.ready.head?

/-- enqueue(die, task): into the die's ready queue, or, when the queue is full, at the end of the chain of linked records
(R23, R40). No rule codes what PARK of a linked record holds: the model keeps the chain itself and writes nothing to PARK
(log 85). -/
def State.enqueue (s : State) (die : Nat) (e : ReadyEntry) : State :=
  let d := s.die die
  if d.ready.contains e || d.chain.contains e then s
  else if d.ready.length < Config.readyEntries then s.setDie die { d with ready := s.insertReady e d.ready }
  else s.setDie die { d with chain := d.chain ++ [e] }

def State.enqueueYield (s : State) (die : Nat) (e : ReadyEntry) : State :=
  let d := s.die die
  if d.ready.length < Config.readyEntries then s.setDie die { d with ready := s.insertYield e d.ready }
  else s.setDie die { d with chain := d.chain ++ [e] }

/-- A task leaves the ready queue; the first of the chain enters. -/
def State.dequeue (s : State) (e : ReadyEntry) : State :=
  [0, 1, 2, 3].foldl (fun s k =>
    let d := s.die k
    if d.ready.contains e || d.chain.contains e then
      let r := d.ready.filter (· != e)
      let c := d.chain.filter (· != e)
      if r.length < Config.readyEntries then
        match c with
        | x :: xs => s.setDie k { d with ready := s.insertReady x r, chain := xs }
        | [] => s.setDie k { d with ready := r, chain := [] }
      else s.setDie k { d with ready := r, chain := c }
    else s) s

/-- STATE := READY, and the task joins the ready queue (R26, R35). A record that is no task any more has left its
queue for good (R251). -/
def State.makeReady (s : State) (job i : Nat) : State :=
  match s.taskRec job i with
  | none => s.recTouch job i
  | some w =>
    if !recValid w then s.setAux { s.aux job i with park := none }
    else
    let s := s.setWord0 job i (putField (w % 2 ^ 64) 56 4 1)
    let s := s.setAux { s.aux job i with park := none }
    s.enqueue (s.taskDie w) { job := job, idx := i }

/-- Every parked task that `p` selects becomes READY (R35: the event it parked on has occurred). -/
def State.wake (s : State) (p : TaskAux → Park → Bool) : State :=
  s.tasks.foldl (fun s t =>
    match t.park with
    | some k => if p t k then s.makeReady t.job t.idx else s
    | none => s) s

/-! ### Events and notifies (R26-R29, 20_host.md R384) -/

/-- An event as R29 lays it out, but for STAMP and DIE, which the posting supplies. -/
structure EventRec where
  code : Nat
  srck : Nat
  index : Nat := 0
  gen : Nat := 0
  pc : Nat := 0
  addr : Nat := 0
  detail : Nat := 0
  deriving DecidableEq, Repr

def EventRec.bits (e : EventRec) (die : Nat) (stamp : Nat) : Nat :=
  e.code % 2 ^ 8 * 2 ^ 504 + e.srck % 2 ^ 8 * 2 ^ 496 + die % 4 * 2 ^ 480 + e.index % 2 ^ 16 * 2 ^ 464 +
    e.gen % 2 ^ 16 * 2 ^ 448 + stamp % 2 ^ 64 * 2 ^ 384 + e.pc % 2 ^ 64 * 2 ^ 320 + e.addr % 2 ^ 64 * 2 ^ 256 +
    e.detail % 2 ^ 256

/-- A vector raised on a host port (R384). -/
def State.raiseVector (s : State) (port v : Nat) : State :=
  let p := vget s.ports port Port.reset
  { s with ports := vset s.ports port { p with vectors := v :: p.vectors } }

def Job.evRing (j : Job) : Nat := j.f 256 64
def Job.evCap (j : Job) : Nat := 2 ^ j.f 320 8
def Job.evPort (j : Job) : Nat := j.f 11 1
def Job.handler (j : Job) : Nat := j.f 16 16

/-- The event goes to the job's ring, or is dropped and counted as LOST (R28, R384); nobody is notified. DESIGN CHOICE: a
ring whose header lies where no range of the job permits a read takes no event and counts none (log 8). -/
def State.appendEvent (s : State) (job die : Nat) (e : EventRec) : State :=
  match s.job? job with
  | none => s
  | some j =>
    match s.hwRead job j.evRing 24 with
    | none => s.hwTouch job j.evRing 24
    | some h =>
      let prod := bf h 0 64
      let cons := bf h 64 64
      if (prod + 2 ^ 64 - cons) % 2 ^ 64 ≥ j.evCap then s.hwWrite job (j.evRing + 16) 4 (bf h 128 32 + 1)
      else
        let s := s.hwWrite job (j.evRing + 64 + 64 * (prod % j.evCap)) 64 (e.bits die (s.die die).stime.toNat)
        let s := s.hwWrite job j.evRing 8 (prod + 1)
        s.raiseVector j.evPort j.num

/-- What a notify came to (R26). -/
inductive Notified | ok | dead | underflow
  deriving DecidableEq, Repr

/-- The atomic step of R26 on word 0 of record i. -/
def State.decrement (s : State) (job i g : Nat) : Notified × State :=
  match s.taskRec job i with
  | none => (.dead, s.recTouch job i)
  | some w =>
    if !recValid w || recGen w ≠ g then (.dead, s)
    else if recCount w = 0 then (.underflow, s)
    else
      let w' := w % 2 ^ 64 - 1
      let s := s.setWord0 job i w'
      if recCount w' = 0 && (recState w = 0 || recState w = 6) then (.ok, s.makeReady job i) else (.ok, s)

def deadLetter (srck i g det : Nat) : EventRec := { code := 0x0A, srck := srck, index := i, gen := g, detail := det }

def State.countDead (s : State) (job i : Nat) : State :=
  match s.recHome job i with
  | some d =>
    let x := s.die d
    s.setDie d { x with counters := { x.counters with deadltr := x.counters.deadltr + 1 } }
  | none => s

/-- The handler task is notified of an event; a dead letter that this makes notifies no one (R28, R340). The handler
is named by its index, so the generation its record holds is the one meant (log 17). -/
def State.notifyHandler (s : State) (job die : Nat) : State :=
  match s.job? job with
  | none => s
  | some j =>
    if j.handler = 0xFFFF then s
    else
      let g := recGen ((s.taskRec job j.handler).getD 0)
      match s.decrement job j.handler g with
      | (.ok, s) => s
      | (.dead, s) => (s.countDead job j.handler).appendEvent job die (deadLetter 0 j.handler g 0)
      | (.underflow, s) => (s.countDead job j.handler).appendEvent job die (deadLetter 0 j.handler g 1)

/-- The event ring of a job is full (R28, R384). -/
def State.ringFull (s : State) (job : Nat) : Bool :=
  match s.job? job with
  | none => false
  | some j =>
    match s.hwRead job j.evRing 24 with
    | none => false
    | some h => decide ((bf h 0 64 + 2 ^ 64 - bf h 64 64) % 2 ^ 64 ≥ j.evCap)

/-- post_event (R28): an event that a full ring drops notifies no one. -/
def State.postEvent (s : State) (job die : Nat) (e : EventRec) : State :=
  if s.ringFull job then s.appendEvent job die e else (s.appendEvent job die e).notifyHandler job die

/-- The events of the stores that a busy weight store has refused (10_scalar_memory.md R237). -/
def State.reportRefused (s : State) : State :=
  s.refused.foldl (fun s i =>
    match s.history[i]? with
    | some r =>
      match r.src with
      | some x => s.postEvent r.job x.die { code := 0x15, srck := 4, index := x.idx, pc := x.pc.toNat, addr := x.va.toNat }
      | none => s
    | none => s) { s with refused := [] }

/-- A dead letter for a record (R26, R28): one for the handler itself notifies no one. -/
def State.postDead (s : State) (job die i g det : Nat) : State :=
  let s := s.countDead job i
  let isHandler : Bool := match s.job? job with
    | some j => j.handler == i
    | none => false
  if isHandler then s.appendEvent job die (deadLetter 0 i g det) else s.postEvent job die (deadLetter 0 i g det)

/-- notify(i, g) (R26). -/
def State.notify (s : State) (job die i g : Nat) : State :=
  match s.decrement job i g with
  | (.ok, s) => s
  | (.dead, s) => s.postDead job die i g 0
  | (.underflow, s) => s.postDead job die i g 1

/-! ### Contexts -/

def State.ctx? (s : State) (die seq ctx : Nat) : Option Ctx :=
  s.ctxs.find? (fun c => c.die == die && c.seq == seq && c.ctx == ctx)

def State.setCtx (s : State) (c : Ctx) : State :=
  { s with ctxs := upsert (fun x => x.die == c.die && x.seq == c.seq && x.ctx == c.ctx) c s.ctxs }

def State.dropCtx (s : State) (c : Ctx) : State :=
  { s with ctxs := s.ctxs.filter (fun x => !(x.die == c.die && x.seq == c.seq && x.ctx == c.ctx)) }

/-- The context whose turn it is. -/
def State.cur (s : State) : Option Ctx :=
  match s.focus with
  | .context d q c => s.ctx? d q c
  | _ => none

/-- The context that runs generation `g` of a record: a block of an earlier generation that has not ended yet runs on a
context of its own (R51, R251). -/
def State.ctxOf (s : State) (job i g : Nat) : Option Ctx := s.ctxs.find? (fun c => c.job == job && c.idx == i && c.gen == g)

def Ctx.agent (c : Ctx) : Agent := taskAgent c.job c.die c.seq c.idx
def Ctx.num (c : Ctx) : Nat := taskNum c.die c.idx

/-- The range table of a job. -/
def State.jobRanges (s : State) (job : Nat) : List (BitVec 256) :=
  match s.job? job with
  | some j => j.ranges
  | none => []

/-! ### Save and restore (R37, R38) -/

/-- The 392 bytes of a save area. -/
def saveBytes (r : RegFile) (pc : Word64) : List Byte :=
  let taints := ((upFrom 1 31).map (fun i => b2n (vget r.taint i false) * 2 ^ i)).foldl (· + ·) 0
  let conds := ((upFrom 1 7).map (fun i => b2n (vget r.c i false) * 2 ^ i)).foldl (· + ·) 1
  toBytes 8 pc.toNat ++ ((upFrom 1 31).flatMap (fun i => toBytes 8 (vget r.g i 0).toNat)) ++
    ((upFrom 0 16).flatMap (fun i => toBytes 8 (vget r.f i 0).toNat)) ++ toBytes 4 taints ++ toBytes 1 conds ++
    [0] ++ toBytes 2 r.fpctl.toNat

def setAll {α : Type} {n : Nat} (v : Vector α n) (f : Nat → α) : Nat → Vector α n
  | 0 => v
  | k + 1 => vset (setAll v f k) k (f k)

/-- RM of FPCTL (04_numbers.md R105). -/
def fpRM (fpctl : BitVec 16) : Nat := bf fpctl.toNat 8 3

/-- A write of FPCTL: RM keeps its value for 4 to 7, and bits 7 and 5 read 0 (04_numbers.md R105). -/
def fpWrite (old v : BitVec 16) : BitVec 16 :=
  let n := v.toNat
  let rm := if bf n 8 3 < 4 then bf n 8 3 else fpRM old
  BitVec.ofNat 16 (bf n 11 5 * 2 ^ 11 + rm * 2 ^ 8 + (bf n 0 8 &&& 0x5F))

/-- Registers and the next block as a save area holds them, for a task that last ran with `old`. FPCTL is loaded as a
write of it is: an RM of 4 to 7 leaves the old one, bits 7 and 5 stay 0 (log 87). -/
def restoreBytes (bs : List Byte) (old : RegFile) : RegFile × Word64 :=
  let n := ofBytes bs
  let z := RegFile.zero
  ({ z with
      g := setAll z.g (fun i => if i = 0 then 0 else BitVec.ofNat 64 (bf n (64 * i) 64)) 32
      f := setAll z.f (fun i => BitVec.ofNat 64 (bf n (2048 + 64 * i) 64)) 16
      taint := setAll z.taint (fun i => i != 0 && bit n (3072 + i)) 32
      c := setAll z.c (fun i => i != 0 && bit n (3104 + i)) 8
      tview := old.tview
      fpctl := fpWrite old.fpctl (BitVec.ofNat 16 (bf n 3120 16)) },
    BitVec.ofNat 64 (bf n 0 64))

/-- The record still names the task that the context runs, and that task has not been cancelled (R51, R251). -/
def State.lives (s : State) (c : Ctx) : Bool :=
  match s.taskRec c.job c.idx with
  | some w => recValid w && recGen w == c.gen && recState w != 5
  | none => false

/-- The registers of the last commit go to the save area (R37). A record that names another task by now, or none, has no
use for them: a task's first dispatch takes those of R38. -/
def State.saveRegs (s : State) (c : Ctx) (regs : RegFile) (pc : Word64) : State :=
  if !s.lives c then s.recTouch c.job c.idx
  else
    let s : State := match s.hwSpan c.job (recSave ((s.taskRec c.job c.idx).getD 0)) 392 with
      | some ts => s.hwPut c.job ts (saveBytes regs pc)
      | none => s.hwTouch c.job (recSave ((s.taskRec c.job c.idx).getD 0)) 392
    s.setAux { s.aux c.job c.idx with saved := some (regs, pc) }

/-- The registers are saved, the context is given up, and what the task's agent knew at the last commit is kept
(R36, R37). -/
def State.saveAndFree (s : State) (c : Ctx) (regs : RegFile) (pc : Word64) (view rel : View) : State :=
  ((s.saveRegs c regs pc).setView c.job c.num view rel).dropCtx c

/-- The block of a running context aborts: nothing of it remains (R35, R36). -/
def State.abort (s : State) (c : Ctx) : State := s.saveAndFree c c.base c.pc c.baseView c.baseRel

/-- The registers a task runs with when it is dispatched (R37, R38): from its save area, or those of R38 the first
time. A save area that cannot be reached leaves what the hardware wrote (log 15). -/
def State.dispatchRegs (s : State) (job i w : Nat) : RegFile × Word64 :=
  match (s.aux job i).saved with
  | none =>
    ({ RegFile.zero with g := vset RegFile.zero.g 1 (BitVec.ofNat 64 (recArg w)) }, BitVec.ofNat 64 (recEntry w))
  | some (r, pc) =>
    match s.hwLocs job (recSave w) 392 with
    | some ls => restoreBytes (s.homeBytes ls) r
    | none => (r, pc)

/-! ### Taking an exception: a scalar fault, a park, a page fault -/

/-- A scalar fault that is no page fault (R31): the block ends with no effect, STATE becomes TRAPPED, COUNT 1, and an
event with SRCK 0 is posted. -/
def State.trapTask (s : State) (c : Ctx) (code addr detail : Nat) : State :=
  let s := s.abort c
  match s.taskRec c.job c.idx with
  | none => s.recTouch c.job c.idx
  | some w =>
    let s := if s.lives c then s.setWord0 c.job c.idx (putField (putField (w % 2 ^ 64) 56 4 6) 0 32 1) else s
    s.postEvent c.job c.die
      { code := code, srck := 0, index := c.idx, gen := c.gen, pc := c.pc.toNat, addr := addr, detail := detail }

/-- The block aborts and the task parks (R35); a task whose VALID was cleared stops instead (R251). -/
def State.parkTask (s : State) (c : Ctx) (p : Park) : State :=
  let s := s.abort c
  if !s.lives c then s
  else
    let s := s.setTaskState c.job c.idx 3
    s.setAux { s.aux c.job c.idx with park := some p }

/-- Detail of a fault of 10_scalar_memory.md (R234): the word index and the subcause. -/
def detailOf (ip sub : Nat) : Nat := ip + sub * 2 ^ 8

/-- A page fault of a party of die `die` (21_paging.md R397): it is pending until the pager answers its token. -/
def State.pageFault (s : State) (die job : Nat) (src : FaultSrc) (va pc : Nat) (kind : AccKind) (level cause : Nat)
    (det : Nat := 0) : Nat × State :=
  let d := s.die die
  let f : PageFault :=
    { token := d.nextToken % 2 ^ 48, job := job, src := src, va := BitVec.ofNat 64 va, pc := BitVec.ofNat 64 pc,
      kind := kind.code, level := level, cause := cause, stamp := d.stime, det := det, posted := false, noframe := false,
      again := false, lost := false }
  (d.nextToken % 2 ^ 48, s.setDie die { d with faults := d.faults ++ [f], nextToken := d.nextToken + 1 })

/-- A task's access meets a page fault: it parks for the pager (R35, R398). -/
def State.faultTask (s : State) (c : Ctx) (fetch : Bool) (va : Nat) (kind : AccKind) (level cause : Nat) : State :=
  let src := if fetch then FaultSrc.fetch c.idx else FaultSrc.task c.idx
  let (t, s) := s.pageFault c.die c.job src va c.pc.toNat kind level cause (detailOf (if fetch then 0 else c.ip) 0)
  s.parkTask c (.pager c.die t)

/-- An entry of Depot's log, which keeps the newest 4,096 (23_fleet.md R430). -/
def State.addLog (s : State) (kind die : Nat) (detail : Nat) : State :=
  let d := s.depot
  let e : LogEntry :=
    { seq := d.logNext, stime := (s.die (d.die.getD die)).stime, kind := kind, die := die, detail := BitVec.ofNat 64 detail }
  { s with depot := { d with log := (d.log ++ [e]).drop (d.log.length + 1 - 4096), logNext := d.logNext + 1 } }

/-- An uncorrectable data error is met: ECCUNC and a kind-1 entry (23_fleet.md R431). -/
def State.eccHit (s : State) (home pa : Nat) : State :=
  let d := s.die home
  (s.setDie home { d with counters := { d.counters with eccunc := d.counters.eccunc + 1 } }).addLog 1 home pa

/-- A task's access that does not come to its bytes (R234, R35, R58): a fault, a page fault, or a wait: for a closed bank
of a weight store the task parks, of any other the context keeps the beginning. -/
def State.accessFault (s : State) (c : Ctx) (va : Nat) (kind : AccKind) (f : TFault) : State :=
  match f with
  | .prot sub => s.trapTask c 0x05 va (detailOf c.ip sub)
  | .dieLost => s.trapTask c 0x1B va (detailOf c.ip 0)
  | .page level cause => s.faultTask c false va kind level cause
  | .data home pa => (s.eccHit home pa).trapTask c 0x1A va (detailOf c.ip 20)
  | .moving =>
    match s.bankShut c.die c.job (s.jobRanges c.job) kind va with
    | some (d, t) => s.parkTask c (.bank d t)
    | none =>
      match c.stalled with
      | some _ => s
      | none => s.setCtx { c with stalled := some (va, (s.die c.die).stime) }

/-! ### Cancelling a task (R51) -/

/-- A task that has not ended is cancelled: its block aborts, it leaves every queue, STATE becomes CANCELLED, and its
notify target is notified once. -/
def State.cancelTask (s : State) (job i : Nat) : State :=
  match s.taskRec job i with
  | none => s.recTouch job i
  | some w =>
    if !recValid w || recState w = 4 || recState w = 5 then s
    else
      let s :=
        match s.ctxOf job i (recGen w) with
        | some c => s.abort c
        | none => s
      let s := s.dequeue { job := job, idx := i }
      let s := s.setAux { s.aux job i with park := none }
      let die := s.taskDie w
      let s := [0, 1, 2, 3].foldl (fun s d =>
        let x := s.die d
        s.setDie d { x with faults := x.faults.filter (fun f => !(f.job == job && (f.src == .task i || f.src == .fetch i))) }) s
      let s := s.setTaskState job i 5
      if bit w 383 then s.notify job die (bf w 320 16) (bf w 336 16) else s

end Sys2Proof.Machine
end

