-- ==== Sys2Proof/Machine/Orders.lean ====
section
/-! DEFINITION. Order types (03_fabric.md R66, R69-R71, R75). -/

namespace Sys2Proof.Machine

/-- Adjacent factors of one dimension merged where the slower continues the faster (R71, step 2). -/
def mergeFactors : List Factor → List Factor
  | [] => []
  | f :: fs =>
    match mergeFactors fs with
    | [] => [f]
    | g :: gs =>
      if f.dim == g.dim && !f.ragged && !g.ragged && g.step == f.step * f.ext then
        { f with ext := f.ext * g.ext } :: gs
      else f :: g :: gs

def normFactors (fs : List Factor) : List Factor := mergeFactors (fs.filter (fun f => f.ext != 1))

/-- Normalisation (R71). -/
def Order.norm (o : Order) : Order := { lanes := normFactors o.lanes, beats := normFactors o.beats }

/-- Equality of order types (R71). -/
def Order.eqv (a b : Order) : Bool := a.norm == b.norm

def prodExt (fs : List Factor) : Nat := fs.foldl (fun n f => n * f.ext) 1

/-- E(d) (R70). -/
def Order.extent (o : Order) (d : Nat) : Nat := prodExt ((o.lanes ++ o.beats).filter (fun f => f.dim == d))

def Order.has (o : Order) (d : Nat) : Bool := (o.lanes ++ o.beats).any (fun f => f.dim == d && f.ext != 1)

/-- The same tensor (R71). -/
def Order.sameTensor (a b : Order) : Bool := [0, 1, 2, 3].all (fun d => a.extent d == b.extent d)

/-- Lanes in use. -/
def Order.laneCount (o : Order) : Nat := prodExt o.lanes
/-- Beats per tensor, ragged factors at their maximum. -/
def Order.beatCount (o : Order) : Nat := prodExt o.beats

/-- The tensor level L = max(1, m) (R66). -/
def Order.level (o : Order) : Nat := max 1 o.norm.beats.length

/-- Nesting level of the ragged beat factor, where there is one. -/
def Order.raggedLevel (o : Order) : Option Nat :=
  let i := o.norm.beats.findIdx (fun f => f.ragged)
  if i < o.norm.beats.length then some (i + 1) else none

def insertStep (f : Factor) : List Factor → List Factor
  | [] => [f]
  | g :: gs => if f.step ≤ g.step then f :: g :: gs else g :: insertStep f gs

/-- The factors of one dimension, sorted by step, tile it, and no two have the same step (R70). -/
def stepsOk : Nat → List Factor → Bool
  | _, [] => true
  | k, f :: fs => f.step == k && fs.all (fun g => g.step != f.step) && stepsOk (k * f.ext) fs

/-- Validity (R70) for elements of `w` bits; `block` edges have their own lane limit (12_operators.md R293). -/
def Order.valid (o : Order) (w : Nat) (block : Bool) : Bool :=
  o.lanes.length ≤ 8 && o.beats.length ≤ 7 && (block || o.laneCount ≤ 512 / w) &&
    (o.lanes ++ o.beats).all (fun f => 1 ≤ f.ext && f.ext ≤ 65536) && o.lanes.all (fun f => !f.ragged) &&
    [0, 1, 2, 3].all (fun d =>
      stepsOk 1 (((o.lanes ++ o.beats).filter (fun f => f.dim == d)).foldl (fun l f => insertStep f l) []))

/-- The index of a coordinate along one factor list: mixed-radix, fastest first (R69). -/
def factorIndex (coord : Nat → Nat) : List Factor → Nat
  | [] => 0
  | f :: fs => coord f.dim / f.step % f.ext + f.ext * factorIndex coord fs

/-- Lane and beat of an element (R69). -/
def Order.place (o : Order) (coord : Nat → Nat) : Nat × Nat := (factorIndex coord o.lanes, factorIndex coord o.beats)

/-- Contribution of a factor list's index to a coordinate. -/
def factorCoord (d : Nat) : Nat → List Factor → Nat
  | _, [] => 0
  | n, f :: fs => (if f.dim = d then n % f.ext * f.step else 0) + factorCoord d (n / f.ext) fs

/-- Coordinates of lane `n`, beat `b` (R69). -/
def Order.coord (o : Order) (n b d : Nat) : Nat := factorCoord d n o.lanes + factorCoord d b o.beats

/-- The four coordinates of the elements of the tensor, as functions. -/
def Order.coordsOf (n b : Nat) (o : Order) : Nat × Nat × Nat × Nat :=
  (o.coord n b 0, o.coord n b 1, o.coord n b 2, o.coord n b 3)

def pick4 (c : Nat × Nat × Nat × Nat) (d : Nat) : Nat :=
  match d with
  | 0 => c.1
  | 1 => c.2.1
  | 2 => c.2.2.1
  | _ => c.2.2.2

/-- Beats of each element under P and Q, for the elements in P's order; a block-scaled edge counts blocks of `bs`
lanes (R75, R78). -/
def beatPairs (p q : Order) (bs : Nat) : List (Nat × Nat) :=
  (upFrom 0 p.beatCount).flatMap (fun b =>
    ((upFrom 0 p.laneCount).filter (fun n => n % bs == 0)).map (fun n =>
      (b, (q.place (pick4 (p.coordsOf n b))).2)))

/-- Consumer delay D (R75). -/
def sidingDelay (pairs : List (Nat × Nat)) : Nat :=
  match pairs with
  | [] => 0
  | x :: xs =>
    let mx := xs.foldl (fun (m : Int) y => max m ((y.1 : Int) - (y.2 : Int))) ((x.1 : Int) - (x.2 : Int))
    if mx < 0 then 0 else mx.toNat + 1

/-- held(c) for one element: the number of integers t with T·t + bp ≤ c < T·t + bq + D. -/
def heldBy (t d c : Nat) (e : Nat × Nat) : Nat :=
  let hi := ((c : Int) - (e.1 : Int)) / (t : Int)
  let lo := ((c : Int) - (e.2 : Int) - (d : Int)) / (t : Int)
  (hi - lo).toNat

/-- Minimum siding S in elements, or blocks (R75). -/
def sidingSize (p q : Order) (bs : Nat) : Nat :=
  let pairs := beatPairs p q bs
  let d := sidingDelay pairs
  let t := max p.beatCount q.beatCount
  ((upFrom 0 t).map (fun c => (pairs.map (heldBy t d c)).foldl (· + ·) 0)).foldl max 0

end Sys2Proof.Machine
end

