-- ==== Sys2Proof/Machine/OpsRegion.lean ====
section
/-! DEFINITION. Regions and the firing of their operators: what every operator does alike with beats (03_fabric.md
R61-R68, R80, R82, R85-R88), operator traps (12_operators.md R286-R292) and the state an operator returns to (R288). -/

namespace Sys2Proof.Machine

/-! ### Regions -/

def State.region? (s : State) (job v : Nat) : Option Region := s.regions.find? (fun r => r.job == job && r.v == v)

def State.setRegion (s : State) (r : Region) : State :=
  { s with regions := upsert (fun x => x.job == r.job && x.v == r.v) r s.regions }

/-- A region that becomes EMPTY holds nothing (R61). -/
def State.dropRegion (s : State) (job v : Nat) : State :=
  { s with regions := s.regions.filter (fun r => !(r.job == job && r.v == v)) }

def Body.empty : Body := { ops := [], edges := [], tiles := [], ports := [] }

/-- The region's rectangle overlaps another (R60). -/
def Region.overlaps (a b : Region) : Bool :=
  a.die == b.die && a.x0 < b.x0 + b.w && b.x0 < a.x0 + a.w && a.y0 < b.y0 + b.h && b.y0 < a.y0 + a.h

def RegionState.holdsTiles : RegionState → Bool
  | .armed => true
  | .running => true
  | .stopped => true
  | _ => false

/-- Another region holds a tile of the rectangle (R60). -/
def State.overlapped (s : State) (r : Region) : Bool :=
  s.regions.any (fun x => !(x.job == r.job && x.v == r.v) && x.state.holdsTiles && r.overlaps x)

/-- Type of a logical tile of a die: 0 C, 1 M, 2 A, 3 P, 4 S. -/
def tileType (x y : Nat) : Nat :=
  let r := y % 4
  if x = 0 || x = 31 then 3
  else if x = 1 || x = 30 then if r % 2 = 0 then 2 else 4
  else if x = 2 || x = 29 then [0, 1, 2, 2].getD r 0
  else if x = 3 || x = 28 then [0, 4, 2, 4].getD r 0
  else
    match x % 4 with
    | 0 => [0, 1, 0, 1].getD r 0
    | 1 => 0
    | 2 => [0, 1, 0, 1].getD r 0
    | _ => [0, 2, 0, 1].getD r 0

/-- Compute tiles and port tiles hold a generator (04_numbers.md R107). -/
def hasGen (type : Nat) : Bool := type == 0 || type == 3

/-! ### Operator words -/

def opc (w : OpWord) : Nat := opOpcode w.toNat
def param (w : OpWord) (lo len : Nat) : Nat := bf w.toNat lo len

/-- Side-effect operators (R80); `mvers` is one with DIR `in`. -/
def sideEffect (w : OpWord) : Bool :=
  match opc w with
  | 0x61 => true
  | 0x62 => true
  | 0x52 => true
  | 0x63 => !bit w.toNat 100
  | _ => false

/-- Sources of streams, whose outputs arming knows before the first pass (R360). -/
def isSource (w : OpWord) : Bool :=
  match opc w with
  | 0x50 => true | 0x60 => true | 0x72 => true | 0x78 => true | 0x7C => true
  | 0x63 => bit w.toNat 100
  | _ => false

/-- The tag of contents: format code and block descriptor (04_numbers.md R116). -/
def tagOf (fmt : Nat) (d : BitVec 32) : BitVec 40 := BitVec.ofNat 40 (fmt + d.toNat * 2 ^ 8)

/-- The sources of a region's streams, by index: a `delay` is none (R72). -/
def Body.sources (b : Body) : List Nat :=
  (upFrom 0 b.ops.length).filter (fun k => (b.ops[k]?).any (fun o => isSource o.word && opc o.word != 0x78))

/-- The state of an operator's memory at arming (R288). -/
def OpMem.init (w : OpWord) : OpMem :=
  match opc w with
  | 0x10 => .mmp { active := none, inactive := none, second := false, acctag := 0, swapDue := false, heads := [],
                   planes := [], us := [], chunk := 0, acc := [], poison := none }
  | 0x11 => .mmload []
  | 0x37 => .planes []
  | 0x40 => .fifo []
  | 0x41 => .scratch [] 0 0
  | 0x42 => .window []
  | 0x43 => .pin [] [] none 0
  | 0x50 => .agen 0 0 0 0 0 false
  | 0x60 => .port 0 false
  | 0x61 => .port 0 false
  | 0x62 => .port 0 false
  | 0x63 => .mvers 0 0 [] false
  | 0x70 => .siding [] 0
  | 0x71 => .race [] 0 none
  | 0x72 => .count 0 false 0 0 0 false
  | 0x73 => .turn 0 [] false
  | 0x74 => .turn 0 [] false
  | 0x78 => .delay [] true 0
  | 0x79 => .stopgen 0 0
  | 0x7C => .wsport false
  | 0x20 => .acc 0 []
  | 0x24 => .acc 0 []
  | 0x25 => .acc 0 []
  | 0x33 => .acc 0 []
  | 0x34 => .acc 0 []
  | _ => .idle

/-- Positional state returns to that at arming, and persistent state stays (R288). -/
def OpMem.positional (w : OpWord) (m : OpMem) : OpMem :=
  match m with
  | .mmp x => .mmp { x with acctag := 0, heads := [], planes := [], us := [], chunk := 0, acc := [], poison := none }
  | .scratch a _ _ => .scratch a 0 0
  | .pin st _ _ _ => .pin st [] none 0
  | .wsport b => .wsport b
  | _ => OpMem.init w

def Op.positional (o : Op) : Op :=
  { o with mem := o.mem.positional o.word, outbox := [], pos := [], inside := [], marked := [], finals := [], frozen := false }

/-- The operator as at arming, with the word the image holds (R266, `stop`). -/
def Op.asArmed (o : Op) : Op :=
  { o with word := o.armed, deferred := o.forced || bit o.armed.toNat 247, mem := OpMem.init o.armed, outbox := [],
           pos := [], inside := [], marked := [], finals := [], frozen := false }

def Edge.clear (e : Edge) : Edge := { e with link := [], out := [] }

/-- Every beat in flight is discarded, and positional state returns (R50, R288). -/
def Region.positional (r : Region) : Region :=
  { r with trap := none, cause := 0, fault := none, stalls := [], preempt := none, cutOpen := false, grouped := [],
           body := { r.body with ops := r.body.ops.map Op.positional, edges := r.body.edges.map Edge.clear } }

/-- The armed configuration, with banks, memory tiles, sidings, TFLAGS and generators as at arming (R266). -/
def Region.asArmed (r : Region) : Region :=
  { r with trap := none, cause := 0, fault := none, stalls := [], preempt := none, cutOpen := false, grouped := [],
           body := { r.body with
             ops := r.body.ops.map Op.asArmed
             edges := r.body.edges.map Edge.clear
             tiles := r.body.tiles.map (fun t => { t with tflags := 0, gen := if hasGen (tileType (r.x0 + t.x) (r.y0 + t.y)) then seedOf r.seed t.x t.y else 0 }) } }

/-! ### Beats -/

def dataBeat (n : Nat) : Beat := { kind := .data, data := BitVec.ofNat 512 n, held := false }
def stopBeat (level : Nat) : Beat := { kind := .stop, data := BitVec.ofNat 512 level, held := false }
/-- A hole: a cond beat with bit 0 clear (R80). -/
def holeBeat : Beat := { kind := .cond, data := 0, held := false }
def condBeat (b : Bool) : Beat := { kind := .cond, data := BitVec.ofNat 512 (b2n b), held := false }

/-- A poison beat (R64). -/
def poisonOf (cause lane pos x y slot : Nat) : Beat :=
  { kind := .poison
    data := BitVec.ofNat 512 (cause + x % 32 * 2 ^ 8 + y % 32 * 2 ^ 13 + slot % 4 * 2 ^ 18 + lane % 512 * 2 ^ 20 +
      pos % 2 ^ 32 * 2 ^ 32)
    held := false }

def BeatKind.takesPosition : BeatKind → Bool
  | .data => true
  | .poison => true
  | .cond => true
  | _ => false

/-- KIND as R63 numbers it. -/
def BeatKind.code : BeatKind → Nat
  | .data => 0 | .stop => 1 | .config => 2 | .marker => 3 | .poison => 4 | .cond => 5 | .group => 6

def Beat.level (b : Beat) : Nat := bf b.data.toNat 0 3

/-- Lane `n` of width `w` (R89). -/
def Beat.lane (b : Beat) (w n : Nat) : Nat := bf b.data.toNat (n * w) w

/-- A payload from lanes of width `w`, lane 0 first. -/
def packLanes (w : Nat) (vs : List Nat) : Nat :=
  match vs with
  | [] => 0
  | v :: vs => v % 2 ^ w + 2 ^ w * packLanes w vs

/-! ### An operator's view -/

/-- An operator that is about to fire. -/
structure OpView where
  reg : Region
  ix : Nat
  op : Op
  tile : Tile
  /-- connected ports with the numbers of their edges -/
  ins : List (Nat × Nat)
  outs : List (Nat × Nat)
  deriving DecidableEq, Repr

/-- What a step of an operator does. -/
structure Firing where
  take : List Nat
  emit : List (Nat × Beat)
  mem : Option OpMem := none
  flags : Nat := 0
  gen : Option (BitVec 32) := none
  word : Option OpWord := none
  mark : Option Nat := none
  freeze : Bool := false
  /-- the memory of another operator, by index -/
  other : Option (Nat × OpMem) := none
  deriving DecidableEq, Repr

/-- An operator fault (R289, R290): the beat that caused it, where one did, brings its own origin. -/
structure Trap where
  cause : Nat
  lane : Nat := 0
  port : Nat := 0xFF
  subc : Nat := 0
  addr : Nat := 0
  /-- flags that the tile takes, of a fault in computing -/
  flags : Nat := 0
  origin : Option Beat := none
  deriving DecidableEq, Repr

/-- A try at firing. `stuck` carries the state R404 gives: 1 an input, 2 space, 3 memory, 4 a bank or a group. -/
inductive Fire
  | stuck (why : Nat)
  | go (f : Firing)
  | trap (t : Trap)
  deriving DecidableEq, Repr

def Body.tile (b : Body) (x y : Nat) : Tile :=
  match b.tiles.find? (fun t => t.x == x && t.y == y) with
  | some t => t
  | none => { x := x, y := y, tflags := 0, gen := 1 }

def Body.insOf (b : Body) (ix : Nat) : List (Nat × Nat) :=
  (b.edges.zip (upFrom 0 b.edges.length)).filterMap (fun e =>
    if e.1.siding == some ix then some (0, e.2) else if e.1.dop == ix then some (e.1.dport, e.2) else none)

def Body.outsOf (b : Body) (ix : Nat) : List (Nat × Nat) :=
  (b.edges.zip (upFrom 0 b.edges.length)).filterMap (fun e =>
    if e.1.siding == some ix then some (0, e.2) else if e.1.sop == ix then some (e.1.sport, e.2) else none)

/-- The beats that wait at an input of operator `ix`: a siding takes those of the producer, a consumer behind it those
that it has sent on. -/
def Edge.arrived (e : Edge) (ix : Nat) : List Beat := if e.siding.isSome && e.siding != some ix then e.out else e.link

def mkView (r : Region) (ix : Nat) (o : Op) : OpView :=
  { reg := r, ix := ix, op := o, tile := r.body.tile o.x o.y, ins := r.body.insOf ix, outs := r.body.outsOf ix }

def Region.view (r : Region) (ix : Nat) : Option OpView := (r.body.ops[ix]?).map (mkView r ix)

def OpView.inEdge (v : OpView) (p : Nat) : Option Edge :=
  match v.ins.find? (fun e => e.1 == p) with
  | some e => v.reg.body.edges[e.2]?
  | none => none

def OpView.outEdge (v : OpView) (p : Nat) : Option Edge :=
  match v.outs.find? (fun e => e.1 == p) with
  | some e => v.reg.body.edges[e.2]?
  | none => none

/-- The beat at the head of an input. -/
def OpView.head (v : OpView) (p : Nat) : Option Beat := (v.inEdge p).bind (fun e => (e.arrived v.ix).head?)

def OpView.has (v : OpView) (p : Nat) : Bool := v.ins.any (fun e => e.1 == p)
def OpView.hasOut (v : OpView) (p : Nat) : Bool := v.outs.any (fun e => e.1 == p)
def OpView.outPorts (v : OpView) : List Nat := v.outs.map (·.1)
def OpView.toAll (v : OpView) (b : Beat) : List (Nat × Beat) := v.outPorts.map (fun p => (p, b))

/-- Positions that a port has consumed in its current tensor (R65). -/
def OpView.posAt (v : OpView) (p : Nat) : Nat := v.op.pos.getD p 0

/-- Lanes in use on a connected input or output (R69). -/
def Edge.lanes (e : Edge) (isIn : Bool) : Nat := (if isIn then e.q else e.p).laneCount

/-- Side-effect operators, `mmload` and the port tiles are always immediate (R82, R299, R317). -/
def OpView.deferred (v : OpView) : Bool :=
  v.op.deferred && !sideEffect v.op.word &&
    (match opc v.op.word with
      | 0x11 => false
      | 0x60 => false
      | 0x63 => false
      | _ => true)

/-- Input `p` stands at a tensor boundary: at its start, or after a stop of its tensor level or above (R85). -/
def OpView.atBoundary (v : OpView) (p : Nat) : Bool := !v.op.inside.contains p

/-- A poison beat of the operator itself. -/
def OpView.poison (v : OpView) (cause lane pos : Nat) : Beat := poisonOf cause lane pos v.op.x v.op.y v.op.slot

/-- Operators downstream of `from`, by `n` passes over the edges (R291, R86). -/
def Body.downstream (b : Body) : Nat → List Nat → List Nat
  | 0, l => l
  | n + 1, l =>
    b.downstream n (b.edges.foldl (fun l e => if l.contains e.sop then insertNat e.dop l else l) l)

def Body.reaches (b : Body) (start target : Nat) : Bool := (b.downstream b.ops.length [start]).contains target

/-- The operators that the outputs of `ix` lead to at once. -/
def Body.nextOf (b : Body) (ix : Nat) : List Nat :=
  b.edges.foldl (fun l e => if e.sop == ix || e.siding == some ix then insertNat e.dop l else l) []

/-- The operator lies on a cycle (R84). -/
def Body.onLoop (b : Body) (ix : Nat) : Bool := (b.nextOf ix).any (fun k => b.reaches k ix)

/-- Input `p` is fed only around a cycle through the operator itself (R84). -/
def OpView.fedBack (v : OpView) (p : Nat) : Bool :=
  match v.inEdge p with
  | some e => e.siding != some v.ix && (v.reg.body.nextOf v.ix).any (fun k => v.reg.body.reaches k e.sop)
  | none => false

/-- Extent of the beat factors of a dimension. -/
def Order.beatExt (o : Order) (d : Nat) : Nat := prodExt (o.beats.filter (fun f => f.dim == d))

/-- KC of an `mmp`: the chunks of its plane edge's order (R295). -/
def OpView.kc (v : OpView) : Nat :=
  match v.inEdge 0 with
  | some e => e.q.beatExt 2
  | none => 1

/-- Bytes per element of B in the banks of an `mmp`: 2 for aligned B with W above 8 (04_numbers.md R97), read from the
edge of the `mmload` on its tile. -/
def Body.bankBytes (b : Body) (o : Op) : Nat :=
  let loads := (b.ops.zip (upFrom 0 b.ops.length)).filter (fun l => opc l.1.word == 0x11 && l.1.x == o.x && l.1.y == o.y)
  let wide := b.edges.any (fun e =>
    loads.any (fun l => l.2 == e.dop) && bit e.desc.toNat 17 && decide (8 < bf e.desc.toNat 18 5))
  if wide then 2 else 1

def OpView.bankBytes (v : OpView) : Nat := v.reg.body.bankBytes v.op

/-- The banks of an `mmp` after a swap point, where it can be passed: with one byte per element the inactive bank must be
full; with two, both banks are to be filled again (R296). -/
def MmpMem.swapped (m : MmpMem) (bytes : Nat) : Option MmpMem :=
  if bytes = 2 then some { m with active := none }
  else m.inactive.map (fun b => { m with active := some b, inactive := none, second := !m.second })

/-- The tag of weight bank 0 or 1, 0 for an empty bank: with two bytes per element both hold the one tile (R296, R402). -/
def MmpMem.bankTag (m : MmpMem) (bytes : Nat) (second : Bool) : BitVec 40 :=
  let b := if bytes = 2 || second == m.second then m.active else m.inactive
  (b.map (·.tag)).getD 0

/-! ### Config beats -/

/-- Bits of an operator word that a config beat may not change (R86): the opcode, the edge numbers, and the PARAM
fields that fix a format or an order (log 20). -/
def shapeParam (op : Nat) : Nat :=
  let m (lo len : Nat) : Nat := (2 ^ len - 1) * 2 ^ lo
  match op with
  | 0x10 => m 48 32 + m 32 2
  | 0x35 => m 142 2
  | 0x37 => m 139 5
  | 0x40 => m 131 13
  | 0x41 => m 131 13
  | 0x42 => m 131 13
  | 0x43 => m 131 13
  | 0x50 => m 80 64
  | 0x51 => m 112 32 + m 46 2
  | 0x52 => m 112 32 + m 46 2
  | 0x60 => m 138 6
  | 0x61 => m 138 6
  | 0x62 => m 137 7
  | 0x63 => m 138 6 + m 100 1
  | 0x71 => m 132 12
  | 0x72 => m 128 16 + m 113 3
  | 0x73 => m 90 54
  | 0x74 => m 90 54
  | 0x75 => m 93 51
  | 0x78 => m 134 10
  | 0x79 => m 106 38
  | 0x7C => 0
  | k => if 0x20 ≤ k && k ≤ 0x34 then m 131 13 + m 123 3 else 0

def shapeMask (op : Nat) : Nat := (2 ^ 8 - 1) * 2 ^ 248 + (2 ^ 99 - 1) * 2 ^ 144 + shapeParam op

/-- The new word keeps the shape of the armed one and is itself a word of R193. -/
def configFits (armed new : OpWord) : Bool :=
  let m := shapeMask (opc armed)
  decide (armed.toNat &&& m = new.toNat &&& m) && (decodeOp new).isSome

/-- The operator named by a config beat. -/
def Body.targetOf (b : Body) (beat : Beat) : Option Nat :=
  let i := b.ops.findIdx (fun o => o.x == bf beat.data.toNat 256 5 && o.y == bf beat.data.toNat 261 5 &&
    o.slot == bf beat.data.toNat 266 2)
  if i < b.ops.length then some i else none

/-- Operators that are one edge away from some of `l`, and those of `l`. -/
def Body.hop (b : Body) (l : List Nat) : List Nat :=
  b.edges.foldl (fun m e => if l.contains e.sop then insertNat e.dop m else m) l

/-- Edges on a shortest way from the operators of `l` to one of `ts`, looked for within `n` edges. -/
def Body.wayTo (b : Body) (ts : List Nat) : Nat → List Nat → Option Nat
  | 0, l => if l.any ts.contains then some 0 else none
  | n + 1, l => if l.any ts.contains then some 0 else (b.wayTo ts n (b.hop l)).map (· + 1)

/-- A region output port: `mstore`, `matom`, or `mvers` with DIR `in`. -/
def outPort (w : OpWord) : Bool := sideEffect w && opc w != 0x52

/-- Where a config beat that stands at operator `ix` goes: its target where that lies ahead, else the region output ports
and other ends of the streams (R86). -/
def Body.configGoal (b : Body) (ix : Nat) (target : Option Nat) : List Nat :=
  let ends := (upFrom 0 b.ops.length).filter (fun k => (b.nextOf k).isEmpty || (b.ops[k]?).any (fun o => outPort o.word))
  match target with
  | some t => if (b.nextOf ix).any (fun k => b.reaches k t) then [t] else ends
  | none => ends

/-- The output on which a config beat leaves: of those from which its goal is reachable, the one with the shortest way
(R86; log 37). -/
def OpView.configOut (v : OpView) (target : Option Nat) : Option Nat :=
  let b := v.reg.body
  let goal := b.configGoal v.ix target
  let ways := v.outs.filterMap (fun o =>
    (b.edges[o.2]?).bind (fun e => (b.wayTo goal b.ops.length [e.dop]).map (fun n => (n, o.1))))
  match ways with
  | [] => v.outPorts.head?
  | w :: ws => some (ws.foldl (fun m x => if x.1 < m.1 then x else m) w).2

/-- A config beat addressed to the operator is applied (R86); it swaps the banks of an `mmp` where KC = 1 (R296). -/
def OpView.configured (v : OpView) (p : Nat) (b : Beat) : Fire :=
  let w := BitVec.ofNat 256 (bf b.data.toNat 0 256)
  let w := if opc v.op.armed = 0x7C then
      BitVec.ofNat 256 (putField w.toNat 115 1 (b2n (bit v.op.word.toNat 115))) else w
  let go (m : Option OpMem) : Fire := .go { take := [p], emit := [], word := some w, mem := m }
  if !configFits v.op.armed w then .trap { cause := 0x06, port := p }
  else
    match v.op.mem with
    | .mmp m =>
      if v.kc ≠ 1 then go none
      else
        match m.swapped v.bankBytes with
        | some m => go (some (.mmp m))
        | none => .stuck 4
    | _ => go none

/-- A config beat at the head of input `p` (R85, R86): applied, forwarded toward its target, or CONFIG_UNCLAIMED at a
region output port that it has come to in vain. -/
def OpView.config (v : OpView) (p : Nat) (b : Beat) : Fire :=
  let target := v.reg.body.targetOf b
  let ahead : Bool := match target with
    | some t => (v.reg.body.nextOf v.ix).any (fun k => v.reg.body.reaches k t)
    | none => false
  if !v.atBoundary p then .trap { cause := 0x05, port := p }
  else if target = some v.ix then v.configured p b
  else if outPort v.op.word && !ahead then .trap { cause := 0x07, port := p }
  else
    match v.configOut target with
    | some o => .go { take := [p], emit := [(o, b)] }
    | none => .trap { cause := 0x07, port := p }

/-! ### What every operator does first -/

/-- The front of an operator's aligned inputs: a stop or group beat comes with the inputs it is taken from. -/
inductive Front
  | done (f : Fire)
  | stop (from_ : List Nat) (level : Nat)
  | group (from_ : List Nat) (b : Beat)
  | pos (bs : List Beat)
  deriving DecidableEq, Repr

/-- The first input port for which `f` gives something. -/
def firstPort {α : Type} (ps : List Nat) (f : Nat → Option α) : Option α :=
  match ps with
  | [] => none
  | p :: ps => match f p with
    | some a => some a
    | none => firstPort ps f

/-- A copy of the trap poison at an input passes on, or stays at a side-effect operator or where no output is connected
(R291). -/
def OpView.passHeld (v : OpView) (ps : List Nat) : Option Fire :=
  firstPort ps (fun p =>
    match v.head p with
    | some b =>
      if b.held then
        some (if sideEffect v.op.word || v.outs.isEmpty then .stuck 1 else .go { take := [p], emit := v.toAll b })
      else none
    | none => none)

/-- A config beat at the head of one of the inputs. -/
def OpView.configHead (v : OpView) (ps : List Nat) : Option Fire :=
  firstPort ps (fun p =>
    match v.head p with
    | some b => if b.kind = .config then some (v.config p b) else none
    | none => none)

/-- No input port's stream reaches input `p`, so that no marker comes there (R266; log 35). -/
def OpView.noMarker (v : OpView) (p : Nat) : Bool :=
  match v.inEdge p with
  | some e =>
    let b := v.reg.body
    (b.ops.zip (upFrom 0 b.ops.length)).all (fun o => opc o.1.word != 0x60 || !b.reaches o.2 e.sop)
  | none => true

/-- A marker at the head of one of the inputs `ps`: once every input that it comes to outside a cycle has delivered it,
it leaves, and the operator freezes (R88). -/
def OpView.markerHead (v : OpView) (ps : List Nat) : Option Fire :=
  firstPort ps (fun p =>
    match v.head p with
    | some b =>
      if b.kind = .marker && !v.op.marked.contains p then
        let all := (v.ins.map (·.1)).all (fun q => q == p || v.op.marked.contains q || v.noMarker q ||
          (ps.length < v.ins.length && v.fedBack q))
        some (.go { take := [p], emit := if all then v.toAll b else [], mark := some p, freeze := all })
      else none
    | none => none)

/-- A stop, group beat or marker that comes back around a cycle has done its work and is dropped (R84; log 30). -/
def OpView.dropBack (v : OpView) (ps : List Nat) : Option Fire :=
  firstPort ps (fun p =>
    match v.head p with
    | some b =>
      if b.kind.takesPosition || b.held || b.kind == .config then none else some (.go { take := [p], emit := [] })
    | none => none)

/-- The lowest of some inputs whose head differs from that of the first: the beat that breaks the alignment (R287, R290;
log 79). -/
def OpView.misfit (v : OpView) (own : List Nat) (h : Beat) : Nat :=
  (own.find? (fun p => match v.head p with
    | some b => if h.kind.takesPosition then !b.kind.takesPosition else b.kind != h.kind || b.data != h.data
    | none => false)).getD 0xFF

/-- The heads of the aligned inputs `al`, of which `own` lie outside cycles. -/
def OpView.heads (v : OpView) (al own : List Nat) (shape : Nat) : Front :=
  let hs := own.filterMap v.head
  if hs.length ≠ own.length then .done (.stuck 1)
  else
    match hs with
    | [] => .done (.stuck 1)
    | h :: _ =>
      if h.kind.takesPosition then
        if !hs.all (fun b => b.kind.takesPosition) then .done (.trap { cause := shape, port := v.misfit own h })
        else
          let all := al.filterMap v.head
          if all.length ≠ al.length then .done (.stuck 1) else .pos all
      else if hs.all (fun b => b.kind == h.kind && b.data == h.data) then
        if h.kind = .stop then .stop own h.level
        else if !v.atBoundary (own.headD 0) then .done (.trap { cause := 0x05, port := own.headD 0 })
        else .group own h
      else .done (.trap { cause := shape, port := v.misfit own h })

/-- Inputs `al` that are aligned (R287), with markers (R88), config beats (R85, R86), stops and group beats seen to;
`shape` is the cause where they differ. On a cycle the stops of the other inputs stand for those of the inputs that are
fed back (log 30). -/
def OpView.front (v : OpView) (al : List Nat) (shape : Nat) : Front :=
  let back0 := al.filter v.fedBack
  let back := if back0.length = al.length then [] else back0
  let own := al.filter (fun p => !back.contains p)
  match v.passHeld al with
  | some f => .done f
  | none =>
    match v.dropBack back with
    | some f => .done f
    | none =>
      match v.configHead al with
      | some f => .done f
      | none =>
        match v.markerHead own with
        | some f => .done f
        | none => if al.any v.op.marked.contains then .done (.stuck 1) else v.heads al own shape

/-- The front with stops and group beats forwarded (R63). -/
def OpView.plainFront (v : OpView) (al : List Nat) (shape : Nat) (k : List Beat → Fire) : Fire :=
  match v.front al shape with
  | .done f => f
  | .stop ps l => .go { take := ps, emit := v.toAll (stopBeat l) }
  | .group ps b => .go { take := ps, emit := v.toAll b }
  | .pos bs => k bs

/-- Causes that deferred mode turns into poison (R289). -/
def deferrable (cause : Nat) : Bool := cause == 1 || cause == 2 || cause == 0x0D

/-- A fault of the operator's own at a position (R82, R101, R102, R289): poison in deferred mode where the cause is
deferrable, with the flags of the whole position, else a trap with the flag of the fault. -/
def OpView.fault (v : OpView) (al : List Nat) (cause lane own flags : Nat) (gen : Option (BitVec 32)) : Fire :=
  if v.deferred && deferrable cause then
    .go { take := al, emit := v.toAll (v.poison cause lane (v.posAt (al.headD 0))), flags := own ||| flags, gen := gen }
  else .trap { cause := cause, lane := lane, flags := own }

/-- A poison beat received at port `p`, whose beat the operator would use, in immediate mode (R82). -/
def gotPoison (p : Nat) (b : Beat) : Fire :=
  .trap { cause := bf b.data.toNat 0 8, lane := bf b.data.toNat 20 9, port := p, origin := some b }

/-- Holes and poison at a position of an elementwise operator (R80, R82). -/
def OpView.elementwise (v : OpView) (al : List Nat) (bs : List Beat) (k : Fire) : Fire :=
  if bs.any (fun b => b.kind == .cond) then .go { take := al, emit := v.toAll holeBeat }
  else
    match (al.zip bs).find? (fun p => p.2.kind == .poison) with
    | some (p, b) =>
      if v.deferred then .go { take := al, emit := v.toAll b } else gotPoison p b
    | none => k

/-! ### Applying a firing -/

def setNth {α : Type} (l : List α) (i : Nat) (d x : α) : List α :=
  match l, i with
  | [], 0 => [x]
  | [], i + 1 => d :: setNth [] i d x
  | _ :: ys, 0 => x :: ys
  | y :: ys, i + 1 => y :: setNth ys i d x

/-- The head beat of input `p` is taken: positions, tensor boundaries and final stops are counted (R65, R67, R85). A copy
of the trap poison takes no position (R291). -/
def takeHead (b : Body) (ix p : Nat) : Body :=
  match (b.insOf ix).find? (fun e => e.1 == p) with
  | none => b
  | some (_, k) =>
    match b.edges[k]?, b.ops[ix]? with
    | some e, some o =>
      match e.arrived ix with
      | [] => b
      | h :: rest =>
        let e' := if e.siding.isSome && e.siding != some ix then { e with out := rest } else { e with link := rest }
        let level := if e.siding == some ix then e.p.level else e.q.level
        let n := o.pos.getD p 0
        let ends := h.kind == .stop && decide (level ≤ h.level)
        let counts := h.kind.takesPosition && !h.held
        let pos := if counts then setNth o.pos p 0 (n + 1) else if ends then setNth o.pos p 0 0 else o.pos
        let inside := if ends then o.inside.filter (· != p)
          else if counts || h.kind == .stop then insertNat p o.inside
          else o.inside
        let fin := if h.kind = .stop && h.level = 7 then insertNat p o.finals else o.finals
        { b with edges := b.edges.set k e', ops := b.ops.set ix { o with pos := pos, inside := inside, finals := fin } }
    | _, _ => b

/-- The edge of an output port has space (R286). -/
def Body.space (b : Body) (ix p : Nat) : Bool :=
  match (b.outsOf ix).find? (fun e => e.1 == p) with
  | some (_, k) =>
    match b.edges[k]? with
    | some e => decide ((if e.siding == some ix then e.out.length else e.link.length) < e.room)
    | none => true
  | none => true

/-- A beat put on the edge of an output port. -/
def putBeat (b : Body) (ix p : Nat) (x : Beat) : Body :=
  match (b.outsOf ix).find? (fun e => e.1 == p) with
  | some (_, k) =>
    match b.edges[k]? with
    | some e =>
      let e' : Edge := if e.siding == some ix then { e with out := e.out ++ [x] } else { e with link := e.link ++ [x] }
      { b with edges := b.edges.set k e' }
    | none => b
  | none => b

/-- The beats of a burst that can leave, one per output port in order (R286). -/
def drainOutbox (b : Body) (ix : Nat) : List (Nat × Beat) → List Nat → Body × List (Nat × Beat)
  | [], _ => (b, [])
  | (p, x) :: rest, used =>
    if used.contains p || !b.space ix p then
      let (b', l) := drainOutbox b ix rest (insertNat p used)
      (b', (p, x) :: l)
    else drainOutbox (putBeat b ix p x) ix rest (insertNat p used)

def Body.setOp (b : Body) (ix : Nat) (f : Op → Op) : Body :=
  match b.ops[ix]? with
  | some o => { b with ops := b.ops.set ix (f o) }
  | none => b

def Body.setTile (b : Body) (x y : Nat) (f : Tile → Tile) : Body :=
  { b with tiles := b.tiles.map (fun t => if t.x == x && t.y == y then f t else t) }

def Firing.ports (f : Firing) : List Nat := f.emit.foldl (fun l e => insertNat e.1 l) []

/-- The firing done on the region's tiles (R106: flags are ORed in as the position is consumed). Once a group
beat has passed every source, the cut is open for a marker that waits (R57; log 35). -/
def Region.fired (r : Region) (v : OpView) (f : Firing) : Region :=
  let b := f.take.foldl (fun b p => takeHead b v.ix p) r.body
  let b := b.setTile v.op.x v.op.y (fun t =>
    { t with tflags := t.tflags ||| BitVec.ofNat 8 f.flags, gen := f.gen.getD t.gen })
  let b := b.setOp v.ix (fun o =>
    let marked := match f.mark with
      | some p => insertNat p o.marked
      | none => o.marked
    let o := { o with mem := f.mem.getD o.mem, frozen := o.frozen || f.freeze, marked := marked }
    match f.word with
    | some w => { o with word := w, deferred := o.forced || bit w.toNat 247 }
    | none => o)
  let b := match f.other with
    | some (i, m) => b.setOp i (fun o => { o with mem := m })
    | none => b
  let (b, rest) := drainOutbox b v.ix f.emit []
  let grouped := if r.preempt.isSome && r.body.sources.contains v.ix && f.emit.any (fun e => e.2.kind == .group) then
      insertNat v.ix r.grouped else r.grouped
  let boundary := r.preempt.isSome && r.body.sources.all grouped.contains && grouped ≠ []
  { r with body := b.setOp v.ix (fun o => { o with outbox := rest }), cutOpen := r.cutOpen || boundary, grouped := grouped }

/-- The fields of a trap as the record keeps them (R290). -/
def OpView.trapRec (v : OpView) (t : Trap) : TrapRec :=
  let own := v.poison t.cause t.lane (v.posAt (if t.port = 0xFF then 0 else t.port))
  let p := t.origin.getD own
  let d := p.data.toNat
  { op := v.ix, cause := bf d 0 8, lane := bf d 20 9, pos := bf d 32 32, port := t.port, subc := t.subc,
    addr := BitVec.ofNat 64 t.addr, ox := bf d 8 5, oy := bf d 13 5, oslot := bf d 18 2, poison := { p with held := true } }

/-- An operator traps (R291): the trap poison leaves on each output, and all that is not downstream freezes. A region
that is trapping already lets it hold. -/
def Region.trapped (r : Region) (v : OpView) (t : Trap) : Region :=
  match r.trap with
  | some _ => r
  | none =>
    let rec_ := v.trapRec t
    let b := v.outPorts.foldl (fun b p => putBeat b v.ix p rec_.poison) r.body
    let down := b.downstream b.ops.length (b.nextOf v.ix)
    let b := b.setTile v.op.x v.op.y (fun x => { x with tflags := x.tflags ||| BitVec.ofNat 8 t.flags })
    let sides := b.edges.filterMap (fun e => if e.sop == v.ix || down.contains e.sop then e.siding else none)
    let ops := (b.ops.zip (upFrom 0 b.ops.length)).map (fun p =>
      if (down.contains p.2 || sides.contains p.2) && p.2 != v.ix then p.1 else { p.1 with frozen := true })
    { r with trap := some rec_, body := { b with ops := ops } }

/-! ### Activity budgets (23_fleet.md R424-R426) -/

/-- Unlimited, as a budget table writes it (R424). -/
def unlimited : Nat := 2 ^ 32 - 1

/-- Entry of an activity kind in a die's budget table, halved while Depot says so (R424, R428). TRK, which is charged 1 for
each 4 cells, is counted in cells. -/
def Die.budgetOf (d : Die) (kind : Nat) : Nat × Nat × Nat :=
  let e := bf d.budget.toNat (128 + 128 * kind) 128
  let lim (lo : Nat) : Nat := let v := bf e lo 32; if v = 0 then 1 else v
  let trk := lim 64
  let pwr := lim 96
  let halvings := d.halved + b2n d.overpower
  (lim 32, if trk = unlimited then trk else 4 * trk,
    if halvings = 0 || pwr = unlimited then pwr else max 1 (pwr / 2 ^ halvings))

/-- What a job may draw of a die's activities together: CEILING / 65,536 of the sum of their budgets; unlimited where a
budget is, or CEILING is 0 (R426). -/
def State.ceilingOf (s : State) (die job : Nat) : Nat × Nat × Nat :=
  let c := match s.job? job with
    | some j => j.f 720 16
    | none => 0
  let bs := (upFrom 0 8).map (s.die die).budgetOf
  let lim (f : Nat × Nat × Nat → Nat) : Nat :=
    if c = 0 || bs.any (fun b => f b == unlimited) then unlimited else (bs.map f).foldl (· + ·) 0 * c / 65536
  (lim (·.1), lim (·.2.1), lim (·.2.2))

/-- What is left of a budget in this period; kind 8 stands for a job's ceiling. -/
def Die.remaining (d : Die) (kind unit : Nat) (full : Nat × Nat × Nat) : Nat × Nat × Nat :=
  match d.left.find? (fun x => x.1 == kind && x.2.1 == unit) with
  | some x => x.2.2
  | none => full

/-- The activity period of the die's station time begins, where it has not: every budget is full again, a waiting table takes
effect, and BUDWAIT counts a period in which a gate held a unit (R425, R427, R429). -/
def State.budgetStart (s : State) (die : Nat) : State :=
  let d := s.die die
  let k := d.stime.toNat / Config.usec
  if d.actPeriod < k then
    s.setDie die { d with
      actPeriod := k, left := [], budget := d.pending.getD d.budget, pending := none, waited := false
      counters := { d.counters with budwait := d.counters.budwait + b2n d.waited } }
  else s

/-- What a unit draws of a budget: its charge, and no more than the budget of a whole period, so that no activity is stopped
for good (R424; log 27). -/
def unitCost (cost full : Nat) : Nat := min cost (max 1 full)

/-- How many of `n` units a budget has enough left for. -/
def unitsOf (n cost have_ full : Nat) : Nat :=
  if cost = 0 || have_ = unlimited then n else min n (have_ / unitCost cost full)

/-- What `k` units leave of a budget. -/
def leftAfter (k cost have_ full : Nat) : Nat :=
  if have_ = unlimited then have_ else have_ - k * unitCost cost full

/-- `n` units of one charge come to their gate: those pass for which the activity and its job have enough of every resource
that a unit charges (R425, R426). How many have not passed, and the state. -/
def State.payUnits (s : State) (die kind unit job n : Nat) (cost : Nat × Nat × Nat) : Nat × State :=
  let d := s.die die
  let full := d.budgetOf kind
  let top := s.ceilingOf die job
  let a := d.remaining kind unit full
  let b := d.remaining 8 job top
  let most (h f : Nat × Nat × Nat) : Nat :=
    min (unitsOf n cost.1 h.1 f.1) (min (unitsOf n cost.2.1 h.2.1 f.2.1) (unitsOf n cost.2.2 h.2.2 f.2.2))
  let k := min (most a full) (most b top)
  let rest (h f : Nat × Nat × Nat) : Nat × Nat × Nat :=
    (leftAfter k cost.1 h.1 f.1, leftAfter k cost.2.1 h.2.1 f.2.1, leftAfter k cost.2.2 h.2.2 f.2.2)
  let put (l : List (Nat × Nat × Nat × Nat × Nat)) (kind unit : Nat) (old new : Nat × Nat × Nat) :=
    if old = new then l else upsert (fun x => x.1 == kind && x.2.1 == unit) (kind, unit, new) l
  let l := put (put d.left kind unit a (rest a full)) 8 job b (rest b top)
  (n - k, if l = d.left then s else s.setDie die { d with left := l })

def Bill.zero : Bill := { reqs := 0, cells := 0, work := 0, per := 0 }

/-- Every unit has passed. -/
def Bill.paid (b : Bill) : Bool := b.reqs == 0 && b.cells == 0 && b.work == 0

def Bill.plus (a b : Bill) : Bill :=
  { reqs := a.reqs + b.reqs, cells := a.cells + b.cells, work := a.work + b.work, per := max a.per b.per }

/-- Units come to their gate: requests, then trunk cells, then units of work (R425). What has not passed, and the state. -/
def State.pay (s : State) (die kind unit job : Nat) (b : Bill) : Bill × State :=
  let s := s.budgetStart die
  let (r, s) := s.payUnits die kind unit job b.reqs (1, 0, 12)
  if r ≠ 0 then ({ b with reqs := r }, s)
  else
    let (c, s) := s.payUnits die kind unit job b.cells (0, 1, 2)
    if c ≠ 0 then ({ b with reqs := 0, cells := c }, s)
    else
      let (w, s) := s.payUnits die kind unit job b.work (0, 0, b.per)
      ({ b with reqs := 0, cells := 0, work := w }, s)

/-- Units that pass together or not at all. -/
def State.charge (s : State) (die kind unit job : Nat) (b : Bill) : Option State :=
  let (r, t) := s.pay die kind unit job b
  if r.paid then some t else none

/-- Requests that the translated bytes of an access make: a run of bytes in one block of 256, by its first byte and length. -/
def requestsOf (ts : List Trans) : List (Trans × Nat) :=
  ts.foldl (fun acc t =>
    match acc with
    | (u, n) :: rest => if t.pa / 256 = u.pa / 256 && n < 256 then (u, n + 1) :: rest else (t, 1) :: acc
    | [] => [(t, 1)]) []

/-- Units of `n` bytes at a place, accessed from die `die`: requests to main memory, and trunk cells, which carry 56 bytes each
(20_host.md R387; log 27). -/
def billBytes (die : Nat) (t : Trans) (n : Nat) : Bill :=
  { reqs := if t.loc < 2 ^ 44 then (n + 255) / 256 else 0
    cells := if t.home = die then 0 else (n + 55) / 56
    work := 0, per := 0 }

/-- Units of an access: those of its own activity, and those of host DMA, which its PLACE 3 requests are (R424). -/
def billOf (die : Nat) (ts : List Trans) : Bill × Bill :=
  (requestsOf ts).foldl (fun b p =>
    if isHostLoc p.1.loc then (b.1, b.2.plus (billBytes die p.1 p.2)) else (b.1.plus (billBytes die p.1 p.2), b.2))
    (Bill.zero, Bill.zero)

/-- One active cycle of an operator (R425). -/
def Bill.cycle (n : Nat) : Bill := { reqs := 0, cells := 0, work := n, per := 1 }

/-- A gate held a unit in this period (R429, BUDWAIT). -/
def State.gateHeld (s : State) (die : Nat) : State :=
  let s := s.budgetStart die
  s.setDie die { s.die die with waited := true }

/-- The budget unit of a region. -/
def Region.unit (r : Region) : Nat := r.job * 64 + r.v

/-! ### One step of an operator -/

/-- The operator whose turn it is, when its region is RUNNING. -/
def State.curOp (s : State) : Option (Region × OpView) :=
  match s.focus with
  | .operator job v ix =>
    match s.region? job v with
    | some r => (r.view ix).map (fun o => (r, o))
    | none => none
  | _ => none

/-- A region whose PWR is spent fires no operator until the next period (R425). -/
def State.regionSpent (s : State) (r : Region) : Bool :=
  let d := (s.budgetStart r.die).die r.die
  (d.remaining 0 r.unit (d.budgetOf 0)).2.2 == 0

/-- The location that stands for the SRAM of a tile of a die (23_fleet.md R431; log 5, log 97). -/
def sramLoc (die x y : Nat) : Nat := 2 ^ 46 + die * 1024 + y * 32 + x

/-- The operator stands on a memory tile in whose SRAM data an error is (23_fleet.md R431). -/
def State.sramBad (s : State) (r : Region) (v : OpView) : Bool :=
  tileType (r.x0 + v.op.x) (r.y0 + v.op.y) == 1 && s.badBytes.contains (sramLoc r.die (r.x0 + v.op.x) (r.y0 + v.op.y))

/-- The operator meets the error as a port access does: ACCESS, SUBC 20 (23_fleet.md R431; log 97). -/
def State.sramTrap (s : State) (r : Region) (v : OpView) : State :=
  (s.eccHit r.die 0).setRegion (r.trapped v { cause := 0x0C, port := 0xFF, subc := 20 })

/-- Locations that stand for the SRAM of a region's tiles. -/
def Region.sramLocs (r : Region) : List Nat := r.body.tiles.map (fun t => sramLoc r.die (r.x0 + t.x) (r.y0 + t.y))

/-- A region's tiles are written anew, their SRAM with them. -/
def State.sramWritten (s : State) (r : Region) : State :=
  if r.sramLocs.any s.badBytes.contains then
    { s with badBytes := s.badBytes.filter (fun l => !r.sramLocs.contains l) }
  else s

/-- Beats of a burst leave before the operator fires again; else a try at firing is carried out. -/
def State.fireWith (s : State) (r : Region) (v : OpView) (f : Fire) : State :=
  if r.state ≠ .running || r.reloading || v.op.frozen then s
  else if v.op.outbox ≠ [] then
    let (b, rest) := drainOutbox r.body v.ix v.op.outbox []
    s.setRegion { r with body := b.setOp v.ix (fun o => { o with outbox := rest }), moved := (s.die r.die).stime }
  else
    match f with
    | .stuck _ => s
    | .trap t => s.setRegion (r.trapped v t)
    | .go g =>
      if !g.ports.all (r.body.space v.ix) then s
      else if s.sramBad r v then s.sramTrap r v
      else if s.regionSpent r then s.gateHeld r.die
      else
        let pwr := if opc v.op.word < 0x40 then 1 else 0
        match s.charge r.die 0 r.unit r.job (Bill.cycle pwr) with
        | none => s.gateHeld r.die
        | some s => s.setRegion { r.fired v g with moved := (s.die r.die).stime }

/-- The meaning of an operator that touches nothing outside its region. -/
def execOp (f : OpView → Fire) (s : State) : Host.Outcome State Fault Refusal :=
  match s.curOp with
  | some (r, v) => .next (s.fireWith r v (f v))
  | none => .refused .noOperator

end Sys2Proof.Machine
end

