-- ==== Sys2Proof/Machine/OpsSync.lean ====
section
/-! DEFINITION. Stage barriers (02_execution.md R47, 10_scalar_memory.md R246-R247), phase boundaries with their staffs
(06_ordering.md R148-R149, R155-R158), atomics at their home (R154) and reduction windows (05_memory.md R142). -/

namespace Sys2Proof.Machine

/-! ### Stage barriers -/

/-- A barrier's state; one that nothing has armed since reset is as R343 (16_prog_rowsum.md) gives. -/
def State.barrier (s : State) (die num : Nat) : Barrier :=
  match s.barriers.find? (fun b => b.die == die && b.num == num) with
  | some b => b
  | none => { die := die, num := num, expect := 0, sum := 0, gen := 0, err := false, lasterr := false, overrun := false,
              notify := none, owner := 64, rels := [] }

def State.setBarrier (s : State) (b : Barrier) : State :=
  { s with barriers := upsert (fun x => x.die == b.die && x.num == b.num) b s.barriers }

/-- `barm` at step 2 (R47, R246). -/
def State.armBarrier (s : State) (job die num : Nat) (expect : BitVec 32) (notify : Option (Nat × Nat)) : State :=
  let b := s.barrier die num
  s.setBarrier { b with expect := expect, notify := notify, sum := 0, err := false, overrun := false,
                        owner := if expect = 0 then 64 else job }

/-- A barrier armed by another job (R246). -/
def Barrier.heldByOther (b : Barrier) (job : Nat) : Bool := b.expect != 0 && b.owner != job

/-- Generation `n` has completed: (GEN − n − 1) mod 2^32 < 2^31 (R247). -/
def Barrier.passed (b : Barrier) (n : BitVec 32) : Bool := decide ((b.gen - n - 1).toNat < 2 ^ 31)

/-- Generation `m` is `n` or below, seen from generation `n` (R147). -/
def genUpTo (m n : BitVec 32) : Bool := decide ((n - m).toNat < 2 ^ 31)

/-- The dead letter of an arrival that no barrier takes (R47): BARRIER where its number or die is none, and DETAIL 0 for a
barrier that is not armed (log 18). -/
def barrierDead (num det : Nat) : EventRec := deadLetter 6 num 0 det

/-- One arrival at a barrier (R47): weight `w`, its error flag, and the release that it makes (R146). `job` takes the
dead letter. -/
def State.arrive (s : State) (job die num : Nat) (w : BitVec 32) (err : Bool) (rel : Release) : State :=
  if 768 ≤ num || !s.live die then s.postEvent job die (barrierDead num 5)
  else
    let b := s.barrier die num
    if b.expect = 0 then s.postEvent job die (barrierDead num 0)
    else
      let b := { b with err := b.err || err, rels := (b.gen, rel) :: b.rels }
      let total := b.sum.toNat + w.toNat
      if b.expect.toNat ≤ total then
        let b := { b with overrun := b.overrun || decide (b.expect.toNat < total), lasterr := b.err, err := false, sum := 0,
                          gen := b.gen + 1 }
        let s := s.setBarrier b
        let s := s.wake (fun _ p => p == .barrier die num)
        match b.notify with
        | some (i, g) => s.notify b.owner die i g
        | none => s
      else s.setBarrier { b with sum := BitVec.ofNat 32 total }

/-- Weight 0 means 1 (R27, R246). -/
def weightOf (n : Nat) : BitVec 32 := if n % 2 ^ 32 = 0 then 1 else BitVec.ofNat 32 n

/-! ### Phases -/

/-- Arrivals that complete a boundary of a scope in a job (R344, 20_host.md R381); 0 for none. -/
def State.phaseShare (s : State) (job scope : Nat) : Nat :=
  match s.job? job with
  | some j => j.f (448 + 16 * (scope - 2)) 16
  | none => 0

def State.phaseAt (s : State) (i : ScopeAt) (die : Nat) : PhaseAt :=
  match s.phases.find? (fun p => p.at_ == i && p.die == die) with
  | some p => p
  | none => { at_ := i, die := die, p := 0, arrived := 0, rels := [], held := [], sent := 0, rseq := 0, known := [],
              counted := [] }

def State.setPhase (s : State) (p : PhaseAt) : State :=
  { s with phases := upsert (fun x => x.at_ == p.at_ && x.die == p.die) p s.phases }

/-- The numbers of the phases an agent stands in, scopes 2 to 7 (R49). -/
def State.phasesOf (s : State) (a : Agent) : List (ScopeAt × Nat) :=
  (upFrom 2 6).map (fun sc => (a.instOf sc, (s.phaseAt (a.instOf sc) a.die).p.toNat))

/-- Conflicting bytes of the stores `new` of members of an instance among themselves, homed on a die of `homes`
(R155). -/
def State.conflicts (s : State) (at_ : ScopeAt) (new : View) (homes : List Nat) : List Nat :=
  let recs := new.filterMap (fun i => ((s.store? i).filter (fun r => r.by_.inInst at_)).map (fun r => (i, r)))
  let pairs := recs.flatMap (fun a => recs.filterMap (fun b =>
    if a.1 < b.1 && a.2.ordinary && b.2.ordinary && a.2.agent != b.2.agent && !(b.2.view.contains a.1) && !(a.2.view.contains b.1) then
      some (a.2, b.2) else none))
  (pairs.flatMap (fun p => (p.1.bytes.map (·.1)).filter (fun l => p.2.covers l && homes.contains (locDie l)))).eraseDups

/-- Boundary P + 1 completes (R148): P advances, conflicts are counted at their homes, waiters become READY. -/
def State.completeBoundary (s : State) (i : ScopeAt) (die : Nat) : State :=
  let p := s.phaseAt i die
  let n := p.p.toNat + 1
  let now := (p.rels.filter (fun r => r.1 == n)).foldl (fun v r => unionNat v r.2.view) []
  let new := now.filter (fun k => !p.counted.contains k)
  let bad := s.conflicts i new (if 4 ≤ i.scope then [die] else [0, 1, 2, 3])
  let s := bad.foldl (fun s l =>
    let d := s.die (locDie l)
    s.setDie (locDie l) { d with counters := { d.counters with conflict := d.counters.conflict + 1 } }) s
  let s := s.setPhase { p with p := p.p + 1, arrived := 0, counted := unionNat p.counted now }
  s.wake (fun t k =>
    match k with
    | .phase sc d key m => t.job == i.job && sc == i.scope && d == die && key == i.key && decide (m ≤ n)
    | _ => false)

/-- The share of arrivals at boundary P + 1 has come in (R148, R157). -/
def State.shareDone (s : State) (i : ScopeAt) (die : Nat) : Bool :=
  let share := s.phaseShare i.job i.scope
  share != 0 && decide (share ≤ (s.phaseAt i die).arrived)

/-- The boundary completes when nothing is missing: at once within a die; for package and host scope when this die has sent
its own staff and holds one from every other live die (R157). Window and world boundaries wait for the switch (R148). -/
def State.tryComplete (s : State) (i : ScopeAt) (die : Nat) : State :=
  let p := s.phaseAt i die
  let n := p.p.toNat + 1
  if !s.shareDone i die then s
  else if i.scope < 4 then s.completeBoundary i die
  else if i.scope < 6 then
    let others := s.liveDies.filter (· != die)
    if (others = [] || n ≤ p.sent) && others.all (fun d => p.held.any (fun h => h.1 == d && decide (n ≤ h.2))) then
      s.completeBoundary i die
    else s
  else s

/-- One arrival of a task toward boundary P + 1, with its release (R148, R245). -/
def State.phaseArrive (s : State) (i : ScopeAt) (die : Nat) (rel : Release) : State :=
  let p := s.phaseAt i die
  (s.setPhase { p with arrived := p.arrived + 1, rels := (p.p.toNat + 1, rel) :: p.rels }).tryComplete i die

/-- Releases of a die's agents to an instance (R156). -/
def State.releasesTo (s : State) (i : ScopeAt) (die : Nat) : List Release :=
  s.releases.filter (fun r => r.inst == i && r.by_.die == die)

/-- A staff goes to every other live die; a newer one replaces a pending older one of its SKIND (R157, R158). It covers
every release so far of the die's agents to the instance, and what the phase agent has acquired (R146, R147). -/
def State.sendStaff (s : State) (i : ScopeAt) (die skind phase : Nat) : State :=
  let p := s.phaseAt i die
  let rs := s.releasesTo i die
  let mk (d : Nat) : Staff :=
    { skind := skind, sdie := die, ddie := d, scope := i.scope, job := i.job, phase := phase, rseq := rs.length,
      stamp := (s.die die).stime, rels := p.rels, covers := rs.foldl (fun v r => unionNat v r.view) p.known }
  let old := s.staffs.filter (fun x => !(x.skind == skind && x.sdie == die && x.scope == i.scope && x.job == i.job))
  let sent := if skind = 1 then phase else p.sent
  { s.setPhase { p with sent := sent, rseq := rs.length } with staffs := old ++ ((s.liveDies.filter (· != die)).map mk) }

/-- The phase agent of a die sends the staff that is due: SKIND 0x01 once its share of a boundary has come in, and then the
boundary may complete here; else SKIND 0x02 with the releases performed since the last staff (R157). -/
def State.sendStaffs (s : State) (job scope die : Nat) : State :=
  let i : ScopeAt := { scope := scope, job := job, key := 0 }
  let p := s.phaseAt i die
  let n := p.p.toNat + 1
  if s.shareDone i die && decide (p.sent < n) then (s.sendStaff i die 1 n).tryComplete i die
  else if p.rseq < (s.releasesTo i die).length then s.sendStaff i die 2 0
  else s

/-- A staff arrives at the phase agent of die `ddie` (R157): what it covers is acquired (R147); one of SKIND 0x01 is held. -/
def State.receiveStaff (s : State) (job scope sdie ddie : Nat) : State :=
  match s.staffs.find? (fun x => x.sdie == sdie && x.ddie == ddie && x.scope == scope && x.job == job) with
  | none => s
  | some x =>
    let s := { s with staffs := s.staffs.filter (· != x) }
    let i : ScopeAt := { scope := scope, job := job, key := 0 }
    let p := s.phaseAt i ddie
    let p := { p with known := unionNat p.known x.covers }
    if x.skind = 1 then
      let held := upsert (fun (h : Nat × Nat) => h.1 == sdie) (sdie, x.phase) p.held
      let rels := p.rels ++ x.rels.filter (fun r => !p.rels.contains r)
      (s.setPhase { p with held := held, rels := rels }).tryComplete i ddie
    else s.setPhase p

/-- The external switch completes boundary P + 1 of a window or world instance on a die, once every live die's share has
come in (R148): the arrivals of all of them are known there from then on (R147). -/
def State.switchComplete (s : State) (i : ScopeAt) (die : Nat) : State :=
  let p := s.phaseAt i die
  let n := p.p.toNat + 1
  if s.shareDone i die && s.liveDies.all (fun d => s.shareDone i d || decide (n ≤ (s.phaseAt i d).p.toNat)) then
    let all := s.liveDies.flatMap (fun d => (s.phaseAt i d).rels.filter (fun r => decide (r.1 ≤ n)))
    (s.setPhase { p with rels := p.rels ++ all.filter (fun r => !p.rels.contains r) }).completeBoundary i die
  else s

/-- What a `pwait` that returns acquires: the arrivals at boundaries 1 to P (R147, R149). -/
def PhaseAt.acquired (p : PhaseAt) : View :=
  (p.rels.filter (fun r => decide (r.1 ≤ p.p.toNat))).foldl (fun v r => unionNat v r.2.view) []

/-! ### Atomics at the home (06_ordering.md R154) -/

/-- The new memory value of an operation on n-bit words (R243). -/
def amoNew (op : AmoOp) (n old b x : Nat) : Nat :=
  match op with
  | .add => (old + b) % 2 ^ n
  | .and => old &&& b
  | .or => old ||| b
  | .xor => old ^^^ b
  | .min => if toSigned old n ≤ toSigned b n then old else b
  | .max => if toSigned old n ≥ toSigned b n then old else b
  | .minu => if old ≤ b then old else b
  | .maxu => if old ≥ b then old else b
  | .swap => b
  | .cas => if old = x then b else old

/-- An `amocas` that fails leaves the word unchanged: it stores nothing (log 21). -/
def amoStores (op : AmoOp) (old x : Nat) : Bool := op != .cas || old == x

/-- One step in a word's serial order (R154): every store of the agent to the word takes its place first, the
operation is applied to what the home holds, and with an ordered one the acquire is made and the release performed. The
value read and the agent's new view. A busy weight store takes no write (05_memory.md R129): the operation then reads alone
(log 89). `rel` is what its releases make available beyond its view (R152). -/
def State.atomicAt (s : State) (a : Agent) (view rel : View) (locs : List Nat) (op : AmoOp) (b x : Nat) (o : AmoOrder)
    (sc : Nat) : Nat × View × State :=
  let word := locs.headD 0 / 8 * 8
  let n := 8 * locs.length
  let ls := upFrom word 8
  let s := s.placeCovering a.job a.num ls view
  let old := ofBytes (s.homeBytes locs)
  let v := amoNew op n old (b % 2 ^ n) (x % 2 ^ n)
  let isRel := o == .rel || o == .acqrel
  let s := if isRel then s.placeOwn a.job a.num view else s
  let before := match s.words.find? (fun w => w.word == word) with
    | some w => w.rels
    | none => []
  let own := a.instOf sc
  let got := if o == .acq || o == .acqrel then acquireFrom a (before.filter (fun r => r.by_.inInst own)) else []
  let (mine, s) :=
    if amoStores op old (x % 2 ^ n) && !s.wsHit locs then
      let (i, s) := s.storeNow a (cells locs (toBytes locs.length v)) (unionNat (unionNat view got) rel) false
      (insertNat i (unionNat view got), s)
    else (unionNat view got, s)
  let s :=
    if isRel then
      let (r, s) := s.release a sc mine rel
      { s with words := upsert (fun w => w.word == word) { word := word, rels := r :: before } s.words }
    else s
  (old, mine, s)

/-! ### Reduction windows (05_memory.md R142, 20_host.md R386) -/

/-- An entry is in use and none of its unlisted bits is set. -/
def windowOk (w : Vector Word64 4) : Bool :=
  let x (k : Nat) : Nat := (vget w k 0).toNat
  bit (x 0) 63 && bf (x 0) 56 7 == 0 && bf (x 1) 56 8 == 0 && bf (x 2) 48 16 == 0 && bf (x 2) 6 2 == 0 &&
    bf (x 3) 32 32 == 0

/-- The lowest-numbered entry of a job whose window holds the address. -/
def State.windowOf (s : State) (job va : Nat) : Option (Vector Word64 4) :=
  s.windows.toList.find? (fun w =>
    windowOk w && bf (vget w 2 0).toNat 0 6 == job && decide (bf (vget w 0 0).toNat 0 56 ≤ va) &&
      decide (va ≤ (vget w 1 0).toNat))

end Sys2Proof.Machine
end

