-- ==== Sys2Proof/Machine/OpsVersions.lean ====
section
/-! DEFINITION. Versioned slots (05_memory.md R131-R138) and repeatable reductions (R140-R141). -/

namespace Sys2Proof.Machine

/-- Two addresses name one place of one slot. -/
def SlotRef.same (a b : SlotRef) : Bool := a.range == b.range && a.slot == b.slot && a.off == b.off

/-- The slot in which a translated address lies (R131). -/
def slotRef (va : Nat) (t : Trans) : SlotRef :=
  let o := va - rgVbase t.entry * 2 ^ 16
  { range := t.rng, slot := o / rgZ t.entry, off := o % rgZ t.entry, entry := t.entry }

/-- The slot of an address of a job's versioned range. -/
def State.slotOf (s : State) (job va : Nat) : Option SlotRef :=
  match findRange (s.jobRanges job) va with
  | some (k, e) =>
    if rgVers e then
      let o := va - rgVbase e * 2 ^ 16
      some { range := k, slot := o / rgZ e, off := o % rgZ e, entry := e }
    else none
  | none => none

/-- Version 0 at creation: what the loader put in the pool entry, behind its first 128 bytes (R132; log 14), stamped
at the acceptance of the job with its home's station time. -/
def State.version0 (s : State) (job : Nat) (r : SlotRef) : Version :=
  let pa := poolPa r.entry r.slot + 128
  let data := (upFrom 0 (rgZ r.entry)).foldl (fun m o =>
    match s.resolvePa (pa + o) with
    | .ok (l, _) => Memory.write m o (s.creationByte job l)
    | .error _ => m) []
  let home := match s.resolvePa (poolPa r.entry r.slot) with
    | .ok (_, d) => d
    | .error _ => 0
  { num := 0, stamp := (match s.job? job with
      | some j => vget j.stamp home 0
      | none => 0), retired := 0, data := data }

/-- A slot's state (R132). -/
def State.slotAt (s : State) (job : Nat) (r : SlotRef) : Slot :=
  match s.slots.find? (fun x => x.job == job && x.range == r.range && x.slot == r.slot) with
  | some x => x
  | none => { job := job, range := r.range, slot := r.slot, live := [s.version0 job r], rels := [] }

def State.setSlot (s : State) (x : Slot) : State :=
  { s with slots := upsert (fun y => y.job == x.job && y.range == x.range && y.slot == x.slot) x s.slots }

/-- NEWEST: the highest live number (R132). -/
def Slot.newest (x : Slot) : Nat :=
  match x.live.getLast? with
  | some v => v.num.toNat
  | none => 0

/-- FLOOR: the lowest live number (R132). -/
def Slot.floor (x : Slot) : Nat :=
  match x.live with
  | v :: _ => v.num.toNat
  | [] => 0

def Slot.version? (x : Slot) (n : Nat) : Option Version := x.live.find? (fun v => v.num.toNat == n)

/-- reclaim() on a live set, ascending, under quorum q (R135). -/
def reclaimLive (q : Nat) : List Version → List Version
  | [] => []
  | [v] => [v]
  | v :: w :: vs => if q ≤ v.retired then reclaimLive q (w :: vs) else v :: w :: vs

/-- Tasks parked on a slot, for a version (`slot`) or for room (`pool`), become READY (R133, R135). -/
def State.wakeSlot (s : State) (job : Nat) (r : SlotRef) (pool : Bool) : State :=
  let hit (t : TaskAux) (va : Word64) : Bool :=
    t.job == job &&
      (match s.slotOf job va.toNat with
        | some q => q.range == r.range && q.slot == r.slot
        | none => false)
  s.wake (fun t p =>
    match p with
    | .slot va => !pool && hit t va
    | .pool va => pool && hit t va
    | _ => false)

/-- reclaim() at a slot's home: removals wake the waiting publishers (R135). -/
def State.reclaim (s : State) (job : Nat) (r : SlotRef) : State :=
  let x := s.slotAt job r
  let live := reclaimLive (rgQ r.entry) x.live
  let s := s.setSlot { x with live := live }
  if live.length < x.live.length then s.wakeSlot job r true else s

/-- How a publication fares at the home (R133). -/
inductive PubCheck | ok | exists_ | full
  deriving DecidableEq, Repr

def pubCheck (x : Slot) (e : BitVec 256) (n : Nat) : PubCheck :=
  if n ≤ x.newest || 2 ^ 32 ≤ n then .exists_
  else if rgK e ≤ x.live.length then .full
  else .ok

/-- The creation of version n of a slot (R133): bytes other than those given are carried forward from NEWEST. One that gives every
byte overwrites an error in the slot's data (23_fleet.md R431; log 97). -/
def State.createVersion (s : State) (job : Nat) (r : SlotRef) (home n : Nat) (data : List Host.Cell) (rel : Release) : State :=
  let x := s.slotAt job r
  let base : Memory := match x.live.getLast? with
    | some v => v.data
    | none => []
  let v : Version :=
    { num := BitVec.ofNat 32 n, stamp := (s.die home).stime, retired := 0, data := base.writeCells data }
  let s := s.setSlot { x with live := x.live ++ [v], rels := (BitVec.ofNat 32 n, rel) :: x.rels }
  let s : State := match s.resolvePa (poolPa r.entry r.slot) with
    | .ok (l, _) => if rgZ r.entry ≤ data.length then { s with badBytes := s.badBytes.filter (· != l) } else s
    | .error _ => s
  (s.reclaim job r).wakeSlot job r false

/-- retire(slot, n) (R134). -/
def retireLive (n : Nat) (live : List Version) : List Version :=
  live.map (fun v => if v.num.toNat ≤ n then { v with retired := v.retired + 1 } else v)

def State.retire (s : State) (job : Nat) (r : SlotRef) (n : Nat) : State :=
  let x := s.slotAt job r
  if n < x.floor then s
  else
    let n := if x.newest < n then x.newest else n
    (s.setSlot { x with live := retireLive n x.live }).reclaim job r

/-- What a versioned load finds (R136). -/
inductive VLook
  | version (v : Version)
  | gone
  | skipped
  | wait
  deriving DecidableEq, Repr

def vlook (x : Slot) (m : VMode) (n : Nat) : VLook :=
  let newest : VLook := match x.live.getLast? with
    | some v => .version v
    | none => .wait
  match m with
  | .exact =>
    if n < x.floor then .gone
    else if x.newest < n then .wait
    else match x.version? n with
      | some v => .version v
      | none => .skipped
  | .atLeast => if n ≤ x.newest then newest else .wait
  | .newest => newest

/-- The releases that a load of version m acquires: every publication numbered m or below (R147). -/
def Slot.relsTo (x : Slot) (m : Nat) : List Release :=
  (x.rels.filter (fun r => decide (r.1.toNat ≤ m))).map (·.2)

def Version.bytes (v : Version) (off n : Nat) : List Byte := (upFrom off n).map v.data.read

/-! ### Publications that wait -/

/-- Home die of a slot. -/
def State.slotHome (s : State) (r : SlotRef) : Nat :=
  match s.resolvePa (poolPa r.entry r.slot) with
  | .ok (_, d) => d
  | .error _ => 0

/-- Publication `k` of those that wait reaches the home and is applied when it can be (R133). The command that waits
for it, with whether it was made. That of a closed reduction takes its number when it is applied (log 90); behind the last
number there is none, and the event of R140 says so. -/
def State.applyPub (s : State) (k : Nat) : Option (Publication × Bool) × State :=
  match s.pubs[k]? with
  | none => (none, s)
  | some p =>
    let r := p.target
    let x := s.slotAt p.job r
    let n := if p.auto then x.newest + 1 else p.num.toNat
    let drop : State := { s with pubs := s.pubs.eraseIdx k }
    match pubCheck x r.entry n with
    | .full => (none, s)
    | .exists_ =>
      (some (p, false), if p.auto then drop.postEvent p.job (s.slotHome r) { code := 0x08, srck := 4, addr := p.va.toNat } else drop)
    | .ok =>
      let (rel, s) := drop.release p.agent (rgScope r.entry) p.view []
      (some (p, true), (s.createVersion p.job r (s.slotHome r) n p.data rel).reportRefused)

/-! ### Reductions (R140, R141) -/

def redFmt (f32 : Bool) : Fmt := if f32 then .fp32 else .fp64
def redBytes (f32 : Bool) : Nat := if f32 then 4 else 8

/-- The event of a contribution or `redinit` that is discarded (R141). -/
def reduceIndexEvent (va index : Nat) : EventRec :=
  { code := 0x05, srck := 4, addr := va, detail := 21 * 2 ^ 8 + index * 2 ^ 32 }

/-- The open reduction on a target. -/
def State.redAt (s : State) (job : Nat) (t : SlotRef) (f32 : Bool) : Option Reduction :=
  s.reductions.find? (fun r => r.job == job && r.target.same t && r.f32 == f32)

def Reduction.is (r x : Reduction) : Bool := x.job == r.job && x.target.same r.target && x.f32 == r.f32

def State.setRed (s : State) (r : Reduction) : State := { s with reductions := upsert r.is r s.reductions }

def State.dropRed (s : State) (r : Reduction) : State :=
  { s with reductions := s.reductions.filter (fun x => !r.is x) }

/-- The atomic unit, a die and a channel, whose buffer serves a target: that of its slot's pool entry (R125, R139). -/
def State.atomicUnit (s : State) (t : SlotRef) : Nat × Nat :=
  match s.resolvePa (poolPa t.entry t.slot) with
  | .ok (l, d) => (d, channelOf (l % 2 ^ 40))
  | .error _ => (0, 0)

/-- Contributions that the reorder buffer of a target's atomic unit holds. -/
def State.heldAt (s : State) (t : SlotRef) : Nat :=
  (s.reductions.filter (fun r => s.atomicUnit r.target == s.atomicUnit t)).foldl
    (fun n r => n + r.held.length) 0

/-- One contribution added to the accumulator (R140). -/
def Reduction.accumulate (r : Reduction) (c : Contribution) : Reduction × Bool :=
  let f := redFmt r.f32
  let x := decodeF f c.value.toNat
  if r.next = 0 then
    ({ r with next := 1, acc := BitVec.ofNat 64 (roundF f 0 0 .ieee x).1 }, false)
  else
    let (sum, _) := addV (decodeF f r.acc.toNat) x false
    let (code, fl) := roundF f 0 0 .ieee sum
    ({ r with next := r.next + 1, acc := BitVec.ofNat 64 code }, fl &&& OF != 0)

/-- An overflow is owed to the FLAGS of the contributing task, while that is still its record's task, or is set in the
TFLAGS of the contributing `matom`'s tile (R140, R244, 04_numbers.md R106). -/
def State.oweOverflow (s : State) (c : Contribution) : State :=
  match c.source with
  | .task i g =>
    if recGen ((s.taskRec c.job i).getD 0) = g then s.setAux { s.aux c.job i with owesOF := true } else s
  | .tile v x y =>
    { s with regions := s.regions.map (fun r =>
        if r.job == c.job && r.v == v then
          { r with body := { r.body with tiles := r.body.tiles.map (fun t =>
              if t.x == x && t.y == y then { t with tflags := t.tflags ||| BitVec.ofNat 8 OF } else t) } }
        else r) }
  | .switch => s

/-- Contributions applied in index order for as long as the next one is held. -/
def State.drainRed (s : State) : Nat → Reduction → Reduction × State
  | 0, r => (r, s)
  | fuel + 1, r =>
    match r.held.find? (fun c => c.index == r.next) with
    | none => (r, s)
    | some c =>
      let (r', ovf) := { r with held := r.held.filter (fun d => d.index != r.next) }.accumulate c
      (if ovf then s.oweOverflow c else s).drainRed fuel r'

/-- The last contribution has been applied: the target's slot publishes NEWEST + 1 (R140). -/
def State.closeRed (s : State) (r : Reduction) : State :=
  let s := s.dropRed r
  let p : Publication :=
    { job := r.job, va := r.va, target := r.target, num := 0, auto := true,
      data := cells (upFrom r.target.off (redBytes r.f32)) (toBytes (redBytes r.f32) r.acc.toNat),
      agent := r.agent, view := r.view, cmd := none }
  let s := { s with pubs := s.pubs ++ [p] }
  (s.applyPub (s.pubs.length - 1)).2

/-- The reorder buffer takes a contribution, or a discard's event is posted; false when it holds the contribution back
in transport (R141). -/
def State.contribute (s : State) (c : Contribution) : Bool × State :=
  let discard := s.postEvent c.job (s.atomicUnit c.target).1 (reduceIndexEvent c.va.toNat c.index)
  match s.redAt c.job c.target c.f32 with
  | none => (true, discard)
  | some r =>
    if r.count ≤ c.index || c.index < r.next || r.held.any (fun d => d.index == c.index) then (true, discard)
    else if c.index = r.next || s.heldAt c.target < Config.reorderCapacity then
      let (r, s) := s.drainRed r.count { r with held := c :: r.held }
      if r.next = r.count then (true, s.closeRed r) else (true, s.setRed r)
    else (false, s)

/-- A region's tiles begin anew with an arm: an overflow of an earlier contribution is no business of theirs. -/
def State.forgetTiles (s : State) (job v : Nat) : State :=
  let f (c : Contribution) : Contribution := match c.source with
    | .tile w _ _ => if c.job == job && w == v then { c with source := .switch } else c
    | _ => c
  { s with transit := s.transit.map f, reductions := s.reductions.map (fun r => { r with held := r.held.map f }) }

/-- A contribution on its way to the reorder buffer, which holds it back in transport when it has no room (R141). -/
def State.sendContribution (s : State) (c : Contribution) : State :=
  let (taken, s) := s.contribute c
  if taken then s else { s with transit := s.transit ++ [c] }

/-- `redinit` at the home (R140, R141). -/
def State.openRed (s : State) (job va : Nat) (t : SlotRef) (f32 : Bool) (count : Nat) (a : Agent) (view : View) : State :=
  match s.redAt job t f32 with
  | some _ => s.postEvent job (s.atomicUnit t).1 (reduceIndexEvent va 0)
  | none =>
    s.setRed { job := job, va := BitVec.ofNat 64 va, target := t, f32 := f32, count := count, next := 0, acc := 0, held := [],
               agent := a, view := view }

end Sys2Proof.Machine
end

