-- ==== Sys2Proof/Machine/OpsQueue.lean ====
section
/-! DEFINITION. Command queues: issue, spill, how a command finishes (02_execution.md R45-R46, 11_stream_commands.md
R257-R261), launches (R48, R50, R264) and the cancelling of launches, replays, phases and jobs (R49-R51, R252). -/

namespace Sys2Proof.Machine

/-! ### Queue ids and the relocation table -/

def qKind (q : Nat) : Nat := bf q 12 4
def qDie (q : Nat) : Nat := bf q 10 2
def qNum (q : Nat) : Nat := bf q 0 10

/-- Entry v of a job's relocation table, as memory holds it (18_arming.md R354). -/
def State.reloc (s : State) (job v : Nat) : Nat :=
  match s.job? job with
  | some j => (s.readPa (j.f 400 48 + 8 * v) 8).getD 0
  | none => 0

/-- Checks of a queue id (R249): none when it names a queue. -/
def State.queueFault (s : State) (job q : Nat) : Option TFault :=
  let limit : Option Nat := match qKind q with
    | 1 => some 8
    | 2 => some 2
    | 3 => some 128
    | 4 => some 4
    | 5 => some 1
    | 6 => some 1
    | _ => none
  if qKind q = 0 then
    if bf q 6 6 != 0 || !bit (s.reloc job (bf q 0 6)) 63 then some (.prot 7) else none
  else
    match limit with
    | none => some (.prot 7)
    | some n => if n ≤ qNum q then some (.prot 7) else if !s.live (qDie q) then some .dieLost else none

/-- The die on which a queue works: an engine's own, or the one its region is bound to. -/
def State.queueDie (s : State) (job q : Nat) : Nat :=
  if qKind q = 0 then
    match s.region? job (bf q 0 6) with
    | some r => r.die
    | none => bf (s.reloc job (bf q 0 6)) 16 2
  else qDie q

/-- First row and rows of a region: where it is bound, or where its relocation entry would bind it (18_arming.md R354). -/
def State.regionRows (s : State) (job v : Nat) : Nat × Nat :=
  match s.region? job v with
  | some r => (r.y0, r.h)
  | none => (4 * bf (s.reloc job v) 10 3, 4 * bf (s.reloc job v) 4 3 + 4)

/-- The agent that carries out the commands of a queue (06_ordering.md R143, R144): those of a region are members of it. -/
def State.queueAgent (s : State) (job q : Nat) : Agent :=
  let die := s.queueDie job q
  if qKind q = 0 then
    let (y, h) := s.regionRows job (bf q 0 6)
    { engineAgent job die q with quarter := quarterOf y h, region := some (bf q 0 6) }
  else engineAgent job die q

def State.queue (s : State) (job q : Nat) : Queue :=
  match s.queues.find? (fun x => x.job == job && x.qid == q) with
  | some x => x
  | none => { job := job, qid := q, onChip := [], spill := [], slot := none, spillAt := 0, next := 1, counter := 0,
              finished := [], started := [], hold := none, overflowed := false, rels := [], acq := [],
              writes := [] }

def State.setQueue (s : State) (x : Queue) : State :=
  { s with queues := upsert (fun y => y.job == x.job && y.qid == x.qid) x s.queues }

def State.cmd? (s : State) (job q tln : Nat) : Option Cmd := (s.queue job q).started.find? (fun c => c.tln == tln)

def State.setCmd (s : State) (job q : Nat) (c : Cmd) : State :=
  let x := s.queue job q
  s.setQueue { x with started := upsert (fun d => d.tln == c.tln) c x.started }

def Cmd.op (c : Cmd) : Nat := cmdOpcode c.word.toNat
def Cmd.head (c : Cmd) : CmdHead := cmdHead c.word.toNat
/-- The region that a region command names. -/
def Cmd.region (c : Cmd) : Nat := cmdRegion c.word.toNat
def Cmd.port (c : Cmd) : Nat := cmdPort c.word.toNat

/-- `load`, `store`, `publish` and `vload` (R263). -/
def isData (opcode : Nat) : Bool := 1 ≤ opcode && opcode ≤ 4
/-- Control commands (R265). -/
def isControl (opcode : Nat) : Bool :=
  opcode == 0x09 || (0x0B ≤ opcode && opcode ≤ 0x0E) || opcode == 0x1F

/-! ### Issue and spill (R45, R46) -/

/-- The lowest spill slot of a job that no context holds. -/
def State.freeSlot (s : State) (job : Nat) : Option Nat :=
  match s.job? job with
  | none => none
  | some j =>
    (upFrom 0 (j.f 952 16)).find? (fun k => s.queues.all (fun q => !(q.job == job && q.slot == some k)))

/-- Free places for new commands: on chip while nothing is spilled, and in the spill ring. -/
def State.room (s : State) (job q : Nat) : Nat :=
  let x := s.queue job q
  let chip := if x.spill = [] then Config.onChipQueue - x.onChip.length else 0
  let ring := match x.slot with
    | some _ => Config.spillRing - x.spill.length
    | none => if (s.freeSlot job).isSome then Config.spillRing else 0
  chip + ring

/-- Virtual address of entry `k` of a spill slot (R46). -/
def Job.spillVa (j : Job) (slot k : Nat) : Nat := j.f 896 56 + slot * 0x100000 + k % Config.spillRing * 16

/-- issue(q, cmd): the command takes the next number and its place (R45, R257). The number, and the state. -/
def State.issue (s : State) (job q : Nat) (word : CmdWord) (cls : Nat) (deadline : Word64) (view : View)
    (node : Option (Word64 × Nat)) : Nat × State :=
  let x := s.queue job q
  let c : Cmd := { tln := x.next, word := word, cls := cls, deadline := deadline, view := view, phase := .running,
                   progress := 0, buf := [], desc := 0, stalled := none, node := node, counted := [] }
  let x' := { x with next := x.next + 1 }
  if x.spill = [] && x.onChip.length < Config.onChipQueue then
    (x.next, s.setQueue { x' with onChip := x.onChip ++ [c] })
  else
    let slot := match x.slot with
      | some k => some k
      | none => s.freeSlot job
    let s' := match slot, s.job? job with
      | some k, some j => s.hwWrite job (j.spillVa k (x.spillAt + x.spill.length)) 16 word.toNat
      | _, _ => s
    (x.next, s'.setQueue { x' with spill := x.spill ++ [c], slot := slot })

/-- A place on chip is free: the oldest spilled command is read back (R45, R46). A slot whose ring has emptied is given
back. -/
def State.unspill (s : State) (job q : Nat) : State :=
  let x := s.queue job q
  match x.spill with
  | [] => s
  | c :: rest =>
    if Config.onChipQueue ≤ x.onChip.length then s
    else
      let word := match x.slot, s.job? job with
        | some k, some j => BitVec.ofNat 128 ((s.hwRead job (j.spillVa k x.spillAt) 16).getD c.word.toNat)
        | _, _ => c.word
      let s := match x.slot, s.job? job with
        | some k, some j =>
          s.hwTouch job (j.spillVa k x.spillAt) 16
        | _, _ => s
      s.setQueue { x with onChip := x.onChip ++ [{ c with word := word }], spill := rest, spillAt := x.spillAt + 1,
                          slot := if rest = [] then none else x.slot }

/-- The spill ring of a context is at most half full; a context that holds no slot has room when a slot is free or its
on-chip queue is at most half full (R45, R46; log 48). -/
def State.spillLow (s : State) (x : Queue) : Bool :=
  match x.slot with
  | some _ => decide (x.spill.length * 2 ≤ Config.spillRing)
  | none => (s.freeSlot x.job).isSome || decide (x.onChip.length * 2 ≤ Config.onChipQueue)

/-- A task parked on a queue runs again once that queue's spill ring is at most half full (R45). -/
def State.wakeSpill (s : State) (job q : Nat) : State :=
  (s.queues.filter (fun x => x.job == job && (x.qid == q || x.overflowed))).foldl (fun s x =>
    if s.spillLow x then
      (s.setQueue { x with overflowed := false }).wake (fun t p => t.job == job && p == .spill x.qid)
    else s) s

/-- A command leaves its queue, whose free place takes the oldest spilled one (R45). -/
def State.takeFrom (s : State) (job q k : Nat) : State :=
  let x := s.queue job q
  ((s.setQueue { x with onChip := x.onChip.eraseIdx k }).unspill job q).wakeSpill job q

/-! ### How a command finishes (R259, R260) -/

/-- SRCK and INDEX of a queue's events (R260). -/
def queueSource (q : Nat) : Nat × Nat := if qKind q = 0 then (1, bf q 0 6) else (3, q)

/-- The timeline counter advances over the numbers that are finished (R151). -/
def advance (fin : List Nat) : Nat → Nat → Nat
  | 0, n => n
  | fuel + 1, n => if fin.contains (n + 1) then advance fin fuel (n + 1) else n

/-- The timeline number completes. The counter advances, and with each number that it reaches it releases the writes of
that command (R151, R146): those of a command that ends before an earlier one become available when the earlier one has
ended. -/
def State.finishNumber (s : State) (job q tln : Nat) (view : View) : State :=
  let a := s.queueAgent job q
  let s := s.placeOwn a.job a.num view
  let x := s.queue job q
  let fin := tln :: x.finished
  let n := advance fin fin.length x.counter
  let rel : Release := { by_ := a, inst := a.instOf 4, view := view }
  let rels := (tln, rel) :: x.rels
  let reached := rels.filter (fun (r : Nat × Release) => x.counter < r.1 && r.1 ≤ n)
  let s := { s with releases := s.releases ++ reached.map Prod.snd }
  let s := s.setQueue { x with
    started := x.started.filter (fun c => c.tln != tln)
    finished := fin.filter (fun k => decide (n < k))
    counter := n
    hold := if x.hold = some tln then none else x.hold
    acq := if x.hold = some tln then unionNat x.acq view else x.acq
    rels := rels }
  s.wake (fun t p =>
    match p with
    | .timeline qid m => t.job == job && qid == q && decide (m ≤ n)
    | _ => false)

/-- Entry SEL of the notify table (R27). DESIGN CHOICE: an entry that no range of the job permits to be read counts as 0, so
that it names record 0 with generation 0, and barrier 0 of die 0 (log 8). -/
def State.notifyEntry (s : State) (job sel : Nat) : Nat :=
  match s.job? job with
  | some j => (s.hwRead job (j.f 192 64 + 8 * sel) 8).getD 0
  | none => 0

/-- The hardware needs entry SEL of the notify table. -/
def State.entryTouch (s : State) (job sel : Nat) : State :=
  match s.job? job with
  | some j => s.hwTouch job (j.f 192 64 + 8 * sel) 8
  | none => s

/-- The notify and the arrival of a command that finishes (R259). -/
def State.finishSignals (s : State) (job q : Nat) (c : Cmd) (err : Bool) : State :=
  let h := cmdHead c.word.toNat
  let e := s.notifyEntry job h.sel.toNat
  let die := s.queueDie job q
  let s := if h.notify || h.arrive then s.entryTouch job h.sel.toNat else s
  let s := if h.notify then s.notify job die (bf e 0 16) (bf e 16 16) else s
  if h.arrive then
    let a := s.queueAgent job q
    -- an arrival releases the writes of commands numbered as this one and below (06_ordering.md R146)
    let view := ((s.queue job q).rels.filter (fun r => decide (r.1 ≤ c.tln))).foldl (fun v r => unionNat v r.2.view) c.view
    let rel : Release := { by_ := a, inst := a.instOf 4, view := view }
    s.arrive job (bf e 42 2) (bf e 32 10) (weightOf (bf e 44 20)) err rel
  else s

/-- The event of a command that failed or was rejected (R192, R260). -/
def cmdEvent (q : Nat) (c : Cmd) (r : CmdResult) : Option EventRec :=
  let (srck, ix) := queueSource q
  let opcode := cmdOpcode c.word.toNat
  match r with
  | .fail code subc addr det =>
    some { code := code, srck := srck, index := ix, addr := addr.toNat,
           detail := c.tln + opcode * 2 ^ 80 + subc * 2 ^ 88 + det.toNat * 2 ^ 96 }
  | .rejected check =>
    some { code := 0x1C, srck := srck, index := ix, detail := c.tln + check * 2 ^ 64 + opcode * 2 ^ 80 }
  | _ => none

/-- Pending faults of a command that has ended are dropped (21_paging.md R398), and it waits at no gate any more. -/
def State.dropCmdFaults (s : State) (job q tln : Nat) : State :=
  [0, 1, 2, 3].foldl (fun s d =>
    let x := s.die d
    let its (g : GateWait) : Bool := g.job == job && g.qid == q && g.tln == tln
    if x.faults.any (fun f => f.job == job && f.src == .command q tln) || x.gates.any its then
      s.setDie d { x with faults := x.faults.filter (fun f => !(f.job == job && f.src == .command q tln)),
                          gates := x.gates.filter (fun g => !its g) }
    else s) s

/-- A command finishes with a result: exactly once, with its number, its notify, its arrival and then its event (R192). An
arm of an arm list, which stands under number 0, takes no number and makes no notify or arrival (20_host.md R383). -/
def State.finishCmd (s : State) (job q : Nat) (c : Cmd) (r : CmdResult) : State :=
  let s := s.dropCmdFaults job q c.tln
  let s := if c.tln = 0 then
      let x := s.queue job q
      s.setQueue { x with started := x.started.filter (fun d => d.tln != 0) }
    else s.finishNumber job q c.tln c.view
  let s := if c.tln = 0 then s else s.finishSignals job q c (r != .ok)
  match cmdEvent q c r with
  | some e => s.postEvent job (s.queueDie job q) e
  | none => s

/-! ### Launches (R48, R50, R264) -/

/-- Data commands and `config`s of a launch that have started. -/
def State.launchCmds (s : State) (r : Region) : List (Nat × Cmd) :=
  (r.launch.getD []).filterMap (fun k => (s.cmd? r.job k.1 k.2).map (fun c => (k.1, c)))

/-- Port lists without the commands of a launch. -/
def Region.clearPorts (r : Region) : Region :=
  { r with launch := none, launchIn := [], node := none, nodes := [],
           body := { r.body with ports := r.body.ports.map (fun p => { p with cmds := [] }) } }

/-- Pending faults of a region are dropped (21_paging.md R398). -/
def State.dropRegionFaults (s : State) (job v : Nat) : State :=
  [0, 1, 2, 3].foldl (fun s d =>
    let x := s.die d
    s.setDie d { x with faults := x.faults.filter (fun f =>
      !(f.job == job && (f.src == .region v || f.src == .reread v))) }) s

/-- A change of a running replay. -/
def State.mapReplay (s : State) (job : Nat) (va : Word64) (f : Replay → Replay) : State :=
  [0, 1, 2, 3].foldl (fun s d =>
    let x := s.die d
    if x.running.any (fun r => r.job == job && r.va == va) then
      s.setDie d { x with running := x.running.map (fun r => if r.job == job && r.va == va then f r else r) }
    else s) s

/-- The work of a node of a running replay has ended, or, where `more` says so, a part of it: it can complete, with what it
released (R54). -/
def State.nodeReady (s : State) (job : Nat) (va : Word64) (node : Nat) (view : View) (more : Bool := false) : State :=
  s.mapReplay job va (fun r =>
    match r.nodes[node]? with
    | none => r
    | some n => { r with nodes := r.nodes.set node { n with ready := n.started && !more, view := unionNat n.view view } })

/-- A data command of a launch node has not finished (R54; log 23). -/
def State.nodeOwes (s : State) (job : Nat) (n : Word64 × Nat) : Bool :=
  s.queues.any (fun q => q.job == job && (q.onChip ++ q.spill ++ q.started).any (fun c => isData c.op && c.node == some n))

/-- A launch has completed: every node that has commands in it learns so (R54). -/
def State.nodesReady (s : State) (job : Nat) (ns : List (Word64 × Nat)) (view : View) : State :=
  ns.eraseDups.foldl (fun s n => s.nodeReady job n.1 n.2 view (s.nodeOwes job n)) s

/-- The number of the `stop` or `disarm` of a region that acts now. -/
def State.stopAt (s : State) (job v : Nat) : Nat :=
  match (s.queue job v).started.find? (fun c => (c.op == 0x0B || c.op == 0x09) && c.phase == .running) with
  | some c => c.tln
  | none => 2 ^ 64

/-- The queued commands of a cancelled launch are discarded: the data commands and `config`s that have not started, up
to the first command that could not start in that launch or that stands behind the `stop` numbered `bound` (R50, R258,
R264; log 49). The last argument bounds the number of commands. -/
def State.dropQueued (s : State) (job v bound : Nat) : Nat → State
  | 0 => s
  | n + 1 =>
    match (s.queue job v).onChip with
    | [] => s
    | c :: _ =>
      if (isData c.op || c.op == 0x0A) && !c.head.after && c.tln < bound then
        ((s.takeFrom job v 0).finishCmd job v { c with view := [] } .discarded).dropQueued job v bound n
      else s

/-- The launch of a region is cancelled (R50): its beats and commands are discarded, positional state returns, and the
region is ARMED; a SAVED one stays so, for it holds no tiles (R61). A region with no launch is left alone. -/
def State.cancelLaunch (s : State) (job v : Nat) : State :=
  match s.region? job v with
  | none => s
  | some r =>
    if r.launch.isNone then s
    else
      let cmds := s.launchCmds r
      let s := s.setRegion
        (if r.state.holdsTiles then { r.positional.clearPorts with state := .armed } else r.clearPorts)
      let s := s.dropRegionFaults job v
      let s := cmds.foldl (fun s c => s.finishCmd job c.1 c.2 .discarded) s
      s.dropQueued job v (s.stopAt job v) ((s.queue job v).onChip.length + (s.queue job v).spill.length)

/-- A failure at a port fails its command and cancels the launch (R260, R264). -/
def State.failAtPort (s : State) (job v q tln : Nat) (r : CmdResult) : State :=
  match s.cmd? job q tln with
  | none => s
  | some c => (s.finishCmd job q c r).cancelLaunch job v

/-- Queued commands of a context that `p` selects and that have not started are discarded; the others close up, in the
spill ring too (R46, R49, R50). -/
def State.discardWhere (s : State) (job q : Nat) (p : Cmd → Bool) : State :=
  let x := s.queue job q
  let gone := (x.onChip ++ x.spill).filter p
  if gone = [] then s
  else
    let words := match x.slot, s.job? job with
      | some k, some j =>
        (upFrom 0 x.spill.length).map (fun i => s.hwRead job (j.spillVa k (x.spillAt + i)) 16)
      | _, _ => []
    let kept := ((x.spill.zip (words ++ List.replicate x.spill.length none)).filter (fun c => !p c.1)).map (fun c =>
      { c.1 with word := match c.2 with
        | some w => BitVec.ofNat 128 w
        | none => c.1.word })
    let s : State := match x.slot, s.job? job with
      | some k, some j => (upFrom 0 x.spill.length).foldl (fun (s : State) i =>
          s.hwTouch job (j.spillVa k (x.spillAt + i)) 16) s
      | _, _ => s
    let s := s.setQueue { x with onChip := x.onChip.filter (fun c => !p c), spill := kept,
                                 slot := if kept = [] then none else x.slot }
    let s : State := match x.slot, s.job? job with
      | some k, some j => (kept.zip (upFrom 0 kept.length)).foldl (fun (s : State) c =>
          s.hwWrite job (j.spillVa k (x.spillAt + c.2)) 16 c.1.word.toNat) s
      | _, _ => s
    let s := (gone.foldl (fun s _ => s.unspill job q) s).wakeSpill job q
    gone.foldl (fun s c => s.finishCmd job q { c with view := [] } .discarded) s

/-! ### Replays (R53, R55) -/

/-- A field of a timetable header read at its home. -/
def State.ttRead (s : State) (job va off n : Nat) : Nat := (s.hwRead job (va + off) n).getD 0

/-- The running replay of a timetable, with the die of its walker. -/
def State.replayOf (s : State) (job : Nat) (va : Word64) : Option (Nat × Replay) :=
  firstPort [0, 1, 2, 3] (fun d =>
    ((s.die d).running.find? (fun r => r.job == job && r.va == va)).map (fun r => (d, r)))

/-- A field of a header written by the walker of a die as an atomic of release order and package scope (R53, R154);
`view` is what the walker has acquired. -/
def State.headerAtomic (s : State) (job die va n v : Nat) (view : View) : State :=
  match s.hwSpan job va n with
  | some ts =>
    let ls := ts.map (·.loc)
    let s := s.bumpWver job (ts.filterMap (·.leaf))
    (s.atomicAt (hwAgent job die) (unionNat view (s.placedAt ls)) [] ls .swap v 0 .rel 4).2.2
  | none => s.hwTouch job va n

/-- REPLAYS, ENDSTAMP, CAPPED, CANCELLED and STATUS of a header as a replay ends, and then NEN's notify (R53). -/
def State.endHeader (s : State) (job die : Nat) (va : Nat) (capped cancelled : Bool) (view : View) : State :=
  let s := s.headerAtomic job die (va + 24) 8 (s.die die).stime.toNat view
  let w := s.ttRead job va 0 4
  let s := s.headerAtomic job die va 4 (putField (putField (putField w 3 1 (b2n cancelled)) 2 1 (b2n capped)) 0 2 0) view
  let s := s.headerAtomic job die (va + 56) 8 (s.ttRead job va 56 8 + 1) view
  let h := s.ttRead job va 16 8
  if bit h 32 then s.notify job die (bf h 0 16) (bf h 16 16) else s

/-- The end of a running replay (R53). -/
def State.endReplay (s : State) (job : Nat) (va : Word64) (cancelled : Bool) : State :=
  match s.replayOf job va with
  | none => s
  | some (d, r) =>
    let x := s.die d
    let s := s.setDie d { x with running := x.running.filter (fun q => !(q.job == job && q.va == va)) }
    s.endHeader job d va.toNat r.capped cancelled (r.nodes.foldl (fun v n => unionNat v n.view) [])

/-- Cancelling a running replay (R49): the tasks and launches that its nodes started are cancelled, with the commands that
its launch nodes have issued and that have not started, and it ends. -/
def State.cancelRunning (s : State) (job : Nat) (va : Word64) : State :=
  match s.replayOf job va with
  | none => s
  | some _ =>
    let mine (n : Option (Word64 × Nat)) : Bool := match n with
      | some (v, _) => v == va
      | none => false
    let ts := s.tasks.filter (fun t => t.job == job && mine t.node)
    let rs := s.regions.filter (fun r => r.job == job && mine r.node)
    let s := s.hwWrite job va.toNat 4 (putField (s.ttRead job va.toNat 0 4) 0 2 2)
    let s := ts.foldl (fun s t => s.cancelTask t.job t.idx) s
    let s := rs.foldl (fun s r => s.cancelLaunch r.job r.v) s
    let s := (s.queues.filter (fun q => q.job == job)).foldl (fun s q =>
      s.discardWhere job q.qid (fun c => mine c.node)) s
    s.endReplay job va true

/-- `tcancel` of a replay (R252): the running one is cancelled, and the replays requested and not yet started end as
cancelled. -/
def State.cancelReplay (s : State) (job : Nat) (va : Word64) : State :=
  [0, 1, 2, 3].foldl (fun s die =>
    let x := s.die die
    let waiting := x.replays.filter (fun q => q.1 == job && q.2 == va)
    let s := s.setDie die { x with replays := x.replays.filter (fun q => !(q.1 == job && q.2 == va)) }
    waiting.foldl (fun s _ => s.endHeader job die va.toNat false true []) s) (s.cancelRunning job va)

/-! ### Results of transducer runs (11_stream_commands.md R277) -/

/-- The result record of a run: COMMITTED, FAILED, OUTBYTES and CAUSE. -/
def TxRun.result (r : TxRun) (failed cause : Nat) : List Byte :=
  toBytes 4 r.released ++ toBytes 4 failed ++ toBytes 8 r.outBytes ++ toBytes 8 cause

/-- Address of the result record. -/
def TxRun.resultVa (r : TxRun) : Nat := bf r.desc.toNat 192 56

/-- A cancelled run writes its result record with CAUSE 0 and FAILED the next index, where it can be written. -/
def State.cancelRun (s : State) (r : TxRun) : State :=
  match s.translateSpan (s.jobRanges r.job) r.job .write r.resultVa 24 with
  | .ok ts =>
    if s.wsHit (ts.map (·.loc)) then s
    else
      ((s.bumpWver r.job (ts.filterMap (·.leaf))).storeNow (s.queueAgent r.job r.qid)
        (cells (ts.map (·.loc)) (r.result r.released 0)) [] true).2
  | .error _ => s

/-! ### Phases and jobs (R49, R252) -/

/-- Cancelling the current phase of an instance (R49): the tasks, launches and replays that started in it are cancelled,
and the ordinary stores of its tasks and of its launches' ports that nothing has released are discarded first, so that no
number that a cancelled command completes releases them (R151). A replay that has not started belongs to no phase. -/
def State.cancelPhase (s : State) (i : ScopeAt) (die : Nat) : State :=
  let n := (s.phaseAt i die).p.toNat
  let ts := s.tasks.filter (fun t => t.job == i.job && t.startedIn.contains (i, n))
  let rs := s.regions.filter (fun r => r.job == i.job && r.launchIn.contains (i, n))
  let nums := ts.map (fun t => taskNum (s.taskDie ((s.taskRec t.job t.idx).getD 0)) t.idx)
  let s := s.discardStores (fun r => r.job == i.job &&
    (nums.contains r.agent || rs.any (fun x => r.by_.region == some x.v)))
  let s := ts.foldl (fun s t => s.cancelTask t.job t.idx) s
  let s := rs.foldl (fun s r => s.cancelLaunch r.job r.v) s
  [0, 1, 2, 3].foldl (fun s d =>
    ((s.die d).running.filter (fun r => r.job == i.job && r.startedIn.contains (i, n))).foldl (fun s r =>
      s.cancelRunning r.job r.va) s) s

/-- Cancelling a job (R49, R252): replays, launches, queued and started commands and tasks are cancelled; the job ends
when JOB_END finds nothing left. -/
def State.cancelJob (s : State) (job : Nat) : State :=
  match s.resident? job with
  | none => s
  | some j =>
    let s := s.setJob { j with cancelling := true, held := false, arms := [] }
    let s := [0, 1, 2, 3].foldl (fun s d =>
      let vas := ((s.die d).running.filter (fun r => r.job == job)).map (·.va) ++
        ((s.die d).replays.filter (fun r => r.1 == job)).map (·.2)
      let s := vas.foldl (fun s va => s.cancelReplay job va) s
      let x := s.die d
      s.setDie d { x with faults := x.faults.filter (fun f => f.job != job),
                          fills := x.fills.filter (fun f => f.job != job) }) s
    let s := (s.regions.filter (fun r => r.job == job)).foldl (fun s r => s.cancelLaunch job r.v) s
    let s := (s.queues.filter (fun q => q.job == job)).foldl (fun s q =>
      let cs := q.started ++ (q.onChip ++ q.spill).map (fun c => { c with view := [] })
      let s := s.setQueue { q with onChip := [], spill := [], slot := none, hold := none }
      cs.foldl (fun s c => s.finishCmd job q.qid c .discarded) s) s
    let s := (s.txruns.filter (fun r => r.job == job)).foldl State.cancelRun s
    let s := { s with txruns := s.txruns.filter (fun r => r.job != job),
                      colls := s.colls.filter (fun c => c.job != job),
                      pubs := s.pubs.filter (fun p => p.job != job) }
    (upFrom 0 j.tasks).foldl (fun s i => s.cancelTask job i) s

end Sys2Proof.Machine
end

