-- ==== Sys2Proof/Machine/OpsTimetable.lean ====
section
/-! DEFINITION. Timetables: the check of a request, how nodes start, are skipped and complete (02_execution.md
R52-R56). Replays of different timetables of one walker run side by side (log 22). -/

namespace Sys2Proof.Machine

/-- Node record `k` of a timetable (R52). DESIGN CHOICE: a record that no range of the job permits to be read counts as zeros
(log 8). -/
def State.ttNode (s : State) (job va k : Nat) : Nat := (s.hwRead job (va + 64 + 64 * k) 64).getD 0

/-- The walker needs a node record. -/
def State.ttTouch (s : State) (job va k : Nat) : State := s.hwTouch job (va + 64 + 64 * k) 64

/-- The walker needs a header of a timetable, and all its node records. -/
def State.ttTouchAll (s : State) (job va : Nat) : State :=
  (upFrom 0 (min 4096 (s.ttRead job va 36 2))).foldl (fun s k => s.ttTouch job va k) (s.hwTouch job va 64)

def ndKind (w : Nat) : Nat := bf w 508 4
/-- Number of successors. -/
def ndNs (w : Nat) : Nat := bf w 505 3 + 1
def ndPred (w : Nat) : Nat := bf w 464 16
/-- Iteration cap; 0 means 65,536. -/
def ndCap (w : Nat) : Nat := if bf w 448 16 = 0 then 65536 else bf w 448 16
def ndSucc (w k : Nat) : Nat := bf w (320 + 16 * k) 16
def ndSuccs (w : Nat) : List Nat := (upFrom 0 (ndNs w)).map (ndSucc w)

/-- A node that R52 admits in a timetable of `n` nodes. -/
def nodeOk (n w : Nat) : Bool :=
  ndKind w ≤ 4 && bf w 480 25 == 0 && bf w 312 8 == 0 && bf w 0 160 == 0 && (ndSuccs w).all (fun k => decide (k < n))

/-- A header that R53 admits. -/
def headerOk (h : Nat) : Bool :=
  bf h 376 8 == 0 && bf h 304 16 == 0 && bf h 258 14 == 0 && bf h 161 31 == 0 && bf h 64 64 == 0 && bf h 4 28 == 0 &&
    bf h 32 32 == 0x4C425454 && 1 ≤ bf h 288 16 && bf h 288 16 ≤ 4096 && bf h 272 16 < bf h 288 16

/-- What makes `trun` refuse a timetable: the index of the failing node, or 0 (R52). -/
def State.timetableBad (s : State) (job va : Nat) : Option Nat :=
  match s.hwRead job va 64 with
  | none => some 0
  | some h =>
    if !headerOk h || (s.slotOf job (bf h 320 56)).isNone then some 0
    else
      let n := bf h 288 16
      (upFrom 0 n).find? (fun k => !nodeOk n (s.ttNode job va k))

/-- A replay is requested, or ILLEGAL is posted (R52, R56). `die` is where the request was made. DESIGN CHOICE: ADDR of that
event is the header's address, which no rule gives (log 24). -/
def State.requestReplay (s : State) (job : Nat) (va : Word64) (die : Nat) : State :=
  let a := va.toNat
  let s := s.ttTouchAll job a
  match s.timetableBad job a with
  | some k => s.postEvent job die { code := 0x01, srck := 2, index := k, addr := a }
  | none =>
    let s := s.hwWrite job (a + 48) 8 (s.ttRead job a 48 8 + 1)
    let d := s.dieFor (bf (s.ttRead job a 32 1) 0 2)
    let x := s.die d
    s.setDie d { x with replays := x.replays ++ [(job, va)] }

/-! ### Nodes -/

def Replay.node (r : Replay) (k : Nat) : NodeSt :=
  r.nodes.getD k { left := 0, seen := false, started := false, due := false, ready := false, looping := false, iter := 0,
                   choice := 0, view := [] }

def State.setNode (s : State) (job : Nat) (va : Word64) (k : Nat) (n : NodeSt) : State :=
  s.mapReplay job va (fun r => { r with nodes := r.nodes.set k n })

/-- The command list at POFF of the bound parameter version (R54): a 64-bit count word, then the commands (log 23). -/
def State.nodeList (s : State) (job : Nat) (va : Word64) (p : Version) (w : Nat) : List CmdWord :=
  match s.slotOf job (s.ttRead job va.toNat 40 7) with
  | none => []
  | some r =>
    let off := r.off + bf w 192 64
    let n := min 16 (ofBytes (p.bytes off 8))
    (upFrom 0 n).map (fun k => BitVec.ofNat 128 (ofBytes (p.bytes (off + 8 + 16 * k) 16)))

/-- The condition word of a node, read afresh. -/
def State.condWord (s : State) (job w : Nat) : Nat := (s.hwRead job (bf w 256 56) 8).getD 0

/-- A node starts (R54, R55). A launch node whose queue has no room is due. -/
def State.startNode (s : State) (job : Nat) (va : Word64) (k : Nat) : State :=
  match s.replayOf job va with
  | none => s
  | some (die, r) =>
    let s := s.ttTouch job va.toNat k
    let w := s.ttNode job va.toNat k
    let n := r.node k
    let n := { n with left := ndPred w, seen := false, started := true, due := false, ready := false }
    match ndKind w with
    | 0 =>
      let i := bf w 160 16
      let g := bf w 176 16
      let s := s.setNode job va k n
      let t := (s.taskRec job i).getD 0
      let s :=
        if recValid t && recGen t == g then
          let num := taskNum (s.taskDie t) i
          let (v, rel) := s.viewOf job num
          (s.setAux { s.aux job i with node := some (va, k) }).setView job num (unionNat v n.view) rel
        else s
      s.notify job die i g
    | 1 =>
      let q := bf w 160 6
      let list := s.nodeList job va r.params w
      if s.room job q < list.length then s.setNode job va k { n with due := true }
      else
        let s := s.setNode job va k n
        list.foldl (fun s c => (s.issue job q c 0 0 n.view (some (va, k))).2) s
    | 2 =>
      let s := s.hwTouch job (bf w 256 56) 8
      let c := s.condWord job w
      s.setNode job va k { n with ready := true, choice := if c < ndNs w then c else ndNs w - 1 }
    | 3 =>
      let s := s.hwTouch job (bf w 256 56) 8
      let c := s.condWord job w
      if c ≠ 0 && n.iter < ndCap w then
        s.setNode job va k { n with ready := true, choice := 0, looping := true, iter := n.iter + 1 }
      else
        let s := s.setNode job va k { n with ready := true, choice := 1, looping := false }
        if c ≠ 0 then s.mapReplay job va (fun r => { r with capped := true }) else s
    | _ => s.endReplay job va false

/-- Completions and skips delivered to successors, with what their source released; skips of skipped nodes follow
(R55). A delivery to a node whose counter is already 0, as that of a node with PRED 0 is, leaves it at 0 and so starts or
skips the node again (log 86). -/
def State.deliver (s : State) (job : Nat) (va : Word64) : Nat → List (Nat × Bool × View) → State
  | 0, _ => s
  | _, [] => s
  | fuel + 1, (t, done, v) :: rest =>
    match s.replayOf job va with
    | none => s
    | some (_, r) =>
      let s := s.ttTouch job va.toNat t
      let w := s.ttNode job va.toNat t
      let n := r.node t
      if ndKind w = 3 && n.looping then
        -- the back edge: a completion starts the node again, a skip is discarded
        if done then
          ((s.setNode job va t { n with view := unionNat n.view v }).startNode job va t).deliver job va fuel rest
        else s.deliver job va fuel rest
      else
        let left := n.left - 1
        let n := { n with left := left, seen := n.seen || done, view := unionNat n.view v }
        if left ≠ 0 then (s.setNode job va t n).deliver job va fuel rest
        else if n.seen then
          ((s.setNode job va t { n with iter := 0 }).startNode job va t).deliver job va fuel rest
        else
          let s := s.setNode job va t { n with left := ndPred w, seen := false }
          match ndKind w with
          | 4 => s.endReplay job va false
          | 3 => s.deliver job va fuel (rest ++ [(ndSucc w 1, false, n.view)])
          | _ => s.deliver job va fuel (rest ++ (ndSuccs w).map (fun q => (q, false, n.view)))

/-- What a completing node delivers (R55). -/
def nodeDeliveries (w : Nat) (n : NodeSt) : List (Nat × Bool × View) :=
  match ndKind w with
  | 2 => (upFrom 0 (ndNs w)).map (fun e => (ndSucc w e, e == n.choice, n.view))
  | 3 => [(ndSucc w n.choice, true, n.view)]
  | _ => (ndSuccs w).map (fun q => (q, true, n.view))

/-- Deliveries that one step can make, an upper bound: each node is skipped at most once. -/
def Replay.fuel (r : Replay) : Nat := 8 * r.nodes.length + 8

/-- A node completes, or one that is due starts (R54, R55). -/
def State.completeNode (s : State) (job : Nat) (va : Word64) (k : Nat) : State :=
  match s.replayOf job va with
  | none => s
  | some (_, r) =>
    let s := s.ttTouch job va.toNat k
    let n := r.node k
    let w := s.ttNode job va.toNat k
    if n.due then s.startNode job va k
    else if n.ready then
      (s.setNode job va k { n with ready := false, started := false }).deliver job va r.fuel (nodeDeliveries w n)
    else s

/-- The first replay requested of a timetable starts, unless one of that timetable runs (R55, R56). -/
def State.startReplay (s : State) (job : Nat) (va : Word64) : State :=
  match s.replayOf job va, firstPort [0, 1, 2, 3] (fun d =>
      if (s.die d).replays.contains (job, va) then some d else none) with
  | none, some d =>
    let a := va.toNat
    let s := s.ttTouchAll job a
    let count := s.ttRead job a 36 2
    let x := s.die d
    let s := s.setDie d { x with replays := x.replays.erase (job, va) }
    match (s.slotOf job (s.ttRead job a 40 7)).bind (fun r => (s.slotAt job r).live.getLast?) with
    | none => s
    | some v =>
      let nodes := (upFrom 0 count).map (fun k =>
        ({ left := ndPred (s.ttNode job a k), seen := false, started := false, due := false, ready := false,
           looping := false, iter := 0, choice := 0, view := [] } : NodeSt))
      let x := s.die d
      let r : Replay :=
        { job := job, va := va, params := v, nodes := nodes, capped := false
          startedIn := s.phasesOf (hwAgent job d) }
      let s := s.setDie d { x with running := x.running ++ [r] }
      let s := s.hwWrite job a 4 (putField (s.ttRead job a 0 4) 0 2 1)
      s.startNode job va (s.ttRead job a 34 2)
  | _, _ => s

/-- REPLAY_START (R55, R56). -/
def execReplayStart (job : Nat) (va : Word64) (s : State) : Host.Outcome State Fault Refusal :=
  .next (s.startReplay job va)

/-- NODE_COMPLETE (R55). -/
def execNodeComplete (job : Nat) (va : Word64) (node : Nat) (s : State) : Host.Outcome State Fault Refusal :=
  .next (s.completeNode job va node)

end Sys2Proof.Machine
end

