-- ==== Sys2Proof/Machine/Operands.lean ====
section
/-! DEFINITION. Operands of scalar instructions: the registers with their taint (09_scalar_compute.md R198, R201,
06_ordering.md R153), the formats in which an f register is read and written, addresses (08_encodings.md R179), and
the running of one instruction on the context whose turn it is. -/

namespace Sys2Proof

/-! ### Formats and modes (R184-R186) -/

def FFmt.fmt : FFmt → Machine.Fmt
  | .f64 => .fp64 | .f32 => .fp32 | .bf16 => .bf16 | .f16 => .fp16

def FFmt.width : FFmt → Nat
  | .f64 => 64 | .f32 => 32 | .bf16 => 16 | .f16 => 16

/-- Bytes of a load or a version access (R185, R186). -/
def LdMode.bytes : LdMode → Nat
  | .b => 1 | .h => 2 | .w => 4 | .d => 8 | .bu => 1 | .hu => 2 | .wu => 4

/-- A loaded value extended to 64 bits (R235). -/
def LdMode.extend (m : LdMode) (n : Nat) : Word64 :=
  match m with
  | .b => sext64 n 8
  | .h => sext64 n 16
  | .w => sext64 n 32
  | _ => BitVec.ofNat 64 n

def StMode.bytes : StMode → Nat
  | .b => 1 | .h => 2 | .w => 4 | .d => 8

def LdcMode.toLd : LdcMode → LdMode
  | .w => .w | .d => .d | .wu => .wu

def FMode.ffmt : FMode → FFmt
  | .f16 => .f16 | .f32 => .f32 | .f64 => .f64 | .bf16 => .bf16

def FMode.bytes (m : FMode) : Nat := m.ffmt.width / 8

end Sys2Proof

namespace Sys2Proof.Machine

/-! ### Registers -/

/-- A g register: g0 reads 0 (R198). -/
def RegFile.rdG (r : RegFile) (i : GReg) : Word64 := if i = 0 then 0 else vget r.g i.toNat 0

/-- The taint of a g register: that of g0 reads 0 (R198). -/
def RegFile.rdTaint (r : RegFile) (i : GReg) : Bool := i != 0 && vget r.taint i.toNat false

/-- What a tainted g register orders (R152). -/
def RegFile.rdTview (r : RegFile) (i : GReg) : View := if r.rdTaint i then vget r.tview i.toNat [] else []

/-- A c register: c0 reads 1 (R198). -/
def RegFile.rdC (r : RegFile) (i : CReg) : Bool := i == 0 || vget r.c i.toNat false

/-- All 64 bits of an f register. -/
def RegFile.rdF (r : RegFile) (i : FReg) : Word64 := vget r.f i.toNat 0

/-- A g register with its taint; a write to g0 has no effect (R198). -/
def RegFile.setG (r : RegFile) (i : GReg) (v : Word64) (t : Bool) (w : View) : RegFile :=
  if i = 0 then r
  else { r with g := vset r.g i.toNat v, taint := vset r.taint i.toNat t, tview := vset r.tview i.toNat (if t then w else []) }

/-- An untainted result. -/
def RegFile.setPlain (r : RegFile) (i : GReg) (v : Word64) : RegFile := r.setG i v false []

/-- A result whose taint is that of one source. -/
def RegFile.setFrom (r : RegFile) (d : GReg) (v : Word64) (a : GReg) : RegFile := r.setG d v (r.rdTaint a) (r.rdTview a)

/-- A result whose taint is the OR of two sources' (R153). -/
def RegFile.setFrom2 (r : RegFile) (d : GReg) (v : Word64) (a b : GReg) : RegFile :=
  r.setG d v (r.rdTaint a || r.rdTaint b) (unionNat (r.rdTview a) (r.rdTview b))

/-- A write to c0 has no effect (R198). -/
def RegFile.setC (r : RegFile) (i : CReg) (v : Bool) : RegFile := if i = 0 then r else { r with c := vset r.c i.toNat v }

def RegFile.setFbits (r : RegFile) (i : FReg) (v : Word64) : RegFile := { r with f := vset r.f i.toNat v }

/-! ### Scalar formats (R198) -/

/-- The low bits of an f register, as a format reads them (R198). -/
def RegFile.codeF (r : RegFile) (i : FReg) (f : FFmt) : Nat := bf (r.rdF i).toNat 0 f.width

/-- F(n, fmt) of R198. -/
def RegFile.valF (r : RegFile) (i : FReg) (f : FFmt) : FVal := decodeF f.fmt (r.codeF i f)

/-- setF(d, fmt, v) of R198: 0 above the format. -/
def RegFile.setF (r : RegFile) (i : FReg) (f : FFmt) (code : Nat) : RegFile :=
  r.setFbits i (BitVec.ofNat 64 (code % 2 ^ f.width))

/-! ### Addresses (R179) -/

/-- g[base] + sext(disp, 64) × width. -/
def RegFile.memAddr (r : RegFile) (b : GReg) (disp : BitVec 13) (w : Nat) : Nat :=
  (r.rdG b + BitVec.signExtend 64 disp * BitVec.ofNat 64 w).toNat

/-! ### One instruction of the context whose turn it is -/

/-- An instruction that may reach beyond its context. -/
def execTask (f : State → Ctx → State) (s : State) : Host.Outcome State Fault Refusal :=
  match s.cur with
  | some c => .next (f s c)
  | none => .refused .noTask

/-- The context goes on at the next word. -/
def Ctx.advance (c : Ctx) : Ctx := { c with ip := c.ip + 1 }

/-- An instruction that changes registers alone. -/
def execRegs (f : RegFile → RegFile) (s : State) : Host.Outcome State Fault Refusal :=
  execTask (fun s c => s.setCtx { c with regs := f c.regs, ip := c.ip + 1 }) s

end Sys2Proof.Machine
end

