-- ==== Sys2Proof/Machine/Flags.lean ====
section
/-! DEFINITION. Sticky flags and traps of scalar instructions (04_numbers.md R100-R105, 09_scalar_compute.md R200,
R216). -/

namespace Sys2Proof.Machine

/-- The flags whose trap enable is 1: bit 11 enables NX, …, bit 15 enables NV (R105). -/
def fpEnabled (fpctl : BitVec 16) : Nat := bf fpctl.toNat 11 5

/-- The rounding code of an instruction, after a DYN lookup (R216). -/
def rndMode (r : FRnd) (fpctl : BitVec 16) : Nat :=
  match r with
  | .rne => 0 | .rtz => 1 | .rdn => 2 | .rup => 3 | .dyn => fpRM fpctl

/-- FPCTL as `sysrd` reads it: the flags raised in the block are in FLAGS (R254). -/
def Ctx.fpctlNow (c : Ctx) : BitVec 16 := c.regs.fpctl ||| BitVec.ofNat 16 c.raised.toNat

/-- raise(flags) of R200. -/
def Ctx.raise (c : Ctx) (fl : Nat) : Ctx := { c with raised := c.raised ||| BitVec.ofNat 8 fl }

/-- A floating-point instruction's flags, rounding code and result: it traps with FP_TRAP when an enabled flag is
among them, and else is recorded (R200). -/
def execFp (f : Ctx → Nat × Nat × RegFile) (s : State) : Host.Outcome State Fault Refusal :=
  execTask (fun s c =>
    let (fl, mode, regs) := f c
    if fl &&& fpEnabled c.regs.fpctl ≠ 0 then s.trapTask c 0x0D 0 (c.ip + fl * 2 ^ 8 + mode * 2 ^ 16)
    else s.setCtx { (c.raise fl) with regs := regs, ip := c.ip + 1 }) s

end Sys2Proof.Machine
end

