-- ==== Sys2Proof/Machine/ScalarMem.lean ====
section
/-! DEFINITION. Ordinary, consume and floating loads and stores (10_scalar_memory.md R232-R239). -/

namespace Sys2Proof.Machine

/-- The PLACE 3 requests of a task's access pass the gate of host DMA on its die (23_fleet.md R424, R425); none where they must
wait. -/
def State.dmaPass (s : State) (c : Ctx) (ts : List Trans) : Option State :=
  let b := (billOf c.die ts).2
  if b.paid then some s else s.charge c.die 6 0 c.job b

/-- The task waits for the next period of the budgets: it parks until then (R35, R58). -/
def State.dmaPark (s : State) (c : Ctx) : State :=
  (s.gateHeld c.die).parkTask c (.bank c.die (((s.die c.die).stime.toNat / Config.usec + 1) * Config.usec))

/-- What the access has drawn of its budget, after what it led to. -/
def State.dmaDraw (s : State) (c : Ctx) (ts : List Trans) : State := (s.dmaPass c ts).getD s

/-- The checks of an access of `w` bytes (R235): HIGH, alignment, translation, and what may meet it on its way. `k`
goes on with the translated bytes. -/
def State.scalarSpan (s : State) (c : Ctx) (kind : AccKind) (va w : Nat) (k : List Trans → State) : State :=
  if 2 ^ 56 ≤ va then s.trapTask c 0x05 va (detailOf c.ip 3)
  else if va % w ≠ 0 then s.trapTask c 0x03 va (detailOf c.ip 0)
  else
    match s.access c.die c.job (s.jobRanges c.job) kind va w with
    | .error f => s.accessFault c va kind f.1
    | .ok ts =>
      match s.dmaPass c ts with
      | none => s.dmaPark c
      | some _ => (k ts).dmaDraw c ts

/-- A versioned range where an ordinary one is due, or the reverse (R138). -/
def State.versFault (s : State) (c : Ctx) (va : Nat) : State := s.trapTask c 0x05 va (detailOf c.ip 5)

def spanVers (ts : List Trans) : Bool := ts.any (fun t => rgVers t.entry)

/-- A byte that an earlier store of the block holds for a location (R33). -/
def Ctx.overlay (c : Ctx) (l : Nat) : Option Byte :=
  c.held.foldl (fun found h =>
    match h.2 with
    | .store _ ls bs _ =>
      match (ls.zip bs).find? (fun p => p.1 == l) with
      | some p => some p.2
      | none => found
    | _ => found) none

/-- load(a, w) (R33, R145): the bytes an ordinary load with view `v` returns; of a versioned range those of NEWEST
(R138). -/
def State.loadBytes (s : State) (c : Ctx) (v : View) (va : Nat) (ts : List Trans) : List Byte :=
  (ts.zip (upFrom va ts.length)).map (fun p =>
    let t := p.1
    if rgVers t.entry then
      let r := slotRef p.2 t
      match (s.slotAt c.job r).live.getLast? with
      | some x => x.data.read r.off
      | none => 0
    else
      match c.overlay t.loc with
      | some b => b
      | none => s.readByte c.job v t.loc)

/-- What happens before an access whose address is formed from `b` (R152). -/
def Ctx.viewAt (c : Ctx) (b : GReg) : View := unionNat c.view (c.regs.rdTview b)

/-- The registers after a load, at the next word. -/
def State.loaded (s : State) (c : Ctx) (r : RegFile) : State :=
  s.setCtx { c with regs := r, ip := c.ip + 1, stalled := none }

/-- `ld` (R235). -/
def execLd (d b : GReg) (m : LdMode) (i : BitVec 13) (s : State) : Host.Outcome State Fault Refusal :=
  execTask (fun s c =>
    let va := c.regs.memAddr b i m.bytes
    s.scalarSpan c .read va m.bytes (fun ts =>
      let n := ofBytes (s.loadBytes c (c.viewAt b) va ts)
      s.loaded c (c.regs.setFrom d (m.extend n) b))) s

/-- A store is held until the commit (R33, R235, R236). A tainted one carries what its address orders to the block's
later releases (R152). -/
def State.holdStore (s : State) (c : Ctx) (b : GReg) (va w n : Nat) : State :=
  s.scalarSpan c .write va w (fun ts =>
    if spanVers ts then s.versFault c va
    else
      s.setCtx { c with
        held := c.held ++ [(c.ip, .store (BitVec.ofNat 64 va) (ts.map (·.loc)) (toBytes w n) (c.viewAt b))]
        rel := unionNat c.rel (c.regs.rdTview b)
        ip := c.ip + 1
        stalled := none })

/-- `st` (R235). -/
def execSt (d b : GReg) (m : StMode) (i : BitVec 13) (s : State) : Host.Outcome State Fault Refusal :=
  execTask (fun s c => s.holdStore c b (c.regs.memAddr b i m.bytes) m.bytes (c.regs.rdG d).toNat) s

/-- The store that an `ldc` by `a` with view `v` returns for a location, where it is newer in the home's order than what an
ordinary load returns: the latest that happens before it or that a performed release to a scope of `a` covers. With it what
that release made available; a store that happens before the `ldc` names no release (R152, R238; log 7). -/
def State.consume (s : State) (a : Agent) (v : View) (l : Nat) : Option (StoreRec × View) :=
  let h := s.hbLatest v l
  let floor : Option Nat := match h with
    | none => some (match s.job? a.job with
      | some j => j.createdAt
      | none => 0)
    | some x => if x.2.placed = 0 then none else some x.2.placed
  match floor with
  | none => none
  | some t =>
    (upFrom 0 s.history.length).foldl (fun best i =>
      match s.history[i]? with
      | none => best
      | some r =>
        let named : Option View :=
          if !(r.covers l) || r.placed ≤ t then none
          else if v.contains i then some []
          else (s.releases.find? (fun x => a.inInst x.inst && x.view.contains i)).map (·.view)
        match named, best with
        | none, _ => best
        | some x, some (b, y) => if b.placed ≤ r.placed then some (r, x) else some (b, y)
        | some x, none => some (r, x)) none

/-- `ldc` (R238). -/
def execLdc (d b : GReg) (m : LdcMode) (i : BitVec 13) (s : State) : Host.Outcome State Fault Refusal :=
  execTask (fun s c =>
    let w := m.toLd.bytes
    let va := c.regs.memAddr b i w
    s.scalarSpan c .read va w (fun ts =>
      if spanVers ts then s.versFault c va
      else
        let v := c.viewAt b
        let got := ts.map (fun t =>
          match c.overlay t.loc with
          | some x => (x, ([] : View))
          | none =>
            match s.consume c.agent v t.loc with
            | some (r, rel) => (r.at_ t.loc, rel)
            | none => (s.readByte c.job v t.loc, []))
        let w := got.foldl (fun u p => unionNat u p.2) (c.regs.rdTview b)
        s.loaded c (c.regs.setG d (m.toLd.extend (ofBytes (got.map (·.1)))) true w))) s

/-- `fld`: the bits move unchanged (R239). -/
def execFld (d : FReg) (b : GReg) (m : FMode) (i : BitVec 13) (s : State) : Host.Outcome State Fault Refusal :=
  execTask (fun s c =>
    let va := c.regs.memAddr b i m.bytes
    s.scalarSpan c .read va m.bytes (fun ts =>
      s.loaded c (c.regs.setF d m.ffmt (ofBytes (s.loadBytes c (c.viewAt b) va ts))))) s

/-- `fst`: the bits move unchanged (R239). -/
def execFst (d : FReg) (b : GReg) (m : FMode) (i : BitVec 13) (s : State) : Host.Outcome State Fault Refusal :=
  execTask (fun s c => s.holdStore c b (c.regs.memAddr b i m.bytes) m.bytes (c.regs.codeF d m.ffmt)) s

end Sys2Proof.Machine
end

