-- ==== Sys2Proof/Machine/VersionOps.lean ====
section
/-! DEFINITION. Versioned loads, publications and queries (10_scalar_memory.md R240-R242). -/

namespace Sys2Proof.Machine

/-- The common checks of a version instruction: those of an access, and a versioned range (R240-R242). -/
def State.versSpan (s : State) (c : Ctx) (kind : AccKind) (va w : Nat) (k : SlotRef → State) : State :=
  s.scalarSpan c kind va w (fun ts =>
    match ts with
    | t :: _ => if spanVers ts then k (slotRef va t) else s.versFault c va
    | [] => s)

/-- A version number is read in bits 31:0. -/
def RegFile.verNum (r : RegFile) (i : GReg) : Nat := (r.rdG i).toNat % 2 ^ 32

/-- `vld` (R240): a version, whose publication it acquires, a wait or a fault. -/
def execVld (d a n : GReg) (m : LdMode) (mode : VMode) (s : State) : Host.Outcome State Fault Refusal :=
  execTask (fun s c =>
    let va := (c.regs.rdG a).toNat
    s.versSpan c .read va m.bytes (fun r =>
      let x := s.slotAt c.job r
      match vlook x mode (c.regs.verNum n) with
      | .gone => s.trapTask c 0x06 va (detailOf c.ip 0)
      | .skipped => s.trapTask c 0x07 va (detailOf c.ip 0)
      | .wait => s.parkTask c (.slot (BitVec.ofNat 64 va))
      | .version v =>
        let view := unionNat c.view (acquireFrom c.agent (x.relsTo v.num.toNat))
        s.setCtx { c with
          regs := c.regs.setPlain d (m.extend (ofBytes (v.bytes r.off m.bytes)))
          view := view
          ip := c.ip + 1
          stalled := none })) s

/-- `vpub` (R241): held; its checks against the slot are made at the commit. -/
def execVpub (d a n : GReg) (s : State) : Host.Outcome State Fault Refusal :=
  execTask (fun s c =>
    let va := (c.regs.rdG a).toNat
    s.versSpan c .write va 8 (fun _ =>
      let rel := unionNat c.rel (c.regs.rdTview a)
      s.setCtx { c with
        held := c.held ++ [(c.ip, .vpub (BitVec.ofNat 64 va) (c.regs.rdG d) (BitVec.ofNat 32 (c.regs.verNum n)) c.view rel)]
        rel := rel
        ip := c.ip + 1
        stalled := none })) s

/-- The address checks of a query name any byte of a slot (R242). -/
def State.querySpan (s : State) (c : Ctx) (a : GReg) (k : SlotRef → State) : State :=
  s.versSpan c .read (c.regs.rdG a).toNat 1 k

/-- `vretire`: held; neither releases nor acquires (R242). -/
def execVretire (a n : GReg) (s : State) : Host.Outcome State Fault Refusal :=
  execTask (fun s c =>
    s.querySpan c a (fun _ =>
      s.setCtx { c with
        held := c.held ++ [(c.ip, .vretire (c.regs.rdG a) (BitVec.ofNat 32 (c.regs.verNum n)))]
        ip := c.ip + 1
        stalled := none })) s

/-- `vfloor` (R242). -/
def execVfloor (d a : GReg) (s : State) : Host.Outcome State Fault Refusal :=
  execTask (fun s c =>
    s.querySpan c a (fun r => s.loaded c (c.regs.setPlain d (BitVec.ofNat 64 (s.slotAt c.job r).floor)))) s

/-- `vnewest` (R242). -/
def execVnewest (d a : GReg) (s : State) : Host.Outcome State Fault Refusal :=
  execTask (fun s c =>
    s.querySpan c a (fun r => s.loaded c (c.regs.setPlain d (BitVec.ofNat 64 (s.slotAt c.job r).newest)))) s

/-- `vstamp`: all ones when the version is not live (R242). -/
def execVstamp (d a n : GReg) (s : State) : Host.Outcome State Fault Refusal :=
  execTask (fun s c =>
    s.querySpan c a (fun r =>
      s.loaded c (c.regs.setPlain d
        (match (s.slotAt c.job r).version? (c.regs.verNum n) with
          | some v => v.stamp
          | none => BitVec.ofNat 64 (2 ^ 64 - 1))))) s

end Sys2Proof.Machine
end

