-- ==== Sys2Proof/Machine/Atomics.lean ====
section
/-! DEFINITION. Atomics and repeatable reductions: their checks at execution and what the block holds for its commit
(10_scalar_memory.md R243-R244). -/

namespace Sys2Proof.Machine

/-- An `amo` captures its operands (R243). -/
def execAmo (op : AmoOp) (d a b : GReg) (w : Bool) (o : AmoOrder) (sc : BitVec 3) (s : State) :
    Host.Outcome State Fault Refusal :=
  execTask (fun s c =>
    let va := (c.regs.rdG a).toNat
    s.scalarSpan c .atomic va (aluW w / 8) (fun ts =>
      if spanVers ts then s.versFault c va
      else
        s.setCtx { c with
          commitPt := some (c.ip, .amo op (BitVec.ofNat 64 va) w o sc.toNat (c.regs.rdG b) (c.regs.rdG d) d)
          rel := unionNat c.rel (c.regs.rdTview a)
          ip := c.ip + 1
          stalled := none })) s
where
  aluW (w : Bool) : Nat := if w then 32 else 64

/-- `amoadd` (R243). -/
def execAmoadd (d a b : GReg) (w : Bool) (o : AmoOrder) (sc : BitVec 3) (s : State) : Host.Outcome State Fault Refusal :=
  execAmo .add d a b w o sc s

/-- `amoand` (R243). -/
def execAmoand (d a b : GReg) (w : Bool) (o : AmoOrder) (sc : BitVec 3) (s : State) : Host.Outcome State Fault Refusal :=
  execAmo .and d a b w o sc s

/-- `amoor` (R243). -/
def execAmoor (d a b : GReg) (w : Bool) (o : AmoOrder) (sc : BitVec 3) (s : State) : Host.Outcome State Fault Refusal :=
  execAmo .or d a b w o sc s

/-- `amoxor` (R243). -/
def execAmoxor (d a b : GReg) (w : Bool) (o : AmoOrder) (sc : BitVec 3) (s : State) : Host.Outcome State Fault Refusal :=
  execAmo .xor d a b w o sc s

/-- `amomin` (R243). -/
def execAmomin (d a b : GReg) (w : Bool) (o : AmoOrder) (sc : BitVec 3) (s : State) : Host.Outcome State Fault Refusal :=
  execAmo .min d a b w o sc s

/-- `amomax` (R243). -/
def execAmomax (d a b : GReg) (w : Bool) (o : AmoOrder) (sc : BitVec 3) (s : State) : Host.Outcome State Fault Refusal :=
  execAmo .max d a b w o sc s

/-- `amominu` (R243). -/
def execAmominu (d a b : GReg) (w : Bool) (o : AmoOrder) (sc : BitVec 3) (s : State) : Host.Outcome State Fault Refusal :=
  execAmo .minu d a b w o sc s

/-- `amomaxu` (R243). -/
def execAmomaxu (d a b : GReg) (w : Bool) (o : AmoOrder) (sc : BitVec 3) (s : State) : Host.Outcome State Fault Refusal :=
  execAmo .maxu d a b w o sc s

/-- `amoswap` (R243). -/
def execAmoswap (d a b : GReg) (w : Bool) (o : AmoOrder) (sc : BitVec 3) (s : State) : Host.Outcome State Fault Refusal :=
  execAmo .swap d a b w o sc s

/-- `amocas` (R243). -/
def execAmocas (d a b : GReg) (w : Bool) (o : AmoOrder) (sc : BitVec 3) (s : State) : Host.Outcome State Fault Refusal :=
  execAmo .cas d a b w o sc s

/-- The checks of a reduction instruction (R244). -/
def State.redSpan (s : State) (c : Ctx) (a : GReg) (f32 : Bool) (k : Nat → State) : State :=
  let va := (c.regs.rdG a).toNat
  s.scalarSpan c .atomic va (redBytes f32) (fun ts => if spanVers ts then k va else s.versFault c va)

/-- `redf` (R244). -/
def execRedf (d a : GReg) (b : FReg) (f32 : Bool) (s : State) : Host.Outcome State Fault Refusal :=
  execTask (fun s c =>
    s.redSpan c a f32 (fun va =>
      let v := BitVec.ofNat 64 (bf (c.regs.rdF b).toNat 0 (8 * redBytes f32))
      s.setCtx { c with
        commitPt := some (c.ip, .redf (BitVec.ofNat 64 va) f32 ((c.regs.rdG d).toNat % 2 ^ 32) v)
        ip := c.ip + 1
        stalled := none })) s

/-- `redinit` (R244). -/
def execRedinit (a b : GReg) (f32 : Bool) (s : State) : Host.Outcome State Fault Refusal :=
  execTask (fun s c =>
    s.redSpan c a f32 (fun va =>
      let n := (c.regs.rdG b).toNat % 2 ^ 32
      if n = 0 || 65536 < n then s.trapTask c 0x05 va (detailOf c.ip 10)
      else
        s.setCtx { c with
          commitPt := some (c.ip, .redinit (BitVec.ofNat 64 va) f32 n)
          ip := c.ip + 1
          stalled := none })) s

end Sys2Proof.Machine
end

