-- ==== Sys2Proof/Machine/Sync.lean ====
section
/-! DEFINITION. Phases, barriers, timelines and station time in scalar code (10_scalar_memory.md R245-R248,
06_ordering.md R148-R149, R157). -/

namespace Sys2Proof.Machine

/-! ### Phases (R245) -/

/-- The instance of a scope that a phase instruction names, as the die knows it; one without arrivals faults. -/
def State.phaseSpan (s : State) (c : Ctx) (sc : BitVec 3) (k : PhaseAt → State) : State :=
  let i := c.agent.instOf sc.toNat
  if s.phaseShare c.job sc.toNat = 0 then s.trapTask c 0x05 0 (detailOf c.ip 8)
  else k (s.phaseAt i c.die)

/-- `phase`: held; no phase follows the last number (R245). -/
def execPhase (sc : BitVec 3) (s : State) : Host.Outcome State Fault Refusal :=
  execTask (fun s c =>
    s.phaseSpan c sc (fun p =>
      if p.p = 0xFFFFFFFF#32 then s.trapTask c 0x08 0 (detailOf c.ip 0)
      else s.setCtx { c with held := c.held ++ [(c.ip, .phase sc.toNat)], ip := c.ip + 1 })) s

/-- `pwait` (R149). -/
def execPwait (d : CReg) (a : GReg) (sc : BitVec 3) (s : State) : Host.Outcome State Fault Refusal :=
  execTask (fun s c =>
    s.phaseSpan c sc (fun p =>
      let n := (c.regs.rdG a).toNat % 2 ^ 32
      if p.p.toNat < n then s.parkTask c (.phase sc.toNat c.die p.at_.key n)
      else
        s.setCtx { c with
          regs := c.regs.setC d (decide (n < p.p.toNat))
          view := unionNat c.view p.acquired
          ip := c.ip + 1 })) s

/-- `pnum`: acquires nothing (R245). -/
def execPnum (d : GReg) (sc : BitVec 3) (s : State) : Host.Outcome State Fault Refusal :=
  execTask (fun s c =>
    s.phaseSpan c sc (fun p =>
      s.setCtx { c with regs := c.regs.setPlain d (BitVec.ofNat 64 p.p.toNat), ip := c.ip + 1 })) s

/-! ### Barriers (R246, R247) -/

def barNum (w : Word64) : Nat := bf w.toNat 0 10
def barDie (w : Word64) : Nat := bf w.toNat 10 2
def barErr (w : Word64) : Bool := bit w.toNat 12

/-- The checks of a barrier instruction (R246). `wild` numbers name no barrier and pass for `barr` alone. -/
def State.barSpan (s : State) (c : Ctx) (w : Word64) (wild : Bool) (k : State) : State :=
  if !s.live (barDie w) then s.trapTask c 0x1B 0 (detailOf c.ip 0)
  else if 768 ≤ barNum w then (if wild then k else s.trapTask c 0x05 0 (detailOf c.ip 9))
  else if (s.barrier (barDie w) (barNum w)).heldByOther c.job then s.trapTask c 0x05 0 (detailOf c.ip 9)
  else k

/-- `barm`: held (R246). -/
def execBarm (d a b : GReg) (s : State) : Host.Outcome State Fault Refusal :=
  execTask (fun s c =>
    let w := c.regs.rdG a
    s.barSpan c w false
      (s.setCtx { c with
        held := c.held ++ [(c.ip, .barm w (c.regs.rdG d) (BitVec.ofNat 32 (c.regs.rdG b).toNat))], ip := c.ip + 1 })) s

/-- `barr`: held (R246). -/
def execBarr (a b : GReg) (s : State) : Host.Outcome State Fault Refusal :=
  execTask (fun s c =>
    let w := c.regs.rdG a
    s.barSpan c w true
      (s.setCtx { c with held := c.held ++ [(c.ip, .barr w (weightOf (c.regs.rdG b).toNat))], ip := c.ip + 1 })) s

/-- `barw` (R247). -/
def execBarw (d : CReg) (a b : GReg) (s : State) : Host.Outcome State Fault Refusal :=
  execTask (fun s c =>
    let w := c.regs.rdG a
    let n := BitVec.ofNat 32 (c.regs.rdG b).toNat
    let x := s.barrier (barDie w) (barNum w)
    s.barSpan c w false
      (if x.passed n then
        s.setCtx { c with
          regs := c.regs.setC d x.lasterr
          view := unionNat c.view (acquireFrom c.agent ((x.rels.filter (fun r => genUpTo r.1 n)).map (·.2)))
          ip := c.ip + 1 }
      else s.parkTask c (.barrier (barDie w) (barNum w)))) s

/-! ### Timelines and station time (R248) -/

/-- The checks of a queue id in a register (R249). -/
def State.queueSpan (s : State) (c : Ctx) (q : Nat) (k : State) : State :=
  match s.queueFault c.job q with
  | some .dieLost => s.trapTask c 0x1B 0 (detailOf c.ip 0)
  | some _ => s.trapTask c 0x05 0 (detailOf c.ip 7)
  | none => k

/-- `tlwait` (R248). -/
def execTlwait (a b : GReg) (s : State) : Host.Outcome State Fault Refusal :=
  execTask (fun s c =>
    let q := (c.regs.rdG a).toNat % 2 ^ 16
    let n := (c.regs.rdG b).toNat
    s.queueSpan c q
      (let x := s.queue c.job q
      if n ≤ x.counter then
        s.setCtx { c with
          view := unionNat c.view (acquireFrom c.agent ((x.rels.filter (fun r => decide (r.1 ≤ n))).map (·.2)))
          ip := c.ip + 1 }
      else s.parkTask c (.timeline q n))) s

/-- `tlread`: acquires nothing (R248). -/
def execTlread (d a : GReg) (s : State) : Host.Outcome State Fault Refusal :=
  execTask (fun s c =>
    let q := (c.regs.rdG a).toNat % 2 ^ 16
    s.queueSpan c q
      (s.setCtx { c with
        regs := c.regs.setPlain d (BitVec.ofNat 64 (s.queue c.job q).counter), ip := c.ip + 1 })) s

/-- `stime` (R248). -/
def execStime (d : GReg) (s : State) : Host.Outcome State Fault Refusal :=
  execTask (fun s c => s.setCtx { c with regs := c.regs.setPlain d (s.die c.die).stime, ip := c.ip + 1 }) s

/-- `twait`: acquires nothing (R248). -/
def execTwait (a : GReg) (s : State) : Host.Outcome State Fault Refusal :=
  execTask (fun s c =>
    let t := (c.regs.rdG a).toNat
    if t ≤ (s.die c.die).stime.toNat then s.setCtx { c with ip := c.ip + 1 } else s.parkTask c (.time t)) s

/-! ### Steps of barriers, phases and waits -/

/-- BARRIER_ARRIVAL: one arrival of an agent of a job at a barrier of a die (R47), with what the agent has released. -/
def execBarrierArrival (job die num : Nat) (w : BitVec 32) (err : Bool) (agent : Nat) (s : State) :
    Host.Outcome State Fault Refusal :=
  let (view, rel) := s.viewOf job agent
  let a : Agent := { job := job, num := agent, die := bf agent 18 2, quarter := 4, region := none }
  let (r, s) := s.release a 4 view rel
  .next (s.arrive job die num (if w = 0 then 1 else w) err r)

/-- TWAIT_WAKE: station time has reached a parked task's time (R248), or its bank is open again (05_memory.md R128). -/
def execTwaitWake (job idx : Nat) (s : State) : Host.Outcome State Fault Refusal :=
  .next (match (s.aux job idx).park with
    | some (.time t) =>
      let die := s.taskDie ((s.taskRec job idx).getD 0)
      if t ≤ (s.die die).stime.toNat then s.makeReady job idx else s
    | some (.bank d t) => if t ≤ (s.die d).stime.toNat then s.makeReady job idx else s
    | _ => s)

/-- STAFF_SEND: a die whose share of a boundary has come in tells the others (R157). -/
def execStaffSend (job : Nat) (sc : BitVec 3) (die : Nat) (s : State) : Host.Outcome State Fault Refusal :=
  .next (if 4 ≤ sc.toNat && s.live die && (s.job? job).isSome then s.sendStaffs job sc.toNat die else s)

/-- STAFF_RECEIVE (R157). -/
def execStaffReceive (job : Nat) (sc : BitVec 3) (sdie ddie : Nat) (s : State) : Host.Outcome State Fault Refusal :=
  .next (if s.reach sdie ddie then s.receiveStaff job sc.toNat sdie ddie else s)

/-- SWITCH_BOUNDARY_COMPLETE: the external switch completes a window or world boundary on a die whose share is in
(R148). -/
def execSwitchBoundaryComplete (job : Nat) (sc : BitVec 3) (die : Nat) (s : State) : Host.Outcome State Fault Refusal :=
  let i : ScopeAt := { scope := sc.toNat, job := job, key := 0 }
  .next (if 6 ≤ sc.toNat && s.live die then s.switchComplete i die else s)

/-- EXTERNAL_SWITCH_RESULT: a merged atomic or contribution of a reduction window is applied at its home as one
(R142). What a switch still merges when its window's entry is cleared arrives like any other (20_host.md R386). The value
that a merged compare and swap expects is a free one (log 10). One that waits on its way to its home, or whose page is not
there, is not applied yet (log 95). -/
def execExternalSwitchResult (job : Nat) (a : Word64) (reduce w : Bool) (op : BitVec 4) (seq : BitVec 32) (v : Word64)
    (s : State) : Host.Outcome State Fault Refusal :=
  let va := a.toNat
  let amo : AmoOp := match op.toNat with
    | 0 => .add | 1 => .and | 2 => .or | 3 => .xor | 4 => .min | 5 => .max | 6 => .minu | 7 => .maxu | 9 => .cas | _ => .swap
  .next (match s.resident? job with
    | none => s
    | some j =>
      if reduce then
        match s.slotOf job va with
        | none => s.postEvent job 0 (reduceIndexEvent va seq.toNat)
        | some t =>
          s.sendContribution { job := job, va := a, target := t, f32 := w, index := seq.toNat, value := v, source := .switch }
      else
        let home := match s.translate j.ranges job .atomic va with
          | .ok t => t.home
          | .error _ => 0
        match s.access home job j.ranges .atomic va (if w then 4 else 8) with
        | .error (.page level cause, x) => s.miss { job := job, va := x, fault := some (level, cause) }
        | .error (.moving, x) => s.miss { job := job, va := x, fault := none }
        | .error (.data d pa, _) => s.eccHit d pa
        | .error _ => s
        | .ok ts =>
          if ts.any (fun t => rgVers t.entry) || va % (if w then 4 else 8) ≠ 0 then s
          else
            let ls := ts.map (·.loc)
            if s.wsHit ls then s.postEvent job (locDie (ls.headD 0)) { code := 0x15, srck := 4, addr := va }
            else
              let (k, s) := s.fresh
              let s := s.bumpWver job (ts.filterMap (·.leaf))
              (s.atomicAt (hwAgent job 4) (s.placedAt ls) [] ls amo v.toNat (Config.windowOld k).toNat .relaxed 0).2.2)

end Sys2Proof.Machine
end

