-- ==== Sys2Proof/Machine/TaskOps.lean ====
section
/-! DEFINITION. The task machine in scalar code: its instructions capture their operands (10_scalar_memory.md
R250-R252), and none faults at execution. Their effects at the commit stand in Commit.lean. -/

namespace Sys2Proof.Machine

/-- A task-machine operation is held until step 5 of the commit. -/
def execTaskOp (f : RegFile → TaskOp) (s : State) : Host.Outcome State Fault Refusal :=
  execTask (fun s c => s.setCtx { c with taskOps := c.taskOps ++ [f c.regs], ip := c.ip + 1 }) s

/-- `tdec` (R250). -/
def execTdec (a : GReg) (s : State) : Host.Outcome State Fault Refusal := execTaskOp (fun r => .dec (r.rdG a)) s

/-- `tspawn` (R250). -/
def execTspawn (a : GReg) (s : State) : Host.Outcome State Fault Refusal :=
  execTaskOp (fun r => .spawn ((r.rdG a).toNat % 2 ^ 16)) s

/-- `tset` (R251). -/
def execTset (a b : GReg) (s : State) : Host.Outcome State Fault Refusal :=
  execTaskOp (fun r => .set ((r.rdG a).toNat % 2 ^ 16) (r.rdG b)) s

/-- `tdeadline` (R250). -/
def execTdeadline (a b : GReg) (s : State) : Host.Outcome State Fault Refusal :=
  execTaskOp (fun r => .deadline (r.rdG a) (r.rdG b)) s

/-- `tcancel.task` (R252). -/
def execTcancelTask (a : GReg) (s : State) : Host.Outcome State Fault Refusal :=
  execTaskOp (fun r => .cancelTask (r.rdG a)) s

/-- `tcancel.launch` (R252). -/
def execTcancelLaunch (a : GReg) (s : State) : Host.Outcome State Fault Refusal :=
  execTaskOp (fun r => .cancelLaunch ((r.rdG a).toNat % 2 ^ 6)) s

/-- `tcancel.replay` (R252). -/
def execTcancelReplay (a : GReg) (s : State) : Host.Outcome State Fault Refusal :=
  execTaskOp (fun r => .cancelReplay (r.rdG a)) s

/-- `tcancel.phase` (R252). -/
def execTcancelPhase (sc : BitVec 3) (s : State) : Host.Outcome State Fault Refusal :=
  execTaskOp (fun _ => .cancelPhase sc.toNat) s

/-- `tcancel.job` (R252). -/
def execTcancelJob (s : State) : Host.Outcome State Fault Refusal := execTaskOp (fun _ => .cancelJob) s

/-- `trun` (R250). -/
def execTrun (a : GReg) (s : State) : Host.Outcome State Fault Refusal := execTaskOp (fun r => .run (r.rdG a)) s

end Sys2Proof.Machine
end

