-- ==== Sys2Proof/Machine/SystemOps.lean ====
section
/-! DEFINITION. Command issue and system instructions (10_scalar_memory.md R249, R253-R256). -/

namespace Sys2Proof.Machine

/-! ### Command issue (R249) -/

/-- A command is captured: bits 63:0 from g[P], bits 127:64 from g[P + 1]. -/
def State.captureCmd (s : State) (c : Ctx) (p q : GReg) (t : Option GReg) : State :=
  let qid := (c.regs.rdG q).toNat % 2 ^ 16
  s.queueSpan c qid
    (let w : CmdWord := BitVec.ofNat 128 ((c.regs.rdG p).toNat + (c.regs.rdG (p + 1)).toNat * 2 ^ 64)
    s.setCtx { c with issues := c.issues ++ [{ qid := qid, word := w, dest := t }], ip := c.ip + 1 })

/-- `scmd` (R249). -/
def execScmd (p q : GReg) (s : State) : Host.Outcome State Fault Refusal :=
  execTask (fun s c => s.captureCmd c p q none) s

/-- `scmdt` (R249). -/
def execScmdt (p q t : GReg) (s : State) : Host.Outcome State Fault Refusal :=
  execTask (fun s c => s.captureCmd c p q (some t)) s

/-! ### System registers (R253) -/

/-- STIME_EPS (22_bringup.md R412): 0 for the time reference. -/
def State.stimeEps (s : State) (d : Nat) : Nat :=
  if s.depot.reference = some d then 0
  else
    let v := (s.die d).servo
    let age := ((s.die d).stime.toNat - v.last.toNat) / 262144
    v.residue.natAbs + 32 + v.epsP + 16 * (age - 4)

/-- WSALMANAC: E of R128. -/
def State.wsAlmanac (s : State) (d : Nat) : Nat := (s.die d).stime.toNat / 512000 * 512000

/-- TRAPREC (R253): for the handler task, the event record at the ring's consumer position. -/
def State.trapRec (s : State) (c : Ctx) : Nat :=
  match s.job? c.job with
  | none => 0
  | some j =>
    if j.handler ≠ c.idx || j.handler = 0xFFFF then 0
    else
      match s.hwRead c.job j.evRing 16 with
      | none => 0
      | some h =>
        let prod := bf h 0 64
        let cons := bf h 64 64
        if prod ≤ cons then 0 else j.evRing + 64 + 64 * (cons % j.evCap)

/-- The value of a system register as a context reads it (R253, R254). -/
def State.sysReg (s : State) (c : Ctx) (n : Nat) : Nat :=
  let d := s.die c.die
  let j (f : Job → Nat) : Nat := match s.job? c.job with
    | some x => f x
    | none => 0
  match n with
  | 0x000 => d.stime.toNat
  | 0x001 => s.stimeEps c.die
  | 0x002 => d.cycle.toNat
  | 0x003 => c.die
  | 0x004 => s.livedies.toNat
  | 0x005 => d.orient.toNat
  | 0x006 => c.seq * 8 + c.ctx
  | 0x010 => c.job
  | 0x011 => c.gen * 2 ^ 16 + c.idx
  | 0x012 => j Job.taskTab
  | 0x013 => s.trapRec c
  | 0x014 => c.fpctlNow.toNat
  | 0x015 => j (fun x => x.f 584 56)
  | 0x016 => j (fun x => x.f 192 64)
  | 0x020 => s.wsAlmanac c.die
  | _ => 0

/-- TRAPREC of the handler task needs the header of the event ring. -/
def State.ringTouch (s : State) (c : Ctx) : State :=
  match s.job? c.job with
  | some j => if j.handler = c.idx then s.hwTouch c.job j.evRing 16 else s
  | none => s

/-- `sysrd` (R254). -/
def execSysrd (d : GReg) (n : BitVec 12) (s : State) : Host.Outcome State Fault Refusal :=
  execTask (fun s c =>
    let s := if n.toNat = 0x013 then s.ringTouch c else s
    s.setCtx { c with regs := c.regs.setPlain d (BitVec.ofNat 64 (s.sysReg c n.toNat)), ip := c.ip + 1 }) s

/-- `syswr`: FPCTL alone can be written; flags raised before it in the block are dropped (R254). -/
def execSyswr (a : GReg) (n : BitVec 12) (s : State) : Host.Outcome State Fault Refusal :=
  execTask (fun s c =>
    if n.toNat = 0x014 then
      let v := fpWrite c.regs.fpctl (BitVec.ofNat 16 (c.regs.rdG a).toNat)
      s.setCtx { c with regs := { c.regs with fpctl := v }, raised := 0, ip := c.ip + 1 }
    else s.trapTask c 0x0B 0 (detailOf c.ip 11)) s

/-- `trap` always faults, with USER (R255). -/
def execTrap (k : BitVec 12) (s : State) : Host.Outcome State Fault Refusal :=
  execTask (fun s c => s.trapTask c 0x0C 0 (detailOf c.ip 0 + k.toNat * 2 ^ 16)) s

/-- `halt`: for a privileged job alone; it takes effect after the commit (R256). -/
def execHalt (s : State) : Host.Outcome State Fault Refusal :=
  execTask (fun s c =>
    let priv : Bool := match s.job? c.job with
      | some j => bit j.record.toNat 8
      | none => false
    if priv then s.setCtx { c with halting := true, ip := c.ip + 1 }
    else s.trapTask c 0x0B 0 (detailOf c.ip 0)) s

end Sys2Proof.Machine
end

