-- ==== Sys2Proof/Machine/Commit.lean ====
section
/-! DEFINITION. How a block commits (02_execution.md R34, R39, 10_scalar_memory.md R232): the checks that can fail, then
registers, stores and held operations, the commit-point instruction, commands, task-machine operations and the exit. -/

namespace Sys2Proof.Machine

/-! ### Deadlines (R43) -/

def Die.count (d : Die) (f : Counters → Counters) : Die := { d with counters := f d.counters }

/-- DEADLINE_MISS, once for a generation (R43; its source is log 24), and whether MISSK then cancels the task. -/
def State.postMiss (s : State) (job i : Nat) : Bool × State :=
  match s.taskRec job i with
  | none => (false, s.recTouch job i)
  | some w =>
    let a := s.aux job i
    let die := s.taskDie w
    let now := (s.die die).stime.toNat
    if !recValid w || recState w = 4 || recState w = 5 || a.missed || recDeadline w = 0 || now ≤ recDeadline w then (false, s)
    else
      let s := s.setAux { a with missed := true }
      let s := s.setDie die ((s.die die).count (fun c => { c with dlmiss := c.dlmiss + 1 }))
      (bit w 445, s.postEvent job die { code := 0x19, srck := 5, index := i, gen := recGen w })

/-- A deadline that has passed is missed (R43). -/
def State.missDeadline (s : State) (job i : Nat) : State :=
  let (kill, s) := s.postMiss job i
  if kill then s.cancelTask job i else s

/-- DEADLINE_MISS (R43). -/
def execDeadlineMiss (job idx : Nat) (s : State) : Host.Outcome State Fault Refusal := .next (s.missDeadline job idx)

/-! ### Checks before any effect (R34) -/

/-- How a commit that cannot be made ends. -/
inductive CommitStop
  | fault (ip : Nat) (va : Nat) (kind : AccKind) (f : TFault)
  | exists_ (ip : Nat) (va : Nat)
  | poolFull (va : Word64)
  | spillFull (qid : Nat)
  deriving DecidableEq, Repr

/-- The first store or commit-point access that does not translate any more, or waits. -/
def State.commitAccess (s : State) (c : Ctx) : Option CommitStop :=
  let ranges := s.jobRanges c.job
  let bad (ip va n : Nat) (k : AccKind) : Option CommitStop :=
    match s.access c.die c.job ranges k va n with
    | .error f => some (.fault ip va k f.1)
    | .ok _ => none
  match c.held.findSome? (fun h =>
      match h.2 with
      | .store va _ bs _ => bad h.1 va.toNat bs.length .write
      | .vpub va _ _ _ _ => bad h.1 va.toNat 8 .write
      | _ => none) with
  | some x => some x
  | none =>
    match c.commitPt with
    | some (ip, .amo _ va w32 _ _ _ _ _) => bad ip va.toNat (if w32 then 4 else 8) .atomic
    | some (ip, .redf va f32 _ _) => bad ip va.toNat (redBytes f32) .atomic
    | some (ip, .redinit va f32 _) => bad ip va.toNat (redBytes f32) .atomic
    | none => none

/-- The block's publications and phase arrivals, tried one after another on a copy of the slots and phases (R241,
06_ordering.md R148). -/
def State.commitPubs (s : State) (a : Agent) : List (Nat × HeldOp) → Option CommitStop
  | [] => none
  | (ip, .phase sc) :: rest =>
    if (s.phaseAt (a.instOf sc) a.die).p = 0xFFFFFFFF#32 then some (.exists_ ip 0)
    else
      (s.phaseArrive (a.instOf sc) a.die { by_ := a, inst := a.instOf sc, view := [] }).commitPubs a rest
  | (ip, .vpub va _ n _ _) :: rest =>
    match s.slotOf a.job va.toNat with
    | none => s.commitPubs a rest
    | some r =>
      let x := s.slotAt a.job r
      match pubCheck x r.entry n.toNat with
      | .exists_ => some (.exists_ ip va.toNat)
      | .full => some (.poolFull va)
      | .ok =>
        let v : Version := { num := n, stamp := 0, retired := 0, data := [] }
        let s := s.setSlot { x with live := reclaimLive (rgQ r.entry) (x.live ++ [v]) }
        s.commitPubs a rest
  | _ :: rest => s.commitPubs a rest

/-- The queue that has no room for one of the block's commands (R45): they are issued one after another on a copy of the
queues, so that a slot which one context receives is taken for the next (R46). -/
def State.commitSpill (s : State) (job : Nat) : List Issue → Option CommitStop
  | [] => none
  | x :: xs =>
    if s.room job x.qid = 0 then some (.spillFull x.qid) else (s.issue job x.qid x.word 0 0 [] none).2.commitSpill job xs

def State.commitStop (s : State) (c : Ctx) : Option CommitStop :=
  match s.commitAccess c with
  | some x => some x
  | none =>
    match s.commitPubs c.agent c.held with
    | some x => some x
    | none =>
      s.commitSpill c.job c.issues

/-- What becomes of the task when its commit cannot be made (R34, R35). DESIGN CHOICE: no rule gives SRCK, INDEX and DETAIL
of CMD_OVERFLOW; they are those of the queue's other events, SRCK 1 with the region or SRCK 3 with the queue id, and DETAIL 0
(log 24). -/
def State.stopCommit (s : State) (c : Ctx) (x : CommitStop) : State :=
  match x with
  | .fault ip va k f => s.accessFault { c with ip := ip } va k f
  | .exists_ ip va => s.trapTask c 0x08 va (detailOf ip 0)
  | .poolFull va => s.parkTask c (.pool va)
  | .spillFull q =>
    let x := s.queue c.job q
    let s := s.parkTask c (.spill q)
    if x.overflowed then s
    else
      let s := s.setQueue { (s.queue c.job q) with overflowed := true }
      s.postEvent c.job c.die { code := 0x09, srck := (queueSource q).1, index := (queueSource q).2 }

/-! ### Step 2: stores and held operations -/

/-- An ordinary store to word 0 of a valid record leaves that record's word 0 undefined (R24; log 10). -/
def State.recordHit (s : State) (job va n : Nat) : State :=
  match s.job? job with
  | none => s
  | some j =>
    if va < j.taskTab then s
    else
      let i := (va - j.taskTab) / 128
      let o := (va - j.taskTab) % 128
      if i < j.tasks && o < 8 && n ≤ 8 && bit ((s.taskRec job i).getD 0) 63 then
        let (k, s) := s.fresh
        s.setWord0 job i (Config.recordWord k).toNat
      else s

/-- A store of the block gets its place in the task's order. A release brings it to its home (06_ordering.md R146); what
goes to a weight store arrives there with the commit (10_scalar_memory.md R237; log 98). `own` are the block's stores so
far. -/
def State.commitStore (s : State) (c : Ctx) (own : View) (va : Word64) (bs : List Byte) (view : View) : View × State :=
  match s.access c.die c.job (s.jobRanges c.job) .write va.toNat bs.length with
  | .error _ => (own, s)
  | .ok ts =>
    let (i, s) := s.addStore c.agent (cells (ts.map (·.loc)) bs) (unionNat view own) true
      (some { die := c.die, idx := c.idx, pc := c.pc, va := va, path := (ts.flatMap (·.path)).eraseDups,
              leaves := ts.filterMap (·.leaf) })
    let s := if ts.any (fun t => (wsDie? t.loc).isSome) then s.place i else s
    (insertNat i own, s.recordHit c.job va.toNat bs.length)

/-- A publication of the block: it releases the stores before it, and creates the version (R241). -/
def State.commitPub (s : State) (c : Ctx) (own : View) (va value : Word64) (n : BitVec 32) (view rel : View) : State :=
  match s.slotOf c.job va.toNat with
  | none => s
  | some r =>
    let (rl, s) := s.release c.agent (rgScope r.entry) (unionNat view own) rel
    s.createVersion c.job r (s.slotHome r) n.toNat (cells (upFrom r.off 8) (toBytes 8 value.toNat)) rl

/-- `st`, `fst` and `vpub` in program order; the block's stores. -/
def State.commitStores (s : State) (c : Ctx) : List (Nat × HeldOp) → View → View × State
  | [], own => (own, s)
  | (_, h) :: rest, own =>
    match h with
    | .store va _ bs view =>
      let (own, s) := s.commitStore c own va bs view
      s.commitStores c rest own
    | .vpub va value n view rel => (s.commitPub c own va value n view rel).commitStores c rest own
    | _ => s.commitStores c rest own

/-- `vretire`, `phase`, `barm` and `barr`, after every store of the block (R232). -/
def State.commitHeld (s : State) (c : Ctx) (view : View) (h : HeldOp) : State :=
  match h with
  | .vretire va n =>
    match s.slotOf c.job va.toNat with
    | some r => s.retire c.job r n.toNat
    | none => s
  | .phase sc =>
    let (r, s) := s.release c.agent sc view c.rel
    s.phaseArrive (c.agent.instOf sc) c.die r
  | .barm w notify expect =>
    s.armBarrier c.job (barDie w) (barNum w) expect
      (if bit notify.toNat 32 then some (bf notify.toNat 0 16, bf notify.toNat 16 16) else none)
  | .barr w wt =>
    let (r, s) := s.release c.agent 4 view c.rel
    s.arrive c.job (barDie w) (barNum w) wt (barErr w) r
  | _ => s

/-! ### Step 3: the commit-point instruction -/

/-- The commit-point instruction at its home (R154, R140). A reduction's word lies in a versioned slot, to which no ordinary
store of the task goes, so none takes its place before it (05_memory.md R138). One addressed to a reduction window goes to the external
switch, and what an `amo` there returns is a free value (R142; log 10). A `redinit` there opens the reduction at its home for the one
merged contribution that the switch sends (log 96). -/
def State.commitPoint (s : State) (c : Ctx) : Ctx × State :=
  match c.commitPt with
  | none => (c, s)
  | some (_, .amo op va w32 o sc b x d) =>
    let n := if w32 then 4 else 8
    let put (c : Ctx) (old : Nat) : Ctx :=
      { c with regs := c.regs.setPlain d (if w32 then sext64 old 32 else BitVec.ofNat 64 old) }
    if (s.windowOf c.job va.toNat).isSome then
      let (k, s) := s.fresh
      let s := if o = .rel || o = .acqrel then (s.release c.agent sc c.view c.rel).2 else s
      (put c ((Config.windowOld k).toNat % 2 ^ (8 * n)), s)
    else
      match s.access c.die c.job (s.jobRanges c.job) .atomic va.toNat n with
      | .error _ => (c, s)
      | .ok ts =>
        let ls := ts.map (·.loc)
        let (old, view, t) := s.atomicAt c.agent c.view c.rel ls op b.toNat x.toNat o sc
        let stores := amoStores op old (x.toNat % 2 ^ (8 * n))
        let t :=
          if !stores then t
          else if s.wsHit ls then
            t.postEvent c.job c.die { code := 0x15, srck := 4, index := c.idx, pc := c.pc.toNat, addr := va.toNat }
          else t.bumpWver c.job (ts.filterMap (·.leaf))
        (put { c with view := view } old, t)
  | some (_, .redf va f32 ix v) =>
    match s.windowOf c.job va.toNat, s.slotOf c.job va.toNat with
    | none, some t =>
      (c, s.sendContribution { job := c.job, va := va, target := t, f32 := f32, index := ix, value := v,
                               source := .task c.idx c.gen })
    | _, _ => (c, s)
  | some (_, .redinit va f32 n) =>
    match s.slotOf c.job va.toNat with
    | some t =>
      let n := if (s.windowOf c.job va.toNat).isSome then 1 else n
      (c, s.openRed c.job va.toNat t f32 n c.agent (unionNat c.view c.rel))
    | none => (c, s)

/-! ### Step 4: commands -/

/-- One command is issued; it releases the task's stores toward the command (R249, R146). -/
def State.commitIssue (s : State) (c : Ctx) (x : Issue) : Ctx × State :=
  let w := (s.taskRec c.job c.idx).getD 0
  let s := s.placeOwn c.job c.num c.view
  let (n, s) := s.issue c.job x.qid x.word (recClass w) (BitVec.ofNat 64 (recDeadline w)) (unionNat c.view c.rel) none
  match x.dest with
  | some t => ({ c with regs := c.regs.setPlain t (BitVec.ofNat 64 n) }, s)
  | none => (c, s)

/-! ### Step 5: task-machine operations (R250-R252) -/

/-- A record whose VALID is cleared leaves every queue; a context that runs it stops at the end of its block (R251). -/
def State.clearTask (s : State) (job i : Nat) : State :=
  match s.taskRec job i with
  | none => s.recTouch job i
  | some w =>
    let s := s.setWord0 job i (putField (w % 2 ^ 64) 63 1 0)
    if recState w = 2 then s
    else
      let s := s.dequeue { job := job, idx := i }
      let s := [0, 1, 2, 3].foldl (fun s d =>
        let x := s.die d
        s.setDie d { x with faults := x.faults.filter (fun f =>
          !(f.job == job && (f.src == .task i || f.src == .fetch i))) }) s
      s.setAux { s.aux job i with park := none }

/-- What the machine keeps of a task is new with its generation. -/
def State.freshAux (s : State) (job i : Nat) : State :=
  s.setAux { job := job, idx := i, saved := none, park := none, missed := false, owesOF := false, node := none,
             startedIn := [] }

/-- `tset` (R251, R24): it releases, to package scope, the task's stores to the record's bytes. -/
def State.taskSet (s : State) (c : Ctx) (i : Nat) (v : Word64) : State :=
  match s.job? c.job, s.taskRec c.job i with
  | some j, some w =>
    let ls := (s.hwLocs c.job (j.recVa i) 128).getD []
    let mine := c.view.filter (fun k =>
      match s.history[k]? with
      | some r => r.job == c.job && r.agent == c.num && ls.any r.covers
      | none => false)
    let s := mine.foldl State.place s
    let rl : Release := { by_ := c.agent, inst := c.agent.instOf 4, view := mine }
    let s := { s with releases := s.releases ++ [rl] }
    let g := bf v.toNat 32 16
    if !bit v.toNat 63 then s.clearTask c.job i
    else if bit w 63 then s.postDead c.job c.die i g 4
    else if g = recGen w then s.postDead c.job c.die i g 3
    else
      let ready := bf v.toNat 0 32 = 0
      let w' := putField (putField v.toNat 50 6 c.job) 56 4 (if ready then 1 else 0)
      let s := (s.setWord0 c.job i w').freshAux c.job i
      if ready then s.enqueue (s.taskDie w') { job := c.job, idx := i } else s
  | _, _ => (s.recTouch c.job i).postDead c.job c.die i (bf v.toNat 32 16) 0

/-- `tspawn` (R250). -/
def State.taskSpawn (s : State) (c : Ctx) (i : Nat) : State :=
  match s.taskRec c.job i with
  | some w =>
    if bit w 63 then s.postDead c.job c.die i 0 2
    else
      let w0 := putField (putField (putField (putField (w % 2 ^ 64) 63 1 1) 32 16 (recGen w + 1)) 0 32 0) 56 4 1
      let s := (s.setWord0 c.job i w0).freshAux c.job i
      s.enqueue (s.taskDie w0) { job := c.job, idx := i }
  | none => (s.recTouch c.job i).postDead c.job c.die i 0 2

/-- `tdeadline` (R250): the ready queue reorders. A task that sets its own deadline to a past time misses it, and is
cancelled after its block (R51). -/
def State.taskDeadline (s : State) (c : Ctx) (i g : Nat) (d : Word64) : State :=
  match s.job? c.job, s.taskRec c.job i with
  | some j, some w =>
    if !recValid w || recGen w ≠ g then s.postDead c.job c.die i g 0
    else
      let s := s.hwWrite c.job (j.recVa i + 24) 8 d.toNat
      let die := s.taskDie w
      let x := s.die die
      let e : ReadyEntry := { job := c.job, idx := i }
      let s :=
        if x.ready.contains e then
          let r := x.ready.filter (· != e)
          s.setDie die { x with ready := s.insertReady e r }
        else s
      if i = c.idx then (s.postMiss c.job i).2 else s.missDeadline c.job i
  | _, _ => (s.recTouch c.job i).postDead c.job c.die i g 0

/-- A cancel that names a level which holds the issuing task: it takes effect after the block (R252). -/
def State.selfCancel (s : State) (c : Ctx) (x : TaskOp) : Bool :=
  match x with
  | .cancelTask t => bf t.toNat 0 16 == c.idx && bf t.toNat 16 16 == c.gen
  | .cancelReplay va =>
    match (s.aux c.job c.idx).node with
    | some (v, _) => v == va && (s.replayOf c.job va).isSome
    | none => false
  | .cancelPhase sc =>
    let i := c.agent.instOf sc
    (s.aux c.job c.idx).startedIn.contains (i, (s.phaseAt i c.die).p.toNat)
  | .cancelJob => true
  | _ => false

/-- A task-machine operation (R250, R252). -/
def State.taskOp (s : State) (c : Ctx) (x : TaskOp) : State :=
  match x with
  | .dec t => s.notify c.job c.die (bf t.toNat 0 16) (bf t.toNat 16 16)
  | .spawn i => s.taskSpawn c i
  | .set i v => s.taskSet c i v
  | .deadline t d => s.taskDeadline c (bf t.toNat 0 16) (bf t.toNat 16 16) d
  | .cancelTask t =>
    let i := bf t.toNat 0 16
    let g := bf t.toNat 16 16
    match s.taskRec c.job i with
    | some w => if recValid w && recGen w == g then s.cancelTask c.job i else s.postDead c.job c.die i g 0
    | none => (s.recTouch c.job i).postDead c.job c.die i g 0
  | .cancelLaunch v => s.cancelLaunch c.job v
  | .cancelReplay va => s.cancelReplay c.job va
  | .cancelPhase sc => s.cancelPhase (c.agent.instOf sc) c.die
  | .cancelJob => s.cancelJob c.job
  | .run va => s.requestReplay c.job va c.die

/-! ### Step 6: the exit -/

/-- The address of the block behind the current one (09_scalar_compute.md, Exits). -/
def Ctx.fall (c : Ctx) : Word64 :=
  let n := c.words.length
  c.pc + BitVec.ofNat 64 ((4 * n + 15) / 16 * 16)

/-- A context between two blocks of its task: its registers are those of the last commit. -/
def Ctx.between (c : Ctx) (pc : Word64) : Ctx :=
  { c with pc := pc, words := [], ip := 0, base := c.regs, raised := 0, baseView := c.view, baseRel := c.rel, held := [],
           commitPt := none, issues := [], taskOps := [], halting := false, stalled := none }

/-- `done` (R39): STATE becomes DONE, NEN's target is notified, and the walker is told. -/
def State.taskDone (s : State) (c : Ctx) : State :=
  let s := (s.dropCtx c).setView c.job c.num c.view c.rel
  match s.taskRec c.job c.idx with
  | none => s.recTouch c.job c.idx
  | some w =>
    if !s.lives c then s
    else
      let a := s.aux c.job c.idx
      let s := s.setWord0 c.job c.idx (putField (w % 2 ^ 64) 56 4 4)
      let s := s.setAux { a with saved := none, owesOF := false }
      let s := if bit w 383 then s.notify c.job c.die (bf w 320 16) (bf w 336 16) else s
      match a.node with
      | some (va, k) => s.nodeReady c.job va k (unionNat c.view c.rel)
      | none => s

/-- The task goes on at a block: on its context, or, when it has been cleared, not at all (R251). -/
def State.goOn (s : State) (c : Ctx) (pc : Word64) : State :=
  if s.lives c then s.setCtx (c.between pc) else s.saveAndFree c c.regs pc c.view c.rel

/-- The task gives its context up and is READY at a block (R39 `yield`, R42, R256). -/
def State.requeue (s : State) (c : Ctx) (pc : Word64) (behind : Bool) : State :=
  let s := s.saveAndFree c c.regs pc c.view c.rel
  if !s.lives c then s
  else
    let s := s.setTaskState c.job c.idx 1
    let die := s.taskDie ((s.taskRec c.job c.idx).getD 0)
    if behind then s.enqueueYield die { job := c.job, idx := c.idx } else s.enqueue die { job := c.job, idx := c.idx }

/-- A running block aborts because its context is taken away: its task is READY again (R35, R42). -/
def State.takeAway (s : State) (c : Ctx) : State :=
  s.requeue { c with regs := c.base, view := c.baseView, rel := c.baseRel } c.pc false

/-- `halt` takes effect: the die stops dispatching, and every running block on it aborts (R256). -/
def State.haltDie (s : State) (d : Nat) : State :=
  let x := s.die d
  let s := s.setDie d { x with stopped := true }
  (s.ctxs.filter (fun c => c.die == d)).foldl (fun s c => s.takeAway c) s

def State.exitBlock (s : State) (c : Ctx) (e : Exit) : State :=
  match e with
  | .goto pc => s.goOn c pc
  | .yield => s.requeue c c.fall true
  | .done => s.taskDone c

/-! ### The commit -/

/-- FPCTL with the flags of the block, and an overflow that a reduction owes (R105, R244). -/
def State.commitFlags (s : State) (c : Ctx) : Ctx × State :=
  let a := s.aux c.job c.idx
  let fl := c.fpctlNow ||| (if a.owesOF then BitVec.ofNat 16 OF else 0)
  ({ c with regs := { c.regs with fpctl := fl }, raised := 0 },
    if a.owesOF then s.setAux { a with owesOF := false } else s)

def State.foldIssues (s : State) (c : Ctx) : List Issue → Ctx × State
  | [] => (c, s)
  | x :: xs =>
    let (c, s) := s.commitIssue c x
    s.foldIssues c xs

/-- The effects of a commit, in the order of R34. The context stays in place until the exit, so that what looks at
running tasks finds it. DESIGN CHOICE: a task with MISSK = 1 that sets its own deadline to a past time in a block that ends
in `done` stays DONE, since its cancelling comes after the block and finds a task that has ended (R43, R51, R252; log 99). -/
def State.commitEffects (s : State) (c : Ctx) (e : Exit) : State :=
  let (c, s) := s.commitFlags c
  let (own, s) := s.commitStores c c.held []
  let c := { c with view := unionNat c.view own }
  let s := c.held.foldl (fun s h => s.commitHeld c c.view h.2) s
  let (c, s) := s.commitPoint c
  let (c, s) := s.foldIssues c c.issues
  let self := c.taskOps.filter (s.selfCancel c)
  let had := (s.aux c.job c.idx).missed
  let s := (c.taskOps.filter (fun x => !(s.selfCancel c x))).foldl (fun s x => s.taskOp c x) s
  let kill := !had && (s.aux c.job c.idx).missed && bit ((s.taskRec c.job c.idx).getD 0) 445
  let s := s.exitBlock c e
  let s := (if kill then s.cancelTask c.job c.idx else s).reportRefused
  let s := self.foldl (fun s x => s.taskOp c x) s
  if c.halting then s.haltDie c.die else s

/-- The block of a context reaches its exit (R34). -/
def State.commit (s : State) (c : Ctx) (e : Exit) : State :=
  match s.commitStop c with
  | some x => s.stopCommit c x
  | none => s.commitEffects c e

end Sys2Proof.Machine
end

