-- ==== Sys2Proof/Machine/Commands.lean ====
section
/-! DEFINITION. How commands start and finish (08_encodings.md R191-R192, 11_stream_commands.md R257-R265), what a
running command does alike (R261), and the commands of every queue (R282). -/

namespace Sys2Proof.Machine

/-! ### Kinds of commands -/

/-- The queue kinds that accept an opcode (R191). -/
def queueTakes (opcode kind : Nat) : Bool :=
  if 0x1C ≤ opcode && opcode ≤ 0x1E then true
  else if 5 ≤ opcode && opcode ≤ 7 then kind == 1
  else if opcode == 0x10 || opcode == 0x11 then kind == 5
  else if 0x12 ≤ opcode && opcode ≤ 0x15 then kind == 6
  else if opcode == 0x18 || opcode == 0x19 then kind == 3
  else if opcode == 0x1A then kind == 4
  else if opcode == 0x1B then kind == 2
  else kind == 0

/-! ### Check 4 of R192 (R262) -/

/-- A port of the command's kind, while the region holds an armed formation. -/
def State.portFits (s : State) (job v p kind : Nat) : Bool :=
  match s.region? job v with
  | none => true
  | some r =>
    if !r.state.holdsTiles then true
    else
      match r.body.ports[p]? with
      | some x => x.kind == kind
      | none => false

/-- The field checks of a command on queue `q` with number `tln` (R262). -/
def State.fieldsOk (s : State) (job q tln : Nat) (i : Instr) : Bool :=
  let bound (r : BitVec 6) : Bool := bit (s.reloc job r.toNat) 63
  let al (a : BitVec 56) (n : Nat) : Bool := a.toNat % n == 0
  let small (b : BitVec 36) (n : Nat) : Bool := decide (b.toNat < 2 ^ n)
  let span (b : BitVec 36) : Bool :=
    let units := bf b.toNat 20 16
    1 ≤ units && units ≤ 16384 && bf b.toNat 0 6 == 0 && bf b.toNat 6 14 + units ≤ 16384
  match i with
  | .load _ r p _ b a => bound r && b.toNat % 64 == 0 && 64 ≤ b.toNat && al a 64 && s.portFits job r.toNat p.toNat 0
  | .store _ r p b a => bound r && b.toNat % 64 == 0 && 64 ≤ b.toNat && al a 64 && s.portFits job r.toNat p.toNat 1
  | .publish _ r p b _ => bound r && small b 32 && s.portFits job r.toNat p.toNat 2
  | .vload _ r p m _ b _ => bound r && m != 3 && small b 32 && s.portFits job r.toNat p.toNat 2
  | .copy _ a => al a 32
  | .copyv _ a => al a 32
  | .fill _ a => al a 32
  -- an arm of an arm list, which stands under number 0, meets an unbound region in step 1 (18_arming.md R354, R358)
  | .arm _ r _ a => (tln == 0 || bound r) && al a 64
  | .disarm _ r => bound r
  | .config _ r p b a =>
    bound r && 1 ≤ b.toNat && b.toNat ≤ 256 && al a 64 && s.portFits job r.toNat p.toNat 0
  | .stop _ r => bound r
  | .marker _ r b => bound r && small b 32
  | .snap _ r _ a => bound r && al a 64
  | .resume _ r _ a => bound r && al a 64
  | .hang _ r b a => bound r && small b 16 && al a 64
  | .wsload _ b _ => span b
  | .wsread _ b _ => span b
  | .berthfill _ b _ => small b 16
  | .berthevict _ _ b _ => small b 16
  | .berthpin _ _ b => small b 16
  | .berthfree _ b => small b 16
  | .txload _ _ a => al a 64
  | .txrun _ b a => 1 ≤ b.toNat && b.toNat ≤ 65536 && al a 32
  | .encode _ _ b a => small b 32 && al a 32
  | .coll _ b a => small b 32 && al a 32
  | .notify _ => true
  | .bwait _ b n => small b 12 && n.toNat < 2 ^ 32
  | .tlwaitq _ b n => small b 16 && !(b.toNat == q && tln ≤ n.toNat)
  | _ => false

/-- The checks of R192 in order: the number of the first that fails. -/
def State.headCheck (s : State) (job q : Nat) (c : Cmd) : Option Nat :=
  if !cmdAssigned c.op then some 1
  else if !queueTakes c.op (qKind q) then some 2
  else
    match decodeCmd c.word with
    | .error k => some k
    | .ok i => if s.fieldsOk job q c.tln i then none else some 4

/-! ### Start conditions (R258, R263-R265, R342) -/

/-- Commands that must not be outstanding: those with AFTER and those that R258 lists. -/
def Cmd.alone (c : Cmd) : Bool :=
  c.head.after || c.op == 0x08 || c.op == 0x09 || c.op == 0x0D || c.op == 0x0E || c.op == 0x18 || c.op == 0x19 ||
    c.op == 0x1C

/-- A started data command of a launch that a stop interrupted counts as completed for `snap`, `resume` and `disarm` of
its region (R342). -/
def State.countsDone (s : State) (job q : Nat) (c d : Cmd) : Bool :=
  (c.op == 0x09 || c.op == 0x0D || c.op == 0x0E) && isData d.op && c.region == d.region &&
    (match s.region? job c.region with
      | some r => (r.state == .stopped || r.state == .saved) && (r.launch.getD []).contains (q, d.tln)
      | none => false)

/-- Every earlier command has completed where the command needs that; a berth queue runs one command at a time
(R271). -/
def State.orderOk (s : State) (job q : Nat) (c : Cmd) : Bool :=
  !(c.alone || qKind q == 6) || (s.queue job q).started.all (s.countsDone job q c)

/-- The lanes of a transducer run (R275). -/
def TxRun.claims (r : TxRun) (lane : Nat) : Bool := r.lane ≤ lane && lane < r.lane + r.lanes

/-- Another context's transducer run has claimed the lane of the queue (R275). -/
def State.laneTaken (s : State) (job q : Nat) : Bool :=
  qKind q == 3 && s.txruns.any (fun r => !(r.job == job && r.qid == q) && qDie r.qid == qDie q && r.claims (qNum q))

/-- What comes of a command that is next to be taken. -/
inductive Taking
  | wait
  /-- a data command that waits for space at its port -/
  | portFull
  | reject (check : Nat)
  /-- it starts and fails at once: PROTECT, REGION (R265) -/
  | wrongState
  | go
  deriving DecidableEq, Repr

/-- Where a data command or `config` meets its region (R263-R265, R270, 21_paging.md R400). -/
def State.dataTaking (s : State) (job : Nat) (c : Cmd) : Taking :=
  match s.region? job c.region with
  | none => .wrongState
  | some r =>
    if !r.state.holdsTiles then .wrongState
    else if !isData c.op then .go
    else
      let held : Bool := match s.job? job with
        | some j => j.held
        | none => true
      if held || (r.state == .armed && hasWsport r && s.wsCommand r.die 0x10) then .wait
      else
        match r.body.ports[c.port]? with
        | some p => if Config.portQueue ≤ p.cmds.length then .portFull else .go
        | none => .go

def State.taking (s : State) (job q : Nat) (c : Cmd) : Taking :=
  match s.headCheck job q c with
  | some k => .reject k
  | none =>
    if !s.orderOk job q c || s.laneTaken job q then .wait
    else if isData c.op || c.op == 0x0A then s.dataTaking job c
    else .go

/-- The first control command that only data commands stand before (R265; log 26). -/
def firstControl : Nat → List Cmd → Option (Nat × Cmd)
  | _, [] => none
  | k, c :: cs => if isControl c.op then some (k, c) else if isData c.op then firstControl (k + 1) cs else none

/-- A started control command has its effect before a later command of its context starts, but for a `marker` that
waits for its cut (R265, R57; log 47). -/
def State.holdsBack (s : State) (job : Nat) (c : Cmd) : Bool :=
  isControl c.op && c.phase == .running &&
    !(c.op == 0x0C && (c.progress != 0 || (s.region? job c.region).any (fun r => r.preempt.isSome)))

/-- The command of a context that is taken next, its place in the queue, and what comes of it. -/
def State.candidate (s : State) (job q : Nat) : Option (Nat × Cmd × Taking) :=
  let x := s.queue job q
  let stuck := x.started.any (fun c => match c.phase with
    | .faulted _ _ => true
    | _ => s.holdsBack job c)
  if x.hold.isSome || stuck || (s.resident? job).isNone then none
  else
    match x.onChip with
    | [] => none
    | c :: cs =>
      match s.taking job q c with
      | .wait => none
      | .portFull =>
        match firstControl 1 cs with
        | some (k, d) =>
          match s.taking job q d with
          | .wait => none
          | t => some (k, d, t)
        | none => none
      | t => some (0, c, t)

/-- Order of R40 between commands of two contexts, by the keys of R261. -/
def cmdKey (c : Cmd) : Nat × Nat :=
  if c.head.inherit then (c.cls, if c.deadline = 0 then 2 ^ 64 - 1 else c.deadline.toNat) else (0, 2 ^ 64 - 1)

def cmdBefore (a b : Nat × Cmd) : Bool :=
  let x := cmdKey a.2
  let y := cmdKey b.2
  if x.1 ≠ y.1 then decide (y.1 < x.1)
  else if x.2 ≠ y.2 then decide (x.2 < y.2)
  else decide (a.1 < b.1)

/-- The engine takes this context's command before those of other jobs (R257). -/
def State.winsEngine (s : State) (job q : Nat) (c : Cmd) : Bool :=
  qKind q == 0 || s.queues.all (fun y =>
    y.job == job || y.qid != q ||
      (match s.candidate y.job q with
        | some (_, d, _) => cmdBefore (job, c) (y.job, d)
        | none => true))

/-! ### Starting (R258) -/

/-- A data command joins the launch of its region, which it begins while the region is ARMED; `config`s that have
started already belong to it (R264). -/
def State.joinLaunch (s : State) (job q : Nat) (c : Cmd) : State :=
  match s.region? job c.region with
  | none => s
  | some r =>
    let me := (q, c.tln)
    let r := { r with launch := some ((r.launch.getD []) ++ [me]), nodes := r.nodes ++ c.node.toList }
    if !isData c.op then s.setRegion r
    else
      let r := { r with body := { r.body with ports :=
        match r.body.ports[c.port]? with
        | some p => r.body.ports.set c.port { p with cmds := p.cmds ++ [me] }
        | none => r.body.ports } }
      if r.state = .armed then
        s.setRegion { r with
          state := .running
          launchIn := s.phasesOf (s.queueAgent job c.region)
          node := c.node
          moved := (s.die r.die).stime }
      else s.setRegion r

/-- What the command acquires as it starts: its issue, what a `bwait` or `tlwaitq` before it acquired, and, with AFTER,
the writes of its context (R147, R269, R282). -/
def Queue.startView (x : Queue) (c : Cmd) : View :=
  let v := unionNat c.view x.acq
  if c.head.after then unionNat v ((x.writes.map (·.2)).foldl (fun l i => insertNat i l) []) else v

def State.startCmd (s : State) (job q : Nat) (c : Cmd) (phase : CmdPhase) : State :=
  let x := s.queue job q
  let c := { c with view := x.startView c, phase := phase }
  s.setQueue { x with started := x.started ++ [c]
                      hold := if c.op = 0x1D || c.op = 0x1E then some c.tln else x.hold }

/-- COMMAND_START: the next command of a context is taken from its queue and starts, or is rejected (R192, R258). -/
def execCommandStart (job qid : Nat) (s : State) : Host.Outcome State Fault Refusal :=
  .next (match s.candidate job qid with
    | none => s
    | some (k, c, t) =>
      if !s.winsEngine job qid c then s
      else
        let s := s.takeFrom job qid k
        match t with
        | .reject check =>
          let s := s.finishCmd job qid { c with view := [] } (.rejected check)
          if qKind qid = 0 then s.cancelLaunch job (bf qid 0 6) else s
        | .wrongState => s.startCmd job qid c (.ended (.fail 0x05 12 0 0))
        | .go =>
          let s := s.startCmd job qid c .running
          if isData c.op || c.op = 0x0A then s.joinLaunch job qid c else s
        | _ => s)

/-! ### Finishing (R259, R260) -/

/-- The command belongs to the launch of its region. -/
def State.inLaunch (s : State) (job q : Nat) (c : Cmd) : Bool :=
  match s.region? job c.region with
  | some r => (r.launch.getD []).contains (q, c.tln)
  | none => false

/-- COMMAND_FINISH: a command that has ended finishes. A data command that failed cancels the launch it belongs to. -/
def execCommandFinish (job qid tln : Nat) (s : State) : Host.Outcome State Fault Refusal :=
  .next (match s.cmd? job qid tln with
    | none => s
    | some c =>
      match c.phase with
      | .ended r =>
        let mine := s.inLaunch job qid c
        let s := s.finishCmd job qid c r
        (match r with
          | .fail _ _ _ _ => if isData c.op && mine then s.cancelLaunch job c.region else s
          | _ => s)
      | _ => s)

/-! ### Gates (23_fleet.md R424-R426) -/

/-- The same party at the same gate. -/
def GateWait.same (g h : GateWait) : Bool :=
  g.kind == h.kind && g.unit == h.unit && g.job == h.job && g.qid == h.qid && g.tln == h.tln && g.part == h.part

/-- The keys of R261 of a party that waits at a gate; none for one that waits no more. A scheduler fill and a host port have
the keys of a command with INHERIT = 0. -/
def State.gateKey (s : State) (g : GateWait) : Option (Nat × Nat) :=
  if g.job = hostJob || 2 ^ 64 ≤ g.tln then some (0, 2 ^ 64 - 1)
  else
    match s.cmd? g.job g.qid g.tln with
    | none => none
    | some c =>
      let there : Bool := match c.phase with
        | .running => c.stalled.isNone
        | .atPort => (s.region? g.job c.region).any (fun r => r.state == .running)
        | _ => false
      if there then some (cmdKey c) else none

/-- A waiting party comes before another at their gate: by the keys of R261 in the order of R40, which never reorder commands
within one context. -/
def State.gateBefore (s : State) (a b : GateWait) : Bool :=
  match s.gateKey a with
  | none => false
  | some x =>
    let y := (s.gateKey b).getD (0, 2 ^ 64 - 1)
    if a.job = b.job && a.qid = b.qid then decide (a.tln < b.tln)
    else if x.1 ≠ y.1 then decide (y.1 < x.1)
    else if x.2 ≠ y.2 then decide (x.2 < y.2)
    else decide (a.job < b.job)

/-- Units of another party wait at the gate and pass before this party's. -/
def State.gateAhead (s : State) (die : Nat) (g : GateWait) : Bool :=
  (s.die die).gates.any (fun h =>
    h.kind == g.kind && h.unit == g.unit && !h.same g && !h.owes.paid && s.gateBefore h g)

/-- What the party owes at its gate: what it owed there before, or the bill of a new access. -/
def State.owedAt (s : State) (die : Nat) (g : GateWait) : Bill :=
  match (s.die die).gates.find? g.same with
  | some h => h.owes
  | none => g.owes

/-- The party's units pass as far as they can. -/
def State.payGate (s : State) (die : Nat) (g : GateWait) : Bill × State :=
  let w := s.owedAt die g
  if w.paid || s.gateAhead die g then (w, s) else s.pay die g.kind g.unit g.job w

def State.putGate (s : State) (die : Nat) (g : GateWait) : State :=
  let d := s.die die
  s.setDie die { d with gates := upsert g.same g d.gates }

def State.dropGate (s : State) (die : Nat) (g : GateWait) : State :=
  let d := s.die die
  if d.gates.any g.same then s.setDie die { d with gates := d.gates.filter (fun h => !g.same h) } else s

/-- Units of a party at the gates of its own activity and of host DMA: `inr` once all have passed, else `inl` the state in
which it waits (R425). -/
def State.passBill (s : State) (die : Nat) (g : GateWait) (own host : Bill) : State ⊕ State :=
  let g := { g with owes := own }
  let h := { g with kind := 6, unit := 0, owes := host }
  let (a, t) := s.payGate die g
  let (b, t) := t.payGate die h
  if a.paid && b.paid then .inr ((t.dropGate die g).dropGate die h)
  else .inl (((t.gateHeld die).putGate die { g with owes := a }).putGate die { h with owes := b })

/-- A command as a party at a gate. -/
def cmdGate (kind unit job q : Nat) (c : Cmd) (part : Nat := 0) : GateWait :=
  { kind := kind, unit := unit, job := job, qid := q, tln := c.tln, part := part, owes := Bill.zero }

/-- An access of a command passes the gates; the weight-store queue (kind 9 here) is no activity (R424). -/
def State.passGate (s : State) (die kind unit job q : Nat) (c : Cmd) (ts : List Trans) : State ⊕ State :=
  let b := billOf die ts
  s.passBill die (cmdGate kind unit job q c) (if kind = 9 then Bill.zero else b.1) b.2

/-- The activity of a queue, and its unit (R424). -/
def queueGate (job q : Nat) : Nat × Nat :=
  match qKind q with
  | 0 => (0, job * 64 + bf q 0 6)
  | 1 => (1, qNum q)
  | 2 => (2, qNum q)
  | 3 => (3, 0)
  | 4 => (4, 0)
  | 6 => (5, 0)
  | _ => (9, 0)

/-- An access of a command at the gates of its queue's activity. -/
def State.queuePass (s : State) (job q : Nat) (c : Cmd) (ts : List Trans) : State ⊕ State :=
  s.passGate (s.queueDie job q) (queueGate job q).1 (queueGate job q).2 job q c ts

/-! ### A running command -/

/-- The started command whose turn it is. -/
def State.curCmd (s : State) : Option (Nat × Nat × Cmd) :=
  match s.focus with
  | .command job q tln => (s.cmd? job q tln).map (fun c => (job, q, c))
  | _ => none

/-- The meaning of a command: `f` while it runs, nothing once it has ended or while it waits. -/
def execCmd (f : State → Nat → Nat → Cmd → State) (s : State) : Host.Outcome State Fault Refusal :=
  match s.curCmd with
  | some (job, q, c) => .next (if c.phase = .running then f s job q c else s)
  | none => .refused .noCommand

/-- The command ends with a result; COMMAND_FINISH finishes it. -/
def State.endCmd (s : State) (job q : Nat) (c : Cmd) (r : CmdResult) : State := s.setCmd job q { c with phase := .ended r }

/-- The command fails (R260). -/
def State.failCmd (s : State) (job q : Nat) (c : Cmd) (code subc addr : Nat) : State :=
  s.endCmd job q c (.fail code subc (BitVec.ofNat 64 addr) 0)

/-- An access of a command that does not come to its bytes (R261): a page fault stops it where it stands. -/
def State.cmdFault (s : State) (job q : Nat) (c : Cmd) (kind : AccKind) (f : TFault × Nat) : State :=
  match f.1 with
  | .prot sub => s.failCmd job q c 0x05 sub f.2
  | .dieLost => s.failCmd job q c 0x1B 0 f.2
  | .page level cause =>
    let (t, s) := s.pageFault (s.queueDie job q) job (.command q c.tln) f.2 0 kind level cause
    s.setCmd job q { c with phase := .faulted (s.queueDie job q) t }
  | .data home pa => (s.eccHit home pa).failCmd job q c 0x1A 20 f.2
  | .moving =>
    -- the time in which a bank is closed does not count toward the bound (02_execution.md R58)
    if c.stalled.isSome || (s.bankShut (s.queueDie job q) job (s.jobRanges job) kind f.2).isSome then s
    else s.setCmd job q { c with stalled := some (f.2, (s.die (s.queueDie job q)).stime) }

/-- The bytes of an operand of a command (R261). -/
def State.cmdSpan (s : State) (job q : Nat) (c : Cmd) (kind : AccKind) (va n : Nat) (k : List Trans → State) : State :=
  match s.access (s.queueDie job q) job (s.jobRanges job) kind va n with
  | .error f => s.cmdFault job q c kind f
  | .ok ts => k ts

/-- Bytes that an ordinary read by an engine returns, of a versioned range those of NEWEST (06_ordering.md R145,
05_memory.md R138). -/
def State.engineBytes (s : State) (job : Nat) (v : View) (va : Nat) (ts : List Trans) : List Byte :=
  (ts.zip (upFrom va ts.length)).map (fun p =>
    if rgVers p.1.entry then
      let r := slotRef p.2 p.1
      match (s.slotAt job r).live.getLast? with
      | some x => x.data.read r.off
      | none => 0
    else s.readByte job v p.1.loc)

/-- A descriptor, list or image of `n` bytes at `va`, read once its requests have passed their gate (23_fleet.md R425). -/
def State.cmdRead (s : State) (job q : Nat) (c : Cmd) (va n : Nat) (k : State → List Byte → State) : State :=
  s.cmdSpan job q c .read va n (fun ts =>
    match s.queuePass job q c ts with
    | .inl s => s
    | .inr s => k s (s.engineBytes job c.view va ts))

/-- Page leaves with bits 63:0 of their entries as they stand. -/
def State.entries (s : State) (leaves : List Nat) : List (Nat × Nat) :=
  leaves.map (fun l => (l, ofBytes (s.homeBytes (upFrom l 8))))

/-- A write of the command reaches its home (log 6), and is counted at the leaves it went through (21_paging.md R394). The
writes of one command count once at an entry (05_memory.md R122), unless the entry has changed or PGWVER has been read in
between (log 100). The command knows the write from then on. -/
def State.cmdWrite (s : State) (job q : Nat) (c : Cmd) (ts : List Trans) (bytes : List Host.Cell) : Cmd × State :=
  let fresh := (s.entries (ts.filterMap (·.leaf))).eraseDups.filter (fun e => !c.counted.contains e)
  let s := s.bumpWver job (fresh.map (·.1))
  let (i, s) := s.storeNow (s.queueAgent job q) bytes c.view true
  let x := s.queue job q
  ({ c with view := insertNat i c.view, counted := c.counted ++ fresh }, s.setQueue { x with writes := (c.tln, i) :: x.writes })

/-! ### Commands on every queue (R282) -/

/-- `notify`: nothing beyond how it finishes. -/
def execNotify (_h : CmdHead) (s : State) : Host.Outcome State Fault Refusal :=
  execCmd (fun s job q c => s.endCmd job q c .ok) s

/-- `bwait` (R282). -/
def execBwait (_h : CmdHead) (bar : BitVec 36) (n : BitVec 56) (s : State) : Host.Outcome State Fault Refusal :=
  execCmd (fun s job q c =>
    let die := bf bar.toNat 10 2
    let num := bf bar.toNat 0 10
    let gen := BitVec.ofNat 32 n.toNat
    if !s.live die then s.failCmd job q c 0x1B 0 0
    else
      let b := s.barrier die num
      -- the checks are made as it starts; later it only waits
      if c.progress = 0 && (768 ≤ num || b.heldByOther job || b.expect = 0) then s.failCmd job q c 0x05 9 0
      else if b.passed gen then
        let v := acquireFrom (s.queueAgent job q) ((b.rels.filter (fun r => genUpTo r.1 gen)).map (·.2))
        let c := { c with view := unionNat c.view v }
        s.endCmd job q c (if b.lasterr then .err else .ok)
      else s.setCmd job q { c with progress := 1 }) s

/-- `tlwaitq` (R282). -/
def execTlwaitq (_h : CmdHead) (qid : BitVec 36) (n : BitVec 56) (s : State) : Host.Outcome State Fault Refusal :=
  execCmd (fun s job q c =>
    match s.queueFault job qid.toNat with
    | some _ => s.failCmd job q c 0x05 7 0
    | none =>
      let y := s.queue job qid.toNat
      if n.toNat ≤ y.counter then
        let v := acquireFrom (s.queueAgent job q) ((y.rels.filter (fun r => decide (r.1 ≤ n.toNat))).map (·.2))
        s.endCmd job q { c with view := unionNat c.view v } .ok
      else s) s

end Sys2Proof.Machine
end

