-- ==== Sys2Proof/Machine/Crypto.lean ====
section
/-! DEFINITION. SHA-256 and ECDSA P-256, which the manual names (18_arming.md R353, 22_bringup.md R417,
R421). What they compute is taken from the named standards, FIPS 180-4 and FIPS 186-4 (log 11). -/

namespace Sys2Proof.Machine

/-! ### SHA-256 -/

/-- Round constants: the first 32 fraction bits of the cube roots of the first 64 primes. -/
def shaK : List (BitVec 32) :=
  [0x428a2f98#32, 0x71374491#32, 0xb5c0fbcf#32, 0xe9b5dba5#32, 0x3956c25b#32, 0x59f111f1#32, 0x923f82a4#32, 0xab1c5ed5#32] ++
  [0xd807aa98#32, 0x12835b01#32, 0x243185be#32, 0x550c7dc3#32, 0x72be5d74#32, 0x80deb1fe#32, 0x9bdc06a7#32, 0xc19bf174#32] ++
  [0xe49b69c1#32, 0xefbe4786#32, 0x0fc19dc6#32, 0x240ca1cc#32, 0x2de92c6f#32, 0x4a7484aa#32, 0x5cb0a9dc#32, 0x76f988da#32] ++
  [0x983e5152#32, 0xa831c66d#32, 0xb00327c8#32, 0xbf597fc7#32, 0xc6e00bf3#32, 0xd5a79147#32, 0x06ca6351#32, 0x14292967#32] ++
  [0x27b70a85#32, 0x2e1b2138#32, 0x4d2c6dfc#32, 0x53380d13#32, 0x650a7354#32, 0x766a0abb#32, 0x81c2c92e#32, 0x92722c85#32] ++
  [0xa2bfe8a1#32, 0xa81a664b#32, 0xc24b8b70#32, 0xc76c51a3#32, 0xd192e819#32, 0xd6990624#32, 0xf40e3585#32, 0x106aa070#32] ++
  [0x19a4c116#32, 0x1e376c08#32, 0x2748774c#32, 0x34b0bcb5#32, 0x391c0cb3#32, 0x4ed8aa4a#32, 0x5b9cca4f#32, 0x682e6ff3#32] ++
  [0x748f82ee#32, 0x78a5636f#32, 0x84c87814#32, 0x8cc70208#32, 0x90befffa#32, 0xa4506ceb#32, 0xbef9a3f7#32, 0xc67178f2#32]

def rotr (x : BitVec 32) (n : Nat) : BitVec 32 := (x >>> n) ||| (x <<< (32 - n))

/-- The eight working variables. -/
structure Sha where
  a : BitVec 32
  b : BitVec 32
  c : BitVec 32
  d : BitVec 32
  e : BitVec 32
  f : BitVec 32
  g : BitVec 32
  h : BitVec 32
  deriving DecidableEq, Repr

/-- The first hash value: the first 32 fraction bits of the square roots of the first eight primes. -/
def Sha.first : Sha :=
  { a := 0x6a09e667, b := 0xbb67ae85, c := 0x3c6ef372, d := 0xa54ff53a,
    e := 0x510e527f, f := 0x9b05688c, g := 0x1f83d9ab, h := 0x5be0cd19 }

/-- One round with its constant and its schedule word. -/
def Sha.round (s : Sha) (kw : BitVec 32 × BitVec 32) : Sha :=
  let t1 := s.h + (rotr s.e 6 ^^^ rotr s.e 11 ^^^ rotr s.e 25) + ((s.e &&& s.f) ^^^ (~~~s.e &&& s.g)) + kw.1 + kw.2
  let t2 := (rotr s.a 2 ^^^ rotr s.a 13 ^^^ rotr s.a 22) + ((s.a &&& s.b) ^^^ (s.a &&& s.c) ^^^ (s.b &&& s.c))
  { a := t1 + t2, b := s.a, c := s.b, d := s.c, e := s.d + t1, f := s.e, g := s.f, h := s.g }

def Sha.add (s t : Sha) : Sha :=
  { a := s.a + t.a, b := s.b + t.b, c := s.c + t.c, d := s.d + t.d, e := s.e + t.e, f := s.f + t.f, g := s.g + t.g, h := s.h + t.h }

/-- The message schedule, newest word first, extended by `n` words. -/
def shaExtend : Nat → List (BitVec 32) → List (BitVec 32)
  | 0, ws => ws
  | n + 1, ws =>
    let w (k : Nat) : BitVec 32 := ws.getD (k - 1) 0
    let s0 := rotr (w 15) 7 ^^^ rotr (w 15) 18 ^^^ (w 15 >>> 3)
    let s1 := rotr (w 2) 17 ^^^ rotr (w 2) 19 ^^^ (w 2 >>> 10)
    shaExtend n ((s1 + w 7 + s0 + w 16) :: ws)

/-- A number of `n` bytes at an offset, the first byte most significant. -/
def bigAt (bs : List Byte) (off n : Nat) : Nat := ofBytes ((bs.drop off).take n).reverse

/-- One block of 64 bytes. -/
def Sha.block (s : Sha) (bs : List Byte) : Sha :=
  let first := ((upFrom 0 16).map (fun i => BitVec.ofNat 32 (bigAt bs (4 * i) 4))).reverse
  s.add ((shaK.zip (shaExtend 48 first).reverse).foldl Sha.round s)

/-- The message with its padding. -/
def shaPad (bs : List Byte) : List Byte :=
  bs ++ 0x80 :: List.replicate ((119 - bs.length % 64) % 64) 0 ++ (toBytes 8 (8 * bs.length)).reverse

def sha256 (bs : List Byte) : BitVec 256 :=
  let m := shaPad bs
  let s := (upFrom 0 (m.length / 64)).foldl (fun s i => s.block ((m.drop (64 * i)).take 64)) Sha.first
  BitVec.ofNat 256 ([s.a, s.b, s.c, s.d, s.e, s.f, s.g, s.h].foldl (fun n w => n * 2 ^ 32 + w.toNat) 0)

/-! ### The curve P-256 -/

def p256P : Nat := 2 ^ 256 - 2 ^ 224 + 2 ^ 192 + 2 ^ 96 - 1
def p256N : Nat := 0xffffffff00000000ffffffffffffffffbce6faada7179e84f3b9cac2fc632551
def p256B : Nat := 0x5ac635d8aa3a93e7b3ebbd55769886bc651d06b0cc53b0f63bce3c3e27d2604b
def p256G : Nat × Nat :=
  (0x6b17d1f2e12c4247f8bce6e563a440f277037d812deb33a0f4a13945d898c296,
    0x4fe342e2fe1a7f9b8ee7eb4a7c0f9e162bce33576b315ececbb6406837bf51f5)

/-- b to the low `k` bits of e, modulo m. -/
def powMod (b e m : Nat) : Nat → Nat
  | 0 => 1 % m
  | k + 1 =>
    let h := powMod (b * b % m) (e / 2) m k
    if e % 2 = 1 then b * h % m else h

/-- The inverse modulo a prime of at most 256 bits. -/
def invMod (x m : Nat) : Nat := powMod (x % m) (m - 2) m 256

/-- The point of a slope through two points of the curve. -/
def p256Chord (l x1 y1 x2 : Nat) : Nat × Nat :=
  let p := p256P
  let x := (l * l + (p - x1) + (p - x2)) % p
  (x, (l * ((x1 + (p - x)) % p) + (p - y1)) % p)

/-- The sum of two points; none is the point at infinity. -/
def p256Add (a b : Option (Nat × Nat)) : Option (Nat × Nat) :=
  let p := p256P
  match a, b with
  | none, b => b
  | a, none => a
  | some (x1, y1), some (x2, y2) =>
    if x1 ≠ x2 then some (p256Chord ((y2 + (p - y1)) * invMod (x2 + (p - x1)) p % p) x1 y1 x2)
    else if (y1 + y2) % p = 0 then none
    else some (p256Chord ((3 * (x1 * x1) + (p - 3)) * invMod (2 * y1) p % p) x1 y1 x1)

/-- The low `n` bits of `k` times a point. -/
def p256Mul (k : Nat) (a : Option (Nat × Nat)) : Nat → Option (Nat × Nat)
  | 0 => none
  | n + 1 =>
    let h := p256Mul (k / 2) (p256Add a a) n
    if k % 2 = 1 then p256Add a h else h

/-- A key is a point of the curve. -/
def p256Point (x y : Nat) : Bool :=
  decide (x < p256P) && decide (y < p256P) && (y * y) % p256P == (x * x * x + (p256P - 3) * x + p256B) % p256P

/-- An ECDSA P-256 signature (r, s) on a digest verifies under a key (x, y), r and x in the high halves. -/
def ecdsaOk (key : BitVec 512) (digest : BitVec 256) (sig : BitVec 512) : Bool :=
  let x := bf key.toNat 256 256
  let y := bf key.toNat 0 256
  let r := bf sig.toNat 256 256
  let s := bf sig.toNat 0 256
  let n := p256N
  if !p256Point x y || r = 0 || n ≤ r || s = 0 || n ≤ s then false
  else
    let w := invMod s n
    match p256Add (p256Mul (digest.toNat * w % n) (some p256G) 256) (p256Mul (r * w % n) (some (x, y)) 256) with
    | some (px, _) => px % n == r
    | none => false

/-- The public key of a private key, x in the high half. -/
def p256Public (d : Nat) : BitVec 512 :=
  match p256Mul d (some p256G) 256 with
  | some (x, y) => BitVec.ofNat 512 (x * 2 ^ 256 + y)
  | none => 0

/-- The ECDSA P-256 signature on a digest by a private key `d`, with the number `k` that the signer draws. -/
def ecdsaSign (d : Nat) (digest : BitVec 256) (k : Nat) : BitVec 512 :=
  let n := p256N
  let r := match p256Mul k (some p256G) 256 with
    | some (x, _) => x % n
    | none => 0
  BitVec.ofNat 512 (r * 2 ^ 256 + invMod k n * ((digest.toNat + r * d) % n) % n)

/-- The device identity key (22_bringup.md R421): the private key in the fuses, from 1 to the order of the curve less 1, and its
public key. -/
def identitySecret : Nat := 1 + Config.fuseIdentity % (p256N - 1)
def identityKey : BitVec 512 := p256Public identitySecret

end Sys2Proof.Machine
end

