-- ==== Sys2Proof/Machine/Formats.lean ====
section
/-! DEFINITION. The element formats by code (04_numbers.md R89). -/

namespace Sys2Proof.Machine

/-- Width in bits of an element format; 0 for a code that R89 does not list. -/
def fmtWidth (code : Nat) : Nat :=
  match code with
  | 0x00 => 1 | 0x01 => 4 | 0x02 => 4 | 0x03 => 8 | 0x04 => 8 | 0x05 => 16 | 0x06 => 32 | 0x07 => 32
  | 0x08 => 16 | 0x09 => 16 | 0x0A => 32 | 0x0B => 8 | 0x0C => 8 | 0x0D => 8 | 0x0E => 4 | 0x0F => 4
  | 0x10 => 8 | 0x11 => 32 | 0x12 => 1 | 0x13 => 64
  | _ => 0

/-- The floating format of a code. -/
def floatOf (code : Nat) : Option Fmt :=
  match code with
  | 0x08 => some .fp16 | 0x09 => some .bf16 | 0x0A => some .fp32 | 0x0B => some .e4m3 | 0x0C => some .e5m2
  | 0x0D => some .e8m0 | 0x0E => some .e2m1
  | _ => none

/-- Lowest and highest value of an integer format; BIT holds 0 or 1. -/
def intRangeOf (code : Nat) : Option (Int × Int) :=
  match code with
  | 0x00 => some (0, 1)
  | 0x01 => some (-8, 7)
  | 0x02 => some (0, 15)
  | 0x03 => some (-128, 127)
  | 0x04 => some (0, 255)
  | 0x05 => some (-32768, 32767)
  | 0x06 => some (-2147483648, 2147483647)
  | 0x07 => some (0, 4294967295)
  | 0x11 => some (0, 4294967295)
  | _ => none

/-- The integer that a code's bits stand for. -/
def intOf (code bits : Nat) : Int :=
  match intRangeOf code with
  | some (lo, _) => if lo < 0 then toSigned bits (fmtWidth code) else ((bits % 2 ^ fmtWidth code : Nat) : Int)
  | none => ((bits % 2 ^ fmtWidth code : Nat) : Int)

/-- IEEE minimum or maximum of two codes of a floating format (09_scalar_compute.md R218). -/
def minMaxF (f : Fmt) (less : Bool) (x y : Nat) : Nat :=
  let u := decodeF f x
  let v := decodeF f y
  if u.isNaN && v.isNaN then f.nanCode
  else if u.isNaN then y
  else if v.isNaN then x
  else if less then (if ltZ v u then y else x)
  else (if ltZ u v then y else x)

end Sys2Proof.Machine
end

