-- ==== Sys2Proof/Machine/Tables.lean ====
section
/-! DEFINITION. The tables and constants of the transcendental operators, as FP32 codes: each is the value that
04_numbers.md R114 defines, rounded as it says. -/

namespace Sys2Proof.Machine

/-- EXT[j] = 2^(j/64) (R114) -/
def tabEXT : List Nat :=
  [0x3F800000, 0x3F8164D2, 0x3F82CD87, 0x3F843A29, 0x3F85AAC3, 0x3F871F62, 0x3F88980F, 0x3F8A14D5, 0x3F8B95C2, 0x3F8D1ADF, 0x3F8EA43A, 0x3F9031DC, 0x3F91C3D3, 0x3F935A2B, 0x3F94F4F0, 0x3F96942D] ++
  [0x3F9837F0, 0x3F99E046, 0x3F9B8D3A, 0x3F9D3EDA, 0x3F9EF532, 0x3FA0B051, 0x3FA27043, 0x3FA43516, 0x3FA5FED7, 0x3FA7CD94, 0x3FA9A15B, 0x3FAB7A3A, 0x3FAD583F, 0x3FAF3B79, 0x3FB123F6, 0x3FB311C4] ++
  [0x3FB504F3, 0x3FB6FD92, 0x3FB8FBAF, 0x3FBAFF5B, 0x3FBD08A4, 0x3FBF179A, 0x3FC12C4D, 0x3FC346CD, 0x3FC5672A, 0x3FC78D75, 0x3FC9B9BE, 0x3FCBEC15, 0x3FCE248C, 0x3FD06334, 0x3FD2A81E, 0x3FD4F35B] ++
  [0x3FD744FD, 0x3FD99D16, 0x3FDBFBB8, 0x3FDE60F5, 0x3FE0CCDF, 0x3FE33F89, 0x3FE5B907, 0x3FE8396A, 0x3FEAC0C7, 0x3FED4F30, 0x3FEFE4BA, 0x3FF28177, 0x3FF5257D, 0x3FF7D0DF, 0x3FFA83B3, 0x3FFD3E0C]

/-- LGT[j] = log2(1 + j/64) (R114) -/
def tabLGT : List Nat :=
  [0x00000000, 0x3CB73CB4, 0x3D35D69C, 0x3D8759C5, 0x3DB31FB8, 0x3DDE4212, 0x3E0462C4, 0x3E19574F, 0x3E2E00D2, 0x3E42615F, 0x3E567AF1, 0x3E6A4F72, 0x3E7DE0B6, 0x3E88983F, 0x3E92203D, 0x3E9B8926] ++
  [0x3EA4D3C2, 0x3EAE00D2, 0x3EB7110E, 0x3EC0052B, 0x3EC8DDD4, 0x3ED19BB0, 0x3EDA3F60, 0x3EE2C97D, 0x3EEB3A9F, 0x3EF39355, 0x3EFBD42B, 0x3F01FED4, 0x3F060828, 0x3F0A0650, 0x3F0DF989, 0x3F11E20F] ++
  [0x3F15C01A, 0x3F1993E3, 0x3F1D5DA0, 0x3F211D84, 0x3F24D3C2, 0x3F28808C, 0x3F2C2411, 0x3F2FBE80, 0x3F335004, 0x3F36D8CB, 0x3F3A58FF, 0x3F3DD0C8, 0x3F41404F, 0x3F44A7BA, 0x3F480731, 0x3F4B5ED7] ++
  [0x3F4EAED0, 0x3F51F740, 0x3F553848, 0x3F587209, 0x3F5BA4A4, 0x3F5ED039, 0x3F61F4E5, 0x3F6512C7, 0x3F6829FB, 0x3F6B3A9F, 0x3F6E44CD, 0x3F7148A1, 0x3F744636, 0x3F773DA4, 0x3F7A2F04, 0x3F7D1A71]

/-- INV[j] = 1/(1 + j/64) (R114) -/
def tabINV : List Nat :=
  [0x3F800000, 0x3F7C0FC1, 0x3F783E10, 0x3F74898D, 0x3F70F0F1, 0x3F6D7304, 0x3F6A0EA1, 0x3F66C2B4, 0x3F638E39, 0x3F607038, 0x3F5D67C9, 0x3F5A740E, 0x3F579436, 0x3F54C77B, 0x3F520D21, 0x3F4F6475] ++
  [0x3F4CCCCD, 0x3F4A4588, 0x3F47CE0C, 0x3F4565C8, 0x3F430C31, 0x3F40C0C1, 0x3F3E82FA, 0x3F3C5264, 0x3F3A2E8C, 0x3F381703, 0x3F360B61, 0x3F340B41, 0x3F321643, 0x3F302C0B, 0x3F2E4C41, 0x3F2C7692] ++
  [0x3F2AAAAB, 0x3F28E83F, 0x3F272F05, 0x3F257EB5, 0x3F23D70A, 0x3F2237C3, 0x3F20A0A1, 0x3F1F1166, 0x3F1D89D9, 0x3F1C09C1, 0x3F1A90E8, 0x3F191F1A, 0x3F17B426, 0x3F164FDA, 0x3F14F209, 0x3F139A86] ++
  [0x3F124925, 0x3F10FDBC, 0x3F0FB824, 0x3F0E7835, 0x3F0D3DCB, 0x3F0C08C1, 0x3F0AD8F3, 0x3F09AE41, 0x3F088889, 0x3F0767AB, 0x3F064B8A, 0x3F053408, 0x3F042108, 0x3F03126F, 0x3F020821, 0x3F010204]

/-- SEEDR[j] = 1/(1 + (j + 0.5)/128) to 12 bits (R114) -/
def tabSEEDR : List Nat :=
  [0x3F7F0000, 0x3F7D1000, 0x3F7B2000, 0x3F793000, 0x3F775000, 0x3F757000, 0x3F73A000, 0x3F71D000, 0x3F701000, 0x3F6E5000, 0x3F6C9000, 0x3F6AE000, 0x3F694000, 0x3F679000, 0x3F65F000, 0x3F646000] ++
  [0x3F62C000, 0x3F613000, 0x3F5FB000, 0x3F5E2000, 0x3F5CB000, 0x3F5B3000, 0x3F59C000, 0x3F585000, 0x3F56E000, 0x3F558000, 0x3F541000, 0x3F52C000, 0x3F516000, 0x3F501000, 0x3F4EC000, 0x3F4D7000] ++
  [0x3F4C3000, 0x3F4AE000, 0x3F49A000, 0x3F487000, 0x3F473000, 0x3F460000, 0x3F44D000, 0x3F43A000, 0x3F428000, 0x3F415000, 0x3F403000, 0x3F3F1000, 0x3F3DF000, 0x3F3CE000, 0x3F3BD000, 0x3F3AB000] ++
  [0x3F39A000, 0x3F38A000, 0x3F379000, 0x3F369000, 0x3F359000, 0x3F349000, 0x3F339000, 0x3F329000, 0x3F31A000, 0x3F30A000, 0x3F2FB000, 0x3F2EC000, 0x3F2DD000, 0x3F2CF000, 0x3F2C0000, 0x3F2B2000] ++
  [0x3F2A4000, 0x3F295000, 0x3F288000, 0x3F27A000, 0x3F26C000, 0x3F25F000, 0x3F251000, 0x3F244000, 0x3F237000, 0x3F22A000, 0x3F21D000, 0x3F210000, 0x3F204000, 0x3F1F7000, 0x3F1EB000, 0x3F1DF000] ++
  [0x3F1D3000, 0x3F1C7000, 0x3F1BB000, 0x3F1AF000, 0x3F1A3000, 0x3F198000, 0x3F18C000, 0x3F181000, 0x3F176000, 0x3F16B000, 0x3F15F000, 0x3F155000, 0x3F14A000, 0x3F13F000, 0x3F134000, 0x3F12A000] ++
  [0x3F11F000, 0x3F115000, 0x3F10B000, 0x3F101000, 0x3F0F6000, 0x3F0EC000, 0x3F0E3000, 0x3F0D9000, 0x3F0CF000, 0x3F0C5000, 0x3F0BC000, 0x3F0B2000, 0x3F0A9000, 0x3F0A0000, 0x3F096000, 0x3F08D000] ++
  [0x3F084000, 0x3F07B000, 0x3F072000, 0x3F069000, 0x3F060000, 0x3F058000, 0x3F04F000, 0x3F046000, 0x3F03E000, 0x3F035000, 0x3F02D000, 0x3F025000, 0x3F01C000, 0x3F014000, 0x3F00C000, 0x3F004000]

/-- SEEDS[j] = 1/sqrt(1 + (j + 0.5)/64) to 12 bits (R114) -/
def tabSEEDS : List Nat :=
  [0x3F7F0000, 0x3F7D1000, 0x3F7B2000, 0x3F794000, 0x3F777000, 0x3F75B000, 0x3F73F000, 0x3F723000, 0x3F708000, 0x3F6EE000, 0x3F6D4000, 0x3F6BB000, 0x3F6A2000, 0x3F68A000, 0x3F672000, 0x3F65B000] ++
  [0x3F644000, 0x3F62E000, 0x3F618000, 0x3F602000, 0x3F5ED000, 0x3F5D8000, 0x3F5C3000, 0x3F5AF000, 0x3F59B000, 0x3F588000, 0x3F574000, 0x3F562000, 0x3F54F000, 0x3F53D000, 0x3F52B000, 0x3F519000] ++
  [0x3F508000, 0x3F4F7000, 0x3F4E6000, 0x3F4D5000, 0x3F4C5000, 0x3F4B4000, 0x3F4A5000, 0x3F495000, 0x3F485000, 0x3F476000, 0x3F467000, 0x3F458000, 0x3F44A000, 0x3F43B000, 0x3F42D000, 0x3F41F000] ++
  [0x3F411000, 0x3F404000, 0x3F3F6000, 0x3F3E9000, 0x3F3DC000, 0x3F3CF000, 0x3F3C2000, 0x3F3B6000, 0x3F3A9000, 0x3F39D000, 0x3F391000, 0x3F385000, 0x3F379000, 0x3F36D000, 0x3F361000, 0x3F356000] ++
  [0x3F34B000, 0x3F33F000, 0x3F334000, 0x3F32A000, 0x3F31F000, 0x3F314000, 0x3F309000, 0x3F2FF000, 0x3F2F5000, 0x3F2EA000, 0x3F2E0000, 0x3F2D6000, 0x3F2CC000, 0x3F2C3000, 0x3F2B9000, 0x3F2AF000] ++
  [0x3F2A6000, 0x3F29D000, 0x3F293000, 0x3F28A000, 0x3F281000, 0x3F278000, 0x3F26F000, 0x3F266000, 0x3F25D000, 0x3F255000, 0x3F24C000, 0x3F244000, 0x3F23B000, 0x3F233000, 0x3F22B000, 0x3F223000] ++
  [0x3F21A000, 0x3F212000, 0x3F20B000, 0x3F203000, 0x3F1FB000, 0x3F1F3000, 0x3F1EB000, 0x3F1E4000, 0x3F1DC000, 0x3F1D5000, 0x3F1CE000, 0x3F1C6000, 0x3F1BF000, 0x3F1B8000, 0x3F1B1000, 0x3F1A9000] ++
  [0x3F1A2000, 0x3F19C000, 0x3F195000, 0x3F18E000, 0x3F187000, 0x3F180000, 0x3F17A000, 0x3F173000, 0x3F16C000, 0x3F166000, 0x3F15F000, 0x3F159000, 0x3F153000, 0x3F14C000, 0x3F146000, 0x3F140000] ++
  [0x3F13A000, 0x3F134000, 0x3F12E000, 0x3F128000, 0x3F122000, 0x3F11C000, 0x3F116000, 0x3F110000, 0x3F10A000, 0x3F104000, 0x3F0FF000, 0x3F0F9000, 0x3F0F3000, 0x3F0EE000, 0x3F0E8000, 0x3F0E3000] ++
  [0x3F0DD000, 0x3F0D8000, 0x3F0D3000, 0x3F0CD000, 0x3F0C8000, 0x3F0C3000, 0x3F0BD000, 0x3F0B8000, 0x3F0B3000, 0x3F0AE000, 0x3F0A9000, 0x3F0A4000, 0x3F09F000, 0x3F09A000, 0x3F095000, 0x3F090000] ++
  [0x3F08B000, 0x3F086000, 0x3F081000, 0x3F07C000, 0x3F078000, 0x3F073000, 0x3F06E000, 0x3F06A000, 0x3F065000, 0x3F060000, 0x3F05C000, 0x3F057000, 0x3F053000, 0x3F04E000, 0x3F04A000, 0x3F045000] ++
  [0x3F041000, 0x3F03D000, 0x3F038000, 0x3F034000, 0x3F030000, 0x3F02B000, 0x3F027000, 0x3F023000, 0x3F01F000, 0x3F01B000, 0x3F016000, 0x3F012000, 0x3F00E000, 0x3F00A000, 0x3F006000, 0x3F002000]

/-- C1 = ln 2 (R114) -/
def constC1 : Nat := 0x3F317218
/-- C2 = (ln 2)^2 / 2 (R114) -/
def constC2 : Nat := 0x3E75FDF0
/-- C3 = (ln 2)^3 / 6 (R114) -/
def constC3 : Nat := 0x3D635847
/-- D1 = 1 / ln 2 (R114) -/
def constD1 : Nat := 0x3FB8AA3B
/-- D2 = -1 / (2 ln 2) (R114) -/
def constD2 : Nat := 0xBF38AA3B
/-- D3 = 1 / (3 ln 2) (R114) -/
def constD3 : Nat := 0x3EF6384F

end Sys2Proof.Machine
end

