-- ==== Sys2Proof/Machine/Lanes.lean ====
section
/-! DEFINITION. What operators compute on one element: rounding under the policy of their word, integer lanes, and the
transcendental functions (04_numbers.md R100-R109, R114-R115, 12_operators.md R304-R306). -/

namespace Sys2Proof.Machine

/-- What an element comes to: its code, the flags raised, the cause of a fault under the trap policy (0 for none), and
the flag that a trap on it leaves. -/
structure Elem where
  code : Nat
  flags : Nat
  cause : Nat := 0
  own : Nat := 0
  deriving DecidableEq, Repr

def Elem.plain (code : Nat) : Elem := { code := code, flags := 0 }

/-- Cause and own flag of the flags that an element raised (R101, R102). -/
def Elem.judge (sat : Bool) (code flags : Nat) : Elem :=
  if sat then { code := code, flags := flags }
  else if flags &&& NV ≠ 0 then { code := code, flags := flags, cause := 2, own := NV }
  else if flags &&& OF ≠ 0 then { code := code, flags := flags, cause := 1, own := OF }
  else { code := code, flags := flags }

/-- Rounding mode and policy of a word. -/
structure Rounding where
  rnd : Nat
  sat : Bool
  deriving DecidableEq, Repr

def OpCfg.rounding (c : OpCfg) : Rounding := { rnd := c.rnd.toNat, sat := c.sat }

/-- The generator after the draw of an element (R109): none for a NaN, one otherwise under SR. -/
def Rounding.drawn (r : Rounding) (gen : BitVec 32) (v : FVal) : BitVec 32 :=
  if r.rnd = 4 && !v.isNaN then draw gen else gen

/-- A value rounded to a floating format; `pre` holds flags raised before. -/
def roundEl (r : Rounding) (f : Fmt) (gen : BitVec 32) (v : FVal) (pre : Nat) : Elem × BitVec 32 :=
  let g := r.drawn gen v
  let (code, fl) := roundF f r.rnd g.toNat .saturate v
  (Elem.judge r.sat code (orF pre fl), g)

/-- An exact integer result (R101, R305): one outside the range is an overflow, with SAT under the saturate policy and OF
in the tile under the trap policy (log 63). -/
def intEl (sat : Bool) (code : Nat) (i : Int) : Elem :=
  let (lo, hi) := (intRangeOf code).getD (0, 0)
  let w := fmtWidth code
  if lo ≤ i ∧ i ≤ hi then Elem.plain (ofSigned i w)
  else
    let c := ofSigned (if i > hi then hi else lo) w
    if sat then { code := c, flags := SAT } else { code := c, flags := OF, cause := 1, own := OF }

/-- The integer beyond the range that SR has taken a number in the range to (R108). -/
def pushedOut (r : Rounding) (draw : Nat) (lo hi : Int) (v : FVal) : Option Int :=
  match v with
  | .fin x =>
    let t := (roundInt 1 0 x).1
    let i := (roundInt r.rnd draw x).1
    if r.rnd = 4 ∧ lo ≤ t ∧ t ≤ hi ∧ ¬ (lo ≤ i ∧ i ≤ hi) then some i else none
  | _ => none

/-- A value rounded to an integer format (R104): where SR alone takes it beyond the range it is an overflow (R108;
log 77). -/
def roundIntEl (r : Rounding) (code : Nat) (gen : BitVec 32) (v : FVal) : Elem × BitVec 32 :=
  let g := r.drawn gen v
  let (lo, hi) := (intRangeOf code).getD (0, 0)
  let (i, fl) := toIntRange r.rnd g.toNat lo hi v
  match pushedOut r g.toNat lo hi v with
  | some k => (intEl r.sat code k, g)
  | none => (Elem.judge r.sat (ofSigned i (fmtWidth code)) fl, g)

/-! ### A row of lanes -/

/-- Results of lanes in ascending order, with the lowest fault: lane, cause and own flag. -/
structure LaneRes where
  codes : List Nat
  flags : Nat
  fault : Option (Nat × Nat × Nat)
  gen : BitVec 32
  deriving DecidableEq, Repr

/-- `n` lanes from lane `k` up, each with the generator that the lanes before it leave (R109). -/
def runLanes (f : Nat → BitVec 32 → Elem × BitVec 32) : Nat → Nat → BitVec 32 → LaneRes
  | 0, _, g => { codes := [], flags := 0, fault := none, gen := g }
  | n + 1, k, g =>
    let (e, g) := f k g
    let r := runLanes f n (k + 1) g
    { codes := e.code :: r.codes, flags := e.flags ||| r.flags, gen := r.gen,
      fault := if e.cause ≠ 0 then some (k, e.cause, e.own) else r.fault }

/-! ### Elementwise functions -/

/-- A function of the lanes of an elementwise operator, from the input format's code and the lanes. -/
abbrev LaneFn := Rounding → Nat → List Nat → BitVec 32 → Elem × BitVec 32

def nthV (f : Fmt) (xs : List Nat) (i : Nat) : FVal := decodeF f (xs.getD i 0)

/-- An operator of two inputs that rounds on floating formats. -/
def arithLane (f : Rounding → FVal → FVal → FVal × Nat) (i : Int → Int → Int) : LaneFn := fun r code xs g =>
  match floatOf code with
  | some fm =>
    let (v, fl) := f r (nthV fm xs 0) (nthV fm xs 1)
    roundEl r fm g v fl
  | none => (intEl r.sat code (i (intOf code (xs.getD 0 0)) (intOf code (xs.getD 1 0))), g)

def addLane : LaneFn := arithLane (fun r x y => addV x y (r.rnd == 2)) (fun a b => a + b)
def subLane : LaneFn := arithLane (fun r x y => addV x (negV y) (r.rnd == 2)) (fun a b => a - b)
def mulLane : LaneFn := arithLane (fun _ x y => mulV x y) (fun a b => a * b)

/-- `vfma` (R112). -/
def fmaLane : LaneFn := fun r code xs g =>
  match floatOf code with
  | some fm =>
    let (v, fl) := fmaV (nthV fm xs 0) (nthV fm xs 1) (nthV fm xs 2) (r.rnd == 2)
    roundEl r fm g v fl
  | none => (Elem.plain 0, g)

/-- The larger or smaller operand (R218). -/
def pickEl (less : Bool) (r : Rounding) (code a b : Nat) : Elem :=
  match floatOf code with
  | some fm => Elem.plain (minMaxF fm less a b)
  | none =>
    let x := intOf code a
    let y := intOf code b
    intEl r.sat code (if less then min x y else max x y)

/-- An exact result of a floating format, which the rounding by RND leaves as it is: under SR it draws (R304, R109;
log 78). -/
def exactEl (r : Rounding) (code : Nat) (e : Elem) (g : BitVec 32) : Elem × BitVec 32 :=
  match floatOf code with
  | some fm => (e, r.drawn g (decodeF fm e.code))
  | none => (e, g)

/-- `vmax` and `vmin`. -/
def pickLane (less : Bool) : LaneFn := fun r code xs g =>
  exactEl r code (pickEl less r code (xs.getD 0 0) (xs.getD 1 0)) g

/-- `vabs` and `vneg` (R304). -/
def signLane (neg : Bool) : LaneFn := fun r code xs g =>
  let a := xs.getD 0 0
  match floatOf code with
  | some fm =>
    let top := 2 ^ (fm.w - 1)
    let c := if (decodeF fm a).isNaN then fm.nanCode
      else if neg then (if top ≤ a then a - top else a + top)
      else a % top
    exactEl r code (Elem.plain c) g
  | none => (intEl r.sat code (if neg then -(intOf code a) else ((intOf code a).natAbs : Int)), g)

/-- `vand`, `vor` and `vxor`. -/
def bitLane (f : Nat → Nat → Nat) : LaneFn := fun _ _ xs g => (Elem.plain (f (xs.getD 0 0) (xs.getD 1 0)), g)

/-- `vshl` and `vshr` (R305): the count is the unsigned value of the b lane. -/
def shiftLane (left : Bool) : LaneFn := fun r code xs g =>
  let a := intOf code (xs.getD 0 0)
  let n := min (xs.getD 1 0) (fmtWidth code)
  (intEl r.sat code (if left then a * (2 ^ n : Nat) else a / (2 ^ n : Nat)), g)

/-- `vcvt` from one format to another (R306). -/
def cvtLane (out : Nat) : LaneFn := fun r code xs g =>
  let a := xs.getD 0 0
  match floatOf code, floatOf out with
  | some fi, some fo => roundEl r fo g (decodeF fi a) 0
  | some fi, none => roundIntEl r out g (decodeF fi a)
  | none, some fo => roundEl r fo g (.fin (Ex.ofInt (intOf code a))) 0
  | none, none => (intEl r.sat out (intOf code a), g)

/-- Relations of `vcmp` on an ordering (R306). -/
def relHolds (rel : Nat) (lt eq : Bool) : Bool :=
  match rel with
  | 0 => eq
  | 1 => !eq
  | 2 => lt
  | 3 => lt || eq
  | 4 => !lt && !eq
  | _ => !lt

def cmpLane (rel : Nat) : LaneFn := fun _ code xs g =>
  let a := xs.getD 0 0
  let b := xs.getD 1 0
  let holds : Bool :=
    match floatOf code with
    | some fm =>
      let x := decodeF fm a
      let y := decodeF fm b
      if x.isNaN || y.isNaN then rel == 1 else relHolds rel (ltV x y) (eqV x y)
    | none => relHolds rel (decide (intOf code a < intOf code b)) (decide (intOf code a = intOf code b))
  (Elem.plain (b2n holds), g)

/-! ### Transcendental functions (R114, R115) -/

/-- round(x, FP32, RNE), as a value again. -/
def r32 (x : Ex) : Ex :=
  match decodeF .fp32 (roundF .fp32 0 0 .ieee (.fin x)).1 with
  | .fin y => y
  | _ => Ex.zero x.neg

def fma32 (x y z : Ex) : Ex := r32 ((x.mul y).add z false)

/-- The value of a finite FP32 code. -/
def ex32 (code : Nat) : Ex :=
  match decodeF .fp32 code with
  | .fin y => y
  | _ => Ex.zero false

def Ex.ofNat (n d : Nat) : Ex := { neg := false, num := n, den := d }
def Ex.sub (x y : Ex) : Ex := x.add y.negate false
/-- floor(x) -/
def Ex.floor (x : Ex) : Int := (roundInt 2 0 x).1

/-- round(x, FP32, RNE) as the last step: a value, and its flags. -/
def last32 (x : Ex) : FVal × Nat :=
  let (c, fl) := roundF .fp32 0 0 .saturate (.fin x)
  (decodeF .fp32 c, fl)

def exp2Fin (x : Ex) : FVal × Nat :=
  let n := x.floor
  let f := x.sub (Ex.ofInt n)
  let j := (f.mul (Ex.ofNat 64 1)).floor.toNat
  let r := r32 (f.sub (Ex.ofNat j 64))
  let p := fma32 (ex32 constC3) r (ex32 constC2)
  let p := fma32 p r (ex32 constC1)
  let p := r32 (p.mul r)
  let t := ex32 (tabEXT.getD j 0)
  let y := fma32 t p t
  last32 (y.mul (Ex.pow2 n))

/-- e and m of |x| with 1 ≤ m < 2. -/
def normEx (x : Ex) : Int × Ex :=
  let e := ilog2 x.num x.den
  (e, { x with neg := false }.mul (Ex.pow2 (-e)))

def log2Fin (x : Ex) : FVal × Nat :=
  let (e, m) := normEx x
  let j := ((m.sub Ex.one).mul (Ex.ofNat 64 1)).floor.toNat
  let c := Ex.ofNat (64 + j) 64
  let z := r32 ((m.sub c).mul (ex32 (tabINV.getD j 0)))
  let p := fma32 (ex32 constD3) z (ex32 constD2)
  let p := fma32 p z (ex32 constD1)
  let p := r32 (p.mul z)
  let s := r32 ((Ex.ofInt e).add (ex32 (tabLGT.getD j 0)) false)
  last32 (s.add p false)

def rcpFin (x : Ex) : FVal × Nat :=
  let (e, m) := normEx x
  let y := ex32 (tabSEEDR.getD ((m.sub Ex.one).mul (Ex.ofNat 128 1)).floor.toNat 0)
  let again (y : Ex) : Ex := fma32 y (fma32 m.negate y Ex.one) y
  let y := again (again y)
  let (v, fl) := last32 (y.mul (Ex.pow2 (-e)))
  (if x.neg then negV v else v, fl)

def rsqrtFin (x : Ex) : FVal × Nat :=
  let (e0, m0) := normEx x
  let odd := e0 % 2 != 0
  let e := if odd then e0 - 1 else e0
  let m := if odd then m0.mul (Ex.ofNat 2 1) else m0
  let y := ex32 (tabSEEDS.getD ((m.sub Ex.one).mul (Ex.ofNat 64 1)).floor.toNat 0)
  let again (y : Ex) : Ex :=
    let t := r32 (m.mul y)
    let h := fma32 t.negate y Ex.one
    fma32 (y.mul (Ex.ofNat 1 2)) h y
  let y := again (again y)
  last32 (y.mul (Ex.pow2 (-(e / 2))))

/-- The special inputs of R115, and the general cases. -/
def exp2V : FVal → FVal × Nat
  | .nan => (.nan, 0)
  | .inf neg => if neg then (.fin (Ex.zero false), 0) else (.inf false, 0)
  | .fin x =>
    if x.num = 0 then (.fin Ex.one, 0)
    else if !x.lt (Ex.ofNat 128 1) then (decodeF .fp32 Fmt.fp32.maxCode, orF OF NX)
    else if x.lt (Ex.ofInt (-160)) then (.fin (Ex.zero false), orF UF NX)
    else exp2Fin x

def log2V : FVal → FVal × Nat
  | .nan => (.nan, 0)
  | .inf neg => if neg then (.nan, NV) else (.inf false, 0)
  | .fin x => if x.num = 0 then (.inf true, DZ) else if x.neg then (.nan, NV) else log2Fin x

def rcpV : FVal → FVal × Nat
  | .nan => (.nan, 0)
  | .inf neg => (.fin (Ex.zero neg), 0)
  | .fin x => if x.num = 0 then (.inf x.neg, DZ) else rcpFin x

def rsqrtV : FVal → FVal × Nat
  | .nan => (.nan, 0)
  | .inf neg => if neg then (.nan, NV) else (.fin (Ex.zero false), 0)
  | .fin x => if x.num = 0 then (.inf x.neg, DZ) else if x.neg then (.nan, NV) else rsqrtFin x

def transLane (f : FVal → FVal × Nat) : LaneFn := fun r code xs g =>
  match floatOf code with
  | some fm =>
    let (v, fl) := f (nthV fm xs 0)
    roundEl r fm g v fl
  | none => (Elem.plain 0, g)

end Sys2Proof.Machine
end

