-- ==== Sys2Proof/Machine/Vector.lean ====
section
/-! DEFINITION. The vector operators 0x20 to 0x34: elementwise operators, accumulations, reductions and scans
(12_operators.md R303-R308, 04_numbers.md R112-R113). -/

namespace Sys2Proof.Machine

/-! ### Lanes of beats -/

def OpView.inFmt (v : OpView) (p : Nat) : Nat :=
  match v.inEdge p with
  | some e => e.fmt
  | none => 0

/-- The beat at input `p` is a hole: a cond beat on an edge that carries no conditions (03_fabric.md R63). -/
def OpView.isHole (v : OpView) (p : Nat) (b : Beat) : Bool := b.kind == .cond && v.inFmt p != 0x12

def OpView.inLanes (v : OpView) (p : Nat) : Nat :=
  match v.inEdge p with
  | some e => e.q.laneCount
  | none => 1

/-- The tensor level of an input's stream (03_fabric.md R66). -/
def OpView.inLevel (v : OpView) (p : Nat) : Nat :=
  match v.inEdge p with
  | some e => if e.siding == some v.ix then e.p.level else e.q.level
  | none => 1

def OpView.outFmt (v : OpView) (p : Nat) : Nat :=
  match v.outEdge p with
  | some e => e.fmt
  | none => 0

def Beat.lanes (b : Beat) (w n : Nat) : List Nat := (upFrom 0 n).map (b.lane w)

/-- The beat of an output: a cond beat on a COND edge. -/
def beatOf (fmt : Nat) (codes : List Nat) : Beat :=
  if fmt = 0x12 then condBeat (codes.headD 0 % 2 == 1) else dataBeat (packLanes (fmtWidth fmt) codes)

/-! ### Elementwise operators (R304-R306) -/

/-- One position of data beats. -/
def OpView.laneFire (v : OpView) (al : List Nat) (f : LaneFn) (r : Rounding) (imm : List Nat) (bs : List Beat) : Fire :=
  let code := v.inFmt 0
  let w := fmtWidth code
  let res := runLanes (fun k g => f r code (bs.map (fun b => b.lane w k) ++ imm.map (· % 2 ^ w)) g) (v.inLanes 0) 0
    v.tile.gen
  match res.fault with
  | some (lane, cause, own) => v.fault al cause lane own res.flags (some res.gen)
  | none =>
    .go { take := al, emit := v.toAll (beatOf (v.outFmt 0) res.codes), flags := res.flags, gen := some res.gen }

/-- An elementwise operator of the given number of inputs, the last of which IMMB replaces by CONST (R303). -/
def vecFire (arity : Nat) (f : LaneFn) (c : OpCfg) (p : VecParam) (v : OpView) : Fire :=
  let al := upFrom 0 (arity - b2n p.immb)
  v.plainFront al 0x0B (fun bs => v.elementwise al bs
    (v.laneFire al f (OpCfg.rounding c) (if p.immb then [p.const.toNat] else []) bs))

/-! ### Accumulations (R307) -/

/-- Poison for a fault where deferred mode turns it into that (R289). -/
def OpView.poisonFor (v : OpView) (cause lane : Nat) : Option Beat :=
  if v.deferred && deferrable cause then some (v.poison cause lane (v.posAt 0)) else none

/-- The larger or smaller of two values, compared by R218. -/
def pickV (less : Bool) (x y : FVal) : FVal :=
  if x.isNaN then y
  else if y.isNaN then x
  else if less then (if ltZ y x then y else x)
  else (if ltZ x y then y else x)

/-- The next value of an accumulation: 0 `vadd`, 1 `vmax`, 2 `vmin`. -/
def accStep (kind : Nat) (r : Rounding) (af fin : Fmt) (acc : Option Nat) (a : Nat) (g : BitVec 32) :
    Elem × BitVec 32 :=
  let y := decodeF fin a
  match acc with
  | none => roundEl r af g y 0
  | some x =>
    let x := decodeF af x
    match kind with
    | 0 =>
      let (v, fl) := addV x y (r.rnd == 2)
      roundEl r af g v fl
    | k => roundEl r af g (pickV (k == 2) x y) 0

/-- Both roundings of each lane of a running accumulation, in lane order (log 31). -/
structure AccRes where
  accs : List Nat
  outs : List Nat
  flags : Nat
  accFault : Option (Nat × Nat × Nat)
  outFault : Option (Nat × Nat × Nat)
  gen : BitVec 32
  deriving DecidableEq, Repr

def accLanes (step : Nat → BitVec 32 → Elem × BitVec 32) (out : Option (Nat → BitVec 32 → Elem × BitVec 32)) :
    Nat → Nat → BitVec 32 → AccRes
  | 0, _, g => { accs := [], outs := [], flags := 0, accFault := none, outFault := none, gen := g }
  | n + 1, k, g =>
    let (e, g) := step k g
    let (o, g) := match out with
      | some f => f e.code g
      | none => (Elem.plain 0, g)
    let r := accLanes step out n (k + 1) g
    { accs := e.code :: r.accs, outs := o.code :: r.outs, flags := e.flags ||| o.flags ||| r.flags, gen := r.gen,
      accFault := if e.cause ≠ 0 then some (k, e.cause, e.own) else r.accFault,
      outFault := if o.cause ≠ 0 then some (k, o.cause, o.own) else r.outFault }

/-- The value held per lane, or the poison that stands for all later results. -/
def heldAcc (m : OpMem) : List AccVal :=
  match m with
  | .acc _ vs => vs
  | _ => []

/-- Running values of a format, with the tag of their register (04_numbers.md R116). -/
def accOf (code : Nat) (vs : List AccVal) : OpMem := .acc (tagOf code 0) vs

/-- No running value: the register is empty. -/
def accNone : OpMem := .acc 0 []

/-- A poison in place of the running values. -/
def accPoisoned (b : Beat) : OpMem := .acc 0 [.poison b]

/-- The register's tag is not that of the format in which its values are used (04_numbers.md R116). -/
def tagDiffers (m : OpMem) (code : Nat) : Bool :=
  match m with
  | .acc t vs => (vs.any (fun v => match v with
    | .val _ => true
    | _ => false)) && t != tagOf code 0
  | _ => false

def accCode (vs : List AccVal) (k : Nat) : Option Nat :=
  match vs[k]? with
  | some (.val x) => some x
  | _ => none

def accPoison (vs : List AccVal) : Option Beat :=
  match vs with
  | .poison b :: _ => some b
  | _ => none

/-- Level at which a stop leaves a closing accumulation or reduction (R307, R308). -/
def closedLevel (alev l : Nat) : Nat := if l = 7 then 7 else l - alev + 1

/-- A stop that closes: the result, then the stop at its new level. -/
def OpView.closeWith (v : OpView) (from_ : List Nat) (alev l : Nat) (res : Beat) (flags : Nat)
    (gen : Option (BitVec 32)) : Fire :=
  .go { take := from_, emit := v.toAll res ++ v.toAll (stopBeat (closedLevel alev l)), mem := some accNone,
        flags := flags, gen := gen }

/-- The result of an accumulation at a closing stop: its poison, its values rounded to the output format, or +0. -/
def OpView.accClose (v : OpView) (from_ : List Nat) (r : Rounding) (af : Nat) (alev l : Nat) (vs : List AccVal) : Fire :=
  let fo := v.outFmt 0
  match accPoison vs with
  | some b => v.closeWith from_ alev l b 0 none
  | none =>
    if tagDiffers v.op.mem af then .trap { cause := 0x03 }
    else if vs.isEmpty then v.closeWith from_ alev l (dataBeat 0) 0 none
    else
      let res := runLanes (fun k g => cvtLane fo r af [(accCode vs k).getD 0] g) vs.length 0 v.tile.gen
      match res.fault with
      | none => v.closeWith from_ alev l (beatOf fo res.codes) res.flags (some res.gen)
      | some (lane, cause, own) =>
        match v.poisonFor cause lane with
        | some b => v.closeWith from_ alev l b (own ||| res.flags) (some res.gen)
        | none => .trap { cause := cause, lane := lane, flags := own }

/-- One data beat of an accumulation. -/
def OpView.accData (v : OpView) (kind : Nat) (running : Bool) (r : Rounding) (af : Nat) (vs : List AccVal) (b : Beat) :
    Fire :=
  let fin := v.inFmt 0
  let w := fmtWidth fin
  if tagDiffers v.op.mem af then .trap { cause := 0x03 }
  else
  match floatOf af, floatOf fin with
  | some fa, some fi =>
    let fo := v.outFmt 0
    let out : Option (Nat → BitVec 32 → Elem × BitVec 32) :=
      if running then some (fun x g => cvtLane fo r af [x] g) else none
    let res := accLanes (fun k g => accStep kind r fa fi (accCode vs k) (b.lane w k) g) out (v.inLanes 0) 0 v.tile.gen
    let kept := res.accs.map AccVal.val
    match res.accFault, res.outFault with
    | some (lane, cause, own), o =>
      let first : Nat × Nat × Nat := match o with
        | some x => if x.1 < lane then x else (lane, cause, own)
        | none => (lane, cause, own)
      (match v.poisonFor cause lane with
        | some p => .go { take := [0], emit := if running then v.toAll p else [], mem := some (accPoisoned p),
                          flags := own ||| res.flags, gen := some res.gen }
        | none => .trap { cause := first.2.1, lane := first.1, flags := first.2.2 })
    | none, some (lane, cause, own) =>
      (match v.poisonFor cause lane with
        | some p => .go { take := [0], emit := v.toAll p, mem := some (accOf af kept), flags := own ||| res.flags,
                          gen := some res.gen }
        | none => .trap { cause := cause, lane := lane, flags := own })
    | none, none =>
      .go { take := [0], emit := if running then v.toAll (beatOf fo res.outs) else [], mem := some (accOf af kept),
            flags := res.flags, gen := some res.gen }
  | _, _ => .stuck 1

/-- `vadd`, `vmax` and `vmin` with ACC ≠ 0 (R307). -/
def accFire (kind : Nat) (c : OpCfg) (p : VecParam) (v : OpView) : Fire :=
  let running := p.acc.toNat == 1
  let alev := p.alev.toNat
  let r := OpCfg.rounding c
  let af := if p.afmt.toNat = 0 then v.outFmt 0 else p.afmt.toNat
  let vs := heldAcc v.op.mem
  match v.front [0] 0x0B with
  | .done f => f
  | .group from_ b => .go { take := from_, emit := v.toAll b }
  | .stop from_ l =>
    let m : Option OpMem := if alev ≤ l || v.inLevel 0 ≤ l then some accNone else none
    if running then .go { take := from_, emit := v.toAll (stopBeat l), mem := m }
    else if alev ≤ l then v.accClose from_ r af alev l vs
    else .go { take := from_, emit := [], mem := m }
  | .pos bs =>
    match bs with
    | [] => .stuck 1
    | b :: _ =>
      if b.kind = .cond then .go { take := [0], emit := if running then v.toAll holeBeat else [] }
      else
        match accPoison vs with
        | some q =>
          if b.kind = .poison && !v.deferred then gotPoison 0 b
          else .go { take := [0], emit := if running then v.toAll q else [] }
        | none =>
          if b.kind = .poison then
            if v.deferred then
              .go { take := [0], emit := if running then v.toAll b else [], mem := some (accPoisoned b) }
            else gotPoison 0 b
          else v.accData kind running r af vs b

/-! ### Reductions and scans (R308, R113) -/

/-- One combination: 0 add, 1 max, 2 min. An addition rounds; the larger or smaller operand is taken as it is (R113). -/
def combine (op : Nat) (r : Rounding) (code x y : Nat) (g : BitVec 32) : Elem × BitVec 32 :=
  match op with
  | 0 => addLane r code [x, y] g
  | k => (pickEl (k == 2) r code x y, g)

/-- An element that stands for a result on its own: a NaN is the canonical one (R92). -/
def alone (code x : Nat) : Nat :=
  match floatOf code with
  | some fm => if (decodeF fm x).isNaN then fm.nanCode else x
  | none => x

/-- What a part of a reduction comes to. -/
structure Partial where
  /-- each value with its lowest lane -/
  vals : List (Nat × Nat)
  flags : Nat
  fault : Option (Nat × Nat × Nat)
  gen : BitVec 32
  deriving DecidableEq, Repr

/-- One level of the tree: element 2i with element 2i + 1 (R113). -/
def pairUp (op : Nat) (r : Rounding) (code : Nat) : List (Nat × Nat) → BitVec 32 → Partial
  | x :: y :: rest, g =>
    let (e, g) := combine op r code x.2 y.2 g
    let q := pairUp op r code rest g
    { vals := (x.1, e.code) :: q.vals, flags := e.flags ||| q.flags, gen := q.gen,
      fault := if e.cause ≠ 0 then some (x.1, e.cause, e.own) else q.fault }
  | xs, g => { vals := xs, flags := 0, fault := none, gen := g }

def treeOf (op : Nat) (r : Rounding) (code : Nat) : Nat → List (Nat × Nat) → BitVec 32 → Partial
  | 0, xs, g => { vals := xs, flags := 0, fault := none, gen := g }
  | n + 1, xs, g =>
    match xs with
    | _ :: _ :: _ =>
      let q := pairUp op r code xs g
      (match q.fault with
        | some _ => q
        | none =>
          let t := treeOf op r code n q.vals q.gen
          { t with flags := q.flags ||| t.flags })
    | _ => { vals := xs, flags := 0, fault := none, gen := g }

/-- A running value combined lane by lane with a beat's values. -/
def onto (op : Nat) (r : Rounding) (code : Nat) (vs : List AccVal) (xs : List (Nat × Nat)) (g : BitVec 32) : LaneRes :=
  runLanes (fun k g =>
    let x := ((xs[k]?).getD (0, 0)).2
    match accCode vs k with
    | some a => combine op r code a x g
    | none => (Elem.plain (alone code x), g)) xs.length 0 g

/-- The result of `vred` at a closing stop. -/
def OpView.redClose (v : OpView) (from_ : List Nat) (alev l : Nat) (vs : List AccVal) : Fire :=
  match accPoison vs with
  | some b => v.closeWith from_ alev l b 0 none
  | none =>
    if tagDiffers v.op.mem (v.inFmt 0) then .trap { cause := 0x03 }
    else v.closeWith from_ alev l (beatOf (v.outFmt 0) ((upFrom 0 vs.length).map (fun k => (accCode vs k).getD 0))) 0 none

/-- A fault within a closing that goes on over beats: poison for its result, or a trap. -/
def OpView.redFault (v : OpView) (emits : Bool) (f : Nat × Nat × Nat) (flags : Nat) (g : BitVec 32) : Fire :=
  match v.poisonFor f.2.1 f.1 with
  | some b => .go { take := [0], emit := if emits then v.toAll b else [], mem := some (accPoisoned b),
                    flags := f.2.2 ||| flags, gen := some g }
  | none => .trap { cause := f.2.1, lane := f.1, flags := f.2.2 }

/-- One data beat of `vred`. -/
def OpView.redData (v : OpView) (op span : Nat) (r : Rounding) (vs : List AccVal) (b : Beat) : Fire :=
  let code := v.inFmt 0
  let n := v.inLanes 0
  let xs := (upFrom 0 n).zip ((b.lanes (fmtWidth code) n).map (alone code))
  let t : Partial := if span = 2 then { vals := xs, flags := 0, fault := none, gen := v.tile.gen }
    else treeOf op r code n xs v.tile.gen
  if span = 1 then
    match t.fault with
    | some (lane, cause, own) => v.fault [0] cause lane own t.flags (some t.gen)
    | none => .go { take := [0], emit := v.toAll (beatOf (v.outFmt 0) (t.vals.map (·.2))), flags := t.flags,
                    gen := some t.gen }
  else if tagDiffers v.op.mem code then .trap { cause := 0x03 }
  else
    match t.fault with
    | some f => v.redFault false f t.flags t.gen
    | none =>
      let q := onto op r code vs t.vals t.gen
      match q.fault with
      | some f => v.redFault false f (t.flags ||| q.flags) q.gen
      | none => .go { take := [0], emit := [], mem := some (accOf code (q.codes.map AccVal.val)), flags := t.flags ||| q.flags,
                      gen := some q.gen }

/-- `vred` (R308). A hole of SPAN `lanes` leaves as a hole (log 32). -/
def redFire (c : OpCfg) (p : VecParam) (v : OpView) : Fire :=
  let span := p.span.toNat
  let alev := p.alev.toNat
  let vs := heldAcc v.op.mem
  match v.front [0] 0x0B with
  | .done f => f
  | .group from_ b => .go { take := from_, emit := v.toAll b }
  | .stop from_ l =>
    if span = 1 then .go { take := from_, emit := v.toAll (stopBeat l) }
    else if alev ≤ l then v.redClose from_ alev l vs
    else .go { take := from_, emit := [] }
  | .pos bs =>
    match bs with
    | [] => .stuck 1
    | b :: _ =>
      if b.kind = .cond then .go { take := [0], emit := if span = 1 then v.toAll holeBeat else [] }
      else if b.kind = .poison then
        if !v.deferred then gotPoison 0 b
        else if span = 1 then .go { take := [0], emit := v.toAll b }
        else .go { take := [0], emit := [], mem := if (accPoison vs).isSome then none else some (accPoisoned b) }
      else if (accPoison vs).isSome then .go { take := [0], emit := [] }
      else v.redData p.op.toNat span (OpCfg.rounding c) vs b

/-- Inclusive scan of a beat's lanes from a running value: the results, the last of which runs on. -/
def scanLanes (op : Nat) (r : Rounding) (code : Nat) : Option Nat → Nat → List Nat → BitVec 32 → LaneRes
  | _, _, [], g => { codes := [], flags := 0, fault := none, gen := g }
  | acc, k, x :: xs, g =>
    let (e, g) := match acc with
      | some a => combine op r code a x g
      | none => (Elem.plain (alone code x), g)
    let q := scanLanes op r code (some e.code) (k + 1) xs g
    { codes := e.code :: q.codes, flags := e.flags ||| q.flags, gen := q.gen,
      fault := if e.cause ≠ 0 then some (k, e.cause, e.own) else q.fault }

/-- `vscan` (R308). -/
def scanFire (c : OpCfg) (p : VecParam) (v : OpView) : Fire :=
  let vs := heldAcc v.op.mem
  match v.front [0] 0x0B with
  | .done f => f
  | .group from_ b => .go { take := from_, emit := v.toAll b }
  | .stop from_ l =>
    .go { take := from_, emit := v.toAll (stopBeat l), mem := if p.alev.toNat ≤ l then some accNone else none }
  | .pos bs =>
    match bs with
    | [] => .stuck 1
    | b :: _ =>
      if b.kind = .cond then .go { take := [0], emit := v.toAll holeBeat }
      else if b.kind = .poison && !v.deferred then gotPoison 0 b
      else
        match accPoison vs with
        | some q => .go { take := [0], emit := v.toAll q }
        | none =>
          if b.kind = .poison then .go { take := [0], emit := v.toAll b, mem := some (accPoisoned b) }
          else
            let code := v.inFmt 0
            if tagDiffers v.op.mem code then .trap { cause := 0x03 }
            else
            let q := scanLanes p.op.toNat (OpCfg.rounding c) code (accCode vs 0) 0 (b.lanes (fmtWidth code) (v.inLanes 0))
              v.tile.gen
            match q.fault with
            | some f => v.redFault true f q.flags q.gen
            | none => .go { take := [0], emit := v.toAll (beatOf (v.outFmt 0) q.codes),
                            mem := some (accOf code [.val (q.codes.getLast?.getD 0)]), flags := q.flags, gen := some q.gen }

/-! ### The operators -/

/-- An operator that may accumulate. -/
def sumFire (kind : Nat) (f : LaneFn) (c : OpCfg) (p : VecParam) (v : OpView) : Fire :=
  if p.acc.toNat ≠ 0 then accFire kind c p v else vecFire 2 f c p v

def vaddFire := sumFire 0 addLane
def vsubFire := vecFire 2 subLane
def vmulFire := vecFire 2 mulLane
def vfmaFire := vecFire 3 fmaLane
def vmaxFire := sumFire 1 (pickLane false)
def vminFire := sumFire 2 (pickLane true)
def vabsFire := vecFire 1 (signLane false)
def vnegFire := vecFire 1 (signLane true)
def vexp2Fire := vecFire 1 (transLane exp2V)
def vlog2Fire := vecFire 1 (transLane log2V)
def vrcpFire := vecFire 1 (transLane rcpV)
def vrsqrtFire := vecFire 1 (transLane rsqrtV)
def vcvtFire (c : OpCfg) (p : VecParam) (v : OpView) : Fire := vecFire 1 (cvtLane (v.outFmt 0)) c p v
def vcmpFire (c : OpCfg) (p : VecParam) (v : OpView) : Fire := vecFire 2 (cmpLane p.rel.toNat) c p v
def vandFire := vecFire 2 (bitLane (· &&& ·))
def vorFire := vecFire 2 (bitLane (· ||| ·))
def vxorFire := vecFire 2 (bitLane (· ^^^ ·))
def vshlFire := vecFire 2 (shiftLane true)
def vshrFire := vecFire 2 (shiftLane false)

def execVadd (c : OpCfg) (p : VecParam) (s : State) : Host.Outcome State Fault Refusal := execOp (vaddFire c p) s
def execVsub (c : OpCfg) (p : VecParam) (s : State) : Host.Outcome State Fault Refusal := execOp (vsubFire c p) s
def execVmul (c : OpCfg) (p : VecParam) (s : State) : Host.Outcome State Fault Refusal := execOp (vmulFire c p) s
def execVfma (c : OpCfg) (p : VecParam) (s : State) : Host.Outcome State Fault Refusal := execOp (vfmaFire c p) s
def execVmax (c : OpCfg) (p : VecParam) (s : State) : Host.Outcome State Fault Refusal := execOp (vmaxFire c p) s
def execVmin (c : OpCfg) (p : VecParam) (s : State) : Host.Outcome State Fault Refusal := execOp (vminFire c p) s
def execVabs (c : OpCfg) (p : VecParam) (s : State) : Host.Outcome State Fault Refusal := execOp (vabsFire c p) s
def execVneg (c : OpCfg) (p : VecParam) (s : State) : Host.Outcome State Fault Refusal := execOp (vnegFire c p) s
def execVexp2 (c : OpCfg) (p : VecParam) (s : State) : Host.Outcome State Fault Refusal := execOp (vexp2Fire c p) s
def execVlog2 (c : OpCfg) (p : VecParam) (s : State) : Host.Outcome State Fault Refusal := execOp (vlog2Fire c p) s
def execVrcp (c : OpCfg) (p : VecParam) (s : State) : Host.Outcome State Fault Refusal := execOp (vrcpFire c p) s
def execVrsqrt (c : OpCfg) (p : VecParam) (s : State) : Host.Outcome State Fault Refusal := execOp (vrsqrtFire c p) s
def execVcvt (c : OpCfg) (p : VecParam) (s : State) : Host.Outcome State Fault Refusal := execOp (vcvtFire c p) s
def execVcmp (c : OpCfg) (p : VecParam) (s : State) : Host.Outcome State Fault Refusal := execOp (vcmpFire c p) s
def execVand (c : OpCfg) (p : VecParam) (s : State) : Host.Outcome State Fault Refusal := execOp (vandFire c p) s
def execVor (c : OpCfg) (p : VecParam) (s : State) : Host.Outcome State Fault Refusal := execOp (vorFire c p) s
def execVxor (c : OpCfg) (p : VecParam) (s : State) : Host.Outcome State Fault Refusal := execOp (vxorFire c p) s
def execVshl (c : OpCfg) (p : VecParam) (s : State) : Host.Outcome State Fault Refusal := execOp (vshlFire c p) s
def execVshr (c : OpCfg) (p : VecParam) (s : State) : Host.Outcome State Fault Refusal := execOp (vshrFire c p) s
def execVred (c : OpCfg) (p : VecParam) (s : State) : Host.Outcome State Fault Refusal := execOp (redFire c p) s
def execVscan (c : OpCfg) (p : VecParam) (s : State) : Host.Outcome State Fault Refusal := execOp (scanFire c p) s

end Sys2Proof.Machine
end

