-- ==== Sys2Proof/Machine/Blocks.lean ====
section
/-! DEFINITION. Block descriptors and scales (04_numbers.md R93-R99), and the operators `vquant`, `vdequant` and `planes`
(12_operators.md R293-R294, R300-R302). -/

namespace Sys2Proof.Machine

/-! ### Descriptors and scales -/

def dEfmt (d : BitVec 32) : Nat := bf d.toNat 0 8
def dBsize (d : BitVec 32) : Nat := 8 * 2 ^ bf d.toNat 10 2
def dSfmt (d : BitVec 32) : Nat := bf d.toNat 12 3
def dAlign (d : BitVec 32) : Bool := bit d.toNat 17
def dW (d : BitVec 32) : Nat := bf d.toNat 18 5

/-- Block size along k of an operand of `mmp`: one block per chunk where it is neither scaled nor aligned (R297). -/
def dBlock (d : BitVec 32) : Nat := if dSfmt d ≠ 0 || dAlign d then dBsize d else 64

/-- HB of R294. -/
def headCount (d : BitVec 32) : Nat := 1 + b2n (dSfmt d != 0) + b2n (dAlign d)

/-- A block scale decoded: NaN for a NaN block (R96). -/
def scaleV (sfmt code : Nat) : FVal :=
  let c := code % 256
  match sfmt with
  | 0 => .fin Ex.one
  | 1 => if c % 64 = 63 then .nan else .fin (Ex.pow2 (((c % 64 : Nat) : Int) - 32))
  | 2 => decodeF .e8m0 c
  | 3 => (match decodeF .e5m2 c with
    | .fin x => .fin x
    | _ => .nan)
  | _ => decodeF .e4m3 c

/-- q of an E2M1 code (R91). -/
def e2m1Q (c : Nat) : Int :=
  let m : Int := match c % 8 with
    | 0 => 0 | 1 => 1 | 2 => 2 | 3 => 3 | 4 => 4 | 5 => 6 | 6 => 8 | _ => 12
  if bit c 3 then -m else m

/-- typed_int of R93. -/
def typedInt (t c : Nat) : Int :=
  let sgn (m : Nat) : Int := if bit c 3 then -(m : Int) else (m : Int)
  match t with
  | 0 => toSigned c 4
  | 1 => e2m1Q c
  | 2 => sgn (if c % 8 = 0 then 0 else 2 ^ (c % 8 - 1))
  | _ => sgn (if bit c 2 then 4 * 2 ^ (c % 4) else c % 4)

/-- The integer form of an element that is not aligned (R97), with the type of its block. -/
def formOf (fmt t c : Nat) : Int :=
  match fmt with
  | 0x0E => e2m1Q c
  | 0x0F => typedInt t c
  | _ => intOf fmt c

/-- Decoded value of an element before its scale (R89, R91, R93). -/
def elemV (fmt scale c : Nat) : FVal :=
  match fmt with
  | 0x0F =>
    let t := bf scale 6 2
    .fin ((Ex.ofInt (typedInt t c)).mul (if t = 1 then Ex.ofNat 1 2 else Ex.one))
  | _ => (match floatOf fmt with
    | some f => decodeF f c
    | none => .fin (Ex.ofInt (intOf fmt c)))

/-- Scale byte of block `t` of a beat with `n` lanes of width `w` (R293). -/
def Beat.scale (b : Beat) (n w t : Nat) : Nat := bf b.data.toNat (n * w + 8 * t) 8

/-- Payload bits that an order of `n` lanes uses: to the last lane, and to the last scale byte on a block-scaled edge
(R293). -/
def Edge.usedBits (e : Edge) (n : Nat) : Nat :=
  n * fmtWidth e.fmt + (if dSfmt e.desc = 0 then 0 else 8 * (n / dBsize e.desc))

/-- A beat of an output from a payload that comes from storage: lanes that the order does not use are 0 (03_fabric.md
R63), and on a COND edge it is a cond beat (R79). -/
def OpView.outBeat (v : OpView) (p n : Nat) : Beat :=
  match v.outEdge p with
  | some e => if e.fmt = 0x12 then condBeat (bit n 0) else dataBeat (n % 2 ^ e.usedBits e.p.laneCount)
  | none => dataBeat n

/-- A block-scaled beat from its elements and its scale bytes. -/
def blockBeat (w n : Nat) (codes scales : List Nat) : Beat :=
  dataBeat (packLanes w codes + 2 ^ (n * w) * packLanes 8 scales)

def OpView.inDesc (v : OpView) (p : Nat) : BitVec 32 :=
  match v.inEdge p with
  | some e => e.desc
  | none => 0

def OpView.outDesc (v : OpView) (p : Nat) : BitVec 32 :=
  match v.outEdge p with
  | some e => e.desc
  | none => 0

/-! ### `vdequant` (R302) -/

/-- NV once per NaN block (R96): the flag of the lanes that begin one. -/
def dequantLane (r : Rounding) (fi fo sfmt bs n : Nat) (b : Beat) (k : Nat) (g : BitVec 32) : Elem × BitVec 32 :=
  let w := fmtWidth fi
  let sc := b.scale n w (k / bs)
  match floatOf fo with
  | none => (Elem.plain 0, g)
  | some f =>
    match scaleV sfmt sc with
    | .fin s =>
      if s.num = 0 then roundEl r f g (.fin (Ex.zero false)) 0
      else roundEl r f g (mulV (elemV fi sc (b.lane w k)) (.fin s)).1 0
    | _ => (Elem.judge r.sat f.nanCode (if k % bs = 0 then NV else 0), g)

def vdequantFire (c : OpCfg) (v : OpView) : Fire :=
  v.plainFront [0] 0x0B (fun bs => v.elementwise [0] bs (
    match bs with
    | [] => .stuck 1
    | b :: _ =>
      let d := v.inDesc 0
      let n := v.inLanes 0
      let res := runLanes (dequantLane (OpCfg.rounding c) (v.inFmt 0) (v.outFmt 0) (dSfmt d) (dBsize d) n b) n 0 v.tile.gen
      match res.fault with
      | some (lane, cause, own) => v.fault [0] cause lane own res.flags (some res.gen)
      | none => .go { take := [0], emit := v.toAll (beatOf (v.outFmt 0) res.codes), flags := res.flags,
                      gen := some res.gen }))

/-! ### `vquant` (R301) -/

/-- V and e of R301 for an element format and a type. -/
def quantTop (fmt t : Nat) : Nat × Int :=
  match fmt with
  | 0x0E => (6, 2)
  | 0x01 => (7, 2)
  | 0x02 => (15, 3)
  | 0x03 => (127, 6)
  | 0x04 => (255, 7)
  | 0x0B => (448, 8)
  | 0x0C => (57344, 15)
  | _ => (match t with
    | 0 => (7, 2)
    | 1 => (6, 2)
    | 2 => (64, 6)
    | _ => (32, 5))

def clampInt (lo hi i : Int) : Int := if i < lo then lo else if hi < i then hi else i

/-- The scale code of a block whose largest finite magnitude is `amax`, and the flags of its rounding: OF and NX where it
is clamped to the largest finite value (R101; log 33). -/
def quantScale (sfmt fmt t : Nat) (amax : Ex) : Nat × Nat :=
  let (top, e) := quantTop fmt t
  match sfmt with
  | 1 =>
    let x : Int := if amax.num = 0 then 32 else clampInt 0 62 (ilog2 amax.num amax.den - e + 32)
    (t * 64 + x.toNat, 0)
  | 2 => (if amax.num = 0 then 127 else (clampInt 0 254 (ilog2 amax.num amax.den - e + 127)).toNat, 0)
  | k =>
    if amax.num = 0 then (0, 0)
    else
      roundF (if k = 3 then .e5m2 else .e4m3) 3 0 .saturate (.fin (amax.div (Ex.ofNat top 1)))

/-- The code of a NaN block's scale (R301). -/
def nanScale (sfmt t : Nat) : Nat :=
  match sfmt with
  | 1 => t * 64 + 63
  | 2 => 0xFF
  | 3 => 0x7E
  | _ => 0x7F

/-- Range of an element that a narrowed W leaves (R97). -/
def narrowed (fmt w : Nat) : Int × Int :=
  let r := (intRangeOf fmt).getD (0, 0)
  if w = 0 then r
  else if r.1 < 0 then (-(2 ^ (w - 1) : Nat), (2 ^ (w - 1) : Nat) - 1)
  else (0, (2 ^ w : Nat) - 1)

def Ex.abs (x : Ex) : Ex := { x with neg := false }

/-- The typed code nearest to x, ties toward zero, the lowest of equal codes (R301). -/
def nearestTyped (t : Nat) (x : Ex) : Nat :=
  let dist (c : Nat) : Ex := (x.sub (Ex.ofInt (typedInt t c))).abs
  (upFrom 1 15).foldl (fun best c =>
    let a := dist c
    let b := dist best
    if a.lt b || (a.eqv b && decide ((typedInt t c).natAbs < (typedInt t best).natAbs)) then c else best) 0

/-- The largest typed code of a sign. -/
def topTyped (t : Nat) (neg : Bool) : Nat :=
  (upFrom 1 15).foldl (fun best c =>
    if neg then (if typedInt t c < typedInt t best then c else best)
    else (if typedInt t best < typedInt t c then c else best)) 0

/-- One element of a block with scale `s` (R301). -/
def quantEl (r : Rounding) (fmt t w : Nat) (s : Ex) (v : FVal) (g : BitVec 32) : Elem × BitVec 32 :=
  match v with
  | .nan => (Elem.plain 0, g)
  | .inf neg =>
    let top : Nat :=
      if fmt = 0x0F then topTyped t neg
      else
        match floatOf fmt with
        | some f => f.signed neg f.maxCode
        | none =>
          let (lo, hi) := narrowed fmt w
          ofSigned (if neg then lo else hi) (fmtWidth fmt)
    let fl := if (floatOf fmt).isSome || fmt = 0x0F then orF OF NX else SAT
    (if r.sat then { code := top, flags := fl } else { code := top, flags := OF, cause := 1, own := OF }, r.drawn g v)
  | .fin x =>
    let q := if s.num = 0 then Ex.zero false else x.div s
    if fmt = 0x0F then
      let y := if t = 1 then q.mul (Ex.ofNat 2 1) else q
      let c := nearestTyped t y
      ({ code := c, flags := if y.eqv (Ex.ofInt (typedInt t c)) then 0 else NX }, r.drawn g v)
    else
      match floatOf fmt with
      | some f => roundEl r f g (.fin q) 0
      | none =>
        let g' := r.drawn g (.fin q)
        let (i, ix) := roundInt r.rnd g'.toNat q
        let (lo, hi) := narrowed fmt w
        let width := fmtWidth fmt
        if lo ≤ i ∧ i ≤ hi then ({ code := ofSigned i width, flags := if ix then NX else 0 }, g')
        else
          let c := ofSigned (if hi < i then hi else lo) width
          (if r.sat then { code := c, flags := SAT } else { code := c, flags := OF, cause := 1, own := OF }, g')

/-- A block: its scale code with the flags of its rounding, and whether it is a NaN block at one of its lanes. -/
def quantBlock (sfmt fmt t : Nat) (vs : List FVal) : Nat × Nat × Option Nat :=
  let nan := vs.findIdx FVal.isNaN
  if nan < vs.length then (nanScale sfmt t, NV, some nan)
  else
    let amax := vs.foldl (fun m v => match v with
      | .fin x => if m.lt x.abs then x.abs else m
      | _ => m) (Ex.zero false)
    let (c, fl) := quantScale sfmt fmt t amax
    (c, fl, none)

/-- `vquant` (R301). -/
def vquantFire (c : OpCfg) (type : BitVec 2) (v : OpView) : Fire :=
  v.plainFront [0] 0x0B (fun bs => v.elementwise [0] bs (
    match bs, floatOf (v.inFmt 0) with
    | b :: _, some fi =>
      let r := OpCfg.rounding c
      let d := v.outDesc 0
      let fo := v.outFmt 0
      let n := v.inLanes 0
      let size := dBsize d
      let vs := (b.lanes fi.w n).map (decodeF fi)
      let blocks := (upFrom 0 (n / size)).map (fun t => quantBlock (dSfmt d) fo type.toNat ((vs.drop (t * size)).take size))
      let res := runLanes (fun k g =>
        match blocks[k / size]? with
        | some (code, fl, nan) =>
          match nan with
          | some at_ =>
            if k % size = at_ then (Elem.judge r.sat 0 NV, g) else (Elem.plain 0, g)
          | none =>
            let s : Ex := match scaleV (dSfmt d) code with
              | .fin x => x
              | _ => Ex.zero false
            let (e, g) := quantEl r fo type.toNat (dW d) s (vs.getD k .nan) g
            ({ e with flags := e.flags ||| fl }, g)
        | none => (Elem.plain 0, g)) n 0 v.tile.gen
      (match res.fault with
        | some (lane, cause, own) => v.fault [0] cause lane own res.flags (some res.gen)
        | none =>
          .go { take := [0], emit := v.toAll (blockBeat (fmtWidth fo) n res.codes (blocks.map (·.1))),
                flags := res.flags, gen := some res.gen })
    | _, _ => .stuck 1))

/-! ### Slices as integer forms (R97, R99) -/

/-- The block lane count L (R293); 0 where no value fits. -/
def blockLanes (w bs : Nat) (scaled : Bool) : Nat :=
  let fits (l : Nat) : Bool := bs ≤ l && l * w + (if scaled then 8 * l / bs else 0) ≤ 512
  ([64, 32, 16, 8].find? fits).getD 0

def laneCountL (fmt : Nat) (d : BitVec 32) : Nat :=
  if dSfmt d ≠ 0 then blockLanes (fmtWidth fmt) (dBsize d) true else blockLanes (fmtWidth fmt) 1 false

/-- E(v) of R99. -/
def expE (f : Fmt) (x : Ex) : Int := max (ilog2 x.num x.den) (1 - (f.bias : Int))

/-- A block of 64-deep forms: integer forms, X, the NaN mark, flags raised, and a fault (cause and element). -/
structure Forms where
  q : List Int
  x : Int
  nan : Bool
  flags : Nat
  fault : Option (Nat × Nat)
  deriving DecidableEq, Repr

/-- A value brought into a narrowed range (R300). -/
def narrowQ (fmt w : Nat) (sat : Bool) (i : Int) : Int × Nat × Bool :=
  let (lo, hi) := narrowed fmt w
  if lo ≤ i ∧ i ≤ hi then (i, 0, false) else (clampInt lo hi i, if sat then SAT else 0, !sat)

/-- Integer forms of one block (R97, R99, R339). `types` are the types allowed; `policy` is none where a narrowed W is
not checked. -/
def blockForms (fmt : Nat) (d : BitVec 32) (types : Nat) (policy : Option Bool) (scale : Nat) (codes : List Nat) : Forms :=
  let zero : List Int := codes.map (fun _ => 0)
  if (scaleV (dSfmt d) scale).isNaN then { q := zero, x := 0, nan := true, flags := 0, fault := none }
  else if dAlign d then
    match floatOf fmt with
    | none => { q := zero, x := 0, nan := false, flags := 0, fault := none }
    | some f =>
      let vs := codes.map (decodeF f)
      if vs.any (fun v => match v with
          | .fin _ => false
          | _ => true) then { q := zero, x := 0, nan := true, flags := 0, fault := none }
      else
        let xs := vs.filterMap (fun v => match v with
          | .fin x => if x.num = 0 then none else some x
          | _ => none)
        match xs.map (expE f) with
        | [] => { q := zero, x := 0, nan := false, flags := 0, fault := none }
        | e :: es =>
          let big := es.foldl max e
          let q := vs.map (fun v => match v with
            | .fin x =>
              let m := (x.abs.mul (Ex.pow2 ((dW d : Int) - 2 - big))).floor
              if x.neg then -m else m
            | _ => 0)
          { q := q, x := big, nan := false, flags := 0, fault := none }
  else
    let t := bf scale 6 2
    if fmt = 0x0F && !bit types t then { q := zero, x := 0, nan := false, flags := 0, fault := some (2, 0) }
    else
      let raw := codes.map (formOf fmt t)
      match policy with
      | none => { q := raw, x := 0, nan := false, flags := 0, fault := none }
      | some sat =>
        if dW d = 0 then { q := raw, x := 0, nan := false, flags := 0, fault := none }
        else
          let ys := raw.map (narrowQ fmt (dW d) sat)
          let bad := ys.findIdx (fun y => y.2.2)
          { q := ys.map (·.1), x := 0, nan := false, flags := ys.foldl (fun f y => f ||| y.2.1) 0,
            fault := if bad < ys.length then some (1, bad) else none }

/-- The blocks of `rows` rows of 64 elements, from beats of L lanes, row by row (R299, R300). -/
def sliceForms (fmt : Nat) (d : BitVec 32) (types : Nat) (policy : Option Bool) (rows : Nat) (beats : List Beat) :
    List Forms :=
  let l := laneCountL fmt d
  let w := fmtWidth fmt
  let bs := dBlock d
  let per := 64 / l
  let code (r k : Nat) : Nat := ((beats[r * per + k / l]?).getD (dataBeat 0)).lane w (k % l)
  let scale (r t : Nat) : Nat :=
    if dSfmt d = 0 then 0
    else ((beats[r * per + t * bs / l]?).getD (dataBeat 0)).scale l w (t * bs % l / bs)
  (upFrom 0 rows).flatMap (fun r => (upFrom 0 (64 / bs)).map (fun t =>
    blockForms fmt d types policy (scale r t) ((upFrom (t * bs) bs).map (code r))))

/-- Scale bytes of a slice, row by row. -/
def sliceScales (fmt : Nat) (d : BitVec 32) (rows : Nat) (beats : List Beat) : List Nat :=
  let l := laneCountL fmt d
  let w := fmtWidth fmt
  let bs := dBlock d
  (upFrom 0 rows).flatMap (fun r => (upFrom 0 (64 / bs)).map (fun t =>
    if dSfmt d = 0 then 0
    else ((beats[r * (64 / l) + t * bs / l]?).getD (dataBeat 0)).scale l w (t * bs % l / bs)))

/-! ### `planes` (R300) -/

/-- Planes of a format (R97); for TYPED4 the largest of the allowed types. -/
def planeCount (fmt : Nat) (d : BitVec 32) (types : Nat) : Nat :=
  if dAlign d then dW d
  else
    match fmt with
    | 0x00 => 1
    | 0x0E => 5
    | 0x0F => if bit types 2 then 8 else if bit types 3 then 7 else if bit types 1 then 5 else 4
    | 0x01 => if dW d = 0 then 4 else dW d
    | 0x02 => if dW d = 0 then 4 else dW d
    | _ => if dW d = 0 then 8 else dW d

/-- Plane p of the forms of a slice: bit 64r + k is bit p of element (r, k) (R294). -/
def planeOf (p : Nat) (qs : List Int) : Nat := packLanes 1 (qs.map (fun q => ofSigned q (p + 1) / 2 ^ p))

/-- X of a block as a byte: 0x80 for a NaN block (R294). -/
def Forms.xByte (f : Forms) : Nat := if f.nan then 0x80 else ofSigned f.x 8

/-- Beats of a slice: the head beats, and the plane beats. -/
def sliceBeats (fmt : Nat) (d : BitVec 32) (types : Nat) (cmpr : Bool) (fs : List Forms) (scales : List Nat) :
    List Beat × List Beat :=
  let qs := fs.flatMap (·.q)
  let ps := (upFrom 0 (planeCount fmt d types)).map (fun p => planeOf p qs)
  let mask := packLanes 1 (ps.map (fun x => b2n (x != 0)))
  let heads := [dataBeat mask] ++ (if dSfmt d ≠ 0 then [dataBeat (packLanes 8 scales)] else []) ++
    (if dAlign d then [dataBeat (packLanes 8 (fs.map Forms.xByte))] else [])
  (heads, (ps.filter (fun x => !cmpr || x != 0)).map dataBeat)

def planesMem (m : OpMem) : List Beat :=
  match m with
  | .planes bs => bs
  | _ => []

/-- A slice is complete. -/
def OpView.planesSlice (v : OpView) (c : OpCfg) (types : Nat) (cmpr : Bool) (beats : List Beat) : Fire :=
  let fmt := v.inFmt 0
  let d := v.inDesc 0
  let poisoned (p : Beat) (flags : Nat) : Fire :=
    let k := if cmpr then 1 else planeCount fmt d types
    .go { take := [0], mem := some (.planes []), flags := flags,
          emit := (List.replicate (headCount d) p).map (fun b => (1, b)) ++ (List.replicate k p).map (fun b => (0, b)) }
  match beats.find? (fun b => b.kind == .poison) with
  | some p => poisoned p 0
  | none =>
    let fs := sliceForms fmt d types (some c.sat) 8 beats
    let flags := fs.foldl (fun f x => f ||| x.flags) 0
    let bs := dBlock d
    let bad := fs.findIdx (fun f => f.fault.isSome)
    match (fs[bad]?).bind (fun f => f.fault) with
    | some (cause, e) =>
      let l := laneCountL fmt d
      let k := bad % (64 / bs) * bs + e
      let at_ := bad / (64 / bs) * (64 / l) + k / l
      let own := if cause = 1 then OF else NV
      let p := v.poison cause (k % l) (v.posAt 0 + 1 - beats.length + at_)
      if v.deferred then poisoned p (own ||| flags) else .trap { cause := cause, lane := k % l, flags := own, origin := some p }
    | none =>
      let (heads, planes) := sliceBeats fmt d types cmpr fs (sliceScales fmt d 8 beats)
      .go { take := [0], mem := some (.planes []), flags := flags,
            emit := heads.map (fun b => (1, b)) ++ planes.map (fun b => (0, b)) }

/-- `planes` (R300). A final stop stays one, as 03_fabric.md R67 has it; every other leaves at the level that R300's formula gives
(log 34). -/
def planesFire (c : OpCfg) (types : BitVec 4) (cmpr : Bool) (v : OpView) : Fire :=
  let got := planesMem v.op.mem
  let lin := v.inLevel 0
  match v.front [0] 0x0B with
  | .done f => f
  | .group from_ b => .go { take := from_, emit := v.toAll b }
  | .stop from_ l =>
    if !got.isEmpty || l < lin then .trap { cause := 0x0B, port := 0 }
    else .go { take := from_, emit := v.toAll (stopBeat (if l = 7 then 7 else min 7 (3 + l - lin))) }
  | .pos bs =>
    match bs with
    | [] => .stuck 1
    | b :: _ =>
      if b.kind = .cond then .trap { cause := 0x05, port := 0 }
      else if b.kind = .poison && !v.deferred then gotPoison 0 b
      else
        let all := got ++ [b]
        if all.length < 8 * (64 / laneCountL (v.inFmt 0) (v.inDesc 0)) then
          .go { take := [0], emit := [], mem := some (.planes all) }
        else v.planesSlice c types.toNat cmpr all

def execVquant (c : OpCfg) (type : BitVec 2) (s : State) : Host.Outcome State Fault Refusal := execOp (vquantFire c type) s
def execVdequant (c : OpCfg) (s : State) : Host.Outcome State Fault Refusal := execOp (vdequantFire c) s
def execPlanes (c : OpCfg) (types : BitVec 4) (cmpr : Bool) (s : State) : Host.Outcome State Fault Refusal :=
  execOp (planesFire c types cmpr) s

end Sys2Proof.Machine
end

