-- ==== Sys2Proof/Machine/OpRules.lean ====
section
/-! DEFINITION. What arming asks of each operator: its tile type, ports, PARAM values, required input orders, and how its
output orders and formats follow from its inputs (12_operators.md, 08_encodings.md R193-R195, 18_arming.md R345-R360). -/

namespace Sys2Proof.Machine

/-! ### Tiles (R345, R194) -/

/-- The tile type that hosts an opcode; none for one that no image may place (R194). -/
def opHost (op : Nat) : Option Nat :=
  if op = 0x10 || op = 0x11 || (0x20 ≤ op && op ≤ 0x37) then some 0
  else if 0x40 ≤ op && op ≤ 0x43 then some 1
  else if 0x50 ≤ op && op ≤ 0x52 then some 2
  else if 0x60 ≤ op && op ≤ 0x63 then some 3
  else if 0x71 ≤ op && op ≤ 0x7C then some 4
  else none

/-- Operators that round by RND (R193, R304). -/
def opRounds (op : Nat) : Bool :=
  (0x20 ≤ op && op ≤ 0x2C) || (0x33 ≤ op && op ≤ 0x36)

/-- Operators that have an overflow (R193, R101). -/
def opOverflows (op : Nat) : Bool :=
  opRounds op || op = 0x10 || op = 0x31 || op = 0x37

/-! ### Ports (R283) -/

/-- Edge number that the word gives an input or output port; 0xFFF for none. -/
def wordIn (w : OpWord) (p : Nat) : Nat :=
  if p < 4 then bf w.toNat (192 + 12 * p) 12
  else if opc w = 0x73 then bf w.toNat (96 + 12 * (p - 4)) 12
  else 0xFFF

def wordOut (w : OpWord) (p : Nat) : Nat :=
  if p < 4 then bf w.toNat (144 + 12 * p) 12
  else if opc w = 0x74 || opc w = 0x75 then bf w.toNat (96 + 12 * (p - 4)) 12
  else 0xFFF

def hasIn (w : OpWord) (p : Nat) : Bool := wordIn w p != 0xFFF
def hasOutW (w : OpWord) (p : Nat) : Bool := wordOut w p != 0xFFF

/-- Inputs of an elementwise operator. -/
def vecArity (op : Nat) : Nat :=
  if op = 0x23 then 3 else if (0x26 ≤ op && op ≤ 0x2C) || op = 0x33 || op = 0x34 then 1 else 2

/-- Ports that must be connected, and those that may be: inputs, then outputs. -/
def opPorts (w : OpWord) : (List Nat × List Nat) × (List Nat × List Nat) :=
  let op := opc w
  let req (i o : List Nat) : (List Nat × List Nat) × (List Nat × List Nat) := ((i, []), (o, []))
  let ways := param w 93 3 + 1
  if 0x20 ≤ op && op ≤ 0x34 then
    req (upFrom 0 (if param w 134 2 ≠ 0 then 1 else vecArity op - b2n (bit w.toNat 123))) [0]
  else
    match op with
    | 0x10 => req ([0, 1] ++ (if bit w.toNat 32 then [2] else [])) [0]
    | 0x11 => req [0] []
    | 0x37 => req [0] [0, 1]
    | 0x41 =>
      ((if hasIn w 0 then [0, 1] else [], if hasIn w 0 then [2] else [0, 2]),
        (if hasIn w 2 then [0] else [], []))
    | 0x42 => req [0] (upFrom 0 (param w 142 2 + 1))
    | 0x43 => req [0, 1] [0]
    | 0x50 => req [] [0]
    | 0x61 => req [0, 1] []
    | 0x62 => ((([0, 1] : List Nat), []), ([], if bit w.toNat 137 then [] else [0]))
    | 0x63 => if bit w.toNat 100 then req [] [0] else req [0] []
    | 0x71 => (([0], []), ([0], [1]))
    | 0x72 => (([], [0, 1]), ([0], []))
    | 0x73 => req (upFrom 0 ways) [0]
    | 0x74 => req [0] (upFrom 0 ways)
    | 0x75 => req [0] (upFrom 0 ways)
    | 0x76 => req [0, 1] [0]
    | 0x77 => req [0, 1, 2] [0]
    | 0x7A => req [0, 1] [0]
    | 0x7B => (([0], [1]), (if hasIn w 1 then [0, 1] else [0], []))
    | _ => req [0] [0]

/-- Each port is connected or not as the operator's description says. -/
def portsOk (w : OpWord) : Bool :=
  let ((ri, mi), (ro, mo)) := opPorts w
  (upFrom 0 8).all (fun p =>
    (if ri.contains p then hasIn w p else mi.contains p || !hasIn w p) &&
      (if ro.contains p then hasOutW w p else mo.contains p || !hasOutW w p))

/-! ### Descriptors (R94, R95) -/

def descOk (d : BitVec 32) : Bool :=
  let e := dEfmt d
  let s := dSfmt d
  let w := dW d
  let fp8 := s = 2 || s = 3 || s = 4
  bf d.toNat 23 9 == 0 && bf d.toNat 8 2 == 0 && bf d.toNat 10 2 != 3 && bf d.toNat 15 2 != 3 && decide (s < 5) &&
    (if dAlign d then (e == 0x0B || e == 0x0C || e == 0x09) && (s == 0 || fp8) && decide (4 ≤ w) && decide (w ≤ 24)
      else if e = 0x0F then s == 1 && w == 0
      else if e = 0x0E then fp8 && w == 0
      else if 1 ≤ e && e ≤ 4 then (s == 0 || fp8) && (w == 0 || (decide (2 ≤ w) && decide (w ≤ fmtWidth e)))
      else if e = 0 then s == 0 && w == 0
      else (e == 0x0B || e == 0x0C) && fp8 && w == 0)

/-- A format of an operand of the matrix engine with its descriptor (R97); no tensor scale travels (R293). -/
def operandOk (fmt : Nat) (d : BitVec 32) : Bool :=
  if d = 0 then fmt ≤ 4
  else descOk d && bf d.toNat 15 2 == 0 && (fmt ≤ 4 || fmt == 0x0E || fmt == 0x0F || dAlign d)

/-! ### PARAM values (R285) -/

/-- Values that a PARAM row does not allow, reserved bits apart. -/
def paramValues (w : OpWord) : Bool :=
  let op := opc w
  let p (lo len : Nat) : Nat := param w lo len
  if 0x20 ≤ op && op ≤ 0x34 then
    let acc := p 134 2
    let red := op = 0x33 || op = 0x34
    let closes := acc ≠ 0 || op = 0x34 || (op = 0x33 && p 124 2 ≠ 1)
    acc != 3 && (acc == 0 || op == 0x20 || op == 0x24 || op == 0x25) &&
      (if closes then p 131 3 != 0 else p 131 3 == 0) &&
      (if op = 0x2D then decide (p 128 3 < 6) else p 128 3 == 0) &&
      (if red then p 126 2 != 3 else p 126 2 == 0) &&
      (if op = 0x33 then p 124 2 != 0 else p 124 2 == 0) &&
      (if acc ≠ 0 then p 136 8 == 0 || p 136 8 == 8 || p 136 8 == 9 || p 136 8 == 10 else p 136 8 == 0) &&
      !(bit w.toNat 123 && (acc != 0 || vecArity op == 1))
  else
    match op with
    | 0x10 =>
      let bd : BitVec 32 := BitVec.ofNat 32 (p 48 32)
      let ts := bf bd.toNat 15 2
      descOk bd && p 112 32 == 0 && (if ts = 0 then p 80 32 == 0 else ts != 1 || p 80 16 == 0)
    | 0x42 => p 131 11 != 0
    | 0x51 => 1 ≤ p 112 32 && p 112 32 ≤ 2 ^ 24 && p 80 32 != 0
    | 0x52 => 1 ≤ p 112 32 && p 112 32 ≤ 2 ^ 24 && p 80 32 != 0
    | 0x60 => p 100 38 == 0
    | 0x61 => p 100 38 == 0
    | 0x62 => p 133 4 ≤ 8 && p 100 1 == 0
    | 0x63 => p 101 37 == 0
    | 0x71 => p 132 4 ≤ p 136 8
    | 0x72 => 1 ≤ p 113 3 && p 113 3 ≤ 6
    | 0x73 => p 93 3 != 0
    | 0x74 => p 93 3 != 0
    | 0x75 => p 93 3 != 0
    | 0x79 => p 125 3 != 0 && (p 106 3 == 0 || decide (p 125 3 < p 106 3))
    | _ => true

/-- Beats of an M tile's memory that an operator takes (R309). -/
def tileBeats (w : OpWord) : Nat :=
  match opc w with
  | 0x40 => param w 131 13 + 1
  | 0x41 => param w 131 13 + 1
  | 0x42 => param w 142 2 * param w 131 11
  | 0x43 => param w 131 13 + 1
  | _ => 0

/-! ### Orders -/

def fac (d e s : Nat) : Factor := { dim := d, ext := e, step := s, ragged := false }

/-- K chunks, 8-row groups and the ragged mark of a declared operand order (R295). -/
def kcMg (o : Order) : Nat × Nat × Bool :=
  (max 1 (o.extent 2 / 64), max 1 (o.extent 0 / 8), o.beats.any (fun f => f.dim == 0 && f.ragged))

def groupFac (mg : Nat) (rag : Bool) (step : Nat) : Factor := { dim := 0, ext := mg, step := step, ragged := rag }

/-- Orders of the plane edge, the HEAD edge and the result of `mmp` (R295). -/
def planeOrder (planes kc mg : Nat) (rag : Bool) : Order :=
  { lanes := [fac 2 64 1, fac 0 8 1], beats := [fac 3 planes 1, fac 2 kc 64, groupFac mg rag 8] }
def headOrder (hb kc mg : Nat) (rag : Bool) : Order :=
  { lanes := [fac 1 64 1], beats := [fac 3 hb 1, fac 2 kc 1, groupFac mg rag 1] }
def resultOrder (mg : Nat) (rag : Bool) : Order :=
  { lanes := [fac 1 16 1], beats := [fac 1 4 16, fac 0 8 1, groupFac mg rag 8] }

/-- An order and the format that travel on an edge. -/
structure Strm where
  o : Order
  fmt : Nat
  desc : BitVec 32
  deriving DecidableEq, Repr

def Edge.declared (e : Edge) : Strm := { o := e.q, fmt := e.fmt, desc := e.desc }

/-- How an input port takes its order (R359). -/
inductive Required
  | fixed (o : Order)
  | declared
  | open_
  deriving DecidableEq, Repr

/-- Plane count of `mmp`: of a TYPED4 edge the extent of its l factor (R295). -/
def mmpPlanes (s : Strm) : Nat := if s.fmt = 0x0F then s.o.extent 3 else planeCount s.fmt s.desc 0

/-- R359 for input `p`: fixed by the operator's description, requiring its declared order (R337, and the COND inputs,
whose order R79 gives), or open. `ins` are the declared orders and formats of the inputs, `out` that of out0. -/
def requiredOf (w : OpWord) (ins : Nat → Option Strm) (out : Option Strm) (p : Nat) : Required :=
  match opc w, p with
  | 0x10, p =>
    match ins 0 with
    | some a =>
      let (kc, mg, rag) := kcMg a.o
      if !operandOk a.fmt a.desc then .declared
      else if p = 0 then .fixed (planeOrder (mmpPlanes a) kc mg rag)
      else if p = 1 then .fixed (headOrder (headCount a.desc) kc mg rag)
      else .fixed (resultOrder mg rag)
    | none => .declared
  | 0x11, _ =>
    match ins 0 with
    | some a =>
      let l := laneCountL a.fmt a.desc
      if l = 0 then .declared
      else .fixed { lanes := [fac 2 l 1], beats := [fac 2 (64 / l) l, fac 1 64 1, fac 2 (kcMg a.o).1 64] }
    | none => .declared
  | 0x37, _ =>
    match ins 0 with
    | some a =>
      let l := laneCountL a.fmt a.desc
      let (kc, mg, rag) := kcMg a.o
      if l = 0 then .declared
      else .fixed { lanes := [fac 2 l 1], beats := [fac 2 (64 / l) l, fac 0 8 1, fac 2 kc 64, groupFac mg rag 8] }
    | none => .declared
  | 0x78, _ =>
    match out with
    | some o => .fixed o.o
    | none => .declared
  | 0x61, 1 => .declared
  | 0x62, 1 => .declared
  | 0x63, _ => .declared
  | 0x76, 1 => .declared
  | 0x77, 0 => .declared
  | 0x7A, 1 => .declared
  | _, _ => .open_

/-! ### Refusals and output orders (R360) -/

/-- Codes of a failed check: event code and subcause (R357). -/
structure Refuse where
  code : Nat
  sub : Nat
  deriving DecidableEq, Repr

def rOperand : Refuse := ⟨0x10, 21⟩
def rBlock : Refuse := ⟨0x10, 22⟩
def rShape : Refuse := ⟨0x11, 23⟩
def rDescriptor : Refuse := ⟨0x10, 18⟩

/-- The first check that fails. -/
def firstBad : List (Bool × Refuse) → Option Refuse
  | [] => none
  | (ok, r) :: rest => if ok then firstBad rest else some r

def isF (fmt : Nat) : Bool := fmt == 8 || fmt == 9 || fmt == 10
def isI (fmt : Nat) : Bool := 3 ≤ fmt && fmt ≤ 7
def isSignedI (fmt : Nat) : Bool := fmt == 3 || fmt == 5 || fmt == 6

/-- RND, OVF and PARAM as far as they hang on the format codes of in0 and out0 (R285, R300, R301, R303, R304). -/
def paramFits (w : OpWord) (fin fout : Nat) : Bool :=
  let op := opc w
  if 0x20 ≤ op && op ≤ 0x34 then
    let exact := op = 0x24 || op = 0x25 || op = 0x26 || op = 0x27 || (0x2E ≤ op && op ≤ 0x30)
    (isF fin || op == 0x2C || bf w.toNat 243 3 == 0) && !(isF fin && exact && param w 134 2 == 0 && bit w.toNat 246)
  else
    match op with
    | 0x35 => fout == 0x0F || param w 142 2 == 0
    | 0x37 => (param w 140 4 != 0) == (fin == 0x0F)
    | _ => true

/-- Formats that a vector operator takes (R304, R306-R308). -/
def vecFormats (op acc fmt : Nat) : Bool :=
  if acc ≠ 0 then isF fmt
  else if op = 0x23 || (0x28 ≤ op && op ≤ 0x2B) then isF fmt
  else if op = 0x26 || op = 0x27 then isF fmt || isSignedI fmt
  else if op = 0x2C then isF fmt || isI fmt || fmt == 0x0B || fmt == 0x0C
  else if 0x2E ≤ op && op ≤ 0x32 then isI fmt
  else isF fmt || isI fmt

/-- Beat factors at or above a nesting level (R307, R308). -/
def dropLevels (o : Order) (alev : Nat) : Order := { lanes := o.norm.lanes, beats := o.norm.beats.drop (alev - 1) }

def Strm.plain (o : Order) (fmt : Nat) : Strm := { o := o, fmt := fmt, desc := 0 }

/-- Outputs of an operator, by port; none where the edge's own declaration stands. -/
abbrev Outs := Nat → Option Strm

def allOuts (s : Strm) : Outs := fun _ => some s

/-- A vector operator (R303-R308). -/
def deriveVec (w : OpWord) (ins outs : Nat → Option Strm) : Except Refuse Outs :=
  let op := opc w
  let acc := param w 134 2
  match ins 0 with
  | none => .error rOperand
  | some a =>
    if op = 0x2C || op = 0x2D then
      match outs 0 with
      | none => .error rOperand
      | some o =>
        let cond := op = 0x2D && o.fmt = 0x12
        match firstBad [(!cond || a.o.laneCount == 1, rShape)] with
        | some r => .error r
        | none => .ok (allOuts (Strm.plain (if cond then { a.o with lanes := [] } else a.o) o.fmt))
    else if op = 0x33 || acc = 2 then
      let span := if op = 0x33 then param w 124 2 else 2
      let o := if span = 1 then a.o else dropLevels a.o (param w 131 3)
      .ok (allOuts (Strm.plain { o with lanes := if span = 2 then o.lanes else [] } a.fmt))
    else .ok (allOuts a)

/-- A COND edge beside data beats of order `o` (R79). -/
def condChecks (c : Strm) (o : Order) : List (Bool × Refuse) :=
  [(c.fmt == 0x12, rOperand), (c.o.norm.lanes.isEmpty && c.o.norm.beats == o.norm.beats, rShape)]

/-- Index and offset streams. -/
def indexChecks (s : Strm) : List (Bool × Refuse) := [(s.fmt == 0x11 && s.desc == 0, rOperand)]
def offsetChecks (s : Strm) : List (Bool × Refuse) := [(s.fmt == 0x13 && s.desc == 0, rOperand)]

/-- The edge of the `mmload` of an `mmp`'s tile. -/
abbrev Mate := Option Strm

/-- The result format of `mmp` for an A and a B operand (R295). -/
def mmpResult (w : OpWord) (a b : Strm) : Nat :=
  if a.fmt ≤ 4 && b.fmt ≤ 4 && dSfmt a.desc == 0 && dSfmt b.desc == 0 && bf (param w 48 32) 15 2 == 0 then 6 else 10

/-- What step 8 asks of the stream that enters input `p`: the COND order (R79), arms of one format (R81), formats that
the operator accepts, and formats that must be equal (R285). -/
def inChecks (w : OpWord) (ins outs : Nat → Option Strm) (mate : Mate) (p : Nat) : List (Bool × Refuse) :=
  match ins p with
  | none => []
  | some x =>
    let like (y : Option Strm) : List (Bool × Refuse) :=
      [(y.all (fun y => x.fmt == y.fmt && x.desc == y.desc), rOperand)]
    let operand : List (Bool × Refuse) := [(operandOk x.fmt x.desc, rOperand)]
    let cond (y : Option Strm) : List (Bool × Refuse) :=
      match y with
      | some y => condChecks x y.o
      | none => []
    if 0x20 ≤ opc w && opc w ≤ 0x34 then
      (x.desc == 0 && vecFormats (opc w) (param w 134 2) x.fmt, rOperand) :: like (ins 0)
    else
      match opc w, p with
      | 0x10, 0 => operand
      | 0x10, 1 => [(x.fmt == 4 && x.desc == 0, rOperand)]
      | 0x10, _ =>
        (match ins 0, mate with
          | some a, some b => [(x.fmt == mmpResult w a b && x.desc == 0, rOperand)]
          | _, _ => [])
      | 0x11, _ => operand
      | 0x35, _ => [(isF x.fmt && x.desc == 0, rOperand)]
      | 0x36, _ => [(dSfmt x.desc != 0 && !dAlign x.desc && bf x.desc.toNat 15 2 == 0, rOperand)]
      | 0x37, _ => operand
      | 0x41, 0 => indexChecks x
      | 0x41, 2 => indexChecks x
      | 0x51, _ => indexChecks x
      | 0x52, _ => indexChecks x
      | 0x60, _ => offsetChecks x
      | 0x61, 0 => offsetChecks x
      | 0x62, 0 => offsetChecks x
      | 0x62, _ => [((if bit w.toNat 137 then x.fmt == 10 else x.fmt == 6 || x.fmt == 7) && x.desc == 0, rOperand)]
      | 0x71, _ => [(isF x.fmt && x.desc == 0, rOperand)]
      | 0x73, _ => like (ins 0)
      | 0x76, 1 => cond (ins 0)
      | 0x77, 0 => cond (ins 1)
      | 0x77, 2 => like (ins 1)
      | 0x78, _ => like (outs 0)
      | 0x7A, 1 => cond (ins 0)
      | 0x7B, 0 => [((x.fmt == 6 || x.fmt == 7 || x.fmt == 10) && x.desc == 0 && x.o.laneCount ≤ 16, rOperand)]
      | 0x7B, _ => [(fmtWidth x.fmt == 32 && x.desc == 0, rOperand)]
      | 0x7C, _ => offsetChecks x
      | _, _ => []

/-- Formats that an operator gives on out0 and its edge's declaration chooses among (R285). -/
def outChecks (w : OpWord) (outs : Nat → Option Strm) (p : Nat) : List (Bool × Refuse) :=
  match outs p with
  | none => []
  | some x =>
    let vec : Bool := isF x.fmt || isI x.fmt || x.fmt == 0x0B || x.fmt == 0x0C
    let scaled : Bool := (1 ≤ x.fmt && x.fmt ≤ 4) || x.fmt == 0x0B || x.fmt == 0x0C || x.fmt == 0x0E || x.fmt == 0x0F
    match opc w with
    | 0x2C => [(x.desc == 0 && vec, rOperand)]
    | 0x2D => [(x.desc == 0 && (x.fmt == 0x12 || isI x.fmt), rOperand)]
    | 0x35 => [(scaled && dSfmt x.desc != 0 && !dAlign x.desc && bf x.desc.toNat 15 2 == 0, rOperand)]
    | 0x36 => [(isF x.fmt && x.desc == 0, rOperand)]
    | _ => []

def deriveMmp (w : OpWord) (ins : Nat → Option Strm) (mate : Mate) : Except Refuse Outs :=
  match ins 0, mate with
  | some a, some b =>
    let (kc, mg, rag) := kcMg a.o
    let p := mmpPlanes a
    match firstBad [(dSfmt a.desc == 0 || dSfmt b.desc == 0 || dBsize a.desc == dBsize b.desc, rBlock),
        (a.fmt != 0x0F || p == 4 || p == 5 || p == 7 || p == 8, rOperand), (decide (1 ≤ kc), rShape)] with
    | some r => .error r
    | none => .ok (allOuts (Strm.plain (resultOrder mg rag) (mmpResult w a b)))
  | _, _ => .error rOperand

/-- The rule of an operator: its own refusals of order and block layout, or its outputs from the required orders and
declared formats of its inputs and the declarations of its outputs. What R73, R79, R81 and R285 ask of formats is asked
edge by edge in step 8 (R358; `inChecks`, `outChecks`). -/
def deriveOp (w : OpWord) (ins outs : Nat → Option Strm) (mate : Mate) : Except Refuse Outs :=
  let op := opc w
  let done (cs : List (Bool × Refuse)) (o : Outs) : Except Refuse Outs :=
    match firstBad cs with
    | some r => .error r
    | none => .ok o
  let a : Strm := (ins 0).getD (Strm.plain { lanes := [], beats := [] } 0)
  let b : Strm := (ins 1).getD (Strm.plain { lanes := [], beats := [] } 0)
  let c : Strm := (ins 2).getD (Strm.plain { lanes := [], beats := [] } 0)
  let x : Strm := (outs 0).getD (Strm.plain { lanes := [], beats := [] } 0)
  let one (s : Strm) : Outs := fun p => if p = 0 then some s else none
  let own : Outs := fun _ => none
  if 0x20 ≤ op && op ≤ 0x34 then deriveVec w ins outs
  else
    match op with
    | 0x10 => deriveMmp w ins mate
    | 0x11 =>
      done [(!dAlign a.desc || dW a.desc ≤ 16, rDescriptor),
        (laneCountL a.fmt a.desc != 0, rBlock)] own
    | 0x35 =>
      .ok (one { x with o := a.o })
    | 0x36 =>
      .ok (one (Strm.plain a.o x.fmt))
    | 0x37 =>
      let (kc, mg, rag) := kcMg a.o
      done [(laneCountL a.fmt a.desc != 0, rBlock)]
        (fun p =>
          if p = 0 then some { a with o := planeOrder (planeCount a.fmt a.desc (param w 140 4)) kc mg rag }
          else some (Strm.plain (headOrder (headCount a.desc) kc mg rag) 4))
    | 0x41 =>
      let wr := (ins 0).isSome
      let rd := (ins 2).isSome
      let lanesOut := { x with o := { x.o with beats := c.o.beats } }
      done [(!wr || (a.o.laneCount == 1 && a.o.norm.beats == b.o.norm.beats), rShape), (!rd || c.o.laneCount == 1, rShape)]
        (one (if wr then { lanesOut with fmt := b.fmt, desc := b.desc } else lanesOut))
    | 0x50 =>
      let n := (param w 128 16 + 1) * (param w 112 16 + 1) * (param w 96 16 + 1) * (param w 80 16 + 1)
      done [(x.o.laneCount == 1 && x.o.beatCount == n, rShape)] (one (Strm.plain x.o 0x13))
    | 0x51 =>
      let d := param w 46 2
      done [(!a.o.has d, rShape)]
        (one (Strm.plain { lanes := [], beats := fac d (param w 112 32) 1 :: a.o.lanes ++ a.o.beats } 0x13))
    | 0x52 =>
      let d := param w 46 2
      done [(!a.o.has d, rShape)]
        (one (Strm.plain { lanes := [], beats := fac d (param w 112 32) 1 :: a.o.lanes ++ a.o.beats } 0x13))
    | 0x60 => .ok own
    | 0x61 => done [(a.o.norm.beats == b.o.norm.beats, rShape)] own
    | 0x62 => done [(a.o.norm.beats == b.o.norm.beats, rShape)] (one b)
    | 0x71 =>
      let e := param w 136 8 + 1
      let js := a.o.beats.filter (fun f => f.dim == 1 && f.ext != 1)
      let rest := a.o.beats.filter (fun f => f.dim != 1)
      let first := (a.o.beats.filter (fun f => f.ext != 1)).take js.length
      done [(a.o.extent 1 == e && first == js && a.o.lanes.all (fun f => f.dim == 1 || f.ext == 1) &&
            js.all (fun f => !f.ragged), rShape)]
        (fun p => some (Strm.plain { lanes := [fac 1 (param w 132 4 + 1) 1], beats := rest } (if p = 0 then 0x11 else a.fmt)))
    | 0x72 => .ok (one (Strm.plain { lanes := [fac 3 2 1], beats := [fac 0 (param w 128 16 + 1) 1] } 0x11))
    | 0x73 =>
      let m := param w 93 3 + 1
      let d := param w 90 2
      if bit w.toNat 92 then .ok (one a)
      else
        let n := a.o.norm
        let inner := prodExt (n.lanes.filter (fun f => f.dim == d))
        done [(n.beats.length ≤ 5 && n.beats.all (fun f => f.dim != d), rShape)]
          (one { a with o := { n with beats := fac d m inner :: n.beats } })
    | 0x74 =>
      let m := param w 93 3 + 1
      if bit w.toNat 92 then .ok (allOuts a)
      else
        match a.o.norm.beats with
        | f :: rest =>
          done [(f.dim == param w 90 2 && f.ext == m && !f.ragged, rShape)]
            (allOuts { a with o := { lanes := a.o.norm.lanes, beats := rest } })
        | [] => .error rShape
    | 0x76 => .ok (one a)
    | 0x77 => .ok (one b)
    | 0x78 => .ok own
    | 0x79 =>
      let bs := a.o.norm.beats
      let has (lev run : Nat) : Bool := match bs[lev - 1]? with
        | some f => f.ext == run
        | none => false
      done [(has (param w 125 3) (param w 128 16 + 1) && (param w 106 3 == 0 || has (param w 106 3) (param w 109 16 + 1)), rShape)]
        (one a)
    | 0x7A =>
      let n := a.o.norm
      let beats := match n.beats with
        | f :: rest => { f with ragged := true } :: rest
        | [] => []
      .ok (one { a with o := { n with beats := beats } })
    | 0x7B => .ok (fun p => if p = 0 then some a else ins 1)
    | 0x7C => .ok own
    | 0x63 => .ok own
    | _ => .ok (allOuts a)

end Sys2Proof.Machine
end

