-- ==== Sys2Proof/Machine/Arming.lean ====
section
/-! DEFINITION. Formation images and the arming check (18_arming.md R346-R362, 03_fabric.md R60-R62, R74-R78, R82). -/

namespace Sys2Proof.Machine

/-! ### Failures (R356, R357) -/

/-- A failed check: event code, step, subcause, item, the operator it names, and a faulting address. -/
structure ArmFail where
  code : Nat
  step : Nat
  sub : Nat
  item : Nat := 0xFFFF
  op : Option (Nat × Nat × Nat) := none
  /-- a tile without an operator -/
  tile : Nat × Nat := (0, 0)
  addr : Nat := 0
  deriving DecidableEq, Repr

/-- DETAIL of a failed arm (R356). -/
def ArmFail.detail (f : ArmFail) : Nat :=
  let (x, y, slot, tv) := match f.op with
    | some (x, y, sl) => (x, y, sl, 1)
    | none => (f.tile.1, f.tile.2, 0, 0)
  f.item % 2 ^ 16 * 2 ^ 48 + f.sub % 2 ^ 8 * 2 ^ 40 + f.step % 2 ^ 8 * 2 ^ 32 + slot % 4 * 2 ^ 20 + y % 32 * 2 ^ 15 +
    x % 32 * 2 ^ 10 + tv

/-! ### Parts of an image (R347-R351) -/

/-- `n` bytes at an offset of an image. -/
def imgNat (bs : List Byte) (off n : Nat) : Nat := ofBytes ((bs.drop off).take n)

def alignUp (x n : Nat) : Nat := (x + n - 1) / n * n

/-- Offsets of the six sections and the end (R347). -/
structure Layout where
  edges : Nat
  orders : Nat
  descs : Nat
  ports : Nat
  routes : Nat
  fin : Nat
  deriving DecidableEq, Repr

/-- A header field by its bits (R347). -/
def hdr (bs : List Byte) (lo len : Nat) : Nat := bf (imgNat bs 0 128) lo len

def layoutOf (bs : List Byte) : Layout :=
  let e := alignUp (128 + 40 * hdr bs 112 16) 64
  let o := alignUp (e + 16 * hdr bs 128 16) 64
  let d := alignUp (o + 128 * hdr bs 144 16) 64
  let p := alignUp (d + 4 * hdr bs 160 16) 64
  let r := alignUp (p + 4 * hdr bs 176 8) 64
  { edges := e, orders := o, descs := d, ports := p, routes := r, fin := alignUp (r + 2 * hdr bs 240 16) 64 }

/-- An operator entry (R348): word, x, y, slot, and its reserved bytes. -/
structure OpEntry where
  word : OpWord
  x : Nat
  y : Nat
  slot : Nat
  res : Nat
  deriving DecidableEq, Repr

def opEntry (bs : List Byte) (i : Nat) : OpEntry :=
  let o := 128 + 40 * i
  { word := BitVec.ofNat 256 (imgNat bs o 32), x := imgNat bs (o + 32) 1, y := imgNat bs (o + 33) 1,
    slot := imgNat bs (o + 34) 1, res := imgNat bs (o + 35) 5 }

def opEntries (bs : List Byte) : List OpEntry := (upFrom 0 (hdr bs 112 16)).map (opEntry bs)

/-- Edge entry `e` (R349), 128 bits. -/
def edgeEntry (bs : List Byte) (e : Nat) : Nat := imgNat bs ((layoutOf bs).edges + 16 * e) 16

/-- A factor word (R350). -/
def factorOf (w : Nat) : Factor := { dim := bf w 62 2, ext := bf w 32 16 + 1, step := bf w 0 32, ragged := bit w 61 }

/-- Order record `i`, where it keeps R350. -/
def orderRecord (bs : List Byte) (i : Nat) : Option Order :=
  if hdr bs 144 16 ≤ i then none
  else
    let o := (layoutOf bs).orders + 128 * i
    let nl := imgNat bs o 1
    let nb := imgNat bs (o + 1) 1
    let ws := (upFrom 0 15).map (fun k => imgNat bs (o + 8 + 8 * k) 8)
    if 8 < nl || 7 < nb || imgNat bs (o + 2) 6 ≠ 0 || (ws.take (nl + nb)).any (fun w => bf w 0 32 == 0) ||
        (ws.drop (nl + nb)).any (· != 0) then none
    else some { lanes := (ws.take nl).map factorOf, beats := ((ws.drop nl).take nb).map factorOf }

/-- A reserved field of the image behind its header and its operators is non-zero (R357, step 2 of R358): bits 24:0 of an
edge, bits 60:48 of a factor word, and, of an order record, descriptor or route entry that no edge names, the fields that must
be 0 (00_scope.md R7). Those of records that edges name have a subcause of their own in steps 5 and 6 (log 82). -/
def imgReserved (bs : List Byte) : Bool :=
  let es := (upFrom 0 (hdr bs 128 16)).map (edgeEntry bs)
  let record (i : Nat) : Bool :=
    let o := (layoutOf bs).orders + 128 * i
    let n := imgNat bs o 1 + imgNat bs (o + 1) 1
    let named := es.any (fun e => bf e 80 16 == i)
    (!named && imgNat bs (o + 2) 6 != 0) || (upFrom 0 15).any (fun k =>
      let w := imgNat bs (o + 8 + 8 * k) 8
      if k < n then bf w 48 13 != 0 else !named && w != 0)
  let desc (i : Nat) : Bool :=
    let d := imgNat bs ((layoutOf bs).descs + 4 * i) 4
    (bf d 23 9 != 0 || bf d 8 2 != 0) && es.all (fun e => bf e 64 16 != i)
  let route (k : Nat) : Bool :=
    bf (imgNat bs ((layoutOf bs).routes + 2 * k) 2) 10 6 != 0 &&
      es.all (fun e => decide (k < bf e 48 16) || decide (bf e 48 16 + bf e 40 8 ≤ k))
  es.any (fun e => bf e 0 25 != 0) || (upFrom 0 (hdr bs 144 16)).any record || (upFrom 0 (hdr bs 160 16)).any desc ||
    (upFrom 0 (hdr bs 240 16)).any route

/-- The descriptor an edge names, 0 for none; nothing where its index lies outside the section (R349). -/
def descOf (bs : List Byte) (didx : Nat) : Option (BitVec 32) :=
  if didx = 0xFFFF then some 0
  else if hdr bs 160 16 ≤ didx then none
  else some (BitVec.ofNat 32 (imgNat bs ((layoutOf bs).descs + 4 * didx) 4))

/-- Tiles between the ends of an edge, as its route entries give them; none where an entry is out of its section or has
a reserved bit set. -/
def routeOf (bs : List Byte) (ridx rlen : Nat) : Option (List (Nat × Nat)) :=
  if rlen = 0 then some []
  else if hdr bs 240 16 < ridx + rlen then none
  else
    let es := (upFrom ridx rlen).map (fun k => imgNat bs ((layoutOf bs).routes + 2 * k) 2)
    if es.any (fun e => bf e 10 6 != 0) then none else some (es.map (fun e => (bf e 0 5, bf e 5 5)))

/-- CRC-64/ECMA-182 (R353), most significant bit first: the register after `n` bits. -/
def crcBits : Nat → Nat → Nat
  | 0, c => c
  | _ + 1, 0 => 0
  | n + 1, c + 1 => crcBits n (if 2 ^ 63 ≤ c + 1 then 2 * (c + 1) % 2 ^ 64 ^^^ 0x42F0E1EBA9EA3693 else 2 * (c + 1))

/-- The register after the bytes. The cases of the register only make it a numeral before the next byte. -/
def crcBytes : List Byte → Nat → Nat
  | [], c => c
  | b :: bs, 0 => crcBytes bs (crcBits 8 (b.toNat * 2 ^ 56))
  | b :: bs, c + 1 => crcBytes bs (crcBits 8 ((c + 1) ^^^ (b.toNat * 2 ^ 56)))

def crc64 (bs : List Byte) : BitVec 64 := BitVec.ofNat 64 (crcBytes bs 0)

/-- An image with a run of bytes taken as 0. -/
def zeroed (bs : List Byte) (lo n : Nat) : List Byte := bs.take lo ++ List.replicate n 0 ++ bs.drop (lo + n)

/-! ### Steps 1 to 3 -/

/-- A region as an arm that passes step 1 leaves it: LOADED, with nothing in its tiles. -/
def Region.loaded (job v die x0 y0 w h a len : Nat) : Region :=
  { job := job, v := v, state := .loaded, die := die, x0 := x0, y0 := y0, w := w, h := h, imgVa := BitVec.ofNat 64 a,
    imgLen := len, seed := 0, watchdog := 0, ranges := [], body := Body.empty, granules := [], launch := none,
    launchIn := [], node := none, nodes := [], trap := none, cause := 0, marker := 0, stopTime := 0, fault := none, hangUs := 0,
    hangBuf := 0, moved := 0, stalls := [], preempt := none, cutOpen := false, grouped := [], saved := none,
    reloading := false, mapDue := none, resumeDue := false }

/-- An ill-formed relocation entry (R354). -/
def State.relocBad (s : State) (e : Nat) : Bool :=
  !bit e 63 || bf e 18 45 != 0 || bf e 0 4 != 0 || decide (7 < bf e 13 3 + bf e 7 3) || decide (7 < bf e 10 3 + bf e 4 3) ||
    !s.live (bf e 16 2)

/-- A region that an arm binds to what a relocation entry names, and one that keeps its binding (R354, R355). -/
def Region.bound (job v e a : Nat) : Region :=
  Region.loaded job v (bf e 16 2) (4 * bf e 13 3) (4 * bf e 10 3) (4 * bf e 7 3 + 4) (4 * bf e 4 3 + 4) a 0
def Region.rebound (r : Region) (a : Nat) : Region :=
  { Region.loaded r.job r.v r.die r.x0 r.y0 r.w r.h a 0 with hangUs := r.hangUs, hangBuf := r.hangBuf }

/-- Binding of an arm: that of a LOADED region, else that of its relocation entry, and its overlaps (R355, R60). -/
def State.armPlace (s : State) (job v a : Nat) : Except ArmFail Region :=
  let rect : ArmFail := { code := 0x05, step := 1, sub := 2 }
  let found : Option Region :=
    match s.region? job v with
    | some r => some (Region.rebound r a)
    | none => if s.relocBad (s.reloc job v) then none else some (Region.bound job v (s.reloc job v) a)
  match found with
  | none => .error rect
  | some r => if s.overlapped r then .error rect else .ok r

/-- Room in the die's formation store (R362). -/
def State.armStore (s : State) (r : Region) (len : Nat) : Except ArmFail Region :=
  let held := (s.regions.filter (fun x => x.die == r.die && x.state != .empty && !(x.job == r.job && x.v == r.v))).foldl
    (fun n x => n + x.imgLen) 0
  if Config.formationStore < held + len then .error { code := 0x01, step := 1, sub := 3 } else .ok { r with imgLen := len }

/-- The header part of step 2. -/
def imgHeaderOk (r : Region) (bs : List Byte) (b : Nat) : Option ArmFail :=
  let w := hdr bs 96 8
  let h := hdr bs 104 8
  let nops := hdr bs 112 16
  let bad (sub : Nat) : Option ArmFail := some { code := 0x01, step := 2, sub := sub }
  if hdr bs 0 32 ≠ 0x4E4D5246 || hdr bs 32 16 ≠ 1 || nops = 0 || 4 * w * h < nops || 4095 < hdr bs 128 16 ||
      4095 < hdr bs 144 16 || 4095 < hdr bs 160 16 || 64 < hdr bs 176 8 || hdr bs 64 32 ≠ b ||
      hdr bs 64 32 ≠ (layoutOf bs).fin then bad 1
  else if w ≠ r.w || h ≠ r.h then bad 2
  else if hdr bs 49 15 ≠ 0 || hdr bs 184 8 ≠ 0 || hdr bs 320 128 ≠ 0 || (!bit (hdr bs 48 1) 0 && hdr bs 512 512 ≠ 0) then bad 6
  else none

/-- The 512-bit number of r and s, each big-endian in the image (R353). -/
def sigOf (bs : List Byte) : BitVec 512 :=
  let be (l : List Byte) : Nat := ofBytes l.reverse
  BitVec.ofNat 512 (be ((bs.drop 64).take 32) * 2 ^ 256 + be ((bs.drop 96).take 32))

/-- Step 3. -/
def imageSound (bs : List Byte) (key : BitVec 512) (required : Bool) : Option ArmFail :=
  let signed := bit (hdr bs 48 1) 0
  if (crc64 (zeroed bs 56 8)).toNat ≠ imgNat bs 56 8 then some { code := 0x01, step := 3, sub := 4 }
  else if (required && !signed) ||
      (signed && !ecdsaOk key (sha256 (zeroed bs 56 72)) (sigOf bs)) then some { code := 0x01, step := 3, sub := 5 }
  else none

/-! ### Step 4 -/

/-- The first failure of a list of checks. -/
def firstFail {α : Type} (f : α → Option ArmFail) : List α → Option ArmFail
  | [] => none
  | x :: xs =>
    match f x with
    | some e => some e
    | none => firstFail f xs

def OpEntry.at_ (e : OpEntry) : Option (Nat × Nat × Nat) := some (e.x, e.y, e.slot)

/-- The format code of an edge that an operator's word names. -/
def edgeFmt (bs : List Byte) (e : Nat) : Option Nat := if e < hdr bs 128 16 then some (bf (edgeEntry bs e) 32 8) else none

/-- RND, OVF and PARAM fit the formats of the edges that the word names; what names no edge is for step 5. -/
def wordFits (bs : List Byte) (w : OpWord) : Bool :=
  match edgeFmt bs (wordIn w 0), edgeFmt bs (wordOut w 0) with
  | some a, some b => paramFits w a b
  | _, _ => true

/-- One operator of step 4; `before` are the entries ahead of it, and `fits` says that a word fits its formats. -/
def opCheck (fits : OpWord → Bool) (r : Region) (before : List OpEntry) (i : Nat) (e : OpEntry) : Option ArmFail :=
  let op := opc e.word
  let bad (code sub : Nat) : Option ArmFail := some { code := code, step := 4, sub := sub, item := i, op := e.at_ }
  if r.w ≤ e.x || r.h ≤ e.y || 4 ≤ e.slot || before.any (fun b => b.x == e.x && b.y == e.y && b.slot == e.slot) then bad 1 7
  else
    match opHost op with
    | none => bad 1 8
    | some t =>
      if tileType (r.x0 + e.x) (r.y0 + e.y) ≠ t then bad 1 9
      else if e.res ≠ 0 || bf e.word.toNat 240 3 ≠ 0 then bad 1 6
      else if (decodeOp e.word).isNone || !paramValues e.word || (!opRounds op && bf e.word.toNat 243 3 ≠ 0) ||
          (!opOverflows op && bit e.word.toNat 246) || !fits e.word then bad 1 10
      else if 4 < bf e.word.toNat 243 3 then bad 0x10 19
      else none

/-- One tile of step 4: `mmp` and `mmload` in pairs, and the storage of an M tile (R295, R299, R309). -/
def tileCheck (es : List OpEntry) (t : Nat × Nat) : Option ArmFail :=
  let here := es.filter (fun e => e.x == t.2 && e.y == t.1)
  let n (op : Nat) : Nat := (here.filter (fun e => opc e.word == op)).length
  let bad (sub : Nat) : Option ArmFail := some { code := 0x01, step := 4, sub := sub, tile := (t.2, t.1) }
  if 1 < n 0x10 || n 0x10 ≠ n 0x11 then bad 11
  else if 8192 < here.foldl (fun k e => k + tileBeats e.word) 0 then bad 12
  else none

/-- Step 4 over the operators in order, then the tiles. -/
def opsCheck (bs : List Byte) (r : Region) (es : List OpEntry) : Option ArmFail :=
  match firstFail (fun p => opCheck (wordFits bs) r (es.take p.1) p.1 p.2) ((upFrom 0 es.length).zip es) with
  | some f => some f
  | none => firstFail (tileCheck es) ((upFrom 0 r.h).flatMap (fun y => (upFrom 0 r.w).map (fun x => (y, x))))

/-! ### Step 5 -/

/-- The path of an edge, from its producer's tile to its consumer's (R351). -/
def pathOf (bs : List Byte) (es : List OpEntry) (e : Nat) : Option (List (Nat × Nat)) :=
  let n := edgeEntry bs e
  match es[bf n 112 16]?, es[bf n 96 16]?, routeOf bs (bf n 48 16) (bf n 40 8) with
  | some a, some c, some r => some ((a.x, a.y) :: r ++ [(c.x, c.y)])
  | _, _, _ => none

/-- Links of a path, each with its direction; none within one tile (R351). -/
def linksOf (path : List (Nat × Nat)) : List ((Nat × Nat) × (Nat × Nat)) :=
  match path with
  | [a, b] => if a = b then [] else [(a, b)]
  | p => p.zip (p.drop 1)

def neighbours (l : (Nat × Nat) × (Nat × Nat)) : Bool :=
  let d (a b : Nat) : Nat := (a - b) + (b - a)
  d l.1.1 l.2.1 + d l.1.2 l.2.2 == 1

/-- One edge of step 5; the links of earlier edges count (R351). -/
def edgeCheck (r : Region) (bs : List Byte) (es : List OpEntry) (e : Nat) : Option ArmFail :=
  let n := edgeEntry bs e
  let c := es[bf n 96 16]?
  let bad (sub : Nat) : Option ArmFail :=
    some { code := 0x01, step := 5, sub := sub, item := e, op := c.bind OpEntry.at_ }
  match es[bf n 112 16]?, c with
  | some a, some d =>
    if wordOut a.word (bf n 29 3) ≠ e || wordIn d.word (bf n 26 3) ≠ e then bad 14
    else
      match pathOf bs es e with
      | none => bad 15
      | some p =>
        let ls := linksOf p
        let all := (upFrom 0 (e + 1)).flatMap (fun k => linksOf ((pathOf bs es k).getD []))
        if p.all (fun t => decide (t.1 < r.w) && decide (t.2 < r.h)) && ls.all neighbours &&
            ls.all (fun l => decide ((all.filter (· == l)).length ≤ 8)) then none
        else bad 15
  | _, _ => bad 14

/-- Every edge number in an operator's word names an entry that names the port back. -/
def namesBack (bs : List Byte) (ne i : Nat) (e : OpEntry) : Bool :=
  (upFrom 0 8).all (fun p =>
    let a := wordIn e.word p
    let b := wordOut e.word p
    (a == 0xFFF || (decide (a < ne) && bf (edgeEntry bs a) 96 16 == i && bf (edgeEntry bs a) 26 3 == p)) &&
      (b == 0xFFF || (decide (b < ne) && bf (edgeEntry bs b) 112 16 == i && bf (edgeEntry bs b) 29 3 == p)))

/-- Kind of external port of an opcode (R351). -/
def portKind (op : Nat) : Option Nat :=
  match op with
  | 0x60 => some 0 | 0x61 => some 1 | 0x62 => some 1 | 0x63 => some 2
  | _ => none

def portEntry (bs : List Byte) (p : Nat) : Nat := imgNat bs ((layoutOf bs).ports + 4 * p) 4

/-- One external port entry (R351, R316). -/
def portCheck (bs : List Byte) (es : List OpEntry) (p : Nat) : Option ArmFail :=
  let n := portEntry bs p
  let i := bf n 0 16
  let bad : Option ArmFail := some { code := 0x01, step := 5, sub := 16, item := p, op := es[i]?.bind OpEntry.at_ }
  match es[i]? with
  | none => bad
  | some e =>
    if bf n 18 14 ≠ 0 || portKind (opc e.word) ≠ some (bf n 16 2) || param e.word 138 6 ≠ p ||
        (upFrom 0 p).any (fun k => bf (portEntry bs k) 0 16 == i) then bad
    else none

/-- Step 5. -/
def linkCheck (r : Region) (bs : List Byte) (es : List OpEntry) : Option ArmFail :=
  let ops := (upFrom 0 es.length).zip es
  let ne := hdr bs 128 16
  let np := hdr bs 176 8
  let atOp (sub i : Nat) (e : OpEntry) : Option ArmFail :=
    some { code := 0x01, step := 5, sub := sub, item := i, op := e.at_ }
  match firstFail (fun p => if portsOk p.2.word then none else atOp 13 p.1 p.2) ops with
  | some f => some f
  | none =>
    match firstFail (edgeCheck r bs es) (upFrom 0 ne) with
    | some f => some f
    | none =>
      match firstFail (fun p => if namesBack bs ne p.1 p.2 then none else atOp 14 p.1 p.2) ops with
      | some f => some f
      | none =>
        match firstFail (portCheck bs es) (upFrom 0 np) with
        | some f => some f
        | none =>
          firstFail (fun p =>
            if (portKind (opc p.2.word)).isSome && (upFrom 0 np).all (fun k => bf (portEntry bs k) 0 16 != p.1) then
              atOp 16 p.1 p.2
            else none) ops

/-! ### Step 6 -/

/-- A plane edge leaves `planes` out0 or enters `mmp` in0 (R294). -/
def isPlane (es : List OpEntry) (n : Nat) : Bool :=
  let op (i : Nat) : Nat := match es[i]? with
    | some e => opc e.word
    | none => 0
  (op (bf n 112 16) == 0x37 && bf n 29 3 == 0) || (op (bf n 96 16) == 0x10 && bf n 26 3 == 0)

/-- Order and descriptor of one edge (R350, R70, R94, R95). -/
def orderCheck (bs : List Byte) (es : List OpEntry) (e : Nat) : Option ArmFail :=
  let n := edgeEntry bs e
  let fmt := bf n 32 8
  let at_ := es[bf n 96 16]?.bind OpEntry.at_
  let d := (descOf bs (bf n 64 16)).getD 0
  let w := if isPlane es n then 1 else max 1 (fmtWidth fmt)
  let ok := match orderRecord bs (bf n 80 16) with
    | some o => o.valid w (dSfmt d != 0 && !isPlane es n)
    | none => false
  if !ok then some { code := 0x11, step := 6, sub := 17, item := e, op := at_ }
  else if fmtWidth fmt = 0 || (descOf bs (bf n 64 16)).isNone ||
      (bf n 64 16 ≠ 0xFFFF && (!descOk d || dEfmt d ≠ fmt)) then
    some { code := 0x10, step := 6, sub := 18, item := e, op := at_ }
  else none

/-- The edges of an image that has passed step 6. -/
def buildEdge (bs : List Byte) (e : Nat) : Edge :=
  let n := edgeEntry bs e
  let o := (orderRecord bs (bf n 80 16)).getD { lanes := [], beats := [] }
  { sop := bf n 112 16, dop := bf n 96 16, sport := bf n 29 3, dport := bf n 26 3, fmt := bf n 32 8,
    desc := (descOf bs (bf n 64 16)).getD 0, strict := bit n 25, p := o, q := o, link := [], out := [], siding := none,
    room := 1 + Config.linkRoom (bf n 40 8) }

/-! ### Steps 7 and 8: orders -/

/-- Declared stream of an edge by number. -/
def declAt (edges : List Edge) (e : Nat) : Option Strm := (edges[e]?).map Edge.declared

/-- Required order of an edge, and whether it is the declared one (R359). -/
def requiredAt (es : List OpEntry) (edges : List Edge) (x : Edge) : Order × Bool :=
  match es[x.dop]? with
  | none => (x.q, true)
  | some c =>
    let ins (p : Nat) : Option Strm := declAt edges (wordIn c.word p)
    let out := declAt edges (wordOut c.word 0)
    match requiredOf c.word ins out x.dport with
    | .fixed o => (o, false)
    | .declared => (x.q, true)
    | .open_ =>
      let first := (upFrom 0 8).find? (fun p => hasIn c.word p && requiredOf c.word ins out p == .open_)
      match first with
      | some p => if p = x.dport then (x.q, true) else (((ins p).map (·.o)).getD x.q, false)
      | none => (x.q, true)

/-- Streams that producers are known to send, by edge number. -/
abbrev Known := List (Option Strm)

/-- Declared orders and formats of an operator's inputs, the orders as required, and of its outputs (R359). -/
def insOf (es : List OpEntry) (edges : List Edge) (e : OpEntry) (p : Nat) : Option Strm :=
  (edges[wordIn e.word p]?).map (fun x => { x.declared with o := (requiredAt es edges x).1 })
def outsOf (edges : List Edge) (e : OpEntry) (p : Nat) : Option Strm := declAt edges (wordOut e.word p)
def mateOf (es : List OpEntry) (edges : List Edge) (e : OpEntry) : Mate :=
  (es.find? (fun m => opc m.word == 0x11 && m.x == e.x && m.y == e.y)).bind (fun m => declAt edges (wordIn m.word 0))

/-- The rule of operator `i` (R360). -/
def ruleOf (es : List OpEntry) (edges : List Edge) (e : OpEntry) : Except Refuse Outs :=
  deriveOp e.word (insOf es edges e) (outsOf edges e) (mateOf es edges e)

/-- The outputs of an operator become known. -/
def learn (edges : List Edge) (k : Known) (e : OpEntry) (outs : Outs) : Known :=
  (upFrom 0 8).foldl (fun k p =>
    let n := wordOut e.word p
    match declAt edges n with
    | some d => k.set n (some ((outs p).getD d))
    | none => k) k

def knownFirst (es : List OpEntry) (edges : List Edge) : Known :=
  es.foldl (fun k e =>
    if isSource e.word then
      learn edges k e (match ruleOf es edges e with
        | .ok o => o
        | .error _ => fun _ => none)
    else k) (List.replicate edges.length none)

/-- One pass over the operators: those evaluated so far by index, and what is known. A source or `delay`, whose output is
known first, waits for no input. -/
def derivePass (es : List OpEntry) (edges : List Edge) (st : List Nat × Known) : Except ArmFail (List Nat × Known) :=
  ((upFrom 0 es.length).zip es).foldlM (fun (st : List Nat × Known) p =>
    let ready := isSource p.2.word || (upFrom 0 8).all (fun q => !hasIn p.2.word q || ((st.2[wordIn p.2.word q]?).getD none).isSome)
    if st.1.contains p.1 || !ready then .ok st
    else
      match ruleOf es edges p.2 with
      | .error r => .error { code := r.code, step := 7, sub := r.sub, item := p.1, op := p.2.at_ }
      | .ok o => .ok (p.1 :: st.1, learn edges st.2 p.2 o)) st

def deriveAll (es : List OpEntry) (edges : List Edge) : Nat → List Nat × Known → Except ArmFail (List Nat × Known)
  | 0, st => .ok st
  | n + 1, st =>
    match derivePass es edges st with
    | .error f => .error f
    | .ok st' => if st'.1.length = st.1.length then .ok st' else deriveAll es edges n st'

/-- Operators that an operator's outputs feed; a `delay` ends the search (R84). -/
def feeds (es : List OpEntry) (edges : List Edge) (i : Nat) : List Nat :=
  if es[i]?.any (fun e => opc e.word == 0x78) then [] else (edges.filter (fun e => e.sop == i)).map (·.dop)

/-- What a set of operators reaches, itself included. -/
def reach (es : List OpEntry) (edges : List Edge) : Nat → List Nat → List Nat
  | 0, l => l
  | n + 1, l =>
    let more := (l.flatMap (feeds es edges)).filter (fun i => !l.contains i)
    if more.isEmpty then l else reach es edges n (more.foldl (fun l i => insertNat i l) l)

/-- An operator lies on a cycle of edges without a `delay` (R84). -/
def onCycle (es : List OpEntry) (edges : List Edge) (i : Nat) : Bool :=
  (reach es edges es.length (feeds es edges i)).contains i

/-- Step 7: the producers' streams, or the refusal. A cycle that a source closes leaves no operator unevaluated and is
refused as well (R84; log 82). -/
def derive (es : List OpEntry) (edges : List Edge) : Except ArmFail Known :=
  match deriveAll es edges (es.length + 1) ([], knownFirst es edges) with
  | .error f => .error f
  | .ok st =>
    match ((upFrom 0 es.length).zip es).find? (fun p => !st.1.contains p.1 || onCycle es edges p.1) with
    | some p => .error { code := 0x11, step := 7, sub := 20, item := p.1, op := p.2.at_ }
    | none => .ok st.2

/-! ### Step 8: storage -/

/-- The lowest run of `n` free granules of a pool (R361). -/
def firstFit (held : List (Nat × Nat)) (n : Nat) : Option Nat :=
  let free (c : Nat) : Bool :=
    decide (c + n ≤ Config.poolGranules) && held.all (fun h => decide (c + n ≤ h.1) || decide (h.1 + h.2 ≤ c))
  ((0 :: held.map (fun h => h.1 + h.2)).filter free).foldl (fun best c =>
    match best with
    | none => some c
    | some b => some (min b c)) none

/-- Storage as it is being taken: granules of others and of this arm, operators with the sidings, edges. -/
structure Taking8 where
  others : List (Nat × Nat)
  mine : List (Nat × Nat)
  ops : List Op
  edges : List Edge
  deriving DecidableEq, Repr

def newOp (w : OpWord) (x y slot : Nat) : Op :=
  { word := w, armed := w, forced := false, x := x, y := y, slot := slot, deferred := bit w.toNat 247, mem := OpMem.init w,
    outbox := [], pos := [], inside := [], marked := [], finals := [], frozen := false }

/-- The N granules of each `delay`, in operator order (R329, R361). -/
def takeDelays (st : Taking8) : List (Nat × OpEntry) → Except ArmFail Taking8
  | [] => .ok st
  | (i, e) :: rest =>
    if opc e.word ≠ 0x78 then takeDelays st rest
    else
      let n := param e.word 134 10 + 1
      match firstFit (st.others ++ st.mine) n with
      | none => .error { code := 0x11, step := 8, sub := 28, item := i, op := e.at_ }
      | some b => takeDelays { st with mine := st.mine ++ [(b, n)] } rest

/-- A siding is permitted (R78): 0, or the subcause that refuses it. -/
def sidingBan (p q : Order) (block : Bool) (bs : Nat) : Nat :=
  let a := p.norm
  let b := q.norm
  let rag := (a.beats ++ b.beats).any (fun f => f.ragged)
  let slow := match a.beats.getLast?, b.beats.getLast? with
    | some x, some y => x == y && x.ragged && !(a.beats.dropLast ++ b.beats.dropLast).any (fun f => f.ragged)
    | _, _ => false
  let lanes := match a.lanes, b.lanes with
    | x :: _, y :: _ => x.dim == y.dim && x.step == 1 && y.step == 1 && x.ext % bs == 0 && y.ext % bs == 0
    | _, _ => false
  if rag && !slow then 26 else if block && !lanes then 22 else 0

/-- Granules of the siding of an edge (R75, R78). -/
def sidingGranules (p q : Order) (w : Nat) (block : Bool) (bs : Nat) : Nat :=
  let n := sidingSize p q (if block then bs else 1)
  let bytes := if block then n * (bs * w / 8 + 1) else (n * w + 7) / 8
  (bytes + 63) / 64

def sidingWord (gbase gcnt d e : Nat) : OpWord :=
  BitVec.ofNat 256 (0x70 * 2 ^ 248 + (2 ^ 36 - 1) * 2 ^ 204 + e * 2 ^ 192 + (2 ^ 36 - 1) * 2 ^ 156 + e * 2 ^ 144 +
    gbase * 2 ^ 127 + gcnt * 2 ^ 115 + d * 2 ^ 83 + e * 2 ^ 71)

/-- The first S tile of a path with a free slot, and that slot (R361). -/
def sidingPlace (r : Region) (ops : List Op) (path : List (Nat × Nat)) : Option (Nat × Nat × Nat) :=
  path.findSome? (fun t =>
    if tileType (r.x0 + t.1) (r.y0 + t.2) ≠ 4 then none
    else
      ([0, 1, 2, 3].find? (fun k => !ops.any (fun o => o.x == t.1 && o.y == t.2 && o.slot == k))).map
        (fun k => (t.1, t.2, k)))

/-- Format agreement of an edge (R73, R79, R81, R285, R293, R294): none, or the refusal. Its fastest lane factor is that
of the declared order (log 82). -/
def formatBad (es : List OpEntry) (edges : List Edge) (n : Nat) (x : Edge) (p : Strm) : Option Refuse :=
  let op (i : Nat) : OpWord := match es[i]? with
    | some e => e.word
    | none => 0
  let plane := isPlane es n
  let cmpr := opc (op x.sop) = 0x37 && opc (op x.dop) = 0x10 && plane && bit (op x.sop).toNat 139 != bit (op x.dop).toNat 33
  let bs := dBsize x.desc
  let block := dSfmt x.desc ≠ 0 && !plane
  let l := x.q.laneCount
  let first := match x.q.lanes with
    | f :: _ => f.ext
    | [] => 1
  let takes : List (Bool × Refuse) := match es[x.dop]? with
    | some e => inChecks e.word (insOf es edges e) (outsOf edges e) (mateOf es edges e) x.dport
    | none => []
  let gives : List (Bool × Refuse) := match es[x.sop]? with
    | some e => outChecks e.word (outsOf edges e) x.sport
    | none => []
  firstBad ((p.fmt == x.fmt && p.desc == x.desc && bf x.desc.toNat 15 2 == 0 && !cmpr, rOperand) :: takes ++ gives ++
    [(x.fmt != 0x12 || (x.q.norm.lanes.isEmpty && p.o.norm.lanes.isEmpty), rShape)] ++
    [(!block || (first % bs == 0 && l % bs == 0 && decide (l * fmtWidth x.fmt + 8 * l / bs ≤ 512)), rBlock)])

/-- One edge of step 8 (R359, R74-R78, R294). -/
def joinEdge (r : Region) (bs : List Byte) (es : List OpEntry) (edges : List Edge) (known : Known) (st : Taking8) (e : Nat) :
    Except ArmFail Taking8 :=
  match edges[e]? with
  | none => .ok st
  | some x =>
    let n := edgeEntry bs e
    let at_ := es[x.dop]?.bind OpEntry.at_
    let bad (code sub : Nat) : Except ArmFail Taking8 := .error { code := code, step := 8, sub := sub, item := e, op := at_ }
    let p := ((known[e]?).getD none).getD x.declared
    match formatBad es edges n x p with
    | some f => bad f.code f.sub
    | none =>
      let (q, decl) := requiredAt es edges x
      let block := dSfmt x.desc ≠ 0 && !isPlane es n
      let bsz := dBsize x.desc
      if !decl && !x.q.eqv q then bad 0x11 24
      else
        let y := { x with p := p.o, q := q }
        if p.o.eqv q then .ok { st with edges := st.edges.set e y }
        else if isPlane es n then bad 0x11 22
        else if !p.o.sameTensor q then bad 0x11 23
        else if x.strict then bad 0x11 25
        else
          let ban := sidingBan p.o q block bsz
          if ban ≠ 0 then bad 0x11 ban
          else
            let g := sidingGranules p.o q (fmtWidth x.fmt) block bsz
            if 4096 < g then bad 0x11 27
            else
              match firstFit (st.others ++ st.mine) g, sidingPlace r st.ops ((pathOf bs es e).getD []) with
              | some b, some (tx, ty, sl) =>
                let d := sidingDelay (beatPairs p.o q (if block then bsz else 1))
                let o := newOp (sidingWord b (g - 1) d e) tx ty sl
                .ok { st with
                  mine := st.mine ++ [(b, g)]
                  ops := st.ops ++ [o]
                  edges := st.edges.set e { y with siding := some st.ops.length } }
              | _, _ => bad 0x11 28

/-- Step 8. -/
def joinAll (r : Region) (bs : List Byte) (es : List OpEntry) (edges : List Edge) (known : Known) (st : Taking8) :
    List Nat → Except ArmFail Taking8
  | [] => .ok st
  | e :: rest =>
    match joinEdge r bs es edges known st e with
    | .error f => .error f
    | .ok st => joinAll r bs es edges known st rest

/-! ### The commit (R358, R82) -/

/-- Operators that lie in an arm: the largest set in which every output leads to an arm input or the data input of a
`gate`, or on within the set (R82). -/
def inArms (b : Body) : Nat → List Nat → List Nat
  | 0, l => l
  | n + 1, l =>
    inArms b n (l.filter (fun i =>
      let outs := b.edges.filter (fun e => e.sop == i)
      !outs.isEmpty && outs.all (fun e =>
        match b.ops[e.dop]? with
        | none => false
        | some c =>
          let op := opc c.word
          (op == 0x77 && (e.dport == 1 || e.dport == 2)) || (op == 0x76 && e.dport == 0) ||
            (!sideEffect c.word && l.contains e.dop))))

def forceArms (b : Body) : Body :=
  let l := inArms b b.ops.length (upFrom 0 b.ops.length)
  { b with ops := (b.ops.zip (upFrom 0 b.ops.length)).map (fun p =>
      if l.contains p.2 && !sideEffect p.1.word then { p.1 with forced := true, deferred := true } else p.1) }

/-- Tiles of a region as seeded at a successful arm (R106, R107): C and P tiles hold a generator. -/
def seededTiles (r : Region) (seed : BitVec 32) : List Tile :=
  (upFrom 0 r.h).flatMap (fun y => (upFrom 0 r.w).map (fun x =>
    let t := tileType (r.x0 + x) (r.y0 + y)
    { x := x, y := y, tflags := 0, gen := if t = 0 || t = 3 then seedOf seed x y else 0 }))

/-- Granules of a die's pool that are held (R361). -/
def State.granulesHeld (s : State) (die : Nat) : List (Nat × Nat) :=
  (s.regions.filter (fun r => r.die == die)).flatMap (·.granules)

/-- The region's range table: the job's entries that RMASK selects (05_memory.md R119). -/
def maskRanges (ranges : List (BitVec 256)) (rmask : Nat) : List (BitVec 256) :=
  (ranges.zip (upFrom 0 ranges.length)).map (fun p => if bit rmask p.2 then p.1 else 0)

/-- Steps 3 to 9 on a whole image, and the region as the commit makes it. -/
def State.armCheck (s : State) (r : Region) (bs : List Byte) : Except ArmFail Region :=
  let req := match s.job? r.job with
    | some j => bit j.record.toNat 9
    | none => false
  match imageSound bs s.depot.signKey req with
  | some f => .error f
  | none =>
    let es := opEntries bs
    match opsCheck bs r es with
    | some f => .error f
    | none =>
      match linkCheck r bs es with
      | some f => .error f
      | none =>
        let ne := hdr bs 128 16
        match firstFail (orderCheck bs es) (upFrom 0 ne) with
        | some f => .error f
        | none =>
          let edges := (upFrom 0 ne).map (buildEdge bs)
          match derive es edges with
          | .error f => .error f
          | .ok known =>
            let ops := es.map (fun e => newOp e.word e.x e.y e.slot)
            let st : Taking8 := { others := s.granulesHeld r.die, mine := [], ops := ops, edges := edges }
            match takeDelays st ((upFrom 0 es.length).zip es) with
            | .error f => .error f
            | .ok st =>
              match joinAll r bs es edges known st (upFrom 0 ne) with
              | .error f => .error f
              | .ok st =>
                let ranges := maskRanges (s.jobRanges r.job) (hdr bs 256 64)
                match ((upFrom 0 ranges.length).zip ranges).find? (fun p => bit p.2.toNat 0 && rangeIllFormed p.2) with
                | some p => .error { code := 0x05, step := 9, sub := 29, item := p.1 }
                | none =>
                  let seed : BitVec 32 := BitVec.ofNat 32 (hdr bs 192 32)
                  let ports := (upFrom 0 (hdr bs 176 8)).map (fun p =>
                    { op := bf (portEntry bs p) 0 16, kind := bf (portEntry bs p) 16 2, cmds := [] })
                  let b : Body := { ops := st.ops, edges := st.edges, tiles := seededTiles r seed, ports := ports }
                  .ok { r with state := .armed, seed := seed, watchdog := hdr bs 224 16, ranges := ranges, body := forceArms b,
                               granules := st.mine }

/-- A failed arm: its event, and the region as it was (step 1) or LOADED with the new image (R61, R62). -/
def State.armFailed (s : State) (r : Region) (f : ArmFail) : State :=
  let s := if f.step = 1 then s else s.setRegion { r with state := .loaded, body := Body.empty, granules := [] }
  s.postEvent r.job r.die { code := f.code, srck := 1, index := r.v, addr := f.addr, detail := f.detail }

/-! ### The command (R266) -/

/-- A read of an image: its bytes, the code and address of a fault that ends the arm, or a state that waits. -/
inductive ArmRead
  | bytes (bs : List Byte) (s : State)
  | bad (code addr : Nat) (s : State)
  | wait (s : State)

def State.armRead (s : State) (job q : Nat) (c : Cmd) (va n : Nat) : ArmRead :=
  match s.access (s.queueDie job q) job (s.jobRanges job) .read va n with
  -- an arm of the arm list reads as the job engine does (20_host.md R383)
  | .ok ts =>
    match s.queuePass job q c ts with
    | .inl s => .wait s
    | .inr s => .bytes ((ts.zip (s.engineBytes job c.view va ts)).map (fun p =>
        if c.tln = 0 && !rgVers p.1.entry then s.knownByte c.view p.1.loc else p.2)) s
  | .error f =>
    match f.1 with
    | .prot _ => .bad 0x05 f.2 s
    | .dieLost => .bad 0x1B f.2 s
    | .data home pa => .bad 0x1A f.2 (s.eccHit home pa)
    | _ => .wait (s.cmdFault job q c .read f)

/-- The region whose die and number a failure at step 1 names, when no binding was found. -/
def State.armNamed (s : State) (job q v : Nat) : Region :=
  match s.region? job v with
  | some r => r
  | none => Region.loaded job v (s.queueDie job q) 0 0 4 4 0 0

/-- The arm has failed: it completes, and arrives as an error arrival (R62). -/
def State.armEnd (s : State) (job q : Nat) (c : Cmd) (r : Region) (f : ArmFail) : State :=
  (s.armFailed r f).endCmd job q c .err

/-- Another arm of the die's arming unit has been begun and waits for the pager (R62). -/
def State.armingBusy (s : State) (die job q tln : Nat) : Bool :=
  s.queues.any (fun x => s.queueDie x.job x.qid == die && x.started.any (fun d =>
    d.op == 0x08 && d.progress != 0 && !(x.job == job && x.qid == q && d.tln == tln)))

/-- The rest of an arm, from the reading of the image behind its header (steps 2 to 9). The header is kept in the
command. -/
def State.armRest (s : State) (job q : Nat) (c : Cmd) (r : Region) : State :=
  match s.armRead job q c (r.imgVa.toNat + 128) (r.imgLen - 128) with
  | .wait s => s
  | .bad code addr s => s.armEnd job q c r { code := code, step := 2, sub := 30, addr := addr }
  | .bytes rest s =>
    let bs := c.buf ++ rest
    if imgReserved bs then s.armEnd job q c r { code := 0x01, step := 2, sub := 6 }
    else
      match s.armCheck r bs with
      | .error f => s.armEnd job q c r f
      | .ok r => (((s.forgetTiles job r.v).sramWritten r).setRegion r).endCmd job q c .ok

/-- An arm from the reading of the header. Once step 1 has passed, the region is LOADED with the new image, whatever the
arm comes to (R358, R362). -/
def State.armHead (s : State) (job q : Nat) (c : Cmd) (len : Nat) (r : Region) : State :=
  match s.armRead job q c r.imgVa.toNat 128 with
  | .wait s => s
  | .bad code addr s => s.armEnd job q c r { code := code, step := 1, sub := 30, addr := addr }
  | .bytes h s =>
    match s.armStore r (hdr h 64 32) with
    | .error f => s.armEnd job q c r f
    | .ok r =>
      let c := { c with progress := 2, buf := h }
      let s := (s.setRegion r).setCmd job q c
      match imgHeaderOk r h len with
      | some f => s.armEnd job q c r f
      | none => s.armRest job q c r

/-- An arm, which a page fault pauses where it stands (R358): 0 it has not begun, 1 it has its binding, which it keeps in
the command (R355), 2 it has its header. -/
def State.arm (s : State) (job q : Nat) (c : Cmd) (v len a : Nat) : State :=
  let ok := match s.region? job v with
    | some r => r.state == .loaded || r.state == .empty
    | none => true
  if c.progress = 0 then
    if !ok then s.failCmd job q c 0x05 12 0
    else if s.armingBusy (s.queueDie job q) job q c.tln then s
    else
      match s.armPlace job v a with
      | .error f => s.armEnd job q c (s.armNamed job q v) f
      | .ok r =>
        let c := { c with progress := 1, desc := s.reloc job v }
        (s.setCmd job q c).armHead job q c len r
  else if c.progress = 1 then
    s.armHead job q c len (match s.region? job v with
      | some r => Region.rebound r a
      | none => Region.bound job v c.desc a)
  else
    match s.region? job v with
    | some r => s.armRest job q c r
    | none => s.endCmd job q c .ok

/-- `arm` (R266). -/
def execArm (_h : CmdHead) (r : BitVec 6) (b : BitVec 36) (a : BitVec 56) (s : State) : Host.Outcome State Fault Refusal :=
  execCmd (fun s job q c => s.arm job q c r.toNat b.toNat a.toNat) s

end Sys2Proof.Machine
end

