-- ==== Sys2Proof/Machine/Matrix.lean ====
section
/-! DEFINITION. The matrix engine: `mmp` and `mmload` (12_operators.md R295-R299, 04_numbers.md R97-R99, R110-R111,
15_prog_dot.md R338-R339). -/

namespace Sys2Proof.Machine

/-! ### Banks -/

def mmpMem (m : OpMem) : MmpMem :=
  match m with
  | .mmp x => x
  | _ => { active := none, inactive := none, second := false, acctag := 0, swapDue := false, heads := [], planes := [], us := [],
           chunk := 0, acc := [], poison := none }

/-- The `mmp` of an `mmload`'s tile, by index. -/
def OpView.mate (v : OpView) : Option (Nat × MmpMem) :=
  let i := v.reg.body.ops.findIdx (fun o => opc o.word == 0x10 && o.x == v.op.x && o.y == v.op.y)
  (v.reg.body.ops[i]?).map (fun o => (i, mmpMem o.mem))

/-- The pair of banks takes another tile (R296, R299). -/
def MmpMem.room (m : MmpMem) (bytes : Nat) : Bool := m.active.isNone || (bytes == 1 && m.inactive.isNone)

/-- A tile of B that `mmload` has completed: the first becomes active at once (R296). -/
def MmpMem.fill (m : MmpMem) (b : Bank) : MmpMem :=
  if m.active.isNone then { m with active := some b } else { m with inactive := some b }

/-- A tile of B from its beats (R299). -/
def bankOf (fmt : Nat) (d : BitVec 32) (beats : List Beat) : Bank :=
  let fs := sliceForms fmt d 0xF none 64 beats
  { tag := tagOf fmt d, q := fs.flatMap (·.q), scale := sliceScales fmt d 64 beats,
    x := fs.map (fun f => if f.nan then 0x80 else f.x) }

/-- `mmload` (R299): a tile is complete with its last beat, and the last one of a tensor with the stop behind it. -/
def mmloadFire (_c : OpCfg) (v : OpView) : Fire :=
  let got := match v.op.mem with
    | .mmload bs => bs
    | _ => []
  let fmt := v.inFmt 0
  let d := v.inDesc 0
  let size := 64 * (64 / laneCountL fmt d)
  let ends : Bool := match v.inEdge 0 with
    | some e => decide (e.q.beatCount ≤ v.posAt 0 + 1)
    | none => true
  match v.front [0] 0x0B, v.mate with
  | .done f, _ => f
  | .group from_ _, _ => .go { take := from_, emit := [] }
  | .stop from_ _, mate =>
    if got.isEmpty then .go { take := from_, emit := [] }
    else if got.length < size then .trap { cause := 0x0B, port := 0 }
    else .go { take := from_, emit := [], mem := some (.mmload []),
               other := mate.map (fun x => (x.1, .mmp (x.2.fill (bankOf fmt d got)))) }
  | .pos bs, some (i, m) =>
    match bs with
    | b :: _ =>
      if b.kind = .cond then .trap { cause := 0x05, port := 0 }
      else if b.kind = .poison then gotPoison 0 b
      -- more beats than the tensor's order has: the tile before them is complete (log 64)
      else if size ≤ got.length then
        .go { take := [], emit := [], mem := some (.mmload []), other := some (i, .mmp (m.fill (bankOf fmt d got))) }
      else if got.isEmpty && !m.room v.bankBytes then .stuck 4
      else
        let all := got ++ [b]
        if all.length < size || ends then .go { take := [0], emit := [], mem := some (.mmload all) }
        else .go { take := [0], emit := [], mem := some (.mmload []), other := some (i, .mmp (m.fill (bankOf fmt d all))) }
    | [] => .stuck 1
  | .pos _, none => .stuck 1

/-! ### A slice (R294, R297) -/

/-- What the operands of an `mmp` look like. -/
structure MmpShape where
  fmt : Nat
  desc : BitVec 32
  bdesc : BitVec 32
  bfmt : Nat
  /-- descriptor on the edge of B -/
  bedge : BitVec 32
  planes : Nat
  heads : Nat
  kc : Nat
  bytes : Nat
  deriving DecidableEq, Repr

def OpView.mmpShape (v : OpView) (p : MmpParam) : MmpShape :=
  let loads := (v.reg.body.ops.zip (upFrom 0 v.reg.body.ops.length)).filter (fun o =>
    opc o.1.word == 0x11 && o.1.x == v.op.x && o.1.y == v.op.y)
  let e := v.reg.body.edges.find? (fun e => loads.any (fun l => l.2 == e.dop))
  { fmt := v.inFmt 0, desc := v.inDesc 0, bdesc := p.bdesc,
    bfmt := (e.map (·.fmt)).getD 0, bedge := (e.map (·.desc)).getD 0,
    planes := (match v.inEdge 0 with
      | some a => a.q.beatExt 3
      | none => 1),
    heads := headCount (v.inDesc 0), kc := v.kc, bytes := v.bankBytes }

def isIntFmt (fmt : Nat) : Bool := fmt ≤ 4

/-- INT32 mode (R110). -/
def MmpShape.intMode (h : MmpShape) : Bool :=
  isIntFmt h.fmt && isIntFmt h.bfmt && dSfmt h.desc == 0 && dSfmt h.bedge == 0 && bf h.bdesc.toNat 15 2 == 0

/-- Planes that a slice with head beat H0 carries on in0 (R294, R298). -/
def MmpShape.planesDue (h : MmpShape) (cmpr : Bool) (h0 : Beat) : Nat :=
  if !cmpr then h.planes else if h0.kind = .poison then 1 else popcount h0.data.toNat 24

/-- Forms of a row of A from the planes of a slice. -/
def aForms (signed : Bool) (planes : Nat) (ps : List (Nat × Nat)) (r : Nat) : List Int :=
  (upFrom (64 * r) 64).map (fun k =>
    let n := ps.foldl (fun n p => n + b2n (bit p.2 k) * 2 ^ p.1) 0
    if signed then toSigned n planes else (n : Int))

/-- s × f of a block (R96, R111): none for a NaN block. -/
def blockFactor (fmt : Nat) (d : BitVec 32) (scale : Nat) (x : Int) (nanX : Bool) : Option Ex :=
  if nanX then none
  else
    match scaleV (dSfmt d) scale with
    | .fin s =>
      let f : Ex :=
        if dAlign d then Ex.pow2 (x - (dW d : Int) + 2)
        else if fmt = 0x0E || (fmt = 0x0F && bf scale 6 2 = 1) then Ex.ofNat 1 2
        else Ex.one
      some (s.mul f)
    | _ => none

/-- A fault in a slice: cause, lane, POS and port. -/
structure SliceFault where
  cause : Nat
  lane : Nat
  port : Nat
  own : Nat
  /-- which head beat brought it, where one did -/
  head : Nat := 0
  deriving DecidableEq, Repr

/-- A sum so far with its flags, or a fault. -/
abbrev SumRes := Except SliceFault (Int × Nat)

/-- A flag-raising step under the policy of the word. -/
def judged (sat : Bool) (n : Nat) (code : Int) (fl : Nat) : SumRes :=
  if sat then .ok (code, fl)
  else if fl &&& NV ≠ 0 then .error { cause := 2, lane := n % 16, port := 0xFF, own := NV }
  else if fl &&& OF ≠ 0 then .error { cause := 1, lane := n % 16, port := 0xFF, own := OF }
  else .ok (code, fl)

def addCode (sat : Bool) (n : Nat) (x : Int) (y : FVal) : SumRes :=
  let (v, fl) := addV (decodeF .fp32 x.toNat) y false
  let (c, fl') := roundF .fp32 0 0 .saturate v
  judged sat n c (orF fl fl')

/-- One result's blocks of one chunk in FP32 mode (R111), with the blocks of A and B (forms and factor). -/
def fpBlocks (sat : Bool) (n : Nat) : List ((List Int × Option Ex) × (List Int × Option Ex)) → Option Int → Nat → SumRes
  | [], acc, fl => .ok (acc.getD 0, fl)
  | (a, b) :: rest, acc, fl =>
    let v : FVal × Nat :=
      match a.2, b.2 with
      | some x, some y =>
        let sum := ((a.1.zip b.1).map (fun p => p.1 * p.2)).foldl (· + ·) 0
        let e := ((Ex.ofInt sum).mul x).mul y
        let (c, f) := roundF .fp32 0 0 .saturate (.fin (if e.num = 0 then Ex.zero false else e))
        (decodeF .fp32 c, f)
      | _, _ => (.nan, 0)
    match judged sat n 0 v.2 with
    | .error e => .error e
    | .ok _ =>
      match acc with
      | none =>
        let (c, _) := roundF .fp32 0 0 .saturate v.1
        fpBlocks sat n rest (some c) (orF fl v.2)
      | some x =>
        match addCode sat n x v.1 with
        | .error e => .error e
        | .ok (c, f) => fpBlocks sat n rest (some c) (orF (orF fl v.2) f)

/-- A sum brought into INT32 (R110, R101). -/
def int32 (sat : Bool) (n : Nat) (i : Int) : SumRes :=
  if -2147483648 ≤ i ∧ i ≤ 2147483647 then .ok (i, 0)
  else if sat then .ok (clampInt (-2147483648) 2147483647 i, SAT)
  else .error { cause := 1, lane := n % 16, port := 0xFF, own := OF }

/-- Results in order, with the first fault. -/
def allSums (fs : List (Unit → SumRes)) : Except SliceFault (List Int × Nat) :=
  match fs with
  | [] => .ok ([], 0)
  | f :: fs =>
    match f () with
    | .error e => .error e
    | .ok (x, fl) =>
      match allSums fs with
      | .error e => .error e
      | .ok (xs, fl') => .ok (x :: xs, orF fl fl')

/-- `n` elements of a list from position `k`. -/
def sliceOf {α : Type} (l : List α) (k n : Nat) : List α := (l.drop k).take n

/-- The 8 by 64 accumulators after a slice: row r, column j at 64r + j (R110, R111). -/
def MmpShape.accumulate (h : MmpShape) (sat : Bool) (aq : List (List Int)) (af : List (Option Ex)) (bank : Bank)
    (bfac : List (Option Ex)) (acc : List Int) : Except SliceFault (List Int × Nat) :=
  let bsA := dBlock h.desc
  let bsB := dBlock h.bedge
  let size := min bsA bsB
  allSums ((upFrom 0 8).flatMap (fun r => (upFrom 0 64).map (fun j => fun _ =>
    let row := aq.getD r []
    let col := sliceOf bank.q (64 * j) 64
    let old := acc[64 * r + j]?
    if h.intMode then
      int32 sat j (old.getD 0 + ((row.zip col).map (fun p => p.1 * p.2)).foldl (· + ·) 0)
    else
      fpBlocks sat j ((upFrom 0 (64 / size)).map (fun t =>
        ((sliceOf row (t * size) size, (af[r * (64 / bsA) + t * size / bsA]?).getD none),
          (sliceOf col (t * size) size, (bfac[j * (64 / bsB) + t * size / bsB]?).getD none)))) old 0)))

/-- What a slice comes to: accumulators and flags, a fault of the operands (not deferrable), or one in computing. `mask`
says which beat of the slice brought it: its input port, and its index among the slice's beats there. -/
inductive SliceRes
  | ok (acc : List Int) (flags : Nat)
  | mask (port index : Nat)
  | tag
  | fault (f : SliceFault) (flags : Nat)
  deriving DecidableEq, Repr

/-- The tag of what the accumulator bank holds (04 R110, R116). -/
def MmpShape.accTag (h : MmpShape) : BitVec 40 := tagOf (if h.intMode then 0x06 else 0x0A) 0

/-- The tags that a slice uses are those that `mmp` expects: the bank's format code is that of B and its descriptor
BDESC but for the tensor scale, and the accumulator's is that of the mode (04 R116, R296, R338). -/
def MmpShape.tagsFit (h : MmpShape) (bank : Bank) (acctag : BitVec 40) : Bool :=
  let t := bank.tag.toNat
  let diff := (t / 2 ^ 8) ^^^ h.bdesc.toNat
  decide (diff - bf diff 15 2 * 2 ^ 15 = 0) && t % 2 ^ 8 == h.bfmt && (acctag == 0 || acctag == h.accTag)

/-- One slice of data beats (R294, R296, R297, R339). -/
def MmpShape.slice (h : MmpShape) (sat cmpr : Bool) (heads planes : List Beat) (bank : Bank) (acctag : BitVec 40)
    (acc : List Int) : SliceRes :=
  if !h.tagsFit bank acctag then .tag
  else
    let mask := bf ((heads[0]?).getD (dataBeat 0)).data.toNat 0 24
    let bits := (upFrom 0 24).filter (bit mask)
    let ds := planes.map (fun b => b.data.toNat)
    let ps := if cmpr then bits.zip ds else (upFrom 0 h.planes).zip ds
    let stray := ps.findIdx (fun p => !bit mask p.1 && p.2 != 0)
    if mask / 2 ^ h.planes ≠ 0 then .mask 1 0
    else if stray < ps.length then .mask 0 stray
    else
      let signed := !(h.fmt == 0 || h.fmt == 2 || h.fmt == 4)
      let aq := (upFrom 0 8).map (aForms signed h.planes ps)
      let bs := dBlock h.desc
      let nb := 64 / bs
      let h1 := if dSfmt h.desc ≠ 0 then ((heads[1]?).getD (dataBeat 0)).data.toNat else 0
      let h2 := if dAlign h.desc then ((heads.getLast?).getD (dataBeat 0)).data.toNat else 0
      let ix := upFrom 0 (8 * nb)
      let nanX (i : Nat) : Bool := dAlign h.desc && bf h2 (8 * i) 8 == 0x80
      if ix.any (fun i => nanX i && (sliceOf (aq.getD (i / nb) []) (i % nb * bs) bs).any (· != 0)) then .mask 1 (h.heads - 1)
      else
        let af := ix.map (fun i => blockFactor h.fmt h.desc (bf h1 (8 * i) 8) (toSigned (bf h2 (8 * i) 8) 8) (nanX i))
        let nbB := 64 / dBlock h.bedge
        let bfac := (upFrom 0 (64 * nbB)).map (fun i =>
          let x := bank.x.getD i 0
          blockFactor h.bfmt h.bedge (bank.scale.getD i 0) x (x == 0x80))
        let badA := af.findIdx Option.isNone
        let badB := bfac.findIdx Option.isNone
        let nv := if badA < af.length || badB < bfac.length then NV else 0
        if !sat && badA < af.length then
          .fault { cause := 2, lane := badA, port := 1, own := NV, head := if nanX badA then h.heads - 1 else 1 } NV
        else if !sat && badB < bfac.length then .fault { cause := 2, lane := badB / nbB, port := 0xFF, own := NV } NV
        else
          match h.accumulate sat aq af bank bfac acc with
          | .ok (xs, fl) => .ok xs (orF nv fl)
          | .error f => .fault f nv

/-! ### The end of a row group (R297) -/

/-- The tensor scale, and then the addend, of one result. -/
def MmpShape.finish (h : MmpShape) (sat : Bool) (tsb : Nat) (n : Nat) (x : Int) (u : Option Nat) : SumRes :=
  if h.intMode then
    match u with
    | none => .ok (x, 0)
    | some y => int32 sat n (x + toSigned y 32)
  else
    let scaled : SumRes :=
      if bf h.bdesc.toNat 15 2 = 0 then .ok (x, 0)
      else
        let (t, _) := roundF .fp32 0 0 .saturate (decodeF .fp32 tsb)
        let (v, fl) := mulV (decodeF .fp32 x.toNat) (decodeF .fp32 t)
        let (c, fl') := roundF .fp32 0 0 .saturate v
        judged sat n c (orF fl fl')
    match scaled, u with
    | .ok (c, fl), some y =>
      (match addCode sat n c (decodeF .fp32 y) with
        | .ok (c, fl') => .ok (c, orF fl fl')
        | .error e => .error e)
    | r, _ => r

/-- The 32 result beats of a row group, j fastest (R295): each a beat with the flags it raised, or a fault. -/
def MmpShape.results (h : MmpShape) (sat : Bool) (tsb : Nat) (acc : List Int) (us : List Beat) :
    List (Except (SliceFault × Nat) (Beat × Nat)) :=
  (upFrom 0 32).map (fun k =>
    let r := k / 4
    let g := k % 4
    match us[k]? with
    | some u =>
      if u.kind = .cond then .ok (holeBeat, 0)
      else
        (match allSums ((upFrom 0 16).map (fun n => fun _ =>
            h.finish sat tsb n (acc.getD (64 * r + 16 * g + n) 0) (some (u.lane 32 n)))) with
          | .ok (xs, fl) => .ok (dataBeat (packLanes 32 (xs.map (fun x => ofSigned x 32))), fl)
          | .error e => .error (e, k))
    | none =>
      (match allSums ((upFrom 0 16).map (fun n => fun _ =>
          h.finish sat tsb n (acc.getD (64 * r + 16 * g + n) 0) none)) with
        | .ok (xs, fl) => .ok (dataBeat (packLanes 32 (xs.map (fun x => ofSigned x 32))), fl)
        | .error e => .error (e, k)))

/-! ### Firing -/

/-- A fault of `mmp` in a slice or at its end: poison for the whole row group, or a trap (R298). -/
def OpView.mmpFault (v : OpView) (f : SliceFault) (flags pos : Nat) (k : Beat → Nat → Fire) : Fire :=
  let p := v.poison f.cause f.lane pos
  if v.deferred then k p (f.own ||| flags)
  else .trap { cause := f.cause, lane := f.lane, port := f.port, flags := f.own, origin := some p }

/-- The slice that stands complete: it is computed, and at a chunk boundary the banks swap (R296). -/
def OpView.mmpSlice (v : OpView) (c : OpCfg) (p : MmpParam) (h : MmpShape) (m : MmpMem) : Fire :=
  let m1 : Option MmpMem :=
    if m.swapDue then (m.swapped 1).map (fun m => { m with swapDue := false }) else some m
  match m1 with
  | none => .stuck 4
  | some m =>
    match m.active with
    | none => .stuck 4
    | some bank =>
      let after (m : MmpMem) : MmpMem :=
        let m := { m with heads := [], planes := [], chunk := m.chunk + 1 }
        if h.kc = 1 then m else if h.bytes = 2 then { m with active := none } else { m with swapDue := true }
      -- the slice's first beat on the HEAD edge, whose beat index it brings (R64, R290)
      let pos := v.posAt 1 - h.heads
      let poisoned (q : Beat) (flags : Nat) : Fire :=
        let m := { after m with poison := some (m.poison.getD q) }
        .go { take := [], emit := [], mem := some (.mmp m), flags := flags }
      match m.poison, (m.heads ++ m.planes).find? (fun b => b.kind == .poison) with
      | some q, _ => poisoned q 0
      | none, some q => poisoned q 0
      | none, none =>
        match h.slice c.sat p.cmpr m.heads m.planes bank m.acctag m.acc with
        | .ok acc flags =>
          let m := { after m with acc := acc, acctag := h.accTag }
          .go { take := [], emit := [], mem := some (.mmp m), flags := flags }
        | .tag => .trap { cause := 0x03 }
        | .mask port k =>
          let got := if port = 1 then h.heads else m.planes.length
          .trap { cause := 0x09, port := port, origin := some (v.poison 0x09 0 (v.posAt port - got + k)) }
        | .fault f flags => v.mmpFault f flags (pos + f.head) poisoned

/-- The row group is complete: its burst leaves (R297, R298). A fault of a result brings the beat index of the result in
its tensor (R64). -/
def OpView.mmpEnd (v : OpView) (c : OpCfg) (p : MmpParam) (h : MmpShape) (m : MmpMem) : Fire :=
  let first := (v.posAt 1 - 1) / (h.heads * h.kc) * 32
  let out (beats : List Beat) (flags : Nat) : Fire :=
    let m := { m with us := [], chunk := 0, acc := [], acctag := 0, poison := none }
    .go { take := [], emit := beats.flatMap v.toAll, mem := some (.mmp m), flags := flags }
  let all (q : Beat) (flags : Nat) : Fire := out (List.replicate 32 q) flags
  match m.poison, m.us.find? (fun b => b.kind == .poison) with
  | some q, _ => all q 0
  | none, some q => if v.deferred then all q 0 else gotPoison 2 q
  | none, none =>
    let rs := h.results c.sat p.tsb.toNat m.acc m.us
    let flags := rs.foldl (fun f r => match r with
      | .ok (_, x) => f ||| x
      | .error (e, _) => f ||| e.own) 0
    let bad := rs.filterMap (fun r => match r with
      | .ok _ => none
      | .error e => some e)
    match bad with
    | (e, k) :: _ =>
      if v.deferred then
        out (rs.map (fun r => match r with
          | .ok (b, _) => b
          | .error (e, k) => v.poison e.cause e.lane (first + k))) flags
      else .trap { cause := e.cause, lane := e.lane, flags := e.own, origin := some (v.poison e.cause e.lane (first + k)) }
    | [] => out (rs.filterMap (fun r => match r with
        | .ok (b, _) => some b
        | .error _ => none)) flags

/-- A stop or group beat between slices (R298). -/
def OpView.mmpControl (v : OpView) (h : MmpShape) (m : MmpMem) (from_ : List Nat) (b : Beat) : Fire :=
  if b.kind = .stop then
    if m.chunk ≠ 0 then
      -- a stop of level 2 or above closes a ragged k run (R297)
      if 2 ≤ b.level then .go { take := [], emit := [], mem := some (.mmp { m with chunk := h.kc }) }
      else .go { take := from_, emit := [] }
    else .go { take := from_, emit := if 3 ≤ b.level then v.toAll b else [] }
  else if h.kc ≠ 1 then .go { take := from_, emit := v.toAll b }
  else
    match m.swapped h.bytes with
    | none => .stuck 4
    | some m => .go { take := from_, emit := v.toAll b, mem := some (.mmp m) }

/-- One beat of a slice or of the addend, taken from port `p`. A group beat off a tensor boundary traps with POSITION (R85),
another beat that is out of step with STOP_SHAPE (R287). -/
def OpView.mmpTake (v : OpView) (p : Nat) (holeOk : Bool) (k : Beat → MmpMem) : Fire :=
  match v.head p with
  | none => .stuck 1
  | some b =>
    if v.op.marked.contains p then .stuck 1
    else if b.kind = .group && !v.atBoundary p then .trap { cause := 0x05, port := p }
    else if !b.kind.takesPosition then .trap { cause := 0x0B, port := p }
    else if b.kind = .cond && !holeOk then .trap { cause := 0x05, port := p }
    else if b.kind = .poison && !v.deferred then gotPoison p b
    else .go { take := [p], emit := [], mem := some (.mmp (k b)) }

/-- What `mmp` does at any moment before it takes a beat: the trap poison passes, what comes back around a cycle is
dropped, and a config beat or a marker at the head of an input is handled before that input's next position (R85, R86, R88,
R286). -/
def OpView.mmpFirst (v : OpView) (al own back : List Nat) : Option Fire :=
  (v.passHeld al).or ((v.dropBack back).or ((v.configHead al).or (v.markerHead own)))

/-- `mmp` (R295-R298). The first slice of a tensor waits for the next beat of in0, ahead of which a config beat may
stand (R286). Inside a row group in0 and in1 alone are aligned; in2 follows with the addend (R287). -/
def mmpFire (c : OpCfg) (p : MmpParam) (v : OpView) : Fire :=
  let h := v.mmpShape p
  let m := mmpMem v.op.mem
  let al := v.ins.map (·.1)
  let fed := al.filter v.fedBack
  let own := al.filter (fun q => !fed.contains q)
  let ctl := if own.contains 1 then 1 else 2
  match v.mmpFirst al own (if own.isEmpty then [] else fed) with
  | some f => f
  | none =>
    if h.kc ≤ m.chunk then
      if p.uadd && m.us.length < 32 then v.mmpTake 2 true (fun b => { m with us := m.us ++ [b] }) else v.mmpEnd c p h m
    else
      let between := m.heads.isEmpty && m.planes.isEmpty
      let stopped : Bool := match v.head ctl with
        | some b => !b.kind.takesPosition
        | none => false
      if between && al.any v.op.marked.contains then .stuck 1
      else if between && stopped then
        let al := if m.chunk = 0 then own else own.filter (· != 2)
        match v.heads al al 0x0B with
        | .done f => f
        | .stop from_ l => v.mmpControl h m from_ (stopBeat l)
        | .group from_ b => v.mmpControl h m from_ b
        | .pos _ => .trap { cause := 0x0B }
      else if between && own.contains 0 && v.atBoundary 0 && (v.head 0).isNone then .stuck 1
      else if m.heads.length < h.heads then v.mmpTake 1 false (fun b => { m with heads := m.heads ++ [b] })
      else if m.planes.length < h.planesDue p.cmpr ((m.heads[0]?).getD (dataBeat 0)) then
        v.mmpTake 0 false (fun b => { m with planes := m.planes ++ [b] })
      else v.mmpSlice c p h m

def execMmp (c : OpCfg) (p : MmpParam) (s : State) : Host.Outcome State Fault Refusal := execOp (mmpFire c p) s
def execMmload (c : OpCfg) (s : State) : Host.Outcome State Fault Refusal := execOp (mmloadFire c) s

end Sys2Proof.Machine
end

