-- ==== Sys2Proof/Machine/Engines.lean ====
section
/-! DEFINITION. The engines: copy queues, the weight-store queue, the berth queue with scheduler fills, transducer
lanes, video encoders and collectives (11_stream_commands.md R267-R281, 02_execution.md R44). -/

namespace Sys2Proof.Machine

/-! ### Moving bytes, one request of up to 256 bytes at a time (23_fleet.md R425) -/

/-- Length of the next request of a transfer that stands at address `a` with `left` bytes to go. -/
def requestLen (a left : Nat) : Nat := min left (256 - a % 256)

/-- Bytes that a copy reads (R269): of what earlier commands of its context wrote, a copy without AFTER may read the old
bytes (log 10). -/
def State.copyBytes (s : State) (job q : Nat) (c : Cmd) (va : Nat) (ts : List Trans) : List Byte × State :=
  let early := ((s.queue job q).writes.filter (fun w => decide (w.1 < c.tln))).map (·.2)
  let new := early.foldl (fun l i => insertNat i l) c.view
  let (k, s) := s.fresh
  ((ts.zip (upFrom va ts.length)).map (fun p =>
    if rgVers p.1.entry then (s.engineBytes job c.view p.2 [p.1]).headD 0
    else s.readByte job (if Config.readsOld k p.2 then c.view else new) p.1.loc), s)

/-- Cells of a write that no later-numbered command of the context has written (R269). -/
def State.notLater (s : State) (job q : Nat) (c : Cmd) (bytes : List Host.Cell) : List Host.Cell :=
  let later := ((s.queue job q).writes.filter (fun w => decide (c.tln < w.1))).filterMap (fun w => s.store? w.2)
  bytes.filter (fun b => !(later.any (fun r => r.covers b.1)))

/-- The next request of the reading half: `n` bytes from `va` on. -/
def State.readOn (s : State) (job q kind : Nat) (c : Cmd) (va n : Nat) : State :=
  let a := va + c.progress
  let k := requestLen a (n - c.progress)
  s.cmdSpan job q c .read a k (fun ts =>
    match s.passGate (s.queueDie job q) kind (qNum q) job q c ts with
    | .inl s => s
    | .inr s =>
      let (bs, s) := s.copyBytes job q c a ts
      s.setCmd job q { c with buf := c.buf ++ bs, progress := c.progress + k, stalled := none })

/-- One request of writing: `bs` at `va` on. `k` goes on with the command. -/
def State.writePart (s : State) (job q kind : Nat) (c : Cmd) (va : Nat) (bs : List Byte) (k : State → Cmd → State) :
    State :=
  s.cmdSpan job q c .write va bs.length (fun ts =>
    let busy := s.wsHit (ts.map (·.loc))
    if spanVers ts then s.failCmd job q c 0x05 5 va
    else if busy then s.failCmd job q c 0x15 0 va
    else
      match s.passGate (s.queueDie job q) kind (qNum q) job q c ts with
      | .inl s => s
      | .inr s =>
        let (c, s) := s.cmdWrite job q c ts (s.notLater job q c (cells (ts.map (·.loc)) bs))
        k s { c with progress := c.progress + bs.length, stalled := none })

/-- The next request of the writing half, of the bytes that the reading half gathered; `fin` follows the last. -/
def State.writeOn (s : State) (job q kind : Nat) (c : Cmd) (va n : Nat) (fin : State → Cmd → State) : State :=
  let w := c.progress - n
  let a := va + w
  s.writePart job q kind c a ((c.buf.drop w).take (requestLen a (n - w))) (fun s c =>
    if 2 * n ≤ c.progress then fin s c else s.setCmd job q c)

/-- A transfer that reads all of its source and then writes it. -/
def State.moveOn (s : State) (job q kind : Nat) (c : Cmd) (src dst n : Nat) (fin : State → Cmd → State) : State :=
  if c.progress < n then s.readOn job q kind c src n else s.writeOn job q kind c dst n fin

/-! ### Copy queues (R267-R269) -/

def copyLen (d : Nat) : Nat := bf d 128 40
def copyDst (d : Nat) : Nat := bf d 64 56

/-- A copy descriptor obeys its map (R267). -/
def copyDescOk (op d : Nat) : Bool :=
  bf d 224 32 == 0 && bf d 168 24 == 0 && bf d 120 8 == 0 && 1 ≤ copyLen d && (op == 0x06 || bf d 192 32 == 0) &&
    (op == 0x07 || bf d 56 8 == 0)

/-- The descriptor is read and checked on the command's first turn; bit 256 of `desc` says that it has been. -/
def State.withCopyDesc (s : State) (job q : Nat) (c : Cmd) (a : Nat) (k : Nat → State) : State :=
  if c.desc ≠ 0 then k (c.desc % 2 ^ 256)
  else
    s.cmdRead job q c a 32 (fun s bs =>
      let d := ofBytes bs
      if !copyDescOk c.op d then s.failCmd job q c 0x05 15 0
      else s.setCmd job q { c with desc := d + 2 ^ 256, stalled := none })

/-- `copy` (R268): every source byte is read before any byte is written. -/
def execCopy (_h : CmdHead) (a : BitVec 56) (s : State) : Host.Outcome State Fault Refusal :=
  execCmd (fun s job q c =>
    s.withCopyDesc job q c a.toNat (fun d =>
      s.moveOn job q 1 c (bf d 0 56) (copyDst d) (copyLen d) (fun s c => s.endCmd job q c .ok))) s

/-- `fill`: the byte at address x is byte x mod 8 of the pattern (R268; log 27). -/
def execFill (_h : CmdHead) (a : BitVec 56) (s : State) : Host.Outcome State Fault Refusal :=
  execCmd (fun s job q c =>
    s.withCopyDesc job q c a.toNat (fun d =>
      let at_ := copyDst d + c.progress
      let bs := (upFrom at_ (requestLen at_ (copyLen d - c.progress))).map (fun x =>
        (BitVec.ofNat 8 (bf d (8 * (x % 8)) 8) : Byte))
      s.writePart job q 1 c at_ bs (fun s c =>
        if copyLen d ≤ c.progress then s.endCmd job q c .ok else s.setCmd job q c))) s

/-- The publication of a `copyv` is made once its bytes have been read; VERSION_PUBLISH ends the command. -/
def State.copyPublish (s : State) (job q : Nat) (c : Cmd) (d : Nat) (r : SlotRef) : State :=
  let p : Publication :=
    { job := job, va := BitVec.ofNat 64 (copyDst d), target := r, num := BitVec.ofNat 32 (bf d 192 32), auto := false,
      data := cells (upFrom r.off (copyLen d)) c.buf, agent := s.queueAgent job q, view := c.view,
      cmd := some (q, c.tln) }
  let s := { s with pubs := s.pubs ++ [p] }
  s.setCmd job q { c with progress := c.progress + 1 }

/-- `copyv` (R268): a full pool makes it wait before it copies. -/
def execCopyv (_h : CmdHead) (a : BitVec 56) (s : State) : Host.Outcome State Fault Refusal :=
  execCmd (fun s job q c =>
    s.withCopyDesc job q c a.toNat (fun d =>
      let n := copyLen d
      let dst := copyDst d
      if n < c.progress then s
      else if 0 < c.progress && c.progress < n then s.readOn job q 1 c (bf d 0 56) n
      else
        match s.slotOf job dst with
        | none => s.failCmd job q c 0x05 5 dst
        | some r =>
          if rgZ r.entry < r.off + n then s.failCmd job q c 0x05 5 dst
          else
            s.cmdSpan job q c .write dst n (fun ts =>
              if c.progress = n then
                match s.queuePass job q c ts with
                | .inl s => s
                | .inr s => s.copyPublish job q c d r
              else
                match pubCheck (s.slotAt job r) r.entry (bf d 192 32) with
                | .exists_ => s.failCmd job q c 0x08 0 dst
                | .full => s
                | .ok => s.readOn job q 1 c (bf d 0 56) n))) s

/-- VERSION_PUBLISH: publication `k` of those at their homes is applied, or waits on for room in its pool; a command
that made it ends (05_memory.md R133). -/
def execVersionPublish (k : Nat) (s : State) : Host.Outcome State Fault Refusal :=
  .next (match s.applyPub k with
    | (none, s) => s
    | (some (p, made), s) =>
      match p.cmd with
      | none => s
      | some (q, tln) =>
        match s.cmd? p.job q tln with
        | some c => if made then s.endCmd p.job q c .ok else s.failCmd p.job q c 0x08 0 p.va.toNat
        | none => s)

/-- VERSION_RETIRE: a retirement is counted at the home of a slot (05_memory.md R134). -/
def execVersionRetire (job : Nat) (a : Word64) (n : BitVec 32) (s : State) : Host.Outcome State Fault Refusal :=
  .next (match s.slotOf job a.toNat with
    | some r => s.retire job r n.toNat
    | none => s)

/-- REDUCTION_CONTRIBUTION: contribution `k` in transport reaches the reorder buffer, which takes it, or holds it back
(05_memory.md R140, R141). -/
def execReductionContribution (k : Nat) (s : State) : Host.Outcome State Fault Refusal :=
  .next (match s.transit[k]? with
    | none => s
    | some c =>
      let (taken, s) := s.contribute c
      if taken then { s with transit := s.transit.eraseIdx k } else s)

/-! ### The weight-store queue (R270) -/

def wsUnits (b : BitVec 36) : Nat := bf b.toNat 20 16
/-- Location of byte `o` of the span that a command names. -/
def wsLoc (die : Nat) (b : BitVec 36) (o : Nat) : Nat :=
  windowLoc die (Config.wsOffset + bf b.toNat 6 14 * 65536 + o)

/-- `wsload`: the busy rule is checked as it starts (R129, R270). -/
def execWsload (_h : CmdHead) (b : BitVec 36) (a : BitVec 56) (s : State) : Host.Outcome State Fault Refusal :=
  execCmd (fun s job q c =>
    let die := qDie q
    let n := wsUnits b * 65536
    if c.desc = 0 && s.wsBusy die then s.failCmd job q c 0x15 0 0
    else
      let c := { c with desc := 1 }
      if c.progress < n then s.readOn job q 9 c a.toNat n
      else
        let w := c.progress - n
        let k := requestLen w (n - w)
        let locs := (upFrom w k).map (wsLoc die b)
        if locs.any s.wsClosed then s.setCmd job q c
        else
          let (i, s) := s.storeNow (s.queueAgent job q) (cells locs ((c.buf.drop w).take k)) c.view true
          let c := { c with view := insertNat i c.view, progress := c.progress + k }
          if n ≤ w + k then s.endCmd job q c .ok else s.setCmd job q c) s

/-- `wsread` (R270). Data that holds an error fails it (23_fleet.md R431). -/
def execWsread (_h : CmdHead) (b : BitVec 36) (a : BitVec 56) (s : State) : Host.Outcome State Fault Refusal :=
  execCmd (fun s job q c =>
    let die := qDie q
    let n := wsUnits b * 65536
    if c.progress < n then
      let k := requestLen c.progress (n - c.progress)
      let locs := (upFrom c.progress k).map (wsLoc die b)
      if locs.any s.wsClosed then s
      else if locs.any s.badBytes.contains then
        (s.eccHit die (paOf 2 die (Config.wsOffset + bf b.toNat 6 14 * 65536 + c.progress))).failCmd job q c 0x1A 20 0
      else s.setCmd job q { c with buf := c.buf ++ s.readBytes job c.view locs, progress := c.progress + k }
    else s.writeOn job q 9 c a.toNat n (fun s c => s.endCmd job q c .ok)) s

/-- REFRESH_WINDOW_END: a bank of the weight store has reopened, and the accesses that waited for it proceed: their wait
is over (05_memory.md R128, 02_execution.md R58). -/
def execRefreshWindowEnd (die bank : Nat) (s : State) : Host.Outcome State Fault Refusal :=
  let loc := windowLoc die (Config.wsOffset + bank * 2 ^ 26)
  let waits (job va : Nat) : Bool :=
    match s.translate (s.jobRanges job) job .read va with
    | .ok t => wsDie? t.loc == some die && ((t.loc - 2 ^ 44) % 2 ^ 40 - Config.wsOffset) / 2 ^ 26 == bank
    | .error _ => false
  .next (if s.wsClosed loc then s
    else
      { s with
        ctxs := s.ctxs.map (fun c =>
          match c.stalled with
          | some (va, _) => if waits c.job va then { c with stalled := none } else c
          | none => c)
        queues := s.queues.map (fun x => { x with started := x.started.map (fun c =>
          match c.stalled with
          | some (va, _) => if waits x.job va then { c with stalled := none } else c
          | none => c) })
        regions := s.regions.map (fun r => { r with stalls := r.stalls.filter (fun x => !waits r.job x.2.1) }) })

/-! ### The 64 microsecond bound (02_execution.md R58) -/

/-- An access that began to wait at `t` can still not reach its home over the trunks, or its page entry is still moving, and
its bound is over. -/
def State.overdue (s : State) (job die va : Nat) (t : Word64) : Bool :=
  decide (t.toNat + 64 * Config.usec ≤ (s.die die).stime.toNat) &&
    [AccKind.read, .write, .fetch, .atomic].any (fun k =>
      match s.translate (s.jobRanges job) job k va with
      | .ok x => !s.reach die x.home
      | .error f => f == .moving)

/-! ### The berth queue and scheduler fills (R271, R272, 02_execution.md R44) -/

def Job.berthSize (j : Job) : Nat := 2 ^ (16 + j.f 640 4)
def Job.berthCount (j : Job) : Nat := j.f 704 16
/-- Virtual address of a berth (05_memory.md R127). -/
def Job.berthVa (j : Job) (d i : Nat) : Nat := j.f 584 56 + d * 2 ^ 32 + i * j.berthSize
/-- Address of a berth's backing copy (R271). -/
def Job.backing (j : Job) (d i : Nat) : Nat := j.f 648 56 + (d * j.berthCount + i) * j.berthSize

/-- Bytes of a berth, which the berth engine reaches in every state. -/
def State.berthSpan (s : State) (job d i : Nat) (kind : AccKind) (va n : Nat) : Except (TFault × Nat) (List Trans) :=
  (s.setBerth d { s.berth job d i with state := .resident }).access d job (s.jobRanges job) kind va n

/-- What the berth queue does with a command on berth `i` of the queue's die. -/
def State.onBerth (s : State) (job q i : Nat) (c : Cmd) (k : Job → Berth → State) : State :=
  match s.job? job with
  | none => s
  | some j => if j.berthCount ≤ i then s.failCmd job q c 0x05 6 0 else k j (s.berth job (qDie q) i)

/-- A berth changes its state; an eviction or a free adds 1 to its generation (R127). -/
def Berth.freed (b : Berth) : Berth := { b with state := .free, gen := b.gen + 1 }

/-- An eviction has come to its end: the fills that it met are held behind the commands that stand in the queue (R272). -/
def State.holdFills (s : State) (job q d i : Nat) : State :=
  let last := (s.queue job q).next - 1
  let x := s.die d
  s.setDie d { x with fills := x.fills.map (fun f =>
    if f.job == job && f.idx == i && f.held && f.heldTo.isNone then { f with heldTo := some last } else f) }

/-- A copy between a berth and memory has failed: the berth goes back to the state it had (log 28), and the fills that met the
eviction come again as they would after it. -/
def State.berthRestore (s : State) (job q i : Nat) (old : BerthState) : State :=
  (s.setBerth (qDie q) { s.berth job (qDie q) i with state := old }).holdFills job q (qDie q) i

/-- The state that a berth had before the command that copies it. -/
def Cmd.berthOld (c : Cmd) : BerthState :=
  if c.op = 0x12 then .free else if c.desc = 2 then .pinned else .resident

/-- The berth goes back where its command has failed. -/
def State.berthBack (s : State) (job q tln i : Nat) (old : BerthState) : State :=
  match s.cmd? job q tln with
  | some c =>
    match c.phase with
    | .ended (.fail _ _ _ _) => s.berthRestore job q i old
    | _ => s
  | none => s

/-- The request of a berth transfer at `va` of the berth. -/
def State.berthPart (s : State) (job q i : Nat) (c : Cmd) (kind : AccKind) (va n : Nat) (k : List Trans → State) : State :=
  match s.berthSpan job (qDie q) i kind va n with
  | .error f => s.cmdFault job q c kind f
  | .ok ts => k ts

/-- `berthfill` (R271). -/
def execBerthfill (_h : CmdHead) (berth : BitVec 36) (a : BitVec 56) (s : State) : Host.Outcome State Fault Refusal :=
  execCmd (fun s job q c =>
    let i := berth.toNat
    let d := qDie q
    s.onBerth job q i c (fun j b =>
      let n := j.berthSize
      let src := if a.toNat = 0 then j.backing d i else a.toNat
      if c.desc = 0 then
        match b.state with
        | .free => (s.setBerth d { b with state := .filling }).setCmd job q { c with desc := 1 }
        | .resident => s.endCmd job q c .ok
        | .pinned => s.endCmd job q c .ok
        | _ => s
      else
        let t :=
          if c.progress < n then s.readOn job q 5 c src n
          else
            let w := c.progress - n
            let k := requestLen w (n - w)
            s.berthPart job q i c .write (j.berthVa d i + w) k (fun ts =>
              let (c, s) := s.cmdWrite job q c ts (cells (ts.map (·.loc)) ((c.buf.drop w).take k))
              let c := { c with progress := c.progress + k, stalled := none }
              if n ≤ w + k then (s.setBerth d { b with state := .resident }).endCmd job q c .ok else s.setCmd job q c)
        t.berthBack job q c.tln i .free)) s

/-- An eviction has completed (R271, R272). -/
def State.evicted (s : State) (job q d i : Nat) (b : Berth) : State := (s.holdFills job q d i).setBerth d b.freed

/-- `berthevict` (R271). -/
def execBerthevict (_h : CmdHead) (force : Bool) (berth : BitVec 36) (a : BitVec 56) (s : State) :
    Host.Outcome State Fault Refusal :=
  execCmd (fun s job q c =>
    let i := berth.toNat
    let d := qDie q
    s.onBerth job q i c (fun j b =>
      let n := j.berthSize
      let dst := if a.toNat = 0 then j.backing d i else a.toNat
      if c.desc = 0 then
        let start : State := (s.setBerth d { b with state := .evicting }).setCmd job q
          { c with desc := if b.state = .pinned then 2 else 1 }
        match b.state with
        | .free => s.endCmd job q c .ok
        | .resident => start
        | .pinned => if force then start else s.endCmd job q c (.fail 0x05 6 0 1)
        | _ => s
      else
        let old : BerthState := c.berthOld
        let t :=
          if c.progress < n then
            let k := requestLen c.progress (n - c.progress)
            s.berthPart job q i c .read (j.berthVa d i + c.progress) k (fun ts =>
              s.setCmd job q { c with buf := c.buf ++ s.engineBytes job c.view 0 ts, progress := c.progress + k,
                                      stalled := none })
          else s.writeOn job q 5 c dst n (fun s c => (s.evicted job q d i b).endCmd job q c .ok)
        t.berthBack job q c.tln i old)) s

/-- `berthpin` (R271). -/
def execBerthpin (_h : CmdHead) (pin : Bool) (berth : BitVec 36) (s : State) : Host.Outcome State Fault Refusal :=
  execCmd (fun s job q c =>
    let i := berth.toNat
    let d := qDie q
    s.onBerth job q i c (fun _ b =>
      let become (st : BerthState) : State := (s.setBerth d { b with state := st }).endCmd job q c .ok
      match b.state with
      | .free => s.failCmd job q c 0x05 6 0
      | .resident => become (if pin then .pinned else .resident)
      | .pinned => become (if pin then .pinned else .resident)
      | _ => s)) s

/-- `berthfree` (R271). -/
def execBerthfree (_h : CmdHead) (berth : BitVec 36) (s : State) : Host.Outcome State Fault Refusal :=
  execCmd (fun s job q c =>
    let i := berth.toNat
    let d := qDie q
    s.onBerth job q i c (fun _ b =>
      match b.state with
      | .filling => s
      | .evicting => s
      | _ => (s.setBerth d b.freed).endCmd job q c .ok)) s

/-- SCHEDULER_FILL_ISSUE: a READY task whose berth is not resident, near its deadline or first in its order, gets a fill
(02_execution.md R44). A berth that already has one gets no second. -/
def execSchedulerFillIssue (job idx : Nat) (s : State) : Host.Outcome State Fault Refusal :=
  .next (match s.taskRec job idx, s.resident? job with
    | some w, some j =>
      match recBerth w with
      | none => s
      | some (bd, i) =>
        let d := s.dieFor bd
        let x := s.die d
        let b := s.berth job d i
        let on := s.taskDie w
        let e : ReadyEntry := { job := job, idx := idx }
        let near := recDeadline w ≠ 0 && (recDeadline w : Int) - ((s.die on).stime.toNat : Int) ≤ (16 * j.f 544 32 : Nat)
        let first := recDeadline w = 0 && s.firstReady on == some e
        if recValid w && recState w = 1 && !b.state.served && (near || first) &&
            !(x.fills.any (fun f => f.job == job && f.idx == i)) then
          s.setDie d { x with fills := x.fills ++
            [{ job := job, idx := i, gen := b.gen, running := false, held := false, heldTo := none,
               stopped := none }] }
        else s
    | _, _ => s)

def Die.dropFill (x : Die) (k : Nat) : Die := { x with fills := x.fills.eraseIdx k }

/-- What a fill finds at the berth engine: as it arrives (R271), or, held behind an eviction, on its retry (R272). -/
def State.fillMeets (s : State) (d k : Nat) (f : SchedFill) : State :=
  let x := s.die d
  let b := s.berth f.job d f.idx
  let counted : State := s.setDie d ((x.dropFill k).count (fun c => { c with berthDrops := c.berthDrops + 1 }))
  match b.state with
  | .free =>
    if b.gen = f.gen then
      (s.setDie d { x with fills := x.fills.set k { f with running := true, held := false, heldTo := none } }).setBerth d
        { b with state := .filling }
    else counted
  | .evicting => s.setDie d { x with fills := x.fills.set k { f with gen := f.gen + 1, held := true, heldTo := none } }
  | _ => if f.held && b.gen ≠ f.gen then counted else s.setDie d (x.dropFill k)

/-- SCHEDULER_FILL: fill `k` of a die reaches the berth engine (R271, R272). -/
def execSchedulerFill (die k : Nat) (s : State) : Host.Outcome State Fault Refusal :=
  .next (match (s.die die).fills[k]? with
    | some f => if f.running || f.held then s else s.fillMeets die k f
    | none => s)

/-- SCHEDULER_FILL_RETRY: a held fill comes again, behind the commands that stood in the berth queue as the eviction
completed (R272). -/
def execSchedulerFillRetry (die k : Nat) (s : State) : Host.Outcome State Fault Refusal :=
  .next (match (s.die die).fills[k]? with
    | some f =>
      match f.heldTo with
      | some n => if n ≤ (s.queue f.job (0x6000 + die * 2 ^ 10)).counter then s.fillMeets die k f else s
      | none => s
    | none => s)

/-- A fill whose copy cannot be made ends, and its berth is FREE again (log 28). Like any command that fails it posts an
event; it has no timeline number (R260, R271). -/
def State.fillFailed (s : State) (d k : Nat) (f : SchedFill) (code subc addr : Nat) : State :=
  let q := 0x6000 + d * 2 ^ 10
  let s := (s.setDie d ((s.die d).dropFill k)).setBerth d { s.berth f.job d f.idx with state := .free }
  s.postEvent f.job d { code := code, srck := 3, index := q, addr := addr, detail := 0x12 * 2 ^ 80 + subc * 2 ^ 88 }

/-- An access of a fill that does not come to its bytes: a page fault stops the fill in place (R261). -/
def State.fillFault (s : State) (d k : Nat) (f : SchedFill) (kind : AccKind) (e : TFault × Nat) : State :=
  match e.1 with
  | .prot sub => s.fillFailed d k f 0x05 sub e.2
  | .dieLost => s.fillFailed d k f 0x1B 0 e.2
  | .data home pa => (s.eccHit home pa).fillFailed d k f 0x1A 20 e.2
  | .moving => s
  | .page level cause =>
    let (t, s) := s.pageFault d f.job (.fill (0x6000 + d * 2 ^ 10) f.idx) e.2 0 kind level cause
    let x := s.die d
    s.setDie d { x with fills := x.fills.set k { f with stopped := some t } }

/-- SCHEDULER_FILL_COMPLETE: the backing copy is in the berth, which is RESIDENT (R271). Its requests pass the gate of the
die's berth traffic (23_fleet.md R424). -/
def execSchedulerFillComplete (die k : Nat) (s : State) : Host.Outcome State Fault Refusal :=
  .next (match (s.die die).fills[k]? with
    | none => s
    | some f =>
      match f.running && f.stopped.isNone, s.job? f.job with
      | true, some j =>
        let n := j.berthSize
        let q := 0x6000 + die * 2 ^ 10
        match s.access die f.job (s.jobRanges f.job) .read (j.backing die f.idx) n with
        | .error e => s.fillFault die k f .read e
        | .ok from_ =>
          match s.berthSpan f.job die f.idx .write (j.berthVa die f.idx) n with
          | .error e => s.fillFault die k f .write e
          | .ok dst_ =>
            let g : GateWait :=
              { kind := 5, unit := 0, job := f.job, qid := q, tln := 2 ^ 64 + f.idx, part := 0, owes := Bill.zero }
            let bill := billOf die (from_ ++ dst_)
            match s.passBill die g bill.1 bill.2 with
            | .inl s => s
            | .inr s =>
              let view := s.placedAt (from_.map (·.loc))
              let bs := s.homeBytes (from_.map (·.loc))
              let s := s.setDie die ((s.die die).dropFill k)
              let (_, s) := s.storeNow (s.queueAgent f.job q) (cells (dst_.map (·.loc)) bs) view true
              s.setBerth die { s.berth f.job die f.idx with state := .resident }
      | _, _ => s)

end Sys2Proof.Machine
end

