-- ==== Sys2Proof/Machine/Media.lean ====
section
/-! DEFINITION. Transducer lanes, video encoders and collectives (11_stream_commands.md R273-R281). -/

namespace Sys2Proof.Machine

/-! ### Transducer tables (R273) -/

/-- Bytes `a` to `a + n - 1` as a number. -/
def sliceNat (bs : List Byte) (a n : Nat) : Nat := ofBytes ((bs.drop a).take n)

def txHeadStates (bs : List Byte) : Nat := bf (sliceNat bs 0 4) 0 12 + 1
def txHeadEmits (bs : List Byte) : Nat := bf (sliceNat bs 4 4) 0 12 + 1
/-- The size that a table image's header gives. -/
def txSize (bs : List Byte) : Nat := 16 + 64 * txHeadStates bs + 8 * txHeadEmits bs + (txHeadStates bs + 7) / 8

/-- A table image to the table, when R273 admits it. -/
def txParse (bs : List Byte) : Option TxTable :=
  let st := txHeadStates bs
  let em := txHeadEmits bs
  let trans := (upFrom 0 (16 * st)).map (fun k => sliceNat bs (16 + 4 * k) 4)
  let emits := (upFrom 0 em).map (fun k => sliceNat bs (16 + 64 * st + 8 * k) 8)
  let map := sliceNat bs (16 + 64 * st + 8 * em) ((st + 7) / 8)
  if bf (sliceNat bs 0 4) 12 20 != 0 || bf (sliceNat bs 4 4) 12 20 != 0 || sliceNat bs 8 8 != 0 then none
  else if trans.any (fun t => st ≤ bf t 20 12 || em ≤ bf t 8 12 || bf t 1 7 != 0) then none
  else if emits.any (fun e => 4 < bf e 32 3 || bf e 35 29 != 0) then none
  else
    some { states := st, trans := trans.map (fun t => BitVec.ofNat 32 t), emits := emits.map (fun e => BitVec.ofNat 64 e),
           accept := (upFrom 0 st).map (bit map) }

/-- The table that a lane of a die holds. -/
def Die.lane (d : Die) (n : Nat) : Option TxTable := (d.lanes.find? (fun l => l.1 == n)).map (·.2)

/-- `txload` (R273): a refused image leaves the lane its table. -/
def execTxload (_h : CmdHead) (len : BitVec 36) (a : BitVec 56) (s : State) : Host.Outcome State Fault Refusal :=
  execCmd (fun s job q c =>
    let bad (s : State) : State := s.failCmd job q c 0x05 16 0
    if len.toNat < 16 then bad s
    else
      s.cmdRead job q c a.toNat 16 (fun s h =>
        if txSize h ≠ len.toNat then bad s
        else
          s.cmdRead job q c a.toNat len.toNat (fun s bs =>
            match txParse bs with
            | none => bad s
            | some t =>
              let d := qDie q
              let x := s.die d
              let s := s.setDie d { x with lanes := upsert (fun l => l.1 == qNum q) (qNum q, t) x.lanes }
              s.endCmd job q c .ok))) s

/-! ### Runs (R274-R277) -/

/-- CRC-32C (R274). -/
def crc32cByte (crc : BitVec 32) (b : Byte) : BitVec 32 :=
  (upFrom 0 8).foldl (fun c _ => if c.getLsbD 0 then (c >>> 1) ^^^ 0x82F63B78#32 else c >>> 1) (crc ^^^ b.setWidth 32)

def crc32c (bs : List Byte) : BitVec 32 := (bs.foldl crc32cByte 0xFFFFFFFF#32) ^^^ 0xFFFFFFFF#32

/-- Causes of R277. -/
def txReject : Nat := 1
def txNoAccept : Nat := 2
def txCrc : Nat := 3
def txStage : Nat := 4
def txDlim : Nat := 5
def txSource : Nat := 6

/-- The nibbles of bytes, each byte's low one first. -/
def nibbles (bs : List Byte) : List Nat := bs.flatMap (fun b => [b.toNat % 16, b.toNat / 16])

/-- The steps of a lane (R274): the output, reversed, or the cause; output past 64 KiB fails with STAGE. -/
def txSteps (t : TxTable) : List Nat → Nat → Nat → List Byte → Except Nat (Nat × List Byte)
  | [], st, _, out => .ok (st, out)
  | v :: vs, st, n, out =>
    let w := (t.trans.getD (16 * st + v) 0).toNat
    if bit w 0 then .error txReject
    else
      let e := (t.emits.getD (bf w 8 12) 0).toNat
      let k := bf e 32 3
      if 65536 < n + k then .error txStage
      else txSteps t vs (bf w 20 12) (n + k) ((toBytes k e).reverse ++ out)

/-- A chunk decoded from its start state. -/
def txDecode (t : TxTable) (start : Nat) (crc : BitVec 32) (input : List Byte) : Chunk :=
  match txSteps t (nibbles input) start 0 [] with
  | .error k => { out := none, cause := k }
  | .ok (st, out) =>
    if !(t.accept.getD st false) then { out := none, cause := txNoAccept }
    else if crc32c out.reverse ≠ crc then { out := none, cause := txCrc }
    else { out := some out.reverse, cause := 0 }

/-- An access to these bytes has come to its end, and waits no more. -/
def Cmd.unstall (c : Cmd) (va n : Nat) : Cmd :=
  match c.stalled with
  | some (a, _) => if va ≤ a && a < va + n then { c with stalled := none } else c
  | none => c

def TxRun.dst (r : TxRun) : Nat := bf r.desc.toNat 0 56
def TxRun.dlim (r : TxRun) : Nat := bf r.desc.toNat 64 40

def chunkSrc (e : BitVec 192) : Nat := bf e.toNat 0 56
def chunkLen (e : BitVec 192) : Nat := bf e.toNat 64 17
def chunkCrc (e : BitVec 192) : BitVec 32 := BitVec.ofNat 32 (bf e.toNat 96 32)
def chunkStart (e : BitVec 192) : Nat := bf e.toNat 128 12
def chunkOk (e : BitVec 192) : Bool :=
  bf e.toNat 140 52 == 0 && bf e.toNat 81 15 == 0 && 1 ≤ chunkLen e && chunkLen e ≤ 65536 && bf e.toNat 56 8 == 0

/-- A run descriptor obeys its map (R275). -/
def txDescOk (d : Nat) : Bool :=
  bf d 248 8 == 0 && bf d 192 56 % 8 == 0 && bf d 132 60 == 0 && bf d 104 24 == 0 && bf d 56 8 == 0

def State.txrun? (s : State) (job q tln : Nat) : Option TxRun :=
  s.txruns.find? (fun r => r.job == job && r.qid == q && r.tln == tln)

def State.setRun (s : State) (r : TxRun) : State :=
  { s with txruns := upsert (fun x => x.job == r.job && x.qid == r.qid && x.tln == r.tln) r s.txruns }

def State.dropRun (s : State) (r : TxRun) : State :=
  { s with txruns := s.txruns.filter (fun x => !(x.job == r.job && x.qid == r.qid && x.tln == r.tln)) }

/-- The run ends with chunk `failed`, or without a failure, and writes its result record (R277). A record that cannot be
written ends the run too, and its lanes are free again (R275). -/
def State.txEnd (s : State) (c : Cmd) (r : TxRun) (cause : Nat) : State :=
  let failed := if cause = 0 then 0xFFFFFFFF else r.released
  match s.access (s.queueDie r.job r.qid) r.job (s.jobRanges r.job) .write r.resultVa 24 with
  | .error f =>
    (match f.1 with
      | .page _ _ => s.setRun r
      | .moving => s.setRun r
      | _ => s.dropRun r).cmdFault r.job r.qid c .write f
  | .ok ts =>
    if spanVers ts then (s.dropRun r).failCmd r.job r.qid c 0x05 5 r.resultVa
    else if s.wsHit (ts.map (·.loc)) then (s.dropRun r).failCmd r.job r.qid c 0x15 0 r.resultVa
    else
      match s.queuePass r.job r.qid c ts with
      | .inl s => s.setRun r
      | .inr s =>
      let (c, s) := s.cmdWrite r.job r.qid c ts (cells (ts.map (·.loc)) (r.result failed cause))
      (s.dropRun r).endCmd r.job r.qid c
        (if cause = 0 then .ok
         else .fail 0x17 cause 0 (BitVec.ofNat 160 (r.released + r.released * 2 ^ 32 + r.outBytes * 2 ^ 64)))

/-- Chunks are released in index order for as long as the next one is decoded (R276); the first that fails ends the
run (R277). A write that faults other than on a page ends it as a cancellation would (log 28). -/
def State.txRelease (s : State) (c : Cmd) : Nat → TxRun → State
  | 0, r => s.setRun r
  | fuel + 1, r =>
    if r.chunks.length ≤ r.released then s.txEnd c r 0
    else
      match r.decoded.getD r.released none with
      | none => s.setRun r
      | some k =>
        match k.out with
        | none => s.txEnd c r k.cause
        | some out =>
          if r.dlim < r.outBytes + out.length then s.txEnd c r txDlim
          else
            let va := r.dst + r.outBytes
            match s.access (s.queueDie r.job r.qid) r.job (s.jobRanges r.job) .write va out.length with
            | .error f =>
              match f.1 with
              | .page _ _ => (s.setRun r).cmdFault r.job r.qid c .write f
              | .moving => (s.setRun r).cmdFault r.job r.qid c .write f
              | _ => ((s.cancelRun r).dropRun r).cmdFault r.job r.qid c .write f
            | .ok ts =>
              if spanVers ts then ((s.cancelRun r).dropRun r).failCmd r.job r.qid c 0x05 5 va
              else if s.wsHit (ts.map (·.loc)) then ((s.cancelRun r).dropRun r).failCmd r.job r.qid c 0x15 0 va
              else
                match s.queuePass r.job r.qid c ts with
                | .inl s => s.setRun r
                | .inr s =>
                let (c, s) := s.cmdWrite r.job r.qid (c.unstall va out.length) ts (cells (ts.map (·.loc)) out)
                let s := s.setCmd r.job r.qid c
                s.txRelease c fuel
                  { r with released := r.released + 1, outBytes := r.outBytes + out.length,
                           decoded := r.decoded.set r.released (some { out := some [], cause := 0 }) }

/-- The checks of a run before it decodes anything (R275). -/
def State.txOk (s : State) (q d : Nat) (chunks : List (BitVec 192)) : Bool :=
  let n := qNum q
  let m := bf d 128 4 + 1
  txDescOk d && n + m ≤ 128 && chunks.all chunkOk &&
    (upFrom 0 m).all (fun k => ((s.die (qDie q)).lane (n + k)).isSome) &&
    (chunks.zip (upFrom 0 chunks.length)).all (fun e =>
      match (s.die (qDie q)).lane (n + e.2 % m) with
      | some t => decide (chunkStart e.1 < t.states)
      | none => false)

/-- `txrun` (R275): it claims its lanes, once no other run holds one of them; later turns take up a release that a page
fault stopped. -/
def execTxrun (_h : CmdHead) (chunks : BitVec 36) (a : BitVec 56) (s : State) : Host.Outcome State Fault Refusal :=
  execCmd (fun s job q c =>
    match s.txrun? job q c.tln with
    | some r => s.txRelease c (r.chunks.length + 1) r
    | none =>
      s.cmdRead job q c a.toNat (32 + 24 * chunks.toNat) (fun s bs =>
        let d := sliceNat bs 0 32
        let es := (upFrom 0 chunks.toNat).map (fun k => BitVec.ofNat 192 (sliceNat bs (32 + 24 * k) 24))
        if !s.txOk q d es then s.failCmd job q c 0x05 15 0
        else
          let m := bf d 128 4 + 1
          if s.txruns.any (fun r => qDie r.qid == qDie q && (upFrom (qNum q) m).any r.claims) then s
          else
            s.setRun { job := job, qid := q, tln := c.tln, lane := qNum q, lanes := m, desc := BitVec.ofNat 256 d,
                       chunks := es, decoded := List.replicate es.length none, released := 0, outBytes := 0 })) s

/-- Chunk `k` may be decoded: its lane has released the one before it (R276). -/
def TxRun.mayDecode (r : TxRun) (k : Nat) : Bool :=
  k < r.chunks.length && r.decoded.getD k none == none && (k < r.lanes || k - r.lanes < r.released)

/-- TX_CHUNK_DECODED: a lane has decoded chunk `k`, and chunks are released in order (R276, R277). A fault of its
source fails it; a page fault stops the command. -/
def execTxChunkDecoded (job qid tln k : Nat) (s : State) : Host.Outcome State Fault Refusal :=
  .next (match s.txrun? job qid tln, s.cmd? job qid tln with
    | some r, some c =>
      if c.phase ≠ .running || !r.mayDecode k then s
      else
        let e := r.chunks.getD k 0
        let staged (s : State) (x : Chunk) : State :=
          let r := { r with decoded := r.decoded.set k (some x) }
          let c := c.unstall (chunkSrc e) (chunkLen e)
          (s.setCmd job qid c).txRelease c (r.chunks.length + 1) r
        match s.access (qDie qid) job (s.jobRanges job) .read (chunkSrc e) (chunkLen e) with
        | .error f =>
          match f.1 with
          | .page _ _ => s.cmdFault job qid c .read f
          | .moving => s.cmdFault job qid c .read f
          | .data home pa => staged (s.eccHit home pa) { out := none, cause := txSource }
          | _ => staged s { out := none, cause := txSource }
        | .ok ts =>
          match (s.die (qDie qid)).lane (r.lane + k % r.lanes) with
          | none => s
          | some t =>
            -- its source and its steps pass the gate of the die's lanes (23_fleet.md R425)
            let b := billOf (qDie qid) ts
            let steps : Bill := { reqs := 0, cells := 0, work := (2 * chunkLen e + 63) / 64, per := 1 }
            match s.passBill (qDie qid) (cmdGate 3 0 job qid c (k + 1)) (b.1.plus steps) b.2 with
            | .inl s => s
            | .inr s => staged s (txDecode t (chunkStart e) (chunkCrc e) (s.engineBytes job c.view (chunkSrc e) ts))
    | _, _ => s)

/-- An access of a run has stood outstanding to its bound (02_execution.md R58): a source fails its chunk with SOURCE, which
ends the run when release reaches it; an output ends the run as a cancellation would, with LINK. -/
def State.txTimeout (s : State) (c : Cmd) (r : TxRun) (va : Nat) : State :=
  match (upFrom 0 r.chunks.length).find? (fun k =>
      let e := r.chunks.getD k 0
      r.mayDecode k && decide (chunkSrc e ≤ va) && decide (va < chunkSrc e + chunkLen e)) with
  | some k =>
    (s.setCmd r.job r.qid { c with stalled := none }).txRelease { c with stalled := none } (r.chunks.length + 1)
      { r with decoded := r.decoded.set k (some { out := none, cause := txSource }) }
  | none => ((s.cancelRun r).dropRun r).failCmd r.job r.qid c 0x1A 0 va

/-! ### Video encoders (R278, R279) -/

def encWidth (d : Nat) : Nat := bf d 160 16
def encHeight (d : Nat) : Nat := bf d 176 16
def encDepth (d : Nat) : Nat := bf d 208 1
def encOlim (d : Nat) : Nat := bf d 128 32
/-- CODEC, DEPTH, WIDTH and HEIGHT together. -/
def encKey (d : Nat) : Nat := bf d 200 1 * 2 ^ 33 + encDepth d * 2 ^ 32 + encWidth d * 2 ^ 16 + encHeight d

/-- A descriptor obeys its map (R278). -/
def encDescOk (d : Nat) : Bool :=
  bf d 312 200 == 0 && bf d 232 24 == 0 && bf d 217 7 == 0 && bf d 209 7 == 0 && bf d 201 7 == 0 && bf d 196 4 == 0 &&
    bf d 120 8 == 0 && bf d 56 8 == 0 && bf d 256 56 % 4 == 0 && encWidth d % 8 == 0 && 64 ≤ encWidth d &&
    encWidth d ≤ 3840 && encHeight d % 8 == 0 && 64 ≤ encHeight d && encHeight d ≤ 2160 &&
    (bf d 200 1 == 0 || bf d 224 8 ≤ 51)

/-- Bytes of a frame: luma, and chroma at half width and half height (R279). -/
def encFrame (d : Nat) : Nat := encWidth d * encHeight d * 3 / 2 * (1 + encDepth d)

/-- The bitstream, or what an overrun leaves, is written at OUT, and the length at LENADDR. -/
def State.encWrite (s : State) (job q : Nat) (c : Cmd) (d : Nat) (bits : List Byte) (overran : Bool) : State :=
  let out := bf d 64 56
  s.cmdSpan job q c .write out bits.length (fun ts =>
    s.cmdSpan job q c .write (bf d 256 56) 4 (fun ls =>
      if spanVers ts || spanVers ls then s.failCmd job q c 0x05 5 out
      else if s.wsHit ((ts ++ ls).map (·.loc)) then s.failCmd job q c 0x15 0 out
      else
        match s.queuePass job q c (ts ++ ls) with
        | .inl s => s
        | .inr s =>
        let (c, s) := s.cmdWrite job q c ts (cells (ts.map (·.loc)) bits)
        let (c, s) := s.cmdWrite job q c ls (cells (ls.map (·.loc)) (toBytes 4 (if overran then 0 else bits.length)))
        if overran then s.failCmd job q c 0x05 18 0 else s.endCmd job q c .ok))

/-- A number in the variable-length form of AV1, at most eight bytes. -/
def leb128 : Nat → Nat → List Byte
  | 0, _ => []
  | fuel + 1, n => if n < 128 then [BitVec.ofNat 8 n] else BitVec.ofNat 8 (n % 128 + 128) :: leb128 fuel (n / 128)

/-- The bitstream of a frame (R279). AV1 begins with a temporal delimiter, and a key frame then carries a sequence header;
an HEVC key frame carries VPS, SPS and PPS, each behind a start code. What R279 does not state is free (log 10); the codes
of the units are those of the named standards (log 92). -/
def encBits (d : Nat) (frame : List Byte) (k : Nat) : List Byte :=
  let body := Config.bitstream (BitVec.ofNat 512 d) frame k
  let key := bit d 216
  if bit d 200 then
    let unit (code : Byte) (n : Nat) : List Byte := [0, 0, 0, 1, code, 1] ++ Config.streamHeader n k
    (if key then unit 0x40 0 ++ unit 0x42 1 ++ unit 0x44 2 else []) ++ [0, 0, 0, 1] ++ body
  else
    let h := Config.streamHeader 3 k
    [0x12, 0x00] ++ (if key then 0x0A :: (leb128 8 h.length ++ h) else []) ++ body

/-- `encode` (R278, R279): its turns read the descriptor, then the frame, which is made into a bitstream, and then write
that. -/
def execEncode (_h : CmdHead) (retire : Bool) (frame : BitVec 36) (a : BitVec 56) (s : State) :
    Host.Outcome State Fault Refusal :=
  execCmd (fun s job q c =>
    if c.desc = 0 then
      s.cmdRead job q c a.toNat 64 (fun s bs =>
        if encDescOk (ofBytes bs) then s.setCmd job q { c with desc := ofBytes bs + 2 ^ 512, stalled := none }
        else s.failCmd job q c 0x05 15 0)
    else
      let d := c.desc % 2 ^ 512
      let n := frame.toNat % 2 ^ 32
      let src := bf d 0 56
      let die := qDie q
      let unit := qNum q
      let stream := bf d 192 4
      if c.progress ≠ 0 then
        if c.buf.length ≤ encOlim d then s.encWrite job q c d c.buf false
        else
          let (k, s) := s.fresh
          s.encWrite job q c d ((upFrom 0 (encOlim d)).map (Config.overrunByte k)) true
      else
        s.cmdSpan job q c .read src 1 (fun ts =>
          match spanVers ts, ts with
          | true, t :: _ =>
            let r := slotRef src t
            let x := s.slotAt job r
            if rgZ r.entry < r.off + encFrame d then s.failCmd job q c 0x05 15 0
            else
              match vlook x .exact n with
              | .gone => s.failCmd job q c 0x06 0 src
              | .skipped => s.failCmd job q c 0x07 0 src
              | .wait => s
              | .version v =>
                let y := s.die die
                let mine (e : EncStream) : Bool := e.unit == unit && e.stream == stream
                let keyed := y.streams.any (fun e => mine e && e.key == encKey d)
                let own := (billBytes die t (encFrame d)).plus
                  { reqs := 0, cells := 0, work := (encWidth d * encHeight d + 1023) / 1024, per := 40 }
                if !bit d 216 && !keyed then s.failCmd job q c 0x05 17 0
                else
                  match s.passBill die (cmdGate 4 0 job q c) own Bill.zero with
                  | .inl s => s
                  | .inr s =>
                  let view := unionNat c.view (acquireFrom (s.queueAgent job q) (x.relsTo n))
                  let (k, s) := s.fresh
                  let out := encBits d (v.bytes r.off (encFrame d)) k
                  let e : EncStream := { unit := unit, stream := stream, key := encKey d }
                  let s := s.setDie die { s.die die with streams := upsert mine e y.streams }
                  let s := if retire then s.retire job r n else s
                  s.setCmd job q { c with view := view, progress := 1, buf := out, stalled := none }
          | _, _ => s.failCmd job q c 0x05 5 src)) s

/-! ### Collectives (R280, R281) -/

def collCount (d : Nat) : Nat := bf d 128 40
def collDtype (d : Nat) : Nat := bf d 168 8
def collOp (d : Nat) : Nat := bf d 176 8
def collWin (d : Nat) : Bool := bit d 191
def collMask (d : Nat) : Nat := bf d 184 4

/-- A descriptor obeys its map; a reserved DTYPE or OP is for R281 to judge. -/
def collDescOk (d : Nat) : Bool :=
  bf d 208 48 == 0 && bf d 188 3 == 0 && bf d 120 8 == 0 && bf d 56 8 == 0 && 1 ≤ collCount d && collCount d ≤ 2 ^ 28

/-- The window entry that a `coll` with WIN = 1 uses: its package count and this package's position (20_host.md
R386). -/
def State.collWindow (s : State) (job id : Nat) : Option (Nat × Nat) :=
  s.windows.toList.findSome? (fun e =>
    let w0 := (vget e 0 0).toNat
    let w2 := (vget e 2 0).toNat
    if bit w0 63 && bf w0 56 7 == 0 && bf (vget e 1 0).toNat 56 8 == 0 && bf w2 48 16 == 0 && bf w2 6 2 == 0 &&
        bf (vget e 3 0).toNat 32 32 == 0 && bf w2 0 6 == job && bf w2 32 16 == id then
      some (bf w2 12 4 + 1, bf w2 8 4)
    else none)

/-- The dies of this package that are members, and whether there are members in other packages. -/
def State.collMembers (s : State) (job d : Nat) : Option (List Nat × Bool) :=
  if collWin d then
    match s.collWindow job (bf d 192 16) with
    | some (n, _) => some ([0, 1, 2, 3], decide (1 < n))
    | none => none
  else some ([0, 1, 2, 3].filter (bit (collMask d)), false)

/-- Ends a call that waits. -/
def State.endCall (s : State) (k : CollCall) (r : CmdResult) : State :=
  let s := { s with colls := s.colls.filter (fun x => x != k) }
  match s.cmd? k.job k.qid k.tln with
  | some c => s.endCmd k.job k.qid c r
  | none => s

/-- The started calls of an id, the first of each die. -/
def State.callsOf (s : State) (job id : Nat) : List CollCall :=
  [0, 1, 2, 3].filterMap (fun d => s.colls.find? (fun k => k.job == job && k.id == id && k.die == d))

/-- `coll` (R280, R281): the call is entered; once the collective has run, its result is written. -/
def execColl (_h : CmdHead) (id : BitVec 36) (a : BitVec 56) (s : State) : Host.Outcome State Fault Refusal :=
  execCmd (fun s job q c =>
    let fail (sub : Nat) (s : State) : State := s.failCmd job q c 0x05 sub 0
    if c.desc = 0 then
      s.cmdRead job q c a.toNat 32 (fun s bs =>
        let d := ofBytes bs
        if !collDescOk d then fail 15 s
        else
          match s.collMembers job d with
          | none => fail 19 s
          | some (ms, beyond) =>
            if !ms.contains (qDie q) then fail 19 s
            else
              let k : CollCall := { job := job, id := id.toNat, die := qDie q, qid := q, tln := c.tln,
                                    desc := BitVec.ofNat 256 d, members := ms, beyond := beyond }
              { s.setCmd job q { c with desc := d + 2 ^ 256, stalled := none } with colls := s.colls ++ [k] })
    else if c.progress = 0 then s
    else
      let d := c.desc % 2 ^ 256
      s.cmdSpan job q c .write (bf d 64 56) c.buf.length (fun ts =>
        if spanVers ts then fail 5 s
        else if s.wsHit (ts.map (·.loc)) then s.failCmd job q c 0x15 0 (bf d 64 56)
        else
          match s.queuePass job q c ts with
          | .inl s => s
          | .inr s =>
          let (c, s) := s.cmdWrite job q c ts (cells (ts.map (·.loc)) c.buf)
          s.endCmd job q c .ok)) s

/-- One element reduced in rank order (R281). -/
def collStep (dtype op : Nat) (acc x : Nat) : Nat :=
  if op = 3 || op = 4 then
    match floatOf dtype with
    | some f => minMaxF f (op == 4) acc x
    | none =>
      let less := decide (intOf dtype x < intOf dtype acc)
      if less == (op == 4) then x else acc
  else
    match floatOf dtype with
    | some f => (roundF f 0 0 .ieee (addV (decodeF f acc) (decodeF f x) false).1).1
    | none => (acc + x) % 2 ^ 32

/-- Elements of `w` bits from bytes. -/
def elementsOf (w n : Nat) (bs : List Byte) : List Nat := (upFrom 0 n).map (fun k => sliceNat bs (k * (w / 8)) (w / 8))

/-- The elementwise reduction of the members' contributions, in rank order. -/
def collReduce (dtype op : Nat) : List (List Nat) → List Nat
  | [] => []
  | x :: xs => xs.foldl (fun acc y => (acc.zip y).map (fun p => collStep dtype op p.1 p.2)) x

/-- What member `r` of `m` receives. -/
def collResult (d : Nat) (parts : List (List Byte)) (r m : Nat) : List Byte :=
  let w := fmtWidth (collDtype d)
  let n := collCount d
  if collOp d = 2 then parts.flatten
  else
    let all := (collReduce (collDtype d) (collOp d) (parts.map (elementsOf w n))).flatMap (toBytes (w / 8))
    if collOp d = 1 then (all.drop (r * (n / m) * (w / 8))).take (n / m * (w / 8)) else all

/-- The members agree, and what they ask for is defined (R281). -/
def collAgrees (ds : List Nat) (m : Nat) : Bool :=
  match ds with
  | [] => true
  | d :: _ =>
    let key (x : Nat) : Nat := bf x 128 64
    ds.all (fun x => key x == key d) && (collDtype d == 0x06 || collDtype d == 0x09 || collDtype d == 0x0A) &&
      collOp d ≤ 4 && (collOp d != 1 || collCount d % m == 0)

/-- The contributions of the members, read one after another; the call that cannot be read, and why. -/
def State.collRead (s : State) : List CollCall → Except (CollCall × TFault × Nat) (List (List Byte))
  | [] => .ok []
  | k :: ks =>
    let d := k.desc.toNat
    let n := collCount d * (fmtWidth (collDtype d) / 8)
    match s.access k.die k.job (s.jobRanges k.job) .read (bf d 0 56) n with
    | .error f => .error (k, f.1, f.2)
    | .ok ts =>
      let v := match s.cmd? k.job k.qid k.tln with
        | some c => c.view
        | none => []
      match s.collRead ks with
      | .error e => .error e
      | .ok rest => .ok (s.engineBytes k.job v (bf d 0 56) ts :: rest)

/-- The results go to the members' commands, which then write them. -/
def State.collDeliver (s : State) (calls : List CollCall) (parts : List (List Byte)) : State :=
  let m := calls.length
  (calls.zip (upFrom 0 m)).foldl (fun s p =>
    let k := p.1
    let d := k.desc.toNat
    let s := { s with colls := s.colls.filter (fun x => x != k) }
    match s.cmd? k.job k.qid k.tln with
    | some c => s.setCmd k.job k.qid { c with progress := 1, buf := collResult d parts p.2 m }
    | none => s) s

/-- The requests of a call for its source pass the gate of its queue; a command whose have all passed says so in bit 257 of
`desc`. -/
def State.collPay (s : State) (k : CollCall) : Bool × State :=
  match s.cmd? k.job k.qid k.tln with
  | none => (true, s)
  | some c =>
    if bit c.desc 257 then (true, s)
    else
      let d := k.desc.toNat
      match s.access k.die k.job (s.jobRanges k.job) .read (bf d 0 56) (collCount d * (fmtWidth (collDtype d) / 8)) with
      | .error _ => (true, s)
      | .ok ts =>
        match s.queuePass k.job k.qid c ts with
        | .inl s => (false, s)
        | .inr s => (true, s.setCmd k.job k.qid { c with desc := c.desc + 2 ^ 257 })

/-- The requests of every member. -/
def State.collPayAll (s : State) (ks : List CollCall) : Bool × State :=
  ks.foldl (fun r k =>
    let (ok, s) := r.2.collPay k
    (r.1 && ok, s)) (true, s)

/-- A call can give nothing: it leaves, and the other calls of its id fail with COLL (log 29). -/
def State.callLost (s : State) (k : CollCall) : State :=
  let s := ((s.callsOf k.job k.id).filter (fun x => x != k)).foldl (fun s x => s.endCall x (.fail 0x05 19 0 0)) s
  { s with colls := s.colls.filter (fun x => x != k) }

/-- COLL_MEMBERS_MATCHED: every member has started its call, and the collective runs (R281). A member die that is not
live, or calls that differ, fail them all; a source that cannot be read fails its call with that fault and the others
with COLL (log 29). A call whose members lie in other packages too waits for those (log 29). -/
def execCollMembersMatched (job id : Nat) (s : State) : Host.Outcome State Fault Refusal :=
  let calls := s.callsOf job id
  .next (match calls with
    | [] => s
    | k :: _ =>
      let ms := k.members
      if !ms.all s.live then calls.foldl (fun s k => s.endCall k (.fail 0x1B 0 0 0)) s
      else if k.beyond || !ms.all (fun d => calls.any (fun k => k.die == d)) then s
      else
        let mine := calls.filter (fun k => ms.contains k.die)
        if !collAgrees (calls.map (·.desc.toNat)) ms.length then
          calls.foldl (fun s k => s.endCall k (.fail 0x05 19 0 0)) s
        else
          let (paid, s) := s.collPayAll mine
          if !paid then s
          else
          match s.collRead mine with
          | .ok parts => s.collDeliver mine parts
          | .error (k, f, va) =>
            match f, s.cmd? k.job k.qid k.tln with
            | .page _ _, some c => s.cmdFault k.job k.qid c .read (f, va)
            | .moving, some c => s.cmdFault k.job k.qid c .read (f, va)
            | _, some c => (s.callLost k).cmdFault k.job k.qid c .read (f, va)
            | _, none => s)

/-- A command can come no further: what it held beside its queue is given up. A berth goes back to the state it had (R271; log
28), the lanes of a transducer run are free (R275), and so are the other members of a collective (R281; log 29). -/
def State.commandLost (s : State) (job q : Nat) (c : Cmd) : State :=
  if (c.op = 0x12 || c.op = 0x13) && c.desc ≠ 0 then s.berthRestore job q (cmdB c.word.toNat % 2 ^ 16) c.berthOld
  else if c.op = 0x1B then
    match s.colls.find? (fun (k : CollCall) => k.job == job && k.qid == q && k.tln == c.tln) with
    | some k => s.callLost k
    | none => s
  else
    match s.txrun? job q c.tln with
    | some r => (s.cancelRun r).dropRun r
    | none => s

end Sys2Proof.Machine
end

