-- ==== Sys2Proof/Machine/MemTile.lean ====
section
/-! DEFINITION. Memory-tile operators `buf`, `scratch`, `window` and `pin` (12_operators.md R309-R313) and address-tile
operators `agen`, `gather` and `scatter` (R314-R315, R336). -/

namespace Sys2Proof.Machine

/-! ### buf (R310) -/

/-- A beat at the input enters while there is room; otherwise, or with none there, the oldest beat leaves. A marker
that leaves freezes the operator (R88), and a config or group beat that comes off a tensor boundary traps (R85). -/
def bufFire (depth : Nat) (v : OpView) : Fire :=
  let q := match v.op.mem with
    | .fifo q => q
    | _ => []
  match v.passHeld [0] with
  | some f => f
  | none =>
  match q, v.head 0 with
  | q, some b =>
    if (b.kind = .config || b.kind = .group) && !v.atBoundary 0 then .trap { cause := 0x05, port := 0 }
    else if q.length < depth && !(v.op.marked.contains 0) then
      .go { take := [0], emit := [], mem := some (.fifo (q ++ [b])), mark := if b.kind = .marker then some 0 else none }
    else
      match q with
      | x :: rest => .go { take := [], emit := v.toAll x, mem := some (.fifo rest), freeze := x.kind == .marker }
      | [] => .stuck 1
  | x :: rest, none => .go { take := [], emit := v.toAll x, mem := some (.fifo rest), freeze := x.kind == .marker }
  | [], none => .stuck 1

def execBuf (_c : OpCfg) (depth : BitVec 13) (s : State) : Host.Outcome State Fault Refusal :=
  execOp (bufFire (depth.toNat + 1)) s

/-! ### scratch (R311) -/

/-- The beat that an area holds at an index: zeros at arming (05_memory.md R126). -/
def areaAt (area : List (Nat × Beat)) (x : Nat) : Beat :=
  match area.find? (fun p => p.1 == x) with
  | some p => p.2
  | none => dataBeat 0

def areaSet (area : List (Nat × Beat)) (x : Nat) (b : Beat) : List (Nat × Beat) := upsert (fun p => p.1 == x) (x, b) area

/-- The read side (log 36): a tensor of `ri` waits for the writes of its number where `wi` is connected. -/
def scratchRead (size : Nat) (area : List (Nat × Beat)) (wt rt : Nat) (v : OpView) : Fire :=
  let may := !v.has 0 || decide (rt < wt)
  match v.front [2] 0x0B with
  | .done f => f
  | .group from_ b => .go { take := from_, emit := v.toAll b }
  | .stop from_ l =>
    if !may then .stuck 3
    else
      let ends := decide (v.inLevel 2 ≤ l)
      .go { take := from_, emit := v.toAll (stopBeat l), mem := some (.scratch area wt (rt + b2n ends)) }
  | .pos bs =>
    match bs with
    | b :: _ =>
      if !may then .stuck 3
      else if b.kind = .cond then .go { take := [2], emit := v.toAll holeBeat }
      else if b.kind = .poison then
        if v.deferred then .go { take := [2], emit := v.toAll b } else gotPoison 2 b
      else
        let x := b.lane 32 0
        if size ≤ x then
          if v.deferred then .go { take := [2], emit := v.toAll (v.poison 0x0D 0 (v.posAt 2)) }
          else .trap { cause := 0x0D, port := 2 }
        else
          let d := areaAt area x
          .go { take := [2], emit := v.toAll (if d.kind = .data then v.outBeat 0 d.data.toNat else d) }
    | [] => .stuck 1

/-- The write side. In deferred mode a faulting or poisoned index writes nothing, and a poison `wd` beat is stored as
any other (R82; log 36). -/
def scratchWrite (size : Nat) (area : List (Nat × Beat)) (wt rt : Nat) (v : OpView) : Fire :=
  let may := !v.has 2 || decide (wt ≤ rt)
  match v.front [0, 1] 0x0B with
  | .done f => f
  | .group from_ b => .go { take := from_, emit := v.toAll b }
  | .stop from_ l =>
    if !may then .stuck 3
    else
      let ends := decide (v.inLevel 0 ≤ l)
      .go { take := from_, emit := [], mem := some (.scratch area (wt + b2n ends) rt) }
  | .pos bs =>
    match bs with
    | i :: d :: _ =>
      let skip : Fire := .go { take := [0, 1], emit := [] }
      if !may then .stuck 3
      else if i.kind = .cond then skip
      else if i.kind = .poison then if v.deferred then skip else gotPoison 0 i
      else if d.kind = .poison && !v.deferred then gotPoison 1 d
      else
        let x := i.lane 32 0
        if size ≤ x then if v.deferred then skip else .trap { cause := 0x0D, port := 0 }
        else .go { take := [0, 1], emit := [], mem := some (.scratch (areaSet area x d) wt rt) }
    | _ => .stuck 1

/-- What can read does so before what can write. -/
def scratchFire (size : Nat) (v : OpView) : Fire :=
  let (area, wt, rt) := match v.op.mem with
    | .scratch a w r => (a, w, r)
    | _ => ([], 0, 0)
  let w := if v.has 0 then scratchWrite size area wt rt v else .stuck 1
  if v.has 2 then
    match scratchRead size area wt rt v with
    | .stuck k => if v.has 0 then w else .stuck k
    | f => f
  else w

def execScratch (_c : OpCfg) (size : BitVec 13) (s : State) : Host.Outcome State Fault Refusal :=
  execOp (scratchFire (size.toNat + 1)) s

/-! ### window (R312) -/

/-- Taps 0 to n − 1; the history holds the tensor's positions, newest first, as far back as the last tap reaches. -/
def windowFire (n d : Nat) (v : OpView) : Fire :=
  let hist := match v.op.mem with
    | .window h => h
    | _ => []
  match v.front [0] 0x0B with
  | .done f => f
  | .group from_ b => .go { take := from_, emit := v.toAll b }
  | .stop from_ l =>
    let hist := if v.inLevel 0 ≤ l then [] else hist
    .go { take := from_, emit := v.toAll (stopBeat l), mem := some (.window hist) }
  | .pos bs =>
    match bs with
    | b :: _ =>
      if b.kind = .poison && !v.deferred then gotPoison 0 b
      else
        let h := b :: hist
        .go { take := [0]
              emit := v.outPorts.map (fun t => (t, (h[t * d]?).getD (v.outBeat t 0)))
              mem := some (.window (h.take ((n - 1) * d))) }
    | [] => .stuck 1

def execWindow (_c : OpCfg) (n : BitVec 2) (d : BitVec 11) (s : State) : Host.Outcome State Fault Refusal :=
  execOp (windowFire (n.toNat + 1) d.toNat) s

/-! ### pin (R313; log 36) -/

/-- Position beats of a stored tensor. -/
def positionsOf (bs : List Beat) : Nat := (bs.filter (fun b => b.kind.takesPosition)).length

/-- The level at which a replay closes: 7 when the trigger's tensor ended the launch, else that of the stored tensor's
closing stop, which is no final stop unless the trigger's was. -/
def pinClose (v : OpView) (stored l : Nat) : Nat :=
  if l = 7 then 7
  else if stored < 7 then stored
  else
    match v.outEdge 0 with
    | some e => e.p.level
    | none => 1

/-- A stored tensor with its closing stop at another level. -/
def withClose (bs : List Beat) (level : Nat) : List Beat := bs.dropLast ++ [stopBeat level]

/-- The next beat of the tensor that is being stored. -/
def pinLoad (size : Nat) (stored loading : List Beat) (v : OpView) : Fire :=
  match v.front [0] 0x0B with
  | .done f => f
  | .group from_ b => .go { take := from_, emit := v.toAll b }
  | .stop from_ l =>
    if v.inLevel 0 ≤ l then .go { take := from_, emit := [], mem := some (.pin (loading ++ [stopBeat l]) [] none 0) }
    else .go { take := from_, emit := [], mem := some (.pin stored (loading ++ [stopBeat l]) none 0) }
  | .pos bs =>
    match bs with
    | b :: _ =>
      if b.kind = .poison && !v.deferred then gotPoison 0 b
      else if size ≤ positionsOf loading then .trap { cause := 0x04, port := 0 }
      else .go { take := [0], emit := [], mem := some (.pin stored (loading ++ [b]) none 0) }
    | [] => .stuck 1

/-- The trigger's beats are discarded; the stop that closes its tensor starts a replay once a tensor is stored. -/
def pinTrig (stored loading : List Beat) (v : OpView) : Fire :=
  match v.front [1] 0x0B with
  | .done f => f
  | .group from_ b => .go { take := from_, emit := v.toAll b }
  | .stop from_ l =>
    if l < v.inLevel 1 then .go { take := from_, emit := [] }
    else if stored.isEmpty || !loading.isEmpty then .stuck 1
    else
      let close := pinClose v ((stored.getLast?.map Beat.level).getD 1) l
      .go { take := from_, emit := [], mem := some (.pin stored [] (some (withClose stored close)) 0) }
  | .pos _ => .go { take := [1], emit := [] }

def pinFire (size : Nat) (v : OpView) : Fire :=
  let (stored, loading, playing) := match v.op.mem with
    | .pin s l p _ => (s, l, p)
    | _ => ([], [], none)
  match playing with
  | some (b :: rest) =>
    .go { take := [], emit := v.toAll b, mem := some (.pin stored loading (if rest.isEmpty then none else some rest) 0) }
  | _ =>
    match pinLoad size stored loading v with
    | .stuck _ => pinTrig stored loading v
    | f => f

def execPin (_c : OpCfg) (size : BitVec 13) (s : State) : Host.Outcome State Fault Refusal :=
  execOp (pinFire (size.toNat + 1)) s

/-! ### agen (R314, R336) -/

/-- The byte offset of the current indices, as 64 bits. -/
def agenOffset (p : AgenParam) (i0 i1 i2 i3 : Nat) : Nat :=
  let t (i : Nat) (s : BitVec 16) : Int := (i : Int) * toSigned s.toNat 16
  ofSigned (64 * (t i0 p.s0 + t i1 p.s1 + t i2 p.s2 + t i3 p.s3)) 64

/-- Loop indices after one position, loop 0 fastest; index 3 passes its count once the tensor is done. -/
def agenNext (p : AgenParam) (i0 i1 i2 i3 : Nat) : Nat × Nat × Nat × Nat :=
  if i0 < p.n0.toNat then (i0 + 1, i1, i2, i3)
  else if i1 < p.n1.toNat then (0, i1 + 1, i2, i3)
  else if i2 < p.n2.toNat then (0, 0, i2 + 1, i3)
  else (0, 0, 0, i3 + 1)

/-- Level of the stop that follows `n` positions of a tensor within it: that of the slowest ragged factor of which a run
ends there, 0 where none does (03_fabric.md R66). -/
def runLevel (o : Order) (n : Nat) : Nat :=
  let bs := o.norm.beats
  (upFrom 0 bs.length).foldl (fun l i =>
    if ((bs[i]?).any (fun f => f.ragged)) && n % prodExt (bs.take (i + 1)) = 0 then i + 1 else l) 0

/-- A position of a source, and the stop of a run that it ends but for the last of the tensor, whose stop follows. -/
def OpView.withRun (v : OpView) (b : Beat) (n : Nat) : List (Nat × Beat) :=
  match v.outEdge 0 with
  | some e =>
    let l := runLevel e.p n
    v.toAll b ++ (if l = 0 || e.p.beatCount ≤ n then [] else v.toAll (stopBeat l))
  | none => v.toAll b

/-- Positions of a tensor of `agen` up to the one at some indices, and that one. -/
def agenCount (p : AgenParam) (i0 i1 i2 i3 : Nat) : Nat :=
  i0 + (p.n0.toNat + 1) * (i1 + (p.n1.toNat + 1) * (i2 + (p.n2.toNat + 1) * i3)) + 1

def agenFire (p : AgenParam) (v : OpView) : Fire :=
  let (i0, i1, i2, i3, t, ended) := match v.op.mem with
    | .agen a b c d t e => (a, b, c, d, t, e)
    | _ => (0, 0, 0, 0, 0, false)
  if ended then .stuck 1
  else if p.n3.toNat < i3 then
    let last := t == p.nt.toNat
    let l := match v.outEdge 0 with
      | some e => e.p.level
      | none => 1
    .go { take := [], emit := v.toAll (stopBeat (if last then 7 else l)), mem := some (.agen 0 0 0 0 (t + 1) last) }
  else
    let (j0, j1, j2, j3) := agenNext p i0 i1 i2 i3
    let b := dataBeat (agenOffset p i0 i1 i2 i3)
    .go { take := [], emit := v.withRun b (agenCount p i0 i1 i2 i3), mem := some (.agen j0 j1 j2 j3 t false) }

def execAgen (_c : OpCfg) (p : AgenParam) (s : State) : Host.Outcome State Fault Refusal := execOp (agenFire p) s

/-! ### gather and scatter (R315) -/

/-- The ROW offsets of one index. -/
def rowOffsets (p : RowParam) (x : Nat) : List Beat :=
  (upFrom 0 p.row.toNat).map (fun r => dataBeat (64 * (p.base.toNat + x * p.row.toNat + r) % 2 ^ 64))

/-- The beats of the input's lanes in order. A lane whose index reaches LIMIT gives poison in its row's place in
deferred mode; the first such lane is answered too. -/
def rowBeats (p : RowParam) (v : OpView) (b : Beat) : List Nat → List Beat × Option Nat
  | [] => ([], none)
  | m :: ms =>
    let (bs, bad) := rowBeats p v b ms
    let x := b.lane 32 m
    if p.limit.toNat ≤ x then
      (List.replicate p.row.toNat (v.poison 0x0D m (v.posAt 0)) ++ bs, some m)
    else (rowOffsets p x ++ bs, bad)

/-- Stops leave at the level that the row and lane factors put under them; a final stop stays one (R66, R67; log 36). -/
def rowFire (p : RowParam) (v : OpView) : Fire :=
  match v.front [0] 0x0B with
  | .done f => f
  | .group from_ b => .go { take := from_, emit := v.toAll b }
  | .stop from_ l =>
    let lo := match v.outEdge 0 with
      | some e => e.p.level
      | none => 1
    .go { take := from_, emit := v.toAll (stopBeat (if l = 7 then 7 else min 6 (l + lo - v.inLevel 0))) }
  | .pos bs =>
    match bs with
    | b :: _ =>
      let n := v.inLanes 0 * p.row.toNat
      let go (l : List Beat) : Fire := .go { take := [0], emit := l.flatMap v.toAll }
      if b.kind = .cond then go (List.replicate n holeBeat)
      else if b.kind = .poison then if v.deferred then go (List.replicate n b) else gotPoison 0 b
      else
        match rowBeats p v b (upFrom 0 (v.inLanes 0)) with
        | (l, none) => go l
        | (l, some m) => if v.deferred then go l else .trap { cause := 0x0D, lane := m, port := 0 }
    | [] => .stuck 1

def execGather (_c : OpCfg) (p : RowParam) (s : State) : Host.Outcome State Fault Refusal := execOp (rowFire p) s

def execScatter (_c : OpCfg) (p : RowParam) (s : State) : Host.Outcome State Fault Refusal := execOp (rowFire p) s

end Sys2Proof.Machine
end

