-- ==== Sys2Proof/Machine/Image.lean ====
section
/-! DEFINITION. Region images: what `snap` and a scan write, what `resume` checks and restores (21_paging.md R399,
R401-R403, 16_prog_rowsum.md R341, 12_operators.md R292). -/

namespace Sys2Proof.Machine

/-! ### Sections (R402) -/

structure ImgSection where
  kind : Nat
  slot : Nat
  payload : List Byte
  deriving DecidableEq, Repr

def zeros (n : Nat) : List Byte := List.replicate n 0

/-- Zeros up to the next multiple of `n`. -/
def padTo (n : Nat) (bs : List Byte) : List Byte := bs ++ zeros (alignUp bs.length n - bs.length)

def ImgSection.bytes (x : ImgSection) : List Byte :=
  toBytes 4 x.payload.length ++ toBytes 1 x.kind ++ toBytes 1 x.slot ++ zeros 10 ++ padTo 16 x.payload

/-- A beat in the buffers of an input, by its edge. -/
structure HeldBeat where
  edge : Nat
  beat : Beat
  deriving DecidableEq, Repr

def HeldBeat.bytes (h : HeldBeat) : List Byte :=
  toBytes 64 h.beat.data.toNat ++ toBytes 2 h.edge ++ toBytes 1 h.beat.kind.code ++ toBytes 1 (b2n h.beat.held) ++ zeros 12

/-- Beats held at the inputs of an operator, by port, oldest first. -/
def Body.heldAt (b : Body) (ix : Nat) : List HeldBeat :=
  (upFrom 0 8).flatMap (fun p =>
    match (b.insOf ix).find? (fun e => e.1 == p) with
    | none => []
    | some (_, k) =>
      match b.edges[k]? with
      | some e => (e.arrived ix).map (fun x => { edge := k, beat := x })
      | none => [])

/-- Beats of an operator's memory that lie in its tile's SRAM, in order (log 38). -/
def Op.sramBeats (o : Op) : List Beat :=
  let n := tileBeats o.word
  let l : List Beat := match o.mem with
    | .fifo q => q
    | .scratch area _ _ => (upFrom 0 n).map (areaAt area)
    | .window h => h
    | .pin st _ _ _ => st
    | _ => []
  (l.filter (fun b => b.kind.takesPosition)).take n

/-- The bytes of an operator's area. -/
def Op.sramBytes (o : Op) : List Byte :=
  (o.sramBeats.flatMap (fun b => toBytes 64 b.data.toNat)) ++ zeros (64 * (tileBeats o.word - o.sramBeats.length))

/-- The operators of a tile with their numbers, by slot. -/
def Body.opsAt (b : Body) (x y : Nat) : List (Nat × Op) :=
  [0, 1, 2, 3].filterMap (fun k =>
    ((upFrom 0 b.ops.length).zip b.ops).find? (fun o => o.2.x == x && o.2.y == y && o.2.slot == k))

def sramSize : Nat := 524288

/-- The SRAM of a memory tile: the areas of its operators in slot order (R126; log 38). -/
def Body.sramOf (b : Body) (x y : Nat) : List Byte :=
  let l := ((b.opsAt x y).flatMap (fun o => o.2.sramBytes)).take sramSize
  l ++ zeros (sramSize - l.length)

/-- A tag of 40 bits in 8 bytes: code in byte 0, descriptor in bytes 4 to 7. -/
def tagBytes (t : Nat) : List Byte := toBytes 4 (t % 256) ++ toBytes 4 (t / 256)

/-- Tags of weight banks 0 and 1 and of the accumulator bank of an `mmp`; an accumulator that holds nothing has the tag
of its mode, whose results leave on out0 (04_numbers.md R110, R116). -/
def Body.tagsOf (b : Body) (ix : Nat) (o : Op) : List Byte :=
  let mode := match (b.outsOf ix).head? with
    | some (_, k) => ((b.edges[k]?).map (·.fmt)).getD 0
    | none => 0
  match o.mem with
  | .mmp m =>
    let n := b.bankBytes o
    tagBytes (m.bankTag n false).toNat ++ tagBytes (m.bankTag n true).toNat ++
      tagBytes (if m.acctag = 0 then mode else m.acctag.toNat)
  | _ => zeros 16 ++ tagBytes mode

/-- Granules of a siding or `delay`. -/
def granulesOf (w : OpWord) : Nat := if opc w = 0x70 then param w 115 12 + 1 else param w 134 10 + 1

def hasGranules (w : OpWord) : Bool := opc w == 0x70 || opc w == 0x78

/-- The opaque bytes of a SIDING section in image `k`. -/
def sidingBytes (k ix : Nat) (w : OpWord) : List Byte :=
  (upFrom 0 (64 + 64 * granulesOf w)).map (Config.imageByte (k * 2 ^ 16 + ix))

/-- The sections of a tile's record in image `k`. -/
def Body.sections (b : Body) (k type x y : Nat) : List ImgSection :=
  let ops := b.opsAt x y
  let own := ops.flatMap (fun (ix, o) =>
    let held := b.heldAt ix
    [{ kind := 1, slot := o.slot, payload := toBytes 8 k },
      { kind := 2, slot := o.slot, payload := toBytes 8 held.length ++ held.flatMap HeldBeat.bytes }] ++
    (if hasGranules o.word then [{ kind := 3, slot := o.slot, payload := sidingBytes k ix o.word }] else []))
  let sram : List ImgSection := if type = 1 then [{ kind := 4, slot := 0, payload := b.sramOf x y }] else []
  let tags : List ImgSection := match ops.find? (fun o => opc o.2.word == 0x10) with
    | some (ix, o) => [{ kind := 5, slot := o.slot, payload := b.tagsOf ix o }]
    | none => []
  own ++ sram ++ tags

/-- A tile record. -/
def Region.record (r : Region) (k x y : Nat) : List Byte :=
  let type := tileType (r.x0 + x) (r.y0 + y)
  let t := r.body.tile x y
  let secs := r.body.sections k type x y
  let words := [0, 1, 2, 3].flatMap (fun sl =>
    toBytes 32 (((r.body.opsAt x y).find? (fun o => o.2.slot == sl)).map (fun o => o.2.word.toNat) |>.getD 0))
  let gen := if type = 0 || type = 3 then t.gen.toNat else 0
  padTo 64 (words ++ toBytes 1 type ++ toBytes 1 t.tflags.toNat ++ toBytes 2 secs.length ++ toBytes 4 gen ++ zeros 56 ++
    secs.flatMap ImgSection.bytes)

/-- Tiles of a region in image order. -/
def Region.grid (r : Region) : List (Nat × Nat) :=
  (upFrom 0 r.h).flatMap (fun y => (upFrom 0 r.w).map (fun x => (x, y)))

/-- Offsets of runs of bytes laid end to end from `o` on, and the end. -/
def offsets : Nat → List (List Byte) → List Nat × Nat
  | o, [] => ([], o)
  | o, l :: ls =>
    let (os, e) := offsets (o + l.length) ls
    (o :: os, e)

/-- The image `k` of a stopped region (R401). -/
def Region.image (r : Region) (k : Nat) : List Byte :=
  let recs := r.grid.map (fun t => r.record k t.1 t.2)
  let start := alignUp (64 + 8 * r.w * r.h) 64
  let (os, len) := offsets start recs
  let head := toBytes 4 0x4D495352 ++ toBytes 2 1 ++ toBytes 1 r.cause ++ toBytes 1 (b2n r.fault.isSome) ++ toBytes 8 len ++
    toBytes 1 r.w ++ toBytes 1 r.h ++ toBytes 1 r.v ++ toBytes 1 r.die ++ toBytes 4 (if r.cause = 4 then r.marker.toNat else 0) ++
    toBytes 8 r.stopTime.toNat ++ toBytes 8 r.imgVa.toNat ++ toBytes 4 r.imgLen ++ toBytes 4 Config.stateVer.toNat ++ zeros 16
  padTo 64 (head ++ os.flatMap (toBytes 8)) ++ recs.flatMap id

/-- The most that an image of the region can take (R402). -/
def Region.imageBound (r : Region) : Nat :=
  r.grid.foldl (fun n t =>
    n + (match tileType (r.x0 + t.1) (r.y0 + t.2) with
      | 0 => 65536
      | 1 => 589824
      | 4 => (r.body.opsAt t.1 t.2).foldl (fun n o =>
          if hasGranules o.2.word then n + 64 * (granulesOf o.2.word + 1) else n) 16384
      | _ => 16384)) (alignUp (64 + 8 * r.w * r.h) 64)

/-- What an image of the region stands for. -/
def snapOf (r : Region) : Snap :=
  { job := r.job, v := r.v, time := r.stopTime, body := r.body, fault := r.fault.map (·.1) }

/-- An image of the region is about to be written: its number. -/
def State.addSnap (s : State) (r : Region) : Nat × State :=
  (s.snaps.length, { s with snaps := s.snaps ++ [snapOf r] })

/-! ### Stopping (R61, R399) -/

/-- A marker that waits has come to its end: its command completes (R266). -/
def State.markerDone (s : State) (r : Region) (result : CmdResult) : State :=
  match r.preempt with
  | none => s
  | some (_, q, tln) =>
    match s.cmd? r.job q tln with
    | some c => s.endCmd r.job q c result
    | none => s

/-- The region is STOPPED with a cause of R401. -/
def State.stopRegion (s : State) (r : Region) (cause : Nat) : State :=
  let s := s.markerDone r .ok
  s.setRegion { r with state := .stopped, cause := cause, stopTime := (s.die r.die).stime, preempt := none, cutOpen := false, grouped := [] }

/-- Locations of `n` bytes at a physical address. -/
def State.paLocs (s : State) (pa n : Nat) : Option (List Nat) :=
  (upFrom pa n).mapM (fun a => match s.resolvePa a with
    | .ok (l, _) => some l
    | .error _ => none)

/-- Offset in the pager control block, as a physical address (R390). -/
def State.pcbPa (s : State) (off : Nat) : Nat := paOf 1 (s.depot.die.getD 0) off

/-- Scan-buffer entry of a region: address and length (R390). -/
def State.scanBuffer (s : State) (r : Region) : Option (Nat × Nat) :=
  let e := (s.readPa (s.pcbPa (0x60000 + 0x400 * r.job + 16 * r.v)) 16).getD 0
  if e = 0 then none else some (bf e 6 42 * 64, bf e 64 32)

/-- A region that a translation fault stopped is scanned to its buffer where that is large enough, and is then SAVED
(R399). A buffer in a closed bank of a weight store keeps the scan waiting (05_memory.md R128), and a busy weight store takes no
image (R129). An error in a tile's SRAM leaves the region in its tiles (23_fleet.md R431; log 97). -/
def State.scan (s : State) (r : Region) : State :=
  match s.scanBuffer r with
  | none => s
  | some (pa, len) =>
    if len < r.imageBound then s
    else
      let (k, s') := s.addSnap r
      let bs := r.image k
      match s'.paLocs pa bs.length with
      | none => s
      | some ls =>
        if ls.any s.wsClosed then s.miss { job := r.job, va := pa, fault := none }
        else if s.wsHit ls then s
        else (s'.hwStore r.job (cells ls bs)).setRegion { r with state := .saved, saved := some (BitVec.ofNat 64 pa, bs.length, true) }

/-! ### Going on (R292, R399) -/

/-- Beats that a resume drops: copies of the trap poison, and markers whose cut has been made (log 38). -/
def Beat.stays (b : Beat) : Bool := !b.held && b.kind != .marker

def OpMem.resumed (m : OpMem) : OpMem :=
  match m with
  | .fifo q => .fifo (q.filter Beat.stays)
  | .siding ts n => .siding (ts.map (fun t => { t with before := t.before.filter Beat.stays })) n
  | m => m

/-- The region runs on from what its tiles hold. -/
def State.runOn (s : State) (r : Region) (fault : Option Nat) : State :=
  let b := r.body
  let ops := b.ops.map (fun o => { o with
    mem := o.mem.resumed, outbox := o.outbox.filter (fun x => x.2.stays), marked := [], frozen := false })
  let edges := b.edges.map (fun e => { e with link := e.link.filter Beat.stays, out := e.out.filter Beat.stays })
  let s := s.setRegion { r with
    body := { b with ops := ops, edges := edges }
    state := .running, trap := none, cause := 0, fault := none, stalls := [], preempt := none, cutOpen := false, grouped := []
    saved := none, moved := (s.die r.die).stime }
  match fault with
  | some ix => { s with agenda := .at (.operator r.job r.v ix) :: s.agenda }
  | none => s

/-- `resume` in place: a faulting access comes first. -/
def State.resumeInPlace (s : State) (r : Region) : State := s.runOn r (r.fault.map (·.1))

/-! ### The checks of `resume` (R403) -/

/-- Sections of a record, from byte `o` on; none where one is ill-formed. -/
def parseSections (bs : List Byte) : Nat → Nat → Option (List ImgSection)
  | 0, _ => some []
  | n + 1, o =>
    let len := imgNat bs o 4
    if bs.length < o + 16 + len || imgNat bs (o + 6) 10 ≠ 0 then none
    else
      (parseSections bs n (o + 16 + alignUp len 16)).map (fun l =>
        { kind := imgNat bs (o + 4) 1, slot := imgNat bs (o + 5) 1, payload := (bs.drop (o + 16)).take len } :: l)

/-- Offset of the record of a tile. -/
def recordAt (bs : List Byte) (w x y : Nat) : Nat := imgNat bs (64 + 8 * (y * w + x)) 8

/-- Step 1. -/
def imageKnown (bs : List Byte) : Bool :=
  imgNat bs 0 4 == 0x4D495352 && imgNat bs 4 2 == 1 && imgNat bs 44 4 == Config.stateVer.toNat && imgNat bs 8 8 == bs.length

/-- Step 2. -/
def imageFits (r : Region) (bs : List Byte) : Bool :=
  imgNat bs 16 1 == r.w && imgNat bs 17 1 == r.h && imgNat bs 19 1 == r.die &&
    r.grid.all (fun t =>
      let o := recordAt bs r.w t.1 t.2
      o % 64 == 0 && decide (o + 192 ≤ bs.length) && imgNat bs (o + 128) 1 == tileType (r.x0 + t.1) (r.y0 + t.2))

/-- Bits of a word that an image may not change: opcode, edge numbers, reserved bits (R292). -/
def imageMask (op : Nat) : Nat :=
  (2 ^ 8 - 1) * 2 ^ 248 + (2 ^ 99 - 1) * 2 ^ 144 + (if op = 0x73 || op = 0x74 || op = 0x75 then (2 ^ 48 - 1) * 2 ^ 96 else 0)

/-- Word of a slot in an image. -/
def imageWord (r : Region) (bs : List Byte) (x y slot : Nat) : OpWord :=
  BitVec.ofNat 256 (imgNat bs (recordAt bs r.w x y + 32 * slot) 32)

/-- RND, OVF and PARAM of a word fit the formats of the region's edges. -/
def Body.wordFits (b : Body) (w : OpWord) : Bool :=
  match b.edges[wordIn w 0]?, b.edges[wordOut w 0]? with
  | some x, some y => paramFits w x.fmt y.fmt
  | _, _ => true

/-- Step 3. -/
def imageWordsOk (r : Region) (bs : List Byte) : Bool :=
  let entries := r.body.ops.filterMap (fun o =>
    if opc o.armed = 0x70 then none
    else some ({ word := imageWord r bs o.x o.y o.slot, x := o.x, y := o.y, slot := o.slot, res := 0 } : OpEntry))
  r.grid.all (fun t =>
    [0, 1, 2, 3].all (fun sl =>
      let w := imageWord r bs t.1 t.2 sl
      match (r.body.opsAt t.1 t.2).find? (fun o => o.2.slot == sl) with
      | none => w == 0
      | some (_, o) =>
        w == o.armed ||
          (decide (w.toNat &&& imageMask (opc o.armed) = o.armed.toNat &&& imageMask (opc o.armed)) &&
            (opCheck r.body.wordFits r [] 0 { word := w, x := t.1, y := t.2, slot := sl, res := 0 }).isNone))) &&
    (firstFail (tileCheck entries) (r.grid.map (fun t => (t.2, t.1)))).isNone

/-- All sections of an image, by tile. -/
def imageSections (r : Region) (bs : List Byte) : Option (List ((Nat × Nat) × List ImgSection)) :=
  r.grid.mapM (fun t =>
    let o := recordAt bs r.w t.1 t.2
    (parseSections bs (imgNat bs (o + 130) 2) (o + 192)).map (fun l => (t, l)))

/-- The section of a kind and slot of a tile. -/
def sectionOf (secs : List ((Nat × Nat) × List ImgSection)) (x y kind slot : Nat) : Option ImgSection :=
  match secs.find? (fun t => t.1 == (x, y)) with
  | some t => t.2.find? (fun c => c.kind == kind && c.slot == slot)
  | none => none

def beatKindOf (n : Nat) : BeatKind :=
  match n with
  | 0 => .data | 1 => .stop | 2 => .config | 3 => .marker | 4 => .poison | 5 => .cond | _ => .group

/-- Entries of a BEATS payload; none where one is ill-formed. -/
def parseBeats (p : List Byte) : Option (List HeldBeat) :=
  let n := imgNat p 0 8
  if p.length ≠ 8 + 80 * n then none
  else
    (upFrom 0 n).mapM (fun i =>
      let o := 8 + 80 * i
      let k := imgNat p (o + 66) 1
      if 6 < k || 1 < imgNat p (o + 67) 1 || imgNat p (o + 68) 12 ≠ 0 then none
      else some { edge := imgNat p (o + 64) 2,
                  beat := { kind := beatKindOf k, data := BitVec.ofNat 512 (imgNat p o 64), held := imgNat p (o + 67) 1 == 1 } })

/-- The entries are those that the stop wrote, with some HELD ones missing and any payloads. -/
def sameBeats : List HeldBeat → List HeldBeat → Bool
  | [], [] => true
  | [], e :: es => e.beat.held && sameBeats [] es
  | _ :: _, [] => false
  | g :: gs, e :: es =>
    if g.edge == e.edge && g.beat.kind == e.beat.kind && g.beat.held == e.beat.held then sameBeats gs es
    else e.beat.held && sameBeats (g :: gs) es

/-- The number that most STATE sections of an image hold. -/
def imageNumber (r : Region) (secs : List ((Nat × Nat) × List ImgSection)) : Option Nat :=
  let ns := r.body.ops.filterMap (fun o => (sectionOf secs o.x o.y 1 o.slot).map (fun c => ofBytes c.payload))
  ns.foldl (fun best n =>
    match best with
    | none => some n
    | some m => if ns.count m < ns.count n then some n else some m) none

/-- What the image stands for, of the images written of a region with this configuration: the one whose number its STATE
sections hold, else the newest of this region at the stop whose time the header names, else the newest of this region, else
what the region holds (log 38). -/
def State.snapFor (s : State) (r : Region) (bs : List Byte) (secs : List ((Nat × Nat) × List ImgSection)) : Nat × Snap :=
  let all := ((upFrom 0 s.snaps.length).zip s.snaps).reverse.filter (fun x =>
    x.2.body.ops.map (fun o => (o.armed, o.x, o.y, o.slot)) == r.body.ops.map (fun o => (o.armed, o.x, o.y, o.slot)) &&
    x.2.body.edges.length == r.body.edges.length)
  let own := all.filter (fun x => x.2.job == r.job && x.2.v == r.v)
  let time := BitVec.ofNat 64 (imgNat bs 24 8)
  ((all.find? (fun x => some x.1 == imageNumber r secs)) <|> (own.find? (fun x => x.2.time == time)) <|> own.head?).getD
    (s.snaps.length, snapOf r)

/-- Step 4, against what the stop wrote. -/
def imageAgrees (r : Region) (old : Body) (secs : List ((Nat × Nat) × List ImgSection)) : Bool :=
  secs.all (fun t =>
    let want := old.sections 0 (tileType (r.x0 + t.1.1) (r.y0 + t.1.2)) t.1.1 t.1.2
    t.2.length == want.length && want.all (fun c =>
      match t.2.filter (fun d => d.kind == c.kind && d.slot == c.slot) with
      | [d] =>
        if c.kind = 2 then
          (match parseBeats d.payload, parseBeats c.payload with
            | some g, some e => sameBeats g e && g.all (fun x => !x.beat.held || x.beat.kind == .poison)
            | _, _ => false)
        else d.payload.length == c.payload.length
      | _ => false))

/-! ### Restoring (R403) -/

/-- Beats with the payloads that an area holds, counting those that lie in it. -/
def reload (get : Nat → Option (BitVec 512)) : Nat → List Beat → List Beat
  | _, [] => []
  | i, b :: bs =>
    if b.kind.takesPosition then { b with data := (get i).getD b.data } :: reload get (i + 1) bs
    else b :: reload get i bs

/-- An operator's memory with the payloads of its SRAM area. -/
def OpMem.withSram (m : OpMem) (n : Nat) (get : Nat → Option (BitVec 512)) : OpMem :=
  match m with
  | .fifo q => .fifo (reload get 0 q)
  | .window h => .window (reload get 0 h)
  | .pin st l p o => .pin (reload get 0 st) l p o
  | .scratch area wt rt =>
    .scratch ((upFrom 0 n).foldl (fun a i =>
      match get i with
      | some d => if (areaAt a i).data = d then a else areaSet a i { areaAt a i with data := d }
      | none => a) area) wt rt
  | m => m

/-- AFMT in force for an accumulation: its own, or the format of its output (R303). -/
def accFmt (b : Body) (ix : Nat) (w : OpWord) : Nat :=
  if param w 136 8 ≠ 0 then param w 136 8
  else
    match (b.outsOf ix).head? with
    | some (_, k) => ((b.edges[k]?).map (·.fmt)).getD 0
    | none => 0

/-- Held accumulator values under a new AFMT: round(v, AFMT, RNE) (R292). -/
def OpMem.toAfmt (m : OpMem) (old new : Nat) : OpMem :=
  match m with
  | .acc _ vs =>
    if old = new then m
    else accOf new (vs.map (fun v => match v with
      | .val x => (match floatOf old, floatOf new with
        | some f, some g => .val (roundF g 0 0 .ieee (decodeF f x)).1
        | _, _ => .val x)
      | v => v))
  | m => m

/-- Where an operator's area begins in its tile's SRAM. -/
def Body.sramBase (b : Body) (o : Op) : Nat :=
  ((b.opsAt o.x o.y).filter (fun p => p.2.slot < o.slot)).foldl (fun n p => n + 64 * tileBeats p.2.word) 0

/-- One operator as the image gives it. `genuine` says that its opaque sections are those that the stop wrote; the
state of one that they are not is undefined (log 10). -/
def restoreOp (r : Region) (bs : List Byte) (secs : List ((Nat × Nat) × List ImgSection)) (k : Nat) (old : Body) (fresh ix : Nat)
    (o : Op) : Op :=
  let w := imageWord r bs o.x o.y o.slot
  let now := (old.ops[ix]?).getD o
  let is (kind : Nat) (p : List Byte) : Bool := match sectionOf secs o.x o.y kind o.slot with
    | some c => c.payload == p
    | none => false
  let genuine := is 1 (toBytes 8 k) && (!hasGranules now.word || is 3 (sidingBytes k ix now.word)) &&
    (opc now.word ≠ 0x10 || is 5 (old.tagsOf ix now))
  let sram := match sectionOf secs o.x o.y 4 0 with
    | some c => c.payload
    | none => []
  let base := old.sramBase now
  let n := tileBeats now.word
  let get (i : Nat) : Option (BitVec 512) :=
    if i < n then some (BitVec.ofNat 512 (imgNat sram (base + 64 * i) 64)) else none
  let mem := if genuine then now.mem.withSram n get else alteredMem (fresh + ix)
  { now with
    word := w, deferred := o.forced || bit w.toNat 247
    mem := mem.toAfmt (accFmt old ix now.word) (accFmt old ix w)
    outbox := if genuine then now.outbox else [] }

/-- The beats of an edge that the image holds at an operator. -/
def restoredBeats (secs : List ((Nat × Nat) × List ImgSection)) (o : Op) (e : Nat) : List Beat :=
  match sectionOf secs o.x o.y 2 o.slot with
  | some c => (((parseBeats c.payload).getD []).filter (fun h => h.edge == e)).map (·.beat)
  | none => []

def restoreEdge (r : Region) (secs : List ((Nat × Nat) × List ImgSection)) (e : Nat × Edge) : Edge :=
  let at_ (ix : Nat) : List Beat := match r.body.ops[ix]? with
    | some o => restoredBeats secs o e.1
    | none => []
  match e.2.siding with
  | some sx => { e.2 with link := at_ sx, out := at_ e.2.dop }
  | none => { e.2 with link := at_ e.2.dop, out := [] }

/-- The region's state is replaced by an image that passes the checks of R403; none where one fails. A generator that the
image holds as 0 is restored so (log 94). -/
def State.resumeImage (s : State) (r : Region) (bs : List Byte) : Option State :=
  if !imageKnown bs || !imageFits r bs || !imageWordsOk r bs then none
  else
    match imageSections r bs with
    | none => none
    | some secs =>
      let (k, snap) := s.snapFor r bs secs
      if !imageAgrees r snap.body secs then none
      else
        let ixs := upFrom 0 r.body.ops.length
        let ops := (ixs.zip r.body.ops).map (fun p => restoreOp r bs secs k snap.body s.freeCtr p.1 p.2)
        let edges := ((upFrom 0 r.body.edges.length).zip r.body.edges).map (restoreEdge r secs)
        let tiles := r.body.tiles.map (fun t =>
          let o := recordAt bs r.w t.x t.y
          { t with tflags := BitVec.ofNat 8 (imgNat bs (o + 129) 1 % 128), gen := BitVec.ofNat 32 (imgNat bs (o + 132) 4) })
        let s := { s with freeCtr := s.freeCtr + r.body.ops.length }
        let r := { r with body := { r.body with ops := ops, edges := edges, tiles := tiles } }
        some ((s.sramWritten r).runOn r (if bit (imgNat bs 7 1) 0 then snap.fault else none))

/-- A fault of the region is pending at the pager. -/
def State.regionFaulted (s : State) (r : Region) : Bool :=
  [0, 1, 2, 3].any (fun d => (s.die d).faults.any (fun f => f.job == r.job && f.src == .region r.v))

/-- A SAVED region whose fault has been answered resumes from its image, in its scan buffer or where `snap` wrote it, once no
region overlaps it (R399); until then, while the image cannot be reached, and while a page of the image is at the pager, it stays
due. -/
def State.resumeScan (s : State) (r : Region) : State :=
  match r.saved with
  | none => s
  | some (a, len, physical) =>
    let due : State := s.setRegion { r with resumeDue := true }
    if s.overlapped r then due
    else
      let locs : Except (TFault × Nat) (List Nat) :=
        if physical then (match s.paLocs a.toNat len with
          | some ls => if ls.any s.wsClosed then .error (.moving, a.toNat) else .ok ls
          | none => .error (.dieLost, a.toNat))
        else (match s.access r.die r.job (s.jobRanges r.job) .read a.toNat len with
          | .ok ts => .ok (ts.map (·.loc))
          | .error f => .error f)
      match locs with
      | .error (.moving, _) => due
      | .error (.page level cause, va) =>
        if s.regionFaulted r then due else (due.pageFault r.die r.job (.region r.v) va 0 .read level cause).2
      | .error _ => s.setRegion { r with resumeDue := false }
      | .ok ls => (s.resumeImage { r with resumeDue := false } (s.homeBytes ls)).getD (s.setRegion { r with resumeDue := false })

/-- Tiles have been released: regions that are due to resume try to (R399). -/
def State.wakeSaved (s : State) : State :=
  (s.regions.filter (·.resumeDue)).foldl (fun s r => match s.region? r.job r.v with
    | some r => if r.resumeDue then s.resumeScan r else s
    | none => s) s

end Sys2Proof.Machine
end

