-- ==== Sys2Proof/Machine/PortTile.lean ====
section
/-! DEFINITION. The operators that reach memory: `mload`, `mstore`, `matom`, `mvers` (12_operators.md R316-R321,
11_stream_commands.md R263, 21_paging.md R399) and `wsport` (R333). -/

namespace Sys2Proof.Machine

/-! ### What a turn comes to -/

/-- A try at firing that may touch memory. -/
inductive PortTurn
  /-- nothing outside the region -/
  | fire (f : Fire)
  /-- the state and the region after what was done outside, and the firing -/
  | act (s : State) (r : Region) (f : Firing)
  /-- an access waits for its home or its budget -/
  | wait (s : State)
  /-- the operator does not fire, and the state has changed: a page fault, a command that failed -/
  | stop (s : State)

/-- The turn carried out. -/
def State.portDone (s : State) (r : Region) (v : OpView) (t : PortTurn) : State :=
  match t with
  | .fire f => s.fireWith r v f
  | .act s r f => s.setRegion { r.fired v f with moved := (s.die r.die).stime }
  | .wait s => s
  | .stop s => s

/-- Every connected output has space for a beat. -/
def OpView.roomy (v : OpView) : Bool := v.outPorts.all (v.reg.body.space v.ix)

/-- The meaning of an operator that reaches memory. -/
def execPort (f : State → Region → OpView → PortTurn) (s : State) : Host.Outcome State Fault Refusal :=
  match s.curOp with
  | none => .refused .noOperator
  | some (r, v) =>
    .next (if r.state ≠ .running || r.reloading || v.op.frozen || v.op.outbox ≠ [] then s.fireWith r v (.stuck 0)
      else if s.regionSpent r then s.gateHeld r.die
      else s.portDone r v (f s r v))

/-! ### Commands at a port (R263) -/

def OpView.xport (v : OpView) : Nat := param v.op.word 138 6

/-- The agent number of a port-tile operator (06_ordering.md R144). -/
def OpView.portNum (v : OpView) : Nat :=
  portOpNum v.reg.die v.reg.v (v.reg.x0 + v.op.x) (v.reg.y0 + v.op.y) v.op.slot

def OpView.portAgent (v : OpView) : Agent := regionAgent v.reg v.portNum

/-- The data command of the tensor that a port is in: the oldest that it holds. It knows what earlier ones of the port
knew. -/
def State.portCmd (s : State) (r : Region) (v : OpView) : Option (Nat × Cmd) :=
  match r.body.ports[v.xport]? with
  | none => none
  | some p =>
    match p.cmds with
    | [] => none
    | (q, tln) :: _ =>
      match s.cmd? r.job q tln with
      | some c => if c.phase = .atPort then some (q, { c with view := unionNat c.view (s.viewOf r.job v.portNum).1 }) else none
      | none => none

/-- A port that has none waits. -/
def State.withPortCmd (s : State) (r : Region) (v : OpView) (k : Nat → Cmd → PortTurn) : PortTurn :=
  match s.portCmd r v with
  | none => .fire (.stuck 3)
  | some (q, c) => k q c

/-- The tensor has ended at the port, which takes its next command. -/
def State.portNext (s : State) (r : Region) (v : OpView) (q : Nat) (c : Cmd) (f : Firing) : PortTurn :=
  let ports := match r.body.ports[v.xport]? with
    | some p => r.body.ports.set v.xport { p with cmds := p.cmds.drop 1 }
    | none => r.body.ports
  let s := (s.setCmd r.job q c).setView r.job v.portNum c.view []
  .act s { r with body := { r.body with ports := ports } } f

/-! ### Accesses of a port (R317, R399) -/

/-- BOUND or ACCESS at an operator, with the address. -/
def portTrap (cause port subc addr lane : Nat) : Trap :=
  { cause := cause, lane := lane, port := port, subc := subc, addr := addr }

/-- A translation that faults stops the region, which is then scanned where it can be (R397, R399). -/
def State.portPage (s : State) (r : Region) (v : OpView) (kind : AccKind) (va level cause : Nat) : State :=
  let (t, s) := s.pageFault r.die r.job (.region r.v) va 0 kind level cause
  let s := s.stopRegion { r with fault := some (v.ix, t) } 3
  match s.region? r.job r.v with
  | some r => (s.scan r).wakeSaved
  | none => s

/-- An access of `n` bytes by a port operator. `trap` makes the trap of a refusal, from subcause and address. -/
def State.portAccess (s : State) (r : Region) (v : OpView) (kind : AccKind) (va n : Nat) (trap : Nat → Nat → Trap)
    (k : List Trans → PortTurn) : PortTurn :=
  match s.access r.die r.job r.ranges kind va n with
  | .ok ts => k ts
  | .error (f, a) =>
    match f with
    | .prot sub => .fire (.trap (trap sub a))
    | .dieLost => .fire (.trap (trap 0 a))
    | .data home pa => .stop ((s.eccHit home pa).setRegion (r.trapped v (trap 20 a)))
    | .page level cause => .stop (s.portPage r v kind a level cause)
    | .moving =>
      if r.stalls.any (fun x => x.1 == v.ix) || (s.bankShut r.die r.job r.ranges kind a).isSome then .wait s
      else .wait (s.setRegion { r with stalls := (v.ix, a, (s.die r.die).stime) :: r.stalls })

/-- An access of this operator waits no more. -/
def Region.unstall (r : Region) (v : OpView) : Region := { r with stalls := r.stalls.filter (fun x => x.1 != v.ix) }

/-- A request passes the gate of the region (23_fleet.md R425), or waits. -/
def State.portGate (s : State) (r : Region) (v : OpView) (ts : List Trans) (k : State → PortTurn) : PortTurn :=
  match s.portCmd r v with
  | none => k s
  | some (q, c) =>
    match s.passGate r.die 0 r.unit r.job q c ts with
    | .inl s => .wait s
    | .inr s => k s

/-- A + offset, where the offset is one that the command allows (R317). DEDUCED: an offset with a bit of 63:56 set is beyond
every bound, so it raises BOUND, as R314 says of a negative one; 04_numbers.md R89 calls it a PROTECT fault of the port, and
no rule says which of the two is raised (log 58). -/
def portAddr (c : Cmd) (off : Beat) : Except Trap Nat :=
  let o := off.data.toNat % 2 ^ 64
  let a := cmdA c.word.toNat
  if o % 64 ≠ 0 || cmdB c.word.toNat ≤ o then .error (portTrap 0x0A 0 0 ((a + o) % 2 ^ 64) 0) else .ok (a + o)

/-- A write of a port operator reaches its home, is counted at the leaves it went through, and is one of those that its
command's timeline number releases (R319, 21_paging.md R394). -/
def State.portWrite (s : State) (r : Region) (v : OpView) (q : Nat) (c : Cmd) (ts : List Trans) (bs : List Byte) : Cmd × State :=
  let s := s.bumpWver r.job (ts.filterMap (·.leaf))
  let (i, s) := s.storeNow v.portAgent (cells (ts.map (·.loc)) bs) c.view true
  let x := s.queue r.job q
  ({ c with view := insertNat i c.view }, s.setQueue { x with writes := (c.tln, i) :: x.writes })

/-! ### mload (R318, R334) -/

/-- A started `config` with records for a port. -/
def State.portConfig (s : State) (r : Region) (x : Nat) : Option (Nat × Cmd) :=
  firstPort (s.queues.filter (fun q => q.job == r.job) |>.map (·.qid)) (fun q =>
    ((s.queue r.job q).started.find? (fun c => c.op == 0x0A && c.region == r.v && c.port == x && c.phase == .atPort)).map
      (fun c => (q, c)))

/-- The next record of a `config` enters the port's stream (R266): it leaves on `out`, or is applied where it names the
port operator itself. -/
def State.inject (s : State) (r : Region) (v : OpView) (q : Nat) (c : Cmd) : PortTurn :=
  let bs := (c.buf.drop (64 * c.progress)).take 64
  let beat : Beat := { kind := .config, data := BitVec.ofNat 512 (ofBytes bs), held := false }
  let c := { c with progress := c.progress + 1 }
  let s := s.setCmd r.job q (if c.buf.length ≤ 64 * c.progress then { c with phase := .ended .ok } else c)
  if r.body.targetOf beat = some v.ix then
    let w := BitVec.ofNat 256 (bf beat.data.toNat 0 256)
    if configFits v.op.armed w then .act s r { take := [], emit := [], word := some w }
    else .stop (s.setRegion (r.trapped v { cause := 0x06 }))
  else if !v.roomy then .fire (.stuck 2)
  else .act s r { take := [], emit := v.toAll beat }

def markerBeat (n : BitVec 32) : Beat := { kind := .marker, data := n.setWidth 512, held := false }

/-- Level of the stops that end a tensor on output 0. -/
def OpView.portLevel (v : OpView) : Nat :=
  match v.outEdge 0 with
  | some e => e.p.level
  | none => 1

/-- The 64 bytes at an offset, read by a port operator; `gran` is the granule of the last request, plus 1. A position in
a new granule makes a request for its 256 bytes (R334). -/
def State.mloadRead (s : State) (r : Region) (v : OpView) (c : Cmd) (gran : Nat) (off : Beat) : PortTurn :=
  match portAddr c off with
  | .error t => .fire (.trap t)
  | .ok va =>
    s.portAccess r v .read va 64 (fun sub a => portTrap 0x0C 0 sub a 0) (fun ts =>
      let g := va / 256 + 1
      s.portGate r v (if g = gran then [] else (ts.take 1).flatMap (List.replicate 256)) (fun s =>
        let bs := s.engineBytes r.job c.view va ts
        .act s (r.unstall v) { take := [0], emit := v.toAll (v.outBeat 0 (ofBytes bs)), mem := some (.port g true) }))

/-- The next beat of the address stream. Group beats are only passed on: the manual says of no operator, port or command
that it begins one, and in the model none does (log 35). The stop that ends a tensor is a final one where the command
says so, else the higher of level L and that of `off`, whose final stop does not count (R263, R318, R66; log 81). -/
def mloadNext (s : State) (r : Region) (v : OpView) (gran : Nat) : PortTurn :=
  match v.front [0] 0x0B with
  | .done f => .fire f
  | .group from_ b => .fire (.go { take := from_, emit := v.toAll b })
  | .stop from_ l =>
    if l < v.inLevel 0 then .fire (.go { take := from_, emit := v.toAll (stopBeat l), mem := some (.port gran true) })
    else
      s.withPortCmd r v (fun q c =>
        if !v.roomy then .fire (.stuck 2)
        else
          let out := if bit (cmdX c.word.toNat) 0 then 7 else if l = 7 then v.portLevel else max l v.portLevel
          s.portNext r v q c { take := from_, emit := v.toAll (stopBeat out), mem := some (.port gran false) })
  | .pos bs =>
    s.withPortCmd r v (fun _ c =>
      match bs with
      | b :: _ =>
        if b.kind = .cond then .fire (.go { take := [0], emit := v.toAll holeBeat, mem := some (.port gran true) })
        else if b.kind = .poison then .fire (gotPoison 0 b)
        else if !v.roomy then .fire (.stuck 2)
        else s.mloadRead r v c gran b
      | [] => .fire (.stuck 1))

/-- `mload`: at a tensor boundary, `config` records and a marker that waits enter first (R85, R266, R57). -/
def mloadTurn (s : State) (r : Region) (v : OpView) : PortTurn :=
  let (gran, busy) := match v.op.mem with
    | .port g o => (g, o)
    | _ => (0, false)
  match v.passHeld [0] with
  | some f => .fire f
  | none =>
    if busy then mloadNext s r v gran
    else
      match s.portConfig r v.xport with
      | some (q, c) => s.inject r v q c
      | none =>
        if r.preempt.isSome && r.cutOpen && v.noMarker 0 then
          .fire (.go { take := [], emit := v.toAll (markerBeat r.marker), freeze := true })
        else mloadNext s r v gran

def execMload (_c : OpCfg) (_p : PortParam) (s : State) : Host.Outcome State Fault Refusal := execPort mloadTurn s

/-! ### mstore (R319) -/

/-- Bytes of a beat that an edge uses. -/
def Edge.usedBytes (e : Edge) : Nat := (e.usedBits e.q.laneCount + 7) / 8

/-- The event of a store that a busy weight store refuses (10_scalar_memory.md R237; log 39). -/
def wsBusyEvent (v : Nat) (va : Nat) : EventRec := { code := 0x15, srck := 4, index := v, addr := va }

def State.wsRefuses (s : State) (ts : List Trans) : Bool := s.wsHit (ts.map (·.loc))

/-- What two aligned inputs of a sink with an address come to; `old` goes out with each position. -/
def sinkTurn (s : State) (r : Region) (v : OpView) (n : Nat) (act : Nat → Cmd → Beat → Beat → PortTurn) : PortTurn :=
  match v.front [0, 1] 0x0B with
  | .done f => .fire f
  | .group from_ b => .fire (.go { take := from_, emit := v.toAll b })
  | .stop from_ l =>
    if l < v.inLevel 1 then .fire (.go { take := from_, emit := v.toAll (stopBeat l) })
    else
      s.withPortCmd r v (fun q c =>
        if !v.roomy then .fire (.stuck 2)
        else s.portNext r v q c { take := from_, emit := v.toAll (stopBeat l), mem := some (.port n false) })
  | .pos bs =>
    s.withPortCmd r v (fun q c =>
      match bs with
      | [o, d] =>
        if v.isHole 0 o || v.isHole 1 d then
          .fire (.go { take := [0, 1], emit := v.toAll holeBeat, mem := some (.port n true) })
        else if o.kind = .poison then .fire (gotPoison 0 o)
        else if d.kind = .poison then .fire (gotPoison 1 d)
        else if !v.roomy then .fire (.stuck 2)
        else act q c o d
      | _ => .fire (.stuck 1))

def mstoreTurn (s : State) (r : Region) (v : OpView) : PortTurn :=
  let used := match v.inEdge 1 with
    | some e => e.usedBytes
    | none => 64
  sinkTurn s r v 0 (fun q c o d =>
    match portAddr c o with
    | .error t => .fire (.trap t)
    | .ok va =>
      s.portAccess r v .write va used (fun sub a => portTrap 0x0C 0 sub a 0) (fun ts =>
        let f : Firing := { take := [0, 1], emit := [], mem := some (.port 0 true) }
        if spanVers ts then .fire (.trap (portTrap 0x0C 0 5 va 0))
        else if s.wsRefuses ts then .act (s.postEvent r.job r.die (wsBusyEvent r.v va)) (r.unstall v) f
        else
          s.portGate r v ts (fun s =>
            let (c, s) := s.portWrite r v q c ts (toBytes used d.data.toNat)
            .act (s.setCmd r.job q c) (r.unstall v) f)))

def execMstore (_c : OpCfg) (_p : PortParam) (s : State) : Host.Outcome State Fault Refusal := execPort mstoreTurn s

/-! ### matom (R320, R335) -/

def aopOf (n : Nat) : AmoOp :=
  match n with
  | 0 => .add | 1 => .and | 2 => .or | 3 => .xor | 4 => .min | 5 => .max | 6 => .minu | 7 => .maxu | _ => .swap

/-- Translations of the lanes' words, all before the first is applied: the lane in which one fails. -/
def State.lanesAccess (s : State) (r : Region) (va : Nat) (red : Bool) : List Nat → Except (Nat × TFault × Nat) (List (List Trans))
  | [] => .ok []
  | m :: ms =>
    match s.access r.die r.job r.ranges .atomic (va + 4 * m) 4 with
    | .error (f, a) => .error (m, f, a)
    | .ok ts =>
      if spanVers ts != red then .error (m, .prot 5, va + 4 * m)
      else
        match s.lanesAccess r va red ms with
        | .error e => .error e
        | .ok l => .ok (ts :: l)

/-- The atomics of a position, lane by lane in ascending order from lane `m` on, whose word lies at `va` + 4m; the old
values. One addressed to a reduction window goes to the external switch, and what it returns is a free value
(05_memory.md R142; log 10); one that a busy weight store refuses reads alone (log 89). -/
def State.atomLanes (s : State) (r : Region) (v : OpView) (op : AmoOp) (va : Nat) :
    Nat → Cmd → List (List Trans × Nat) → List Nat × Cmd × State
  | _, c, [] => ([], c, s)
  | m, c, (ts, x) :: rest =>
    if (s.windowOf r.job (va + 4 * m)).isSome then
      let (k, s) := s.fresh
      let (l, c, s) := s.atomLanes r v op va (m + 1) c rest
      ((Config.windowOld k).toNat % 2 ^ 32 :: l, c, s)
    else
      let ls := ts.map (·.loc)
      let (old, view, t) := s.atomicAt v.portAgent c.view [] ls op x 0 .relaxed 1
      let t := if s.wsHit ls then t.postEvent r.job r.die (wsBusyEvent r.v (va + 4 * m)) else t.bumpWver r.job (ts.filterMap (·.leaf))
      let (l, c, s) := t.atomLanes r v op va (m + 1) { c with view := view } rest
      (old :: l, c, s)

/-- The contributions of a position, from lane `m` on; their targets are those of the region's range table (05_memory.md
R119). One addressed to a reduction window goes to the external switch (R142). -/
def State.contributeLanes (s : State) (r : Region) (v : OpView) (va ix : Nat) : Nat → List (List Trans × Nat) → State
  | _, [] => s
  | m, (ts, x) :: rest =>
    let a := va + 4 * m
    let s := match ts, s.windowOf r.job a with
      | t :: _, none =>
        s.sendContribution { job := r.job, va := BitVec.ofNat 64 a, target := slotRef a t, f32 := true, index := ix % 2 ^ 32,
                             value := BitVec.ofNat 64 x, source := .tile r.v v.op.x v.op.y }
      | _, _ => s
    s.contributeLanes r v va ix (m + 1) rest

/-- A region with the TFLAGS that the state has for it, which a contribution may have changed. -/
def State.withFlags (s : State) (r : Region) : Region :=
  match s.region? r.job r.v with
  | some x => { r with body := { r.body with tiles := x.body.tiles } }
  | none => r

/-- The position's beats have an address whose words can be reached. -/
def State.matomAct (s : State) (r : Region) (v : OpView) (p : PortParam) (n : Nat) (q : Nat) (c : Cmd) (o d : Beat) : PortTurn :=
  match portAddr c o with
  | .error t => .fire (.trap t)
  | .ok va =>
    let ms := upFrom 0 (v.inLanes 1)
    match s.lanesAccess r va p.mode ms with
    | .error (m, f, a) =>
      s.portAccess r v .atomic (va + 4 * m) 4 (fun sub a => portTrap 0x0C 0 sub a m) (fun _ =>
        match f with
        | .prot sub => .fire (.trap (portTrap 0x0C 0 sub a m))
        | _ => .fire (.stuck 3))
    | .ok l =>
      let xs := ms.map (d.lane 32)
      s.portGate r v l.flatten (fun s =>
        if p.mode then
          let s := s.contributeLanes r v va (p.seq.toNat + n) 0 (l.zip xs)
          .act s ((s.withFlags r).unstall v) { take := [0, 1], emit := [], mem := some (.port (n + 1) true) }
        else
          let (old, c, s) := s.atomLanes r v (aopOf p.aop.toNat) va 0 c (l.zip xs)
          .act (s.setCmd r.job q c) (r.unstall v)
            { take := [0, 1], emit := v.toAll (dataBeat (packLanes 32 old)), mem := some (.port n true) })

def matomTurn (p : PortParam) (s : State) (r : Region) (v : OpView) : PortTurn :=
  let n := match v.op.mem with
    | .port n _ => n
    | _ => 0
  sinkTurn s r v n (s.matomAct r v p n)

def execMatom (_c : OpCfg) (p : PortParam) (s : State) : Host.Outcome State Fault Refusal := execPort (matomTurn p) s

/-! ### mvers (R321, R263) -/

/-- A trap of `mvers` in its own computing: its address comes from no input. -/
def OpView.versTrap (v : OpView) (cause subc addr pos : Nat) : Trap :=
  { cause := cause, port := 0xFF, subc := subc, addr := addr, origin := some (v.poison cause 0 pos) }

/-- The command fails, and with it the launch (R264). -/
def State.versFail (s : State) (r : Region) (q : Nat) (c : Cmd) (code : Nat) : PortTurn :=
  .stop (s.failAtPort r.job r.v q c.tln (.fail code 0 (BitVec.ofNat 64 (cmdA c.word.toNat)) 0))

/-- The slot of a version command, after the checks of an access of its kind at position `p`: 64 bytes at A + 64p lie in
the slot. -/
def State.versAt (s : State) (r : Region) (v : OpView) (c : Cmd) (kind : AccKind) (p : Nat)
    (k : List Trans → SlotRef → PortTurn) : PortTurn :=
  let a := cmdA c.word.toNat
  s.portAccess r v kind a 1 (fun sub x => v.versTrap 0x0C sub x p) (fun ts =>
    match ts with
    | t :: _ =>
      if !rgVers t.entry then .fire (.trap (v.versTrap 0x0C 5 a p))
      else
        let ref := slotRef a t
        if rgZ ref.entry < ref.off + 64 * p + 64 then .fire (.trap (v.versTrap 0x0A 0 (a + 64 * p) p))
        else k ts { ref with off := ref.off + 64 * p }
    | [] => .fire (.stuck 3))

/-- The checks of `vpub` against the slot (R133): a full pool stalls the stream. -/
def State.pubReady (s : State) (r : Region) (q : Nat) (c : Cmd) (ref : SlotRef) (k : PortTurn) : PortTurn :=
  match pubCheck (s.slotAt r.job ref) ref.entry (bf (cmdB c.word.toNat) 0 32) with
  | .exists_ => s.versFail r q c 0x08
  | .full => .fire (.stuck 3)
  | .ok => k

/-- A publish: position `p` of the tensor; `data` are the bytes of the version so far. -/
def State.publishTurn (s : State) (r : Region) (v : OpView) (p : Nat) (data : List Host.Cell) : PortTurn :=
  match v.front [0] 0x0B with
  | .done f => .fire f
  | .group from_ _ => .fire (.go { take := from_, emit := [] })
  | .stop from_ l =>
    if l < v.inLevel 0 then .fire (.go { take := from_, emit := [] })
    else
      s.withPortCmd r v (fun q c =>
        let a := cmdA c.word.toNat
        s.portAccess r v .write a 1 (fun sub x => v.versTrap 0x0C sub x p) (fun ts =>
          match ts with
          | t :: _ =>
            if !rgVers t.entry then .fire (.trap (v.versTrap 0x0C 5 a p))
            else
              let ref := slotRef a t
              s.pubReady r q c ref
                (let (rel, s) := s.release v.portAgent (rgScope ref.entry) c.view []
                 let s := s.createVersion r.job ref (s.slotHome ref) (bf (cmdB c.word.toNat) 0 32) data rel
                 s.portNext (r.unstall v) v q c { take := from_, emit := [], mem := some (.mvers 0 0 [] false) })
          | [] => .fire (.stuck 3)))
  | .pos bs =>
    s.withPortCmd r v (fun q c =>
      match bs with
      | b :: _ =>
        if b.kind = .poison then .fire (gotPoison 0 b)
        else
          s.versAt r v c .write p (fun ts ref =>
            let go : PortTurn :=
              if v.isHole 0 b then
                .act s (r.unstall v) { take := [0], emit := [], mem := some (.mvers 0 (p + 1) data true) }
              else
                s.portGate r v (ts.flatMap (List.replicate 64)) (fun s =>
                  let new := data ++ cells (upFrom ref.off 64) (toBytes 64 b.data.toNat)
                  .act s (r.unstall v) { take := [0], emit := [], mem := some (.mvers 0 (p + 1) new true) })
            if p = 0 then s.pubReady r q c ref go else go)
      | [] => .fire (.stuck 1))

/-- A vload: position `p` of the tensor; `open_` says that version `n` with the bytes `data` has been chosen for it. -/
def State.vloadTurn (s : State) (r : Region) (v : OpView) (n : BitVec 32) (p : Nat) (data : Memory) (open_ : Bool) : PortTurn :=
  let count := match v.outEdge 0 with
    | some e => e.p.beatCount
    | none => 0
  s.withPortCmd r v (fun q c =>
    if !v.roomy then .fire (.stuck 2)
    else if count ≤ p then
      let out := if bit (cmdX c.word.toNat) 2 then 7 else v.portLevel
      s.portNext r v q c { take := [], emit := v.toAll (stopBeat out), mem := some (.mvers 0 0 [] false) }
    else
      s.versAt r v c .read p (fun ts ref =>
        let x := s.slotAt r.job ref
        let mode : VMode := match bf (cmdX c.word.toNat) 0 2 with
          | 0 => .exact
          | 1 => .atLeast
          | _ => .newest
        let send (num : BitVec 32) (bytes : Memory) (c : Cmd) : PortTurn :=
          s.portGate r v (ts.flatMap (List.replicate 64)) (fun s =>
            .act (s.setCmd r.job q c) (r.unstall v)
              { take := [], emit := v.withRun (v.outBeat 0 (ofBytes ((upFrom ref.off 64).map bytes.read))) (p + 1),
                mem := some (.mvers num (p + 1) bytes true) })
        if open_ then send n data c
        else
          match vlook x mode (bf (cmdB c.word.toNat) 0 32) with
          | .gone => s.versFail r q c 0x06
          | .skipped => s.versFail r q c 0x07
          | .wait => .fire (.stuck 3)
          | .version m =>
            send m.num m.data { c with view := unionNat c.view (acquireFrom v.portAgent (x.relsTo m.num.toNat)) }))

def mversTurn (p : PortParam) (s : State) (r : Region) (v : OpView) : PortTurn :=
  let (n, pos, data, open_) := match v.op.mem with
    | .mvers n k d o => (n, k, d, o)
    | _ => (0, 0, [], false)
  if p.dir then s.vloadTurn r v n pos data open_ else s.publishTurn r v pos data

def execMvers (_c : OpCfg) (p : PortParam) (s : State) : Host.Outcome State Fault Refusal := execPort (mversTurn p) s

/-! ### wsport (R333) -/

/-- A read of the die's weight store; a bank closed for refresh makes it wait (05_memory.md R128). -/
def State.wsportRead (s : State) (r : Region) (v : OpView) (base : Nat) (b : Beat) : PortTurn :=
  let o := b.data.toNat % 2 ^ 64
  let a := 65536 * base + o
  if o % 64 ≠ 0 || Config.wsBytes < a + 64 then .fire (.trap (portTrap 0x0A 0 0 0 0))
  else
    let ls := upFrom (windowLoc r.die (Config.wsOffset + a)) 64
    if ls.any s.wsClosed then .wait s
    else if ls.any s.badBytes.contains then
      .stop ((s.eccHit r.die (paOf 2 r.die (Config.wsOffset + a))).setRegion (r.trapped v (portTrap 0x0C 0 20 0 0)))
    else .fire (.go { take := [0], emit := v.toAll (v.outBeat 0 (ofBytes (s.homeBytes ls))) })

/-- `wsport`: the stop that ends a tensor of `off` leaves at the level of the output's tensor (R66). -/
def wsportTurn (base0 base1 : Nat) (s : State) (r : Region) (v : OpView) : PortTurn :=
  let sel := match v.op.mem with
    | .wsport b => b
    | _ => false
  match v.front [0] 0x0B with
  | .done f => .fire f
  | .group from_ b =>
    .fire (.go { take := from_, emit := v.toAll b, mem := some (.wsport (!sel))
                 word := some (BitVec.ofNat 256 (putField v.op.word.toNat 115 1 (b2n (!sel)))) })
  | .stop from_ l =>
    let lin := v.inLevel 0
    let out := if l < lin || l = 7 then l else min 6 (l - lin + v.portLevel)
    .fire (.go { take := from_, emit := v.toAll (stopBeat out) })
  | .pos bs =>
    match bs with
    | b :: _ =>
      if b.kind = .data then s.wsportRead r v (if sel then base1 else base0) b
      else .fire (v.elementwise [0] bs (.stuck 1))
    | [] => .fire (.stuck 1)

def execWsport (_c : OpCfg) (base0 base1 : BitVec 14) (_sel : Bool) (s : State) : Host.Outcome State Fault Refusal :=
  execPort (wsportTurn base0.toNat base1.toNat) s

end Sys2Proof.Machine
end

