-- ==== Sys2Proof/Machine/SpecialTile.lean ====
section
/-! DEFINITION. Special-tile operators (12_operators.md R322-R332, 03_fabric.md R75-R81, R83-R84); `wsport` stands with
the ports. -/

namespace Sys2Proof.Machine

/-- Tensor level of an output's edge (03_fabric.md R66). -/
def OpView.outLevel (v : OpView) (p : Nat) : Nat :=
  match v.outEdge p with
  | some e => e.p.level
  | none => 1

/-! ### dup (R327) -/

/-- Every beat, of every kind, goes to every output, a config beat that names another operator too (R327, R63; log 37); a
config or group beat off a tensor boundary traps (R85). -/
def dupFire (v : OpView) : Fire :=
  match v.passHeld [0] with
  | some f => f
  | none =>
    match v.head 0 with
    | none => .stuck 1
    | some b =>
      let copy : Fire := .go { take := [0], emit := v.toAll b, mark := if b.kind = .marker then some 0 else none,
                               freeze := b.kind == .marker }
      if (b.kind = .config || b.kind = .group) && !v.atBoundary 0 then .trap { cause := 0x05, port := 0 }
      else if b.kind = .config && v.reg.body.targetOf b == some v.ix then v.configured 0 b
      else copy

def execDup (_c : OpCfg) (_ports : Edges4) (_m : BitVec 3) (s : State) : Host.Outcome State Fault Refusal :=
  execOp dupFire s

/-! ### gate and select (R80, R81, R328) -/

def gateFire (v : OpView) : Fire :=
  v.plainFront [0, 1] 0x0B (fun bs =>
    match bs with
    | d :: c :: _ =>
      let go (b : Beat) : Fire := .go { take := [0, 1], emit := v.toAll b }
      if c.kind = .poison then if v.deferred then go c else gotPoison 1 c
      else go (if !v.isHole 0 d && bit c.data.toNat 0 then d else holeBeat)
    | _ => .stuck 1)

def execGate (_c : OpCfg) (s : State) : Host.Outcome State Fault Refusal := execOp gateFire s

def selectFire (v : OpView) : Fire :=
  v.plainFront [0, 1, 2] 0x08 (fun bs =>
    match bs with
    | c :: a0 :: a1 :: _ =>
      let go (p : Nat) (b : Beat) : Fire :=
        if b.kind = .poison && !v.deferred then gotPoison p b else .go { take := [0, 1, 2], emit := v.toAll b }
      if c.kind = .poison then go 0 c
      else if bit c.data.toNat 0 then go 2 a1
      else go 1 a0
    | _ => .stuck 1)

def execSelect (_c : OpCfg) (s : State) : Host.Outcome State Fault Refusal := execOp selectFire s

/-! ### stopgen and filter (R330, R331) -/

/-- Counts after a run of LEV1 has ended with a stop that leaves at level `l`. -/
def runEnded (lev2 runs l : Nat) : OpMem := .stopgen 0 (if lev2 ≠ 0 && lev2 ≤ l then 0 else runs + 1)

/-- The level of an inserted stop: LEV2 where this run completes RUN2 of them. -/
def insertLevel (p : StopgenParam) (runs : Nat) : Nat :=
  if p.lev2 ≠ 0 && runs + 1 = p.run2.toNat + 1 then p.lev2.toNat else p.lev1.toNat

/-- An inserted stop waits for the next beat: an arriving stop behind the same position joins it (R66). -/
def stopgenFire (p : StopgenParam) (v : OpView) : Fire :=
  let (pos, runs) := match v.op.mem with
    | .stopgen a b => (a, b)
    | _ => (0, 0)
  let due := decide (p.run1.toNat + 1 ≤ pos)
  let lev2 := p.lev2.toNat
  let other : Bool := match v.head 0 with
    | some b => b.kind != .stop && !b.held
    | none => false
  if due && other then
    let l := insertLevel p runs
    .go { take := [], emit := v.toAll (stopBeat l), mem := some (runEnded lev2 runs l) }
  else
    match v.front [0] 0x0B with
    | .done f => f
    | .group from_ b => .go { take := from_, emit := v.toAll b }
    | .stop from_ l =>
      if due || p.lev1.toNat ≤ l then
        let own := if due || insertLevel p runs == lev2 && lev2 ≠ 0 then insertLevel p runs else 0
        let out := max l own
        .go { take := from_, emit := v.toAll (stopBeat out), mem := some (runEnded lev2 runs out) }
      else .go { take := from_, emit := v.toAll (stopBeat l) }
    | .pos bs =>
      match bs with
      | b :: _ =>
        if b.kind = .poison && !v.deferred then gotPoison 0 b
        else .go { take := [0], emit := v.toAll b, mem := some (.stopgen (pos + 1) runs) }
      | [] => .stuck 1

def execStopgen (_c : OpCfg) (p : StopgenParam) (s : State) : Host.Outcome State Fault Refusal := execOp (stopgenFire p) s

/-- Beats of a run of the fastest factor that no arriving stop ends: 0 where a ragged factor brings its own stops. -/
def filterRun (v : OpView) : Nat :=
  match v.inEdge 0 with
  | some e =>
    match e.q.norm.beats with
    | f :: _ => if f.ragged then 0 else f.ext
    | [] => 0
  | none => 0

/-- `filter`: a run of the fastest factor ends with a stop of level 1, which waits for the next beat as an inserted
stop does. -/
def filterFire (v : OpView) : Fire :=
  let pos := match v.op.mem with
    | .stopgen a _ => a
    | _ => 0
  let run := filterRun v
  let due := run ≠ 0 && decide (run ≤ pos)
  let other : Bool := match v.head 0 with
    | some b => b.kind != .stop && !b.held
    | none => false
  if due && other then .go { take := [], emit := v.toAll (stopBeat 1), mem := some (.stopgen 0 0) }
  else
    match v.front [0, 1] 0x0B with
    | .done f => f
    | .group from_ b => .go { take := from_, emit := v.toAll b }
    | .stop from_ l => .go { take := from_, emit := v.toAll (stopBeat l), mem := some (.stopgen 0 0) }
    | .pos bs =>
      let m : OpMem := .stopgen (pos + 1) 0
      let go (b : Beat) : Fire := .go { take := [0, 1], emit := v.toAll b, mem := some m }
      match bs with
      | d :: c :: _ =>
        if c.kind = .poison then if v.deferred then go c else gotPoison 1 c
        else if !bit c.data.toNat 0 then .go { take := [0, 1], emit := [], mem := some m }
        else if d.kind = .poison && !v.deferred then gotPoison 0 d
        else go d
      | _ => .stuck 1

def execFilter (_c : OpCfg) (s : State) : Host.Outcome State Fault Refusal := execOp filterFire s

/-! ### race (R324) and sortnet (R332) -/

/-- The 16-bit key of a score, and the flag it raises. -/
def raceKey (fmt score : Nat) : Nat × Nat :=
  let f := (floatOf fmt).getD .bf16
  let x := decodeF f score
  if x.isNaN then (0, NV)
  else
    let b := if fmt = 0x0A then (roundF .bf16 0 0 .ieee x).1 else score % 2 ^ 16
    (if bit b 15 then b ^^^ 0xFFFF else b ^^^ 0x8000, 0)

/-- A score among the winners so far, in descending key order, ties to the lower index. -/
def raceInsert (x : Nat × Nat × Nat) : List (Nat × Nat × Nat) → List (Nat × Nat × Nat)
  | [] => [x]
  | y :: ys => if y.1 < x.1 || (x.1 == y.1 && x.2.1 < y.2.1) then x :: y :: ys else y :: raceInsert x ys

/-- The outputs of a token. -/
def raceEmit (k : Nat) (keys : List (Nat × Nat × Nat)) (poison : Option Beat) (v : OpView) : List (Nat × Beat) :=
  match poison with
  | some b => v.toAll b
  | none =>
    if keys.isEmpty then v.toAll holeBeat
    else
      let lane (f : Nat × Nat × Nat → Nat) (free : Nat → BitVec 32) (n : Nat) : Nat :=
        match keys[n]? with
        | some x => f x
        | none => (free n).toNat
      let idx := dataBeat (packLanes 32 ((upFrom 0 k).map (lane (·.2.1) (Config.raceIndex keys))))
      let val := dataBeat (packLanes (fmtWidth (v.inFmt 0)) ((upFrom 0 k).map (lane (·.2.2) (Config.raceScore keys))))
      (0, idx) :: (if v.hasOut 1 then [(1, val)] else [])

def raceFire (e k : Nat) (v : OpView) : Fire :=
  let (keys, t, bad) := match v.op.mem with
    | .race ks t b => (ks, t, b)
    | _ => ([], 0, none)
  match v.front [0] 0x0B with
  | .done f => f
  | .group from_ b => .go { take := from_, emit := v.toAll b }
  | .stop from_ l =>
    if t ≠ 0 then .trap { cause := 0x0B, port := 0 }
    else
      let out := if l = 7 then 7 else max 1 (min 6 (l + v.outLevel 0 - v.inLevel 0))
      .go { take := from_, emit := v.toAll (stopBeat out) }
  | .pos bs =>
    match bs, v.inEdge 0 with
    | b :: _, some ed =>
      let n := ed.q.laneCount
      let fmt := v.inFmt 0
      if b.kind = .poison && !v.deferred then gotPoison 0 b
      else
        let scores := if b.kind = .data then
            (upFrom 0 n).map (fun m => (ed.q.coord m t 1, b.lane (fmtWidth fmt) m)) else []
        let keys := (scores.foldl (fun ks s => raceInsert ((raceKey fmt s.2).1, s.1, s.2) ks) keys).take k
        let fl := scores.foldl (fun fl s => fl ||| (raceKey fmt s.2).2) 0
        let bad := match bad with
          | some x => some x
          | none => if b.kind = .poison then some b else none
        if (t + 1) * n < e then .go { take := [0], emit := [], mem := some (.race keys (t + 1) bad), flags := fl }
        else .go { take := [0], emit := raceEmit k keys bad v, mem := some (.race [] 0 none), flags := fl }
    | _, _ => .stuck 1

def execRace (_c : OpCfg) (e : BitVec 8) (k : BitVec 4) (s : State) : Host.Outcome State Fault Refusal :=
  execOp (raceFire (e.toNat + 1) (k.toNat + 1)) s

/-- A key lane: the value that leaves, what it is ordered by, and its flag. -/
def sortKey (fmt x : Nat) : Nat × Int × Nat :=
  if fmt = 0x0A then
    let nan := (decodeF .fp32 x).isNaN
    let y := if nan then Fmt.nanCode .fp32 else x
    (y, ((if bit y 31 then y ^^^ 0xFFFFFFFF else y ^^^ 0x80000000 : Nat) : Int), if nan then NV else 0)
  else (x, intOf fmt x, 0)

/-- Stable insertion of a lane by its key. -/
def sortInsert (desc : Bool) (x : Int × Nat × Nat) : List (Int × Nat × Nat) → List (Int × Nat × Nat)
  | [] => [x]
  | y :: ys =>
    if (if desc then decide (x.1 < y.1) else decide (y.1 < x.1)) || x.1 == y.1 then y :: sortInsert desc x ys
    else x :: y :: ys

/-- A data beat on the keys is sorted whatever stands on the payload; a hole or poison beat passes as one group (R332). -/
def sortnetFire (desc : Bool) (v : OpView) : Fire :=
  let al := if v.has 1 then [0, 1] else [0]
  v.plainFront al 0x0B (fun bs =>
    match bs with
    | kb :: rest =>
      let pay := rest.head?
      let outs (k : Beat) (p : Option Beat) : List (Nat × Beat) :=
        (0, k) :: (match p with
          | some p => if v.hasOut 1 then [(1, p)] else []
          | none => [])
      if kb.kind ≠ .data then .go { take := al, emit := outs kb pay }
      else
        let n := v.inLanes 0
        let fmt := v.inFmt 0
        let ks := (upFrom 0 n).map (fun m => (m, sortKey fmt (kb.lane 32 m)))
        let sorted := ks.foldl (fun l k => sortInsert desc (k.2.2.1, k.2.1, k.1) l) []
        let fl := ks.foldl (fun fl k => fl ||| k.2.2.2) 0
        .go { take := al
              emit := outs (dataBeat (packLanes 32 (sorted.map (·.2.1))))
                (pay.map (fun p => if p.kind = .data then dataBeat (packLanes 32 (sorted.map (fun x => p.lane 32 x.2.2))) else p))
              flags := fl }
    | [] => .stuck 1)

def execSortnet (_c : OpCfg) (desc : Bool) (s : State) : Host.Outcome State Fault Refusal := execOp (sortnetFire desc) s

/-! ### count (R83, R325; its positions are not timed) -/

/-- Token n of a loop of `total`: FIRST and LAST in lane 1. -/
def countToken (n total : Nat) : Beat :=
  dataBeat (packLanes 32 [n, b2n (n == 0) + 2 * b2n (n + 1 == total)])

/-- A throttle beat is discarded; its tensors stand for the loops, and one is closed only once its loop has. -/
def countThrottle (loops thr : Nat) (set : Nat → Nat → OpMem) (delivered : Nat) (v : OpView) : Fire :=
  match v.front [0] 0x0B with
  | .done f => f
  | .group from_ _ => .go { take := from_, emit := [] }
  | .stop from_ l =>
    if l < v.inLevel 0 then .go { take := from_, emit := [] }
    else if thr < loops then .go { take := from_, emit := [], mem := some (set (thr + 1) 0) }
    else .stuck 1
  | .pos _ => .go { take := [0], emit := [], mem := some (set thr (delivered + 1)) }

def countFire (p : CountParam) (v : OpView) : Fire :=
  let (i, active, loops, thr, delivered, ended) := match v.op.mem with
    | .count a b c d e f => (a, b, c, d, e, f)
    | _ => (0, false, 0, 0, 0, false)
  let total := p.n.toNat + 1
  let dist := p.dist.toNat + 1
  let close (from_ : List Nat) (l : Nat) : Fire :=
    .go { take := from_, emit := v.toAll (stopBeat l), mem := some (.count 0 false (loops + 1) thr delivered (l == 7)) }
  let emission : Fire :=
    if active || (!v.has 1 && loops = 0) then
      if i < total then
        if !v.has 0 || i < dist || (thr == loops && i < delivered + dist) then
          .go { take := [], emit := v.toAll (countToken i total), mem := some (.count (i + 1) true loops thr delivered false) }
        else .stuck 1
      else if !v.has 1 then close [] 7
      else
        match v.front [1] 0x0B with
        | .done f => f
        | .stop from_ l => close from_ (if l = 7 then 7 else p.lev.toNat)
        | _ => close [] p.lev.toNat
    else if ended || !v.has 1 then .stuck 1
    else
      match v.front [1] 0x0B with
      | .done f => f
      | .group from_ b => .go { take := from_, emit := v.toAll b }
      | .stop from_ l =>
        if l = 7 then .go { take := from_, emit := v.toAll (stopBeat 7), mem := some (.count 0 false loops thr delivered true) }
        else .go { take := from_, emit := [] }
      | .pos _ => .go { take := [1], emit := [], mem := some (.count 0 true loops thr delivered false) }
  if !v.has 0 then emission
  else
    match countThrottle loops thr (fun t d => .count i active loops t d ended) delivered v with
    | .stuck _ => emission
    | f => f

def execCount (_c : OpCfg) (p : CountParam) (s : State) : Host.Outcome State Fault Refusal := execOp (countFire p) s

/-! ### merge and split (R326) -/

def turnMem (m : OpMem) : Nat × List Nat :=
  match m with
  | .turn i gone _ => (i, gone)
  | _ => (0, [])

/-- The next input in turn that has not ended. -/
def nextTurn (ways : Nat) (gone : List Nat) (i : Nat) : Nat → Nat
  | 0 => i
  | fuel + 1 =>
    let j := (i + 1) % ways
    if gone.contains j then nextTurn ways gone j fuel else j

/-- Whole tensors in turn. -/
def mergeTensor (ways i : Nat) (gone : List Nat) (v : OpView) : Fire :=
  match v.front [i] 0x0B with
  | .done f => f
  | .group from_ b => .go { take := from_, emit := v.toAll b }
  | .stop from_ l =>
    if l < v.inLevel i then .go { take := from_, emit := v.toAll (stopBeat l) }
    else
      let gone := if l = 7 then insertNat i gone else gone
      let out := if l = 7 && gone.length < ways then v.outLevel 0 else l
      .go { take := from_, emit := v.toAll (stopBeat out), mem := some (.turn (nextTurn ways gone i ways) gone false) }
  | .pos bs =>
    match bs with
    | b :: _ => .go { take := [i], emit := v.toAll b }
    | [] => .stuck 1

/-- Position by position: a stop stands at the same place on every input. A tensor begins once every input shows its first
beat, ahead of which a config beat may stand on any of them (R86). -/
def mergePosition (ways i : Nat) (v : OpView) : Fire :=
  let all := upFrom 0 ways
  let back := all.filter v.fedBack
  match v.dropBack (if back.length = ways then [] else back) with
  | some f => f
  | none =>
    let start := all.all (fun p => v.atBoundary p && (back.contains p || (v.head p).isSome))
    match v.configHead (if start then all else [i]), v.head i with
    | some f, _ => f
    | none, none => .stuck 1
    | none, some b =>
      if all.all v.atBoundary && !start then .stuck 1
      else if b.kind.takesPosition then
        .go { take := [i], emit := v.toAll b, mem := some (.turn ((i + 1) % ways) [] false) }
      else if i ≠ 0 then .trap { cause := 0x0B, port := i }
      else
        match v.front all 0x0B with
        | .done f => f
        | .group from_ b => .go { take := from_, emit := v.toAll b }
        | .stop from_ l => .go { take := from_, emit := v.toAll (stopBeat (if l ≤ 5 then l + 1 else l)) }
        | .pos _ => .stuck 1

def mergeFire (p : TurnParam) (v : OpView) : Fire :=
  let ways := p.m.toNat + 1
  let all := upFrom 0 ways
  let (i, gone) := turnMem v.op.mem
  match v.passHeld all with
  | some f => f
  | none =>
    match v.markerHead all with
    | some f => f
    | none =>
      if v.op.marked.contains i then .stuck 1
      else if p.byTensor then mergeTensor ways i gone v
      else mergePosition ways i v

def execMerge (_c : OpCfg) (p : TurnParam) (s : State) : Host.Outcome State Fault Refusal := execOp (mergeFire p) s

def splitFire (p : TurnParam) (v : OpView) : Fire :=
  let ways := p.m.toNat + 1
  let (i, _) := turnMem v.op.mem
  match v.front [0] 0x0B with
  | .done f => f
  | .group from_ b => .go { take := from_, emit := v.toAll b }
  | .stop from_ l =>
    if p.byTensor then
      if l = 7 then .go { take := from_, emit := v.toAll (stopBeat 7), mem := some (.turn ((i + 1) % ways) [] false) }
      else
        let j := if v.inLevel 0 ≤ l then (i + 1) % ways else i
        .go { take := from_, emit := [(i, stopBeat l)], mem := some (.turn j [] false) }
    else if l = 1 then .trap { cause := 0x0B, port := 0 }
    else .go { take := from_, emit := v.toAll (stopBeat (if l = 7 then 7 else l - 1)), mem := some (.turn 0 [] false) }
  | .pos bs =>
    match bs with
    | b :: _ =>
      .go { take := [0], emit := [(i, b)], mem := some (.turn (if p.byTensor then i else (i + 1) % ways) [] false) }
    | [] => .stuck 1

def execSplit (_c : OpCfg) (p : TurnParam) (s : State) : Host.Outcome State Fault Refusal := execOp (splitFire p) s

/-! ### siding (R75-R78, R323) -/

/-- What a siding works with: the orders of one tensor, or of one slice of the ragged factor (R78), the number of
slices, the period T and the delay D. -/
structure SidePlan where
  p : Order
  q : Order
  slices : Option Nat
  period : Nat
  delay : Nat
  fmt : Nat
  desc : BitVec 32
  lp : Nat
  lq : Nat
  deriving DecidableEq, Repr

def unragged (o : Order) : Order := { o with beats := o.beats.filter (fun f => !f.ragged) }

def sidePlan (d : Nat) (e : Edge) : SidePlan :=
  { p := unragged e.p, q := unragged e.q, slices := (e.p.beats.find? (fun f => f.ragged)).map (·.ext),
    period := max e.p.beatCount e.q.beatCount, delay := d, fmt := e.fmt, desc := e.desc, lp := e.p.level, lq := e.q.level }

/-- Producer beat and lane of each lane of consumer beat `b`. -/
def SidePlan.sources (s : SidePlan) (b : Nat) : List (Nat × Nat) :=
  (upFrom 0 s.q.laneCount).map (fun n =>
    let x := s.p.place (pick4 (s.q.coordsOf n b))
    (x.2, x.1))

/-- Consumer beat `b` from the producer beats that have arrived. What has not arrived of a slice cut short is 0
(log 36). -/
def SidePlan.form (s : SidePlan) (beats : List Beat) (b : Nat) : Beat :=
  let src := s.sources b
  let used := ((src.map (·.1)).foldl (fun l i => insertNat i l) []).filterMap (fun i => beats[i]?)
  match used.find? (fun x => x.kind == .poison) with
  | some x => x
  | none =>
    if s.fmt = 0x12 then used.headD holeBeat
    else if used.any (fun x => x.kind == .cond) then holeBeat
    else
      let w := fmtWidth s.fmt
      let get (f : Beat → Nat → Nat) (x : Nat × Nat) : Nat :=
        match beats[x.1]? with
        | some y => f y x.2
        | none => 0
      let codes := src.map (get (fun y n => y.lane w n))
      let bs := dBsize s.desc
      let scales := if dSfmt s.desc = 0 then [] else
          ((upFrom 0 src.length).zip src).filterMap (fun x =>
            if x.1 % bs = 0 then some (get (fun y n => y.scale s.p.laneCount w (n / bs)) x.2) else none)
      dataBeat (packLanes w codes + 2 ^ (w * src.length) * packLanes 8 scales)

/-- Every element of consumer beat `b` has arrived. -/
def SidePlan.ready (s : SidePlan) (beats : List Beat) (b : Nat) : Bool :=
  (s.sources b).all (fun x => decide (x.1 < beats.length))

/-- Consumer beats that an entry sends: all, or as far as its slice arrived. -/
def SidePlan.toSend (s : SidePlan) (t : SideTensor) : Nat :=
  let n := s.q.beatCount
  if !t.closed || s.p.beatCount ≤ t.beats.length then n
  else ((upFrom 0 n).filter (fun b => (s.sources b).any (fun x => decide (x.1 < t.beats.length)))).foldl (fun m b => max m (b + 1)) 0

/-- The next consumer beat of the oldest entry, what stands before it or behind it. -/
def SidePlan.send (s : SidePlan) (ts : List SideTensor) (next : Nat) (v : OpView) : Fire :=
  match ts with
  | [] => .stuck 1
  | t :: rest =>
    match t.before with
    | b :: more =>
      .go { take := [], emit := v.toAll b, mem := some (.siding ({ t with before := more } :: rest) next), freeze := b.kind == .marker }
    | [] =>
      if t.sent < s.toSend t then
        if s.ready t.beats t.sent || t.closed then
          .go { take := [], emit := v.toAll (s.form t.beats t.sent), mem := some (.siding ({ t with sent := t.sent + 1 } :: rest) next) }
        else .stuck 1
      else if !t.closed then .stuck 1
      else .go { take := [], emit := t.closing.flatMap v.toAll, mem := some (.siding rest next) }

/-- Beats before an entry on the schedule of R76: whole periods of the tensors that have closed before it, and `per`
for each slice. -/
def SidePlan.startOf (s : SidePlan) (tensors slice per : Nat) : Nat := s.period * tensors + slice * per

/-- The schedule lets the producer's next beat in: every consumer beat due before it has been sent (R76). -/
def SidePlan.admits (s : SidePlan) (ts : List SideTensor) (slice got : Nat) : Bool :=
  match ts with
  | [] => true
  | h :: _ =>
    let ahead := (ts.filter (fun t => !t.closing.isEmpty)).length
    decide (s.startOf ahead slice s.p.beatCount + got ≤ s.startOf 0 h.slice s.q.beatCount + h.sent + s.delay + 1)

def SideTensor.new (slice : Nat) (before : List Beat) : SideTensor :=
  { before := before, slice := slice, beats := [], sent := 0, closing := [], closed := false }

/-- The entry that takes the next beat, and those before it. -/
def splitSide (ts : List SideTensor) (next : Nat) : List SideTensor × SideTensor :=
  match ts.getLast? with
  | none => ([], SideTensor.new next [])
  | some t => if t.closed then (ts, SideTensor.new next []) else (ts.dropLast, t)

/-- The next beat of the producer: EXTENT where a run of the ragged factor is too long (R68, R323), and STOP_SHAPE where
a stop ends a tensor early or below its level (log 80). -/
def SidePlan.accept (s : SidePlan) (ts : List SideTensor) (next : Nat) (v : OpView) : Fire :=
  let (old, t) := splitSide ts next
  let keep (t : SideTensor) (next : Nat) : Fire :=
    .go { take := [0], emit := [], mem := some (.siding (old ++ [t]) next) }
  match v.head 0 with
  | none => .stuck 1
  | some b =>
    if v.op.marked.contains 0 then .stuck 1
    else if b.kind.takesPosition then
      let past := match s.slices with
        | some n => decide (n ≤ t.slice)
        | none => decide (s.p.beatCount ≤ t.beats.length)
      if past then .trap { cause := 0x04, port := 0 }
      else if !s.admits (old ++ [t]) t.slice t.beats.length then .stuck 2
      else
        let beats := t.beats ++ [b]
        let full := s.slices.isSome && decide (s.p.beatCount ≤ beats.length)
        keep { t with beats := beats, closed := full } (if full then t.slice + 1 else t.slice)
    else if b.kind = .stop then
      let full := s.slices.isSome || t.beats.length = s.p.beatCount
      if b.level < s.lp || !full then .trap { cause := 0x0B, port := 0 }
      else
        let out := if b.level = 7 then 7 else min 6 (b.level + s.lq - s.lp)
        keep { t with closing := [stopBeat out], closed := true } 0
    else if !v.atBoundary 0 && b.kind ≠ .marker then .trap { cause := 0x05, port := 0 }
    else if b.kind = .config && v.reg.body.targetOf b == some v.ix then v.config 0 b
    else
      .go { take := [0], emit := [], mem := some (.siding (old ++ [{ t with before := t.before ++ [b] }]) t.slice)
            mark := if b.kind = .marker then some 0 else none }

/-- A beat leaves as soon as it can; while the consumer has no space, the producer's beats still come in (R76). -/
def sidingFire (p : SidingParam) (v : OpView) : Fire :=
  let (ts, next) := match v.op.mem with
    | .siding ts n => (ts, n)
    | _ => ([], 0)
  match v.passHeld [0], v.inEdge 0 with
  | some f, _ => f
  | none, some e =>
    let s := sidePlan p.d.toNat e
    match s.send ts next v with
    | .go g =>
      if g.ports.all (v.reg.body.space v.ix) then .go g
      else
        (match s.accept ts next v with
          | .stuck _ => .go g
          | f => f)
    | _ => s.accept ts next v
  | none, none => .stuck 1

def execSiding (_c : OpCfg) (p : SidingParam) (s : State) : Host.Outcome State Fault Refusal := execOp (sidingFire p) s

/-! ### delay (R84, R329) -/

/-- An initial beat: zeros, or CONST in every lane; on a COND edge a cond beat (R79). -/
def delayInit (p : DelayParam) (v : OpView) : Beat :=
  let c := if p.init then p.const.toNat else 0
  match v.outEdge 0 with
  | some e => beatOf e.fmt (List.replicate e.p.laneCount c)
  | none => dataBeat 0

/-- What the store is after the end of a tensor: refilled at the next one's start under CARRY `tensor`. -/
def delayClosed (p : DelayParam) (store : List Beat) (fresh : Bool) : OpMem :=
  if p.carry then .delay store fresh 0 else .delay [] true 0

/-- Operators on the cycles through operator `ix`. -/
def Body.cycleOf (b : Body) (ix : Nat) : List Nat :=
  (upFrom 0 b.ops.length).filter (fun k =>
    (b.nextOf ix).any (fun j => b.reaches j k) && (b.nextOf k).any (fun j => b.reaches j ix))

/-- Inputs of the operator that lead from operators of `cyc`, and the others. -/
def OpView.cycIns (v : OpView) (cyc : List Nat) : List (Nat × Edge) × List (Nat × Edge) :=
  (v.ins.filterMap (fun p => (v.reg.body.edges[p.2]?).map (fun e => (p.1, e)))).partition (fun p =>
    p.2.siding != some v.ix && cyc.contains p.2.sop)

/-- The operator of a cycle goes no further for want of what comes around it: its inputs from elsewhere, where it has
some, show the next position, and nothing of its own is still to leave. -/
def OpView.wants (v : OpView) (cyc : List Nat) : Bool :=
  let (_, own) := v.cycIns cyc
  v.op.outbox.isEmpty && own.all (fun p => match v.head p.1 with
    | some b => b.kind.takesPosition && !b.held
    | none => false) &&
    (match v.op.mem with
      | .fifo q => q.isEmpty
      | .mmp m => decide (m.chunk < v.kc)
      | _ => true)

/-- No beat of the edge is on its way to its consumer. -/
def Region.clearEdge (r : Region) (e : Edge) : Bool :=
  match e.siding with
  | none => e.link.isEmpty
  | some k => e.out.isEmpty && (match r.view k with
    | some v => (match sidingFire { gbase := 0, gcnt := 0, d := BitVec.ofNat 32 (param v.op.word 83 32), edge := 0 } v with
      | .stuck _ => true
      | _ => false)
    | none => true)

/-- Operator `k` of the cycles `cyc` waits, over at most `n` operators that wait as well, for a beat of the `delay` `ix`:
along an empty edge from it. A cycle is entered where an operator on the way has inputs from elsewhere. -/
def Region.awaits (r : Region) (cyc : List Nat) (ix : Nat) : Nat → Nat → Bool
  | 0, _ => false
  | n + 1, k =>
    match r.view k with
    | none => false
    | some v => v.wants cyc && (v.cycIns cyc).1.any (fun p => r.clearEdge p.2 &&
        (p.2.sop == ix || ((r.body.ops[p.2.sop]?).any (fun o => opc o.word != 0x78) && r.awaits cyc ix n p.2.sop)))

/-- The held beat of the `delay` `ix` is what an operator waits for at which a cycle through it is entered, and nothing is
on its way to the `delay`, so that the tensor before has passed it (R84; log 30). -/
def Region.asks (r : Region) (ix : Nat) : Bool :=
  let cyc := r.body.cycleOf ix
  (match r.view ix with
    | some v => (v.cycIns cyc).1.all (fun p => r.clearEdge p.2 && (p.2.sop == ix || r.awaits cyc ix cyc.length p.2.sop))
    | none => false) &&
  cyc.any (fun k => match r.view k with
    | some v => !(v.cycIns cyc).2.isEmpty && r.awaits cyc ix cyc.length k
    | none => false)

/-- `delay`: at each position the oldest beat leaves and the input's enters. On a cycle that waits for it, the oldest beat
leaves before the one that replaces it comes (R84; log 30). -/
def delayFire (p : DelayParam) (v : OpView) : Fire :=
  let (store, fresh, ahead) := match v.op.mem with
    | .delay st f n => (st, f, n)
    | _ => ([], true, 0)
  let held := if fresh then List.replicate (p.n.toNat + 1) (delayInit p v) else store
  match v.front [0] 0x0B with
  | .done f =>
    (match f, held with
      | .stuck _, x :: rest =>
        if (v.head 0).isNone && v.op.marked.isEmpty && v.reg.asks v.ix then
          .go { take := [], emit := v.toAll x, mem := some (.delay rest false (ahead + 1)) }
        else f
      | _, _ => f)
  | .group from_ b => .go { take := from_, emit := v.toAll b }
  | .stop from_ l =>
    let m := if v.inLevel 0 ≤ l then delayClosed p store fresh else .delay store fresh ahead
    .go { take := from_, emit := v.toAll (stopBeat l), mem := some m }
  | .pos bs =>
    match bs, held with
    | b :: _, held =>
      if b.kind = .poison && !v.deferred then gotPoison 0 b
      else if ahead ≠ 0 then .go { take := [0], emit := [], mem := some (.delay (held ++ [b]) false (ahead - 1)) }
      else
        match held with
        | x :: rest => .go { take := [0], emit := v.toAll x, mem := some (.delay (rest ++ [b]) false 0) }
        | [] => .stuck 1
    | _, _ => .stuck 1

def execDelay (_c : OpCfg) (p : DelayParam) (s : State) : Host.Outcome State Fault Refusal := execOp (delayFire p) s

end Sys2Proof.Machine
end

