-- ==== Sys2Proof/Machine/RegionSteps.lean ====
section
/-! DEFINITION. Region commands and the steps of a region: launches, markers, images, hangs, traps, reloads
(11_stream_commands.md R263-R266, 02_execution.md R48, R57-R58, 12_operators.md R290-R291, 18_arming.md R363,
21_paging.md R404). -/

namespace Sys2Proof.Machine

/-! ### Data commands (R263) -/

/-- A data command that has started waits at its port. -/
def execData (s : State) : Host.Outcome State Fault Refusal :=
  execCmd (fun s job q c => s.setCmd job q { c with phase := .atPort }) s

/-- `load`: the `mload` of its port reads for it. -/
def execLoad (_h : CmdHead) (_r _p : BitVec 6) (_last : Bool) (_len : BitVec 36) (_a : BitVec 56) (s : State) :
    Host.Outcome State Fault Refusal := execData s

/-- `store`: the `mstore` or `matom` of its port writes for it. -/
def execStore (_h : CmdHead) (_r _p : BitVec 6) (_len : BitVec 36) (_a : BitVec 56) (s : State) :
    Host.Outcome State Fault Refusal := execData s

/-- `publish`: the `mvers` of its port makes the version. -/
def execPublish (_h : CmdHead) (_r _p : BitVec 6) (_ver : BitVec 36) (_a : BitVec 56) (s : State) :
    Host.Outcome State Fault Refusal := execData s

/-- `vload`: the `mvers` of its port streams the version. -/
def execVload (_h : CmdHead) (_r _p : BitVec 6) (_mode : BitVec 2) (_last : Bool) (_ver : BitVec 36) (_a : BitVec 56)
    (s : State) : Host.Outcome State Fault Refusal := execData s

/-! ### Commands on a region (R266) -/

/-- A command on a region in a state that it accepts; PROTECT, REGION in another. -/
def State.onRegion (s : State) (job q : Nat) (c : Cmd) (v : Nat) (accepts : RegionState → Bool) (k : Region → State) : State :=
  match s.region? job v with
  | some r => if accepts r.state then k r else s.failCmd job q c 0x05 12 0
  | none => s.failCmd job q c 0x05 12 0

/-- `disarm` (R266): a launch is cancelled as by `stop`, and the region becomes EMPTY. -/
def execDisarm (_h : CmdHead) (r : BitVec 6) (s : State) : Host.Outcome State Fault Refusal :=
  execCmd (fun s job q c =>
    ((((s.cancelLaunch job r.toNat).dropRegionFaults job r.toNat).dropRegion job r.toNat).endCmd job q c .ok).wakeSaved) s

/-- Records of a `config` obey R266: bits 511:268 are 0. -/
def recordsOk (n : Nat) (bs : List Byte) : Bool := (upFrom 0 n).all (fun i => bf (imgNat bs (64 * i) 64) 268 244 == 0)

/-- `config`: its records wait at the port for the next tensor boundary. -/
def execConfig (_h : CmdHead) (r _p : BitVec 6) (count : BitVec 36) (a : BitVec 56) (s : State) :
    Host.Outcome State Fault Refusal :=
  execCmd (fun s job q c =>
    s.onRegion job q c r.toNat (fun st => st == .armed || st == .running) (fun _ =>
      s.cmdRead job q c a.toNat (64 * count.toNat) (fun s bs =>
        if recordsOk count.toNat bs then s.setCmd job q { c with phase := .atPort, buf := bs, stalled := none }
        else s.failCmd job q c 0x05 13 0))) s

/-- `stop`: the launch is cancelled, and the region returns to its armed configuration. -/
def execStop (_h : CmdHead) (r : BitVec 6) (s : State) : Host.Outcome State Fault Refusal :=
  execCmd (fun s job q c =>
    s.onRegion job q c r.toNat RegionState.holdsTiles (fun r0 =>
      let s := ((s.markerDone r0 .ok).cancelLaunch job r.toNat).dropRegionFaults job r.toNat
      match s.region? job r.toNat with
      | some r1 => (s.setRegion { r1.asArmed with state := .armed }).endCmd job q c .ok
      | none => s.endCmd job q c .ok)) s

/-! ### Markers (R57, R88, R266) -/

/-- A group-driven weight bank: that of an `mmp` with KC = 1, whose banks swap at group beats, or a `wsport` (R57, R87,
R296). -/
def Region.groupDriven (r : Region) : Bool :=
  (upFrom 0 r.body.ops.length).any (fun ix =>
    match r.view ix with
    | some v => opc v.op.word == 0x7C || (opc v.op.word == 0x10 && v.kc == 1)
    | none => false)

/-- Markers reach the operator. -/
def OpView.markable (v : OpView) : Bool := opc v.op.word == 0x60 || v.ins.any (fun p => !v.noMarker p.1)

/-- Markers have left every output port: each input port and each sink that they come to has frozen (R88). -/
def Region.cutMade (r : Region) : Bool :=
  (upFrom 0 r.body.ops.length).all (fun ix =>
    match r.view ix with
    | some v => v.op.frozen || !v.markable || !(opc v.op.word == 0x60 || v.outs.isEmpty || sideEffect v.op.word)
    | none => true)

/-- `marker`: it waits for a group boundary where R57 says so, then for the cut. -/
def execMarker (_h : CmdHead) (r : BitVec 6) (mark : BitVec 36) (s : State) : Host.Outcome State Fault Refusal :=
  execCmd (fun s job q c =>
    let own (x : Region) : Bool := match x.preempt with
      | some (_, q', t) => q' == q && t == c.tln
      | none => false
    if c.progress = 0 then
      s.onRegion job q c r.toNat (fun st => st == .armed || st == .running) (fun x =>
        if x.state = .armed then s.endCmd job q c .ok
        else if x.preempt.isSome then s
        else
          (s.setRegion { x with preempt := some ((s.die x.die).stime, q, c.tln), marker := mark.setWidth 32,
                                cutOpen := !x.groupDriven, grouped := [] }).setCmd job q { c with progress := 1 })
    else
      match s.region? job r.toNat with
      | none => s.endCmd job q c .ok
      | some x =>
        if x.state ≠ .running || !own x then s.endCmd job q c .ok
        else if x.cutMade then s.stopRegion x 4
        else s) s

/-- PREEMPT_WATCHDOG: a pre-emption has waited longer than the region's limit; its launch is cancelled (R57). -/
def execPreemptWatchdog (job region : Nat) (s : State) : Host.Outcome State Fault Refusal :=
  .next (match s.region? job region with
    | none => s
    | some r =>
      match r.preempt with
      | none => s
      | some (since, _, _) =>
        if r.state ≠ .running || r.watchdog = 0 ||
            (s.die r.die).stime.toNat ≤ since.toNat + r.watchdog * Config.usec then s
        else (s.markerDone r (.fail 0x18 0 0 0)).cancelLaunch job region)

/-! ### snap and resume (R266, R401-R403) -/

/-- A part of the image is written; after the last the tiles are released. -/
def State.snapPart (s : State) (r : Region) (job q : Nat) (c : Cmd) (a : Nat) : State :=
  let at_ := a + c.progress
  let bs := (c.buf.drop c.progress).take (requestLen at_ (c.buf.length - c.progress))
  s.cmdSpan job q c .write at_ bs.length (fun ts =>
    if spanVers ts then s.failCmd job q c 0x05 5 at_
    else if s.wsRefuses ts then s.failCmd job q c 0x15 0 at_
    else
      match s.passGate r.die 0 r.unit job q c ts with
      | .inl s => s
      | .inr s =>
        let (c, s) := s.cmdWrite job q c ts (cells (ts.map (·.loc)) bs)
        let c := { c with progress := c.progress + bs.length, stalled := none }
        if c.buf.length ≤ c.progress then
          ((s.setRegion { r with state := .saved, saved := some (BitVec.ofNat 64 a, c.buf.length, false) }).endCmd job q c .ok).wakeSaved
        else s.setCmd job q c)

/-- `snap`. -/
def execSnap (_h : CmdHead) (r : BitVec 6) (len : BitVec 36) (a : BitVec 56) (s : State) : Host.Outcome State Fault Refusal :=
  execCmd (fun s job q c =>
    s.onRegion job q c r.toNat (· == .stopped) (fun r =>
      if c.buf ≠ [] then s.snapPart r job q c a.toNat
      else
        let (k, s') := s.addSnap r
        let bs := r.image k
        if len.toNat < bs.length then s.failCmd job q c 0x05 14 0
        else if r.sramLocs.any s.badBytes.contains then (s.eccHit r.die 0).failCmd job q c 0x1A 20 0
        else s'.setCmd job q { c with buf := bs })) s

/-- `resume`. -/
def execResume (_h : CmdHead) (r : BitVec 6) (len : BitVec 36) (a : BitVec 56) (s : State) : Host.Outcome State Fault Refusal :=
  execCmd (fun s job q c =>
    let inPlace := len = 0 && a = 0
    s.onRegion job q c r.toNat (fun st => st == .stopped || (st == .saved && !inPlace)) (fun r =>
      if inPlace then ((s.dropRegionFaults job r.v).resumeInPlace r).endCmd job q c .ok
      else if s.overlapped r then s.failCmd job q c 0x05 14 0
      else
        s.cmdRead job q c a.toNat len.toNat (fun s bs =>
          match s.resumeImage r bs with
          | some s => (s.dropRegionFaults job r.v).endCmd job q c .ok
          | none => s.failCmd job q c 0x05 14 0))) s

/-! ### Completion of a launch (R48, R67, R264) -/

/-- Config beats that an operator holds (R264: a `config` drains with its launch). -/
def Op.holdsConfig (o : Op) : Bool :=
  o.outbox.any (fun x => x.2.kind == .config) ||
    (match o.mem with
      | .fifo bs => bs.any (fun b => b.kind == .config)
      | .siding ts _ => ts.any (fun t => (t.before ++ t.closing).any (fun b => b.kind == .config))
      | _ => false)

/-- Final stops have reached every sink, the ports hold no command, and no config beat is on its way. -/
def Region.drained (r : Region) : Bool :=
  r.body.ports.all (fun p => p.cmds.isEmpty) && !r.body.ops.any Op.holdsConfig &&
    r.body.edges.all (fun e => (e.link ++ e.out).all (fun b => b.kind != .config)) &&
    (upFrom 0 r.body.ops.length).all (fun ix =>
      match r.view ix with
      | some v => !v.outs.isEmpty || v.ins.all (fun p => v.op.finals.contains p.1)
      | none => true)

/-- The records of a `config` of the launch have not all entered. -/
def State.configOwed (s : State) (r : Region) : Bool :=
  (s.launchCmds r).any (fun c => c.2.op == 0x0A && (match c.2.phase with
    | .ended _ => false
    | _ => true))

/-- LAUNCH_COMPLETE: every data command of the launch completes, positional state returns, and the region is ARMED. -/
def execLaunchComplete (job region : Nat) (s : State) : Host.Outcome State Fault Refusal :=
  .next (match s.region? job region with
    | none => s
    | some r =>
      if r.state ≠ .running || r.launch.isNone || !r.drained || s.configOwed r then s
      else
        let data := (s.launchCmds r).filter (fun c => isData c.2.op)
        let view := data.foldl (fun v c => unionNat v c.2.view) []
        let s := s.setRegion { r.positional.clearPorts with state := .armed }
        let s := data.foldl (fun s c => s.finishCmd job c.1 c.2 .ok) s
        s.nodesReady job r.nodes view)

/-! ### What an operator could do (R291, R404) -/

/-- A try at firing of the operator of a word, with what it touches outside its region. -/
def opTurn (i : Instr) (s : State) (r : Region) (v : OpView) : PortTurn :=
  match i with
  | .mmp c p => .fire (mmpFire c p v)
  | .mmload c => .fire (mmloadFire c v)
  | .vadd c p => .fire (vaddFire c p v)
  | .vsub c p => .fire (vsubFire c p v)
  | .vmul c p => .fire (vmulFire c p v)
  | .vfma c p => .fire (vfmaFire c p v)
  | .vmax c p => .fire (vmaxFire c p v)
  | .vmin c p => .fire (vminFire c p v)
  | .vabs c p => .fire (vabsFire c p v)
  | .vneg c p => .fire (vnegFire c p v)
  | .vexp2 c p => .fire (vexp2Fire c p v)
  | .vlog2 c p => .fire (vlog2Fire c p v)
  | .vrcp c p => .fire (vrcpFire c p v)
  | .vrsqrt c p => .fire (vrsqrtFire c p v)
  | .vcvt c p => .fire (vcvtFire c p v)
  | .vcmp c p => .fire (vcmpFire c p v)
  | .vand c p => .fire (vandFire c p v)
  | .vor c p => .fire (vorFire c p v)
  | .vxor c p => .fire (vxorFire c p v)
  | .vshl c p => .fire (vshlFire c p v)
  | .vshr c p => .fire (vshrFire c p v)
  | .vred c p => .fire (redFire c p v)
  | .vscan c p => .fire (scanFire c p v)
  | .vquant c t => .fire (vquantFire c t v)
  | .vdequant c => .fire (vdequantFire c v)
  | .planes c t k => .fire (planesFire c t k v)
  | .buf _ d => .fire (bufFire (d.toNat + 1) v)
  | .scratch _ n => .fire (scratchFire (n.toNat + 1) v)
  | .window _ n d => .fire (windowFire (n.toNat + 1) d.toNat v)
  | .pin _ n => .fire (pinFire (n.toNat + 1) v)
  | .agen _ p => .fire (agenFire p v)
  | .gather _ p => .fire (rowFire p v)
  | .scatter _ p => .fire (rowFire p v)
  | .mload _ _ => mloadTurn s r v
  | .mstore _ _ => mstoreTurn s r v
  | .matom _ p => matomTurn p s r v
  | .mvers _ p => mversTurn p s r v
  | .siding _ p => .fire (sidingFire p v)
  | .race _ e k => .fire (raceFire (e.toNat + 1) (k.toNat + 1) v)
  | .count _ p => .fire (countFire p v)
  | .merge _ p => .fire (mergeFire p v)
  | .split _ p => .fire (splitFire p v)
  | .dup _ _ _ => .fire (dupFire v)
  | .gate _ => .fire (gateFire v)
  | .select _ => .fire (selectFire v)
  | .delay _ p => .fire (delayFire p v)
  | .stopgen _ p => .fire (stopgenFire p v)
  | .filter _ => .fire (filterFire v)
  | .sortnet _ d => .fire (sortnetFire d v)
  | .wsport _ b0 b1 _ => wsportTurn b0.toNat b1.toNat s r v
  | _ => .fire (.stuck 1)

/-- The state of an operator as R404 codes it: 0 could fire, 1 an input, 2 space, 3 memory, 4 a bank or a group. `held`
says that an access it waits for will end by itself. -/
def State.opState (s : State) (r : Region) (v : OpView) : Nat × Bool :=
  if v.op.frozen then (1, false)
  else if v.op.outbox ≠ [] then
    if v.op.outbox.any (fun x => r.body.space v.ix x.1) then (0, false) else (2, false)
  else
    match decodeOp v.op.word with
    | none => (1, false)
    | some i =>
      match opTurn i s r v with
      | .fire (.stuck k) => (if k = 0 then 1 else k, false)
      | .fire (.trap _) => if r.trap.isSome then (1, false) else (0, false)
      | .fire (.go g) => if g.ports.all (r.body.space v.ix) then (0, false) else (2, false)
      | .act _ _ _ => (0, false)
      | .wait _ => (3, true)
      | .stop _ => (0, false)

/-- The event of an operator trap (R290). -/
def Region.trapEvent (r : Region) (t : TrapRec) : EventRec :=
  let (x, y, sl) := match r.body.ops[t.op]? with
    | some o => (o.x, o.y, o.slot)
    | none => (0, 0, 0)
  { code := 0x12, srck := 1, index := r.v, addr := t.addr.toNat,
    detail := t.cause % 2 ^ 8 + x % 32 * 2 ^ 8 + y % 32 * 2 ^ 13 + sl % 4 * 2 ^ 18 + t.ox % 32 * 2 ^ 20 + t.oy % 32 * 2 ^ 25 +
      t.oslot % 4 * 2 ^ 30 + t.lane % 512 * 2 ^ 32 + t.port % 256 * 2 ^ 48 + t.subc % 256 * 2 ^ 56 + t.pos % 2 ^ 32 * 2 ^ 64 }

/-- REGION_TRAP_STOP: no operator of a trapping region can fire and no beat can move; it is STOPPED (R291). -/
def execRegionTrapStop (job region : Nat) (s : State) : Host.Outcome State Fault Refusal :=
  .next (match s.region? job region with
    | none => s
    | some r =>
      match r.trap with
      | none => s
      | some t =>
        let quiet := (upFrom 0 r.body.ops.length).all (fun ix =>
          match r.view ix with
          | some v => let st := s.opState r v; st.1 ≠ 0 && !st.2
          | none => true)
        if r.state ≠ .running || !quiet then s
        else (s.stopRegion r 1).postEvent job r.die (r.trapEvent t))

/-! ### Hangs (R266, R404) -/

/-- `hang`: interval and map buffer of the monitor. -/
def execHang (_h : CmdHead) (r : BitVec 6) (us : BitVec 36) (a : BitVec 56) (s : State) : Host.Outcome State Fault Refusal :=
  execCmd (fun s job q c =>
    s.onRegion job q c r.toNat (· != .empty) (fun r =>
      (s.setRegion { r with hangUs := us.toNat, hangBuf := a.setWidth 64 }).endCmd job q c .ok)) s

/-- PSTATE of an edge: code 2 stands on the edges that lack the space. The manual gives no code for a producer that only
another of its edges blocks, and the model gives 1 (R404; log 83). -/
def State.edgeState (s : State) (r : Region) (ix port : Nat) : Nat :=
  match r.view ix with
  | none => 1
  | some v =>
    let k := (s.opState r v).1
    if k = 2 && r.body.space ix port then 1 else k

/-- Elements that a siding holds (R404). -/
def Op.sideElements (o : Op) (e : Edge) : Nat :=
  match o.mem with
  | .siding ts _ => ts.foldl (fun n t => n + t.beats.length * e.p.laneCount - t.sent * e.q.laneCount) 0
  | _ => 0

/-- Entry of an edge in the occupancy map. -/
def State.hangEntry (s : State) (r : Region) (e : Edge) : List Byte :=
  let st (ix : Nat) : Nat := match r.view ix with
    | some v => (s.opState r v).1
    | none => 1
  let side := match e.siding with
    | some k => (match r.body.ops[k]? with
      | some o => o.sideElements e
      | none => 0)
    | none => 0
  toBytes 4 (e.link.length + e.out.length) ++ toBytes 3 side ++ toBytes 1 (s.edgeState r e.sop e.sport) ++ toBytes 1 (st e.dop) ++ zeros 7

def State.hangMap (s : State) (r : Region) : List Byte :=
  toBytes 4 0x4D504F43 ++ toBytes 2 (r.body.edges.length) ++ toBytes 1 r.v ++ toBytes 1 r.die ++
    toBytes 8 (s.die r.die).stime.toNat ++ toBytes 2 r.hangUs ++ zeros 46 ++ r.body.edges.flatMap (s.hangEntry r)

/-- The map of a hang is written where its buffer lies, and then HANG is posted. A write that must wait is tried again
at the next HANG_DETECT of the region; a map that cannot be written at all is left out (R404, 05_memory.md R128; log 40). -/
def State.writeMap (s : State) (r : Region) (bs : List Byte) : State :=
  let done (s : State) : State :=
    (s.setRegion { r with mapDue := none }).postEvent r.job r.die { code := 0x13, srck := 1, index := r.v }
  if r.hangBuf = 0 then done s
  else
    match s.access r.die r.job (s.jobRanges r.job) .write r.hangBuf.toNat bs.length with
    | .ok ts =>
      if s.wsRefuses ts then done s
      else done ((s.bumpWver r.job (ts.filterMap (·.leaf))).hwStore r.job (cells (ts.map (·.loc)) bs))
    | .error (.moving, _) => s.setRegion { r with mapDue := some bs }
    | .error _ => done s

/-- HANG_DETECT: no beat of a RUNNING region has moved for the monitor's interval, or the map of an earlier hang still
waits. -/
def execHangDetect (job region : Nat) (s : State) : Host.Outcome State Fault Refusal :=
  .next (match s.region? job region with
    | none => s
    | some r =>
      match r.mapDue with
      | some bs => s.writeMap r bs
      | none =>
        if r.state ≠ .running || r.hangUs = 0 || (s.die r.die).stime.toNat < r.moved.toNat + r.hangUs * Config.usec then s
        else
          let s' := s.stopRegion r 2
          match s'.region? job region with
          | some r' => s'.writeMap r' (s.hangMap r)
          | none => s')

/-! ### Reloads of a configuration (R363) -/

/-- A reload that failed: the region is STOPPED, and an event in the layout of R356 says so. -/
def State.reloadFailed (s : State) (r : Region) (sub : Nat) : State :=
  let s := if r.state.holdsTiles then s.stopRegion r 5 else s
  let f : ArmFail := { code := 0x14, step := 3, sub := sub }
  s.postEvent r.job r.die { code := 0x14, srck := 1, index := r.v, detail := f.detail }

/-- The configuration words are those of the image again; tile state, sidings and beats stand (R363). -/
def Region.reloaded (r : Region) : Region :=
  { r with body := { r.body with ops := r.body.ops.map (fun o =>
      { o with word := o.armed, deferred := o.forced || bit o.armed.toNat 247 }) } }

/-- A region that a page fault of its re-read stopped goes on as it was. -/
def State.reloadDone (s : State) (r : Region) : State :=
  let r := r.reloaded
  if r.state = .stopped && r.cause = 3 && r.fault.isNone then
    if (s.launchCmds r).any (fun c => isData c.2.op) then s.runOn r none
    else s.setRegion { r with state := .armed, cause := 0 }
  else s.setRegion r

/-- Bytes of a formation image as its home holds them, of a versioned range those of NEWEST (05_memory.md R138). -/
def State.imageBytes (s : State) (job va : Nat) (ts : List Trans) : List Byte :=
  (ts.zip (s.engineBytes job [] va ts)).map (fun p =>
    if rgVers p.1.entry then p.2 else (s.homeBytes [p.1.loc]).headD 0)

/-- The image is read again and checked as in step 3 of R358. While the reading waits, the region's beats are frozen. -/
def State.reload (s : State) (r0 : Region) : State :=
  let r := { r0 with reloading := false }
  let s := s.setRegion r
  match s.access r.die r.job (s.jobRanges r.job) .read r.imgVa.toNat r.imgLen with
  | .ok ts =>
    let req := match s.job? r.job with
      | some j => bit j.record.toNat 9
      | none => false
    (match imageSound (s.imageBytes r.job r.imgVa.toNat ts) s.depot.signKey req with
      | some f => s.reloadFailed r f.sub
      | none => s.reloadDone r)
  | .error (.page level cause, va) =>
    let (_, s) := s.pageFault r.die r.job (.reread r.v) va 0 .read level cause
    if r.state = .running || r.state = .armed then s.stopRegion r 3 else s
  | .error (.data home pa, _) => (s.eccHit home pa).reloadFailed r 30
  | .error (.moving, _) => s.setRegion { r with reloading := true }
  | .error _ => s.reloadFailed r 30

/-- CONFIG_SOFT_ERROR: the formation store finds an error in the region's configuration (R363, 23_fleet.md R429). -/
def execConfigSoftError (job region : Nat) (s : State) : Host.Outcome State Fault Refusal :=
  .next (match s.region? job region with
    | none => s
    | some r =>
      let s := s.setDie r.die ((s.die r.die).count (fun k => { k with cfgsoft := k.cfgsoft + 1 }))
      s.reload r)

/-! ### The 64 microsecond bound (02_execution.md R58) -/

/-- An `arm` whose reading came to its bound fails at the step that it stood in: 1 before it has its header, else 2 (R62). -/
def State.armTimeout (s : State) (job q : Nat) (c : Cmd) (va : Nat) : State :=
  let v := c.region
  let r := match s.region? job v with
    | some r => if c.progress = 2 then r else Region.rebound r (cmdA c.word.toNat)
    | none => Region.bound job v c.desc (cmdA c.word.toNat)
  s.armEnd job q c r { code := 0x1A, step := if c.progress = 2 then 2 else 1, sub := 30, addr := va }

/-- ACCESS_TIMEOUT: an access still outstanding at the bound faults with LINK; at a port it is ACCESS (log 40). -/
def execAccessTimeout (p : Party) (s : State) : Host.Outcome State Fault Refusal :=
  .next (match p with
    | .task die seq ctx =>
      (match s.ctx? die seq ctx with
        | none => s
        | some c =>
          match c.stalled with
          | some (va, t) => if s.overdue c.job c.die va t then s.trapTask c 0x1A va (detailOf c.ip 0) else s
          | none => s)
    | .command job q tln =>
      (match s.cmd? job q tln with
        | none => s
        | some c =>
          match c.stalled with
          | some (va, t) =>
            if c.phase ≠ .running || !s.overdue job (s.queueDie job q) va t then s
            else if c.op = 0x08 then s.armTimeout job q c va
            else
              (match s.txrun? job q tln with
                | some x => s.txTimeout c x va
                | none => (s.commandLost job q c).failCmd job q c 0x1A 0 va)
          | none => s)
    | .port job v ix =>
      (match s.region? job v with
        | none => s
        | some r =>
          match r.view ix, r.stalls.find? (fun x => x.1 == ix) with
          | some o, some (_, va, t) =>
            if r.state = .running && s.overdue job r.die va t then
              s.setRegion ((r.unstall o).trapped o (portTrap 0x0C 0 0 va 0))
            else s
          | _, _ => s))

end Sys2Proof.Machine
end

