-- ==== Sys2Proof/Machine/HostPorts.lean ====
section
/-! DEFINITION. Host ports, job records, how a job starts and ends, the hardware semaphore and window entries
(20_host.md R375-R386). -/

namespace Sys2Proof.Machine

/-! ### Ports and their registers (R375, R376) -/

def State.port (s : State) (p : Nat) : Port := vget s.ports p Port.reset
def State.setPort (s : State) (p : Nat) (x : Port) : State := { s with ports := vset s.ports p x }

/-- The port's link is up: its die is live, and some die runs Depot (22_bringup.md R408, R414). -/
def State.portUp (s : State) (p : Nat) : Bool :=
  decide (p < 2) && (s.die (portDie p)).state == .live && s.depot.die.isSome

/-- The registers of R376 are in force: the port is up, and Depot is not in recovery mode (22_bringup.md R419). -/
def State.portInForce (s : State) (p : Nat) : Bool := s.portUp p && !s.depot.recovery

/-- INTSTAT bits that become 1. -/
def State.raiseInt (s : State) (p bits : Nat) : State :=
  let x := s.port p
  s.setPort p { x with intstat := x.intstat ||| BitVec.ofNat 64 bits }

/-- SEM[n] as a read returns it (R379). -/
def State.sem (s : State) (n : Nat) : Word64 :=
  match s.sems.find? (fun e => e.n == n) with
  | some e => BitVec.ofNat 64 (2 ^ 63 + e.owner % 2 * 2 ^ 62 + e.token.toNat)
  | none => 0

/-- The port that owns SEM[n]. -/
def State.semOwner (s : State) (n : Nat) : Option Nat := (s.sems.find? (fun e => e.n == n)).map (·.owner)

/-- The word that a port's WINSEL selects (R386). -/
def State.winWord (s : State) (p : Nat) : Word64 :=
  let w := (s.port p).winsel.toNat
  vget (vget s.windows (bf w 0 4) (Vector.replicate 4 0)) (bf w 4 2) 0

/-- What a read of the register at an offset of BAR0 returns, where reading changes nothing (R375, R376, R419). -/
def State.portRead (s : State) (p off : Nat) : Word64 :=
  let x := s.port p
  if off = 0 then
    BitVec.ofNat 64 (p % 2 + s.livedies.toNat * 2 ^ 4 + 2 ^ 8 + b2n s.depot.recovery * 2 ^ 16)
  else if s.depot.recovery then
    (if off = 0x3000 then BitVec.ofNat 64 x.rcvstat else if off = 0x3008 then x.rcvaddr
     else if off = 0x3010 then x.rcvlen else 0)
  else if off = 8 then x.apbase
  else if off = 0x18 then x.jobres
  else if off = 0x28 then x.intstat
  else if 0x1000 ≤ off && off < 0x1200 && off % 8 = 0 then s.sem ((off - 0x1000) / 8)
  else if off = 0x2000 then x.winsel
  else if off = 0x2008 then s.winWord p
  else 0

/-! ### Aperture accesses (R377) -/

/-- JOBDB and JOBCTL release the port's writes to package scope (R377): what the release makes available, and the state. -/
def State.portRelease (s : State) (p : Nat) : View × State :=
  let (view, rel) := s.viewOf hostJob p
  let (r, s) := s.release (hostAgent p) 4 view rel
  (r.view, s.setView hostJob p view rel)

/-- What the agents of the job released whose completion word lies at these locations; it outlives the job's number. -/
def State.endedAt (s : State) (ls : List Nat) : View :=
  match s.endWords.find? (fun e => e.locs == ls) with
  | some e => e.view
  | none => []

/-- Every release of a job's agents to package scope or wider, as one view. -/
def State.jobReleases (s : State) (job : Nat) : View :=
  s.releases.foldl (fun v r => if r.by_.job == job && 4 ≤ r.inst.scope then unionNat v r.view else v) []

/-- What happens before a write of the host: what its port knows, and the stores of the hardware that stand where it writes,
which a host sees at their homes (log 8). -/
def State.hostKnows (s : State) (view : View) (ls : List Nat) : View :=
  unionNat view ((s.placedAt ls).filter (fun i => (s.store? i).any (fun r => r.agent == hwNum)))

/-- A read through the aperture, at locations that it reaches. -/
def State.apertureRead (s : State) (p : Nat) (ls : List Nat) : State :=
  let (view, rel) := s.viewOf hostJob p
  let v := ofBytes (s.readBytes hostJob (unionNat view s.hwStores) ls)
  let view' := if 1 ≤ v % 256 && v % 256 ≤ 3 then unionNat view (s.endedAt ls) else view
  (s.setPort p { s.port p with rdata := BitVec.ofNat 64 v }).setView hostJob p view' rel

/-- A write through the aperture. One to a busy weight store writes nothing (05_memory.md R129), and no rule says how the
host hears of it: nothing is reported (log 89). -/
def State.apertureWrite (s : State) (p : Nat) (ls : List Nat) (v : Word64) : State :=
  if s.wsHit ls then s
  else
    let (view, rel) := s.viewOf hostJob p
    let (i, s) := s.storeNow (hostAgent p) (cells ls (toBytes 8 v.toNat)) (s.hostKnows view ls) true
    s.setView hostJob p (insertNat i view) rel

/-- An operation that must wait at its port goes behind those that wait there (21_paging.md R390). -/
def State.portWaits (s : State) (port : Nat) (o : PortOp) : State :=
  s.setPort port { s.port port with waiting := (s.port port).waiting ++ [o] }

/-- A host port at the gate of its die's host DMA (23_fleet.md R424). -/
def hostGate (port : Nat) : GateWait :=
  { kind := 6, unit := 0, job := hostJob, qid := port, tln := 0, part := 0, owes := Bill.zero }

/-- An access of 8 bytes at a physical address (log 41): the state after it, or, `inl`, that in which it waits for its home or
for budget. -/
def State.apertureTry (s : State) (port pa : Nat) (write : Bool) (v : Word64) : State ⊕ State :=
  let die := portDie port
  match (upFrom pa 8).mapM (fun a => (s.resolvePa a).toOption) with
  | none => .inr (if write then s else s.setPort port { s.port port with rdata := BitVec.allOnes 64 })
  | some xs =>
    let ls := xs.map (·.1)
    if xs.any (fun x => !s.reach die x.2) || ls.any s.wsClosed then .inl s
    else
      let home := (xs.head?.map (·.2)).getD die
      let bill : Bill :=
        { reqs := if ls.headD 0 < 2 ^ 44 then 1 else 0, cells := if home = die then 0 else 1, work := 0, per := 0 }
      match s.passBill die (hostGate port) bill Bill.zero with
      | .inl s => .inl s
      | .inr s =>
        .inr (if write then s.apertureWrite port ls v
          else
            match xs.find? (fun x => s.badBytes.contains x.1) with
            | some x =>
              let (k, s) := (s.eccHit x.2 pa).fresh
              s.setPort port { s.port port with rdata := Config.badRead k }
            | none => s.apertureRead port ls)

/-- A host access at APBASE + `off`. It stands behind accesses of its port that wait (21_paging.md R390). -/
def execApertureAccess (port off : Nat) (write : Bool) (v : Word64) (s : State) : Host.Outcome State Fault Refusal :=
  .next (
    let pa := (s.port port).apbase.toNat + off
    let o : PortOp := { register := false, write := write, off := pa, value := v }
    if !s.portInForce port || 2 ^ 32 ≤ off then s
    else if (s.port port).waiting ≠ [] then s.portWaits port o
    else
      match s.apertureTry port pa write v with
      | .inl s => s.portWaits port o
      | .inr s => s)

/-! ### Job records (R381, R382) -/

/-- Bytes at a physical address that can be read; an error in their data is met (R382, 23_fleet.md R431). -/
def State.readHome (s : State) (pa n : Nat) : Option Nat × State :=
  match s.paLocs pa n with
  | none => (none, s)
  | some ls =>
    if ls.any s.badBytes.contains then (none, s.eccHit (locDie (ls.headD 0)) pa)
    else (some (ofBytes (s.homeBytes ls)), s)

/-- A record has no reserved bit set and every field within its range (R381, code 3 of R382). -/
def recordOk (w : Nat) : Bool :=
  let f := bf w
  let aligned (x n : Nat) : Bool := x % n == 0
  f 968 56 == 0 && f 880 8 == 0 && f 824 8 == 0 && f 736 32 == 0 && f 644 4 == 0 && f 576 8 == 0 && f 384 16 == 0 &&
    f 328 8 == 0 && f 12 4 == 0 && f 6 2 == 0 && f 952 16 ≤ 640 && aligned (f 896 56) 65536 &&
    (f 952 16 != 0 || f 896 56 == 0) && f 888 8 ≤ 64 && aligned (f 832 48) 16 && aligned (f 768 56) 8 && f 640 4 ≤ 7 &&
    aligned (f 400 48) 8 && aligned (f 336 48) 32 && 4 ≤ f 320 8 && f 320 8 ≤ 16 && aligned (f 256 64) 64 &&
    f 312 8 == 0 && aligned (f 192 64) 8 && (bit w 10 || f 128 64 == 0) && aligned (f 64 64) 128 &&
    (if bit w 10 then f 48 16 == 0 else f 48 16 ≤ f 32 16) && (f 16 16 == 0xFFFF || f 16 16 ≤ f 32 16)

def entriesOf (n k w : Nat) : List Nat := (upFrom 0 n).map (fun i => bf w (k * i) k)

/-- The spill area lies within one direct range that permits read and write (R382, 02_execution.md R46). -/
def spillOk (w : Nat) (ranges : List (BitVec 256)) : Bool :=
  let n := bf w 952 16
  let base := bf w 896 56
  n == 0 || (match findRange ranges base with
    | some (_, e) => !rgVers e && !bit e.toNat 87 && bit (rg e 83 4) 3 && bit (rg e 83 4) 2 &&
        decide (base + n * 2 ^ 20 ≤ (rgVlast e + 1) * 2 ^ 16)
    | none => false)

/-- Code 5 of R382 does not apply. -/
def rangesOk (w : Nat) (ranges : List (BitVec 256)) : Bool :=
  ranges.all (fun e => !bit e.toNat 0 ||
    (!rangeIllFormed e && !(rgVers e && (rg e 146 2 == 3 || 3 * 2 ^ 46 ≤ poolPa e 0)))) && spillOk w ranges

/-- Bytes of berths that a record asks for on each die. -/
def berthBytes (w : Nat) : Nat := bf w 704 16 * 2 ^ (16 + bf w 640 4)

/-- What a submission comes to: the result code of R382, the job number, and, where it is accepted, the record and the
range table. -/
structure Verdict where
  code : Nat
  job : Nat
  record : Nat
  ranges : List (BitVec 256)

/-- The checks of R382 in order. -/
def State.verdict (s : State) (pa : Nat) : Verdict × State :=
  match s.readHome pa 128 with
  | (none, s) => ({ code := 2, job := 0, record := 0, ranges := [] }, s)
  | (some w, s) =>
    let no (c : Nat) (rs : List (BitVec 256)) : Verdict := { code := c, job := bf w 0 6, record := w, ranges := rs }
    match s.readHome (bf w 336 48) 2048 with
    | (none, s) => (no 2 [], s)
    | (some r, s) =>
      match s.readHome (bf w 400 48) 512 with
      | (none, s) => (no 2 [], s)
      | (some l, s) =>
        let rs := (entriesOf 64 256 r).map (BitVec.ofNat 256)
        (no (if !recordOk w then 3
          else if (s.job? (bf w 0 6)).isSome then 4
          else if !rangesOk w rs then 5
          else if (entriesOf 64 64 l).any (fun e => bit e 63 && s.relocBad e) then 6
          else if 48 * 2 ^ 20 < ((s.jobs.filter (fun j => j.ended.isNone)).map (fun j => berthBytes j.record.toNat)).foldl
              (· + ·) (berthBytes w) then 7
          else 1) rs, s)

/-- Nothing of an earlier job of the same number is left. -/
def State.forgetJob (s : State) (job : Nat) : State :=
  { s with
    releases := s.releases.filter (fun r => r.by_.job != job)
    views := s.views.filter (fun v => v.job != job)
    words := s.words.map (fun w => { w with rels := w.rels.filter (fun r => r.by_.job != job) })
    phases := s.phases.filter (fun p => p.at_.job != job)
    staffs := s.staffs.filter (fun p => p.job != job)
    slots := s.slots.filter (fun p => p.job != job)
    pubs := s.pubs.filter (fun p => p.job != job)
    transit := s.transit.filter (fun p => p.job != job)
    reductions := s.reductions.filter (fun p => p.job != job)
    tasks := s.tasks.filter (fun p => p.job != job)
    ctxs := s.ctxs.filter (fun p => p.job != job)
    queues := s.queues.filter (fun p => p.job != job)
    txruns := s.txruns.filter (fun p => p.job != job)
    colls := s.colls.filter (fun p => p.job != job)
    regions := s.regions.filter (fun p => p.job != job) }

/-- Step 1 of R383: the job is resident, and its ranges are created. The job engine reads the arm list with what the
release of the doorbell brought to it. -/
def State.accept (s : State) (pa : Nat) (view : View) (v : Verdict) : State :=
  let s := s.forgetJob v.job
  let arms := match s.paLocs (bf v.record 832 48) (16 * bf v.record 888 8) with
    | some ls => (entriesOf (bf v.record 888 8) 128 (ofBytes (ls.map (s.knownByte view)))).map (BitVec.ofNat 128)
    | none => []
  s.setJob {
    num := v.job, record := BitVec.ofNat 1024 v.record, recPa := pa, ranges := v.ranges, createdAt := s.homeClock,
    stamp := #v[(s.die 0).stime, (s.die 1).stime, (s.die 2).stime, (s.die 3).stime], started := false, ended := none,
    cancelling := false, held := false, arms := arms, view := view }

/-- The job engine takes a doorbell, with what its release made available (R382, R383). -/
def State.submit (s : State) (port : Nat) (v : Word64) (view : View) : State :=
  let pa := bf v.toNat 6 42 * 64
  let (x, s) := s.verdict pa
  let s := if x.code = 1 then s.accept pa view x else s
  let s := s.setPort port { s.port port with jobres := BitVec.ofNat 64 (2 ^ 15 + x.job % 64 * 2 ^ 8 + x.code) }
  (s.raiseInt port 1).raiseVector port 64

/-- Doorbells that were held are taken, port A's first (R382, 22_bringup.md R413, R415). -/
def State.takeHeld (s : State) : State :=
  let h := s.depot.held.filter (·.1 == 0) ++ s.depot.held.filter (·.1 != 0)
  h.foldl (fun s x => s.submit x.1 x.2.1 x.2.2) { s with depot := { s.depot with held := [] } }

/-- JOBDB obeys its layout (R376). -/
def doorbellOk (v : Word64) : Bool := bf v.toNat 48 16 == 0 && bf v.toNat 0 6 == 0

/-- A write of JOBDB (R377, R382): while the job engine is closed, the doorbell is held. It waits behind writes of its port
that it must release. -/
def State.doorbell (s : State) (port : Nat) (v : Word64) : State :=
  if !s.portInForce port || !doorbellOk v then s
  else if (s.port port).waiting ≠ [] then s.portWaits port { register := true, write := true, off := 0x10, value := v }
  else
    let (view, s) := s.portRelease port
    if s.depot.open_ then s.submit port v view
    else { s with depot := { s.depot with held := s.depot.held ++ [(port, v, view)] } }

def execJobSubmit (port : Nat) (v : Word64) (s : State) : Host.Outcome State Fault Refusal := .next (s.doorbell port v)

/-! ### A job starts (R383) -/

/-- The arm of a job's arm list that has started: its queue and command. -/
def State.listedArm (s : State) (job : Nat) : Option (Nat × Cmd) :=
  s.queues.findSome? (fun q => if q.job = job then (q.started.find? (fun c => c.tln == 0)).map (fun c => (q.qid, c)) else none)

/-- Step 2: the next arm starts under number 0 on its region's queue; a command that is no arm is rejected (log 42). -/
def State.startArm (s : State) (job : Nat) (w : CmdWord) (view : View) : State :=
  let c : Cmd := { tln := 0, word := w, cls := 0, deadline := 0, view := view, phase := .running, progress := 0, buf := [],
                   desc := 0, stalled := none, node := none, counted := [] }
  let q := c.region
  match (if c.op = 8 then s.headCheck job q c else some 1) with
  | some k => s.finishCmd job q c (.rejected k)
  | none =>
    let x := s.queue job q
    s.setQueue { x with started := x.started ++ [c] }

/-- Step 3 for one record. -/
def State.startTask (s : State) (job i : Nat) : State :=
  match s.taskRec job i with
  | none => s
  | some w =>
    if !recValid w then s
    else
      let w0 := putField (w % 2 ^ 64) 50 6 job
      if recCount w = 0 then (s.setWord0 job i w0).makeReady job i
      else s.setWord0 job i (putField w0 56 4 0)

/-- Steps 3 and 4. -/
def State.startJob (s : State) (j : Job) : State :=
  let s := s.setJob { j with started := true }
  let s := (upFrom 0 j.tasks).foldl (fun s i => s.startTask j.num i) s
  if j.f 10 1 = 1 then s.requestReplay j.num (BitVec.ofNat 64 (j.f 128 64)) (s.dieFor 0) else s

/-- One turn of a job that starts: an arm that has ended finishes, the next one starts, or, when none is left, the
tasks are made ready. -/
def execJobStart (job : Nat) (s : State) : Host.Outcome State Fault Refusal :=
  .next (match s.resident? job with
    | none => s
    | some j =>
      if j.started || j.cancelling then s
      else
        match s.listedArm job with
        | some (q, c) =>
          (match c.phase with
            | .ended r => s.finishCmd job q c r
            | _ => s)
        | none =>
          match j.arms with
          | w :: rest => (s.setJob { j with arms := rest }).startArm job w j.view
          | [] => s.startJob j)

/-! ### A job ends (R385) -/

/-- Every task is DONE or CANCELLED, every queue is empty, and no replay is left (02_execution.md R48; log 43). -/
def State.jobDone (s : State) (j : Job) : Bool :=
  (j.started || j.cancelling) &&
    (upFrom 0 j.tasks).all (fun i => match s.taskRec j.num i with
      | some w => !recValid w || recState w == 4 || recState w == 5
      | none => (s.hwMissed j.num (j.recVa i) 64).isNone) &&
    s.queues.all (fun q => q.job != j.num || (q.onChip.isEmpty && q.spill.isEmpty && q.started.isEmpty)) &&
    [0, 1, 2, 3].all (fun d => (s.die d).replays.all (fun r => r.1 != j.num) && (s.die d).running.all (fun r => r.job != j.num))

/-- A resident job ends with a state of R385: 1 completed, 2 cancelled, 3 a die was lost. -/
def State.endJob (s : State) (j : Job) (state : Nat) : State :=
  let now := (s.die (s.dieFor (portDie j.evPort))).stime.toNat
  let s := s.hwWrite j.num (j.f 768 56) 8 (now / 256 * 256 + state)
  let s : State := match s.hwLocs j.num (j.f 768 56) 8 with
    | some ls => { s with endWords :=
        { locs := ls, view := s.jobReleases j.num } :: s.endWords.filter (fun e => e.locs != ls) }
    | none => s.hwTouch j.num (j.f 768 56) 8
  let s := s.raiseVector j.evPort j.num
  let s := [0, 1, 2, 3].foldl (fun s d =>
    let x := s.die d
    s.setDie d { x with
      berths := x.berths.filter (fun b => b.job != j.num)
      fills := x.fills.filter (fun f => f.job != j.num)
      faults := x.faults.filter (fun f => f.job != j.num)
      gates := x.gates.filter (fun g => g.job != j.num) }) s
  let s := { s with regions := s.regions.filter (fun r => r.job != j.num) }
  (s.setJob { j with ended := some state, arms := [], held := false }).wakeSaved

def execJobEnd (job : Nat) (s : State) : Host.Outcome State Fault Refusal :=
  .next (match s.resident? job with
    | none => s
    | some j =>
      if s.jobDone j then s.endJob j (if j.cancelling then 2 else 1)
      else (upFrom 0 j.tasks).foldl (fun s i => if (s.taskRec job i).isNone then s.recTouch job i else s) s)

/-! ### JOBCTL (R385) -/

/-- A write of JOBCTL that obeys its layout releases the port's writes (R377) and then acts. It waits behind writes of its
port that it must release. -/
def State.jobctl (s : State) (port action job : Nat) (act : State → State) : State :=
  if !s.portInForce port then s
  else if (s.port port).waiting ≠ [] then
    s.portWaits port { register := true, write := true, off := 0x20, value := BitVec.ofNat 64 (action * 2 ^ 8 + job % 64) }
  else act (s.portRelease port).2

def State.jobCancel (s : State) (port job : Nat) : State := s.jobctl port 1 job (fun s => s.cancelJob (job % 64))

def execJobCancel (port job : Nat) (s : State) : Host.Outcome State Fault Refusal := .next (s.jobCancel port job)

/-- Held launches are released, and the pager owes the job's NOFRAME faults another answer (21_paging.md R400). -/
def State.jobRelease (s : State) (port job : Nat) : State :=
  s.jobctl port 2 job (fun s =>
    match s.resident? (job % 64) with
    | none => s
    | some j =>
      [0, 1, 2, 3].foldl (fun s d =>
        let x := s.die d
        s.setDie d { x with faults := x.faults.map (fun f => 
          if f.job == j.num && f.noframe then { f with noframe := false, again := true } else f) })
        (s.setJob { j with held := false }))

def execJobRelease (port job : Nat) (s : State) : Host.Outcome State Fault Refusal := .next (s.jobRelease port job)

/-- An ended job's number becomes free. -/
def State.jobRetire (s : State) (port job : Nat) : State :=
  s.jobctl port 3 job (fun s => { s with jobs := s.jobs.filter (fun j => !(j.num == job % 64 && j.ended.isSome)) })

def execJobRetire (port job : Nat) (s : State) : Host.Outcome State Fault Refusal := .next (s.jobRetire port job)

/-! ### The other registers (R376, R379, R380, R386) -/

/-- A read of JOBRES returns the result and clears it. -/
def execJobres (port : Nat) (s : State) : Host.Outcome State Fault Refusal :=
  .next (if s.portInForce port then
    s.setPort port { s.port port with rdata := (s.port port).jobres, jobres := 0 } else s)

/-- A write of INTSTAT clears the bits written as 1. -/
def State.intstat (s : State) (port : Nat) (v : Word64) : State :=
  if s.portInForce port then
    s.setPort port { s.port port with intstat := (s.port port).intstat &&& ~~~v }
  else s

def execIntstat (port : Nat) (v : Word64) (s : State) : Host.Outcome State Fault Refusal := .next (s.intstat port v)

/-- A write of SEM[n] (R379). -/
def State.semWrite (s : State) (port n : Nat) (v : Word64) : State :=
  if !s.portInForce port || 64 ≤ n then s
  else
    match s.semOwner n with
    | none =>
      if bf v.toNat 0 32 = 0 then s
      else { s with sems := { n := n, owner := port, token := v.setWidth 32 } :: s.sems }
    | some o =>
      if o = port && bf v.toNat 0 32 = 0 then { s with sems := s.sems.filter (fun e => e.n != n) } else s

def execSemWrite (port n : Nat) (v : Word64) (s : State) : Host.Outcome State Fault Refusal := .next (s.semWrite port n v)

/-- A write of WINDATA, which takes effect from the owner of SEM[0] (R386). -/
def State.windata (s : State) (port : Nat) (v : Word64) : State :=
  if !s.portInForce port || s.semOwner 0 != some port then s
  else
    let w := (s.port port).winsel.toNat
    let entry := vget s.windows (bf w 0 4) (Vector.replicate 4 0)
    { s with windows := vset s.windows (bf w 0 4) (vset entry (bf w 4 2) v) }

def execWindata (port : Nat) (v : Word64) (s : State) : Host.Outcome State Fault Refusal := .next (s.windata port v)

/-- The oldest operation that waits at a port is tried again (21_paging.md R390). -/
def State.apertureTurn (s : State) (port : Nat) : State :=
  match (s.port port).waiting with
  | [] => s
  | o :: rest =>
    if !s.portInForce port then s
    else
      let s' := s.setPort port { s.port port with waiting := rest }
      if o.register then
        -- it has come to the head: it acts, and what stands behind it goes on waiting
        let t := s.setPort port { s.port port with waiting := [] }
        let t := if o.off = 0x10 then t.doorbell port o.value
          else
            match bf o.value.toNat 8 3 with
            | 1 => t.jobCancel port (bf o.value.toNat 0 6)
            | 2 => t.jobRelease port (bf o.value.toNat 0 6)
            | 3 => t.jobRetire port (bf o.value.toNat 0 6)
            | k => t.jobctl port k (bf o.value.toNat 0 6) id
        t.setPort port { t.port port with waiting := rest }
      else
        match s'.apertureTry port o.off o.write o.value with
        | .inl t => t.setPort port { t.port port with waiting := o :: rest }
        | .inr t => t

/-- A reset of a host port (R380). -/
def execHostPortReset (port : Nat) (s : State) : Host.Outcome State Fault Refusal :=
  .next (if 2 ≤ port then s
    else
      let s := { s with sems := s.sems.filter (fun e => e.owner != port) }
      let s := s.setPort port { s.port port with apbase := 0, jobres := 0, waiting := [] }
      let s := s.dropGate (portDie port) (hostGate port)
      s.raiseInt (1 - port) 2)

end Sys2Proof.Machine
end

