-- ==== Sys2Proof/Machine/Pager.lean ====
section
/-! DEFINITION. The pager: fault records, how a fault ends, swaps of page entries, and the requests UNMAP and MIGRATE
(21_paging.md R389-R400). -/

namespace Sys2Proof.Machine

/-- The pager runs: Depot does, and not in recovery mode. -/
def State.pagerUp (s : State) : Bool := s.depot.die.isSome && !s.depot.recovery

/-- Bytes of the hardware's own structures at a physical address. -/
def State.paRead (s : State) (pa n : Nat) : Nat := (s.readPa pa n).getD 0

def State.paWrite (s : State) (pa n v : Nat) : State :=
  match s.paLocs pa n with
  | some ls => s.hwStore hostJob (cells ls (toBytes n v))
  | none => s

/-! ### Frames (R390) -/

/-- Physical address of frame `n` of a pool: 0 interleaved, 1 + d local to die d. -/
def framePa (pool n : Nat) : Nat := if pool = 0 then paOf 0 0 (n * 2 ^ 16) else paOf 1 (pool - 1) (n * 2 ^ 16)

/-- PUT and GET of a pool's frame ring. -/
def State.frameRing (s : State) (pool : Nat) : Nat := s.pcbPa (0x10000 * (1 + pool))

/-- A frame of a pool: from the pager's own list, else from the ring. -/
def State.takeFrame (s : State) (pool : Nat) : Option (Nat × State) :=
  match s.depot.free.find? (·.1 == pool) with
  | some f => some (f.2, { s with depot := { s.depot with free := s.depot.free.erase f } })
  | none =>
    let base := s.frameRing pool
    let put := s.paRead base 8
    let get := s.paRead (base + 8) 8
    if put ≤ get then none
    else some (s.paRead (base + 64 + 4 * (get % 16368)) 4 % 2 ^ 28, s.paWrite (base + 8) 8 (get + 1))

/-- The pool holds no frame, and neither does the pager's list. -/
def State.poolEmpty (s : State) (pool : Nat) : Bool := (s.takeFrame pool).isNone

def State.giveFrame (s : State) (pool n : Nat) : State :=
  { s with depot := { s.depot with free := s.depot.free ++ [(pool, n)] } }

/-- The bytes at these locations are new: nothing that was stored there is known any more, and they read 0. -/
def State.zeroLocs (s : State) (ls : List Nat) : State :=
  { s with
    mem := ls.foldl (fun m l => m.write l 0) s.mem
    history := s.history.map (fun r => { r with bytes := r.bytes.filter (fun c => !ls.contains c.1) })
    badBytes := s.badBytes.filter (fun l => !ls.contains l) }

/-- Every store that has not reached its home does so, where it covers one of the locations (R394, R395). -/
def State.landAll (s : State) (ls : List Nat) : State :=
  (upFrom 0 s.history.length).foldl (fun s i =>
    match s.history[i]? with
    | some r => if r.placed = 0 && ls.any r.covers then s.place i else s
    | none => s) s

/-- A copy of bytes by the pager, from locations to as many others. A copied byte is the byte that was stored: the
stores that an agent knows of at the old location it knows of at the new one (06_ordering.md R145; log 45). -/
def State.copyLocs (s : State) (src dst : List Nat) : State :=
  let s := s.landAll src
  let pairs : List (Nat × Nat) := src.zip dst
  let s : State := { s with
    mem := s.mem.writeCells (pairs.map (fun p => (p.2, s.mem.read p.1)))
    badBytes := s.badBytes.filter (fun l => !dst.contains l) ++
      (pairs.filter (fun p => s.badBytes.contains p.1)).map Prod.snd }
  let moved (r : StoreRec) : List Host.Cell :=
    r.bytes.filter (fun c => !dst.contains c.1) ++
      pairs.filterMap (fun p => (r.bytes.find? (fun c => c.1 == p.1)).map (fun c => (p.2, c.2)))
  { s with history := s.history.map (fun r => { r with bytes := moved r }) }

/-- Bytes at these locations wait: for a bank of a weight store (05_memory.md R128), or, to be written, for a weight store
that is busy (R129; log 45). -/
def State.paWaits (s : State) (ls : List Nat) (write : Bool) : Bool := ls.any s.wsClosed || (write && s.wsHit ls)

/-- The bytes at a physical address can be read, or written, now. -/
def State.paReady (s : State) (pa n : Nat) (write : Bool) : Bool :=
  match s.paLocs pa n with
  | some ls => !s.paWaits ls write
  | none => true

/-- One 64 KiB page from a physical address to another; none where either cannot be reached. -/
def State.copyPage (s : State) (src dst : Nat) : Option State :=
  match s.paLocs src 65536, s.paLocs dst 65536 with
  | some a, some b => some (s.copyLocs a b)
  | _, _ => none

/-! ### The pager interface and swaps (R393-R395) -/

def State.setPgr (s : State) (d : Nat) (p : PagerIf) : State := s.setDie d { s.die d with pager := p }

/-- Address of the entry that PGEA names. -/
def PagerIf.entry (p : PagerIf) : Nat := bf p.pgea.toNat 4 44 * 16

/-- What a started command writes at this leaf from now on is counted anew (log 100). -/
def State.countAnew (s : State) (leaf : Nat) : State :=
  let anew (c : Cmd) : Cmd := { c with counted := c.counted.filter (fun e => e.1 != leaf) }
  { s with queues := s.queues.map (fun x => { x with started := x.started.map anew }) }

/-- WVER of the entry at a physical address: the stores on their way through the entry are counted and land first, and what a
command has yet to write is not in the count, so that every write counted in the value has landed (R394). -/
def State.wverAt (s : State) (pa : Nat) : Nat × State :=
  match s.paLocs pa 16 with
  | some ls =>
    let s := (s.landPath [ls.headD 0]).countAnew (ls.headD 0)
    (bf (ofBytes (s.homeBytes ls)) 96 32, s)
  | none => (0, s)

/-- PGSWAP := 1, step 1 of R395: the stores on their way through the entry are counted and land, WVER is compared with PGEXP,
and the entry becomes moving. -/
def State.swapStart (s : State) (d : Nat) : State :=
  let p := (s.die d).pager
  if p.busy then s
  else
    match s.paLocs p.entry 16 with
    | none => s.setPgr d { p with ok := false }
    | some ls =>
      let s := s.landPath [ls.headD 0]
      if bf (ofBytes (s.homeBytes ls)) 96 32 ≠ p.pgexp.toNat then s.setPgr d { p with ok := false }
      else { s.setPgr d { p with busy := true, swapAt := p.entry } with moving := ls.headD 0 :: s.moving }

/-- Steps 2 and 3: every access through the old entry, and what it leads to, has reached its home, bits 63:0 of the entry
that step 1 took up become PGNEW, and WVER is kept. -/
def State.swapEnd (s : State) (d : Nat) : State :=
  let p := (s.die d).pager
  if !p.busy || !s.paReady p.swapAt 8 true then s
  else
    let s := s.setPgr d { p with ok := true, busy := false }
    match s.paLocs p.swapAt 16 with
    | none => s
    | some ls =>
      let s := s.landPath [ls.headD 0]
      { s.paWrite p.swapAt 8 p.pgnew.toNat with moving := s.moving.erase (ls.headD 0) }

/-- PGSWAP: a swap is started on a die's pager interface. -/
def execPgswap (die : Nat) (s : State) : Host.Outcome State Fault Refusal :=
  .next (if s.pagerUp then s.swapStart die else s)

/-- SWAP_COMPLETE: a swap that has been started comes to its end. -/
def execSwapComplete (die : Nat) (s : State) : Host.Outcome State Fault Refusal := .next (s.swapEnd die)

/-- The die whose pager interface Depot works with: its own (log 45). -/
def State.pagerDie (s : State) : Nat := s.depot.die.getD 0

/-- The pager replaces an entry through a swap that nothing comes between: its WVER is read, the swap is started and it
completes. -/
def State.swapNow (s : State) (pa new : Nat) : State :=
  let d := s.pagerDie
  let (w, s) := s.wverAt pa
  let s := s.setPgr d { (s.die d).pager with
    pgea := BitVec.ofNat 64 pa, pgexp := BitVec.ofNat 32 w, pgnew := BitVec.ofNat 64 new }
  (s.swapStart d).swapEnd d

/-! ### Page entries (R122, R392) -/

/-- Bits of an entry that must be 0 (R122), and its PLACE and PDIE. -/
def pteOk (w : Nat) : Bool := bf w 60 36 == 0 && bf w 10 18 == 0 && bf w 2 4 == 0 && placeOk (bf w 30 2) (bf w 28 2)

def pteTarget (w : Nat) : Nat := paOf (bf w 30 2) (bf w 28 2) (bf w 32 28 * 2 ^ 16)

/-- The entry at which a walk for offset `o` ends: its level, its physical address and its value. None where a table
pointer on the way is ill-formed or cannot be read. -/
def State.leafOf (s : State) (o : Nat) : Nat → Nat → Nat → Option (Nat × Nat × Nat)
  | 0, _, _ => none
  | fuel + 1, level, table =>
    let ix := match level with
      | 1 => bf o 31 11
      | 2 => bf o 21 10
      | _ => bf o 16 5
    let pa := table + 16 * ix
    match s.readPa pa 16 with
    | none => none
    | some w =>
      if bf w 0 2 ≠ 1 then some (level, pa, w)
      else if level = 3 || !pteOk w then none
      else s.leafOf o fuel (level + 1) (pteTarget w)

/-- The leaf of a page of a job's paged range. -/
def State.leafAt (s : State) (job va : Nat) : Option (Nat × Nat × Nat) :=
  match findRange (s.jobRanges job) va with
  | some (_, e) =>
    if bit e.toNat 87 && !rgVers e then
      s.leafOf (va - rgVbase e * 2 ^ 16) 3 1 (paOf (rg e 146 2) (rg e 144 2) (rg e 148 28 * 2 ^ 16))
    else none
  | none => none

/-- PLACE and PDIE of a pool, where they stand in an entry. -/
def poolBits (pool : Nat) : Nat := if pool = 0 then 0 else (pool - 1) % 4 * 2 ^ 28 + 2 ^ 30

/-- Bits 63:0 of a valid leaf for a frame, with the PERM of an old entry. -/
def leafFor (w pool n : Nat) : Nat := 2 + bf w 6 4 * 2 ^ 6 + poolBits pool + n % 2 ^ 28 * 2 ^ 32

/-- The pool that a page's frame comes from (R392). -/
def homePool (w : Nat) : Option Nat :=
  match bf w 10 2 with
  | 0 => some 0
  | 1 => some (1 + bf w 12 2)
  | _ => none

/-- The pool of a valid leaf's frame. -/
def framePool (w : Nat) : Option Nat :=
  match bf w 30 2 with
  | 0 => some 0
  | 1 => some (1 + bf w 28 2)
  | _ => none

/-- What the pager can do for a page (R398, R400). -/
inductive Mapping
  | made (s : State)
  | cannot
  | noFrame (pool : Nat)
  /-- a swap under way holds the pager's interface, or bytes that the pager needs wait at a weight store -/
  | wait

/-- The page is made resident from its backing copy, or as zeros, and tables on the way are built, each entry through a
swap (R392, R395). -/
def State.mapPage (s : State) (job va : Nat) : Nat → Mapping
  | 0 => .cannot
  | fuel + 1 =>
    match s.leafAt job va with
    | none => .cannot
    | some (level, pa, w) =>
      if (s.die s.pagerDie).pager.busy || !s.paReady pa 16 true ||
          (s.resolvePa pa).toOption.any (fun x => s.moving.contains x.1) then .wait
      else
      match bf w 0 2 with
      | 0 =>
        if level < 3 then
          if bf w 2 62 ≠ 0 then .cannot
          else
            match s.takeFrame 0 with
            | none => .noFrame 0
            | some (n, s) =>
              match s.paLocs (framePa 0 n) 65536 with
              | none => .cannot
              | some ls => ((s.zeroLocs ls).swapNow pa (1 + n * 2 ^ 32)).mapPage job va fuel
        else
          match homePool w with
          | none => .cannot
          | some pool =>
            (if bf w 28 32 ≠ 0 && !s.paReady (pteTarget w) 65536 false then .wait
            else match s.takeFrame pool with
              | none => .noFrame pool
              | some (n, s) =>
                let filled := if bf w 28 32 = 0 then (s.paLocs (framePa pool n) 65536).map s.zeroLocs
                  else s.copyPage (pteTarget w) (framePa pool n)
                match filled with
                | some s => .made (s.swapNow pa (leafFor w pool n))
                | none => .cannot)
      | 2 => if pteOk w && (level = 3 || bf w 32 28 % (if level = 1 then 2 ^ 15 else 2 ^ 5) = 0) then .made s else .cannot
      | _ => .cannot

/-! ### Fault records (R393, R397) -/

def FaultSrc.code : FaultSrc → Nat
  | .task _ => 0
  | .fetch _ => 1
  | .region _ => 2
  | .command _ _ => 3
  | .reread _ => 4
  | .fill _ _ => 3
  | .hardware => 0

/-- INDEX of a fault record; a walk of the hardware has no party to name (log 95). -/
def FaultSrc.index : FaultSrc → Nat
  | .task i => i
  | .fetch i => i
  | .region v => v
  | .command q _ => q
  | .reread v => v
  | .fill q _ => q
  | .hardware => 0xFFFF

def PageFault.record (f : PageFault) (die : Nat) : Nat :=
  f.token % 2 ^ 48 * 2 ^ 464 + f.va.toNat * 2 ^ 384 + f.stamp.toNat * 2 ^ 320 + f.pc.toNat * 2 ^ 256 +
    f.src.code * 2 ^ 248 + f.kind % 2 ^ 8 * 2 ^ 240 + f.job % 2 ^ 6 * 2 ^ 234 + die % 4 * 2 ^ 232 +
    f.src.index % 2 ^ 16 * 2 ^ 216 + f.level % 2 ^ 8 * 2 ^ 208 + f.cause % 2 ^ 8 * 2 ^ 200

/-- The fault ring has room for another record. -/
def PagerIf.room (p : PagerIf) : Bool :=
  let n := p.pgrlog % 16
  4 ≤ n && n ≤ 12 && decide ((p.pgprod + 2 ^ 64 - p.pgcons) % 2 ^ 64 < 2 ^ n)

/-- FAULT_RECORD_POST: the oldest fault not yet posted goes to the die's ring. -/
def execFaultRecordPost (die : Nat) (s : State) : Host.Outcome State Fault Refusal :=
  let x := s.die die
  .next (match x.faults.find? (fun f => !f.posted) with
    | none => s
    | some f =>
      let ring := bf x.pager.pgrbase.toNat 6 42 * 64
      if !x.pager.room || !s.paReady (ring + 64 * (x.pager.pgprod % 2 ^ (x.pager.pgrlog % 16))) 64 true then s
      else
        let s := s.setDie die { x with
          pager := { x.pager with pgprod := x.pager.pgprod + 1 }
          faults := x.faults.map (fun g => if g.token = f.token then { g with posted := true } else g) }
        s.paWrite (ring + 64 * (x.pager.pgprod % 2 ^ (x.pager.pgrlog % 16))) 64 (f.record die))

/-! ### How a fault ends (R398-R400) -/

/-- A pending fault that the pager may answer: its record is in the ring (R397), it does not wait for a release after
NOFRAME, and after a release the job's faults are answered in ring order (R400). -/
def State.pending (s : State) (die token : Nat) : Option PageFault :=
  if !s.pagerUp then none
  else
    let fs := (s.die die).faults
    match fs.find? (fun f => f.token == token && f.posted && !f.noframe && !f.lost) with
    | none => none
    | some f =>
      if f.again && (fs.find? (fun g => g.job == f.job && g.again)).any (fun g => g.token != token) then none else some f

def State.dropFault (s : State) (die token : Nat) : State :=
  let x := s.die die
  s.setDie die { x with faults := x.faults.filter (fun f => f.token != token) }

/-- The scheduler fill that a fault stopped: its place among the die's fills. -/
def Die.stoppedFill (x : Die) (f : PageFault) : Option (Nat × SchedFill) :=
  ((upFrom 0 x.fills.length).zip x.fills).find? (fun p => p.2.job == f.job && p.2.stopped == some f.token)

/-- The party of a fault goes on. -/
def State.goOnFault (s : State) (die : Nat) (f : PageFault) : State :=
  let s := s.dropFault die f.token
  match f.src with
  | .task i => if (s.aux f.job i).park = some (.pager die f.token) then s.makeReady f.job i else s
  | .fetch i => if (s.aux f.job i).park = some (.pager die f.token) then s.makeReady f.job i else s
  | .region v =>
    match s.region? f.job v with
    | none => s
    | some r => if r.state = .stopped then s.resumeInPlace r else if r.state = .saved then s.resumeScan r else s
  | .command q tln =>
    match s.cmd? f.job q tln with
    | some c => if c.phase = .faulted die f.token then s.setCmd f.job q { c with phase := .running } else s
    | none => s
  | .reread v =>
    match s.region? f.job v with
    | some r => s.reload r
    | none => s
  | .fill _ _ =>
    match (s.die die).stoppedFill f with
    | some (k, x) => s.setDie die { s.die die with fills := (s.die die).fills.set k { x with stopped := none } }
    | none => s
  -- the step that needed the walk is made again by itself
  | .hardware => s

/-- RETRY, after the pager has made the mapping or found it made. -/
def execPgdoneRetry (die token : Nat) (s : State) : Host.Outcome State Fault Refusal :=
  .next (match s.pending die token with
    | none => s
    | some f =>
      match s.mapPage f.job f.va.toNat 4 with
      | .made s' => s'.goOnFault die f
      | _ => s)

/-- A task that no page can be mapped for is TRAPPED with a PAGE event (R398, R31). -/
def State.trapPage (s : State) (die : Nat) (f : PageFault) (i : Nat) : State :=
  match s.taskRec f.job i with
  | none => s
  | some w =>
    if (s.aux f.job i).park ≠ some (.pager die f.token) then s
    else
      let s := s.setAux { s.aux f.job i with park := none }
      if !recValid w then s
      else
        (s.setWord0 f.job i (putField (putField (w % 2 ^ 64) 56 4 6) 0 32 1)).postEvent f.job die
          { code := 0x04, srck := 0, index := i, gen := recGen w, pc := f.pc.toNat, addr := f.va.toNat, detail := f.det }

/-- PAGE for a walk of the hardware: what lies on that page is left out from then on (log 95). -/
def State.loseFault (s : State) (die : Nat) (f : PageFault) : State :=
  let x := s.die die
  s.setDie die { x with faults := x.faults.filter (fun g => g.token != f.token) ++ [{ f with lost := true }] }

/-- PAGE, when no mapping can be made. -/
def State.failFault (s : State) (die : Nat) (f : PageFault) : State :=
  let s := s.dropFault die f.token
  match f.src with
  | .task i => s.trapPage die f i
  | .fetch i => s.trapPage die f i
  | .region v =>
    let s := match s.region? f.job v with
      | some r => s.setRegion { r with resumeDue := false }
      | none => s
    s.postEvent f.job die { code := 0x04, srck := 1, index := v, addr := f.va.toNat }
  | .command q tln =>
    match s.cmd? f.job q tln with
    | some c =>
      if c.phase = .faulted die f.token then (s.commandLost f.job q c).endCmd f.job q c (.fail 0x04 0 f.va 0) else s
    | none => s
  | .reread v =>
    match s.region? f.job v with
    | some r => s.reloadFailed r 30
    | none => s
  | .fill _ _ =>
    match (s.die die).stoppedFill f with
    | some (k, x) => s.fillFailed die k x 0x04 0 f.va.toNat
    | none => s
  | .hardware => s.loseFault die f

def execPgdonePage (die token : Nat) (s : State) : Host.Outcome State Fault Refusal :=
  .next (match s.pending die token with
    | none => s
    | some f =>
      match s.mapPage f.job f.va.toNat 4 with
      | .cannot => s.failFault die f
      | _ => s)

/-- NOFRAME, when the page's pool and the pager's list hold no frame: one NO_FRAME event, and the job's launches are
held (R400). -/
def execPgdoneNoframe (die token : Nat) (s : State) : Host.Outcome State Fault Refusal :=
  .next (match s.pending die token with
    | none => s
    | some f =>
      match s.mapPage f.job f.va.toNat 4 with
      | .noFrame pool =>
        let x := s.die die
        let s := s.setDie die { x with faults := x.faults.map (fun g => 
          if g.token = token then { g with noframe := true, again := false } else g) }
        let s := match s.job? f.job with
          | some j => s.setJob { j with held := true }
          | none => s
        s.postEvent f.job die { code := 0x16, srck := 4, index := f.src.index, addr := f.va.toNat, detail := pool }
      | _ => s)

/-! ### Requests (R391, R396) -/

def State.requestRing (s : State) : Nat := s.pcbPa 0x80000

/-- The request whose turn it is: its number and its entry. -/
def State.request (s : State) : Option (Nat × Nat) :=
  let put := s.paRead s.requestRing 8
  let done := s.paRead (s.requestRing + 8) 8
  if !s.pagerUp || put ≤ done then none else some (done, s.paRead (s.requestRing + 64 + 32 * (done % 2046)) 32)

/-- The request is finished with a STATUS. -/
def State.endRequest (s : State) (k w status : Nat) : State :=
  let s := s.paWrite (s.requestRing + 64 + 32 * (k % 2046)) 1 (w % 2 ^ 8 / 4 * 4 + status)
  let s := s.paWrite (s.requestRing + 8) 8 (k + 1)
  { s with depot := { s.depot with taken := false, progress := 0, work := none } }

def rqPages (w : Nat) : Nat := bf w 192 32
def rqVa (w p : Nat) : Nat := bf w 136 56 + p * 2 ^ 16
def rqJob (w : Nat) : Nat := bf w 242 6
def rqCopy (w : Nat) : Nat := bf w 80 48
/-- Pool of MIGRATE's new placement. -/
def rqPool (w : Nat) : Nat := if bf w 240 2 = 0 then 0 else 1 + bf w 238 2

/-- A request has no bad field, and every page of its span can be taken (R391). -/
def State.requestOk (s : State) (w : Nat) : Bool :=
  let op := bf w 248 8
  (op == 1 || op == 2) && bf w 224 14 == 0 && bf w 128 8 == 0 && bf w 2 78 == 0 && 1 ≤ rqPages w &&
    bf w 136 16 == 0 && (op == 1 || bf w 240 2 ≤ 1) && (op == 2 || bf w 80 16 == 0) &&
    (s.resident? (rqJob w)).isSome &&
    (upFrom 0 (rqPages w)).all (fun p =>
      (match findRange (s.jobRanges (rqJob w)) (rqVa w p) with
        | some (_, e) => bit e.toNat 87 && !rgVers e
        | none => false) &&
      (match s.leafAt (rqJob w) (rqVa w p) with
        | some (level, _, e) => !(level < 3 && bf e 0 2 == 2)
        | none => true) &&
      (op == 2 || rqCopy w == 0 || (s.resolvePa (rqCopy w + p * 2 ^ 16)).toOption.isSome)) &&
    (op == 1 || !s.poolEmpty (rqPool w))

/-- Bits 63:0 of the TYPE 0 leaf that UNMAP leaves (R392). -/
def unmapped (w copy : Nat) : Nat :=
  bf w 6 4 * 2 ^ 6 + (if bf w 30 2 = 0 then 0 else 2 ^ 10 + bf w 28 2 * 2 ^ 12) +
    (if copy = 0 then 0 else bf copy 44 2 * 2 ^ 28 + bf copy 46 2 * 2 ^ 30 + bf copy 16 28 * 2 ^ 32)

def State.freeOld (s : State) (w : Nat) : State :=
  match framePool w with
  | some pool => s.giveFrame pool (bf w 32 28)
  | none => s

/-- What a page of a request needs: nothing, to wait, or work that has begun. -/
inductive PageTurn
  | done
  | wait
  | begun (s : State)

/-- A page's entry is taken up (R396): PGEA names it, its WVER is read, and `copy` copies the page and answers the new
entry and the frame that it took. -/
def State.beginPage (s : State) (w p : Nat) (copy : State → Nat → Option (Nat × Option (Nat × Nat) × State)) : PageTurn :=
  match s.leafAt (rqJob w) (rqVa w p) with
  | some (3, pa, e) =>
    if bf e 0 2 ≠ 2 then .done
    else if (s.die s.pagerDie).pager.busy || (s.resolvePa pa).toOption.any (fun x => s.moving.contains x.1) ||
        !s.paReady pa 16 true || !s.paReady (pteTarget e) 65536 false then .wait
    else
      let d := s.pagerDie
      let s := s.setPgr d { (s.die d).pager with pgea := BitVec.ofNat 64 pa }
      let (v, s) := s.wverAt pa
      match copy s e with
      | none => .wait
      | some (new, frame, s) =>
        let x : PageWork := { entry := pa, old := e, wver := v, new := new, frame := frame, swapping := false }
        .begun { s with depot := { s.depot with work := some x } }
  | _ => .done

/-- UNMAP of one page: it is copied to COPYTO where there is one, and its leaf becomes TYPE 0. -/
def State.unmapPage (s : State) (w p : Nat) : PageTurn :=
  s.beginPage w p (fun s e =>
    let copy := if rqCopy w = 0 then 0 else rqCopy w + p * 2 ^ 16
    (if copy = 0 then some s
     else if !s.paReady copy 65536 true then none
     else s.copyPage (pteTarget e) copy).map (fun s => (unmapped e copy, none, s)))

/-- MIGRATE of one page: it is copied to a frame of the new pool. -/
def State.migratePage (s : State) (w p : Nat) : PageTurn :=
  s.beginPage w p (fun s e =>
    match s.takeFrame (rqPool w) with
    | none => none
    | some (n, s) =>
      (s.copyPage (pteTarget e) (framePa (rqPool w) n)).map (fun s => (leafFor e (rqPool w) n, some (rqPool w, n), s)))

/-- A page is finished, and after the last the request is. -/
def State.pageDone (s : State) (k w : Nat) : State :=
  if rqPages w ≤ s.depot.progress + 1 then s.endRequest k w 1
  else { s with depot := { s.depot with progress := s.depot.progress + 1, work := none } }

/-- The swap of a page has succeeded: its entry holds the new value, whatever swaps the interface has made since. -/
def State.swapMade (s : State) (x : PageWork) : Bool := bf (s.paRead x.entry 8) 0 64 == x.new

/-- The work on a page goes on: the swap is started; once it has ended, the old frame is free, or the swap has failed, the
new frame goes back, and the page begins again (R396). -/
def State.workOn (s : State) (k w : Nat) (x : PageWork) : State :=
  let d := s.pagerDie
  let p := (s.die d).pager
  if p.busy then s
  else if !x.swapping then
    let s := s.setPgr d { p with
      pgea := BitVec.ofNat 64 x.entry, pgexp := BitVec.ofNat 32 x.wver, pgnew := BitVec.ofNat 64 x.new }
    ({ s with depot := { s.depot with work := some { x with swapping := true } } }).swapStart d
  else if s.swapMade x then (s.freeOld x.old).pageDone k w
  else
    let s := match x.frame with
      | some (pool, n) => s.giveFrame pool n
      | none => s
    { s with depot := { s.depot with work := none } }

/-- One turn of a request: it is refused, or the work on its next page begins or goes on, and after the last page it is
done. -/
def State.serveRequest (s : State) (op : Nat) (page : State → Nat → Nat → PageTurn) : State :=
  match s.request with
  | none => s
  | some (k, w) =>
    if !s.depot.taken && !s.requestOk w then s.endRequest k w 2
    else if bf w 248 8 ≠ op then s
    else
      let s := { s with depot := { s.depot with taken := true } }
      match s.depot.work with
      | some x => s.workOn k w x
      | none =>
        match page s w s.depot.progress with
        | .done => s.pageDone k w
        | .wait => s
        | .begun s => s

def execUnmap (s : State) : Host.Outcome State Fault Refusal := .next (s.serveRequest 1 State.unmapPage)

def execMigrate (s : State) : Host.Outcome State Fault Refusal := .next (s.serveRequest 2 State.migratePage)

end Sys2Proof.Machine
end

