-- ==== Sys2Proof/Machine/Trunks.lean ====
section
/-! DEFINITION. Trunk links (20_host.md R387, R388, 23_fleet.md R432) and station time between dies (22_bringup.md R411,
R412). -/

namespace Sys2Proof.Machine

/-! ### Links -/

def Link.joins (l : Link) (a b : Nat) : Bool := (l.a == a && l.b == b) || (l.a == b && l.b == a)

def State.mapLink (s : State) (a b : Nat) (f : Link → Link) : State :=
  { s with links := s.links.map (fun l => if l.joins a b then f l else l) }

/-- The direction of a link that carries cells from die `a`. -/
def Link.dir (l : Link) (a : Nat) : LinkDir := if l.a = a then l.toB else l.toA
def Link.setDir (l : Link) (a : Nat) (x : LinkDir) : Link := if l.a = a then { l with toB := x } else { l with toA := x }

/-- Fields of a cell (R387). -/
def cellVc (c : BitVec 512) : Nat := bf c.toNat 62 2
def cellKind (c : BitVec 512) : Nat := bf c.toNat 56 6
def cellSeq (c : BitVec 512) : BitVec 16 := BitVec.ofNat 16 (bf c.toNat 40 16)

/-- Cells held behind a gap are delivered once it has closed; one of VC 3 was delivered when it came. -/
def LinkDir.drain : Nat → LinkDir → LinkDir
  | 0, d => d
  | fuel + 1, d =>
    match d.ahead.find? (fun c => cellSeq c == d.next) with
    | none => d
    | some c =>
      LinkDir.drain fuel { d with
        next := d.next + 1
        ahead := d.ahead.filter (fun x => cellSeq x != d.next)
        out := if cellVc c = 3 then d.out else d.out ++ [c] }

/-- A cell that arrives good: in SEQ order on VCs 0 to 2, at once on VC 3. One delivered before is dropped. -/
def LinkDir.good (d : LinkDir) (c : BitVec 512) : LinkDir :=
  let d := { d with repeats := d.repeats.filter (fun r => r.1 != cellSeq c), flight := d.flight.filter (· != c) }
  if (cellSeq c - d.next).toNat ≥ 2 ^ 15 || d.ahead.any (fun x => cellSeq x == cellSeq c) then d
  else
    let d := if cellVc c = 3 then { d with out := d.out ++ [c] } else d
    LinkDir.drain (d.ahead.length + 1) { d with ahead := d.ahead ++ [c] }

/-- A cell that forward error correction cannot correct is requested again, at most 16 times. -/
def LinkDir.bad (d : LinkDir) (c : BitVec 512) : LinkDir :=
  let n := match d.repeats.find? (fun r => r.1 == cellSeq c) with
    | some r => r.2
    | none => 0
  { d with repeats := upsert (fun r => r.1 == cellSeq c) (cellSeq c, min 16 (n + 1)) d.repeats }

/-- Die fields of a cell: where it was sent, and where it is to come (R387). -/
def cellSdie (c : BitVec 512) : Nat := bf c.toNat 38 2
def cellDdie (c : BitVec 512) : Nat := bf c.toNat 36 2

/-- A cell may take a buffer (R387, 06_ordering.md R158): an ordinary one; the reserved staff buffer of its kind, which for a
staff is its SKIND (log 44); or, for a request, the escape buffer, which is number 0. -/
def TrunkBuf.takes (b : TrunkBuf) (c : BitVec 512) : Bool :=
  b.vc == cellVc c && b.dest == cellDdie c &&
    (match b.reserved with
      | none => true
      | some k => if cellVc c = 2 then k == cellKind c && (k == 1 || k == 2) else cellVc c == 0 && k == 0)

/-- A request that its sender makes, and does not pass on. -/
def ownRequest (sender : Nat) (c : BitVec 512) : Bool := cellVc c == 0 && cellSdie c == sender

/-- The sender can put a cell on the link: a buffer that the receiver has advertised is free for it, an ordinary one or a
reserved one, which counts apart, and space for the response to its request is reserved (R387, 06_ordering.md R158). The cell
carries the next SEQ of its direction. -/
def LinkDir.canSend (d : LinkDir) (sender : Nat) (c : BitVec 512) (reserved : Option Nat) : Bool :=
  let b : TrunkBuf := { vc := cellVc c, dest := cellDdie c, reserved := reserved }
  cellSeq c == d.seq && b.takes c && d.free.contains b && (!ownRequest sender c || decide (0 < d.resp))

def LinkDir.send (d : LinkDir) (sender : Nat) (c : BitVec 512) (reserved : Option Nat) : LinkDir :=
  let b : TrunkBuf := { vc := cellVc c, dest := cellDdie c, reserved := reserved }
  if !d.canSend sender c reserved then d
  else
    { d with seq := d.seq + 1, flight := d.flight ++ [c], free := d.free.erase b, used := d.used ++ [(cellSeq c, b)]
             resp := if ownRequest sender c then d.resp - 1 else d.resp }

/-- The receiver takes a cell that it delivered, and advertises its buffer again. -/
def LinkDir.take (d : LinkDir) (c : BitVec 512) : LinkDir :=
  match d.used.find? (fun u => u.1 == cellSeq c) with
  | some u => { d with out := d.out.erase c, used := d.used.erase u, free := d.free ++ [u.2] }
  | none => { d with out := d.out.erase c }

/-- The receiver consumes the oldest cell that it delivered. -/
def LinkDir.consume (d : LinkDir) : LinkDir :=
  match d.out with
  | [] => d
  | c :: _ => d.take c

/-- A requester consumes every response on arrival (06_ordering.md R158). -/
def LinkDir.takeResponses (d : LinkDir) (receiver : Nat) : LinkDir :=
  (d.out.filter (fun c => cellVc c == 1 && cellDdie c == receiver)).foldl LinkDir.take d

/-- A buffer is advertised. One that is reserved stands there once: a staff buffer for each SKIND and an escape buffer, for
each destination (06_ordering.md R158). -/
def LinkDir.advertise (d : LinkDir) (b : TrunkBuf) : LinkDir :=
  let fits : Bool := match b.reserved with
    | none => b.vc < 4
    | some k => (b.vc == 2 && (k == 1 || k == 2) || b.vc == 0 && k == 0) && !d.free.contains b && !(d.used.any (fun u => u.2 == b))
  if fits && b.dest < 4 then { d with free := d.free ++ [b] } else d

/-- A control cell of the exchange of station time (22_bringup.md R412). -/
def timeCell (c : BitVec 512) : Bool := cellVc c == 2 && 0x30 ≤ cellKind c && cellKind c ≤ 0x32

/-- The direction of the link from one die to another. -/
def State.linkDir (s : State) (sender receiver : Nat) : LinkDir :=
  match s.links.find? (fun l => l.joins sender receiver) with
  | some l => l.dir sender
  | none => LinkDir.reset

def State.setLinkDir (s : State) (sender receiver : Nat) (d : LinkDir) : State :=
  s.mapLink sender receiver (fun l => l.setDir sender d)

/-- A cell leaves, once a bulk cell has passed the gate of the die's bulk cells (23_fleet.md R424). -/
def State.sendCell (s : State) (sender receiver : Nat) (c : BitVec 512) (reserved : Option Nat) : State :=
  let d := s.linkDir sender receiver
  if !d.canSend sender c reserved then s
  else
    match s.charge sender 7 0 hostJob { reqs := 0, cells := if cellVc c = 3 then 1 else 0, work := 0, per := 0 } with
    | none => s.gateHeld sender
    | some s => s.setLinkDir sender receiver (d.send sender c reserved)

/-- An action of the sender or the receiver of a link that is up. A cell leaves toward its destination, or toward a third
die that has a link to it (R388); those of the exchange of station time are sent by its own steps. -/
def State.trunkAct (s : State) (sender receiver : Nat) (a : TrunkAct) : State :=
  if !s.linkUp sender receiver then s
  else
    let d := s.linkDir sender receiver
    match a with
    | .send c reserved =>
      let dest := cellDdie c
      if (cellSdie c == sender || s.linkUp (cellSdie c) sender) && dest != sender && (dest == receiver || s.linkUp receiver dest) &&
          !timeCell c then
        s.sendCell sender receiver c reserved
      else s
    | .reserve => s.setLinkDir sender receiver { d with resp := d.resp + 1 }
    | .advertise b => s.setLinkDir sender receiver (d.advertise b)
    | .consume => if d.out.head?.any timeCell then s else s.setLinkDir sender receiver d.consume

/-- A cell of this direction is on its way. -/
def State.inFlight (s : State) (sender receiver : Nat) (c : BitVec 512) : Bool :=
  s.links.any (fun l => l.joins sender receiver && (l.dir sender).flight.contains c)

/-- A repeated TREQ or TRSP voids the exchange of the follower that sent or awaits it (22_bringup.md R412). -/
def State.voidExchange (s : State) (sdie ddie : Nat) (c : BitVec 512) : State :=
  let void (s : State) (d : Nat) : State :=
    let x := s.die d
    s.setDie d { x with servo := { x.servo with voided := true } }
  if cellVc c ≠ 2 then s
  else if cellKind c = 0x30 then void s sdie
  else if cellKind c = 0x31 then void s ddie
  else s

/-- A cell in flight from `sdie` arrives at `ddie` over their link (R387); TRKRPT counts repeat requests (23_fleet.md R429). -/
def execTrunkCellReceive (sdie ddie : Nat) (cell : BitVec 512) (good : Bool) (s : State) : Host.Outcome State Fault Refusal :=
  .next (if !s.linkUp sdie ddie || !s.inFlight sdie ddie cell then s
    else if good then s.mapLink sdie ddie (fun l => l.setDir sdie (((l.dir sdie).good cell).takeResponses ddie))
    else
      let s := s.mapLink sdie ddie (fun l => l.setDir sdie ((l.dir sdie).bad cell))
      let s := s.setDie ddie ((s.die ddie).count (fun c => { c with trkrpt := c.trkrpt + 1 }))
      s.voidExchange sdie ddie cell)

/-- The home die of an address of a job. -/
def State.homeOf (s : State) (job va : Nat) : Option Nat :=
  match s.translate (s.jobRanges job) job .read va with
  | .ok t => some t.home
  | .error _ => none

/-- Jobs with an access outstanding between two dies: accesses that wait for their homes, publications, and staffs on
their way (R388; log 44). -/
def State.outstanding (s : State) (a b : Nat) : List Nat :=
  let pair (x : Nat) (y : Option Nat) : Bool := (x == a && y == some b) || (x == b && y == some a)
  let ctxs := s.ctxs.filterMap (fun c => match c.stalled with
    | some x => if pair c.die (s.homeOf c.job x.1) then some c.job else none
    | none => none)
  let cmds := s.queues.flatMap (fun q => q.started.filterMap (fun c => match c.stalled with
    | some x => if pair (s.queueDie q.job q.qid) (s.homeOf q.job x.1) then some q.job else none
    | none => none))
  let ports := s.regions.flatMap (fun r => r.stalls.filterMap (fun x =>
    if pair r.die (s.homeOf r.job x.2.1) then some r.job else none))
  let pubs := s.pubs.filterMap (fun p => if pair p.agent.die (s.homeOf p.job p.va.toNat) then some p.job else none)
  let staffs := s.staffs.filterMap (fun x => if pair x.sdie (some x.ddie) then some x.job else none)
  (ctxs ++ cmds ++ ports ++ pubs ++ staffs).eraseDups

/-- A link goes down (R388): TRKDOWN of both dies, a log entry, and LINK for every job with an access on it. -/
def State.dropLink (s : State) (a b : Nat) : State :=
  let jobs := s.outstanding a b
  let s := s.mapLink a b (fun l => { l with up := false, toA := LinkDir.reset, toB := LinkDir.reset })
  let s := [a, b].foldl (fun s d => s.setDie d ((s.die d).count (fun c => { c with trkdown := c.trkdown + 1 }))) s
  let s := s.addLog 2 (min a b) (min a b * 4 + max a b)
  jobs.foldl (fun s j => s.postEvent j (min a b) { code := 0x1A, srck := 4 }) s

/-- A cell of the link is still missing after 16 repeat requests. -/
def Link.spent (l : Link) : Bool := (l.toA.repeats ++ l.toB.repeats).any (fun r => 16 ≤ r.2)

/-- No job is resident. -/
def State.idle (s : State) : Bool := s.jobs.all (fun j => j.ended.isSome)

/-! ### The two-step exchange (22_bringup.md R412) -/

/-- A die that has taken the reference's time, or is the reference. -/
def State.locked (s : State) (d : Nat) : Bool := s.depot.reference == some d || (s.die d).servo.locked

/-- The parent of a follower. -/
def State.parent (s : State) (d : Nat) : Option Nat :=
  match s.depot.reference with
  | none => none
  | some r =>
    if r = d || !s.live d then none
    else if s.linkUp d r then some r
    else s.liveDies.find? (fun k => k != d && k != r && s.locked k && s.linkUp k r && s.linkUp k d)

/-- The follower's own count: its STIME once it is locked, before that the free count. -/
def Die.clock (x : Die) : Word64 := if x.servo.locked then x.stime else x.servo.free

/-- Units of station time in 16.384 µs (R412). -/
def exchangeInterval : Nat := 262144

/-- A control cell of the exchange: its number in ARG, and what it carries (R412; log 57). -/
def timeCellOf (kind sdie ddie : Nat) (seq : BitVec 16) (num payload : Nat) : BitVec 512 :=
  BitVec.ofNat 512 (payload * 2 ^ 64 + 2 * 2 ^ 62 + kind * 2 ^ 56 + seq.toNat * 2 ^ 40 + sdie % 4 * 2 ^ 38 + ddie % 4 * 2 ^ 36 + num % 2 ^ 36)

def cellNum (c : BitVec 512) : Nat := bf c.toNat 0 36

/-- A control cell leaves over the trunk between a follower and its parent; none while no buffer is free for it (R387). -/
def State.sendTime (s : State) (sender receiver kind num payload : Nat) : Option State :=
  let d := s.linkDir sender receiver
  let c := timeCellOf kind sender receiver d.seq num payload
  if s.linkUp sender receiver && d.canSend sender c none then some (s.setLinkDir sender receiver (d.send sender c none)) else none

/-- The oldest control cell of a kind that has arrived over the trunk between two dies, consumed. -/
def State.takeTime (s : State) (sender receiver kind : Nat) : Option (BitVec 512 × State) :=
  let d := s.linkDir sender receiver
  (d.out.find? (fun c => timeCell c && cellKind c == kind && cellDdie c == receiver)).map (fun c =>
    (c, s.setLinkDir sender receiver (d.take c)))

/-- TIME_EXCHANGE: a follower's interval has passed, it sends TREQ with a new number and records t1. -/
def execTimeExchange (die : Nat) (s : State) : Host.Outcome State Fault Refusal :=
  .next (match s.parent die with
    | none => s
    | some p =>
      let x := s.die die
      let v := x.servo
      if v.xnum ≠ 0 && (x.clock - v.t1).toNat < exchangeInterval then s
      else
        match s.sendTime die p 0x30 (v.xnum + 1) 0 with
        | none => s
        | some s => s.setDie die { x with servo := { v with xnum := v.xnum + 1, t1 := x.clock, stage := 1, voided := false } })

/-- TREQ arrives at the parent, which records t2, sends TRSP with its number, records t3, and sends TFUP, which carries t2, t3
and its STIME_EPS. -/
def execTreq (die : Nat) (s : State) : Host.Outcome State Fault Refusal :=
  .next (match s.parent die with
    | none => s
    | some p =>
      match s.takeTime die p 0x30 with
      | none => s
      | some (c, t) =>
        let now := (s.die p).stime.toNat
        match t.sendTime p die 0x31 (cellNum c) 0 with
        | none => s
        | some t => (t.sendTime p die 0x32 (cellNum c) (now + now * 2 ^ 64 + s.stimeEps p * 2 ^ 128)).getD s)

/-- TRSP arrives at the follower, which records t4. One of another number belongs to an exchange that is over. -/
def execTrsp (die : Nat) (s : State) : Host.Outcome State Fault Refusal :=
  .next (match s.parent die with
    | none => s
    | some p =>
      match s.takeTime p die 0x31 with
      | none => s
      | some (c, s) =>
        let x := s.die die
        if x.servo.stage = 1 && cellNum c = x.servo.xnum % 2 ^ 36 then
          s.setDie die { x with servo := { x.servo with t4 := x.clock, stage := 3 } }
        else s)

/-- offset: the parent's time minus the follower's count, as the exchange measured it. -/
def Servo.offset (v : Servo) : Int := ((v.t2 - v.t1).toInt - (v.t4 - v.t3).toInt) / 2

/-- One-way trunk delay of the exchange. -/
def Servo.delay (v : Servo) : Int := ((v.t4 - v.t1).toInt - (v.t3 - v.t2).toInt) / 2

/-- The follower after an exchange (R412): the first complete one sets STIME, later ones leave an offset to be absorbed by
slewing (R411). -/
def Die.exchanged (x : Die) (v : Servo) (epsP : Nat) : Die :=
  if v.voided then { x with servo := { v with stage := 0 } }
  else if v.locked then
    { x with servo := { v with stage := 0, residue := v.offset, last := x.stime, epsP := epsP } }
  else
    let t := v.free + BitVec.ofInt 64 v.offset
    { x with stime := t, servo := { v with stage := 0, locked := true, residue := 0, last := t, epsP := epsP } }

/-- How far a die's STIME lies from that of another. -/
def State.timeError (s : State) (r d : Nat) : Nat := (((s.die d).stime.toNat : Int) - ((s.die r).stime.toNat : Int)).natAbs

/-- TFUP arrives at the follower with t2, t3 and the parent's STIME_EPS, which corrects its station time. An exchange after
which the follower's STIME_EPS would not bound its distance from the reference is none of this machine: the two directions of a
trunk do not differ so much (R412, 06_ordering.md R159; log 9). -/
def execTfup (die : Nat) (s : State) : Host.Outcome State Fault Refusal :=
  .next (match s.parent die with
    | none => s
    | some p =>
      match s.takeTime p die 0x32 with
      | none => s
      | some (c, t) =>
        let x := t.die die
        if x.servo.stage ≠ 3 || cellNum c ≠ x.servo.xnum % 2 ^ 36 then t
        else
          let v := { x.servo with t2 := BitVec.ofNat 64 (bf c.toNat 64 64), t3 := BitVec.ofNat 64 (bf c.toNat 128 64) }
          let u := t.setDie die (x.exchanged v (bf c.toNat 192 64))
          if !v.voided && u.timeError (s.depot.reference.getD die) die > u.stimeEps die then s else u)

/-- The reference locks to an external grandmaster whose time is `t`, only while no job is resident (R411). The first
lock steps STIME forward; STIME never decreases, so any other correction is slewed. -/
def execGrandmasterLock (t : Word64) (s : State) : Host.Outcome State Fault Refusal :=
  .next (match s.depot.reference with
    | none => s
    | some r =>
      if !s.idle then s
      else
        let x := s.die r
        let first := !s.depot.gmLocked
        let s := { s with depot := { s.depot with gmLocked := true } }
        if first && x.stime.toNat ≤ t.toNat then
          s.setDie r { x with stime := t, servo := { x.servo with residue := 0 } }
        else s.setDie r { x with servo := { x.servo with residue := (t.toNat : Int) - (x.stime.toNat : Int) } })

end Sys2Proof.Machine
end

