-- ==== Sys2Proof/Machine/BringUp.lean ====
section
/-! DEFINITION. Power-on, bring-up, firmware images, fencing and restarts (22_bringup.md R405-R419). -/

namespace Sys2Proof.Machine

/-! ### Firmware images (R417, R418) -/

def imageHeaderBytes : Nat := 256

/-- A little-endian number of `n` bytes at an offset. -/
def bytesNat (bs : List Byte) (off n : Nat) : Nat := ofBytes ((bs.drop off).take n)
/-- A big-endian number of `n` bytes at an offset. -/
def bytesBig (bs : List Byte) (off n : Nat) : Nat := ofBytes ((bs.drop off).take n).reverse

def imageSvn (bs : List Byte) : Nat := bytesNat bs 4 4
def imageBody (bs : List Byte) : List Byte := (bs.drop imageHeaderBytes).take (bytesNat bs 8 8)

/-- The boot ROM accepts an image (R417), at version FSVN of the fuses. -/
def imageAccepted (bs : List Byte) (fsvn : Nat) : Bool :=
  bytesNat bs 0 4 == 0x544F5044 && decide (imageHeaderBytes + bytesNat bs 8 8 ≤ bs.length) &&
    (sha256 ((bs.drop 112).take 64)).toNat == Config.fuseKeyDigest.toNat &&
    ecdsaOk (BitVec.ofNat 512 (bytesBig bs 112 64)) (sha256 (bs.take 192)) (BitVec.ofNat 512 (bytesBig bs 192 64)) &&
    (sha256 (imageBody bs)).toNat == bytesBig bs 16 32 && decide (fsvn ≤ imageSvn bs) && decide (imageSvn bs ≤ 64)

/-- A boot that finds CONTROL.STATE = 1 repeats step 4 of an update first (R418). -/
def Drive.finish (d : Drive) (fsvn : Nat) : Drive :=
  if d.control = 1 && imageAccepted d.stage fsvn then { d with image := d.stage, control := 0 } else d

/-- An update of a drive, steps 1 to 4 (R418). -/
def Drive.stageImage (d : Drive) (bs : List Byte) : Drive := { d with stage := bs }
def Drive.install (d : Drive) : Drive := { d with image := d.stage, control := 0 }

def noDrives : Vector Drive 2 := Vector.replicate 2 Drive.empty

/-- The drives of a die's root ports after a change of both. -/
def Depot.mapDrives (x : Depot) (d : Nat) (f : Drive → Drive) : Vector (Vector Drive 2) 4 :=
  vset x.drives d ((vget x.drives d noDrives).map f)

/-- An update applied to both drives of Depot's die; false, with IMAGE and STATE untouched, when the image is refused. -/
def State.applyImage (s : State) (bs : List Byte) : Bool × State :=
  let staged (f : Drive → Drive) : Vector (Vector Drive 2) 4 := s.depot.mapDrives (s.depot.die.getD 0) f
  if imageAccepted bs s.depot.fsvn then
    (true, { s with depot := { s.depot with drives := staged (fun d => (d.stageImage bs).install) } })
  else (false, { s with depot := { s.depot with drives := staged (fun d => d.stageImage bs) } })

/-! ### The stages of bring-up (R407) -/

def BringUp.stage (b : BringUp) (d : Nat) : Nat := vget b.failing d 0
def BringUp.linked (b : BringUp) (x y : Nat) : Bool :=
  x != y && !b.badLinks.any (fun l => (l.1 == x && l.2 == y) || (l.1 == y && l.2 == x))

/-- A die passes stage 3: it passes those before, and a trunk reaches a die past stage 2. A die of `out`, which was fenced at
run time, runs no stage (R415). -/
def BringUp.past3 (b : BringUp) (out : List Nat) (d : Nat) : Bool :=
  let past2 (k : Nat) : Bool := !out.contains k && (b.stage k == 0 || 3 ≤ b.stage k)
  !out.contains d && (b.stage d == 0 || 4 ≤ b.stage d) && [0, 1, 2, 3].any (fun k => past2 k && b.linked d k)

/-- The first time reference: the lowest-numbered die that passes stage 3 (R411). -/
def BringUp.first (b : BringUp) (out : List Nat) : Option Nat := [0, 1, 2, 3].find? (b.past3 out)

/-- Trunks between a die and the parent that it locks to in stage 4, added up to the reference: 0 for the reference, 1 over
its own trunk, 2 through the lowest-numbered die that becomes LIVE and has trunks to both; none where there is no parent
(R412). -/
def BringUp.hops (b : BringUp) (out : List Nat) (d : Nat) : Option Nat :=
  match b.first out with
  | none => none
  | some r =>
    let near (k : Nat) : Bool := b.past3 out k && b.linked k r
    if d = r then some 0
    else if near d then some 1
    else if [0, 1, 2, 3].any (fun k => k != d && near k && b.stage k == 0 && b.linked k d) then some 2
    else none

/-- The first stage that a die fails, 0 for none: those given as inputs, stage 3 for a die that no trunk joins to a die past
stage 2, and stage 4 for one that finds no parent to lock to. -/
def BringUp.failed (b : BringUp) (out : List Nat) (d : Nat) : Nat :=
  if b.stage d = 1 || b.stage d = 2 then b.stage d
  else if !b.past3 out d then 3
  else if (b.hops out d).isNone then 4
  else b.stage d

/-- Dies that pass every stage. A die that was fenced earlier and stays so until power-on is none of them (R415). -/
def BringUp.passing (b : BringUp) (out : List Nat) : List Nat :=
  [0, 1, 2, 3].filter (fun d => !out.contains d && b.failed out d == 0)

/-- The time reference: the lowest-numbered die that passes stage 3 (R411); one that fails later is fenced, and the
lowest-numbered live die takes its place. -/
def BringUp.reference (b : BringUp) (out : List Nat) : Option Nat := (b.passing out).head?

/-- Depot's die: the lowest-numbered LIVE die whose management block passes its self-test (R408). -/
def BringUp.depotDie (b : BringUp) (live : List Nat) : Option Nat := live.find? (fun d => vget b.mgmtOk d false)

/-- A LIVE die at the end of its bring-up: a follower has completed its first exchange in stage 4, with its parent's
STIME_EPS (R407, R412). -/
def Die.broughtUp (d : Nat) (active ref : Bool) (epsP : Nat) (t : Word64) (old : Counters) : Die :=
  { Die.reset d with
    state := .live, active := active, stime := t, counters := old, actPeriod := t.toNat / Config.usec
    period := t.toNat / Config.usec
    servo := { Servo.zero with free := t, locked := !ref, last := t, epsP := epsP } }

/-- Bits of a list of dies. -/
def dieBits (ds : List Nat) : BitVec 4 := BitVec.ofNat 4 ((ds.map (fun d => 2 ^ d)).foldl (· + ·) 0)

/-- The largest IGROUPS for which every live die's IFOOT fits, at most the configured one (R413). -/
def groupsFor (want n : Nat) : Nat := min want (Config.dramBytes / (4096 * stripeCnt n 0))

/-- Host memory survives a reset of the package, as its bytes stand. -/
def State.hostCells (s : State) : List Host.Cell := s.mem.filter (fun c => isHostLoc c.1)

/-- The package as its reset leaves it: State.reset with the same inputs still to come, drives, fuses and host memory.
Memory of the package lists nothing (log 4). -/
def State.cleared (s : State) : State :=
  let cs := s.hostCells
  let old : List StoreRec := if cs = [] then []
    else [{ by_ := hwAgent hostJob 4, bytes := cs, view := [], placed := 1, ordinary := false, src := none }]
  { State.reset with
    agenda := s.agenda, freeCtr := s.freeCtr, mem := cs, history := old, homeClock := old.length
    snaps := s.snaps, bringUp := s.bringUp
    depot := { Depot.reset with drives := s.depot.drives, fsvn := s.depot.fsvn, grandmaster := s.depot.grandmaster } }

/-- The image that boots: that of drive 0, else that of drive 1 (R417, R418). -/
def bootImage (ds : Vector Drive 2) (fsvn : Nat) : Option (List Byte) :=
  ((ds.toList.map (fun d => d.finish fsvn)).find? (fun d => imageAccepted d.image fsvn)).map (·.image)

/-- Depot opens the package (R413): LIVEDIES, IGROUPS, default budgets, the formation-signing key, and then the job
engine. VERSION of the pager control block is 1 (21_paging.md R390). FSVN rises to the image's SVN (R417). -/
def State.openPackage (s : State) (die : Nat) (live : List Nat) (img : List Byte) : State :=
  let s := { s with
    livedies := dieBits live
    igroups := groupsFor s.bringUp.igroups live.length
    depot := { s.depot with
      die := some die, image := some (img.take imageHeaderBytes, sha256 (imageBody img))
      signKey := BitVec.ofNat 512 (bytesBig img 48 64), fsvn := max s.depot.fsvn (imageSvn img)
      recovery := false } }
  let s := s.paWrite (s.pcbPa 0) 4 1
  { s with depot := { s.depot with open_ := true } }.takeHeld

/-- Bring-up of every die but those of `out`, with the counters and the log that go on (23_fleet.md R429). A die that fails a
stage is fenced, and its entry in the log gives the stage (23_fleet.md R430). -/
def State.bringUpAll (s : State) (out : List Nat) (keep : Bool) : State :=
  let b := s.bringUp
  let live := b.passing out
  let ref := b.reference out
  let depot := b.depotDie live
  let t := s.depot.grandmaster.getD 0
  let die (d : Nat) : Die :=
    let old := if keep then (s.die d).counters else Counters.zero
    if live.contains d then Die.broughtUp d (depot == some d) (ref == some d)
      (if b.hops out d == some 2 then 32 else 0) t old
    else { Die.reset d with
      state := .fenced, bustage := if out.contains d then (s.die d).bustage else b.failed out d, counters := old }
  let s' := s.cleared
  let trained (l : Link) : Link := { l with
    up := live.contains l.a && live.contains l.b && !b.badLinks.any (fun x => l.joins x.1 x.2) }
  let s' := { s' with
    dies := #v[die 0, die 1, die 2, die 3]
    links := s'.links.map trained
    depot := { s'.depot with
      die := depot, reference := ref, gmLocked := false
      drives := match depot with
        | some k => s'.depot.mapDrives k (fun d => d.finish s'.depot.fsvn)
        | none => s'.depot.drives
      log := if keep then s.depot.log else []
      logNext := if keep then s.depot.logNext else 0 } }
  let s' := ([0, 1, 2, 3].filter (fun d => !live.contains d && !out.contains d)).foldl (fun s d =>
    s.addLog 3 d (b.failed out d)) s'
  match depot with
  | none => s'
  | some k =>
    match bootImage (vget s.depot.drives k noDrives) s.depot.fsvn with
    | none => { s' with depot := { s'.depot with recovery := true } }
    | some img => s'.openPackage k live img

def State.anyDie (s : State) (x : DieState) : Bool := [0, 1, 2, 3].any (fun d => (s.die d).state == x)
def State.eachDie (s : State) (f : Nat → Die) : State := { s with dies := #v[f 0, f 1, f 2, f 3] }

/-- POWER_ON, a part at a time as STATE shows them (R407): power comes and every die is in PARTITION; one that passes stage
1 goes on in TRAINING and one that fails it is fenced; then the stages from 2 on, Depot and the opening of the package
(log 91). -/
def execPowerOn (s : State) : Host.Outcome State Fault Refusal :=
  .next (
    if s.anyDie .training then s.bringUpAll [] false
    else if s.anyDie .partition then
      s.eachDie (fun d =>
        if s.bringUp.failed [] d = 1 then { s.die d with state := .fenced, bustage := 1 } else { s.die d with state := .training })
    else s.cleared.eachDie (fun d => { Die.reset d with state := .partition }))

/-- A package reset requested by Depot (R405): as power-on, but a die fenced at run time stays fenced (R415). The log and
the counters go on, and the reset is entered in the log (23_fleet.md R429, R430). -/
def State.packageReset (s : State) : State :=
  let out := [0, 1, 2, 3].filter (fun d => (s.die d).state == .fenced)
  ((s.addLog 6 (s.depot.die.getD 0) 0).bringUpAll out true)

/-! ### Fencing (R415) -/

/-- Bytes at the homes of a die are as they were: nothing is performed there any more. -/
def State.keepHome (s old : State) (d : Nat) : State :=
  { s with mem := ((s.mem ++ old.mem).filter (fun c => locDie c.1 == d)).foldl (fun m c => m.write c.1 (old.mem.read c.1)) s.mem }

/-- Every resident job ends with state 3; what it still had running is cancelled. -/
def State.endAll (s : State) : State :=
  (s.jobs.filter (fun j => j.ended.isNone)).foldl (fun s j =>
    let s := s.cancelJob j.num
    match s.job? j.num with
    | some j' => s.endJob j' 3
    | none => s) s

/-- A swap under way on a die's pager interface ends with the die: its entry moves no more. -/
def State.dropSwap (s : State) (d : Nat) : State :=
  let p := (s.die d).pager
  if !p.busy then s
  else
    match s.paLocs p.swapAt 1 with
    | some ls => { s with moving := s.moving.erase (ls.headD 0) }
    | none => s

/-- A link of a fenced die carries nothing. -/
def Link.cut (d : Nat) (l : Link) : Link := if l.a == d || l.b == d then { l with up := false } else l

/-- The causes of a fence at run time, in the order of R415: an uncorrectable error of the partition, the loss of every path,
and a write of FENCE. The numbers are the model's (log 53). -/
def fenceError : Nat := 1
def fenceLostPath : Nat := 2
def fenceWritten : Nat := 3

/-- The steps of a fence. The jobs end while the interleave still follows the old live set; writes to the fenced die's
own homes are not performed. -/
def State.fenceDie (s : State) (d cause : Nat) : State :=
  let s := { s with depot := { s.depot with open_ := false } }
  let s := (s.endAll.keepHome s d).dropSwap d
  let s := s.setDie d { s.die d with state := .fenced, active := false, pager := PagerIf.zero }
  let live := s.liveDies.filter (· != d)
  let depot := s.bringUp.depotDie live
  let s := { s with
    livedies := dieBits live
    ctxs := s.ctxs.filter (fun c => c.die != d)
    barriers := s.barriers.filter (fun b => b.die != d)
    links := s.links.map (Link.cut d)
    igroups := groupsFor s.bringUp.igroups live.length
    depot := { s.depot with
      die := depot
      -- the pager that goes on takes its requests from the first check on; frames of the die are gone
      taken := false, progress := 0, work := none, free := s.depot.free.filter (fun f => f.1 != 1 + d)
      reference := if s.depot.reference = some d then live.head? else s.depot.reference
      open_ := depot.isSome && !s.depot.recovery } }
  let s := match depot with
    | some k => (s.setDie k { s.die k with active := true }).paWrite (paOf 1 k 0) 4 1
    | none => s
  let s := [0, 1].foldl (fun s p => if portDie p = d then
      let s := { s with sems := s.sems.filter (fun e => e.owner != p) }
      (s.setPort p { s.port p with apbase := 0, jobres := 0, waiting := [] }).raiseInt (1 - p) 2
    else s) s
  let s := s.addLog 3 d cause
  if s.depot.open_ then s.takeHeld else s

/-- FENCE: an uncorrectable error in the partition of a live die, which Depot then fences (R415). -/
def execFence (die : Nat) (s : State) : Host.Outcome State Fault Refusal :=
  .next (if s.live die then s.fenceDie die fenceError else s)

/-- Dies to which Depot's die has no path any more are fenced (R415). -/
def State.fenceLost (s : State) : State :=
  s.liveDies.foldl (fun s d =>
    match s.depot.die with
    | some k => if s.live d && !s.reach k d then s.fenceDie d fenceLostPath else s
    | none => s) s

/-- LINK_DOWN: a cell that 16 repeat requests have not brought takes its link down (20_host.md R388). -/
def execLinkDown (d1 d2 : Nat) (s : State) : Host.Outcome State Fault Refusal :=
  .next (if s.links.any (fun l => l.joins d1 d2 && l.up && l.spent) then (s.dropLink d1 d2).fenceLost else s)

/-- LINK_RETRAIN: Depot retrains a link that is down while no job is resident; it carries traffic again, or stays down
(23_fleet.md R432). -/
def execLinkRetrain (d1 d2 : Nat) (ok : Bool) (s : State) : Host.Outcome State Fault Refusal :=
  .next (if s.idle && s.live d1 && s.live d2 then
    (if ok then s.mapLink d1 d2 (fun l => if l.up then l else { l with up := true }) else s).fenceLost else s)

/-! ### Restarts (R405, R416) -/

/-- Stores that the tasks of a die have committed reach their homes. -/
def State.landTasks (s : State) (d : Nat) : State :=
  (upFrom 0 s.history.length).foldl (fun s i =>
    match s.history[i]? with
    | some r => if r.placed = 0 && taskNum d 0 ≤ r.agent && r.agent < taskNum (d + 1) 0 then s.place i else s
    | none => s) s

/-- SEQRST: running blocks abort and their tasks are READY, barriers are reset (18_arming.md R343), and a halted die
dispatches again. -/
def State.seqrst (s : State) (die : Nat) : State :=
  if !s.live die then s
  else
    let s := (s.ctxs.filter (fun c => c.die == die)).foldl (fun s c => s.takeAway c) s
    let s := s.landTasks die
    let s := { s with barriers := s.barriers.filter (fun b => b.die != die) }
    s.setDie die { s.die die with stopped := false }

def execSeqrst (die : Nat) (s : State) : Host.Outcome State Fault Refusal := .next (s.seqrst die)

/-- MGMT_WATCHDOG: that die's management block alone is reset (R405), and the reset is entered in the log. Depot, which runs
on it, goes on with the request that it was serving where it stood (log 46). -/
def execMgmtWatchdog (die : Nat) (s : State) : Host.Outcome State Fault Refusal :=
  .next (if s.live die then s.addLog 6 die 0 else s)

/-! ### Recovery mode (R419) -/

/-- RCVGO: a port's request, made by a write of 1 to the register, is served: the image at RCVADDR of the port's host memory is
read, and R417 and R418 are applied. Port A's comes first. -/
def execRcvgo (port : Nat) (s : State) : Host.Outcome State Fault Refusal :=
  let x := s.port port
  .next (if !s.portUp port || !s.depot.recovery || x.rcvstat ≠ 1 || (port ≠ 0 && (s.port 0).rcvstat = 1) then s
    else
      let bs := s.homeBytes (upFrom (hostLoc port x.rcvaddr.toNat) x.rcvlen.toNat)
      let fits := decide (x.rcvaddr.toNat + x.rcvlen.toNat ≤ 2 ^ 44)
      let (ok, s) := if fits then s.applyImage bs else (false, s)
      s.setPort port { x with rcvstat := if ok then 2 else 3 })

/-- A write to a register at an offset of BAR0 (R375, R376, 22_bringup.md R419). JOBCTL takes the actions of R385. -/
def execRegisterWrite (port off : Nat) (v : Word64) (s : State) : Host.Outcome State Fault Refusal :=
  .next (
    let x := s.port port
    if !s.portUp port then s
    else if s.depot.recovery then
      (if off = 0x3008 then s.setPort port { x with rcvaddr := v }
       else if off = 0x3010 then s.setPort port { x with rcvlen := v }
       else if off = 0x3018 && bit v.toNat 0 then s.setPort port { x with rcvstat := 1 } else s)
    else if off = 0x08 then s.setPort port { x with apbase := BitVec.ofNat 64 (bf v.toNat 32 16 * 2 ^ 32) }
    else if off = 0x10 then s.doorbell port v
    else if off = 0x20 then
      (if bf v.toNat 6 2 != 0 || bf v.toNat 11 53 != 0 then s
       else
         match bf v.toNat 8 3 with
         | 1 => s.jobCancel port (bf v.toNat 0 6)
         | 2 => s.jobRelease port (bf v.toNat 0 6)
         | 3 => s.jobRetire port (bf v.toNat 0 6)
         | k => s.jobctl port k (bf v.toNat 0 6) id)
    else if off = 0x28 then s.intstat port v
    else if 0x1000 ≤ off && off < 0x1200 && off % 8 = 0 then s.semWrite port ((off - 0x1000) / 8) v
    else if off = 0x2000 then s.setPort port { x with winsel := BitVec.ofNat 64 (bf v.toNat 0 6) }
    else if off = 0x2008 then s.windata port v
    else s)

end Sys2Proof.Machine
end

