-- ==== Sys2Proof/Machine/IntAlu.lean ====
section
/-! DEFINITION. The integer ALU, immediates, shifts and constants (09_scalar_compute.md R202-R208). -/

namespace Sys2Proof.Machine

/-- Width of a form (R203). -/
def aluWidth (w : Bool) : Nat := if w then 32 else 64

/-- A result: of a w form, sign-extended from bit 31 (R203). -/
def aluResult (w : Bool) (res : Nat) : Word64 := if w then sext64 res 32 else BitVec.ofNat 64 res

/-- A binary operation of the group on the operands' low bits: width, A, B and the result (R203). -/
def execAlu2 (op : Nat → Nat → Nat → Nat) (d a b : GReg) (w : Bool) (s : State) : Host.Outcome State Fault Refusal :=
  execRegs (fun r =>
    let n := aluWidth w
    r.setFrom2 d (aluResult w (op n ((r.rdG a).toNat % 2 ^ n) ((r.rdG b).toNat % 2 ^ n) % 2 ^ n)) a b) s

/-- A unary operation of the group (R203). -/
def execAlu1 (op : Nat → Nat → Nat) (d a : GReg) (w : Bool) (s : State) : Host.Outcome State Fault Refusal :=
  execRegs (fun r =>
    let n := aluWidth w
    r.setFrom d (aluResult w (op n ((r.rdG a).toNat % 2 ^ n) % 2 ^ n)) a) s

/-- A division: a divisor of 0 gives all ones and raises IDZ, which never traps (R204, R200). -/
def execDivide (op : Nat → Nat → Nat → Nat) (d a b : GReg) (w : Bool) (s : State) : Host.Outcome State Fault Refusal :=
  execTask (fun s c =>
    let n := aluWidth w
    let r := c.regs
    let x := (r.rdG a).toNat % 2 ^ n
    let y := (r.rdG b).toNat % 2 ^ n
    let res := if y = 0 then 2 ^ n - 1 else op n x y % 2 ^ n
    s.setCtx { (if y = 0 then c.raise IDZ else c) with regs := r.setFrom2 d (aluResult w res) a b, ip := c.ip + 1 }) s

/-- shl (R203): the amount is B mod n. -/
def aluShl (n x y : Nat) : Nat := x * 2 ^ (y % n)
/-- shr (R203). -/
def aluShr (n x y : Nat) : Nat := x / 2 ^ (y % n)
/-- sar (R203): floor(sA / 2^s). -/
def aluSar (n x y : Nat) : Nat := ofSigned (toSigned x n / ((2 ^ (y % n) : Nat) : Int)) n
/-- mulh (R203): the high half of the signed product. -/
def aluMulh (n x y : Nat) : Nat := ofSigned (toSigned x n * toSigned y n / ((2 ^ n : Nat) : Int)) n
/-- div (R204): the quotient rounded toward zero. -/
def aluDiv (n x y : Nat) : Nat := ofSigned ((toSigned x n).tdiv (toSigned y n)) n
/-- rem (R204): it takes the sign of the dividend. -/
def aluRem (n x y : Nat) : Nat := ofSigned ((toSigned x n).tmod (toSigned y n)) n

/-- Leading zeros among the low n bits (R203). -/
def aluClz (n x : Nat) : Nat := if x = 0 then n else n - 1 - x.log2
/-- Trailing zeros among the low n bits: n when there is no one (R203). -/
def aluCtz : Nat → Nat → Nat
  | 0, _ => 0
  | n + 1, x => if x % 2 = 1 then 0 else 1 + aluCtz n (x / 2)
/-- The low n bits in reverse (R203). -/
def aluBrev : Nat → Nat → Nat
  | 0, _ => 0
  | n + 1, x => x % 2 * 2 ^ n + aluBrev n (x / 2)

/-- `add`: (uA + uB) mod 2^n (R203). -/
def execAdd (d a b : GReg) (w : Bool) (s : State) : Host.Outcome State Fault Refusal :=
  execAlu2 (fun _ x y => x + y) d a b w s

/-- `sub`: (uA − uB) mod 2^n (R203). -/
def execSub (d a b : GReg) (w : Bool) (s : State) : Host.Outcome State Fault Refusal :=
  execAlu2 (fun n x y => 2 ^ n + x - y) d a b w s

/-- `and`: A & B (R203). -/
def execAnd (d a b : GReg) (w : Bool) (s : State) : Host.Outcome State Fault Refusal :=
  execAlu2 (fun _ x y => x &&& y) d a b w s

/-- `or`: A | B (R203). -/
def execOr (d a b : GReg) (w : Bool) (s : State) : Host.Outcome State Fault Refusal :=
  execAlu2 (fun _ x y => x ||| y) d a b w s

/-- `xor`: A xor B (R203). -/
def execXor (d a b : GReg) (w : Bool) (s : State) : Host.Outcome State Fault Refusal :=
  execAlu2 (fun _ x y => x ^^^ y) d a b w s

/-- `andn`: A & ~B (R203). -/
def execAndn (d a b : GReg) (w : Bool) (s : State) : Host.Outcome State Fault Refusal :=
  execAlu2 (fun n x y => x &&& (2 ^ n - 1 - y)) d a b w s

/-- `shl`: A << (B mod n) (R203). -/
def execShl (d a b : GReg) (w : Bool) (s : State) : Host.Outcome State Fault Refusal :=
  execAlu2 (aluShl) d a b w s

/-- `shr`: A >> (B mod n) (R203). -/
def execShr (d a b : GReg) (w : Bool) (s : State) : Host.Outcome State Fault Refusal :=
  execAlu2 (aluShr) d a b w s

/-- `sar`: floor(sA / 2^s) (R203). -/
def execSar (d a b : GReg) (w : Bool) (s : State) : Host.Outcome State Fault Refusal :=
  execAlu2 (aluSar) d a b w s

/-- `mul`: (uA × uB) mod 2^n (R203). -/
def execMul (d a b : GReg) (w : Bool) (s : State) : Host.Outcome State Fault Refusal :=
  execAlu2 (fun _ x y => x * y) d a b w s

/-- `mulh`: the high half of sA × sB (R203). -/
def execMulh (d a b : GReg) (w : Bool) (s : State) : Host.Outcome State Fault Refusal :=
  execAlu2 (aluMulh) d a b w s

/-- `mulhu`: the high half of uA × uB (R203). -/
def execMulhu (d a b : GReg) (w : Bool) (s : State) : Host.Outcome State Fault Refusal :=
  execAlu2 (fun n x y => x * y / 2 ^ n) d a b w s

/-- `div`: signed quotient (R204). -/
def execDiv (d a b : GReg) (w : Bool) (s : State) : Host.Outcome State Fault Refusal :=
  execDivide (aluDiv) d a b w s

/-- `divu`: unsigned quotient (R204). -/
def execDivu (d a b : GReg) (w : Bool) (s : State) : Host.Outcome State Fault Refusal :=
  execDivide (fun _ x y => x / y) d a b w s

/-- `rem`: signed remainder (R204). -/
def execRem (d a b : GReg) (w : Bool) (s : State) : Host.Outcome State Fault Refusal :=
  execDivide (aluRem) d a b w s

/-- `remu`: unsigned remainder (R204). -/
def execRemu (d a b : GReg) (w : Bool) (s : State) : Host.Outcome State Fault Refusal :=
  execDivide (fun _ x y => x % y) d a b w s

/-- `min`: sA ≤ sB ? A : B (R203). -/
def execMin (d a b : GReg) (w : Bool) (s : State) : Host.Outcome State Fault Refusal :=
  execAlu2 (fun n x y => if toSigned x n ≤ toSigned y n then x else y) d a b w s

/-- `max`: sA ≥ sB ? A : B (R203). -/
def execMax (d a b : GReg) (w : Bool) (s : State) : Host.Outcome State Fault Refusal :=
  execAlu2 (fun n x y => if toSigned x n ≥ toSigned y n then x else y) d a b w s

/-- `minu`: uA ≤ uB ? A : B (R203). -/
def execMinu (d a b : GReg) (w : Bool) (s : State) : Host.Outcome State Fault Refusal :=
  execAlu2 (fun _ x y => if x ≤ y then x else y) d a b w s

/-- `maxu`: uA ≥ uB ? A : B (R203). -/
def execMaxu (d a b : GReg) (w : Bool) (s : State) : Host.Outcome State Fault Refusal :=
  execAlu2 (fun _ x y => if x ≥ y then x else y) d a b w s

/-- `clz`: leading zeros (R203). -/
def execClz (d a : GReg) (w : Bool) (s : State) : Host.Outcome State Fault Refusal :=
  execAlu1 (aluClz) d a w s

/-- `ctz`: trailing zeros (R203). -/
def execCtz (d a : GReg) (w : Bool) (s : State) : Host.Outcome State Fault Refusal :=
  execAlu1 (aluCtz) d a w s

/-- `popc`: one bits (R203). -/
def execPopc (d a : GReg) (w : Bool) (s : State) : Host.Outcome State Fault Refusal :=
  execAlu1 (fun n x => popcount x n) d a w s

/-- `brev`: bits reversed (R203). -/
def execBrev (d a : GReg) (w : Bool) (s : State) : Host.Outcome State Fault Refusal :=
  execAlu1 (aluBrev) d a w s

/-! ### Immediates (R205-R208) -/

/-- `addi`: g[a] + sext(imm16, 64) (R205). -/
def execAddi (d a : GReg) (i : BitVec 16) (s : State) : Host.Outcome State Fault Refusal :=
  execRegs (fun r => r.setFrom d (r.rdG a + BitVec.signExtend 64 i) a) s

/-- `andi`: g[a] & zext(imm16, 64) (R205). -/
def execAndi (d a : GReg) (i : BitVec 16) (s : State) : Host.Outcome State Fault Refusal :=
  execRegs (fun r => r.setFrom d (r.rdG a &&& BitVec.zeroExtend 64 i) a) s

/-- `ori`: g[a] | zext(imm16, 64) (R205). -/
def execOri (d a : GReg) (i : BitVec 16) (s : State) : Host.Outcome State Fault Refusal :=
  execRegs (fun r => r.setFrom d (r.rdG a ||| BitVec.zeroExtend 64 i) a) s

/-- `xori`: g[a] xor zext(imm16, 64) (R205). -/
def execXori (d a : GReg) (i : BitVec 16) (s : State) : Host.Outcome State Fault Refusal :=
  execRegs (fun r => r.setFrom d (r.rdG a ^^^ BitVec.zeroExtend 64 i) a) s

/-- `shli`: the 64-bit `shl` of R203 by the immediate (R206). -/
def execShli (d a : GReg) (sh : BitVec 6) (s : State) : Host.Outcome State Fault Refusal :=
  execRegs (fun r => r.setFrom d (BitVec.ofNat 64 (aluShl 64 (r.rdG a).toNat sh.toNat)) a) s

/-- `shri`: the 64-bit `shr` of R203 by the immediate (R206). -/
def execShri (d a : GReg) (sh : BitVec 6) (s : State) : Host.Outcome State Fault Refusal :=
  execRegs (fun r => r.setFrom d (BitVec.ofNat 64 (aluShr 64 (r.rdG a).toNat sh.toNat)) a) s

/-- `sari`: the 64-bit `sar` of R203 by the immediate (R206). -/
def execSari (d a : GReg) (sh : BitVec 6) (s : State) : Host.Outcome State Fault Refusal :=
  execRegs (fun r => r.setFrom d (BitVec.ofNat 64 (aluSar 64 (r.rdG a).toNat sh.toNat)) a) s

/-- `lim`: sext(imm21, 64), untainted (R207). -/
def execLim (d : GReg) (i : BitVec 21) (s : State) : Host.Outcome State Fault Refusal :=
  execRegs (fun r => r.setPlain d (BitVec.signExtend 64 i)) s

/-- `lsh`: (g[d] << 16) | zext(imm16, 64); d is its own source (R208). -/
def execLsh (d : GReg) (i : BitVec 16) (s : State) : Host.Outcome State Fault Refusal :=
  execRegs (fun r => r.setFrom d ((r.rdG d <<< 16) ||| BitVec.zeroExtend 64 i) d) s

end Sys2Proof.Machine
end

