-- ==== Sys2Proof/Machine/Compare.lean ====
section
/-! DEFINITION. Compares, condition logic, selection, address arithmetic and taint (09_scalar_compute.md R209-R214). -/

namespace Sys2Proof.Machine

/-- A relation of `cmp` between two n-bit operands (R209). -/
def cmpHolds (r : CmpRel) (n x y : Nat) : Bool :=
  match r with
  | .eq => x == y
  | .ne => x != y
  | .lt => decide (toSigned x n < toSigned y n)
  | .ge => decide (toSigned x n ≥ toSigned y n)
  | .ltu => decide (x < y)
  | .geu => decide (x ≥ y)

/-- `cmp` (R209). -/
def execCmp (d : CReg) (a b : GReg) (w : Bool) (rel : CmpRel) (s : State) : Host.Outcome State Fault Refusal :=
  execRegs (fun r =>
    let n := aluWidth w
    r.setC d (cmpHolds rel n ((r.rdG a).toNat % 2 ^ n) ((r.rdG b).toNat % 2 ^ n))) s

/-- `cmpi`: all 64 bits against sext(imm16, 64) (R210). -/
def execCmpi (rel : CmpiRel) (d : CReg) (a : GReg) (i : BitVec 16) (s : State) : Host.Outcome State Fault Refusal :=
  execRegs (fun r =>
    let x := (r.rdG a).toNat
    let y := (BitVec.signExtend 64 i).toNat
    r.setC d (match rel with
      | .eq => cmpHolds .eq 64 x y
      | .ne => cmpHolds .ne 64 x y
      | .lt => cmpHolds .lt 64 x y
      | .ltu => cmpHolds .ltu 64 x y)) s

/-- `cand` (R211). -/
def execCand (d a b : CReg) (s : State) : Host.Outcome State Fault Refusal :=
  execRegs (fun r => r.setC d (r.rdC a && r.rdC b)) s

/-- `cor` (R211). -/
def execCor (d a b : CReg) (s : State) : Host.Outcome State Fault Refusal :=
  execRegs (fun r => r.setC d (r.rdC a || r.rdC b)) s

/-- `cxor` (R211). -/
def execCxor (d a b : CReg) (s : State) : Host.Outcome State Fault Refusal :=
  execRegs (fun r => r.setC d (xor (r.rdC a) (r.rdC b))) s

/-- `cnot` (R211). -/
def execCnot (d a : CReg) (s : State) : Host.Outcome State Fault Refusal :=
  execRegs (fun r => r.setC d (!(r.rdC a))) s

/-- `sel`: the taint is that of both sources, whichever is chosen (R212). -/
def execSel (d a b : GReg) (c : CReg) (s : State) : Host.Outcome State Fault Refusal :=
  execRegs (fun r => r.setFrom2 d (if r.rdC c then r.rdG a else r.rdG b) a b) s

/-- `lea`: g[a] + (g[b] << sh) (R213). -/
def execLea (d a b : GReg) (sh : BitVec 3) (s : State) : Host.Outcome State Fault Refusal :=
  execRegs (fun r => r.setFrom2 d (r.rdG a + (r.rdG b <<< sh.toNat)) a b) s

/-- `untaint` (R214). -/
def execUntaint (d a : GReg) (s : State) : Host.Outcome State Fault Refusal :=
  execRegs (fun r => r.setPlain d (r.rdG a)) s

/-- `istaint` (R214). -/
def execIstaint (d a : GReg) (s : State) : Host.Outcome State Fault Refusal :=
  execRegs (fun r => r.setPlain d (BitVec.ofNat 64 (b2n (r.rdTaint a)))) s

end Sys2Proof.Machine
end

