-- ==== Sys2Proof/Machine/Exits.lean ====
section
/-! DEFINITION. Exits (09_scalar_compute.md R225-R231). -/

namespace Sys2Proof.Machine

/-- t = blk + sext(offset, 64) × 16 (R225). -/
def Ctx.target (c : Ctx) (o : BitVec 21) : Word64 := c.pc + BitVec.signExtend 64 o * 16

/-- `bex` (R226). -/
def execBex (d : CReg) (o : BitVec 21) (s : State) : Host.Outcome State Fault Refusal :=
  execTask (fun s c => if c.regs.rdC d then s.commit c (.goto (c.target o)) else s.setCtx { c with ip := c.ip + 1 }) s

/-- `jex` (R226). -/
def execJex (o : BitVec 21) (s : State) : Host.Outcome State Fault Refusal :=
  execTask (fun s c => s.commit c (.goto (c.target o))) s

/-- `cex` (R227). -/
def execCex (a : GReg) (s : State) : Host.Outcome State Fault Refusal :=
  execTask (fun s c =>
    let t := c.regs.rdG a
    if 2 ^ 56 ≤ t.toNat then s.trapTask c 0x05 t.toNat (detailOf c.ip 3)
    else if t.toNat % 16 ≠ 0 then s.trapTask c 0x03 t.toNat (detailOf c.ip 0)
    else s.commit c (.goto t)) s

/-- `call`: the return block address is that of the block that follows in memory (R228). -/
def execCall (d : GReg) (o : BitVec 21) (s : State) : Host.Outcome State Fault Refusal :=
  execTask (fun s c => s.commit { c with regs := c.regs.setPlain d c.fall } (.goto (c.target o))) s

/-- `done` (R229). -/
def execDone (s : State) : Host.Outcome State Fault Refusal := execTask (fun s c => s.commit c .done) s

/-- `yield` (R229). -/
def execYield (s : State) : Host.Outcome State Fault Refusal := execTask (fun s c => s.commit c .yield) s

/-- `skip`: the next k instructions do not execute (R230). -/
def execSkip (d : CReg) (k : BitVec 7) (s : State) : Host.Outcome State Fault Refusal :=
  execTask (fun s c => s.setCtx { c with ip := c.ip + 1 + (if c.regs.rdC d then k.toNat else 0) }) s

/-- A block that runs past its last instruction commits and continues at the block that follows (R231). -/
def State.fallThrough (s : State) (c : Ctx) : State := s.commit c (.goto c.fall)

end Sys2Proof.Machine
end

