-- ==== Sys2Proof/Machine/Fleet.lean ====
section
/-! DEFINITION. Depot's mailboxes, budgets, power, telemetry, log and reports (22_bringup.md R420, R421, 23_fleet.md
R422-R430). -/

namespace Sys2Proof.Machine

/-! ### The mailboxes (22_bringup.md R420) -/

def State.mailbox (s : State) (port : Nat) : Nat := s.pcbPa (0x100000 + 0x1000 * port)

/-- CMD of a mailbox. -/
def State.mailCmd (s : State) (port : Nat) : Nat := s.paRead (s.mailbox port) 8

/-- Depot takes the request of a port with this CMD: port A's first when both are pending. -/
def State.mailPending (s : State) (port cmd : Nat) : Bool :=
  s.pagerUp && decide (port < 2) && s.mailCmd port == cmd &&
    (port == 0 || s.mailCmd 0 == 0 || 7 < s.mailCmd 0)

/-- Bytes 0 to 63 of a mailbox. -/
def State.mail (s : State) (port : Nat) : Nat := s.paRead (s.mailbox port) 64

/-- Depot clears CMD and then writes STATUS: 1 done, 2 refused. -/
def State.mailDone (s : State) (port : Nat) (ok : Bool) : State :=
  (s.paWrite (s.mailbox port) 8 0).paWrite (s.mailbox port + 8) 8 (if ok then 1 else 2)

/-- A request of a mailbox: `f` answers none where it is refused. -/
def State.serveMail (s : State) (port cmd : Nat) (f : State → Nat → Option State) : State :=
  if !s.mailPending port cmd then s
  else
    match f s (s.mail port) with
    | some s => s.mailDone port true
    | none => s.mailDone port false

def mailDie (m : Nat) : Nat := bf m 128 8
def mailAddr (m : Nat) : Nat := bf m 384 64
def mailLen (m : Nat) : Nat := bf m 448 64

/-- Bytes 17 to 47 are 0 and the die is live (R422); LOG has a number in bytes 24 to 31. -/
def State.mailOk (s : State) (m : Nat) (log : Bool) : Bool :=
  bf m 136 56 == 0 && (log || bf m 192 64 == 0) && bf m 256 128 == 0 && s.live (mailDie m)

/-- Bytes written at a physical address; none where it cannot be reached. -/
def State.putBytes (s : State) (pa : Nat) (bs : List Byte) : Option State :=
  (s.paLocs pa bs.length).map (fun ls => s.hwStore hostJob (cells ls bs))

/-! ### Budgets (R423, R427) -/

def tablePwr (t : Nat) : Nat := bf t 64 32

/-- The table that a die will have at its next period start. -/
def State.tableOf (s : State) (d : Nat) : Nat := ((s.die d).pending.getD (s.die d).budget).toNat

/-- SETBUDGET accepts a table for die `d` (R423, R424). -/
def State.budgetOk (s : State) (d t : Nat) : Bool :=
  bf t 96 32 == 0 && (upFrom 0 8).all (fun k => bf t (128 + 128 * k) 32 == 0) &&
    ((upFrom 0 8).map (fun k => bf t (8 * k) 8)).foldl (· + ·) 0 ≤ 256 &&
    (s.liveDies.map (fun k => if k = d then tablePwr t else tablePwr (s.tableOf k))).foldl (· + ·) 0 ≤ 2400

/-- SETBUDGET: the table waits for the die's next period start (R427). -/
def execSetbudget (port : Nat) (s : State) : Host.Outcome State Fault Refusal :=
  .next (s.serveMail port 3 (fun s m =>
    let d := mailDie m
    let s := s.budgetStart d
    if !s.mailOk m false || mailLen m ≠ 144 then none
    else
      match s.readPa (mailAddr m) 144 with
      | none => none
      | some t => if s.budgetOk d t then some (s.setDie d { s.die d with pending := some (BitVec.ofNat 1152 t) }) else none))

/-- GETBUDGET: the table in force, as written. -/
def execGetbudget (port : Nat) (s : State) : Host.Outcome State Fault Refusal :=
  .next (s.serveMail port 4 (fun s m =>
    let s := s.budgetStart (mailDie m)
    if !s.mailOk m false || mailLen m ≠ 144 then none
    else s.putBytes (mailAddr m) (toBytes 144 (s.die (mailDie m)).budget.toNat)))

/-- BUDGET_PERIOD_START: a 1 µs period of the die's station time has begun (R425, R427). A gate, SETBUDGET and GETBUDGET come
after the start of the period that they stand in. -/
def execBudgetPeriodStart (die : Nat) (s : State) : Host.Outcome State Fault Refusal := .next (s.budgetStart die)

/-! ### Power and heat (R428) -/

/-- A power or thermal action, with its entry in the log. -/
def State.powerAction (s : State) (die : Nat) (x : Die) : State := (s.setDie die x).addLog 4 die 0

/-- Halvings for the average power over the last 1 ms. -/
def State.powerLimit (s : State) (die : Nat) : State :=
  let d := s.die die
  if tablePwr d.budget.toNat < d.power then s.powerAction die { d with overpower := true }
  else if d.overpower then s.powerAction die { d with overpower := false }
  else s

/-- Halvings while the junction is above 100 °C and until it falls below 95 °C. -/
def State.heatLimit (s : State) (die : Nat) : State :=
  let d := s.die die
  if 100 * 16 < d.junction || (d.overheated && 95 * 16 ≤ d.junction) then
    s.powerAction die { d with overheated := true, halved := d.halved + 1 }
  else if d.overheated then s.powerAction die { d with overheated := false, halved := 0 }
  else s

/-- One millisecond of station time. -/
def msec : Nat := 1000 * Config.usec

/-- POWER_CHECK: each 1 ms of the die's station time Depot enforces its limits; at 110 °C it resets the package. -/
def execPowerCheck (die : Nat) (s : State) : Host.Outcome State Fault Refusal :=
  .next (if !s.pagerUp || !s.live die then s
    else if 110 * 16 ≤ (s.die die).junction then (s.addLog 4 die 0).packageReset
    else if (s.die die).stime.toNat < (s.die die).powerAt + msec then s
    else ((s.setDie die { s.die die with powerAt := (s.die die).stime.toNat }).powerLimit die).heatLimit die)

/-! ### Telemetry and the log (R429, R430) -/

def dieStateCode : DieState → Nat
  | .off => 0
  | .partition => 1
  | .training => 2
  | .live => 3
  | .fenced => 4

/-- The telemetry record of a die. -/
def State.telemetryBytes (s : State) (d : Nat) : List Byte :=
  let x := s.die d
  let c := x.counters
  toBytes 4 0x4D4C4554 ++ [BitVec.ofNat 8 d, BitVec.ofNat 8 (dieStateCode x.state), 0, 0] ++ toBytes 8 x.stime.toNat ++
    ([c.cfgsoft, c.conflict, c.deadltr, c.dlmiss, c.berthDrops, c.ecccor, c.eccunc, c.trkrpt, c.trkdown,
      c.budwait].flatMap (toBytes 8)) ++ toBytes 2 x.junction ++ toBytes 2 x.inlet ++ toBytes 4 x.power ++ List.replicate 24 0

def execTelemetry (port : Nat) (s : State) : Host.Outcome State Fault Refusal :=
  .next (s.serveMail port 5 (fun s m =>
    if !s.mailOk m false || mailLen m ≠ 128 then none else s.putBytes (mailAddr m) (s.telemetryBytes (mailDie m))))

def LogEntry.bytes (e : LogEntry) : List Byte :=
  toBytes 8 e.seq ++ toBytes 8 e.stime.toNat ++ [BitVec.ofNat 8 e.kind, BitVec.ofNat 8 e.die] ++ List.replicate 6 0 ++
    toBytes 8 e.detail.toNat

/-- LOG: entries in ascending order from the requested number on; unused entries are zeros. -/
def execLog (port : Nat) (s : State) : Host.Outcome State Fault Refusal :=
  .next (s.serveMail port 6 (fun s m =>
    let n := mailLen m
    if !s.mailOk m true || n % 32 ≠ 0 || n = 0 then none
    else
      let es := (s.depot.log.filter (fun e => decide (bf m 192 64 ≤ e.seq))).flatMap LogEntry.bytes
      s.putBytes (mailAddr m) ((es ++ List.replicate n 0).take n)))

/-! ### Reports, updates and resets (22_bringup.md R405, R418, R421) -/

/-- Bytes 0 to 191 of a measurement report. -/
def State.reportHead (s : State) (m : Nat) : List Byte :=
  let hdr := match s.depot.image with
    | some i => i.1
    | none => []
  let digest := match s.depot.image with
    | some i => i.2
    | none => 0
  let d := s.depot.die.getD 0
  let big (k n : Nat) : List Byte := (toBytes k n).reverse
  toBytes 4 0x5254534D ++ toBytes 4 (imageSvn hdr) ++ toBytes 4 s.depot.fsvn ++
    [BitVec.ofNat 8 s.livedies.toNat, BitVec.ofNat 8 d, 0, 0] ++ toBytes 32 (bf m 128 256) ++ big 32 digest.toNat ++
    big 32 (sha256 (big 64 s.depot.signKey.toNat)).toNat ++ toBytes 8 (s.die d).stime.toNat ++
    big 64 identityKey.toNat ++ toBytes 8 0

/-- REPORT: a signed report goes to bytes 64 to 319 of the mailbox. -/
def execReport (port : Nat) (s : State) : Host.Outcome State Fault Refusal :=
  .next (s.serveMail port 1 (fun s m =>
    let head := s.reportHead m
    let (k, s) := s.fresh
    let sig := ecdsaSign identitySecret (sha256 head) (1 + Config.signNonce k % (p256N - 1))
    s.putBytes (s.mailbox port + 64) (head ++ (toBytes 64 sig.toNat).reverse)))

/-- UPDATE: the image at the mailbox's address is staged, verified and installed. A refused image leaves IMAGE and STATE
untouched. -/
def execUpdate (port : Nat) (s : State) : Host.Outcome State Fault Refusal :=
  .next (if !s.mailPending port 2 then s
    else
      let m := s.mail port
      match s.paLocs (mailAddr m) (mailLen m) with
      | none => s.mailDone port false
      | some ls =>
        let bs := s.homeBytes ls
        let (ok, s) := s.applyImage bs
        (if ok then s.addLog 5 (s.depot.die.getD 0) (imageSvn bs) else s).mailDone port ok)

/-- RESET: a package reset, refused while any job is resident. -/
def execReset (port : Nat) (s : State) : Host.Outcome State Fault Refusal :=
  .next (if !s.mailPending port 7 then s
    else
      let m := s.mail port
      if !s.mailOk m false || mailLen m ≠ 0 || !s.idle then s.mailDone port false
      else (s.mailDone port true).packageReset)

end Sys2Proof.Machine
end

