-- ==== Sys2Proof/Machine/FloatAlu.lean ====
section
/-! DEFINITION. Scalar floating point (09_scalar_compute.md R215-R224). -/

namespace Sys2Proof.Machine

/-- Of an exact result of 0, a sum's sign is − in RDN alone (R216). -/
def zeroNeg (mode : Nat) : Bool := mode == 2

/-- An arithmetic instruction: operands in one format, the exact result rounded once, its flags (R216, R217). -/
def execArith (op : Nat → FVal → FVal → FVal × Nat) (d a b : FReg) (f : FFmt) (rnd : FRnd) (s : State) :
    Host.Outcome State Fault Refusal :=
  execFp (fun c =>
    let r := c.regs
    let m := rndMode rnd r.fpctl
    let (v, fl) := op m (r.valF a f) (r.valF b f)
    let (code, fl') := roundF f.fmt m 0 .ieee v
    (fl ||| fl', m, r.setF d f code)) s

/-- `fadd` (R217). -/
def execFadd (d a b : FReg) (f : FFmt) (r : FRnd) (s : State) : Host.Outcome State Fault Refusal :=
  execArith (fun m x y => addV x y (zeroNeg m)) d a b f r s

/-- `fsub` (R217). -/
def execFsub (d a b : FReg) (f : FFmt) (r : FRnd) (s : State) : Host.Outcome State Fault Refusal :=
  execArith (fun m x y => addV x (negV y) (zeroNeg m)) d a b f r s

/-- `fmul` (R217). -/
def execFmul (d a b : FReg) (f : FFmt) (r : FRnd) (s : State) : Host.Outcome State Fault Refusal :=
  execArith (fun _ x y => mulV x y) d a b f r s

/-- `fdiv` (R217). -/
def execFdiv (d a b : FReg) (f : FFmt) (r : FRnd) (s : State) : Host.Outcome State Fault Refusal :=
  execArith (fun _ x y => divV x y) d a b f r s

/-- `fsqrt` (R217). -/
def execFsqrt (d a : FReg) (f : FFmt) (r : FRnd) (s : State) : Host.Outcome State Fault Refusal :=
  execArith (fun _ x _ => sqrtV x) d a a f r s

/-- `fmac`: F(d) + x × y, fused (R217). -/
def execFmac (d a b : FReg) (f : FFmt) (rnd : FRnd) (s : State) : Host.Outcome State Fault Refusal :=
  execFp (fun c =>
    let r := c.regs
    let m := rndMode rnd r.fpctl
    let (v, fl) := fmaV (r.valF a f) (r.valF b f) (r.valF d f) (zeroNeg m)
    let (code, fl') := roundF f.fmt m 0 .ieee v
    (fl ||| fl', m, r.setF d f code)) s

/-- The operand that `fmin` or `fmax` returns, unchanged (R218). -/
def pickF (f : FFmt) (less : Bool) (x y : Nat) : Nat :=
  let u := decodeF f.fmt x
  let v := decodeF f.fmt y
  if u.isNaN && v.isNaN then f.fmt.nanCode
  else if u.isNaN then y
  else if v.isNaN then x
  else if less then (if ltZ v u then y else x)
  else (if ltZ u v then y else x)

/-- `fmin` (R218). -/
def execFmin (d a b : FReg) (f : FFmt) (s : State) : Host.Outcome State Fault Refusal :=
  execRegs (fun r => r.setF d f (pickF f true (r.codeF a f) (r.codeF b f))) s

/-- `fmax` (R218). -/
def execFmax (d a b : FReg) (f : FFmt) (s : State) : Host.Outcome State Fault Refusal :=
  execRegs (fun r => r.setF d f (pickF f false (r.codeF a f) (r.codeF b f))) s

/-- A code with its sign bit replaced; a NaN gives the canonical one (R219). -/
def withSign (f : FFmt) (code : Nat) (neg : Bool) : Nat :=
  if (decodeF f.fmt code).isNaN then f.fmt.nanCode else code % 2 ^ (f.width - 1) + b2n neg * 2 ^ (f.width - 1)

/-- `fneg` (R219). -/
def execFneg (d a : FReg) (f : FFmt) (s : State) : Host.Outcome State Fault Refusal :=
  execRegs (fun r => r.setF d f (withSign f (r.codeF a f) (!bit (r.codeF a f) (f.width - 1)))) s

/-- `fabs` (R219). -/
def execFabs (d a : FReg) (f : FFmt) (s : State) : Host.Outcome State Fault Refusal :=
  execRegs (fun r => r.setF d f (withSign f (r.codeF a f) false)) s

/-- `fcvt` (R220). -/
def execFcvt (d a : FReg) (src f : FFmt) (rnd : FRnd) (s : State) : Host.Outcome State Fault Refusal :=
  execFp (fun c =>
    let r := c.regs
    let m := rndMode rnd r.fpctl
    let (code, fl) := roundF f.fmt m 0 .ieee (r.valF a src)
    (fl, m, r.setF d f code)) s

/-- MIN and MAX of an integer kind (R221). -/
def kindRange : IKind → Int × Int
  | .i64 => (-((2 ^ 63 : Nat) : Int), ((2 ^ 63 - 1 : Nat) : Int))
  | .u64 => (0, ((2 ^ 64 - 1 : Nat) : Int))
  | .i32 => (-((2 ^ 31 : Nat) : Int), ((2 ^ 31 - 1 : Nat) : Int))
  | .u32 => (0, ((2 ^ 32 - 1 : Nat) : Int))

/-- `fcvti` (R221). -/
def execFcvti (d : GReg) (a : FReg) (k : IKind) (f : FFmt) (rnd : FRnd) (s : State) : Host.Outcome State Fault Refusal :=
  execFp (fun c =>
    let r := c.regs
    let m := rndMode rnd r.fpctl
    let (lo, hi) := kindRange k
    let (t, fl) := toIntRange m 0 lo hi (r.valF a f)
    (fl, m, r.setPlain d (BitVec.ofNat 64 (ofSigned t 64)))) s

/-- The integer that a kind reads from a g register (R222). -/
def kindRead (k : IKind) (n : Nat) : Int :=
  match k with
  | .i64 => toSigned n 64
  | .u64 => ((n % 2 ^ 64 : Nat) : Int)
  | .i32 => toSigned n 32
  | .u32 => ((n % 2 ^ 32 : Nat) : Int)

/-- `icvtf` (R222). -/
def execIcvtf (d : FReg) (a : GReg) (k : IKind) (f : FFmt) (rnd : FRnd) (s : State) : Host.Outcome State Fault Refusal :=
  execFp (fun c =>
    let r := c.regs
    let m := rndMode rnd r.fpctl
    let (code, fl) := roundF f.fmt m 0 .ieee (.fin (Ex.ofInt (kindRead k (r.rdG a).toNat)))
    (fl, m, r.setF d f code)) s

/-- `fmvg` (R223). -/
def execFmvg (d : GReg) (a : FReg) (f : FFmt) (s : State) : Host.Outcome State Fault Refusal :=
  execRegs (fun r => r.setPlain d (BitVec.ofNat 64 (r.codeF a f))) s

/-- `gmvf` (R223). -/
def execGmvf (d : FReg) (a : GReg) (f : FFmt) (s : State) : Host.Outcome State Fault Refusal :=
  execRegs (fun r => r.setF d f (r.rdG a).toNat) s

/-- `fcmp`: no flag for any operand (R224). -/
def execFcmp (d : CReg) (a b : FReg) (f : FFmt) (rel : FRel) (s : State) : Host.Outcome State Fault Refusal :=
  execRegs (fun r =>
    let x := r.valF a f
    let y := r.valF b f
    r.setC d (match rel with
      | .eq => eqV x y
      | .lt => ltV x y
      | .le => ltV x y || eqV x y
      | .unord => x.isNaN || y.isNaN)) s

end Sys2Proof.Machine
end

