-- ==== Sys2Proof/Machine/Scheduler.lean ====
section
/-! DEFINITION. The scheduler of a die: dispatch with fetch and block decode, taking a context away, class budgets,
notifies (02_execution.md R26, R38, R40-R44, R58, 08_encodings.md R176-R178). -/

namespace Sys2Proof.Machine

/-! ### Block decode (R178) -/

/-- `st`, `fst` and `vpub` (R32). -/
def isStore : Instr → Bool
  | .st .. => true
  | .fst .. => true
  | .vpub .. => true
  | _ => false

def isIssue : Instr → Bool
  | .scmd .. => true
  | .scmdt .. => true
  | _ => false

def isTaskOp : Instr → Bool
  | .tdec .. => true
  | .tspawn .. => true
  | .tset .. => true
  | .tdeadline .. => true
  | .tcancelTask .. => true
  | .tcancelLaunch .. => true
  | .tcancelReplay .. => true
  | .tcancelPhase .. => true
  | .tcancelJob => true
  | .trun .. => true
  | _ => false

/-- The `amo` group, `redf` and `redinit` (R32). -/
def isCommitPoint : Instr → Bool
  | .amoadd .. => true
  | .amoand .. => true
  | .amoor .. => true
  | .amoxor .. => true
  | .amomin .. => true
  | .amomax .. => true
  | .amominu .. => true
  | .amomaxu .. => true
  | .amoswap .. => true
  | .amocas .. => true
  | .redf .. => true
  | .redinit .. => true
  | _ => false

/-- The exits that R32 counts as a block's exit. -/
def isExit : Instr → Bool
  | .bex .. => true
  | .jex .. => true
  | .cex .. => true
  | .call .. => true
  | .done => true
  | .yield => true
  | _ => false

/-- A block's instructions, or the first word that fails step 1 and its reason. `k` is the index of the next word,
`last` that of the last instruction. -/
def decodeWords (last : Nat) : Nat → List Word32 → Except (Nat × Nat) (List Instr)
  | _, [] => .ok []
  | k, w :: ws =>
    match decodeScalar w with
    | .error r => .error (k, r)
    | .ok i =>
      let reach : Nat := match i with
        | .skip _ n => n.toNat
        | _ => 0
      if reach ≠ 0 && last < k + reach then .error (k, 7)
      else
        match decodeWords last (k + 1) ws with
        | .error e => .error e
        | .ok is => .ok (i :: is)

/-- The limits of R32: the first instruction that takes a count over its limit, and the reason. `n1`, `n2`, `n3` and
`n4` count what came before; `last` is the last instruction. DESIGN CHOICE: of a block that goes beyond several limits R32 names none as the one that is
reported; the limit that the text goes beyond first is (log 25). -/
def blockLimit (len : Nat) (last : Option Instr) : Nat → Nat → Nat → Nat → Nat → List Instr → Option (Nat × Nat)
  | _, _, _, _, _, [] => none
  | k, n1, n2, n3, n4, i :: is =>
    let n1 := n1 + b2n (isStore i)
    let n2 := n2 + b2n (isIssue i)
    let n3 := n3 + b2n (isTaskOp i)
    let n4 := n4 + b2n (isCommitPoint i)
    let placed := k == len || (k + 1 == len && (match last with
      | some x => isExit x
      | none => false))
    if 32 < n1 then some (k, 1)
    else if 8 < n2 then some (k, 2)
    else if 4 < n3 then some (k, 3)
    else if isCommitPoint i && (1 < n4 || !placed) then some (k, 4)
    else blockLimit len last (k + 1) n1 n2 n3 n4 is

/-- Block decode: none when the block passes, else the code, the word index and the reason (R178). -/
def blockCheck (nostore : Bool) (ws : List Word32) : Option (Nat × Nat × Nat) :=
  match decodeWords ws.length 1 ws with
  | .error (k, r) => some (0x01, k, r)
  | .ok is =>
    if nostore && is.any isStore then some (0x01, 0, 6)
    else
      match blockLimit ws.length is.getLast? 1 0 0 0 0 is with
      | some (k, r) => some (0x02, k, r)
      | none => none

/-! ### Fetch (R177) -/

/-- A fetch that does not come to its bytes (R177, R31, R35; the DETAIL of its fault is log 25). -/
def State.fetchFault (s : State) (c : Ctx) (va : Nat) (f : TFault) : State :=
  match f with
  | .page level cause => s.faultTask c true va .fetch level cause
  | f => s.accessFault { c with ip := 0 } va .fetch f

/-- Words of four bytes each. -/
def wordsOf : Nat → List Byte → List Word32
  | 0, _ => []
  | n + 1, bs => BitVec.ofNat 32 (ofBytes (bs.take 4)) :: wordsOf n (bs.drop 4)

/-- Bytes of a fetch, read as an ordinary load of the task would (R177), and where they stand. -/
def State.fetchBytes (s : State) (c : Ctx) (n : Nat) : Except (TFault × Nat) (List Byte × List Trans) :=
  match s.access c.die c.job (s.jobRanges c.job) .fetch c.pc.toNat n with
  | .error f => .error f
  | .ok ts => .ok (s.loadBytes c c.view c.pc.toNat ts, ts)

/-- The block at the context's address is fetched whole and decoded (R177, R178). -/
def State.fetchBlock (s : State) (c : Ctx) : State :=
  match s.fetchBytes c 4 with
  | .error (f, va) => s.fetchFault c va f
  | .ok (hb, _) =>
    match decodeHeader (BitVec.ofNat 32 (ofBytes hb)) with
    | none => s.trapTask c 0x01 0 (detailOf 0 5)
    | some (n, nostore) =>
      match s.fetchBytes c (4 * (n + 2)) with
      | .error (f, va) => s.fetchFault c va f
      | .ok (bs, ts) =>
        match s.dmaPass c ts with
        | none => s.dmaPark c
        | some s =>
          let ws := wordsOf (n + 2) bs
          match blockCheck nostore (ws.drop 1) with
          | some (code, k, r) => s.trapTask c code 0 (detailOf k r)
          | none => s.setCtx { c with words := ws, ip := 1, stalled := none }

/-! ### Dispatch (R41, R44) -/

/-- A task bound to a berth that is not resident is skipped (R44). -/
def State.berthReady (s : State) (job w : Nat) : Bool :=
  match recBerth w with
  | none => true
  | some (d, i) => (s.berth job d i).state.served

/-- The entry that dispatch takes (R41). -/
def State.nextReady (s : State) (die : Nat) : Option ReadyEntry :=
  let d := s.die die
  let okay := d.ready.filter (fun e =>
    match s.taskRec e.job e.idx with
    | some w => recValid w && s.berthReady e.job w
    | none => false)
  match okay.find? (fun e => d.classLeft (recClass ((s.taskRec e.job e.idx).getD 0))) with
  | some e => some e
  | none => okay.head?

/-- A task starts to run on a free context (R37, R38): its registers and what it knows of the hardware's stores
(log 8). DEDUCED: the tasks that a record names one after another are one agent, whose number they share (R144), so a
new generation knows what the one before it knew (R145; log 7). -/
def State.dispatch (s : State) (die seq ctx : Nat) (e : ReadyEntry) : State :=
  let w := (s.taskRec e.job e.idx).getD 0
  let s := if (s.aux e.job e.idx).saved.isSome then s.hwTouch e.job (recSave w) 392 else s
  let (regs, pc) := s.dispatchRegs e.job e.idx w
  let (view, rel) := s.viewOf e.job (taskNum die e.idx)
  let view := unionNat view (s.hwView e.job)
  let a := s.aux e.job e.idx
  let s := if a.saved.isNone then s.setAux { a with startedIn := s.phasesOf (taskAgent e.job die seq e.idx) } else s
  let s := (s.dequeue e).setTaskState e.job e.idx 2
  let c : Ctx :=
    { die := die, seq := seq, ctx := ctx, job := e.job, idx := e.idx, gen := recGen w, pc := pc, words := [], ip := 0,
      base := regs, regs := regs, raised := 0, baseView := view, view := view, baseRel := rel, rel := rel, held := [],
      commitPt := none, issues := [], taskOps := [], halting := false, stalled := none }
  (s.setCtx c).fetchBlock c

/-- BLOCK_DISPATCH: a free context of a die takes the first eligible task (R41). -/
def execBlockDispatch (die seq ctx : Nat) (s : State) : Host.Outcome State Fault Refusal :=
  .next (if !s.live die || (s.die die).stopped || 16 ≤ seq || 8 ≤ ctx || (s.ctx? die seq ctx).isSome then s
    else
      match s.nextReady die with
      | some e => s.dispatch die seq ctx e
      -- a record that the scheduler cannot read keeps its task
      | none => (s.die die).ready.foldl (fun s e => s.recTouch e.job e.idx) s)

/-! ### Taking a context away (R42) -/

/-- A running task gives way before another: lower class, then later deadline, then higher record index. DESIGN CHOICE: R42
leaves it open which of two tasks of different jobs gives way where all three agree; it is the one whose context stands first
in the list of contexts (log 99). -/
def State.yieldsBefore (s : State) (a b : Ctx) : Bool :=
  let wa := (s.taskRec a.job a.idx).getD 0
  let wb := (s.taskRec b.job b.idx).getD 0
  let dl (w : Nat) : Nat := if recDeadline w = 0 then 2 ^ 64 - 1 else recDeadline w
  if recClass wa ≠ recClass wb then decide (recClass wa < recClass wb)
  else if dl wa ≠ dl wb then decide (dl wb < dl wa)
  else decide (b.idx < a.idx)

def State.firstToYield (s : State) : List Ctx → Option Ctx
  | [] => none
  | c :: cs =>
    match s.firstToYield cs with
    | none => some c
    | some b => if s.yieldsBefore b c then some b else some c

/-- The running task that must give way on a die whose contexts are all busy (R42). -/
def State.toYield (s : State) (die : Nat) : Option Ctx :=
  let cs := s.ctxs.filter (fun c => c.die == die)
  match s.nextReady die with
  | none => none
  | some e =>
    let d := s.die die
    let k := recClass ((s.taskRec e.job e.idx).getD 0)
    let cls (c : Ctx) : Nat := recClass ((s.taskRec c.job c.idx).getD 0)
    if cs.length < 128 then none
    else
      match s.firstToYield (cs.filter (fun c => decide (cls c < k))) with
      | some c => some c
      | none => if d.classLeft k then s.firstToYield (cs.filter (fun c => !d.classLeft (cls c))) else none

/-- CONTEXT_PREEMPT (R42). -/
def execContextPreempt (die : Nat) (s : State) : Host.Outcome State Fault Refusal :=
  .next (match s.toYield die with
    | some c => s.takeAway c
    | none => s)

/-- CLASS_BUDGET_PERIOD: a 1 µs period of station time has begun; unused budget does not carry over (R41). -/
def execClassBudgetPeriod (die : Nat) (s : State) : Host.Outcome State Fault Refusal :=
  let d := s.die die
  let k := d.stime.toNat / Config.usec
  .next (if d.period < k then s.setDie die { d with period := k, charged := Vector.replicate 8 0 } else s)

/-- TASK_NOTIFY (R26). -/
def execTaskNotify (job idx gen : Nat) (s : State) : Host.Outcome State Fault Refusal :=
  .next (if (s.job? job).isSome then s.notify job ((s.recHome job idx).getD 0) idx gen else s)

end Sys2Proof.Machine
end

