-- ==== Sys2Proof/Machine/Dispatch.lean ====
section
/-! DEFINITION. One arm per step of the part: each calls its meaning. -/

namespace Sys2Proof.Machine

/-- What a step does. -/
def exec (i : Instr) (s : State) : Host.Outcome State Fault Refusal :=
  match i with
  | .add d a b w => Sys2Proof.Machine.execAdd d a b w s
  | .sub d a b w => Sys2Proof.Machine.execSub d a b w s
  | .and d a b w => Sys2Proof.Machine.execAnd d a b w s
  | .or d a b w => Sys2Proof.Machine.execOr d a b w s
  | .xor d a b w => Sys2Proof.Machine.execXor d a b w s
  | .andn d a b w => Sys2Proof.Machine.execAndn d a b w s
  | .shl d a b w => Sys2Proof.Machine.execShl d a b w s
  | .shr d a b w => Sys2Proof.Machine.execShr d a b w s
  | .sar d a b w => Sys2Proof.Machine.execSar d a b w s
  | .mul d a b w => Sys2Proof.Machine.execMul d a b w s
  | .mulh d a b w => Sys2Proof.Machine.execMulh d a b w s
  | .mulhu d a b w => Sys2Proof.Machine.execMulhu d a b w s
  | .div d a b w => Sys2Proof.Machine.execDiv d a b w s
  | .divu d a b w => Sys2Proof.Machine.execDivu d a b w s
  | .rem d a b w => Sys2Proof.Machine.execRem d a b w s
  | .remu d a b w => Sys2Proof.Machine.execRemu d a b w s
  | .min d a b w => Sys2Proof.Machine.execMin d a b w s
  | .max d a b w => Sys2Proof.Machine.execMax d a b w s
  | .minu d a b w => Sys2Proof.Machine.execMinu d a b w s
  | .maxu d a b w => Sys2Proof.Machine.execMaxu d a b w s
  | .clz d a w => Sys2Proof.Machine.execClz d a w s
  | .ctz d a w => Sys2Proof.Machine.execCtz d a w s
  | .popc d a w => Sys2Proof.Machine.execPopc d a w s
  | .brev d a w => Sys2Proof.Machine.execBrev d a w s
  | .addi d a ix => Sys2Proof.Machine.execAddi d a ix s
  | .andi d a ix => Sys2Proof.Machine.execAndi d a ix s
  | .ori d a ix => Sys2Proof.Machine.execOri d a ix s
  | .xori d a ix => Sys2Proof.Machine.execXori d a ix s
  | .shli d a sh => Sys2Proof.Machine.execShli d a sh s
  | .shri d a sh => Sys2Proof.Machine.execShri d a sh s
  | .sari d a sh => Sys2Proof.Machine.execSari d a sh s
  | .lim d ix => Sys2Proof.Machine.execLim d ix s
  | .lsh d ix => Sys2Proof.Machine.execLsh d ix s
  | .cmp c a b w r => Sys2Proof.Machine.execCmp c a b w r s
  | .cmpi r c a ix => Sys2Proof.Machine.execCmpi r c a ix s
  | .cand d a b => Sys2Proof.Machine.execCand d a b s
  | .cor d a b => Sys2Proof.Machine.execCor d a b s
  | .cxor d a b => Sys2Proof.Machine.execCxor d a b s
  | .cnot d a => Sys2Proof.Machine.execCnot d a s
  | .sel d a b c => Sys2Proof.Machine.execSel d a b c s
  | .lea d a b sh => Sys2Proof.Machine.execLea d a b sh s
  | .untaint d a => Sys2Proof.Machine.execUntaint d a s
  | .istaint d a => Sys2Proof.Machine.execIstaint d a s
  | .fadd d a b f r => Sys2Proof.Machine.execFadd d a b f r s
  | .fsub d a b f r => Sys2Proof.Machine.execFsub d a b f r s
  | .fmul d a b f r => Sys2Proof.Machine.execFmul d a b f r s
  | .fdiv d a b f r => Sys2Proof.Machine.execFdiv d a b f r s
  | .fsqrt d a f r => Sys2Proof.Machine.execFsqrt d a f r s
  | .fmin d a b f => Sys2Proof.Machine.execFmin d a b f s
  | .fmax d a b f => Sys2Proof.Machine.execFmax d a b f s
  | .fmac d a b f r => Sys2Proof.Machine.execFmac d a b f r s
  | .fneg d a f => Sys2Proof.Machine.execFneg d a f s
  | .fabs d a f => Sys2Proof.Machine.execFabs d a f s
  | .fcvt d a src f r => Sys2Proof.Machine.execFcvt d a src f r s
  | .fcvti d a k f r => Sys2Proof.Machine.execFcvti d a k f r s
  | .icvtf d a k f r => Sys2Proof.Machine.execIcvtf d a k f r s
  | .fmvg d a f => Sys2Proof.Machine.execFmvg d a f s
  | .gmvf d a f => Sys2Proof.Machine.execGmvf d a f s
  | .fcmp c a b f r => Sys2Proof.Machine.execFcmp c a b f r s
  | .ld d b m ix => Sys2Proof.Machine.execLd d b m ix s
  | .st d b m ix => Sys2Proof.Machine.execSt d b m ix s
  | .ldc d b m ix => Sys2Proof.Machine.execLdc d b m ix s
  | .fld d b m ix => Sys2Proof.Machine.execFld d b m ix s
  | .fst d b m ix => Sys2Proof.Machine.execFst d b m ix s
  | .vld d a n w m => Sys2Proof.Machine.execVld d a n w m s
  | .vpub d a n => Sys2Proof.Machine.execVpub d a n s
  | .vretire a n => Sys2Proof.Machine.execVretire a n s
  | .vfloor d a => Sys2Proof.Machine.execVfloor d a s
  | .vnewest d a => Sys2Proof.Machine.execVnewest d a s
  | .vstamp d a n => Sys2Proof.Machine.execVstamp d a n s
  | .amoadd d a b w o sc => Sys2Proof.Machine.execAmoadd d a b w o sc s
  | .amoand d a b w o sc => Sys2Proof.Machine.execAmoand d a b w o sc s
  | .amoor d a b w o sc => Sys2Proof.Machine.execAmoor d a b w o sc s
  | .amoxor d a b w o sc => Sys2Proof.Machine.execAmoxor d a b w o sc s
  | .amomin d a b w o sc => Sys2Proof.Machine.execAmomin d a b w o sc s
  | .amomax d a b w o sc => Sys2Proof.Machine.execAmomax d a b w o sc s
  | .amominu d a b w o sc => Sys2Proof.Machine.execAmominu d a b w o sc s
  | .amomaxu d a b w o sc => Sys2Proof.Machine.execAmomaxu d a b w o sc s
  | .amoswap d a b w o sc => Sys2Proof.Machine.execAmoswap d a b w o sc s
  | .amocas d a b w o sc => Sys2Proof.Machine.execAmocas d a b w o sc s
  | .redf d a b f32 => Sys2Proof.Machine.execRedf d a b f32 s
  | .redinit a b f32 => Sys2Proof.Machine.execRedinit a b f32 s
  | .phase sc => Sys2Proof.Machine.execPhase sc s
  | .pwait c a sc => Sys2Proof.Machine.execPwait c a sc s
  | .pnum d sc => Sys2Proof.Machine.execPnum d sc s
  | .barm d a b => Sys2Proof.Machine.execBarm d a b s
  | .barr a b => Sys2Proof.Machine.execBarr a b s
  | .barw c a b => Sys2Proof.Machine.execBarw c a b s
  | .tlwait a b => Sys2Proof.Machine.execTlwait a b s
  | .tlread d a => Sys2Proof.Machine.execTlread d a s
  | .stime d => Sys2Proof.Machine.execStime d s
  | .twait a => Sys2Proof.Machine.execTwait a s
  | .tdec a => Sys2Proof.Machine.execTdec a s
  | .tspawn a => Sys2Proof.Machine.execTspawn a s
  | .tset a b => Sys2Proof.Machine.execTset a b s
  | .tdeadline a b => Sys2Proof.Machine.execTdeadline a b s
  | .tcancelTask a => Sys2Proof.Machine.execTcancelTask a s
  | .tcancelLaunch a => Sys2Proof.Machine.execTcancelLaunch a s
  | .tcancelReplay a => Sys2Proof.Machine.execTcancelReplay a s
  | .tcancelPhase sc => Sys2Proof.Machine.execTcancelPhase sc s
  | .tcancelJob => Sys2Proof.Machine.execTcancelJob s
  | .trun a => Sys2Proof.Machine.execTrun a s
  | .bex c o => Sys2Proof.Machine.execBex c o s
  | .jex o => Sys2Proof.Machine.execJex o s
  | .cex a => Sys2Proof.Machine.execCex a s
  | .call d o => Sys2Proof.Machine.execCall d o s
  | .done => Sys2Proof.Machine.execDone s
  | .yield => Sys2Proof.Machine.execYield s
  | .skip c k => Sys2Proof.Machine.execSkip c k s
  | .scmd p q => Sys2Proof.Machine.execScmd p q s
  | .scmdt p q t => Sys2Proof.Machine.execScmdt p q t s
  | .sysrd d n => Sys2Proof.Machine.execSysrd d n s
  | .syswr a n => Sys2Proof.Machine.execSyswr a n s
  | .trap k => Sys2Proof.Machine.execTrap k s
  | .halt => Sys2Proof.Machine.execHalt s
  | .blockDispatch die seq ctx => Sys2Proof.Machine.execBlockDispatch die seq ctx s
  | .contextPreempt die => Sys2Proof.Machine.execContextPreempt die s
  | .classBudgetPeriod die => Sys2Proof.Machine.execClassBudgetPeriod die s
  | .deadlineMiss job idx => Sys2Proof.Machine.execDeadlineMiss job idx s
  | .taskNotify job idx gen => Sys2Proof.Machine.execTaskNotify job idx gen s
  | .twaitWake job idx => Sys2Proof.Machine.execTwaitWake job idx s
  | .accessTimeout p => Sys2Proof.Machine.execAccessTimeout p s
  | .schedulerFillIssue job idx => Sys2Proof.Machine.execSchedulerFillIssue job idx s
  | .schedulerFill die k => Sys2Proof.Machine.execSchedulerFill die k s
  | .schedulerFillRetry die k => Sys2Proof.Machine.execSchedulerFillRetry die k s
  | .barrierArrival job die num w err agent => Sys2Proof.Machine.execBarrierArrival job die num w err agent s
  | .commandStart job qid => Sys2Proof.Machine.execCommandStart job qid s
  | .commandFinish job qid tln => Sys2Proof.Machine.execCommandFinish job qid tln s
  | .launchComplete job region => Sys2Proof.Machine.execLaunchComplete job region s
  | .replayStart job va => Sys2Proof.Machine.execReplayStart job va s
  | .nodeComplete job va node => Sys2Proof.Machine.execNodeComplete job va node s
  | .staffSend job sc die => Sys2Proof.Machine.execStaffSend job sc die s
  | .staffReceive job sc sdie ddie => Sys2Proof.Machine.execStaffReceive job sc sdie ddie s
  | .versionPublish k => Sys2Proof.Machine.execVersionPublish k s
  | .versionRetire job a n => Sys2Proof.Machine.execVersionRetire job a n s
  | .reductionContribution k => Sys2Proof.Machine.execReductionContribution k s
  | .refreshWindowEnd die bank => Sys2Proof.Machine.execRefreshWindowEnd die bank s
  | .load h region port last len a => Sys2Proof.Machine.execLoad h region port last len a s
  | .store h region port len a => Sys2Proof.Machine.execStore h region port len a s
  | .publish h region port ver a => Sys2Proof.Machine.execPublish h region port ver a s
  | .vload h region port mode last ver a => Sys2Proof.Machine.execVload h region port mode last ver a s
  | .copy h a => Sys2Proof.Machine.execCopy h a s
  | .copyv h a => Sys2Proof.Machine.execCopyv h a s
  | .fill h a => Sys2Proof.Machine.execFill h a s
  | .arm h region len a => Sys2Proof.Machine.execArm h region len a s
  | .disarm h region => Sys2Proof.Machine.execDisarm h region s
  | .config h region port count a => Sys2Proof.Machine.execConfig h region port count a s
  | .stop h region => Sys2Proof.Machine.execStop h region s
  | .marker h region mark => Sys2Proof.Machine.execMarker h region mark s
  | .snap h region len a => Sys2Proof.Machine.execSnap h region len a s
  | .resume h region len a => Sys2Proof.Machine.execResume h region len a s
  | .hang h region us a => Sys2Proof.Machine.execHang h region us a s
  | .hangDetect job region => Sys2Proof.Machine.execHangDetect job region s
  | .wsload h b a => Sys2Proof.Machine.execWsload h b a s
  | .wsread h b a => Sys2Proof.Machine.execWsread h b a s
  | .berthfill h berth a => Sys2Proof.Machine.execBerthfill h berth a s
  | .berthevict h force berth a => Sys2Proof.Machine.execBerthevict h force berth a s
  | .berthpin h pin berth => Sys2Proof.Machine.execBerthpin h pin berth s
  | .berthfree h berth => Sys2Proof.Machine.execBerthfree h berth s
  | .txload h len a => Sys2Proof.Machine.execTxload h len a s
  | .txrun h chunks a => Sys2Proof.Machine.execTxrun h chunks a s
  | .txChunkDecoded job qid tln k => Sys2Proof.Machine.execTxChunkDecoded job qid tln k s
  | .encode h retire frame a => Sys2Proof.Machine.execEncode h retire frame a s
  | .coll h id a => Sys2Proof.Machine.execColl h id a s
  | .collMembersMatched job id => Sys2Proof.Machine.execCollMembersMatched job id s
  | .notify h => Sys2Proof.Machine.execNotify h s
  | .bwait h bar n => Sys2Proof.Machine.execBwait h bar n s
  | .tlwaitq h q n => Sys2Proof.Machine.execTlwaitq h q n s
  | .preemptWatchdog job region => Sys2Proof.Machine.execPreemptWatchdog job region s
  | .mmp c p => Sys2Proof.Machine.execMmp c p s
  | .mmload c => Sys2Proof.Machine.execMmload c s
  | .vadd c p => Sys2Proof.Machine.execVadd c p s
  | .vsub c p => Sys2Proof.Machine.execVsub c p s
  | .vmul c p => Sys2Proof.Machine.execVmul c p s
  | .vfma c p => Sys2Proof.Machine.execVfma c p s
  | .vmax c p => Sys2Proof.Machine.execVmax c p s
  | .vmin c p => Sys2Proof.Machine.execVmin c p s
  | .vabs c p => Sys2Proof.Machine.execVabs c p s
  | .vneg c p => Sys2Proof.Machine.execVneg c p s
  | .vexp2 c p => Sys2Proof.Machine.execVexp2 c p s
  | .vlog2 c p => Sys2Proof.Machine.execVlog2 c p s
  | .vrcp c p => Sys2Proof.Machine.execVrcp c p s
  | .vrsqrt c p => Sys2Proof.Machine.execVrsqrt c p s
  | .vcvt c p => Sys2Proof.Machine.execVcvt c p s
  | .vcmp c p => Sys2Proof.Machine.execVcmp c p s
  | .vand c p => Sys2Proof.Machine.execVand c p s
  | .vor c p => Sys2Proof.Machine.execVor c p s
  | .vxor c p => Sys2Proof.Machine.execVxor c p s
  | .vshl c p => Sys2Proof.Machine.execVshl c p s
  | .vshr c p => Sys2Proof.Machine.execVshr c p s
  | .vred c p => Sys2Proof.Machine.execVred c p s
  | .vscan c p => Sys2Proof.Machine.execVscan c p s
  | .vquant c type => Sys2Proof.Machine.execVquant c type s
  | .vdequant c => Sys2Proof.Machine.execVdequant c s
  | .planes c types cmpr => Sys2Proof.Machine.execPlanes c types cmpr s
  | .buf c depth => Sys2Proof.Machine.execBuf c depth s
  | .scratch c size => Sys2Proof.Machine.execScratch c size s
  | .window c n d => Sys2Proof.Machine.execWindow c n d s
  | .pin c size => Sys2Proof.Machine.execPin c size s
  | .agen c p => Sys2Proof.Machine.execAgen c p s
  | .gather c p => Sys2Proof.Machine.execGather c p s
  | .scatter c p => Sys2Proof.Machine.execScatter c p s
  | .mload c p => Sys2Proof.Machine.execMload c p s
  | .mstore c p => Sys2Proof.Machine.execMstore c p s
  | .matom c p => Sys2Proof.Machine.execMatom c p s
  | .mvers c p => Sys2Proof.Machine.execMvers c p s
  | .siding c p => Sys2Proof.Machine.execSiding c p s
  | .race c e k => Sys2Proof.Machine.execRace c e k s
  | .count c p => Sys2Proof.Machine.execCount c p s
  | .merge c p => Sys2Proof.Machine.execMerge c p s
  | .split c p => Sys2Proof.Machine.execSplit c p s
  | .dup c ports m => Sys2Proof.Machine.execDup c ports m s
  | .gate c => Sys2Proof.Machine.execGate c s
  | .select c => Sys2Proof.Machine.execSelect c s
  | .delay c p => Sys2Proof.Machine.execDelay c p s
  | .stopgen c p => Sys2Proof.Machine.execStopgen c p s
  | .filter c => Sys2Proof.Machine.execFilter c s
  | .sortnet c desc => Sys2Proof.Machine.execSortnet c desc s
  | .wsport c base0 base1 sel => Sys2Proof.Machine.execWsport c base0 base1 sel s
  | .regionTrapStop job region => Sys2Proof.Machine.execRegionTrapStop job region s
  | .configSoftError job region => Sys2Proof.Machine.execConfigSoftError job region s
  | .jobSubmit port v => Sys2Proof.Machine.execJobSubmit port v s
  | .jobStart job => Sys2Proof.Machine.execJobStart job s
  | .jobEnd job => Sys2Proof.Machine.execJobEnd job s
  | .jobCancel port job => Sys2Proof.Machine.execJobCancel port job s
  | .jobRelease port job => Sys2Proof.Machine.execJobRelease port job s
  | .jobRetire port job => Sys2Proof.Machine.execJobRetire port job s
  | .jobres port => Sys2Proof.Machine.execJobres port s
  | .intstat port v => Sys2Proof.Machine.execIntstat port v s
  | .semWrite port n v => Sys2Proof.Machine.execSemWrite port n v s
  | .windata port v => Sys2Proof.Machine.execWindata port v s
  | .registerWrite port off v => Sys2Proof.Machine.execRegisterWrite port off v s
  | .apertureAccess port off write v => Sys2Proof.Machine.execApertureAccess port off write v s
  | .hostPortReset port => Sys2Proof.Machine.execHostPortReset port s
  | .trunkCellReceive sdie ddie cell good => Sys2Proof.Machine.execTrunkCellReceive sdie ddie cell good s
  | .linkDown d1 d2 => Sys2Proof.Machine.execLinkDown d1 d2 s
  | .timeExchange die => Sys2Proof.Machine.execTimeExchange die s
  | .treq die => Sys2Proof.Machine.execTreq die s
  | .trsp die => Sys2Proof.Machine.execTrsp die s
  | .tfup die => Sys2Proof.Machine.execTfup die s
  | .faultRecordPost die => Sys2Proof.Machine.execFaultRecordPost die s
  | .pgdoneRetry die token => Sys2Proof.Machine.execPgdoneRetry die token s
  | .pgdonePage die token => Sys2Proof.Machine.execPgdonePage die token s
  | .pgdoneNoframe die token => Sys2Proof.Machine.execPgdoneNoframe die token s
  | .pgswap die => Sys2Proof.Machine.execPgswap die s
  | .swapComplete die => Sys2Proof.Machine.execSwapComplete die s
  | .unmap => Sys2Proof.Machine.execUnmap s
  | .migrate => Sys2Proof.Machine.execMigrate s
  | .powerOn => Sys2Proof.Machine.execPowerOn s
  | .fence die => Sys2Proof.Machine.execFence die s
  | .seqrst die => Sys2Proof.Machine.execSeqrst die s
  | .mgmtWatchdog die => Sys2Proof.Machine.execMgmtWatchdog die s
  | .report port => Sys2Proof.Machine.execReport port s
  | .update port => Sys2Proof.Machine.execUpdate port s
  | .setbudget port => Sys2Proof.Machine.execSetbudget port s
  | .getbudget port => Sys2Proof.Machine.execGetbudget port s
  | .telemetry port => Sys2Proof.Machine.execTelemetry port s
  | .log port => Sys2Proof.Machine.execLog port s
  | .reset port => Sys2Proof.Machine.execReset port s
  | .rcvgo port => Sys2Proof.Machine.execRcvgo port s
  | .budgetPeriodStart die => Sys2Proof.Machine.execBudgetPeriodStart die s
  | .powerCheck die => Sys2Proof.Machine.execPowerCheck die s
  | .schedulerFillComplete die k => Sys2Proof.Machine.execSchedulerFillComplete die k s
  | .grandmasterLock t => Sys2Proof.Machine.execGrandmasterLock t s
  | .linkRetrain d1 d2 ok => Sys2Proof.Machine.execLinkRetrain d1 d2 ok s
  | .externalSwitchResult job a reduce w op seq v => Sys2Proof.Machine.execExternalSwitchResult job a reduce w op seq v s
  | .switchBoundaryComplete job sc die => Sys2Proof.Machine.execSwitchBoundaryComplete job sc die s

end Sys2Proof.Machine
end

