-- ==== Sys2Proof/Machine/Control.lean ====
section
/-! DEFINITION. The control block of a die, as the management cores reach it: DIECTL and the pager interface
(22_bringup.md R406, 21_paging.md R393). -/

namespace Sys2Proof.Machine

/-- DIECTL as a read returns it: BUSTAGE, STATE and ACTIVE; the other bits read 0 (R406). -/
def State.diectl (s : State) (d : Nat) : Nat :=
  let x := s.die d
  b2n x.active + dieStateCode x.state * 2 ^ 28 + x.bustage % 2 ^ 8 * 2 ^ 32

/-- A write of DIECTL: FENCE and SEQRST; writes of the other bits are ignored. -/
def State.diectlWrite (s : State) (d : Nat) (v : Word64) : State :=
  let s := if bit v.toNat 8 && s.live d then s.fenceDie d fenceWritten else s
  if bit v.toNat 4 then s.seqrst d else s

/-- A register of the pager interface as a read returns it (R393). A read of PGWVER is answered once every write counted in
it has landed (R394). PGDONE is not read. -/
def State.pgrRead (s : State) (d off : Nat) : Nat × State :=
  let p := (s.die d).pager
  if off = 0x00 then (p.pgrbase.toNat, s)
  else if off = 0x08 then (p.pgrlog, s)
  else if off = 0x10 then (p.pgprod, s)
  else if off = 0x18 then (p.pgcons, s)
  else if off = 0x28 then (p.pgea.toNat, s)
  else if off = 0x30 then s.wverAt p.entry
  else if off = 0x38 then (p.pgnew.toNat, s)
  else if off = 0x40 then (p.pgexp.toNat, s)
  else if off = 0x48 then (b2n p.busy + 2 * b2n p.ok, s)
  else (0, s)

/-- What a meaning of a step answers, as a state. -/
def nextOr (s : State) (o : Host.Outcome State Fault Refusal) : State :=
  match o with
  | .next t => t
  | _ => s

/-- A write of a register of the pager interface (R393). PGSWAP starts no swap while one is under way, whose entry and
comparison stand as step 1 found them (R395; log 93). -/
def State.pgrWrite (s : State) (d off : Nat) (v : Word64) : State :=
  let p := (s.die d).pager
  if off = 0x00 then s.setPgr d { p with pgrbase := BitVec.ofNat 64 (bf v.toNat 6 42 * 2 ^ 6) }
  else if off = 0x08 then s.setPgr d { p with pgrlog := bf v.toNat 0 4 }
  else if off = 0x18 then s.setPgr d { p with pgcons := v.toNat }
  else if off = 0x20 then
    let token := bf v.toNat 16 48
    match bf v.toNat 0 3 with
    | 1 => nextOr s (execPgdoneRetry d token s)
    | 2 => nextOr s (execPgdonePage d token s)
    | 3 => nextOr s (execPgdoneNoframe d token s)
    | _ => s
  else if off = 0x28 then s.setPgr d { p with pgea := BitVec.ofNat 64 (bf v.toNat 4 44 * 2 ^ 4) }
  else if off = 0x38 then s.setPgr d { p with pgnew := v }
  else if off = 0x40 then s.setPgr d { p with pgexp := BitVec.ofNat 32 (bf v.toNat 0 32) }
  else if off = 0x48 then (if bit v.toNat 0 then s.swapStart d else s)
  else s

/-- Address of die `d`'s control block in the space of the management cores (R406). -/
def controlBlock (d : Nat) : Nat := 0xF8000000 + 0x10000 * d

/-- The management cores read or write a register of a die's control block; what a read returns stands in `depot.mgmt`. DIECTL is
there in every state of the die, also before Depot runs; the pager interface is reached by the active management block, on live
dies (21_paging.md R393). -/
def State.control (s : State) (addr : Nat) (write : Option Word64) : State :=
  let d := (addr - controlBlock 0) / 0x10000
  let off := (addr - controlBlock 0) % 0x10000
  if addr < controlBlock 0 || 4 ≤ d then s
  else
    let pgr := 0x100 ≤ off && s.live d && s.depot.die.isSome
    match write with
    | some v => if off = 0 then s.diectlWrite d v else if pgr then s.pgrWrite d (off - 0x100) v else s
    | none =>
      let (v, s) := if off = 0 then (s.diectl d, s) else if pgr then s.pgrRead d (off - 0x100) else (0, s)
      { s with depot := { s.depot with mgmt := BitVec.ofNat 64 v } }

end Sys2Proof.Machine
end

