-- ==== Sys2Proof/Machine/Turns.lean ====
section
/-! DEFINITION. Whose turn it is: what the party in focus does next, how station time passes on a die, and the inputs
(log 1, log 9). -/

namespace Sys2Proof.Machine

/-! ### Station time (01_machine.md R18, 22_bringup.md R411, R412) -/

/-- Station time after `n` units, with the slewing of an offset not yet absorbed: one unit in every 1,024. -/
def slewed (v : Servo) (stime : Word64) (n : Nat) : Servo × Word64 :=
  let k := min ((v.slew + n) / 1024) v.residue.natAbs
  let v' := { v with slew := (v.slew + n) % 1024, residue := if 0 ≤ v.residue then v.residue - k else v.residue + k }
  (v', if 0 ≤ v.residue then stime + BitVec.ofNat 64 (n + k) else stime + BitVec.ofNat 64 (n - k))

/-- Contexts that hold a task of each class are charged (02_execution.md R41). -/
def State.chargeClasses (s : State) (d n : Nat) : Vector Nat 8 :=
  s.ctxs.foldl (fun v c =>
    if c.die == d then
      let k := recClass ((s.taskRec c.job c.idx).getD 0)
      vset v k (vget v k 0 + n)
    else v) (s.die d).charged

/-- `n` units of a die's clock and `cyc` cycles of its fabric pass. A follower's STIME reads 0 until its first complete
exchange. -/
def State.dieTime (s : State) (d n cyc : Nat) : State :=
  let x := s.die d
  if x.state = .off then s
  else
    let x := { x with cycle := x.cycle + BitVec.ofNat 64 cyc
                      servo := { x.servo with free := x.servo.free + BitVec.ofNat 64 n }
                      charged := s.chargeClasses d n }
    if s.depot.reference = some d || x.servo.locked then
      let (v, t) := slewed x.servo x.stime n
      s.setDie d { x with servo := v, stime := t }
    else s.setDie d x

/-- A passing of time is one of this machine: every locked follower ends within its STIME_EPS of the reference, which bounds
that distance (22_bringup.md R412). One that a grandmaster lock or a new reference has left outside comes no further from it
(log 9). -/
def State.timeOk (s t : State) : Bool :=
  match s.depot.reference with
  | none => true
  | some r => [0, 1, 2, 3].all (fun d =>
      !(s.die d).servo.locked || decide (t.timeError r d ≤ t.stimeEps d) ||
        decide (s.stimeEps d < s.timeError r d ∧ t.timeError r d ≤ s.timeError r d))

/-- Time passes on every die at once: so many units of each die's clock and so many cycles of its fabric, which are inputs,
since the clocks run free (00_scope.md R5, 06_ordering.md R159). -/
def State.timePasses (s : State) (units cycles : List Nat) : State :=
  let t := [0, 1, 2, 3].foldl (fun s d => s.dieTime d (units.getD d 0) (cycles.getD d 0)) s
  if s.timeOk t then t else s

/-! ### Inputs -/

/-- The host writes its own memory (20_host.md R378). -/
def State.hostWrites (s : State) (port off : Nat) (bytes : List Byte) : State :=
  let (view, rel) := s.viewOf hostJob port
  let ls := upFrom (hostLoc port off) bytes.length
  let (i, s) := s.storeNow (hostAgent port) (cells ls bytes) (s.hostKnows view ls) true
  s.setView hostJob port (insertNat i view) rel

/-- What a die's sensors read (23_fleet.md R428). -/
def State.sensed (s : State) (d junction inlet power : Nat) : State :=
  s.setDie d { s.die d with junction := junction, inlet := inlet, power := power }

/-- Data that turns uncorrectable, and errors that were corrected (23_fleet.md R429, R431). -/
def State.damaged (s : State) (d : Nat) (locs : List Nat) (corrected : Nat) : State :=
  let x := s.die d
  { s.setDie d (x.count (fun c => { c with ecccor := c.ecccor + corrected })) with badBytes := unionNat s.badBytes locs }

/-! ### Draws on one tile (04_numbers.md R109; log 84) -/

/-- The next firing of an operator draws from its tile's generator. -/
def State.drawsNext (s : State) (r : Region) (v : OpView) : Bool :=
  opRounds (opc v.op.word) && bf v.op.word.toNat 243 3 == 4 && v.op.outbox.isEmpty &&
    (match decodeOp v.op.word with
      | none => false
      | some i =>
        match opTurn i s r v with
        | .fire (.go g) => g.gen.isSome
        | _ => false)

/-- Order of draws: tiles by y and x, and within a tile its slots. -/
def Op.drawKey (o : Op) : Nat := (o.y * 32 + o.x) * 4 + o.slot

/-- An operator on whose tile another one rounds under SR as well. -/
def Region.sharesGen (r : Region) (v : OpView) : Bool :=
  (upFrom 0 r.body.ops.length).any (fun k => k != v.ix && (r.body.ops[k]?).any (fun o =>
    o.x == v.op.x && o.y == v.op.y && opRounds (opc o.word) && bf o.word.toNat 243 3 == 4))

/-- A data command of the region's queue can start now. -/
def State.dataComing (s : State) (r : Region) : Bool :=
  match s.candidate r.job r.v with
  | some (_, c, .go) => isData c.op
  | _ => false

/-- Operators of a tile that share its generator draw in an order that no stall changes: they wait while a data command of
the region can start, or anything of the region can go on that draws from no shared generator, and then the first by tile
and slot draws. -/
def State.drawHeld (s : State) (r : Region) (v : OpView) : Bool :=
  r.sharesGen v && s.drawsNext r v && (s.dataComing r ||
    (upFrom 0 r.body.ops.length).any (fun k => k != v.ix && (match r.view k with
      | none => false
      | some u =>
        let st := s.opState r u
        (st.1 == 0 || st.2) &&
          (!(r.sharesGen u && s.drawsNext r u) || decide (u.op.drawKey < v.op.drawKey)))))

/-! ### Walks of the hardware that cannot be made (21_paging.md R395, R397; log 95) -/

/-- A fault of the hardware's own is pending for the page of a walk. -/
def State.walkFaulted (s : State) (m : HwMiss) : Bool :=
  [0, 1, 2, 3].any (fun d => (s.die d).faults.any (fun f =>
    f.src == .hardware && !f.lost && f.job == m.job && f.va.toNat / 2 ^ 16 == m.va / 2 ^ 16))

/-- A step that needs a walk of the hardware to a job's structures, which waits or faults, is not taken: it is made again later,
and a page fault of the walk is pending meanwhile. `after` is what the step would have led to, `before` the state without it. -/
def State.settle (before after : State) : State :=
  match after.missed with
  | none => after
  | some m =>
    match m.fault with
    | none => before
    | some (level, cause) =>
      if before.walkFaulted m then before
      else (before.pageFault (before.liveDies.headD 0) m.job .hardware m.va 0 .read level cause).2

/-- An outcome of a step, settled. -/
def State.settled (before : State) (o : Host.Outcome State Fault Refusal) : Host.Outcome State Fault Refusal :=
  match o with
  | .next after => .next (before.settle after)
  | o => o

/-! ### The party in focus -/

/-- What the party in focus does next: an instruction, or a step that is none of its instructions. A context fetches
the next block, runs the word it has come to, or falls through (02_execution.md R34, 09_scalar_compute.md R231); a
started command and an operator of a RUNNING region run their word; the turn of a region whose image must be read again
goes to that (18_arming.md R363). -/
def State.due (s : State) : State ⊕ Instr :=
  match s.focus with
  | .none => .inl s
  | .context d q c =>
    match s.ctx? d q c with
    | none => .inl s
    | some x =>
      if x.words = [] then .inl (s.fetchBlock x)
      else
        match x.words[x.ip]? with
        | none => .inl (s.fallThrough x)
        | some w =>
          match decodeScalar w with
          | .ok i => .inr i
          | .error r => .inl (s.trapTask x 0x01 0 (detailOf x.ip r))
  | .command job q tln =>
    match s.cmd? job q tln with
    | none => .inl s
    | some c =>
      match decodeCmd c.word with
      | .ok i => if c.phase = .running then .inr i else .inl s
      | .error _ => .inl s
  | .operator job v ix =>
    match s.region? job v with
    | none => .inl s
    | some r =>
      match r.view ix with
      | none => .inl s
      | some v =>
        if r.reloading then .inl (s.reload r)
        else if r.resumeDue && r.state == .saved then .inl (s.resumeScan r)
        else
        match decodeOp v.op.word with
        | some i => if r.state = .running && !s.drawHeld r v then .inr i else .inl s
        | none => .inl s

end Sys2Proof.Machine
end

