-- ==== Sys2Proof/Machine/Step.lean ====
section
/-! DEFINITION. One step of the package: the next turn of the agenda, or the party in focus (log 1). -/

namespace Sys2Proof.Machine

/-- The party in focus does what it does next. -/
def State.runFocus (s : State) : Host.Outcome State Fault Refusal :=
  match s.due with
  | .inl t => .next t
  | .inr i => exec i s

/-- One turn of the agenda. -/
def State.takeTurn (s : State) (t : Turn) : Host.Outcome State Fault Refusal :=
  match t with
  | .event i => exec i s
  | .at f => { s with focus := f }.runFocus
  | .time us cs => .next (s.timePasses us cs)
  | .trunk a b x => .next (s.trunkAct a b x)
  | .aperture p => .next (s.apertureTurn p)
  | .control a w => .next (s.control a w)
  | .hostMem p o bs => .next (s.hostWrites p o bs)
  | .sense d j i p => .next (s.sensed d j i p)
  | .damage d ls k => .next (s.damaged d ls k)

/-- One step. A turn that cannot be taken yet goes behind the others of the agenda (log 95). -/
def step (s : State) : Host.Outcome State Fault Refusal :=
  match s.agenda with
  | [] => s.settled s.runFocus
  | t :: rest => { s with agenda := rest ++ [t] }.settled ({ s with agenda := rest }.takeTurn t)

/-- A context whose fetched block holds one instruction. -/
def fetchCtx (w : Nat) : Ctx :=
  { die := 0, seq := 0, ctx := 0, job := 0, idx := 0, gen := 0, pc := 0, words := [encodeHeader 0 false, BitVec.ofNat 32 w],
    ip := 1, base := RegFile.zero, regs := RegFile.zero, raised := 0, baseView := [], view := [], baseRel := [], rel := [],
    held := [], commitPt := none, issues := [], taskOps := [], halting := false, stalled := none }

/-- A started command with the given word. -/
def fetchCmd (w : Nat) : Cmd :=
  { tln := 1, word := BitVec.ofNat 128 w, cls := 0, deadline := 0, view := [], phase := .running, progress := 0, buf := [],
    desc := 0, stalled := none, node := none, counted := [] }

/-- A queue whose kind takes the command (08_encodings.md R191). -/
def fetchQid (opcode : Nat) : Nat :=
  if opcode = 5 || opcode = 6 || opcode = 7 then 0x1000
  else if opcode = 0x10 || opcode = 0x11 then 0x5000
  else if 0x12 ≤ opcode && opcode ≤ 0x15 then 0x6000
  else if opcode = 0x18 || opcode = 0x19 then 0x3000
  else if opcode = 0x1A then 0x4000
  else if opcode = 0x1B then 0x2000
  else 0

/-- A RUNNING region of one operator. -/
def fetchRegion (w : Nat) : Region :=
  let word : OpWord := BitVec.ofNat 256 w
  let o : Op :=
    { word := word, armed := word, forced := false, x := 0, y := 0, slot := 0, deferred := false, mem := OpMem.init word,
      outbox := [], pos := [], inside := [], marked := [], finals := [], frozen := false }
  let body : Body := { ops := [o], edges := [], tiles := [{ x := 0, y := 0, tflags := 0, gen := 1 }], ports := [] }
  { job := 0, v := 0, state := .running, die := 0, x0 := 0, y0 := 0, w := 1, h := 1, imgVa := 0, imgLen := 0, seed := 0,
    watchdog := 0, ranges := [], body := body, granules := [], launch := none, launchIn := [], node := none, nodes := [], trap := none, cause := 0, marker := 0,
    stopTime := 0, fault := none, hangUs := 0, hangBuf := 0, moved := 0, stalls := [], preempt := none, cutOpen := false, grouped := [],
    saved := none, reloading := false, mapDue := none, resumeDue := false }

/-- The instruction stands where step fetches its next one: in the block of context 0 of die 0, as the started command
of a queue, or as the operator of a running region, and that party is in focus with an empty agenda (log 2). -/
def State.withFetchWord (s : State) (nbits w : Nat) : State :=
  if nbits ≤ 32 then { s.setCtx (fetchCtx w) with agenda := [], focus := .context 0 0 0 }
  else if nbits ≤ 128 then
    let q := fetchQid (bf w 120 8)
    { s.setQueue { s.queue 0 q with started := [fetchCmd w] } with agenda := [], focus := .command 0 q 1 }
  else { s.setRegion (fetchRegion w) with agenda := [], focus := .operator 0 0 0 }

end Sys2Proof.Machine
end

