-- ==== Sys2Proof/Laws/Fields.lean ====
section
/-! SUPPORT. Bit fields of the words that the encoders build (08_encodings.md R175-R193). -/

namespace Sys2Proof

theorem bf_low {n len : Nat} (h : n < 2 ^ len) : bf n 0 len = n := by
  unfold bf; rw [Nat.pow_zero, Nat.div_one, Nat.mod_eq_of_lt h]

theorem b2n_lt (b : Bool) : b2n b < 2 := by cases b <;> decide

theorem bit_b2n (b : Bool) : (b2n b == 1) = b := by cases b <;> rfl

theorem bit_eq (n i : Nat) : bit n i = (bf n i 1 == 1) := rfl

@[simp] theorem bf_zero (lo len : Nat) : bf 0 lo len = 0 := by simp [bf]

/-- A field below a multiple of a power of two is that of the rest. -/
theorem bf_above (h k l lo len : Nat) (hk : lo + len ≤ k) : bf (h * 2 ^ k + l) lo len = bf l lo len := by
  unfold bf
  obtain ⟨j, rfl⟩ := Nat.exists_eq_add_of_le hk
  rw [show h * 2 ^ (lo + len + j) + l = l + 2 ^ lo * (2 ^ len * (h * 2 ^ j)) by
    rw [Nat.pow_add, Nat.pow_add, Nat.add_comm]
    congr 1
    rw [← Nat.mul_assoc, Nat.mul_comm h, Nat.mul_assoc, Nat.mul_assoc]]
  rw [Nat.add_mul_div_left _ _ (Nat.two_pow_pos lo), Nat.add_mul_mod_self_left]

theorem toNat_ofNat_lt {n w : Nat} (h : n < 2 ^ w) : (BitVec.ofNat w n).toNat = n := by
  rw [BitVec.toNat_ofNat, Nat.mod_eq_of_lt h]

@[simp] theorem ofNat_toNat {w : Nat} (x : BitVec w) : BitVec.ofNat w x.toNat = x := by simp

/-! ### Codes of modes -/

@[simp] theorem FFmt.ofCode_code (f : FFmt) : FFmt.ofCode f.code = f := by cases f <;> rfl
@[simp] theorem FRnd.ofCode_code (f : FRnd) : FRnd.ofCode? f.code = some f := by cases f <;> rfl
@[simp] theorem IKind.ofCode_code (f : IKind) : IKind.ofCode f.code = f := by cases f <;> rfl
@[simp] theorem CmpRel.ofCode_code (f : CmpRel) : CmpRel.ofCode? f.code = some f := by cases f <;> rfl
@[simp] theorem CmpiRel.ofCode_code (f : CmpiRel) : CmpiRel.ofCode f.code = f := by cases f <;> rfl
@[simp] theorem FRel.ofCode_code (f : FRel) : FRel.ofCode? f.code = some f := by cases f <;> rfl
@[simp] theorem LdMode.ofCode_code (f : LdMode) : LdMode.ofCode? f.code = some f := by cases f <;> rfl
@[simp] theorem StMode.ofCode_code (f : StMode) : StMode.ofCode? f.code = some f := by cases f <;> rfl
@[simp] theorem LdcMode.ofCode_code (f : LdcMode) : LdcMode.ofCode? f.code = some f := by cases f <;> rfl
@[simp] theorem FMode.ofCode_code (f : FMode) : FMode.ofCode? f.code = some f := by cases f <;> rfl
@[simp] theorem VMode.ofCode_code (f : VMode) : VMode.ofCode? f.code = some f := by cases f <;> rfl
@[simp] theorem AmoOrder.ofCode_code (f : AmoOrder) : AmoOrder.ofCode f.code = f := by cases f <;> rfl

theorem FFmt.code_lt (f : FFmt) : f.code < 4 := by cases f <;> decide
theorem FRnd.code_lt (f : FRnd) : f.code < 8 := by cases f <;> decide
theorem IKind.code_lt (f : IKind) : f.code < 4 := by cases f <;> decide
theorem CmpRel.code_lt (f : CmpRel) : f.code < 8 := by cases f <;> decide
theorem CmpiRel.code_lt (f : CmpiRel) : f.code < 4 := by cases f <;> decide
theorem FRel.code_lt (f : FRel) : f.code < 8 := by cases f <;> decide
theorem LdMode.code_lt (f : LdMode) : f.code < 8 := by cases f <;> decide
theorem StMode.code_lt (f : StMode) : f.code < 8 := by cases f <;> decide
theorem LdcMode.code_lt (f : LdcMode) : f.code < 8 := by cases f <;> decide
theorem FMode.code_lt (f : FMode) : f.code < 8 := by cases f <;> decide
theorem VMode.code_lt (f : VMode) : f.code < 4 := by cases f <;> decide
theorem AmoOrder.code_lt (f : AmoOrder) : f.code < 4 := by cases f <;> decide

/-! ### Operator words -/

/-- The part of an operator word above PARAM. -/
theorem cfgNat_split (op : Nat) (c : OpCfg) : ∃ h, cfgNat op c = h * 2 ^ 144 := by
  refine ⟨op * 2 ^ 104 + b2n c.deferred * 2 ^ 103 + b2n c.sat * 2 ^ 102 + c.rnd.toNat * 2 ^ 99
    + c.in3.toNat * 2 ^ 84 + c.in2.toNat * 2 ^ 72 + c.in1.toNat * 2 ^ 60 + c.in0.toNat * 2 ^ 48
    + c.out3.toNat * 2 ^ 36 + c.out2.toNat * 2 ^ 24 + c.out1.toNat * 2 ^ 12 + c.out0.toNat, ?_⟩
  unfold cfgNat; omega

theorem cfg_param (op : Nat) (c : OpCfg) (q lo len : Nat) (h : lo + len ≤ 144) :
    bf (cfgNat op c + q) lo len = bf q lo len := by
  obtain ⟨x, hx⟩ := cfgNat_split op c
  rw [hx]; exact bf_above x 144 q lo len h

theorem cfg_bounds (c : OpCfg) : b2n c.deferred < 2 ∧ b2n c.sat < 2 ∧ c.rnd.toNat < 8 ∧ c.in3.toNat < 4096 ∧
    c.in2.toNat < 4096 ∧ c.in1.toNat < 4096 ∧ c.in0.toNat < 4096 ∧ c.out3.toNat < 4096 ∧ c.out2.toNat < 4096 ∧
    c.out1.toNat < 4096 ∧ c.out0.toNat < 4096 :=
  ⟨b2n_lt _, b2n_lt _, c.rnd.isLt, c.in3.isLt, c.in2.isLt, c.in1.isLt, c.in0.isLt, c.out3.isLt, c.out2.isLt,
    c.out1.isLt, c.out0.isLt⟩

theorem cfg_lt (op : Nat) (c : OpCfg) (q : Nat) (ho : op < 256) (hq : q < 2 ^ 144) : cfgNat op c + q < 2 ^ 256 := by
  have := cfg_bounds c
  unfold cfgNat; omega

theorem cfg_opcode (op : Nat) (c : OpCfg) (q : Nat) (ho : op < 256) (hq : q < 2 ^ 144) :
    opOpcode (cfgNat op c + q) = op := by
  have := cfg_bounds c
  unfold opOpcode bf cfgNat; omega

theorem cfg_reserved (op : Nat) (c : OpCfg) (q : Nat) (hq : q < 2 ^ 144) : bf (cfgNat op c + q) 240 3 = 0 := by
  have := cfg_bounds c
  unfold bf cfgNat; omega

theorem cfg_opCfg (op : Nat) (c : OpCfg) (q : Nat) (hq : q < 2 ^ 144) : opCfg (cfgNat op c + q) = c := by
  have hb := cfg_bounds c
  have f1 : bf (cfgNat op c + q) 247 1 = b2n c.deferred := by unfold bf cfgNat; omega
  have f2 : bf (cfgNat op c + q) 246 1 = b2n c.sat := by unfold bf cfgNat; omega
  have f3 : bf (cfgNat op c + q) 243 3 = c.rnd.toNat := by unfold bf cfgNat; omega
  have e0 : bf (cfgNat op c + q) 192 12 = c.in0.toNat := by unfold bf cfgNat; omega
  have e1 : bf (cfgNat op c + q) 204 12 = c.in1.toNat := by unfold bf cfgNat; omega
  have e2 : bf (cfgNat op c + q) 216 12 = c.in2.toNat := by unfold bf cfgNat; omega
  have e3 : bf (cfgNat op c + q) 228 12 = c.in3.toNat := by unfold bf cfgNat; omega
  have e4 : bf (cfgNat op c + q) 144 12 = c.out0.toNat := by unfold bf cfgNat; omega
  have e5 : bf (cfgNat op c + q) 156 12 = c.out1.toNat := by unfold bf cfgNat; omega
  have e6 : bf (cfgNat op c + q) 168 12 = c.out2.toNat := by unfold bf cfgNat; omega
  have e7 : bf (cfgNat op c + q) 180 12 = c.out3.toNat := by unfold bf cfgNat; omega
  simp only [opCfg, bit_eq, f1, f2, f3, e0, e1, e2, e3, e4, e5, e6, e7, bit_b2n, ofNat_toNat]

/-- An operator word decodes to the operator that its opcode, common fields and PARAM give. -/
theorem decodeOp_mk (op : Nat) (c : OpCfg) (q : Nat) (i : Instr) (ho : op < 256) (hq : q < 2 ^ 144)
    (hp : opParamOk (cfgNat op c + q) = true) (hf : decodeOpFields (cfgNat op c + q) = some i) :
    decodeOp (BitVec.ofNat 256 (cfgNat op c + q)) = some i := by
  simp only [decodeOp, toNat_ofNat_lt (cfg_lt op c q ho hq), cfg_reserved op c q hq, hp, beq_self_eq_true, Bool.and_true,
    if_true]
  exact hf

theorem vecNat_lt (p : VecParam) : vecNat p < 2 ^ 144 := by
  have h1 := p.afmt.isLt; have h2 := p.acc.isLt; have h3 := p.alev.isLt; have h4 := p.rel.isLt; have h5 := p.op.isLt
  have h6 := p.span.isLt; have h7 := b2n_lt p.immb; have h8 := p.const.isLt
  unfold vecNat; omega

theorem vecNat_reserved (p : VecParam) : bf (vecNat p) 112 11 = 0 ∧ bf (vecNat p) 0 80 = 0 := by
  have h8 := p.const.isLt
  constructor <;> (unfold bf vecNat; omega)

theorem vecParam_vecNat (op : Nat) (c : OpCfg) (p : VecParam) : vecParam (cfgNat op c + vecNat p) = p := by
  have h1 := p.afmt.isLt; have h2 := p.acc.isLt; have h3 := p.alev.isLt; have h4 := p.rel.isLt; have h5 := p.op.isLt
  have h6 := p.span.isLt; have h7 := b2n_lt p.immb; have h8 := p.const.isLt
  have f1 : bf (vecNat p) 136 8 = p.afmt.toNat := by unfold bf vecNat; omega
  have f2 : bf (vecNat p) 134 2 = p.acc.toNat := by unfold bf vecNat; omega
  have f3 : bf (vecNat p) 131 3 = p.alev.toNat := by unfold bf vecNat; omega
  have f4 : bf (vecNat p) 128 3 = p.rel.toNat := by unfold bf vecNat; omega
  have f5 : bf (vecNat p) 126 2 = p.op.toNat := by unfold bf vecNat; omega
  have f6 : bf (vecNat p) 124 2 = p.span.toNat := by unfold bf vecNat; omega
  have f7 : bf (vecNat p) 123 1 = b2n p.immb := by unfold bf vecNat; omega
  have f8 : bf (vecNat p) 80 32 = p.const.toNat := by unfold bf vecNat; omega
  simp only [vecParam, bit_eq]
  rw [cfg_param _ _ _ _ _ (by decide), cfg_param _ _ _ _ _ (by decide), cfg_param _ _ _ _ _ (by decide),
    cfg_param _ _ _ _ _ (by decide), cfg_param _ _ _ _ _ (by decide), cfg_param _ _ _ _ _ (by decide),
    cfg_param _ _ _ _ _ (by decide), cfg_param _ _ _ _ _ (by decide)]
  simp only [f1, f2, f3, f4, f5, f6, f7, f8, bit_b2n, ofNat_toNat]

/-- The operators 0x20 to 0x34. -/
theorem decodeOp_vec (k : Nat) (c : OpCfg) (p : VecParam) (i : Instr) (hk : k ≤ 0x14) (hi : decodeVec k c p = some i) :
    decodeOp (BitVec.ofNat 256 (cfgNat (0x20 + k) c + vecNat p)) = some i := by
  have hq := vecNat_lt p
  have ho := cfg_opcode (0x20 + k) c (vecNat p) (by omega) hq
  have e1 : (0x20 + k == 0x10) = false := by simp; omega
  have e2 : (0x20 + k == 0x11) = false := by simp; omega
  have e3 : (decide (0x20 ≤ 0x20 + k) && decide (0x20 + k ≤ 0x34)) = true := by simp; omega
  refine decodeOp_mk _ _ _ _ (by omega) hq ?_ ?_
  · simp only [opParamOk, ho, e1, e2, e3, if_true, Bool.false_eq_true, if_false]
    rw [cfg_param _ _ _ _ _ (by decide), cfg_param _ _ _ _ _ (by decide), (vecNat_reserved p).1, (vecNat_reserved p).2]
    rfl
  · simp only [decodeOpFields, ho, e3, if_true, vecParam_vecNat, cfg_opCfg _ _ _ hq]
    rw [show 0x20 + k - 0x20 = k by omega]
    exact hi

/-! ### Stream commands -/

theorem cmd_lt (op : Nat) (h : CmdHead) (x r p b a : Nat) (ho : op < 256) (hx : x < 16) (hr : r < 64) (hp : p < 64)
    (hb : b < 2 ^ 36) (ha : a < 2 ^ 56) : cmdNat op h x r p b a < 2 ^ 128 := by
  have h1 := b2n_lt h.notify; have h2 := b2n_lt h.arrive; have h3 := b2n_lt h.after; have h4 := b2n_lt h.inherit
  have h5 := h.sel.isLt
  unfold cmdNat; omega

/-- The fields of a command word are those that it was built from. -/
theorem cmd_fields (op : Nat) (h : CmdHead) (x r p b a : Nat) (ho : op < 256) (hx : x < 16) (hr : r < 64) (hp : p < 64)
    (hb : b < 2 ^ 36) (ha : a < 2 ^ 56) :
    cmdOpcode (cmdNat op h x r p b a) = op ∧ cmdHead (cmdNat op h x r p b a) = h ∧ cmdX (cmdNat op h x r p b a) = x ∧
      cmdRegion (cmdNat op h x r p b a) = r ∧ cmdPort (cmdNat op h x r p b a) = p ∧ cmdB (cmdNat op h x r p b a) = b ∧
      cmdA (cmdNat op h x r p b a) = a := by
  have h1 := b2n_lt h.notify; have h2 := b2n_lt h.arrive; have h3 := b2n_lt h.after; have h4 := b2n_lt h.inherit
  have h5 := h.sel.isLt
  have f1 : bf (cmdNat op h x r p b a) 119 1 = b2n h.notify := by unfold bf cmdNat; omega
  have f2 : bf (cmdNat op h x r p b a) 118 1 = b2n h.arrive := by unfold bf cmdNat; omega
  have f3 : bf (cmdNat op h x r p b a) 117 1 = b2n h.after := by unfold bf cmdNat; omega
  have f4 : bf (cmdNat op h x r p b a) 116 1 = b2n h.inherit := by unfold bf cmdNat; omega
  have f5 : bf (cmdNat op h x r p b a) 0 8 = h.sel.toNat := by unfold bf cmdNat; omega
  refine ⟨?_, ?_, ?_, ?_, ?_, ?_, ?_⟩
  · unfold cmdOpcode bf cmdNat; omega
  · simp only [cmdHead, bit_eq, f1, f2, f3, f4, f5, bit_b2n, ofNat_toNat]
  · unfold cmdX bf cmdNat; omega
  · unfold cmdRegion bf cmdNat; omega
  · unfold cmdPort bf cmdNat; omega
  · unfold cmdB bf cmdNat; omega
  · unfold cmdA bf cmdNat; omega

/-- A command word decodes to the command that its fields give. -/
theorem decodeCmd_mk (op : Nat) (h : CmdHead) (x r p b a : Nat) (i : Instr) (hw : cmdNat op h x r p b a < 2 ^ 128)
    (ho : cmdAssigned (cmdOpcode (cmdNat op h x r p b a)) = true)
    (hi : decodeCmdFields (cmdNat op h x r p b a) = some i) :
    decodeCmd (BitVec.ofNat 128 (cmdNat op h x r p b a)) = .ok i := by
  simp only [decodeCmd, toNat_ofNat_lt hw, ho, if_true, hi]

/-! ### Scalar words -/

/-- The fields of a TRI word. -/
theorem tri_fields (m d a b f : Nat) (hd : d < 32) (ha : a < 32) (hb : b < 32) (hf : f < 2048) :
    bf (tri m d a b f) 26 6 = m % 64 ∧ bf (tri m d a b f) 21 5 = d ∧ bf (tri m d a b f) 16 5 = a ∧
      bf (tri m d a b f) 11 5 = b := by
  refine ⟨?_, ?_, ?_, ?_⟩ <;> (unfold bf tri; omega)

theorem tri_func (m d a b f lo len : Nat) (h : lo + len ≤ 11) : bf (tri m d a b f) lo len = bf f lo len := by
  rw [show tri m d a b f = (m * 2 ^ 15 + d * 2 ^ 10 + a * 2 ^ 5 + b) * 2 ^ 11 + f by unfold tri; omega]
  exact bf_above _ 11 f lo len h

theorem tri_lt (m d a b f : Nat) (hm : m < 64) (hd : d < 32) (ha : a < 32) (hb : b < 32) (hf : f < 2048) :
    tri m d a b f < 2 ^ 32 := by
  unfold tri; omega

end Sys2Proof
end

