-- ==== Sys2Proof/Laws/PerInstr.lean ====
section
/-! SUPPORT. Per instruction: a word that the encoder gives decodes to the instruction it was made from. -/

namespace Sys2Proof.Laws.RoundTrip

open Sys2Proof

/-- The decoders give back a well-formed instruction from the word that its encoder makes. -/
def Statement (i : Instr) : Prop :=
  WellFormed i = true →
    (∀ w, encodeScalar i = some w → decodeScalar w = .ok i) ∧
    (∀ w, encodeCmd i = some w → decodeCmd w = .ok i) ∧
    (∀ w, encodeOp i = some w → decodeOp w = some i)

theorem scalarCase (i : Instr) (m : Nat) (he : encodeScalarNat i = some m) (hc : encodeCmd i = none)
    (ho : encodeOp i = none) (hm : m < 2 ^ 32)
    (hd : WellFormed i = true → ∀ n, n = m → decodeScalarNat n = .ok i) : Statement i := by
  refine fun hw => ⟨fun w h => ?_, fun w h => by simp [hc] at h, fun w h => by simp [ho] at h⟩
  simp only [encodeScalar, he, Option.map_some, Option.some.injEq] at h
  subst h
  simp only [decodeScalar, toNat_ofNat_lt hm]
  exact hd hw m rfl

theorem noWord (i : Instr) (he : encodeScalarNat i = none) (hc : encodeCmd i = none) (ho : encodeOp i = none) :
    Statement i :=
  fun _ => ⟨fun w h => by simp [encodeScalar, he] at h, fun w h => by simp [hc] at h, fun w h => by simp [ho] at h⟩


theorem alu_func (w : Bool) (k : Nat) (hk : k < 64) :
    aluFunc w k < 2048 ∧ bf (aluFunc w k) 10 1 = b2n w ∧ bf (aluFunc w k) 6 4 = 0 ∧ bf (aluFunc w k) 0 6 = k := by
  have := b2n_lt w
  refine ⟨?_, ?_, ?_, ?_⟩ <;> (try unfold bf) <;> unfold aluFunc <;> omega

theorem fp_func (f : FFmt) (r k : Nat) (hr : r < 8) (hk : k < 64) :
    fpFunc f r k < 2048 ∧ bf (fpFunc f r k) 9 2 = f.code ∧ bf (fpFunc f r k) 6 3 = r ∧ bf (fpFunc f r k) 0 6 = k := by
  have := f.code_lt
  refine ⟨?_, ?_, ?_, ?_⟩ <;> (try unfold bf) <;> unfold fpFunc <;> omega

theorem amo_func (w : Bool) (o : AmoOrder) (sc : BitVec 3) (k : Nat) (hk : k < 16) :
    amoFunc w o sc k < 2048 ∧ bf (amoFunc w o sc k) 10 1 = b2n w ∧ bf (amoFunc w o sc k) 8 2 = o.code ∧
      bf (amoFunc w o sc k) 5 3 = sc.toNat ∧ bf (amoFunc w o sc k) 4 1 = 0 ∧ bf (amoFunc w o sc k) 0 4 = k := by
  have := b2n_lt w
  have := o.code_lt
  refine ⟨?_, ?_, ?_, ?_, ?_, ?_⟩ <;> (try unfold bf) <;> unfold amoFunc <;> omega

/-- A five-bit field whose value fits its low bits. -/
theorem bf_narrow {n lo len v : Nat} (h : bf n lo 5 = v) (hl : len ≤ 5) (hv : v < 2 ^ len) :
    bf n lo len = v ∧ bf n (lo + len) (5 - len) = 0 := by
  unfold bf at *
  obtain ⟨j, hj⟩ := Nat.exists_eq_add_of_le hl
  rw [hj] at h ⊢
  have h1 : n / 2 ^ lo % 2 ^ len = v := by
    rw [← Nat.mod_mod_of_dvd _ (Nat.pow_dvd_pow 2 (Nat.le_add_right len j) : 2 ^ len ∣ 2 ^ (len + j)), h,
      Nat.mod_eq_of_lt hv]
  refine ⟨h1, ?_⟩
  rw [Nat.add_sub_cancel_left, Nat.pow_add, ← Nat.div_div_eq_div_mul]
  have h2 : n / 2 ^ lo % (2 ^ len * 2 ^ j) = v := by rw [← Nat.pow_add]; exact h
  rw [Nat.mod_mul] at h2
  have h3 : 2 ^ len * (n / 2 ^ lo / 2 ^ len % 2 ^ j) = 0 := by omega
  rcases Nat.mul_eq_zero.mp h3 with h4 | h4
  · exact absurd h4 (Nat.ne_of_gt (Nat.two_pow_pos len))
  · exact h4

theorem shift_0 {n : Nat} (h : bf n 26 6 = 6) (h2 : bf n 14 2 = 0) : decodeScalarNat n =
    checked true true true (bf n 6 8 == 0) (.shli (gAt n 21) (gAt n 16) (BitVec.ofNat 6 (bf n 0 6))) := by
  simp only [decodeScalarNat, h, h2]
theorem shift_1 {n : Nat} (h : bf n 26 6 = 6) (h2 : bf n 14 2 = 1) : decodeScalarNat n =
    checked true true true (bf n 6 8 == 0) (.shri (gAt n 21) (gAt n 16) (BitVec.ofNat 6 (bf n 0 6))) := by
  simp only [decodeScalarNat, h, h2]
theorem shift_2 {n : Nat} (h : bf n 26 6 = 6) (h2 : bf n 14 2 = 2) : decodeScalarNat n =
    checked true true true (bf n 6 8 == 0) (.sari (gAt n 21) (gAt n 16) (BitVec.ofNat 6 (bf n 0 6))) := by
  simp only [decodeScalarNat, h, h2]
theorem untaint_0 {n : Nat} (h : bf n 26 6 = 14) (h2 : bf n 0 11 = 0) : decodeScalarNat n =
    checked true true true (bf n 11 5 == 0) (.untaint (gAt n 21) (gAt n 16)) := by
  simp only [decodeScalarNat, h, h2]
theorem untaint_1 {n : Nat} (h : bf n 26 6 = 14) (h2 : bf n 0 11 = 1) : decodeScalarNat n =
    checked true true true (bf n 11 5 == 0) (.istaint (gAt n 21) (gAt n 16)) := by
  simp only [decodeScalarNat, h, h2]

theorem major_01 {n : Nat} (h : bf n 26 6 = 1) : decodeScalarNat n = decodeAlu n := by
  simp only [decodeScalarNat, h]
theorem major_02 {n : Nat} (h : bf n 26 6 = 2) : decodeScalarNat n = .ok (.addi (gAt n 21) (gAt n 16) (BitVec.ofNat 16 (bf n 0 16))) := by
  simp only [decodeScalarNat, h]
theorem major_03 {n : Nat} (h : bf n 26 6 = 3) : decodeScalarNat n = .ok (.andi (gAt n 21) (gAt n 16) (BitVec.ofNat 16 (bf n 0 16))) := by
  simp only [decodeScalarNat, h]
theorem major_04 {n : Nat} (h : bf n 26 6 = 4) : decodeScalarNat n = .ok (.ori (gAt n 21) (gAt n 16) (BitVec.ofNat 16 (bf n 0 16))) := by
  simp only [decodeScalarNat, h]
theorem major_05 {n : Nat} (h : bf n 26 6 = 5) : decodeScalarNat n = .ok (.xori (gAt n 21) (gAt n 16) (BitVec.ofNat 16 (bf n 0 16))) := by
  simp only [decodeScalarNat, h]
theorem major_07 {n : Nat} (h : bf n 26 6 = 7) : decodeScalarNat n = .ok (.lim (gAt n 21) (BitVec.ofNat 21 (bf n 0 21))) := by
  simp only [decodeScalarNat, h]
theorem major_08 {n : Nat} (h : bf n 26 6 = 8) : decodeScalarNat n = checked true true true (bf n 16 5 == 0) (.lsh (gAt n 21) (BitVec.ofNat 16 (bf n 0 16))) := by
  simp only [decodeScalarNat, h]
theorem major_09 {n : Nat} (h : bf n 26 6 = 9) : decodeScalarNat n = checkedOpt ((CmpRel.ofCode? (bf n 0 3)).map (.cmp (cAt n 21) (gAt n 16) (gAt n 11) (bit n 10))) true (bf n 24 2 == 0) (bf n 3 7 == 0) := by
  simp only [decodeScalarNat, h]
theorem major_0a {n : Nat} (h : bf n 26 6 = 10) : decodeScalarNat n = .ok (.cmpi (CmpiRel.ofCode (bf n 24 2)) (cAt n 21) (gAt n 16) (BitVec.ofNat 16 (bf n 0 16))) := by
  simp only [decodeScalarNat, h]
theorem major_0b {n : Nat} (h : bf n 26 6 = 11) : decodeScalarNat n = decodeCond n := by
  simp only [decodeScalarNat, h]
theorem major_0c {n : Nat} (h : bf n 26 6 = 12) : decodeScalarNat n = checked true true true (bf n 3 8 == 0) (.sel (gAt n 21) (gAt n 16) (gAt n 11) (BitVec.ofNat 3 (bf n 0 3))) := by
  simp only [decodeScalarNat, h]
theorem major_0d {n : Nat} (h : bf n 26 6 = 13) : decodeScalarNat n = checked true true true (bf n 3 8 == 0) (.lea (gAt n 21) (gAt n 16) (gAt n 11) (BitVec.ofNat 3 (bf n 0 3))) := by
  simp only [decodeScalarNat, h]
theorem major_10 {n : Nat} (h : bf n 26 6 = 16) : decodeScalarNat n = decodeFp n := by
  simp only [decodeScalarNat, h]
theorem major_11 {n : Nat} (h : bf n 26 6 = 17) : decodeScalarNat n = checkedOpt ((FRel.ofCode? (bf n 0 3)).map (.fcmp (cAt n 21) (fAt n 16) (fAt n 11) (FFmt.ofCode (bf n 9 2)))) true (bf n 24 2 == 0 && !bit n 20 && !bit n 15) (bf n 3 6 == 0) := by
  simp only [decodeScalarNat, h]
theorem major_18 {n : Nat} (h : bf n 26 6 = 24) : decodeScalarNat n = checkedOpt ((LdMode.ofCode? (bf n 13 3)).map (.ld (gAt n 21) (gAt n 16) · (BitVec.ofNat 13 (bf n 0 13)))) true true true := by
  simp only [decodeScalarNat, h]
theorem major_19 {n : Nat} (h : bf n 26 6 = 25) : decodeScalarNat n = checkedOpt ((StMode.ofCode? (bf n 13 3)).map (.st (gAt n 21) (gAt n 16) · (BitVec.ofNat 13 (bf n 0 13)))) true true true := by
  simp only [decodeScalarNat, h]
theorem major_1a {n : Nat} (h : bf n 26 6 = 26) : decodeScalarNat n = checkedOpt ((LdcMode.ofCode? (bf n 13 3)).map (.ldc (gAt n 21) (gAt n 16) · (BitVec.ofNat 13 (bf n 0 13)))) true true true := by
  simp only [decodeScalarNat, h]
theorem major_1b {n : Nat} (h : bf n 26 6 = 27) : decodeScalarNat n = checkedOpt ((FMode.ofCode? (bf n 13 3)).map (.fld (fAt n 21) (gAt n 16) · (BitVec.ofNat 13 (bf n 0 13)))) true (!bit n 25) true := by
  simp only [decodeScalarNat, h]
theorem major_1c {n : Nat} (h : bf n 26 6 = 28) : decodeScalarNat n = checkedOpt ((FMode.ofCode? (bf n 13 3)).map (.fst (fAt n 21) (gAt n 16) · (BitVec.ofNat 13 (bf n 0 13)))) true (!bit n 25) true := by
  simp only [decodeScalarNat, h]
theorem major_1d {n : Nat} (h : bf n 26 6 = 29) : decodeScalarNat n = decodeVersion 0x1D n := by
  simp only [decodeScalarNat, h]
theorem major_1e {n : Nat} (h : bf n 26 6 = 30) : decodeScalarNat n = decodeVersion 0x1E n := by
  simp only [decodeScalarNat, h]
theorem major_1f {n : Nat} (h : bf n 26 6 = 31) : decodeScalarNat n = decodeVersion 0x1F n := by
  simp only [decodeScalarNat, h]
theorem major_20 {n : Nat} (h : bf n 26 6 = 32) : decodeScalarNat n = decodeAtomic 0x20 n := by
  simp only [decodeScalarNat, h]
theorem major_21 {n : Nat} (h : bf n 26 6 = 33) : decodeScalarNat n = decodeAtomic 0x21 n := by
  simp only [decodeScalarNat, h]
theorem major_24 {n : Nat} (h : bf n 26 6 = 36) : decodeScalarNat n = decodeSync n := by
  simp only [decodeScalarNat, h]
theorem major_28 {n : Nat} (h : bf n 26 6 = 40) : decodeScalarNat n = decodeTask n := by
  simp only [decodeScalarNat, h]
theorem major_30 {n : Nat} (h : bf n 26 6 = 48) : decodeScalarNat n = decodeExit 0x30 n := by
  simp only [decodeScalarNat, h]
theorem major_31 {n : Nat} (h : bf n 26 6 = 49) : decodeScalarNat n = decodeExit 0x31 n := by
  simp only [decodeScalarNat, h]
theorem major_32 {n : Nat} (h : bf n 26 6 = 50) : decodeScalarNat n = decodeExit 0x32 n := by
  simp only [decodeScalarNat, h]
theorem major_33 {n : Nat} (h : bf n 26 6 = 51) : decodeScalarNat n = decodeExit 0x33 n := by
  simp only [decodeScalarNat, h]
theorem major_34 {n : Nat} (h : bf n 26 6 = 52) : decodeScalarNat n = decodeExit 0x34 n := by
  simp only [decodeScalarNat, h]
theorem major_35 {n : Nat} (h : bf n 26 6 = 53) : decodeScalarNat n = decodeExit 0x35 n := by
  simp only [decodeScalarNat, h]
theorem major_36 {n : Nat} (h : bf n 26 6 = 54) : decodeScalarNat n = decodeExit 0x36 n := by
  simp only [decodeScalarNat, h]
theorem major_38 {n : Nat} (h : bf n 26 6 = 56) : decodeScalarNat n = decodeSys 0x38 n := by
  simp only [decodeScalarNat, h]
theorem major_3f {n : Nat} (h : bf n 26 6 = 63) : decodeScalarNat n = decodeSys 0x3F n := by
  simp only [decodeScalarNat, h]

theorem add (d : GReg) (a : GReg) (b : GReg) (w : Bool) : Statement (.add d a b w) := by
  obtain ⟨hf, k1, k2, k3⟩ := alu_func w 0 (by decide)
  obtain ⟨e26, e21, e16, e11⟩ := tri_fields 0x01 d.toNat a.toNat b.toNat (aluFunc w 0) (by omega) (by omega) (by omega) hf
  refine scalarCase _ _ rfl rfl rfl (tri_lt _ _ _ _ _ (by decide) (by omega) (by omega) (by omega) hf) (fun hw n hn => ?_)
  rw [← hn] at e26 e21 e16 e11
  have t10_1 : bf n 10 1 = b2n w := by rw [hn, tri_func _ _ _ _ _ _ _ (by decide)]; exact k1
  have t6_4 : bf n 6 4 = 0 := by rw [hn, tri_func _ _ _ _ _ _ _ (by decide)]; exact k2
  have t0_6 : bf n 0 6 = 0 := by rw [hn, tri_func _ _ _ _ _ _ _ (by decide)]; exact k3
  rw [major_01 e26]
  simp [decodeAlu, gAt, cAt, fAt, bit_eq, bit_b2n, checked, checkedOpt, t10_1, t6_4, t0_6, e21, e16, e11]

theorem sub (d : GReg) (a : GReg) (b : GReg) (w : Bool) : Statement (.sub d a b w) := by
  obtain ⟨hf, k1, k2, k3⟩ := alu_func w 1 (by decide)
  obtain ⟨e26, e21, e16, e11⟩ := tri_fields 0x01 d.toNat a.toNat b.toNat (aluFunc w 1) (by omega) (by omega) (by omega) hf
  refine scalarCase _ _ rfl rfl rfl (tri_lt _ _ _ _ _ (by decide) (by omega) (by omega) (by omega) hf) (fun hw n hn => ?_)
  rw [← hn] at e26 e21 e16 e11
  have t10_1 : bf n 10 1 = b2n w := by rw [hn, tri_func _ _ _ _ _ _ _ (by decide)]; exact k1
  have t6_4 : bf n 6 4 = 0 := by rw [hn, tri_func _ _ _ _ _ _ _ (by decide)]; exact k2
  have t0_6 : bf n 0 6 = 1 := by rw [hn, tri_func _ _ _ _ _ _ _ (by decide)]; exact k3
  rw [major_01 e26]
  simp [decodeAlu, gAt, cAt, fAt, bit_eq, bit_b2n, checked, checkedOpt, t10_1, t6_4, t0_6, e21, e16, e11]

theorem and (d : GReg) (a : GReg) (b : GReg) (w : Bool) : Statement (.and d a b w) := by
  obtain ⟨hf, k1, k2, k3⟩ := alu_func w 2 (by decide)
  obtain ⟨e26, e21, e16, e11⟩ := tri_fields 0x01 d.toNat a.toNat b.toNat (aluFunc w 2) (by omega) (by omega) (by omega) hf
  refine scalarCase _ _ rfl rfl rfl (tri_lt _ _ _ _ _ (by decide) (by omega) (by omega) (by omega) hf) (fun hw n hn => ?_)
  rw [← hn] at e26 e21 e16 e11
  have t10_1 : bf n 10 1 = b2n w := by rw [hn, tri_func _ _ _ _ _ _ _ (by decide)]; exact k1
  have t6_4 : bf n 6 4 = 0 := by rw [hn, tri_func _ _ _ _ _ _ _ (by decide)]; exact k2
  have t0_6 : bf n 0 6 = 2 := by rw [hn, tri_func _ _ _ _ _ _ _ (by decide)]; exact k3
  rw [major_01 e26]
  simp [decodeAlu, gAt, cAt, fAt, bit_eq, bit_b2n, checked, checkedOpt, t10_1, t6_4, t0_6, e21, e16, e11]

theorem or (d : GReg) (a : GReg) (b : GReg) (w : Bool) : Statement (.or d a b w) := by
  obtain ⟨hf, k1, k2, k3⟩ := alu_func w 3 (by decide)
  obtain ⟨e26, e21, e16, e11⟩ := tri_fields 0x01 d.toNat a.toNat b.toNat (aluFunc w 3) (by omega) (by omega) (by omega) hf
  refine scalarCase _ _ rfl rfl rfl (tri_lt _ _ _ _ _ (by decide) (by omega) (by omega) (by omega) hf) (fun hw n hn => ?_)
  rw [← hn] at e26 e21 e16 e11
  have t10_1 : bf n 10 1 = b2n w := by rw [hn, tri_func _ _ _ _ _ _ _ (by decide)]; exact k1
  have t6_4 : bf n 6 4 = 0 := by rw [hn, tri_func _ _ _ _ _ _ _ (by decide)]; exact k2
  have t0_6 : bf n 0 6 = 3 := by rw [hn, tri_func _ _ _ _ _ _ _ (by decide)]; exact k3
  rw [major_01 e26]
  simp [decodeAlu, gAt, cAt, fAt, bit_eq, bit_b2n, checked, checkedOpt, t10_1, t6_4, t0_6, e21, e16, e11]

theorem xor (d : GReg) (a : GReg) (b : GReg) (w : Bool) : Statement (.xor d a b w) := by
  obtain ⟨hf, k1, k2, k3⟩ := alu_func w 4 (by decide)
  obtain ⟨e26, e21, e16, e11⟩ := tri_fields 0x01 d.toNat a.toNat b.toNat (aluFunc w 4) (by omega) (by omega) (by omega) hf
  refine scalarCase _ _ rfl rfl rfl (tri_lt _ _ _ _ _ (by decide) (by omega) (by omega) (by omega) hf) (fun hw n hn => ?_)
  rw [← hn] at e26 e21 e16 e11
  have t10_1 : bf n 10 1 = b2n w := by rw [hn, tri_func _ _ _ _ _ _ _ (by decide)]; exact k1
  have t6_4 : bf n 6 4 = 0 := by rw [hn, tri_func _ _ _ _ _ _ _ (by decide)]; exact k2
  have t0_6 : bf n 0 6 = 4 := by rw [hn, tri_func _ _ _ _ _ _ _ (by decide)]; exact k3
  rw [major_01 e26]
  simp [decodeAlu, gAt, cAt, fAt, bit_eq, bit_b2n, checked, checkedOpt, t10_1, t6_4, t0_6, e21, e16, e11]

theorem andn (d : GReg) (a : GReg) (b : GReg) (w : Bool) : Statement (.andn d a b w) := by
  obtain ⟨hf, k1, k2, k3⟩ := alu_func w 5 (by decide)
  obtain ⟨e26, e21, e16, e11⟩ := tri_fields 0x01 d.toNat a.toNat b.toNat (aluFunc w 5) (by omega) (by omega) (by omega) hf
  refine scalarCase _ _ rfl rfl rfl (tri_lt _ _ _ _ _ (by decide) (by omega) (by omega) (by omega) hf) (fun hw n hn => ?_)
  rw [← hn] at e26 e21 e16 e11
  have t10_1 : bf n 10 1 = b2n w := by rw [hn, tri_func _ _ _ _ _ _ _ (by decide)]; exact k1
  have t6_4 : bf n 6 4 = 0 := by rw [hn, tri_func _ _ _ _ _ _ _ (by decide)]; exact k2
  have t0_6 : bf n 0 6 = 5 := by rw [hn, tri_func _ _ _ _ _ _ _ (by decide)]; exact k3
  rw [major_01 e26]
  simp [decodeAlu, gAt, cAt, fAt, bit_eq, bit_b2n, checked, checkedOpt, t10_1, t6_4, t0_6, e21, e16, e11]

theorem shl (d : GReg) (a : GReg) (b : GReg) (w : Bool) : Statement (.shl d a b w) := by
  obtain ⟨hf, k1, k2, k3⟩ := alu_func w 6 (by decide)
  obtain ⟨e26, e21, e16, e11⟩ := tri_fields 0x01 d.toNat a.toNat b.toNat (aluFunc w 6) (by omega) (by omega) (by omega) hf
  refine scalarCase _ _ rfl rfl rfl (tri_lt _ _ _ _ _ (by decide) (by omega) (by omega) (by omega) hf) (fun hw n hn => ?_)
  rw [← hn] at e26 e21 e16 e11
  have t10_1 : bf n 10 1 = b2n w := by rw [hn, tri_func _ _ _ _ _ _ _ (by decide)]; exact k1
  have t6_4 : bf n 6 4 = 0 := by rw [hn, tri_func _ _ _ _ _ _ _ (by decide)]; exact k2
  have t0_6 : bf n 0 6 = 6 := by rw [hn, tri_func _ _ _ _ _ _ _ (by decide)]; exact k3
  rw [major_01 e26]
  simp [decodeAlu, gAt, cAt, fAt, bit_eq, bit_b2n, checked, checkedOpt, t10_1, t6_4, t0_6, e21, e16, e11]

theorem shr (d : GReg) (a : GReg) (b : GReg) (w : Bool) : Statement (.shr d a b w) := by
  obtain ⟨hf, k1, k2, k3⟩ := alu_func w 7 (by decide)
  obtain ⟨e26, e21, e16, e11⟩ := tri_fields 0x01 d.toNat a.toNat b.toNat (aluFunc w 7) (by omega) (by omega) (by omega) hf
  refine scalarCase _ _ rfl rfl rfl (tri_lt _ _ _ _ _ (by decide) (by omega) (by omega) (by omega) hf) (fun hw n hn => ?_)
  rw [← hn] at e26 e21 e16 e11
  have t10_1 : bf n 10 1 = b2n w := by rw [hn, tri_func _ _ _ _ _ _ _ (by decide)]; exact k1
  have t6_4 : bf n 6 4 = 0 := by rw [hn, tri_func _ _ _ _ _ _ _ (by decide)]; exact k2
  have t0_6 : bf n 0 6 = 7 := by rw [hn, tri_func _ _ _ _ _ _ _ (by decide)]; exact k3
  rw [major_01 e26]
  simp [decodeAlu, gAt, cAt, fAt, bit_eq, bit_b2n, checked, checkedOpt, t10_1, t6_4, t0_6, e21, e16, e11]

theorem sar (d : GReg) (a : GReg) (b : GReg) (w : Bool) : Statement (.sar d a b w) := by
  obtain ⟨hf, k1, k2, k3⟩ := alu_func w 8 (by decide)
  obtain ⟨e26, e21, e16, e11⟩ := tri_fields 0x01 d.toNat a.toNat b.toNat (aluFunc w 8) (by omega) (by omega) (by omega) hf
  refine scalarCase _ _ rfl rfl rfl (tri_lt _ _ _ _ _ (by decide) (by omega) (by omega) (by omega) hf) (fun hw n hn => ?_)
  rw [← hn] at e26 e21 e16 e11
  have t10_1 : bf n 10 1 = b2n w := by rw [hn, tri_func _ _ _ _ _ _ _ (by decide)]; exact k1
  have t6_4 : bf n 6 4 = 0 := by rw [hn, tri_func _ _ _ _ _ _ _ (by decide)]; exact k2
  have t0_6 : bf n 0 6 = 8 := by rw [hn, tri_func _ _ _ _ _ _ _ (by decide)]; exact k3
  rw [major_01 e26]
  simp [decodeAlu, gAt, cAt, fAt, bit_eq, bit_b2n, checked, checkedOpt, t10_1, t6_4, t0_6, e21, e16, e11]

theorem mul (d : GReg) (a : GReg) (b : GReg) (w : Bool) : Statement (.mul d a b w) := by
  obtain ⟨hf, k1, k2, k3⟩ := alu_func w 9 (by decide)
  obtain ⟨e26, e21, e16, e11⟩ := tri_fields 0x01 d.toNat a.toNat b.toNat (aluFunc w 9) (by omega) (by omega) (by omega) hf
  refine scalarCase _ _ rfl rfl rfl (tri_lt _ _ _ _ _ (by decide) (by omega) (by omega) (by omega) hf) (fun hw n hn => ?_)
  rw [← hn] at e26 e21 e16 e11
  have t10_1 : bf n 10 1 = b2n w := by rw [hn, tri_func _ _ _ _ _ _ _ (by decide)]; exact k1
  have t6_4 : bf n 6 4 = 0 := by rw [hn, tri_func _ _ _ _ _ _ _ (by decide)]; exact k2
  have t0_6 : bf n 0 6 = 9 := by rw [hn, tri_func _ _ _ _ _ _ _ (by decide)]; exact k3
  rw [major_01 e26]
  simp [decodeAlu, gAt, cAt, fAt, bit_eq, bit_b2n, checked, checkedOpt, t10_1, t6_4, t0_6, e21, e16, e11]

theorem mulh (d : GReg) (a : GReg) (b : GReg) (w : Bool) : Statement (.mulh d a b w) := by
  obtain ⟨hf, k1, k2, k3⟩ := alu_func w 10 (by decide)
  obtain ⟨e26, e21, e16, e11⟩ := tri_fields 0x01 d.toNat a.toNat b.toNat (aluFunc w 10) (by omega) (by omega) (by omega) hf
  refine scalarCase _ _ rfl rfl rfl (tri_lt _ _ _ _ _ (by decide) (by omega) (by omega) (by omega) hf) (fun hw n hn => ?_)
  rw [← hn] at e26 e21 e16 e11
  have t10_1 : bf n 10 1 = b2n w := by rw [hn, tri_func _ _ _ _ _ _ _ (by decide)]; exact k1
  have t6_4 : bf n 6 4 = 0 := by rw [hn, tri_func _ _ _ _ _ _ _ (by decide)]; exact k2
  have t0_6 : bf n 0 6 = 10 := by rw [hn, tri_func _ _ _ _ _ _ _ (by decide)]; exact k3
  rw [major_01 e26]
  simp [decodeAlu, gAt, cAt, fAt, bit_eq, bit_b2n, checked, checkedOpt, t10_1, t6_4, t0_6, e21, e16, e11]

theorem mulhu (d : GReg) (a : GReg) (b : GReg) (w : Bool) : Statement (.mulhu d a b w) := by
  obtain ⟨hf, k1, k2, k3⟩ := alu_func w 11 (by decide)
  obtain ⟨e26, e21, e16, e11⟩ := tri_fields 0x01 d.toNat a.toNat b.toNat (aluFunc w 11) (by omega) (by omega) (by omega) hf
  refine scalarCase _ _ rfl rfl rfl (tri_lt _ _ _ _ _ (by decide) (by omega) (by omega) (by omega) hf) (fun hw n hn => ?_)
  rw [← hn] at e26 e21 e16 e11
  have t10_1 : bf n 10 1 = b2n w := by rw [hn, tri_func _ _ _ _ _ _ _ (by decide)]; exact k1
  have t6_4 : bf n 6 4 = 0 := by rw [hn, tri_func _ _ _ _ _ _ _ (by decide)]; exact k2
  have t0_6 : bf n 0 6 = 11 := by rw [hn, tri_func _ _ _ _ _ _ _ (by decide)]; exact k3
  rw [major_01 e26]
  simp [decodeAlu, gAt, cAt, fAt, bit_eq, bit_b2n, checked, checkedOpt, t10_1, t6_4, t0_6, e21, e16, e11]

theorem div (d : GReg) (a : GReg) (b : GReg) (w : Bool) : Statement (.div d a b w) := by
  obtain ⟨hf, k1, k2, k3⟩ := alu_func w 12 (by decide)
  obtain ⟨e26, e21, e16, e11⟩ := tri_fields 0x01 d.toNat a.toNat b.toNat (aluFunc w 12) (by omega) (by omega) (by omega) hf
  refine scalarCase _ _ rfl rfl rfl (tri_lt _ _ _ _ _ (by decide) (by omega) (by omega) (by omega) hf) (fun hw n hn => ?_)
  rw [← hn] at e26 e21 e16 e11
  have t10_1 : bf n 10 1 = b2n w := by rw [hn, tri_func _ _ _ _ _ _ _ (by decide)]; exact k1
  have t6_4 : bf n 6 4 = 0 := by rw [hn, tri_func _ _ _ _ _ _ _ (by decide)]; exact k2
  have t0_6 : bf n 0 6 = 12 := by rw [hn, tri_func _ _ _ _ _ _ _ (by decide)]; exact k3
  rw [major_01 e26]
  simp [decodeAlu, gAt, cAt, fAt, bit_eq, bit_b2n, checked, checkedOpt, t10_1, t6_4, t0_6, e21, e16, e11]

theorem divu (d : GReg) (a : GReg) (b : GReg) (w : Bool) : Statement (.divu d a b w) := by
  obtain ⟨hf, k1, k2, k3⟩ := alu_func w 13 (by decide)
  obtain ⟨e26, e21, e16, e11⟩ := tri_fields 0x01 d.toNat a.toNat b.toNat (aluFunc w 13) (by omega) (by omega) (by omega) hf
  refine scalarCase _ _ rfl rfl rfl (tri_lt _ _ _ _ _ (by decide) (by omega) (by omega) (by omega) hf) (fun hw n hn => ?_)
  rw [← hn] at e26 e21 e16 e11
  have t10_1 : bf n 10 1 = b2n w := by rw [hn, tri_func _ _ _ _ _ _ _ (by decide)]; exact k1
  have t6_4 : bf n 6 4 = 0 := by rw [hn, tri_func _ _ _ _ _ _ _ (by decide)]; exact k2
  have t0_6 : bf n 0 6 = 13 := by rw [hn, tri_func _ _ _ _ _ _ _ (by decide)]; exact k3
  rw [major_01 e26]
  simp [decodeAlu, gAt, cAt, fAt, bit_eq, bit_b2n, checked, checkedOpt, t10_1, t6_4, t0_6, e21, e16, e11]

theorem rem (d : GReg) (a : GReg) (b : GReg) (w : Bool) : Statement (.rem d a b w) := by
  obtain ⟨hf, k1, k2, k3⟩ := alu_func w 14 (by decide)
  obtain ⟨e26, e21, e16, e11⟩ := tri_fields 0x01 d.toNat a.toNat b.toNat (aluFunc w 14) (by omega) (by omega) (by omega) hf
  refine scalarCase _ _ rfl rfl rfl (tri_lt _ _ _ _ _ (by decide) (by omega) (by omega) (by omega) hf) (fun hw n hn => ?_)
  rw [← hn] at e26 e21 e16 e11
  have t10_1 : bf n 10 1 = b2n w := by rw [hn, tri_func _ _ _ _ _ _ _ (by decide)]; exact k1
  have t6_4 : bf n 6 4 = 0 := by rw [hn, tri_func _ _ _ _ _ _ _ (by decide)]; exact k2
  have t0_6 : bf n 0 6 = 14 := by rw [hn, tri_func _ _ _ _ _ _ _ (by decide)]; exact k3
  rw [major_01 e26]
  simp [decodeAlu, gAt, cAt, fAt, bit_eq, bit_b2n, checked, checkedOpt, t10_1, t6_4, t0_6, e21, e16, e11]

theorem remu (d : GReg) (a : GReg) (b : GReg) (w : Bool) : Statement (.remu d a b w) := by
  obtain ⟨hf, k1, k2, k3⟩ := alu_func w 15 (by decide)
  obtain ⟨e26, e21, e16, e11⟩ := tri_fields 0x01 d.toNat a.toNat b.toNat (aluFunc w 15) (by omega) (by omega) (by omega) hf
  refine scalarCase _ _ rfl rfl rfl (tri_lt _ _ _ _ _ (by decide) (by omega) (by omega) (by omega) hf) (fun hw n hn => ?_)
  rw [← hn] at e26 e21 e16 e11
  have t10_1 : bf n 10 1 = b2n w := by rw [hn, tri_func _ _ _ _ _ _ _ (by decide)]; exact k1
  have t6_4 : bf n 6 4 = 0 := by rw [hn, tri_func _ _ _ _ _ _ _ (by decide)]; exact k2
  have t0_6 : bf n 0 6 = 15 := by rw [hn, tri_func _ _ _ _ _ _ _ (by decide)]; exact k3
  rw [major_01 e26]
  simp [decodeAlu, gAt, cAt, fAt, bit_eq, bit_b2n, checked, checkedOpt, t10_1, t6_4, t0_6, e21, e16, e11]

theorem min (d : GReg) (a : GReg) (b : GReg) (w : Bool) : Statement (.min d a b w) := by
  obtain ⟨hf, k1, k2, k3⟩ := alu_func w 16 (by decide)
  obtain ⟨e26, e21, e16, e11⟩ := tri_fields 0x01 d.toNat a.toNat b.toNat (aluFunc w 16) (by omega) (by omega) (by omega) hf
  refine scalarCase _ _ rfl rfl rfl (tri_lt _ _ _ _ _ (by decide) (by omega) (by omega) (by omega) hf) (fun hw n hn => ?_)
  rw [← hn] at e26 e21 e16 e11
  have t10_1 : bf n 10 1 = b2n w := by rw [hn, tri_func _ _ _ _ _ _ _ (by decide)]; exact k1
  have t6_4 : bf n 6 4 = 0 := by rw [hn, tri_func _ _ _ _ _ _ _ (by decide)]; exact k2
  have t0_6 : bf n 0 6 = 16 := by rw [hn, tri_func _ _ _ _ _ _ _ (by decide)]; exact k3
  rw [major_01 e26]
  simp [decodeAlu, gAt, cAt, fAt, bit_eq, bit_b2n, checked, checkedOpt, t10_1, t6_4, t0_6, e21, e16, e11]

theorem max (d : GReg) (a : GReg) (b : GReg) (w : Bool) : Statement (.max d a b w) := by
  obtain ⟨hf, k1, k2, k3⟩ := alu_func w 17 (by decide)
  obtain ⟨e26, e21, e16, e11⟩ := tri_fields 0x01 d.toNat a.toNat b.toNat (aluFunc w 17) (by omega) (by omega) (by omega) hf
  refine scalarCase _ _ rfl rfl rfl (tri_lt _ _ _ _ _ (by decide) (by omega) (by omega) (by omega) hf) (fun hw n hn => ?_)
  rw [← hn] at e26 e21 e16 e11
  have t10_1 : bf n 10 1 = b2n w := by rw [hn, tri_func _ _ _ _ _ _ _ (by decide)]; exact k1
  have t6_4 : bf n 6 4 = 0 := by rw [hn, tri_func _ _ _ _ _ _ _ (by decide)]; exact k2
  have t0_6 : bf n 0 6 = 17 := by rw [hn, tri_func _ _ _ _ _ _ _ (by decide)]; exact k3
  rw [major_01 e26]
  simp [decodeAlu, gAt, cAt, fAt, bit_eq, bit_b2n, checked, checkedOpt, t10_1, t6_4, t0_6, e21, e16, e11]

theorem minu (d : GReg) (a : GReg) (b : GReg) (w : Bool) : Statement (.minu d a b w) := by
  obtain ⟨hf, k1, k2, k3⟩ := alu_func w 18 (by decide)
  obtain ⟨e26, e21, e16, e11⟩ := tri_fields 0x01 d.toNat a.toNat b.toNat (aluFunc w 18) (by omega) (by omega) (by omega) hf
  refine scalarCase _ _ rfl rfl rfl (tri_lt _ _ _ _ _ (by decide) (by omega) (by omega) (by omega) hf) (fun hw n hn => ?_)
  rw [← hn] at e26 e21 e16 e11
  have t10_1 : bf n 10 1 = b2n w := by rw [hn, tri_func _ _ _ _ _ _ _ (by decide)]; exact k1
  have t6_4 : bf n 6 4 = 0 := by rw [hn, tri_func _ _ _ _ _ _ _ (by decide)]; exact k2
  have t0_6 : bf n 0 6 = 18 := by rw [hn, tri_func _ _ _ _ _ _ _ (by decide)]; exact k3
  rw [major_01 e26]
  simp [decodeAlu, gAt, cAt, fAt, bit_eq, bit_b2n, checked, checkedOpt, t10_1, t6_4, t0_6, e21, e16, e11]

theorem maxu (d : GReg) (a : GReg) (b : GReg) (w : Bool) : Statement (.maxu d a b w) := by
  obtain ⟨hf, k1, k2, k3⟩ := alu_func w 19 (by decide)
  obtain ⟨e26, e21, e16, e11⟩ := tri_fields 0x01 d.toNat a.toNat b.toNat (aluFunc w 19) (by omega) (by omega) (by omega) hf
  refine scalarCase _ _ rfl rfl rfl (tri_lt _ _ _ _ _ (by decide) (by omega) (by omega) (by omega) hf) (fun hw n hn => ?_)
  rw [← hn] at e26 e21 e16 e11
  have t10_1 : bf n 10 1 = b2n w := by rw [hn, tri_func _ _ _ _ _ _ _ (by decide)]; exact k1
  have t6_4 : bf n 6 4 = 0 := by rw [hn, tri_func _ _ _ _ _ _ _ (by decide)]; exact k2
  have t0_6 : bf n 0 6 = 19 := by rw [hn, tri_func _ _ _ _ _ _ _ (by decide)]; exact k3
  rw [major_01 e26]
  simp [decodeAlu, gAt, cAt, fAt, bit_eq, bit_b2n, checked, checkedOpt, t10_1, t6_4, t0_6, e21, e16, e11]

theorem clz (d : GReg) (a : GReg) (w : Bool) : Statement (.clz d a w) := by
  obtain ⟨hf, k1, k2, k3⟩ := alu_func w 20 (by decide)
  obtain ⟨e26, e21, e16, e11⟩ := tri_fields 0x01 d.toNat a.toNat 0 (aluFunc w 20) (by omega) (by omega) (by omega) hf
  refine scalarCase _ _ rfl rfl rfl (tri_lt _ _ _ _ _ (by decide) (by omega) (by omega) (by omega) hf) (fun hw n hn => ?_)
  rw [← hn] at e26 e21 e16 e11
  have t10_1 : bf n 10 1 = b2n w := by rw [hn, tri_func _ _ _ _ _ _ _ (by decide)]; exact k1
  have t6_4 : bf n 6 4 = 0 := by rw [hn, tri_func _ _ _ _ _ _ _ (by decide)]; exact k2
  have t0_6 : bf n 0 6 = 20 := by rw [hn, tri_func _ _ _ _ _ _ _ (by decide)]; exact k3
  rw [major_01 e26]
  simp [decodeAlu, gAt, cAt, fAt, bit_eq, bit_b2n, checked, checkedOpt, t10_1, t6_4, t0_6, e21, e16, e11]

theorem ctz (d : GReg) (a : GReg) (w : Bool) : Statement (.ctz d a w) := by
  obtain ⟨hf, k1, k2, k3⟩ := alu_func w 21 (by decide)
  obtain ⟨e26, e21, e16, e11⟩ := tri_fields 0x01 d.toNat a.toNat 0 (aluFunc w 21) (by omega) (by omega) (by omega) hf
  refine scalarCase _ _ rfl rfl rfl (tri_lt _ _ _ _ _ (by decide) (by omega) (by omega) (by omega) hf) (fun hw n hn => ?_)
  rw [← hn] at e26 e21 e16 e11
  have t10_1 : bf n 10 1 = b2n w := by rw [hn, tri_func _ _ _ _ _ _ _ (by decide)]; exact k1
  have t6_4 : bf n 6 4 = 0 := by rw [hn, tri_func _ _ _ _ _ _ _ (by decide)]; exact k2
  have t0_6 : bf n 0 6 = 21 := by rw [hn, tri_func _ _ _ _ _ _ _ (by decide)]; exact k3
  rw [major_01 e26]
  simp [decodeAlu, gAt, cAt, fAt, bit_eq, bit_b2n, checked, checkedOpt, t10_1, t6_4, t0_6, e21, e16, e11]

theorem popc (d : GReg) (a : GReg) (w : Bool) : Statement (.popc d a w) := by
  obtain ⟨hf, k1, k2, k3⟩ := alu_func w 22 (by decide)
  obtain ⟨e26, e21, e16, e11⟩ := tri_fields 0x01 d.toNat a.toNat 0 (aluFunc w 22) (by omega) (by omega) (by omega) hf
  refine scalarCase _ _ rfl rfl rfl (tri_lt _ _ _ _ _ (by decide) (by omega) (by omega) (by omega) hf) (fun hw n hn => ?_)
  rw [← hn] at e26 e21 e16 e11
  have t10_1 : bf n 10 1 = b2n w := by rw [hn, tri_func _ _ _ _ _ _ _ (by decide)]; exact k1
  have t6_4 : bf n 6 4 = 0 := by rw [hn, tri_func _ _ _ _ _ _ _ (by decide)]; exact k2
  have t0_6 : bf n 0 6 = 22 := by rw [hn, tri_func _ _ _ _ _ _ _ (by decide)]; exact k3
  rw [major_01 e26]
  simp [decodeAlu, gAt, cAt, fAt, bit_eq, bit_b2n, checked, checkedOpt, t10_1, t6_4, t0_6, e21, e16, e11]

theorem brev (d : GReg) (a : GReg) (w : Bool) : Statement (.brev d a w) := by
  obtain ⟨hf, k1, k2, k3⟩ := alu_func w 23 (by decide)
  obtain ⟨e26, e21, e16, e11⟩ := tri_fields 0x01 d.toNat a.toNat 0 (aluFunc w 23) (by omega) (by omega) (by omega) hf
  refine scalarCase _ _ rfl rfl rfl (tri_lt _ _ _ _ _ (by decide) (by omega) (by omega) (by omega) hf) (fun hw n hn => ?_)
  rw [← hn] at e26 e21 e16 e11
  have t10_1 : bf n 10 1 = b2n w := by rw [hn, tri_func _ _ _ _ _ _ _ (by decide)]; exact k1
  have t6_4 : bf n 6 4 = 0 := by rw [hn, tri_func _ _ _ _ _ _ _ (by decide)]; exact k2
  have t0_6 : bf n 0 6 = 23 := by rw [hn, tri_func _ _ _ _ _ _ _ (by decide)]; exact k3
  rw [major_01 e26]
  simp [decodeAlu, gAt, cAt, fAt, bit_eq, bit_b2n, checked, checkedOpt, t10_1, t6_4, t0_6, e21, e16, e11]

theorem addi (d : GReg) (a : GReg) (i : BitVec 16) : Statement (.addi d a i) := by
  refine scalarCase _ _ rfl rfl rfl (by unfold imm; omega) (fun hw n hn => ?_)
  have t26_6 : bf n 26 6 = 2 := by subst hn; unfold bf imm; omega
  have t21_5 : bf n 21 5 = d.toNat := by subst hn; unfold bf imm; omega
  have t16_5 : bf n 16 5 = a.toNat := by subst hn; unfold bf imm; omega
  have t0_16 : bf n 0 16 = i.toNat := by subst hn; unfold bf imm; omega
  rw [major_02 t26_6]
  simp [gAt, cAt, fAt, bit_eq, bit_b2n, checked, checkedOpt, t21_5, t16_5, t0_16]

theorem andi (d : GReg) (a : GReg) (i : BitVec 16) : Statement (.andi d a i) := by
  refine scalarCase _ _ rfl rfl rfl (by unfold imm; omega) (fun hw n hn => ?_)
  have t26_6 : bf n 26 6 = 3 := by subst hn; unfold bf imm; omega
  have t21_5 : bf n 21 5 = d.toNat := by subst hn; unfold bf imm; omega
  have t16_5 : bf n 16 5 = a.toNat := by subst hn; unfold bf imm; omega
  have t0_16 : bf n 0 16 = i.toNat := by subst hn; unfold bf imm; omega
  rw [major_03 t26_6]
  simp [gAt, cAt, fAt, bit_eq, bit_b2n, checked, checkedOpt, t21_5, t16_5, t0_16]

theorem ori (d : GReg) (a : GReg) (i : BitVec 16) : Statement (.ori d a i) := by
  refine scalarCase _ _ rfl rfl rfl (by unfold imm; omega) (fun hw n hn => ?_)
  have t26_6 : bf n 26 6 = 4 := by subst hn; unfold bf imm; omega
  have t21_5 : bf n 21 5 = d.toNat := by subst hn; unfold bf imm; omega
  have t16_5 : bf n 16 5 = a.toNat := by subst hn; unfold bf imm; omega
  have t0_16 : bf n 0 16 = i.toNat := by subst hn; unfold bf imm; omega
  rw [major_04 t26_6]
  simp [gAt, cAt, fAt, bit_eq, bit_b2n, checked, checkedOpt, t21_5, t16_5, t0_16]

theorem xori (d : GReg) (a : GReg) (i : BitVec 16) : Statement (.xori d a i) := by
  refine scalarCase _ _ rfl rfl rfl (by unfold imm; omega) (fun hw n hn => ?_)
  have t26_6 : bf n 26 6 = 5 := by subst hn; unfold bf imm; omega
  have t21_5 : bf n 21 5 = d.toNat := by subst hn; unfold bf imm; omega
  have t16_5 : bf n 16 5 = a.toNat := by subst hn; unfold bf imm; omega
  have t0_16 : bf n 0 16 = i.toNat := by subst hn; unfold bf imm; omega
  rw [major_05 t26_6]
  simp [gAt, cAt, fAt, bit_eq, bit_b2n, checked, checkedOpt, t21_5, t16_5, t0_16]

theorem shli (d : GReg) (a : GReg) (sh : BitVec 6) : Statement (.shli d a h) := by
  refine scalarCase _ _ rfl rfl rfl (by unfold imm; omega) (fun hw n hn => ?_)
  have t26_6 : bf n 26 6 = 6 := by subst hn; unfold bf imm; omega
  have t21_5 : bf n 21 5 = d.toNat := by subst hn; unfold bf imm; omega
  have t16_5 : bf n 16 5 = a.toNat := by subst hn; unfold bf imm; omega
  have t0_6 : bf n 0 6 = h.toNat := by subst hn; unfold bf imm; omega
  have t6_8 : bf n 6 8 = 0 := by subst hn; unfold bf imm; omega
  have t14_2 : bf n 14 2 = 0 := by subst hn; unfold bf imm; omega
  rw [shift_0 t26_6 t14_2]
  simp [gAt, cAt, fAt, bit_eq, bit_b2n, checked, checkedOpt, t21_5, t16_5, t0_6, t6_8, t14_2]

theorem shri (d : GReg) (a : GReg) (sh : BitVec 6) : Statement (.shri d a h) := by
  refine scalarCase _ _ rfl rfl rfl (by unfold imm; omega) (fun hw n hn => ?_)
  have t26_6 : bf n 26 6 = 6 := by subst hn; unfold bf imm; omega
  have t21_5 : bf n 21 5 = d.toNat := by subst hn; unfold bf imm; omega
  have t16_5 : bf n 16 5 = a.toNat := by subst hn; unfold bf imm; omega
  have t0_6 : bf n 0 6 = h.toNat := by subst hn; unfold bf imm; omega
  have t6_8 : bf n 6 8 = 0 := by subst hn; unfold bf imm; omega
  have t14_2 : bf n 14 2 = 1 := by subst hn; unfold bf imm; omega
  rw [shift_1 t26_6 t14_2]
  simp [gAt, cAt, fAt, bit_eq, bit_b2n, checked, checkedOpt, t21_5, t16_5, t0_6, t6_8, t14_2]

theorem sari (d : GReg) (a : GReg) (sh : BitVec 6) : Statement (.sari d a h) := by
  refine scalarCase _ _ rfl rfl rfl (by unfold imm; omega) (fun hw n hn => ?_)
  have t26_6 : bf n 26 6 = 6 := by subst hn; unfold bf imm; omega
  have t21_5 : bf n 21 5 = d.toNat := by subst hn; unfold bf imm; omega
  have t16_5 : bf n 16 5 = a.toNat := by subst hn; unfold bf imm; omega
  have t0_6 : bf n 0 6 = h.toNat := by subst hn; unfold bf imm; omega
  have t6_8 : bf n 6 8 = 0 := by subst hn; unfold bf imm; omega
  have t14_2 : bf n 14 2 = 2 := by subst hn; unfold bf imm; omega
  rw [shift_2 t26_6 t14_2]
  simp [gAt, cAt, fAt, bit_eq, bit_b2n, checked, checkedOpt, t21_5, t16_5, t0_6, t6_8, t14_2]

theorem lim (d : GReg) (i : BitVec 21) : Statement (.lim d i) := by
  refine scalarCase _ _ rfl rfl rfl (by omega) (fun hw n hn => ?_)
  have t26_6 : bf n 26 6 = 7 := by subst hn; unfold bf ; omega
  have t21_5 : bf n 21 5 = d.toNat := by subst hn; unfold bf ; omega
  have t0_21 : bf n 0 21 = i.toNat := by subst hn; unfold bf ; omega
  rw [major_07 t26_6]
  simp [gAt, cAt, fAt, bit_eq, bit_b2n, checked, checkedOpt, t21_5, t0_21]

theorem lsh (d : GReg) (i : BitVec 16) : Statement (.lsh d i) := by
  refine scalarCase _ _ rfl rfl rfl (by unfold imm; omega) (fun hw n hn => ?_)
  have t26_6 : bf n 26 6 = 8 := by subst hn; unfold bf imm; omega
  have t21_5 : bf n 21 5 = d.toNat := by subst hn; unfold bf imm; omega
  have t16_5 : bf n 16 5 = 0 := by subst hn; unfold bf imm; omega
  have t0_16 : bf n 0 16 = i.toNat := by subst hn; unfold bf imm; omega
  rw [major_08 t26_6]
  simp [gAt, cAt, fAt, bit_eq, bit_b2n, checked, checkedOpt, t21_5, t16_5, t0_16]

theorem cmp (c : CReg) (a : GReg) (b : GReg) (w : Bool) (r : CmpRel) : Statement (.cmp c a b w r) := by
  have b_w := b2n_lt w; have b_r := r.code_lt
  have hf : b2n w * 2 ^ 10 + r.code < 2048 := by omega
  obtain ⟨e26, e21, e16, e11⟩ := tri_fields 0x09 c.toNat a.toNat b.toNat (b2n w * 2 ^ 10 + r.code) (by omega) (by omega) (by omega) hf
  refine scalarCase _ _ rfl rfl rfl (tri_lt _ _ _ _ _ (by decide) (by omega) (by omega) (by omega) hf) (fun hw n hn => ?_)
  rw [← hn] at e26 e21 e16 e11
  have t10_1 : bf n 10 1 = b2n w := by rw [hn, tri_func _ _ _ _ _ _ _ (by decide)]; unfold bf; omega
  have t0_3 : bf n 0 3 = r.code := by rw [hn, tri_func _ _ _ _ _ _ _ (by decide)]; unfold bf; omega
  have t3_7 : bf n 3 7 = 0 := by rw [hn, tri_func _ _ _ _ _ _ _ (by decide)]; unfold bf; omega
  have ⟨n21_3, z21_3⟩ := bf_narrow (len := 3) e21 (by decide) (by omega)
  rw [major_09 e26]
  simp [gAt, cAt, fAt, bit_eq, bit_b2n, checked, checkedOpt, t10_1, t0_3, t3_7, n21_3, z21_3, e21, e16, e11]

theorem cmpi (r : CmpiRel) (c : CReg) (a : GReg) (i : BitVec 16) : Statement (.cmpi r c a i) := by
  have b_r := r.code_lt
  refine scalarCase _ _ rfl rfl rfl (by unfold imm; omega) (fun hw n hn => ?_)
  have t26_6 : bf n 26 6 = 10 := by subst hn; unfold bf imm; omega
  have t21_3 : bf n 21 3 = c.toNat := by subst hn; unfold bf imm; omega
  have t24_2 : bf n 24 2 = r.code := by subst hn; unfold bf imm; omega
  have t16_5 : bf n 16 5 = a.toNat := by subst hn; unfold bf imm; omega
  have t0_16 : bf n 0 16 = i.toNat := by subst hn; unfold bf imm; omega
  rw [major_0a t26_6]
  simp [gAt, cAt, fAt, bit_eq, bit_b2n, checked, checkedOpt, t21_3, t24_2, t16_5, t0_16]

theorem cand (d : CReg) (a : CReg) (b : CReg) : Statement (.cand d a b) := by
  have hf : 0 < 2048 := by omega
  obtain ⟨e26, e21, e16, e11⟩ := tri_fields 0x0B d.toNat a.toNat b.toNat 0 (by omega) (by omega) (by omega) hf
  refine scalarCase _ _ rfl rfl rfl (tri_lt _ _ _ _ _ (by decide) (by omega) (by omega) (by omega) hf) (fun hw n hn => ?_)
  rw [← hn] at e26 e21 e16 e11
  have t0_11 : bf n 0 11 = 0 := by rw [hn, tri_func _ _ _ _ _ _ _ (by decide)]; unfold bf; omega
  have ⟨n21_3, z21_3⟩ := bf_narrow (len := 3) e21 (by decide) (by omega)
  have ⟨n16_3, z16_3⟩ := bf_narrow (len := 3) e16 (by decide) (by omega)
  have ⟨n11_3, z11_3⟩ := bf_narrow (len := 3) e11 (by decide) (by omega)
  rw [major_0b e26]
  simp [decodeCond, gAt, cAt, fAt, bit_eq, bit_b2n, checked, checkedOpt, t0_11, n21_3, z21_3, n16_3, z16_3, n11_3, z11_3, e21, e16, e11]

theorem cor (d : CReg) (a : CReg) (b : CReg) : Statement (.cor d a b) := by
  have hf : 1 < 2048 := by omega
  obtain ⟨e26, e21, e16, e11⟩ := tri_fields 0x0B d.toNat a.toNat b.toNat 1 (by omega) (by omega) (by omega) hf
  refine scalarCase _ _ rfl rfl rfl (tri_lt _ _ _ _ _ (by decide) (by omega) (by omega) (by omega) hf) (fun hw n hn => ?_)
  rw [← hn] at e26 e21 e16 e11
  have t0_11 : bf n 0 11 = 1 := by rw [hn, tri_func _ _ _ _ _ _ _ (by decide)]; unfold bf; omega
  have ⟨n21_3, z21_3⟩ := bf_narrow (len := 3) e21 (by decide) (by omega)
  have ⟨n16_3, z16_3⟩ := bf_narrow (len := 3) e16 (by decide) (by omega)
  have ⟨n11_3, z11_3⟩ := bf_narrow (len := 3) e11 (by decide) (by omega)
  rw [major_0b e26]
  simp [decodeCond, gAt, cAt, fAt, bit_eq, bit_b2n, checked, checkedOpt, t0_11, n21_3, z21_3, n16_3, z16_3, n11_3, z11_3, e21, e16, e11]

theorem cxor (d : CReg) (a : CReg) (b : CReg) : Statement (.cxor d a b) := by
  have hf : 2 < 2048 := by omega
  obtain ⟨e26, e21, e16, e11⟩ := tri_fields 0x0B d.toNat a.toNat b.toNat 2 (by omega) (by omega) (by omega) hf
  refine scalarCase _ _ rfl rfl rfl (tri_lt _ _ _ _ _ (by decide) (by omega) (by omega) (by omega) hf) (fun hw n hn => ?_)
  rw [← hn] at e26 e21 e16 e11
  have t0_11 : bf n 0 11 = 2 := by rw [hn, tri_func _ _ _ _ _ _ _ (by decide)]; unfold bf; omega
  have ⟨n21_3, z21_3⟩ := bf_narrow (len := 3) e21 (by decide) (by omega)
  have ⟨n16_3, z16_3⟩ := bf_narrow (len := 3) e16 (by decide) (by omega)
  have ⟨n11_3, z11_3⟩ := bf_narrow (len := 3) e11 (by decide) (by omega)
  rw [major_0b e26]
  simp [decodeCond, gAt, cAt, fAt, bit_eq, bit_b2n, checked, checkedOpt, t0_11, n21_3, z21_3, n16_3, z16_3, n11_3, z11_3, e21, e16, e11]

theorem cnot (d : CReg) (a : CReg) : Statement (.cnot d a) := by
  have hf : 3 < 2048 := by omega
  obtain ⟨e26, e21, e16, e11⟩ := tri_fields 0x0B d.toNat a.toNat 0 3 (by omega) (by omega) (by omega) hf
  refine scalarCase _ _ rfl rfl rfl (tri_lt _ _ _ _ _ (by decide) (by omega) (by omega) (by omega) hf) (fun hw n hn => ?_)
  rw [← hn] at e26 e21 e16 e11
  have t0_11 : bf n 0 11 = 3 := by rw [hn, tri_func _ _ _ _ _ _ _ (by decide)]; unfold bf; omega
  have ⟨n21_3, z21_3⟩ := bf_narrow (len := 3) e21 (by decide) (by omega)
  have ⟨n16_3, z16_3⟩ := bf_narrow (len := 3) e16 (by decide) (by omega)
  have ⟨n11_3, z11_3⟩ := bf_narrow (len := 3) e11 (by decide) (by first | decide | omega)
  rw [major_0b e26]
  simp [decodeCond, gAt, cAt, fAt, bit_eq, bit_b2n, checked, checkedOpt, t0_11, n21_3, z21_3, n16_3, z16_3, n11_3, z11_3, e21, e16, e11]

theorem sel (d : GReg) (a : GReg) (b : GReg) (c : CReg) : Statement (.sel d a b c) := by
  have hf : c.toNat < 2048 := by omega
  obtain ⟨e26, e21, e16, e11⟩ := tri_fields 0x0C d.toNat a.toNat b.toNat c.toNat (by omega) (by omega) (by omega) hf
  refine scalarCase _ _ rfl rfl rfl (tri_lt _ _ _ _ _ (by decide) (by omega) (by omega) (by omega) hf) (fun hw n hn => ?_)
  rw [← hn] at e26 e21 e16 e11
  have t3_8 : bf n 3 8 = 0 := by rw [hn, tri_func _ _ _ _ _ _ _ (by decide)]; unfold bf; omega
  have t0_3 : bf n 0 3 = c.toNat := by rw [hn, tri_func _ _ _ _ _ _ _ (by decide)]; unfold bf; omega
  rw [major_0c e26]
  simp [gAt, cAt, fAt, bit_eq, bit_b2n, checked, checkedOpt, t3_8, t0_3, e21, e16, e11]

theorem lea (d : GReg) (a : GReg) (b : GReg) (sh : BitVec 3) : Statement (.lea d a b h) := by
  have hf : h.toNat < 2048 := by omega
  obtain ⟨e26, e21, e16, e11⟩ := tri_fields 0x0D d.toNat a.toNat b.toNat h.toNat (by omega) (by omega) (by omega) hf
  refine scalarCase _ _ rfl rfl rfl (tri_lt _ _ _ _ _ (by decide) (by omega) (by omega) (by omega) hf) (fun hw n hn => ?_)
  rw [← hn] at e26 e21 e16 e11
  have t3_8 : bf n 3 8 = 0 := by rw [hn, tri_func _ _ _ _ _ _ _ (by decide)]; unfold bf; omega
  have t0_3 : bf n 0 3 = h.toNat := by rw [hn, tri_func _ _ _ _ _ _ _ (by decide)]; unfold bf; omega
  rw [major_0d e26]
  simp [gAt, cAt, fAt, bit_eq, bit_b2n, checked, checkedOpt, t3_8, t0_3, e21, e16, e11]

theorem untaint (d : GReg) (a : GReg) : Statement (.untaint d a) := by
  have hf : 0 < 2048 := by omega
  obtain ⟨e26, e21, e16, e11⟩ := tri_fields 0x0E d.toNat a.toNat 0 0 (by omega) (by omega) (by omega) hf
  refine scalarCase _ _ rfl rfl rfl (tri_lt _ _ _ _ _ (by decide) (by omega) (by omega) (by omega) hf) (fun hw n hn => ?_)
  rw [← hn] at e26 e21 e16 e11
  have t0_11 : bf n 0 11 = 0 := by rw [hn, tri_func _ _ _ _ _ _ _ (by decide)]; unfold bf; omega
  rw [untaint_0 e26 t0_11]
  simp [gAt, cAt, fAt, bit_eq, bit_b2n, checked, checkedOpt, t0_11, e21, e16, e11]

theorem istaint (d : GReg) (a : GReg) : Statement (.istaint d a) := by
  have hf : 1 < 2048 := by omega
  obtain ⟨e26, e21, e16, e11⟩ := tri_fields 0x0E d.toNat a.toNat 0 1 (by omega) (by omega) (by omega) hf
  refine scalarCase _ _ rfl rfl rfl (tri_lt _ _ _ _ _ (by decide) (by omega) (by omega) (by omega) hf) (fun hw n hn => ?_)
  rw [← hn] at e26 e21 e16 e11
  have t0_11 : bf n 0 11 = 1 := by rw [hn, tri_func _ _ _ _ _ _ _ (by decide)]; unfold bf; omega
  rw [untaint_1 e26 t0_11]
  simp [gAt, cAt, fAt, bit_eq, bit_b2n, checked, checkedOpt, t0_11, e21, e16, e11]

theorem fadd (d : FReg) (a : FReg) (b : FReg) (f : FFmt) (r : FRnd) : Statement (.fadd d a b f r) := by
  obtain ⟨hf, k1, k2, k3⟩ := fp_func f r.code 0 (by first | decide | exact FRnd.code_lt _) (by decide)
  have b_f := f.code_lt; have b_r := r.code_lt
  obtain ⟨e26, e21, e16, e11⟩ := tri_fields 0x10 d.toNat a.toNat b.toNat (fpFunc f r.code 0) (by omega) (by omega) (by omega) hf
  refine scalarCase _ _ rfl rfl rfl (tri_lt _ _ _ _ _ (by decide) (by omega) (by omega) (by omega) hf) (fun hw n hn => ?_)
  rw [← hn] at e26 e21 e16 e11
  have t9_2 : bf n 9 2 = f.code := by rw [hn, tri_func _ _ _ _ _ _ _ (by decide)]; exact k1
  have t6_3 : bf n 6 3 = r.code := by rw [hn, tri_func _ _ _ _ _ _ _ (by decide)]; exact k2
  have t0_6 : bf n 0 6 = 0 := by rw [hn, tri_func _ _ _ _ _ _ _ (by decide)]; exact k3
  have ⟨n21_4, z21_4⟩ := bf_narrow (len := 4) e21 (by decide) (by omega)
  have ⟨n16_4, z16_4⟩ := bf_narrow (len := 4) e16 (by decide) (by omega)
  have ⟨n11_4, z11_4⟩ := bf_narrow (len := 4) e11 (by decide) (by omega)
  rw [major_10 e26]
  simp [decodeFp, gAt, cAt, fAt, bit_eq, bit_b2n, checked, checkedOpt, t9_2, t6_3, t0_6, n21_4, z21_4, n16_4, z16_4, n11_4, z11_4, e21, e16, e11]

theorem fsub (d : FReg) (a : FReg) (b : FReg) (f : FFmt) (r : FRnd) : Statement (.fsub d a b f r) := by
  obtain ⟨hf, k1, k2, k3⟩ := fp_func f r.code 1 (by first | decide | exact FRnd.code_lt _) (by decide)
  have b_f := f.code_lt; have b_r := r.code_lt
  obtain ⟨e26, e21, e16, e11⟩ := tri_fields 0x10 d.toNat a.toNat b.toNat (fpFunc f r.code 1) (by omega) (by omega) (by omega) hf
  refine scalarCase _ _ rfl rfl rfl (tri_lt _ _ _ _ _ (by decide) (by omega) (by omega) (by omega) hf) (fun hw n hn => ?_)
  rw [← hn] at e26 e21 e16 e11
  have t9_2 : bf n 9 2 = f.code := by rw [hn, tri_func _ _ _ _ _ _ _ (by decide)]; exact k1
  have t6_3 : bf n 6 3 = r.code := by rw [hn, tri_func _ _ _ _ _ _ _ (by decide)]; exact k2
  have t0_6 : bf n 0 6 = 1 := by rw [hn, tri_func _ _ _ _ _ _ _ (by decide)]; exact k3
  have ⟨n21_4, z21_4⟩ := bf_narrow (len := 4) e21 (by decide) (by omega)
  have ⟨n16_4, z16_4⟩ := bf_narrow (len := 4) e16 (by decide) (by omega)
  have ⟨n11_4, z11_4⟩ := bf_narrow (len := 4) e11 (by decide) (by omega)
  rw [major_10 e26]
  simp [decodeFp, gAt, cAt, fAt, bit_eq, bit_b2n, checked, checkedOpt, t9_2, t6_3, t0_6, n21_4, z21_4, n16_4, z16_4, n11_4, z11_4, e21, e16, e11]

theorem fmul (d : FReg) (a : FReg) (b : FReg) (f : FFmt) (r : FRnd) : Statement (.fmul d a b f r) := by
  obtain ⟨hf, k1, k2, k3⟩ := fp_func f r.code 2 (by first | decide | exact FRnd.code_lt _) (by decide)
  have b_f := f.code_lt; have b_r := r.code_lt
  obtain ⟨e26, e21, e16, e11⟩ := tri_fields 0x10 d.toNat a.toNat b.toNat (fpFunc f r.code 2) (by omega) (by omega) (by omega) hf
  refine scalarCase _ _ rfl rfl rfl (tri_lt _ _ _ _ _ (by decide) (by omega) (by omega) (by omega) hf) (fun hw n hn => ?_)
  rw [← hn] at e26 e21 e16 e11
  have t9_2 : bf n 9 2 = f.code := by rw [hn, tri_func _ _ _ _ _ _ _ (by decide)]; exact k1
  have t6_3 : bf n 6 3 = r.code := by rw [hn, tri_func _ _ _ _ _ _ _ (by decide)]; exact k2
  have t0_6 : bf n 0 6 = 2 := by rw [hn, tri_func _ _ _ _ _ _ _ (by decide)]; exact k3
  have ⟨n21_4, z21_4⟩ := bf_narrow (len := 4) e21 (by decide) (by omega)
  have ⟨n16_4, z16_4⟩ := bf_narrow (len := 4) e16 (by decide) (by omega)
  have ⟨n11_4, z11_4⟩ := bf_narrow (len := 4) e11 (by decide) (by omega)
  rw [major_10 e26]
  simp [decodeFp, gAt, cAt, fAt, bit_eq, bit_b2n, checked, checkedOpt, t9_2, t6_3, t0_6, n21_4, z21_4, n16_4, z16_4, n11_4, z11_4, e21, e16, e11]

theorem fdiv (d : FReg) (a : FReg) (b : FReg) (f : FFmt) (r : FRnd) : Statement (.fdiv d a b f r) := by
  obtain ⟨hf, k1, k2, k3⟩ := fp_func f r.code 3 (by first | decide | exact FRnd.code_lt _) (by decide)
  have b_f := f.code_lt; have b_r := r.code_lt
  obtain ⟨e26, e21, e16, e11⟩ := tri_fields 0x10 d.toNat a.toNat b.toNat (fpFunc f r.code 3) (by omega) (by omega) (by omega) hf
  refine scalarCase _ _ rfl rfl rfl (tri_lt _ _ _ _ _ (by decide) (by omega) (by omega) (by omega) hf) (fun hw n hn => ?_)
  rw [← hn] at e26 e21 e16 e11
  have t9_2 : bf n 9 2 = f.code := by rw [hn, tri_func _ _ _ _ _ _ _ (by decide)]; exact k1
  have t6_3 : bf n 6 3 = r.code := by rw [hn, tri_func _ _ _ _ _ _ _ (by decide)]; exact k2
  have t0_6 : bf n 0 6 = 3 := by rw [hn, tri_func _ _ _ _ _ _ _ (by decide)]; exact k3
  have ⟨n21_4, z21_4⟩ := bf_narrow (len := 4) e21 (by decide) (by omega)
  have ⟨n16_4, z16_4⟩ := bf_narrow (len := 4) e16 (by decide) (by omega)
  have ⟨n11_4, z11_4⟩ := bf_narrow (len := 4) e11 (by decide) (by omega)
  rw [major_10 e26]
  simp [decodeFp, gAt, cAt, fAt, bit_eq, bit_b2n, checked, checkedOpt, t9_2, t6_3, t0_6, n21_4, z21_4, n16_4, z16_4, n11_4, z11_4, e21, e16, e11]

theorem fsqrt (d : FReg) (a : FReg) (f : FFmt) (r : FRnd) : Statement (.fsqrt d a f r) := by
  obtain ⟨hf, k1, k2, k3⟩ := fp_func f r.code 4 (by first | decide | exact FRnd.code_lt _) (by decide)
  have b_f := f.code_lt; have b_r := r.code_lt
  obtain ⟨e26, e21, e16, e11⟩ := tri_fields 0x10 d.toNat a.toNat 0 (fpFunc f r.code 4) (by omega) (by omega) (by omega) hf
  refine scalarCase _ _ rfl rfl rfl (tri_lt _ _ _ _ _ (by decide) (by omega) (by omega) (by omega) hf) (fun hw n hn => ?_)
  rw [← hn] at e26 e21 e16 e11
  have t9_2 : bf n 9 2 = f.code := by rw [hn, tri_func _ _ _ _ _ _ _ (by decide)]; exact k1
  have t6_3 : bf n 6 3 = r.code := by rw [hn, tri_func _ _ _ _ _ _ _ (by decide)]; exact k2
  have t0_6 : bf n 0 6 = 4 := by rw [hn, tri_func _ _ _ _ _ _ _ (by decide)]; exact k3
  have ⟨n21_4, z21_4⟩ := bf_narrow (len := 4) e21 (by decide) (by omega)
  have ⟨n16_4, z16_4⟩ := bf_narrow (len := 4) e16 (by decide) (by omega)
  have ⟨n11_4, z11_4⟩ := bf_narrow (len := 4) e11 (by decide) (by first | decide | omega)
  have ⟨n11_2, z11_2⟩ := bf_narrow (len := 2) e11 (by decide) (by first | decide | omega)
  rw [major_10 e26]
  simp [decodeFp, gAt, cAt, fAt, bit_eq, bit_b2n, checked, checkedOpt, t9_2, t6_3, t0_6, n21_4, z21_4, n16_4, z16_4, n11_4, z11_4, n11_2, z11_2, e21, e16, e11]

theorem fmin (d : FReg) (a : FReg) (b : FReg) (f : FFmt) : Statement (.fmin d a b f) := by
  obtain ⟨hf, k1, k2, k3⟩ := fp_func f 0 5 (by first | decide | exact FRnd.code_lt _) (by decide)
  have b_f := f.code_lt
  obtain ⟨e26, e21, e16, e11⟩ := tri_fields 0x10 d.toNat a.toNat b.toNat (fpFunc f 0 5) (by omega) (by omega) (by omega) hf
  refine scalarCase _ _ rfl rfl rfl (tri_lt _ _ _ _ _ (by decide) (by omega) (by omega) (by omega) hf) (fun hw n hn => ?_)
  rw [← hn] at e26 e21 e16 e11
  have t9_2 : bf n 9 2 = f.code := by rw [hn, tri_func _ _ _ _ _ _ _ (by decide)]; exact k1
  have t6_3 : bf n 6 3 = 0 := by rw [hn, tri_func _ _ _ _ _ _ _ (by decide)]; exact k2
  have t0_6 : bf n 0 6 = 5 := by rw [hn, tri_func _ _ _ _ _ _ _ (by decide)]; exact k3
  have ⟨n21_4, z21_4⟩ := bf_narrow (len := 4) e21 (by decide) (by omega)
  have ⟨n16_4, z16_4⟩ := bf_narrow (len := 4) e16 (by decide) (by omega)
  have ⟨n11_4, z11_4⟩ := bf_narrow (len := 4) e11 (by decide) (by omega)
  rw [major_10 e26]
  simp [decodeFp, gAt, cAt, fAt, bit_eq, bit_b2n, checked, checkedOpt, t9_2, t6_3, t0_6, n21_4, z21_4, n16_4, z16_4, n11_4, z11_4, e21, e16, e11]

theorem fmax (d : FReg) (a : FReg) (b : FReg) (f : FFmt) : Statement (.fmax d a b f) := by
  obtain ⟨hf, k1, k2, k3⟩ := fp_func f 0 6 (by first | decide | exact FRnd.code_lt _) (by decide)
  have b_f := f.code_lt
  obtain ⟨e26, e21, e16, e11⟩ := tri_fields 0x10 d.toNat a.toNat b.toNat (fpFunc f 0 6) (by omega) (by omega) (by omega) hf
  refine scalarCase _ _ rfl rfl rfl (tri_lt _ _ _ _ _ (by decide) (by omega) (by omega) (by omega) hf) (fun hw n hn => ?_)
  rw [← hn] at e26 e21 e16 e11
  have t9_2 : bf n 9 2 = f.code := by rw [hn, tri_func _ _ _ _ _ _ _ (by decide)]; exact k1
  have t6_3 : bf n 6 3 = 0 := by rw [hn, tri_func _ _ _ _ _ _ _ (by decide)]; exact k2
  have t0_6 : bf n 0 6 = 6 := by rw [hn, tri_func _ _ _ _ _ _ _ (by decide)]; exact k3
  have ⟨n21_4, z21_4⟩ := bf_narrow (len := 4) e21 (by decide) (by omega)
  have ⟨n16_4, z16_4⟩ := bf_narrow (len := 4) e16 (by decide) (by omega)
  have ⟨n11_4, z11_4⟩ := bf_narrow (len := 4) e11 (by decide) (by omega)
  rw [major_10 e26]
  simp [decodeFp, gAt, cAt, fAt, bit_eq, bit_b2n, checked, checkedOpt, t9_2, t6_3, t0_6, n21_4, z21_4, n16_4, z16_4, n11_4, z11_4, e21, e16, e11]

theorem fmac (d : FReg) (a : FReg) (b : FReg) (f : FFmt) (r : FRnd) : Statement (.fmac d a b f r) := by
  obtain ⟨hf, k1, k2, k3⟩ := fp_func f r.code 7 (by first | decide | exact FRnd.code_lt _) (by decide)
  have b_f := f.code_lt; have b_r := r.code_lt
  obtain ⟨e26, e21, e16, e11⟩ := tri_fields 0x10 d.toNat a.toNat b.toNat (fpFunc f r.code 7) (by omega) (by omega) (by omega) hf
  refine scalarCase _ _ rfl rfl rfl (tri_lt _ _ _ _ _ (by decide) (by omega) (by omega) (by omega) hf) (fun hw n hn => ?_)
  rw [← hn] at e26 e21 e16 e11
  have t9_2 : bf n 9 2 = f.code := by rw [hn, tri_func _ _ _ _ _ _ _ (by decide)]; exact k1
  have t6_3 : bf n 6 3 = r.code := by rw [hn, tri_func _ _ _ _ _ _ _ (by decide)]; exact k2
  have t0_6 : bf n 0 6 = 7 := by rw [hn, tri_func _ _ _ _ _ _ _ (by decide)]; exact k3
  have ⟨n21_4, z21_4⟩ := bf_narrow (len := 4) e21 (by decide) (by omega)
  have ⟨n16_4, z16_4⟩ := bf_narrow (len := 4) e16 (by decide) (by omega)
  have ⟨n11_4, z11_4⟩ := bf_narrow (len := 4) e11 (by decide) (by omega)
  rw [major_10 e26]
  simp [decodeFp, gAt, cAt, fAt, bit_eq, bit_b2n, checked, checkedOpt, t9_2, t6_3, t0_6, n21_4, z21_4, n16_4, z16_4, n11_4, z11_4, e21, e16, e11]

theorem fneg (d : FReg) (a : FReg) (f : FFmt) : Statement (.fneg d a f) := by
  obtain ⟨hf, k1, k2, k3⟩ := fp_func f 0 8 (by first | decide | exact FRnd.code_lt _) (by decide)
  have b_f := f.code_lt
  obtain ⟨e26, e21, e16, e11⟩ := tri_fields 0x10 d.toNat a.toNat 0 (fpFunc f 0 8) (by omega) (by omega) (by omega) hf
  refine scalarCase _ _ rfl rfl rfl (tri_lt _ _ _ _ _ (by decide) (by omega) (by omega) (by omega) hf) (fun hw n hn => ?_)
  rw [← hn] at e26 e21 e16 e11
  have t9_2 : bf n 9 2 = f.code := by rw [hn, tri_func _ _ _ _ _ _ _ (by decide)]; exact k1
  have t6_3 : bf n 6 3 = 0 := by rw [hn, tri_func _ _ _ _ _ _ _ (by decide)]; exact k2
  have t0_6 : bf n 0 6 = 8 := by rw [hn, tri_func _ _ _ _ _ _ _ (by decide)]; exact k3
  have ⟨n21_4, z21_4⟩ := bf_narrow (len := 4) e21 (by decide) (by omega)
  have ⟨n16_4, z16_4⟩ := bf_narrow (len := 4) e16 (by decide) (by omega)
  have ⟨n11_4, z11_4⟩ := bf_narrow (len := 4) e11 (by decide) (by first | decide | omega)
  have ⟨n11_2, z11_2⟩ := bf_narrow (len := 2) e11 (by decide) (by first | decide | omega)
  rw [major_10 e26]
  simp [decodeFp, gAt, cAt, fAt, bit_eq, bit_b2n, checked, checkedOpt, t9_2, t6_3, t0_6, n21_4, z21_4, n16_4, z16_4, n11_4, z11_4, n11_2, z11_2, e21, e16, e11]

theorem fabs (d : FReg) (a : FReg) (f : FFmt) : Statement (.fabs d a f) := by
  obtain ⟨hf, k1, k2, k3⟩ := fp_func f 0 9 (by first | decide | exact FRnd.code_lt _) (by decide)
  have b_f := f.code_lt
  obtain ⟨e26, e21, e16, e11⟩ := tri_fields 0x10 d.toNat a.toNat 0 (fpFunc f 0 9) (by omega) (by omega) (by omega) hf
  refine scalarCase _ _ rfl rfl rfl (tri_lt _ _ _ _ _ (by decide) (by omega) (by omega) (by omega) hf) (fun hw n hn => ?_)
  rw [← hn] at e26 e21 e16 e11
  have t9_2 : bf n 9 2 = f.code := by rw [hn, tri_func _ _ _ _ _ _ _ (by decide)]; exact k1
  have t6_3 : bf n 6 3 = 0 := by rw [hn, tri_func _ _ _ _ _ _ _ (by decide)]; exact k2
  have t0_6 : bf n 0 6 = 9 := by rw [hn, tri_func _ _ _ _ _ _ _ (by decide)]; exact k3
  have ⟨n21_4, z21_4⟩ := bf_narrow (len := 4) e21 (by decide) (by omega)
  have ⟨n16_4, z16_4⟩ := bf_narrow (len := 4) e16 (by decide) (by omega)
  have ⟨n11_4, z11_4⟩ := bf_narrow (len := 4) e11 (by decide) (by first | decide | omega)
  have ⟨n11_2, z11_2⟩ := bf_narrow (len := 2) e11 (by decide) (by first | decide | omega)
  rw [major_10 e26]
  simp [decodeFp, gAt, cAt, fAt, bit_eq, bit_b2n, checked, checkedOpt, t9_2, t6_3, t0_6, n21_4, z21_4, n16_4, z16_4, n11_4, z11_4, n11_2, z11_2, e21, e16, e11]

theorem fcvt (d : FReg) (a : FReg) (src : FFmt) (f : FFmt) (r : FRnd) : Statement (.fcvt d a s f r) := by
  obtain ⟨hf, k1, k2, k3⟩ := fp_func f r.code 10 (by first | decide | exact FRnd.code_lt _) (by decide)
  have b_s := s.code_lt; have b_f := f.code_lt; have b_r := r.code_lt
  obtain ⟨e26, e21, e16, e11⟩ := tri_fields 0x10 d.toNat a.toNat s.code (fpFunc f r.code 10) (by omega) (by omega) (by omega) hf
  refine scalarCase _ _ rfl rfl rfl (tri_lt _ _ _ _ _ (by decide) (by omega) (by omega) (by omega) hf) (fun hw n hn => ?_)
  rw [← hn] at e26 e21 e16 e11
  have t9_2 : bf n 9 2 = f.code := by rw [hn, tri_func _ _ _ _ _ _ _ (by decide)]; exact k1
  have t6_3 : bf n 6 3 = r.code := by rw [hn, tri_func _ _ _ _ _ _ _ (by decide)]; exact k2
  have t0_6 : bf n 0 6 = 10 := by rw [hn, tri_func _ _ _ _ _ _ _ (by decide)]; exact k3
  have ⟨n21_4, z21_4⟩ := bf_narrow (len := 4) e21 (by decide) (by omega)
  have ⟨n16_4, z16_4⟩ := bf_narrow (len := 4) e16 (by decide) (by omega)
  have ⟨n11_4, z11_4⟩ := bf_narrow (len := 4) e11 (by decide) (by omega)
  have ⟨n11_2, z11_2⟩ := bf_narrow (len := 2) e11 (by decide) (by omega)
  rw [major_10 e26]
  simp [decodeFp, gAt, cAt, fAt, bit_eq, bit_b2n, checked, checkedOpt, t9_2, t6_3, t0_6, n21_4, z21_4, n16_4, z16_4, n11_4, z11_4, n11_2, z11_2, e21, e16, e11]

theorem fcvti (d : GReg) (a : FReg) (k : IKind) (f : FFmt) (r : FRnd) : Statement (.fcvti d a k f r) := by
  obtain ⟨hf, k1, k2, k3⟩ := fp_func f r.code 11 (by first | decide | exact FRnd.code_lt _) (by decide)
  have b_k := k.code_lt; have b_f := f.code_lt; have b_r := r.code_lt
  obtain ⟨e26, e21, e16, e11⟩ := tri_fields 0x10 d.toNat a.toNat k.code (fpFunc f r.code 11) (by omega) (by omega) (by omega) hf
  refine scalarCase _ _ rfl rfl rfl (tri_lt _ _ _ _ _ (by decide) (by omega) (by omega) (by omega) hf) (fun hw n hn => ?_)
  rw [← hn] at e26 e21 e16 e11
  have t9_2 : bf n 9 2 = f.code := by rw [hn, tri_func _ _ _ _ _ _ _ (by decide)]; exact k1
  have t6_3 : bf n 6 3 = r.code := by rw [hn, tri_func _ _ _ _ _ _ _ (by decide)]; exact k2
  have t0_6 : bf n 0 6 = 11 := by rw [hn, tri_func _ _ _ _ _ _ _ (by decide)]; exact k3
  have ⟨n16_4, z16_4⟩ := bf_narrow (len := 4) e16 (by decide) (by omega)
  have ⟨n11_4, z11_4⟩ := bf_narrow (len := 4) e11 (by decide) (by omega)
  have ⟨n11_2, z11_2⟩ := bf_narrow (len := 2) e11 (by decide) (by omega)
  rw [major_10 e26]
  simp [decodeFp, gAt, cAt, fAt, bit_eq, bit_b2n, checked, checkedOpt, t9_2, t6_3, t0_6, n16_4, z16_4, n11_4, z11_4, n11_2, z11_2, e21, e16, e11]

theorem icvtf (d : FReg) (a : GReg) (k : IKind) (f : FFmt) (r : FRnd) : Statement (.icvtf d a k f r) := by
  obtain ⟨hf, k1, k2, k3⟩ := fp_func f r.code 12 (by first | decide | exact FRnd.code_lt _) (by decide)
  have b_k := k.code_lt; have b_f := f.code_lt; have b_r := r.code_lt
  obtain ⟨e26, e21, e16, e11⟩ := tri_fields 0x10 d.toNat a.toNat k.code (fpFunc f r.code 12) (by omega) (by omega) (by omega) hf
  refine scalarCase _ _ rfl rfl rfl (tri_lt _ _ _ _ _ (by decide) (by omega) (by omega) (by omega) hf) (fun hw n hn => ?_)
  rw [← hn] at e26 e21 e16 e11
  have t9_2 : bf n 9 2 = f.code := by rw [hn, tri_func _ _ _ _ _ _ _ (by decide)]; exact k1
  have t6_3 : bf n 6 3 = r.code := by rw [hn, tri_func _ _ _ _ _ _ _ (by decide)]; exact k2
  have t0_6 : bf n 0 6 = 12 := by rw [hn, tri_func _ _ _ _ _ _ _ (by decide)]; exact k3
  have ⟨n21_4, z21_4⟩ := bf_narrow (len := 4) e21 (by decide) (by omega)
  have ⟨n11_4, z11_4⟩ := bf_narrow (len := 4) e11 (by decide) (by omega)
  have ⟨n11_2, z11_2⟩ := bf_narrow (len := 2) e11 (by decide) (by omega)
  rw [major_10 e26]
  simp [decodeFp, gAt, cAt, fAt, bit_eq, bit_b2n, checked, checkedOpt, t9_2, t6_3, t0_6, n21_4, z21_4, n11_4, z11_4, n11_2, z11_2, e21, e16, e11]

theorem fmvg (d : GReg) (a : FReg) (f : FFmt) : Statement (.fmvg d a f) := by
  obtain ⟨hf, k1, k2, k3⟩ := fp_func f 0 13 (by first | decide | exact FRnd.code_lt _) (by decide)
  have b_f := f.code_lt
  obtain ⟨e26, e21, e16, e11⟩ := tri_fields 0x10 d.toNat a.toNat 0 (fpFunc f 0 13) (by omega) (by omega) (by omega) hf
  refine scalarCase _ _ rfl rfl rfl (tri_lt _ _ _ _ _ (by decide) (by omega) (by omega) (by omega) hf) (fun hw n hn => ?_)
  rw [← hn] at e26 e21 e16 e11
  have t9_2 : bf n 9 2 = f.code := by rw [hn, tri_func _ _ _ _ _ _ _ (by decide)]; exact k1
  have t6_3 : bf n 6 3 = 0 := by rw [hn, tri_func _ _ _ _ _ _ _ (by decide)]; exact k2
  have t0_6 : bf n 0 6 = 13 := by rw [hn, tri_func _ _ _ _ _ _ _ (by decide)]; exact k3
  have ⟨n16_4, z16_4⟩ := bf_narrow (len := 4) e16 (by decide) (by omega)
  have ⟨n11_4, z11_4⟩ := bf_narrow (len := 4) e11 (by decide) (by first | decide | omega)
  have ⟨n11_2, z11_2⟩ := bf_narrow (len := 2) e11 (by decide) (by first | decide | omega)
  rw [major_10 e26]
  simp [decodeFp, gAt, cAt, fAt, bit_eq, bit_b2n, checked, checkedOpt, t9_2, t6_3, t0_6, n16_4, z16_4, n11_4, z11_4, n11_2, z11_2, e21, e16, e11]

theorem gmvf (d : FReg) (a : GReg) (f : FFmt) : Statement (.gmvf d a f) := by
  obtain ⟨hf, k1, k2, k3⟩ := fp_func f 0 14 (by first | decide | exact FRnd.code_lt _) (by decide)
  have b_f := f.code_lt
  obtain ⟨e26, e21, e16, e11⟩ := tri_fields 0x10 d.toNat a.toNat 0 (fpFunc f 0 14) (by omega) (by omega) (by omega) hf
  refine scalarCase _ _ rfl rfl rfl (tri_lt _ _ _ _ _ (by decide) (by omega) (by omega) (by omega) hf) (fun hw n hn => ?_)
  rw [← hn] at e26 e21 e16 e11
  have t9_2 : bf n 9 2 = f.code := by rw [hn, tri_func _ _ _ _ _ _ _ (by decide)]; exact k1
  have t6_3 : bf n 6 3 = 0 := by rw [hn, tri_func _ _ _ _ _ _ _ (by decide)]; exact k2
  have t0_6 : bf n 0 6 = 14 := by rw [hn, tri_func _ _ _ _ _ _ _ (by decide)]; exact k3
  have ⟨n21_4, z21_4⟩ := bf_narrow (len := 4) e21 (by decide) (by omega)
  have ⟨n11_4, z11_4⟩ := bf_narrow (len := 4) e11 (by decide) (by first | decide | omega)
  have ⟨n11_2, z11_2⟩ := bf_narrow (len := 2) e11 (by decide) (by first | decide | omega)
  rw [major_10 e26]
  simp [decodeFp, gAt, cAt, fAt, bit_eq, bit_b2n, checked, checkedOpt, t9_2, t6_3, t0_6, n21_4, z21_4, n11_4, z11_4, n11_2, z11_2, e21, e16, e11]

theorem fcmp (c : CReg) (a : FReg) (b : FReg) (f : FFmt) (r : FRel) : Statement (.fcmp c a b f r) := by
  have b_f := f.code_lt; have b_r := r.code_lt
  have hf : f.code * 2 ^ 9 + r.code < 2048 := by omega
  obtain ⟨e26, e21, e16, e11⟩ := tri_fields 0x11 c.toNat a.toNat b.toNat (f.code * 2 ^ 9 + r.code) (by omega) (by omega) (by omega) hf
  refine scalarCase _ _ rfl rfl rfl (tri_lt _ _ _ _ _ (by decide) (by omega) (by omega) (by omega) hf) (fun hw n hn => ?_)
  rw [← hn] at e26 e21 e16 e11
  have t9_2 : bf n 9 2 = f.code := by rw [hn, tri_func _ _ _ _ _ _ _ (by decide)]; unfold bf; omega
  have t0_3 : bf n 0 3 = r.code := by rw [hn, tri_func _ _ _ _ _ _ _ (by decide)]; unfold bf; omega
  have t3_6 : bf n 3 6 = 0 := by rw [hn, tri_func _ _ _ _ _ _ _ (by decide)]; unfold bf; omega
  have ⟨n21_3, z21_3⟩ := bf_narrow (len := 3) e21 (by decide) (by omega)
  have ⟨n16_4, z16_4⟩ := bf_narrow (len := 4) e16 (by decide) (by omega)
  have ⟨n11_4, z11_4⟩ := bf_narrow (len := 4) e11 (by decide) (by omega)
  rw [major_11 e26]
  simp [gAt, cAt, fAt, bit_eq, bit_b2n, checked, checkedOpt, t9_2, t0_3, t3_6, n21_3, z21_3, n16_4, z16_4, n11_4, z11_4, e21, e16, e11]

theorem ld (d : GReg) (b : GReg) (m : LdMode) (i : BitVec 13) : Statement (.ld d b m i) := by
  have b_m := m.code_lt
  refine scalarCase _ _ rfl rfl rfl (by unfold memWord; omega) (fun hw n hn => ?_)
  have t26_6 : bf n 26 6 = 24 := by subst hn; unfold bf memWord; omega
  have t21_5 : bf n 21 5 = d.toNat := by subst hn; unfold bf memWord; omega
  have t16_5 : bf n 16 5 = b.toNat := by subst hn; unfold bf memWord; omega
  have t13_3 : bf n 13 3 = m.code := by subst hn; unfold bf memWord; omega
  have t0_13 : bf n 0 13 = i.toNat := by subst hn; unfold bf memWord; omega
  rw [major_18 t26_6]
  simp [gAt, cAt, fAt, bit_eq, bit_b2n, checked, checkedOpt, t21_5, t16_5, t13_3, t0_13]

theorem st (d : GReg) (b : GReg) (m : StMode) (i : BitVec 13) : Statement (.st d b m i) := by
  have b_m := m.code_lt
  refine scalarCase _ _ rfl rfl rfl (by unfold memWord; omega) (fun hw n hn => ?_)
  have t26_6 : bf n 26 6 = 25 := by subst hn; unfold bf memWord; omega
  have t21_5 : bf n 21 5 = d.toNat := by subst hn; unfold bf memWord; omega
  have t16_5 : bf n 16 5 = b.toNat := by subst hn; unfold bf memWord; omega
  have t13_3 : bf n 13 3 = m.code := by subst hn; unfold bf memWord; omega
  have t0_13 : bf n 0 13 = i.toNat := by subst hn; unfold bf memWord; omega
  rw [major_19 t26_6]
  simp [gAt, cAt, fAt, bit_eq, bit_b2n, checked, checkedOpt, t21_5, t16_5, t13_3, t0_13]

theorem ldc (d : GReg) (b : GReg) (m : LdcMode) (i : BitVec 13) : Statement (.ldc d b m i) := by
  have b_m := m.code_lt
  refine scalarCase _ _ rfl rfl rfl (by unfold memWord; omega) (fun hw n hn => ?_)
  have t26_6 : bf n 26 6 = 26 := by subst hn; unfold bf memWord; omega
  have t21_5 : bf n 21 5 = d.toNat := by subst hn; unfold bf memWord; omega
  have t16_5 : bf n 16 5 = b.toNat := by subst hn; unfold bf memWord; omega
  have t13_3 : bf n 13 3 = m.code := by subst hn; unfold bf memWord; omega
  have t0_13 : bf n 0 13 = i.toNat := by subst hn; unfold bf memWord; omega
  rw [major_1a t26_6]
  simp [gAt, cAt, fAt, bit_eq, bit_b2n, checked, checkedOpt, t21_5, t16_5, t13_3, t0_13]

theorem fld (d : FReg) (b : GReg) (m : FMode) (i : BitVec 13) : Statement (.fld d b m i) := by
  have b_m := m.code_lt
  refine scalarCase _ _ rfl rfl rfl (by unfold memWord; omega) (fun hw n hn => ?_)
  have t26_6 : bf n 26 6 = 27 := by subst hn; unfold bf memWord; omega
  have t21_4 : bf n 21 4 = d.toNat := by subst hn; unfold bf memWord; omega
  have t25_1 : bf n 25 1 = 0 := by subst hn; unfold bf memWord; omega
  have t16_5 : bf n 16 5 = b.toNat := by subst hn; unfold bf memWord; omega
  have t13_3 : bf n 13 3 = m.code := by subst hn; unfold bf memWord; omega
  have t0_13 : bf n 0 13 = i.toNat := by subst hn; unfold bf memWord; omega
  rw [major_1b t26_6]
  simp [gAt, cAt, fAt, bit_eq, bit_b2n, checked, checkedOpt, t21_4, t25_1, t16_5, t13_3, t0_13]

theorem fst (d : FReg) (b : GReg) (m : FMode) (i : BitVec 13) : Statement (.fst d b m i) := by
  have b_m := m.code_lt
  refine scalarCase _ _ rfl rfl rfl (by unfold memWord; omega) (fun hw n hn => ?_)
  have t26_6 : bf n 26 6 = 28 := by subst hn; unfold bf memWord; omega
  have t21_4 : bf n 21 4 = d.toNat := by subst hn; unfold bf memWord; omega
  have t25_1 : bf n 25 1 = 0 := by subst hn; unfold bf memWord; omega
  have t16_5 : bf n 16 5 = b.toNat := by subst hn; unfold bf memWord; omega
  have t13_3 : bf n 13 3 = m.code := by subst hn; unfold bf memWord; omega
  have t0_13 : bf n 0 13 = i.toNat := by subst hn; unfold bf memWord; omega
  rw [major_1c t26_6]
  simp [gAt, cAt, fAt, bit_eq, bit_b2n, checked, checkedOpt, t21_4, t25_1, t16_5, t13_3, t0_13]

theorem vld (d : GReg) (a : GReg) (n_ : GReg) (w : LdMode) (m : VMode) : Statement (.vld d a n_ w m) := by
  have b_w := w.code_lt; have b_m := m.code_lt
  have hf : w.code * 4 + m.code < 2048 := by omega
  obtain ⟨e26, e21, e16, e11⟩ := tri_fields 0x1D d.toNat a.toNat n_.toNat (w.code * 4 + m.code) (by omega) (by omega) (by omega) hf
  refine scalarCase _ _ rfl rfl rfl (tri_lt _ _ _ _ _ (by decide) (by omega) (by omega) (by omega) hf) (fun hw n hn => ?_)
  rw [← hn] at e26 e21 e16 e11
  have t0_2 : bf n 0 2 = m.code := by rw [hn, tri_func _ _ _ _ _ _ _ (by decide)]; unfold bf; omega
  have t2_3 : bf n 2 3 = w.code := by rw [hn, tri_func _ _ _ _ _ _ _ (by decide)]; unfold bf; omega
  have t5_6 : bf n 5 6 = 0 := by rw [hn, tri_func _ _ _ _ _ _ _ (by decide)]; unfold bf; omega
  have t0_11 : bf n 0 11 = w.code * 4 + m.code := by rw [hn, tri_func _ _ _ _ _ _ _ (by decide)]; unfold bf; omega
  rw [major_1d e26]
  have hw2 : m = .newest → n_.toNat = 0 := by
    intro h; subst h; have h0 : n_ = 0#5 := by simpa [WellFormed] using hw
    rw [h0]; rfl
  simp [decodeVersion, gAt, cAt, fAt, bit_eq, bit_b2n, checked, checkedOpt, t0_2, t2_3, t5_6, t0_11, e21, e16, e11, hw2]
  exact hw2

theorem vpub (d : GReg) (a : GReg) (n_ : GReg) : Statement (.vpub d a n_) := by
  have hf : 0 < 2048 := by omega
  obtain ⟨e26, e21, e16, e11⟩ := tri_fields 0x1E d.toNat a.toNat n_.toNat 0 (by omega) (by omega) (by omega) hf
  refine scalarCase _ _ rfl rfl rfl (tri_lt _ _ _ _ _ (by decide) (by omega) (by omega) (by omega) hf) (fun hw n hn => ?_)
  rw [← hn] at e26 e21 e16 e11
  have t0_2 : bf n 0 2 = 0 := by rw [hn, tri_func _ _ _ _ _ _ _ (by decide)]; unfold bf; omega
  have t2_3 : bf n 2 3 = 0 := by rw [hn, tri_func _ _ _ _ _ _ _ (by decide)]; unfold bf; omega
  have t5_6 : bf n 5 6 = 0 := by rw [hn, tri_func _ _ _ _ _ _ _ (by decide)]; unfold bf; omega
  have t0_11 : bf n 0 11 = 0 := by rw [hn, tri_func _ _ _ _ _ _ _ (by decide)]; unfold bf; omega
  have t4_7 : bf n 4 7 = 0 := by rw [hn, tri_func _ _ _ _ _ _ _ (by decide)]; unfold bf; omega
  have t0_4 : bf n 0 4 = 0 := by rw [hn, tri_func _ _ _ _ _ _ _ (by decide)]; unfold bf; omega
  rw [major_1e e26]
  simp [decodeVersion, gAt, cAt, fAt, bit_eq, bit_b2n, checked, checkedOpt, t0_2, t2_3, t5_6, t0_11, t4_7, t0_4, e21, e16, e11]

theorem vretire (a : GReg) (n_ : GReg) : Statement (.vretire a n_) := by
  have hf : 0 < 2048 := by omega
  obtain ⟨e26, e21, e16, e11⟩ := tri_fields 0x1F 0 a.toNat n_.toNat 0 (by omega) (by omega) (by omega) hf
  refine scalarCase _ _ rfl rfl rfl (tri_lt _ _ _ _ _ (by decide) (by omega) (by omega) (by omega) hf) (fun hw n hn => ?_)
  rw [← hn] at e26 e21 e16 e11
  have t0_2 : bf n 0 2 = 0 := by rw [hn, tri_func _ _ _ _ _ _ _ (by decide)]; unfold bf; omega
  have t2_3 : bf n 2 3 = 0 := by rw [hn, tri_func _ _ _ _ _ _ _ (by decide)]; unfold bf; omega
  have t5_6 : bf n 5 6 = 0 := by rw [hn, tri_func _ _ _ _ _ _ _ (by decide)]; unfold bf; omega
  have t0_11 : bf n 0 11 = 0 := by rw [hn, tri_func _ _ _ _ _ _ _ (by decide)]; unfold bf; omega
  have t4_7 : bf n 4 7 = 0 := by rw [hn, tri_func _ _ _ _ _ _ _ (by decide)]; unfold bf; omega
  have t0_4 : bf n 0 4 = 0 := by rw [hn, tri_func _ _ _ _ _ _ _ (by decide)]; unfold bf; omega
  rw [major_1f e26]
  simp [decodeVersion, gAt, cAt, fAt, bit_eq, bit_b2n, checked, checkedOpt, t0_2, t2_3, t5_6, t0_11, t4_7, t0_4, e21, e16, e11]

theorem vfloor (d : GReg) (a : GReg) : Statement (.vfloor d a) := by
  have hf : 1 < 2048 := by omega
  obtain ⟨e26, e21, e16, e11⟩ := tri_fields 0x1F d.toNat a.toNat 0 1 (by omega) (by omega) (by omega) hf
  refine scalarCase _ _ rfl rfl rfl (tri_lt _ _ _ _ _ (by decide) (by omega) (by omega) (by omega) hf) (fun hw n hn => ?_)
  rw [← hn] at e26 e21 e16 e11
  have t0_2 : bf n 0 2 = 1 := by rw [hn, tri_func _ _ _ _ _ _ _ (by decide)]; unfold bf; omega
  have t2_3 : bf n 2 3 = 0 := by rw [hn, tri_func _ _ _ _ _ _ _ (by decide)]; unfold bf; omega
  have t5_6 : bf n 5 6 = 0 := by rw [hn, tri_func _ _ _ _ _ _ _ (by decide)]; unfold bf; omega
  have t0_11 : bf n 0 11 = 1 := by rw [hn, tri_func _ _ _ _ _ _ _ (by decide)]; unfold bf; omega
  have t4_7 : bf n 4 7 = 0 := by rw [hn, tri_func _ _ _ _ _ _ _ (by decide)]; unfold bf; omega
  have t0_4 : bf n 0 4 = 1 := by rw [hn, tri_func _ _ _ _ _ _ _ (by decide)]; unfold bf; omega
  rw [major_1f e26]
  simp [decodeVersion, gAt, cAt, fAt, bit_eq, bit_b2n, checked, checkedOpt, t0_2, t2_3, t5_6, t0_11, t4_7, t0_4, e21, e16, e11]

theorem vnewest (d : GReg) (a : GReg) : Statement (.vnewest d a) := by
  have hf : 2 < 2048 := by omega
  obtain ⟨e26, e21, e16, e11⟩ := tri_fields 0x1F d.toNat a.toNat 0 2 (by omega) (by omega) (by omega) hf
  refine scalarCase _ _ rfl rfl rfl (tri_lt _ _ _ _ _ (by decide) (by omega) (by omega) (by omega) hf) (fun hw n hn => ?_)
  rw [← hn] at e26 e21 e16 e11
  have t0_2 : bf n 0 2 = 2 := by rw [hn, tri_func _ _ _ _ _ _ _ (by decide)]; unfold bf; omega
  have t2_3 : bf n 2 3 = 0 := by rw [hn, tri_func _ _ _ _ _ _ _ (by decide)]; unfold bf; omega
  have t5_6 : bf n 5 6 = 0 := by rw [hn, tri_func _ _ _ _ _ _ _ (by decide)]; unfold bf; omega
  have t0_11 : bf n 0 11 = 2 := by rw [hn, tri_func _ _ _ _ _ _ _ (by decide)]; unfold bf; omega
  have t4_7 : bf n 4 7 = 0 := by rw [hn, tri_func _ _ _ _ _ _ _ (by decide)]; unfold bf; omega
  have t0_4 : bf n 0 4 = 2 := by rw [hn, tri_func _ _ _ _ _ _ _ (by decide)]; unfold bf; omega
  rw [major_1f e26]
  simp [decodeVersion, gAt, cAt, fAt, bit_eq, bit_b2n, checked, checkedOpt, t0_2, t2_3, t5_6, t0_11, t4_7, t0_4, e21, e16, e11]

theorem vstamp (d : GReg) (a : GReg) (n_ : GReg) : Statement (.vstamp d a n_) := by
  have hf : 3 < 2048 := by omega
  obtain ⟨e26, e21, e16, e11⟩ := tri_fields 0x1F d.toNat a.toNat n_.toNat 3 (by omega) (by omega) (by omega) hf
  refine scalarCase _ _ rfl rfl rfl (tri_lt _ _ _ _ _ (by decide) (by omega) (by omega) (by omega) hf) (fun hw n hn => ?_)
  rw [← hn] at e26 e21 e16 e11
  have t0_2 : bf n 0 2 = 3 := by rw [hn, tri_func _ _ _ _ _ _ _ (by decide)]; unfold bf; omega
  have t2_3 : bf n 2 3 = 0 := by rw [hn, tri_func _ _ _ _ _ _ _ (by decide)]; unfold bf; omega
  have t5_6 : bf n 5 6 = 0 := by rw [hn, tri_func _ _ _ _ _ _ _ (by decide)]; unfold bf; omega
  have t0_11 : bf n 0 11 = 3 := by rw [hn, tri_func _ _ _ _ _ _ _ (by decide)]; unfold bf; omega
  have t4_7 : bf n 4 7 = 0 := by rw [hn, tri_func _ _ _ _ _ _ _ (by decide)]; unfold bf; omega
  have t0_4 : bf n 0 4 = 3 := by rw [hn, tri_func _ _ _ _ _ _ _ (by decide)]; unfold bf; omega
  rw [major_1f e26]
  simp [decodeVersion, gAt, cAt, fAt, bit_eq, bit_b2n, checked, checkedOpt, t0_2, t2_3, t5_6, t0_11, t4_7, t0_4, e21, e16, e11]

theorem amoadd (d : GReg) (a : GReg) (b : GReg) (w : Bool) (o : AmoOrder) (sc : BitVec 3) : Statement (.amoadd d a b w o sc) := by
  obtain ⟨hf, k1, k2, k3, k4, k5⟩ := amo_func w o sc 0 (by decide)
  have b_o := o.code_lt
  obtain ⟨e26, e21, e16, e11⟩ := tri_fields 0x20 d.toNat a.toNat b.toNat (amoFunc w o sc 0) (by omega) (by omega) (by omega) hf
  refine scalarCase _ _ rfl rfl rfl (tri_lt _ _ _ _ _ (by decide) (by omega) (by omega) (by omega) hf) (fun hw n hn => ?_)
  rw [← hn] at e26 e21 e16 e11
  have t10_1 : bf n 10 1 = b2n w := by rw [hn, tri_func _ _ _ _ _ _ _ (by decide)]; exact k1
  have t8_2 : bf n 8 2 = o.code := by rw [hn, tri_func _ _ _ _ _ _ _ (by decide)]; exact k2
  have t5_3 : bf n 5 3 = sc.toNat := by rw [hn, tri_func _ _ _ _ _ _ _ (by decide)]; exact k3
  have t4_1 : bf n 4 1 = 0 := by rw [hn, tri_func _ _ _ _ _ _ _ (by decide)]; exact k4
  have t0_4 : bf n 0 4 = 0 := by rw [hn, tri_func _ _ _ _ _ _ _ (by decide)]; exact k5
  rw [major_20 e26]
  simp [decodeAtomic, gAt, cAt, fAt, bit_eq, bit_b2n, checked, checkedOpt, t10_1, t8_2, t5_3, t4_1, t0_4, e21, e16, e11]

theorem amoand (d : GReg) (a : GReg) (b : GReg) (w : Bool) (o : AmoOrder) (sc : BitVec 3) : Statement (.amoand d a b w o sc) := by
  obtain ⟨hf, k1, k2, k3, k4, k5⟩ := amo_func w o sc 1 (by decide)
  have b_o := o.code_lt
  obtain ⟨e26, e21, e16, e11⟩ := tri_fields 0x20 d.toNat a.toNat b.toNat (amoFunc w o sc 1) (by omega) (by omega) (by omega) hf
  refine scalarCase _ _ rfl rfl rfl (tri_lt _ _ _ _ _ (by decide) (by omega) (by omega) (by omega) hf) (fun hw n hn => ?_)
  rw [← hn] at e26 e21 e16 e11
  have t10_1 : bf n 10 1 = b2n w := by rw [hn, tri_func _ _ _ _ _ _ _ (by decide)]; exact k1
  have t8_2 : bf n 8 2 = o.code := by rw [hn, tri_func _ _ _ _ _ _ _ (by decide)]; exact k2
  have t5_3 : bf n 5 3 = sc.toNat := by rw [hn, tri_func _ _ _ _ _ _ _ (by decide)]; exact k3
  have t4_1 : bf n 4 1 = 0 := by rw [hn, tri_func _ _ _ _ _ _ _ (by decide)]; exact k4
  have t0_4 : bf n 0 4 = 1 := by rw [hn, tri_func _ _ _ _ _ _ _ (by decide)]; exact k5
  rw [major_20 e26]
  simp [decodeAtomic, gAt, cAt, fAt, bit_eq, bit_b2n, checked, checkedOpt, t10_1, t8_2, t5_3, t4_1, t0_4, e21, e16, e11]

theorem amoor (d : GReg) (a : GReg) (b : GReg) (w : Bool) (o : AmoOrder) (sc : BitVec 3) : Statement (.amoor d a b w o sc) := by
  obtain ⟨hf, k1, k2, k3, k4, k5⟩ := amo_func w o sc 2 (by decide)
  have b_o := o.code_lt
  obtain ⟨e26, e21, e16, e11⟩ := tri_fields 0x20 d.toNat a.toNat b.toNat (amoFunc w o sc 2) (by omega) (by omega) (by omega) hf
  refine scalarCase _ _ rfl rfl rfl (tri_lt _ _ _ _ _ (by decide) (by omega) (by omega) (by omega) hf) (fun hw n hn => ?_)
  rw [← hn] at e26 e21 e16 e11
  have t10_1 : bf n 10 1 = b2n w := by rw [hn, tri_func _ _ _ _ _ _ _ (by decide)]; exact k1
  have t8_2 : bf n 8 2 = o.code := by rw [hn, tri_func _ _ _ _ _ _ _ (by decide)]; exact k2
  have t5_3 : bf n 5 3 = sc.toNat := by rw [hn, tri_func _ _ _ _ _ _ _ (by decide)]; exact k3
  have t4_1 : bf n 4 1 = 0 := by rw [hn, tri_func _ _ _ _ _ _ _ (by decide)]; exact k4
  have t0_4 : bf n 0 4 = 2 := by rw [hn, tri_func _ _ _ _ _ _ _ (by decide)]; exact k5
  rw [major_20 e26]
  simp [decodeAtomic, gAt, cAt, fAt, bit_eq, bit_b2n, checked, checkedOpt, t10_1, t8_2, t5_3, t4_1, t0_4, e21, e16, e11]

theorem amoxor (d : GReg) (a : GReg) (b : GReg) (w : Bool) (o : AmoOrder) (sc : BitVec 3) : Statement (.amoxor d a b w o sc) := by
  obtain ⟨hf, k1, k2, k3, k4, k5⟩ := amo_func w o sc 3 (by decide)
  have b_o := o.code_lt
  obtain ⟨e26, e21, e16, e11⟩ := tri_fields 0x20 d.toNat a.toNat b.toNat (amoFunc w o sc 3) (by omega) (by omega) (by omega) hf
  refine scalarCase _ _ rfl rfl rfl (tri_lt _ _ _ _ _ (by decide) (by omega) (by omega) (by omega) hf) (fun hw n hn => ?_)
  rw [← hn] at e26 e21 e16 e11
  have t10_1 : bf n 10 1 = b2n w := by rw [hn, tri_func _ _ _ _ _ _ _ (by decide)]; exact k1
  have t8_2 : bf n 8 2 = o.code := by rw [hn, tri_func _ _ _ _ _ _ _ (by decide)]; exact k2
  have t5_3 : bf n 5 3 = sc.toNat := by rw [hn, tri_func _ _ _ _ _ _ _ (by decide)]; exact k3
  have t4_1 : bf n 4 1 = 0 := by rw [hn, tri_func _ _ _ _ _ _ _ (by decide)]; exact k4
  have t0_4 : bf n 0 4 = 3 := by rw [hn, tri_func _ _ _ _ _ _ _ (by decide)]; exact k5
  rw [major_20 e26]
  simp [decodeAtomic, gAt, cAt, fAt, bit_eq, bit_b2n, checked, checkedOpt, t10_1, t8_2, t5_3, t4_1, t0_4, e21, e16, e11]

theorem amomin (d : GReg) (a : GReg) (b : GReg) (w : Bool) (o : AmoOrder) (sc : BitVec 3) : Statement (.amomin d a b w o sc) := by
  obtain ⟨hf, k1, k2, k3, k4, k5⟩ := amo_func w o sc 4 (by decide)
  have b_o := o.code_lt
  obtain ⟨e26, e21, e16, e11⟩ := tri_fields 0x20 d.toNat a.toNat b.toNat (amoFunc w o sc 4) (by omega) (by omega) (by omega) hf
  refine scalarCase _ _ rfl rfl rfl (tri_lt _ _ _ _ _ (by decide) (by omega) (by omega) (by omega) hf) (fun hw n hn => ?_)
  rw [← hn] at e26 e21 e16 e11
  have t10_1 : bf n 10 1 = b2n w := by rw [hn, tri_func _ _ _ _ _ _ _ (by decide)]; exact k1
  have t8_2 : bf n 8 2 = o.code := by rw [hn, tri_func _ _ _ _ _ _ _ (by decide)]; exact k2
  have t5_3 : bf n 5 3 = sc.toNat := by rw [hn, tri_func _ _ _ _ _ _ _ (by decide)]; exact k3
  have t4_1 : bf n 4 1 = 0 := by rw [hn, tri_func _ _ _ _ _ _ _ (by decide)]; exact k4
  have t0_4 : bf n 0 4 = 4 := by rw [hn, tri_func _ _ _ _ _ _ _ (by decide)]; exact k5
  rw [major_20 e26]
  simp [decodeAtomic, gAt, cAt, fAt, bit_eq, bit_b2n, checked, checkedOpt, t10_1, t8_2, t5_3, t4_1, t0_4, e21, e16, e11]

theorem amomax (d : GReg) (a : GReg) (b : GReg) (w : Bool) (o : AmoOrder) (sc : BitVec 3) : Statement (.amomax d a b w o sc) := by
  obtain ⟨hf, k1, k2, k3, k4, k5⟩ := amo_func w o sc 5 (by decide)
  have b_o := o.code_lt
  obtain ⟨e26, e21, e16, e11⟩ := tri_fields 0x20 d.toNat a.toNat b.toNat (amoFunc w o sc 5) (by omega) (by omega) (by omega) hf
  refine scalarCase _ _ rfl rfl rfl (tri_lt _ _ _ _ _ (by decide) (by omega) (by omega) (by omega) hf) (fun hw n hn => ?_)
  rw [← hn] at e26 e21 e16 e11
  have t10_1 : bf n 10 1 = b2n w := by rw [hn, tri_func _ _ _ _ _ _ _ (by decide)]; exact k1
  have t8_2 : bf n 8 2 = o.code := by rw [hn, tri_func _ _ _ _ _ _ _ (by decide)]; exact k2
  have t5_3 : bf n 5 3 = sc.toNat := by rw [hn, tri_func _ _ _ _ _ _ _ (by decide)]; exact k3
  have t4_1 : bf n 4 1 = 0 := by rw [hn, tri_func _ _ _ _ _ _ _ (by decide)]; exact k4
  have t0_4 : bf n 0 4 = 5 := by rw [hn, tri_func _ _ _ _ _ _ _ (by decide)]; exact k5
  rw [major_20 e26]
  simp [decodeAtomic, gAt, cAt, fAt, bit_eq, bit_b2n, checked, checkedOpt, t10_1, t8_2, t5_3, t4_1, t0_4, e21, e16, e11]

theorem amominu (d : GReg) (a : GReg) (b : GReg) (w : Bool) (o : AmoOrder) (sc : BitVec 3) : Statement (.amominu d a b w o sc) := by
  obtain ⟨hf, k1, k2, k3, k4, k5⟩ := amo_func w o sc 6 (by decide)
  have b_o := o.code_lt
  obtain ⟨e26, e21, e16, e11⟩ := tri_fields 0x20 d.toNat a.toNat b.toNat (amoFunc w o sc 6) (by omega) (by omega) (by omega) hf
  refine scalarCase _ _ rfl rfl rfl (tri_lt _ _ _ _ _ (by decide) (by omega) (by omega) (by omega) hf) (fun hw n hn => ?_)
  rw [← hn] at e26 e21 e16 e11
  have t10_1 : bf n 10 1 = b2n w := by rw [hn, tri_func _ _ _ _ _ _ _ (by decide)]; exact k1
  have t8_2 : bf n 8 2 = o.code := by rw [hn, tri_func _ _ _ _ _ _ _ (by decide)]; exact k2
  have t5_3 : bf n 5 3 = sc.toNat := by rw [hn, tri_func _ _ _ _ _ _ _ (by decide)]; exact k3
  have t4_1 : bf n 4 1 = 0 := by rw [hn, tri_func _ _ _ _ _ _ _ (by decide)]; exact k4
  have t0_4 : bf n 0 4 = 6 := by rw [hn, tri_func _ _ _ _ _ _ _ (by decide)]; exact k5
  rw [major_20 e26]
  simp [decodeAtomic, gAt, cAt, fAt, bit_eq, bit_b2n, checked, checkedOpt, t10_1, t8_2, t5_3, t4_1, t0_4, e21, e16, e11]

theorem amomaxu (d : GReg) (a : GReg) (b : GReg) (w : Bool) (o : AmoOrder) (sc : BitVec 3) : Statement (.amomaxu d a b w o sc) := by
  obtain ⟨hf, k1, k2, k3, k4, k5⟩ := amo_func w o sc 7 (by decide)
  have b_o := o.code_lt
  obtain ⟨e26, e21, e16, e11⟩ := tri_fields 0x20 d.toNat a.toNat b.toNat (amoFunc w o sc 7) (by omega) (by omega) (by omega) hf
  refine scalarCase _ _ rfl rfl rfl (tri_lt _ _ _ _ _ (by decide) (by omega) (by omega) (by omega) hf) (fun hw n hn => ?_)
  rw [← hn] at e26 e21 e16 e11
  have t10_1 : bf n 10 1 = b2n w := by rw [hn, tri_func _ _ _ _ _ _ _ (by decide)]; exact k1
  have t8_2 : bf n 8 2 = o.code := by rw [hn, tri_func _ _ _ _ _ _ _ (by decide)]; exact k2
  have t5_3 : bf n 5 3 = sc.toNat := by rw [hn, tri_func _ _ _ _ _ _ _ (by decide)]; exact k3
  have t4_1 : bf n 4 1 = 0 := by rw [hn, tri_func _ _ _ _ _ _ _ (by decide)]; exact k4
  have t0_4 : bf n 0 4 = 7 := by rw [hn, tri_func _ _ _ _ _ _ _ (by decide)]; exact k5
  rw [major_20 e26]
  simp [decodeAtomic, gAt, cAt, fAt, bit_eq, bit_b2n, checked, checkedOpt, t10_1, t8_2, t5_3, t4_1, t0_4, e21, e16, e11]

theorem amoswap (d : GReg) (a : GReg) (b : GReg) (w : Bool) (o : AmoOrder) (sc : BitVec 3) : Statement (.amoswap d a b w o sc) := by
  obtain ⟨hf, k1, k2, k3, k4, k5⟩ := amo_func w o sc 8 (by decide)
  have b_o := o.code_lt
  obtain ⟨e26, e21, e16, e11⟩ := tri_fields 0x20 d.toNat a.toNat b.toNat (amoFunc w o sc 8) (by omega) (by omega) (by omega) hf
  refine scalarCase _ _ rfl rfl rfl (tri_lt _ _ _ _ _ (by decide) (by omega) (by omega) (by omega) hf) (fun hw n hn => ?_)
  rw [← hn] at e26 e21 e16 e11
  have t10_1 : bf n 10 1 = b2n w := by rw [hn, tri_func _ _ _ _ _ _ _ (by decide)]; exact k1
  have t8_2 : bf n 8 2 = o.code := by rw [hn, tri_func _ _ _ _ _ _ _ (by decide)]; exact k2
  have t5_3 : bf n 5 3 = sc.toNat := by rw [hn, tri_func _ _ _ _ _ _ _ (by decide)]; exact k3
  have t4_1 : bf n 4 1 = 0 := by rw [hn, tri_func _ _ _ _ _ _ _ (by decide)]; exact k4
  have t0_4 : bf n 0 4 = 8 := by rw [hn, tri_func _ _ _ _ _ _ _ (by decide)]; exact k5
  rw [major_20 e26]
  simp [decodeAtomic, gAt, cAt, fAt, bit_eq, bit_b2n, checked, checkedOpt, t10_1, t8_2, t5_3, t4_1, t0_4, e21, e16, e11]

theorem amocas (d : GReg) (a : GReg) (b : GReg) (w : Bool) (o : AmoOrder) (sc : BitVec 3) : Statement (.amocas d a b w o sc) := by
  obtain ⟨hf, k1, k2, k3, k4, k5⟩ := amo_func w o sc 9 (by decide)
  have b_o := o.code_lt
  obtain ⟨e26, e21, e16, e11⟩ := tri_fields 0x20 d.toNat a.toNat b.toNat (amoFunc w o sc 9) (by omega) (by omega) (by omega) hf
  refine scalarCase _ _ rfl rfl rfl (tri_lt _ _ _ _ _ (by decide) (by omega) (by omega) (by omega) hf) (fun hw n hn => ?_)
  rw [← hn] at e26 e21 e16 e11
  have t10_1 : bf n 10 1 = b2n w := by rw [hn, tri_func _ _ _ _ _ _ _ (by decide)]; exact k1
  have t8_2 : bf n 8 2 = o.code := by rw [hn, tri_func _ _ _ _ _ _ _ (by decide)]; exact k2
  have t5_3 : bf n 5 3 = sc.toNat := by rw [hn, tri_func _ _ _ _ _ _ _ (by decide)]; exact k3
  have t4_1 : bf n 4 1 = 0 := by rw [hn, tri_func _ _ _ _ _ _ _ (by decide)]; exact k4
  have t0_4 : bf n 0 4 = 9 := by rw [hn, tri_func _ _ _ _ _ _ _ (by decide)]; exact k5
  rw [major_20 e26]
  simp [decodeAtomic, gAt, cAt, fAt, bit_eq, bit_b2n, checked, checkedOpt, t10_1, t8_2, t5_3, t4_1, t0_4, e21, e16, e11]

theorem redf (d : GReg) (a : GReg) (b : FReg) (f32 : Bool) : Statement (.redf d a b w) := by
  have b_w := b2n_lt w
  have hf : b2n w * 2 ^ 10 < 2048 := by omega
  obtain ⟨e26, e21, e16, e11⟩ := tri_fields 0x21 d.toNat a.toNat b.toNat (b2n w * 2 ^ 10) (by omega) (by omega) (by omega) hf
  refine scalarCase _ _ rfl rfl rfl (tri_lt _ _ _ _ _ (by decide) (by omega) (by omega) (by omega) hf) (fun hw n hn => ?_)
  rw [← hn] at e26 e21 e16 e11
  have t10_1 : bf n 10 1 = b2n w := by rw [hn, tri_func _ _ _ _ _ _ _ (by decide)]; unfold bf; omega
  have t8_2 : bf n 8 2 = 0 := by rw [hn, tri_func _ _ _ _ _ _ _ (by decide)]; unfold bf; omega
  have t5_3 : bf n 5 3 = 0 := by rw [hn, tri_func _ _ _ _ _ _ _ (by decide)]; unfold bf; omega
  have t4_1 : bf n 4 1 = 0 := by rw [hn, tri_func _ _ _ _ _ _ _ (by decide)]; unfold bf; omega
  have t0_4 : bf n 0 4 = 0 := by rw [hn, tri_func _ _ _ _ _ _ _ (by decide)]; unfold bf; omega
  have t4_6 : bf n 4 6 = 0 := by rw [hn, tri_func _ _ _ _ _ _ _ (by decide)]; unfold bf; omega
  have ⟨n11_4, z11_4⟩ := bf_narrow (len := 4) e11 (by decide) (by omega)
  rw [major_21 e26]
  simp [decodeAtomic, gAt, cAt, fAt, bit_eq, bit_b2n, checked, checkedOpt, t10_1, t8_2, t5_3, t4_1, t0_4, t4_6, n11_4, z11_4, e21, e16, e11]

theorem redinit (a : GReg) (b : GReg) (f32 : Bool) : Statement (.redinit a b w) := by
  have b_w := b2n_lt w
  have hf : b2n w * 2 ^ 10 + 1 < 2048 := by omega
  obtain ⟨e26, e21, e16, e11⟩ := tri_fields 0x21 0 a.toNat b.toNat (b2n w * 2 ^ 10 + 1) (by omega) (by omega) (by omega) hf
  refine scalarCase _ _ rfl rfl rfl (tri_lt _ _ _ _ _ (by decide) (by omega) (by omega) (by omega) hf) (fun hw n hn => ?_)
  rw [← hn] at e26 e21 e16 e11
  have t10_1 : bf n 10 1 = b2n w := by rw [hn, tri_func _ _ _ _ _ _ _ (by decide)]; unfold bf; omega
  have t8_2 : bf n 8 2 = 0 := by rw [hn, tri_func _ _ _ _ _ _ _ (by decide)]; unfold bf; omega
  have t5_3 : bf n 5 3 = 0 := by rw [hn, tri_func _ _ _ _ _ _ _ (by decide)]; unfold bf; omega
  have t4_1 : bf n 4 1 = 0 := by rw [hn, tri_func _ _ _ _ _ _ _ (by decide)]; unfold bf; omega
  have t0_4 : bf n 0 4 = 1 := by rw [hn, tri_func _ _ _ _ _ _ _ (by decide)]; unfold bf; omega
  have t4_6 : bf n 4 6 = 0 := by rw [hn, tri_func _ _ _ _ _ _ _ (by decide)]; unfold bf; omega
  rw [major_21 e26]
  simp [decodeAtomic, gAt, cAt, fAt, bit_eq, bit_b2n, checked, checkedOpt, t10_1, t8_2, t5_3, t4_1, t0_4, t4_6, e21, e16, e11]

theorem phase (sc : BitVec 3) : Statement (.phase sc) := by
  have hf : sc.toNat * 2 ^ 8 < 2048 := by omega
  obtain ⟨e26, e21, e16, e11⟩ := tri_fields 0x24 0 0 0 (sc.toNat * 2 ^ 8) (by omega) (by omega) (by omega) hf
  refine scalarCase _ _ rfl rfl rfl (tri_lt _ _ _ _ _ (by decide) (by omega) (by omega) (by omega) hf) (fun hw n hn => ?_)
  rw [← hn] at e26 e21 e16 e11
  have t4_4 : bf n 4 4 = 0 := by rw [hn, tri_func _ _ _ _ _ _ _ (by decide)]; unfold bf; omega
  have t8_3 : bf n 8 3 = sc.toNat := by rw [hn, tri_func _ _ _ _ _ _ _ (by decide)]; unfold bf; omega
  have t0_4 : bf n 0 4 = 0 := by rw [hn, tri_func _ _ _ _ _ _ _ (by decide)]; unfold bf; omega
  have ⟨n21_3, z21_3⟩ := bf_narrow (len := 3) e21 (by decide) (by first | decide | omega)
  rw [major_24 e26]
  have hw2 : 2 ≤ sc.toNat := by simpa [WellFormed, phaseScope] using hw
  simp [decodeSync, gAt, cAt, fAt, bit_eq, bit_b2n, checked, checkedOpt, t4_4, t8_3, t0_4, n21_3, z21_3, e21, e16, e11, hw2]

theorem pwait (c : CReg) (a : GReg) (sc : BitVec 3) : Statement (.pwait c a sc) := by
  have hf : sc.toNat * 2 ^ 8 + 1 < 2048 := by omega
  obtain ⟨e26, e21, e16, e11⟩ := tri_fields 0x24 c.toNat a.toNat 0 (sc.toNat * 2 ^ 8 + 1) (by omega) (by omega) (by omega) hf
  refine scalarCase _ _ rfl rfl rfl (tri_lt _ _ _ _ _ (by decide) (by omega) (by omega) (by omega) hf) (fun hw n hn => ?_)
  rw [← hn] at e26 e21 e16 e11
  have t4_4 : bf n 4 4 = 0 := by rw [hn, tri_func _ _ _ _ _ _ _ (by decide)]; unfold bf; omega
  have t8_3 : bf n 8 3 = sc.toNat := by rw [hn, tri_func _ _ _ _ _ _ _ (by decide)]; unfold bf; omega
  have t0_4 : bf n 0 4 = 1 := by rw [hn, tri_func _ _ _ _ _ _ _ (by decide)]; unfold bf; omega
  have ⟨n21_3, z21_3⟩ := bf_narrow (len := 3) e21 (by decide) (by omega)
  rw [major_24 e26]
  have hw2 : 2 ≤ sc.toNat := by simpa [WellFormed, phaseScope] using hw
  simp [decodeSync, gAt, cAt, fAt, bit_eq, bit_b2n, checked, checkedOpt, t4_4, t8_3, t0_4, n21_3, z21_3, e21, e16, e11, hw2]

theorem pnum (d : GReg) (sc : BitVec 3) : Statement (.pnum d sc) := by
  have hf : sc.toNat * 2 ^ 8 + 2 < 2048 := by omega
  obtain ⟨e26, e21, e16, e11⟩ := tri_fields 0x24 d.toNat 0 0 (sc.toNat * 2 ^ 8 + 2) (by omega) (by omega) (by omega) hf
  refine scalarCase _ _ rfl rfl rfl (tri_lt _ _ _ _ _ (by decide) (by omega) (by omega) (by omega) hf) (fun hw n hn => ?_)
  rw [← hn] at e26 e21 e16 e11
  have t4_4 : bf n 4 4 = 0 := by rw [hn, tri_func _ _ _ _ _ _ _ (by decide)]; unfold bf; omega
  have t8_3 : bf n 8 3 = sc.toNat := by rw [hn, tri_func _ _ _ _ _ _ _ (by decide)]; unfold bf; omega
  have t0_4 : bf n 0 4 = 2 := by rw [hn, tri_func _ _ _ _ _ _ _ (by decide)]; unfold bf; omega
  rw [major_24 e26]
  have hw2 : 2 ≤ sc.toNat := by simpa [WellFormed, phaseScope] using hw
  simp [decodeSync, gAt, cAt, fAt, bit_eq, bit_b2n, checked, checkedOpt, t4_4, t8_3, t0_4, e21, e16, e11, hw2]

theorem barm (d : GReg) (a : GReg) (b : GReg) : Statement (.barm d a b) := by
  have hf : 3 < 2048 := by omega
  obtain ⟨e26, e21, e16, e11⟩ := tri_fields 0x24 d.toNat a.toNat b.toNat 3 (by omega) (by omega) (by omega) hf
  refine scalarCase _ _ rfl rfl rfl (tri_lt _ _ _ _ _ (by decide) (by omega) (by omega) (by omega) hf) (fun hw n hn => ?_)
  rw [← hn] at e26 e21 e16 e11
  have t4_4 : bf n 4 4 = 0 := by rw [hn, tri_func _ _ _ _ _ _ _ (by decide)]; unfold bf; omega
  have t8_3 : bf n 8 3 = 0 := by rw [hn, tri_func _ _ _ _ _ _ _ (by decide)]; unfold bf; omega
  have t0_4 : bf n 0 4 = 3 := by rw [hn, tri_func _ _ _ _ _ _ _ (by decide)]; unfold bf; omega
  rw [major_24 e26]
  simp [decodeSync, gAt, cAt, fAt, bit_eq, bit_b2n, checked, checkedOpt, t4_4, t8_3, t0_4, e21, e16, e11]

theorem barr (a : GReg) (b : GReg) : Statement (.barr a b) := by
  have hf : 4 < 2048 := by omega
  obtain ⟨e26, e21, e16, e11⟩ := tri_fields 0x24 0 a.toNat b.toNat 4 (by omega) (by omega) (by omega) hf
  refine scalarCase _ _ rfl rfl rfl (tri_lt _ _ _ _ _ (by decide) (by omega) (by omega) (by omega) hf) (fun hw n hn => ?_)
  rw [← hn] at e26 e21 e16 e11
  have t4_4 : bf n 4 4 = 0 := by rw [hn, tri_func _ _ _ _ _ _ _ (by decide)]; unfold bf; omega
  have t8_3 : bf n 8 3 = 0 := by rw [hn, tri_func _ _ _ _ _ _ _ (by decide)]; unfold bf; omega
  have t0_4 : bf n 0 4 = 4 := by rw [hn, tri_func _ _ _ _ _ _ _ (by decide)]; unfold bf; omega
  have ⟨n21_3, z21_3⟩ := bf_narrow (len := 3) e21 (by decide) (by first | decide | omega)
  rw [major_24 e26]
  simp [decodeSync, gAt, cAt, fAt, bit_eq, bit_b2n, checked, checkedOpt, t4_4, t8_3, t0_4, n21_3, z21_3, e21, e16, e11]

theorem barw (c : CReg) (a : GReg) (b : GReg) : Statement (.barw c a b) := by
  have hf : 5 < 2048 := by omega
  obtain ⟨e26, e21, e16, e11⟩ := tri_fields 0x24 c.toNat a.toNat b.toNat 5 (by omega) (by omega) (by omega) hf
  refine scalarCase _ _ rfl rfl rfl (tri_lt _ _ _ _ _ (by decide) (by omega) (by omega) (by omega) hf) (fun hw n hn => ?_)
  rw [← hn] at e26 e21 e16 e11
  have t4_4 : bf n 4 4 = 0 := by rw [hn, tri_func _ _ _ _ _ _ _ (by decide)]; unfold bf; omega
  have t8_3 : bf n 8 3 = 0 := by rw [hn, tri_func _ _ _ _ _ _ _ (by decide)]; unfold bf; omega
  have t0_4 : bf n 0 4 = 5 := by rw [hn, tri_func _ _ _ _ _ _ _ (by decide)]; unfold bf; omega
  have ⟨n21_3, z21_3⟩ := bf_narrow (len := 3) e21 (by decide) (by omega)
  rw [major_24 e26]
  simp [decodeSync, gAt, cAt, fAt, bit_eq, bit_b2n, checked, checkedOpt, t4_4, t8_3, t0_4, n21_3, z21_3, e21, e16, e11]

theorem tlwait (a : GReg) (b : GReg) : Statement (.tlwait a b) := by
  have hf : 6 < 2048 := by omega
  obtain ⟨e26, e21, e16, e11⟩ := tri_fields 0x24 0 a.toNat b.toNat 6 (by omega) (by omega) (by omega) hf
  refine scalarCase _ _ rfl rfl rfl (tri_lt _ _ _ _ _ (by decide) (by omega) (by omega) (by omega) hf) (fun hw n hn => ?_)
  rw [← hn] at e26 e21 e16 e11
  have t4_4 : bf n 4 4 = 0 := by rw [hn, tri_func _ _ _ _ _ _ _ (by decide)]; unfold bf; omega
  have t8_3 : bf n 8 3 = 0 := by rw [hn, tri_func _ _ _ _ _ _ _ (by decide)]; unfold bf; omega
  have t0_4 : bf n 0 4 = 6 := by rw [hn, tri_func _ _ _ _ _ _ _ (by decide)]; unfold bf; omega
  have ⟨n21_3, z21_3⟩ := bf_narrow (len := 3) e21 (by decide) (by first | decide | omega)
  rw [major_24 e26]
  simp [decodeSync, gAt, cAt, fAt, bit_eq, bit_b2n, checked, checkedOpt, t4_4, t8_3, t0_4, n21_3, z21_3, e21, e16, e11]

theorem tlread (d : GReg) (a : GReg) : Statement (.tlread d a) := by
  have hf : 7 < 2048 := by omega
  obtain ⟨e26, e21, e16, e11⟩ := tri_fields 0x24 d.toNat a.toNat 0 7 (by omega) (by omega) (by omega) hf
  refine scalarCase _ _ rfl rfl rfl (tri_lt _ _ _ _ _ (by decide) (by omega) (by omega) (by omega) hf) (fun hw n hn => ?_)
  rw [← hn] at e26 e21 e16 e11
  have t4_4 : bf n 4 4 = 0 := by rw [hn, tri_func _ _ _ _ _ _ _ (by decide)]; unfold bf; omega
  have t8_3 : bf n 8 3 = 0 := by rw [hn, tri_func _ _ _ _ _ _ _ (by decide)]; unfold bf; omega
  have t0_4 : bf n 0 4 = 7 := by rw [hn, tri_func _ _ _ _ _ _ _ (by decide)]; unfold bf; omega
  rw [major_24 e26]
  simp [decodeSync, gAt, cAt, fAt, bit_eq, bit_b2n, checked, checkedOpt, t4_4, t8_3, t0_4, e21, e16, e11]

theorem stime (d : GReg) : Statement (.stime d) := by
  have hf : 8 < 2048 := by omega
  obtain ⟨e26, e21, e16, e11⟩ := tri_fields 0x24 d.toNat 0 0 8 (by omega) (by omega) (by omega) hf
  refine scalarCase _ _ rfl rfl rfl (tri_lt _ _ _ _ _ (by decide) (by omega) (by omega) (by omega) hf) (fun hw n hn => ?_)
  rw [← hn] at e26 e21 e16 e11
  have t4_4 : bf n 4 4 = 0 := by rw [hn, tri_func _ _ _ _ _ _ _ (by decide)]; unfold bf; omega
  have t8_3 : bf n 8 3 = 0 := by rw [hn, tri_func _ _ _ _ _ _ _ (by decide)]; unfold bf; omega
  have t0_4 : bf n 0 4 = 8 := by rw [hn, tri_func _ _ _ _ _ _ _ (by decide)]; unfold bf; omega
  rw [major_24 e26]
  simp [decodeSync, gAt, cAt, fAt, bit_eq, bit_b2n, checked, checkedOpt, t4_4, t8_3, t0_4, e21, e16, e11]

theorem twait (a : GReg) : Statement (.twait a) := by
  have hf : 9 < 2048 := by omega
  obtain ⟨e26, e21, e16, e11⟩ := tri_fields 0x24 0 a.toNat 0 9 (by omega) (by omega) (by omega) hf
  refine scalarCase _ _ rfl rfl rfl (tri_lt _ _ _ _ _ (by decide) (by omega) (by omega) (by omega) hf) (fun hw n hn => ?_)
  rw [← hn] at e26 e21 e16 e11
  have t4_4 : bf n 4 4 = 0 := by rw [hn, tri_func _ _ _ _ _ _ _ (by decide)]; unfold bf; omega
  have t8_3 : bf n 8 3 = 0 := by rw [hn, tri_func _ _ _ _ _ _ _ (by decide)]; unfold bf; omega
  have t0_4 : bf n 0 4 = 9 := by rw [hn, tri_func _ _ _ _ _ _ _ (by decide)]; unfold bf; omega
  have ⟨n21_3, z21_3⟩ := bf_narrow (len := 3) e21 (by decide) (by first | decide | omega)
  rw [major_24 e26]
  simp [decodeSync, gAt, cAt, fAt, bit_eq, bit_b2n, checked, checkedOpt, t4_4, t8_3, t0_4, n21_3, z21_3, e21, e16, e11]

theorem tdec (a : GReg) : Statement (.tdec a) := by
  have hf : 0 < 2048 := by omega
  obtain ⟨e26, e21, e16, e11⟩ := tri_fields 0x28 0 a.toNat 0 0 (by omega) (by omega) (by omega) hf
  refine scalarCase _ _ rfl rfl rfl (tri_lt _ _ _ _ _ (by decide) (by omega) (by omega) (by omega) hf) (fun hw n hn => ?_)
  rw [← hn] at e26 e21 e16 e11
  have t4_7 : bf n 4 7 = 0 := by rw [hn, tri_func _ _ _ _ _ _ _ (by decide)]; unfold bf; omega
  have t4_4 : bf n 4 4 = 0 := by rw [hn, tri_func _ _ _ _ _ _ _ (by decide)]; unfold bf; omega
  have t0_4 : bf n 0 4 = 0 := by rw [hn, tri_func _ _ _ _ _ _ _ (by decide)]; unfold bf; omega
  have t8_3 : bf n 8 3 = 0 := by rw [hn, tri_func _ _ _ _ _ _ _ (by decide)]; unfold bf; omega
  have t5_3 : bf n 5 3 = 0 := by rw [hn, tri_func _ _ _ _ _ _ _ (by decide)]; unfold bf; omega
  have t4_1 : bf n 4 1 = 0 := by rw [hn, tri_func _ _ _ _ _ _ _ (by decide)]; unfold bf; omega
  rw [major_28 e26]
  simp [decodeTask, gAt, cAt, fAt, bit_eq, bit_b2n, checked, checkedOpt, t4_7, t4_4, t0_4, t8_3, t5_3, t4_1, e21, e16, e11]

theorem tspawn (a : GReg) : Statement (.tspawn a) := by
  have hf : 1 < 2048 := by omega
  obtain ⟨e26, e21, e16, e11⟩ := tri_fields 0x28 0 a.toNat 0 1 (by omega) (by omega) (by omega) hf
  refine scalarCase _ _ rfl rfl rfl (tri_lt _ _ _ _ _ (by decide) (by omega) (by omega) (by omega) hf) (fun hw n hn => ?_)
  rw [← hn] at e26 e21 e16 e11
  have t4_7 : bf n 4 7 = 0 := by rw [hn, tri_func _ _ _ _ _ _ _ (by decide)]; unfold bf; omega
  have t4_4 : bf n 4 4 = 0 := by rw [hn, tri_func _ _ _ _ _ _ _ (by decide)]; unfold bf; omega
  have t0_4 : bf n 0 4 = 1 := by rw [hn, tri_func _ _ _ _ _ _ _ (by decide)]; unfold bf; omega
  have t8_3 : bf n 8 3 = 0 := by rw [hn, tri_func _ _ _ _ _ _ _ (by decide)]; unfold bf; omega
  have t5_3 : bf n 5 3 = 0 := by rw [hn, tri_func _ _ _ _ _ _ _ (by decide)]; unfold bf; omega
  have t4_1 : bf n 4 1 = 0 := by rw [hn, tri_func _ _ _ _ _ _ _ (by decide)]; unfold bf; omega
  rw [major_28 e26]
  simp [decodeTask, gAt, cAt, fAt, bit_eq, bit_b2n, checked, checkedOpt, t4_7, t4_4, t0_4, t8_3, t5_3, t4_1, e21, e16, e11]

theorem tset (a : GReg) (b : GReg) : Statement (.tset a b) := by
  have hf : 2 < 2048 := by omega
  obtain ⟨e26, e21, e16, e11⟩ := tri_fields 0x28 0 a.toNat b.toNat 2 (by omega) (by omega) (by omega) hf
  refine scalarCase _ _ rfl rfl rfl (tri_lt _ _ _ _ _ (by decide) (by omega) (by omega) (by omega) hf) (fun hw n hn => ?_)
  rw [← hn] at e26 e21 e16 e11
  have t4_7 : bf n 4 7 = 0 := by rw [hn, tri_func _ _ _ _ _ _ _ (by decide)]; unfold bf; omega
  have t4_4 : bf n 4 4 = 0 := by rw [hn, tri_func _ _ _ _ _ _ _ (by decide)]; unfold bf; omega
  have t0_4 : bf n 0 4 = 2 := by rw [hn, tri_func _ _ _ _ _ _ _ (by decide)]; unfold bf; omega
  have t8_3 : bf n 8 3 = 0 := by rw [hn, tri_func _ _ _ _ _ _ _ (by decide)]; unfold bf; omega
  have t5_3 : bf n 5 3 = 0 := by rw [hn, tri_func _ _ _ _ _ _ _ (by decide)]; unfold bf; omega
  have t4_1 : bf n 4 1 = 0 := by rw [hn, tri_func _ _ _ _ _ _ _ (by decide)]; unfold bf; omega
  rw [major_28 e26]
  simp [decodeTask, gAt, cAt, fAt, bit_eq, bit_b2n, checked, checkedOpt, t4_7, t4_4, t0_4, t8_3, t5_3, t4_1, e21, e16, e11]

theorem tdeadline (a : GReg) (b : GReg) : Statement (.tdeadline a b) := by
  have hf : 3 < 2048 := by omega
  obtain ⟨e26, e21, e16, e11⟩ := tri_fields 0x28 0 a.toNat b.toNat 3 (by omega) (by omega) (by omega) hf
  refine scalarCase _ _ rfl rfl rfl (tri_lt _ _ _ _ _ (by decide) (by omega) (by omega) (by omega) hf) (fun hw n hn => ?_)
  rw [← hn] at e26 e21 e16 e11
  have t4_7 : bf n 4 7 = 0 := by rw [hn, tri_func _ _ _ _ _ _ _ (by decide)]; unfold bf; omega
  have t4_4 : bf n 4 4 = 0 := by rw [hn, tri_func _ _ _ _ _ _ _ (by decide)]; unfold bf; omega
  have t0_4 : bf n 0 4 = 3 := by rw [hn, tri_func _ _ _ _ _ _ _ (by decide)]; unfold bf; omega
  have t8_3 : bf n 8 3 = 0 := by rw [hn, tri_func _ _ _ _ _ _ _ (by decide)]; unfold bf; omega
  have t5_3 : bf n 5 3 = 0 := by rw [hn, tri_func _ _ _ _ _ _ _ (by decide)]; unfold bf; omega
  have t4_1 : bf n 4 1 = 0 := by rw [hn, tri_func _ _ _ _ _ _ _ (by decide)]; unfold bf; omega
  rw [major_28 e26]
  simp [decodeTask, gAt, cAt, fAt, bit_eq, bit_b2n, checked, checkedOpt, t4_7, t4_4, t0_4, t8_3, t5_3, t4_1, e21, e16, e11]

theorem tcancelTask (a : GReg) : Statement (.tcancelTask a) := by
  have hf : 4 < 2048 := by omega
  obtain ⟨e26, e21, e16, e11⟩ := tri_fields 0x28 0 a.toNat 0 4 (by omega) (by omega) (by omega) hf
  refine scalarCase _ _ rfl rfl rfl (tri_lt _ _ _ _ _ (by decide) (by omega) (by omega) (by omega) hf) (fun hw n hn => ?_)
  rw [← hn] at e26 e21 e16 e11
  have t4_7 : bf n 4 7 = 0 := by rw [hn, tri_func _ _ _ _ _ _ _ (by decide)]; unfold bf; omega
  have t4_4 : bf n 4 4 = 0 := by rw [hn, tri_func _ _ _ _ _ _ _ (by decide)]; unfold bf; omega
  have t0_4 : bf n 0 4 = 4 := by rw [hn, tri_func _ _ _ _ _ _ _ (by decide)]; unfold bf; omega
  have t8_3 : bf n 8 3 = 0 := by rw [hn, tri_func _ _ _ _ _ _ _ (by decide)]; unfold bf; omega
  have t5_3 : bf n 5 3 = 0 := by rw [hn, tri_func _ _ _ _ _ _ _ (by decide)]; unfold bf; omega
  have t4_1 : bf n 4 1 = 0 := by rw [hn, tri_func _ _ _ _ _ _ _ (by decide)]; unfold bf; omega
  rw [major_28 e26]
  simp [decodeTask, gAt, cAt, fAt, bit_eq, bit_b2n, checked, checkedOpt, t4_7, t4_4, t0_4, t8_3, t5_3, t4_1, e21, e16, e11]

theorem tcancelLaunch (a : GReg) : Statement (.tcancelLaunch a) := by
  have hf : 1 * 2 ^ 8 + 4 < 2048 := by omega
  obtain ⟨e26, e21, e16, e11⟩ := tri_fields 0x28 0 a.toNat 0 (1 * 2 ^ 8 + 4) (by omega) (by omega) (by omega) hf
  refine scalarCase _ _ rfl rfl rfl (tri_lt _ _ _ _ _ (by decide) (by omega) (by omega) (by omega) hf) (fun hw n hn => ?_)
  rw [← hn] at e26 e21 e16 e11
  have t4_7 : bf n 4 7 = 16 := by rw [hn, tri_func _ _ _ _ _ _ _ (by decide)]; unfold bf; omega
  have t4_4 : bf n 4 4 = 0 := by rw [hn, tri_func _ _ _ _ _ _ _ (by decide)]; unfold bf; omega
  have t0_4 : bf n 0 4 = 4 := by rw [hn, tri_func _ _ _ _ _ _ _ (by decide)]; unfold bf; omega
  have t8_3 : bf n 8 3 = 1 := by rw [hn, tri_func _ _ _ _ _ _ _ (by decide)]; unfold bf; omega
  have t5_3 : bf n 5 3 = 0 := by rw [hn, tri_func _ _ _ _ _ _ _ (by decide)]; unfold bf; omega
  have t4_1 : bf n 4 1 = 0 := by rw [hn, tri_func _ _ _ _ _ _ _ (by decide)]; unfold bf; omega
  rw [major_28 e26]
  simp [decodeTask, gAt, cAt, fAt, bit_eq, bit_b2n, checked, checkedOpt, t4_7, t4_4, t0_4, t8_3, t5_3, t4_1, e21, e16, e11]

theorem tcancelReplay (a : GReg) : Statement (.tcancelReplay a) := by
  have hf : 2 * 2 ^ 8 + 4 < 2048 := by omega
  obtain ⟨e26, e21, e16, e11⟩ := tri_fields 0x28 0 a.toNat 0 (2 * 2 ^ 8 + 4) (by omega) (by omega) (by omega) hf
  refine scalarCase _ _ rfl rfl rfl (tri_lt _ _ _ _ _ (by decide) (by omega) (by omega) (by omega) hf) (fun hw n hn => ?_)
  rw [← hn] at e26 e21 e16 e11
  have t4_7 : bf n 4 7 = 32 := by rw [hn, tri_func _ _ _ _ _ _ _ (by decide)]; unfold bf; omega
  have t4_4 : bf n 4 4 = 0 := by rw [hn, tri_func _ _ _ _ _ _ _ (by decide)]; unfold bf; omega
  have t0_4 : bf n 0 4 = 4 := by rw [hn, tri_func _ _ _ _ _ _ _ (by decide)]; unfold bf; omega
  have t8_3 : bf n 8 3 = 2 := by rw [hn, tri_func _ _ _ _ _ _ _ (by decide)]; unfold bf; omega
  have t5_3 : bf n 5 3 = 0 := by rw [hn, tri_func _ _ _ _ _ _ _ (by decide)]; unfold bf; omega
  have t4_1 : bf n 4 1 = 0 := by rw [hn, tri_func _ _ _ _ _ _ _ (by decide)]; unfold bf; omega
  rw [major_28 e26]
  simp [decodeTask, gAt, cAt, fAt, bit_eq, bit_b2n, checked, checkedOpt, t4_7, t4_4, t0_4, t8_3, t5_3, t4_1, e21, e16, e11]

theorem tcancelPhase (sc : BitVec 3) : Statement (.tcancelPhase sc) := by
  have hf : 3 * 2 ^ 8 + sc.toNat * 2 ^ 5 + 4 < 2048 := by omega
  obtain ⟨e26, e21, e16, e11⟩ := tri_fields 0x28 0 0 0 (3 * 2 ^ 8 + sc.toNat * 2 ^ 5 + 4) (by omega) (by omega) (by omega) hf
  refine scalarCase _ _ rfl rfl rfl (tri_lt _ _ _ _ _ (by decide) (by omega) (by omega) (by omega) hf) (fun hw n hn => ?_)
  rw [← hn] at e26 e21 e16 e11
  have t4_7 : bf n 4 7 = 48 + sc.toNat * 2 := by rw [hn, tri_func _ _ _ _ _ _ _ (by decide)]; unfold bf; omega
  have t4_4 : bf n 4 4 = sc.toNat * 2 := by rw [hn, tri_func _ _ _ _ _ _ _ (by decide)]; unfold bf; omega
  have t0_4 : bf n 0 4 = 4 := by rw [hn, tri_func _ _ _ _ _ _ _ (by decide)]; unfold bf; omega
  have t8_3 : bf n 8 3 = 3 := by rw [hn, tri_func _ _ _ _ _ _ _ (by decide)]; unfold bf; omega
  have t5_3 : bf n 5 3 = sc.toNat := by rw [hn, tri_func _ _ _ _ _ _ _ (by decide)]; unfold bf; omega
  have t4_1 : bf n 4 1 = 0 := by rw [hn, tri_func _ _ _ _ _ _ _ (by decide)]; unfold bf; omega
  rw [major_28 e26]
  have hw2 : 2 ≤ sc.toNat := by simpa [WellFormed, phaseScope] using hw
  simp [decodeTask, gAt, cAt, fAt, bit_eq, bit_b2n, checked, checkedOpt, t4_7, t4_4, t0_4, t8_3, t5_3, t4_1, e21, e16, e11, hw2]

theorem tcancelJob : Statement .tcancelJob := by
  have hf : 4 * 2 ^ 8 + 4 < 2048 := by omega
  obtain ⟨e26, e21, e16, e11⟩ := tri_fields 0x28 0 0 0 (4 * 2 ^ 8 + 4) (by omega) (by omega) (by omega) hf
  refine scalarCase _ _ rfl rfl rfl (tri_lt _ _ _ _ _ (by decide) (by omega) (by omega) (by omega) hf) (fun hw n hn => ?_)
  rw [← hn] at e26 e21 e16 e11
  have t4_7 : bf n 4 7 = 64 := by rw [hn, tri_func _ _ _ _ _ _ _ (by decide)]; unfold bf; omega
  have t4_4 : bf n 4 4 = 0 := by rw [hn, tri_func _ _ _ _ _ _ _ (by decide)]; unfold bf; omega
  have t0_4 : bf n 0 4 = 4 := by rw [hn, tri_func _ _ _ _ _ _ _ (by decide)]; unfold bf; omega
  have t8_3 : bf n 8 3 = 4 := by rw [hn, tri_func _ _ _ _ _ _ _ (by decide)]; unfold bf; omega
  have t5_3 : bf n 5 3 = 0 := by rw [hn, tri_func _ _ _ _ _ _ _ (by decide)]; unfold bf; omega
  have t4_1 : bf n 4 1 = 0 := by rw [hn, tri_func _ _ _ _ _ _ _ (by decide)]; unfold bf; omega
  rw [major_28 e26]
  simp [decodeTask, gAt, cAt, fAt, bit_eq, bit_b2n, checked, checkedOpt, t4_7, t4_4, t0_4, t8_3, t5_3, t4_1, e21, e16, e11]

theorem trun (a : GReg) : Statement (.trun a) := by
  have hf : 5 < 2048 := by omega
  obtain ⟨e26, e21, e16, e11⟩ := tri_fields 0x28 0 a.toNat 0 5 (by omega) (by omega) (by omega) hf
  refine scalarCase _ _ rfl rfl rfl (tri_lt _ _ _ _ _ (by decide) (by omega) (by omega) (by omega) hf) (fun hw n hn => ?_)
  rw [← hn] at e26 e21 e16 e11
  have t4_7 : bf n 4 7 = 0 := by rw [hn, tri_func _ _ _ _ _ _ _ (by decide)]; unfold bf; omega
  have t4_4 : bf n 4 4 = 0 := by rw [hn, tri_func _ _ _ _ _ _ _ (by decide)]; unfold bf; omega
  have t0_4 : bf n 0 4 = 5 := by rw [hn, tri_func _ _ _ _ _ _ _ (by decide)]; unfold bf; omega
  have t8_3 : bf n 8 3 = 0 := by rw [hn, tri_func _ _ _ _ _ _ _ (by decide)]; unfold bf; omega
  have t5_3 : bf n 5 3 = 0 := by rw [hn, tri_func _ _ _ _ _ _ _ (by decide)]; unfold bf; omega
  have t4_1 : bf n 4 1 = 0 := by rw [hn, tri_func _ _ _ _ _ _ _ (by decide)]; unfold bf; omega
  rw [major_28 e26]
  simp [decodeTask, gAt, cAt, fAt, bit_eq, bit_b2n, checked, checkedOpt, t4_7, t4_4, t0_4, t8_3, t5_3, t4_1, e21, e16, e11]

theorem bex (c : CReg) (o : BitVec 21) : Statement (.bex c o) := by
  refine scalarCase _ _ rfl rfl rfl (by omega) (fun hw n hn => ?_)
  have t26_6 : bf n 26 6 = 48 := by subst hn; unfold bf ; omega
  have t23_3 : bf n 23 3 = c.toNat := by subst hn; unfold bf ; omega
  have t21_2 : bf n 21 2 = 0 := by subst hn; unfold bf ; omega
  have t0_21 : bf n 0 21 = o.toNat := by subst hn; unfold bf ; omega
  rw [major_30 t26_6]
  simp [decodeExit, gAt, cAt, fAt, bit_eq, bit_b2n, checked, checkedOpt, t23_3, t21_2, t0_21]

theorem jex (o : BitVec 21) : Statement (.jex o) := by
  refine scalarCase _ _ rfl rfl rfl (by omega) (fun hw n hn => ?_)
  have t26_6 : bf n 26 6 = 49 := by subst hn; unfold bf ; omega
  have t21_5 : bf n 21 5 = 0 := by subst hn; unfold bf ; omega
  have t0_21 : bf n 0 21 = o.toNat := by subst hn; unfold bf ; omega
  rw [major_31 t26_6]
  simp [decodeExit, gAt, cAt, fAt, bit_eq, bit_b2n, checked, checkedOpt, t21_5, t0_21]

theorem cex (a : GReg) : Statement (.cex a) := by
  refine scalarCase _ _ rfl rfl rfl (by omega) (fun hw n hn => ?_)
  have t26_6 : bf n 26 6 = 50 := by subst hn; unfold bf ; omega
  have t21_5 : bf n 21 5 = 0 := by subst hn; unfold bf ; omega
  have t16_5 : bf n 16 5 = a.toNat := by subst hn; unfold bf ; omega
  have t0_16 : bf n 0 16 = 0 := by subst hn; unfold bf ; omega
  rw [major_32 t26_6]
  simp [decodeExit, gAt, cAt, fAt, bit_eq, bit_b2n, checked, checkedOpt, t21_5, t16_5, t0_16]

theorem call (d : GReg) (o : BitVec 21) : Statement (.call d o) := by
  refine scalarCase _ _ rfl rfl rfl (by omega) (fun hw n hn => ?_)
  have t26_6 : bf n 26 6 = 51 := by subst hn; unfold bf ; omega
  have t21_5 : bf n 21 5 = d.toNat := by subst hn; unfold bf ; omega
  have t0_21 : bf n 0 21 = o.toNat := by subst hn; unfold bf ; omega
  rw [major_33 t26_6]
  simp [decodeExit, gAt, cAt, fAt, bit_eq, bit_b2n, checked, checkedOpt, t21_5, t0_21]

theorem done : Statement .done := by
  refine scalarCase _ _ rfl rfl rfl (by omega) (fun hw n hn => ?_)
  have t26_6 : bf n 26 6 = 52 := by subst hn; unfold bf ; omega
  have t0_26 : bf n 0 26 = 0 := by subst hn; unfold bf ; omega
  rw [major_34 t26_6]
  simp [decodeExit, gAt, cAt, fAt, bit_eq, bit_b2n, checked, checkedOpt, t0_26]

theorem yield : Statement .yield := by
  refine scalarCase _ _ rfl rfl rfl (by omega) (fun hw n hn => ?_)
  have t26_6 : bf n 26 6 = 53 := by subst hn; unfold bf ; omega
  have t0_26 : bf n 0 26 = 0 := by subst hn; unfold bf ; omega
  rw [major_35 t26_6]
  simp [decodeExit, gAt, cAt, fAt, bit_eq, bit_b2n, checked, checkedOpt, t0_26]

theorem skip (c : CReg) (k : BitVec 7) : Statement (.skip c k) := by
  refine scalarCase _ _ rfl rfl rfl (by omega) (fun hw n hn => ?_)
  have t26_6 : bf n 26 6 = 54 := by subst hn; unfold bf ; omega
  have t23_3 : bf n 23 3 = c.toNat := by subst hn; unfold bf ; omega
  have t0_7 : bf n 0 7 = k.toNat := by subst hn; unfold bf ; omega
  have t7_16 : bf n 7 16 = 0 := by subst hn; unfold bf ; omega
  rw [major_36 t26_6]
  have hw2 : k.toNat ≠ 0 := by intro h; simp only [WellFormed, bne_iff_ne] at hw; exact hw (BitVec.eq_of_toNat_eq h)
  simp [decodeExit, gAt, cAt, fAt, bit_eq, bit_b2n, checked, checkedOpt, t23_3, t0_7, t7_16, hw2]

theorem scmd (p : GReg) (q : GReg) : Statement (.scmd p q) := by
  have hf : 0 < 2048 := by omega
  obtain ⟨e26, e21, e16, e11⟩ := tri_fields 0x38 p.toNat q.toNat 0 0 (by omega) (by omega) (by omega) hf
  refine scalarCase _ _ rfl rfl rfl (tri_lt _ _ _ _ _ (by decide) (by omega) (by omega) (by omega) hf) (fun hw n hn => ?_)
  rw [← hn] at e26 e21 e16 e11
  have t0_11 : bf n 0 11 = 0 := by rw [hn, tri_func _ _ _ _ _ _ _ (by decide)]; unfold bf; omega
  have p21 : bf n 21 1 = 0 := by simp only [WellFormed, beq_iff_eq] at hw; rw [hn]; unfold bf tri; omega
  rw [major_38 e26]
  simp [decodeSys, gAt, cAt, fAt, bit_eq, bit_b2n, checked, checkedOpt, t0_11, e21, e16, e11, p21]

theorem scmdt (p : GReg) (q : GReg) (t : GReg) : Statement (.scmdt p q t) := by
  have hf : 1 < 2048 := by omega
  obtain ⟨e26, e21, e16, e11⟩ := tri_fields 0x38 p.toNat q.toNat t.toNat 1 (by omega) (by omega) (by omega) hf
  refine scalarCase _ _ rfl rfl rfl (tri_lt _ _ _ _ _ (by decide) (by omega) (by omega) (by omega) hf) (fun hw n hn => ?_)
  rw [← hn] at e26 e21 e16 e11
  have t0_11 : bf n 0 11 = 1 := by rw [hn, tri_func _ _ _ _ _ _ _ (by decide)]; unfold bf; omega
  have p21 : bf n 21 1 = 0 := by simp only [WellFormed, beq_iff_eq] at hw; rw [hn]; unfold bf tri; omega
  rw [major_38 e26]
  simp [decodeSys, gAt, cAt, fAt, bit_eq, bit_b2n, checked, checkedOpt, t0_11, e21, e16, e11, p21]

theorem sysrd (d : GReg) (n_ : BitVec 12) : Statement (.sysrd d n_) := by
  refine scalarCase _ _ rfl rfl rfl (by omega) (fun hw n hn => ?_)
  have t26_6 : bf n 26 6 = 63 := by subst hn; unfold bf ; omega
  have t21_5 : bf n 21 5 = d.toNat := by subst hn; unfold bf ; omega
  have t16_5 : bf n 16 5 = 0 := by subst hn; unfold bf ; omega
  have t0_12 : bf n 0 12 = n_.toNat := by subst hn; unfold bf ; omega
  have t12_4 : bf n 12 4 = 0 := by subst hn; unfold bf ; omega
  rw [major_3f t26_6]
  have hw2 : n_.toNat ∈ sysRegs := by simpa [WellFormed] using hw
  simp [decodeSys, gAt, cAt, fAt, bit_eq, bit_b2n, checked, checkedOpt, t21_5, t16_5, t0_12, t12_4, hw2]

theorem syswr (a : GReg) (n_ : BitVec 12) : Statement (.syswr a n_) := by
  refine scalarCase _ _ rfl rfl rfl (by omega) (fun hw n hn => ?_)
  have t26_6 : bf n 26 6 = 63 := by subst hn; unfold bf ; omega
  have t21_5 : bf n 21 5 = a.toNat := by subst hn; unfold bf ; omega
  have t16_5 : bf n 16 5 = 0 := by subst hn; unfold bf ; omega
  have t0_12 : bf n 0 12 = n_.toNat := by subst hn; unfold bf ; omega
  have t12_4 : bf n 12 4 = 1 := by subst hn; unfold bf ; omega
  rw [major_3f t26_6]
  have hw2 : n_.toNat ∈ sysRegs := by simpa [WellFormed] using hw
  simp [decodeSys, gAt, cAt, fAt, bit_eq, bit_b2n, checked, checkedOpt, t21_5, t16_5, t0_12, t12_4, hw2]

theorem trap (k : BitVec 12) : Statement (.trap k) := by
  refine scalarCase _ _ rfl rfl rfl (by omega) (fun hw n hn => ?_)
  have t26_6 : bf n 26 6 = 63 := by subst hn; unfold bf ; omega
  have t21_5 : bf n 21 5 = 0 := by subst hn; unfold bf ; omega
  have t16_5 : bf n 16 5 = 0 := by subst hn; unfold bf ; omega
  have t21_1 : bf n 21 1 = 0 := by subst hn; unfold bf ; omega
  have t0_12 : bf n 0 12 = k.toNat := by subst hn; unfold bf ; omega
  have t12_4 : bf n 12 4 = 2 := by subst hn; unfold bf ; omega
  rw [major_3f t26_6]
  simp [decodeSys, gAt, cAt, fAt, bit_eq, bit_b2n, checked, checkedOpt, t21_5, t16_5, t21_1, t0_12, t12_4]

theorem halt : Statement .halt := by
  refine scalarCase _ _ rfl rfl rfl (by omega) (fun hw n hn => ?_)
  have t26_6 : bf n 26 6 = 63 := by subst hn; unfold bf ; omega
  have t21_5 : bf n 21 5 = 0 := by subst hn; unfold bf ; omega
  have t16_5 : bf n 16 5 = 0 := by subst hn; unfold bf ; omega
  have t11_5 : bf n 11 5 = 6 := by subst hn; unfold bf ; omega
  have t21_1 : bf n 21 1 = 0 := by subst hn; unfold bf ; omega
  have t0_12 : bf n 0 12 = 0 := by subst hn; unfold bf ; omega
  have t12_4 : bf n 12 4 = 3 := by subst hn; unfold bf ; omega
  have t0_11 : bf n 0 11 = 0 := by subst hn; unfold bf ; omega
  rw [major_3f t26_6]
  simp [decodeSys, gAt, cAt, fAt, bit_eq, bit_b2n, checked, checkedOpt, t21_5, t16_5, t11_5, t21_1, t0_12, t12_4, t0_11]


theorem cmdCase (i : Instr) (op : Nat) (h : CmdHead) (x r p b a : Nat) (he : encodeScalarNat i = none)
    (hc : encodeCmd i = some (BitVec.ofNat 128 (cmdNat op h x r p b a))) (ho : encodeOp i = none)
    (h1 : op < 256) (h2 : x < 16) (h3 : r < 64) (h4 : p < 64) (h5 : b < 2 ^ 36) (h6 : a < 2 ^ 56)
    (h7 : cmdAssigned op = true)
    (hd : WellFormed i = true → ∀ n, cmdOpcode n = op → cmdHead n = h → cmdX n = x → cmdRegion n = r → cmdPort n = p →
      cmdB n = b → cmdA n = a → decodeCmdFields n = some i) : Statement i := by
  refine fun hw => ⟨fun w h => by simp [encodeScalar, he] at h, fun w h' => ?_, fun w h => by simp [ho] at h⟩
  rw [hc] at h'
  cases h'
  obtain ⟨f1, f2, f3, f4, f5, f6, f7⟩ := cmd_fields op h x r p b a h1 h2 h3 h4 h5 h6
  exact decodeCmd_mk op h x r p b a i (cmd_lt op h x r p b a h1 h2 h3 h4 h5 h6) (by rw [f1]; exact h7)
    (hd hw _ f1 f2 f3 f4 f5 f6 f7)

theorem bit_one (b : Bool) : bit (b2n b) 0 = b := by cases b <;> rfl

theorem vload_x (m : BitVec 2) (l : Bool) :
    m.toNat + 4 * b2n l < 8 ∧ BitVec.ofNat 2 (m.toNat + 4 * b2n l) = m ∧ bit (m.toNat + 4 * b2n l) 2 = l := by
  revert l m; decide

theorem opCase (i : Instr) (op : Nat) (c : OpCfg) (q : Nat) (he : encodeScalarNat i = none) (hc : encodeCmd i = none)
    (ho : encodeOp i = some (BitVec.ofNat 256 (cfgNat op c + q))) (h1 : op < 256) (h2 : q < 2 ^ 144)
    (hd : ∀ n, opOpcode n = op → opCfg n = c → (∀ lo len, lo + len ≤ 144 → bf n lo len = bf q lo len) →
      opParamOk n = true ∧ decodeOpFields n = some i) : Statement i := by
  refine fun _ => ⟨fun w h => by simp [encodeScalar, he] at h, fun w h => by simp [hc] at h, fun w h => ?_⟩
  rw [ho] at h
  cases h
  obtain ⟨h3, h4⟩ := hd _ (cfg_opcode op c q h1 h2) (cfg_opCfg op c q h2) (fun lo len h => cfg_param op c q lo len h)
  exact decodeOp_mk op c q i h1 h2 h3 h4

theorem vecCase (i : Instr) (k : Nat) (c : OpCfg) (p : VecParam) (he : encodeScalarNat i = none)
    (hc : encodeCmd i = none) (ho : encodeOp i = some (BitVec.ofNat 256 (cfgNat (0x20 + k) c + vecNat p)))
    (hk : k ≤ 0x14) (hi : decodeVec k c p = some i) : Statement i := by
  refine fun _ => ⟨fun w h => by simp [encodeScalar, he] at h, fun w h => by simp [hc] at h, fun w h => ?_⟩
  rw [ho] at h
  cases h
  exact decodeOp_vec k c p i hk hi

theorem load (h : CmdHead) (region : BitVec 6) (port : BitVec 6) (last : Bool) (len : BitVec 36) (a : BitVec 56) : Statement (.load h region port last len a) := by
  have hx := b2n_lt last
  refine cmdCase _ 0x01 h (b2n last) region.toNat port.toNat len.toNat a.toNat rfl rfl rfl (by decide) (by omega) (by omega) (by omega) (by omega) (by omega) (by decide) ?_
  intro hw n f1 f2 f3 f4 f5 f6 f7
  have hw2 : h.wf = true := hw
  simp [decodeCmdFields, f1, f2, f3, f4, f5, f6, f7, hw2, hx, bit_one]

theorem store (h : CmdHead) (region : BitVec 6) (port : BitVec 6) (len : BitVec 36) (a : BitVec 56) : Statement (.store h region port len a) := by
  refine cmdCase _ 0x02 h 0 region.toNat port.toNat len.toNat a.toNat rfl rfl rfl (by decide) (by omega) (by omega) (by omega) (by omega) (by omega) (by decide) ?_
  intro hw n f1 f2 f3 f4 f5 f6 f7
  have hw2 : h.wf = true := hw
  simp [decodeCmdFields, f1, f2, f3, f4, f5, f6, f7, hw2]

theorem publish (h : CmdHead) (region : BitVec 6) (port : BitVec 6) (ver : BitVec 36) (a : BitVec 56) : Statement (.publish h region port ver a) := by
  refine cmdCase _ 0x03 h 0 region.toNat port.toNat ver.toNat a.toNat rfl rfl rfl (by decide) (by omega) (by omega) (by omega) (by omega) (by omega) (by decide) ?_
  intro hw n f1 f2 f3 f4 f5 f6 f7
  have hw2 : h.wf = true := hw
  simp [decodeCmdFields, f1, f2, f3, f4, f5, f6, f7, hw2]

theorem vload (h : CmdHead) (region : BitVec 6) (port : BitVec 6) (mode : BitVec 2) (last : Bool) (ver : BitVec 36) (a : BitVec 56) : Statement (.vload h region port mode last ver a) := by
  obtain ⟨hx, hm, hl⟩ := vload_x mode last
  refine cmdCase _ 0x04 h (mode.toNat + 4 * b2n last) region.toNat port.toNat ver.toNat a.toNat rfl rfl rfl (by decide) (by omega) (by omega) (by omega) (by omega) (by omega) (by decide) ?_
  intro hw n f1 f2 f3 f4 f5 f6 f7
  have hw2 : h.wf = true := hw
  simp [decodeCmdFields, f1, f2, f3, f4, f5, f6, f7, hw2, hx, hm, hl]

theorem copy (h : CmdHead) (a : BitVec 56) : Statement (.copy h a) := by
  refine cmdCase _ 0x05 h 0 0 0 0 a.toNat rfl rfl rfl (by decide) (by omega) (by omega) (by omega) (by omega) (by omega) (by decide) ?_
  intro hw n f1 f2 f3 f4 f5 f6 f7
  have hw2 : h.wf = true := hw
  simp [decodeCmdFields, f1, f2, f3, f4, f5, f6, f7, hw2]

theorem copyv (h : CmdHead) (a : BitVec 56) : Statement (.copyv h a) := by
  refine cmdCase _ 0x06 h 0 0 0 0 a.toNat rfl rfl rfl (by decide) (by omega) (by omega) (by omega) (by omega) (by omega) (by decide) ?_
  intro hw n f1 f2 f3 f4 f5 f6 f7
  have hw2 : h.wf = true := hw
  simp [decodeCmdFields, f1, f2, f3, f4, f5, f6, f7, hw2]

theorem fill (h : CmdHead) (a : BitVec 56) : Statement (.fill h a) := by
  refine cmdCase _ 0x07 h 0 0 0 0 a.toNat rfl rfl rfl (by decide) (by omega) (by omega) (by omega) (by omega) (by omega) (by decide) ?_
  intro hw n f1 f2 f3 f4 f5 f6 f7
  have hw2 : h.wf = true := hw
  simp [decodeCmdFields, f1, f2, f3, f4, f5, f6, f7, hw2]

theorem arm (h : CmdHead) (region : BitVec 6) (len : BitVec 36) (a : BitVec 56) : Statement (.arm h region len a) := by
  refine cmdCase _ 0x08 h 0 region.toNat 0 len.toNat a.toNat rfl rfl rfl (by decide) (by omega) (by omega) (by omega) (by omega) (by omega) (by decide) ?_
  intro hw n f1 f2 f3 f4 f5 f6 f7
  have hw2 : h.wf = true := hw
  simp [decodeCmdFields, f1, f2, f3, f4, f5, f6, f7, hw2]

theorem disarm (h : CmdHead) (region : BitVec 6) : Statement (.disarm h region) := by
  refine cmdCase _ 0x09 h 0 region.toNat 0 0 0 rfl rfl rfl (by decide) (by omega) (by omega) (by omega) (by omega) (by omega) (by decide) ?_
  intro hw n f1 f2 f3 f4 f5 f6 f7
  have hw2 : h.wf = true := hw
  simp [decodeCmdFields, f1, f2, f3, f4, f5, f6, f7, hw2]

theorem config (h : CmdHead) (region : BitVec 6) (port : BitVec 6) (count : BitVec 36) (a : BitVec 56) : Statement (.config h region port count a) := by
  refine cmdCase _ 0x0A h 0 region.toNat port.toNat count.toNat a.toNat rfl rfl rfl (by decide) (by omega) (by omega) (by omega) (by omega) (by omega) (by decide) ?_
  intro hw n f1 f2 f3 f4 f5 f6 f7
  have hw2 : h.wf = true := hw
  simp [decodeCmdFields, f1, f2, f3, f4, f5, f6, f7, hw2]

theorem stop (h : CmdHead) (region : BitVec 6) : Statement (.stop h region) := by
  refine cmdCase _ 0x0B h 0 region.toNat 0 0 0 rfl rfl rfl (by decide) (by omega) (by omega) (by omega) (by omega) (by omega) (by decide) ?_
  intro hw n f1 f2 f3 f4 f5 f6 f7
  have hw2 : h.wf = true := hw
  simp [decodeCmdFields, f1, f2, f3, f4, f5, f6, f7, hw2]

theorem marker (h : CmdHead) (region : BitVec 6) (mark : BitVec 36) : Statement (.marker h region mark) := by
  refine cmdCase _ 0x0C h 0 region.toNat 0 mark.toNat 0 rfl rfl rfl (by decide) (by omega) (by omega) (by omega) (by omega) (by omega) (by decide) ?_
  intro hw n f1 f2 f3 f4 f5 f6 f7
  have hw2 : h.wf = true := hw
  simp [decodeCmdFields, f1, f2, f3, f4, f5, f6, f7, hw2]

theorem snap (h : CmdHead) (region : BitVec 6) (len : BitVec 36) (a : BitVec 56) : Statement (.snap h region len a) := by
  refine cmdCase _ 0x0D h 0 region.toNat 0 len.toNat a.toNat rfl rfl rfl (by decide) (by omega) (by omega) (by omega) (by omega) (by omega) (by decide) ?_
  intro hw n f1 f2 f3 f4 f5 f6 f7
  have hw2 : h.wf = true := hw
  simp [decodeCmdFields, f1, f2, f3, f4, f5, f6, f7, hw2]

theorem resume (h : CmdHead) (region : BitVec 6) (len : BitVec 36) (a : BitVec 56) : Statement (.resume h region len a) := by
  refine cmdCase _ 0x0E h 0 region.toNat 0 len.toNat a.toNat rfl rfl rfl (by decide) (by omega) (by omega) (by omega) (by omega) (by omega) (by decide) ?_
  intro hw n f1 f2 f3 f4 f5 f6 f7
  have hw2 : h.wf = true := hw
  simp [decodeCmdFields, f1, f2, f3, f4, f5, f6, f7, hw2]

theorem hang (h : CmdHead) (region : BitVec 6) (us : BitVec 36) (a : BitVec 56) : Statement (.hang h region us a) := by
  refine cmdCase _ 0x1F h 0 region.toNat 0 us.toNat a.toNat rfl rfl rfl (by decide) (by omega) (by omega) (by omega) (by omega) (by omega) (by decide) ?_
  intro hw n f1 f2 f3 f4 f5 f6 f7
  have hw2 : h.wf = true := hw
  simp [decodeCmdFields, f1, f2, f3, f4, f5, f6, f7, hw2]

theorem wsload (h : CmdHead) (b : BitVec 36) (a : BitVec 56) : Statement (.wsload h b a) := by
  refine cmdCase _ 0x10 h 0 0 0 b.toNat a.toNat rfl rfl rfl (by decide) (by omega) (by omega) (by omega) (by omega) (by omega) (by decide) ?_
  intro hw n f1 f2 f3 f4 f5 f6 f7
  have hw2 : h.wf = true := hw
  simp [decodeCmdFields, f1, f2, f3, f4, f5, f6, f7, hw2]

theorem wsread (h : CmdHead) (b : BitVec 36) (a : BitVec 56) : Statement (.wsread h b a) := by
  refine cmdCase _ 0x11 h 0 0 0 b.toNat a.toNat rfl rfl rfl (by decide) (by omega) (by omega) (by omega) (by omega) (by omega) (by decide) ?_
  intro hw n f1 f2 f3 f4 f5 f6 f7
  have hw2 : h.wf = true := hw
  simp [decodeCmdFields, f1, f2, f3, f4, f5, f6, f7, hw2]

theorem berthfill (h : CmdHead) (berth : BitVec 36) (a : BitVec 56) : Statement (.berthfill h berth a) := by
  refine cmdCase _ 0x12 h 0 0 0 berth.toNat a.toNat rfl rfl rfl (by decide) (by omega) (by omega) (by omega) (by omega) (by omega) (by decide) ?_
  intro hw n f1 f2 f3 f4 f5 f6 f7
  have hw2 : h.wf = true := hw
  simp [decodeCmdFields, f1, f2, f3, f4, f5, f6, f7, hw2]

theorem berthevict (h : CmdHead) (force : Bool) (berth : BitVec 36) (a : BitVec 56) : Statement (.berthevict h force berth a) := by
  have hx := b2n_lt force
  refine cmdCase _ 0x13 h (b2n force) 0 0 berth.toNat a.toNat rfl rfl rfl (by decide) (by omega) (by omega) (by omega) (by omega) (by omega) (by decide) ?_
  intro hw n f1 f2 f3 f4 f5 f6 f7
  have hw2 : h.wf = true := hw
  simp [decodeCmdFields, f1, f2, f3, f4, f5, f6, f7, hw2, hx, bit_one]

theorem berthpin (h : CmdHead) (pin : Bool) (berth : BitVec 36) : Statement (.berthpin h pin berth) := by
  have hx := b2n_lt pin
  refine cmdCase _ 0x14 h (b2n pin) 0 0 berth.toNat 0 rfl rfl rfl (by decide) (by omega) (by omega) (by omega) (by omega) (by omega) (by decide) ?_
  intro hw n f1 f2 f3 f4 f5 f6 f7
  have hw2 : h.wf = true := hw
  simp [decodeCmdFields, f1, f2, f3, f4, f5, f6, f7, hw2, hx, bit_one]

theorem berthfree (h : CmdHead) (berth : BitVec 36) : Statement (.berthfree h berth) := by
  refine cmdCase _ 0x15 h 0 0 0 berth.toNat 0 rfl rfl rfl (by decide) (by omega) (by omega) (by omega) (by omega) (by omega) (by decide) ?_
  intro hw n f1 f2 f3 f4 f5 f6 f7
  have hw2 : h.wf = true := hw
  simp [decodeCmdFields, f1, f2, f3, f4, f5, f6, f7, hw2]

theorem txload (h : CmdHead) (len : BitVec 36) (a : BitVec 56) : Statement (.txload h len a) := by
  refine cmdCase _ 0x18 h 0 0 0 len.toNat a.toNat rfl rfl rfl (by decide) (by omega) (by omega) (by omega) (by omega) (by omega) (by decide) ?_
  intro hw n f1 f2 f3 f4 f5 f6 f7
  have hw2 : h.wf = true := hw
  simp [decodeCmdFields, f1, f2, f3, f4, f5, f6, f7, hw2]

theorem txrun (h : CmdHead) (chunks : BitVec 36) (a : BitVec 56) : Statement (.txrun h chunks a) := by
  refine cmdCase _ 0x19 h 0 0 0 chunks.toNat a.toNat rfl rfl rfl (by decide) (by omega) (by omega) (by omega) (by omega) (by omega) (by decide) ?_
  intro hw n f1 f2 f3 f4 f5 f6 f7
  have hw2 : h.wf = true := hw
  simp [decodeCmdFields, f1, f2, f3, f4, f5, f6, f7, hw2]

theorem encode (h : CmdHead) (retire : Bool) (frame : BitVec 36) (a : BitVec 56) : Statement (.encode h retire frame a) := by
  have hx := b2n_lt retire
  refine cmdCase _ 0x1A h (b2n retire) 0 0 frame.toNat a.toNat rfl rfl rfl (by decide) (by omega) (by omega) (by omega) (by omega) (by omega) (by decide) ?_
  intro hw n f1 f2 f3 f4 f5 f6 f7
  have hw2 : h.wf = true := hw
  simp [decodeCmdFields, f1, f2, f3, f4, f5, f6, f7, hw2, hx, bit_one]

theorem coll (h : CmdHead) (id : BitVec 36) (a : BitVec 56) : Statement (.coll h id a) := by
  refine cmdCase _ 0x1B h 0 0 0 id.toNat a.toNat rfl rfl rfl (by decide) (by omega) (by omega) (by omega) (by omega) (by omega) (by decide) ?_
  intro hw n f1 f2 f3 f4 f5 f6 f7
  have hw2 : h.wf = true := hw
  simp [decodeCmdFields, f1, f2, f3, f4, f5, f6, f7, hw2]

theorem notify (h : CmdHead) : Statement (.notify h) := by
  refine cmdCase _ 0x1C h 0 0 0 0 0 rfl rfl rfl (by decide) (by omega) (by omega) (by omega) (by omega) (by omega) (by decide) ?_
  intro hw n f1 f2 f3 f4 f5 f6 f7
  have hw2 : h.wf = true := hw
  simp [decodeCmdFields, f1, f2, f3, f4, f5, f6, f7, hw2]

theorem bwait (h : CmdHead) (bar : BitVec 36) (n_ : BitVec 56) : Statement (.bwait h bar n_) := by
  refine cmdCase _ 0x1D h 0 0 0 bar.toNat n_.toNat rfl rfl rfl (by decide) (by omega) (by omega) (by omega) (by omega) (by omega) (by decide) ?_
  intro hw n f1 f2 f3 f4 f5 f6 f7
  have hw2 : h.wf = true := hw
  simp [decodeCmdFields, f1, f2, f3, f4, f5, f6, f7, hw2]

theorem tlwaitq (h : CmdHead) (q : BitVec 36) (n_ : BitVec 56) : Statement (.tlwaitq h q n_) := by
  refine cmdCase _ 0x1E h 0 0 0 q.toNat n_.toNat rfl rfl rfl (by decide) (by omega) (by omega) (by omega) (by omega) (by omega) (by decide) ?_
  intro hw n f1 f2 f3 f4 f5 f6 f7
  have hw2 : h.wf = true := hw
  simp [decodeCmdFields, f1, f2, f3, f4, f5, f6, f7, hw2]

theorem mmp (c : OpCfg) (p : MmpParam) : Statement (.mmp c p) := by
  have b_p_cmpr := b2n_lt p.cmpr
  have b_p_uadd := b2n_lt p.uadd
  refine opCase _ 0x10 c (p.tsa.toNat * 2 ^ 112 + p.tsb.toNat * 2 ^ 80 + p.bdesc.toNat * 2 ^ 48 + b2n p.cmpr * 2 ^ 33 + b2n p.uadd * 2 ^ 32) rfl rfl rfl (by decide) (by omega) ?_
  intro n ho hc hq
  have t112 : bf n 112 32 = p.tsa.toNat := by rw [hq _ _ (by decide)]; unfold bf ; omega
  have t80 : bf n 80 32 = p.tsb.toNat := by rw [hq _ _ (by decide)]; unfold bf ; omega
  have t48 : bf n 48 32 = p.bdesc.toNat := by rw [hq _ _ (by decide)]; unfold bf ; omega
  have t33 : bf n 33 1 = b2n p.cmpr := by rw [hq _ _ (by decide)]; unfold bf ; omega
  have t32 : bf n 32 1 = b2n p.uadd := by rw [hq _ _ (by decide)]; unfold bf ; omega
  have r34 : bf n 34 14 = 0 := by rw [hq _ _ (by decide)]; unfold bf ; omega
  have r0 : bf n 0 32 = 0 := by rw [hq _ _ (by decide)]; unfold bf ; omega
  constructor <;> simp [opParamOk, decodeOpFields, bit_eq, bit_b2n, ho, hc, t112, t80, t48, t33, t32, r34, r0]

theorem mmload (c : OpCfg) : Statement (.mmload c) := by
  refine opCase _ 0x11 c 0 rfl rfl rfl (by decide) (by omega) ?_
  intro n ho hc hq
  have r0 : bf n 0 144 = 0 := by rw [hq _ _ (by decide)]; exact bf_zero _ _
  constructor <;> simp [opParamOk, decodeOpFields, bit_eq, bit_b2n, ho, hc, r0]

theorem vadd (c : OpCfg) (p : VecParam) : Statement (.vadd c p) := vecCase _ 0 _ _ rfl rfl rfl (by decide) rfl

theorem vsub (c : OpCfg) (p : VecParam) : Statement (.vsub c p) := vecCase _ 1 _ _ rfl rfl rfl (by decide) rfl

theorem vmul (c : OpCfg) (p : VecParam) : Statement (.vmul c p) := vecCase _ 2 _ _ rfl rfl rfl (by decide) rfl

theorem vfma (c : OpCfg) (p : VecParam) : Statement (.vfma c p) := vecCase _ 3 _ _ rfl rfl rfl (by decide) rfl

theorem vmax (c : OpCfg) (p : VecParam) : Statement (.vmax c p) := vecCase _ 4 _ _ rfl rfl rfl (by decide) rfl

theorem vmin (c : OpCfg) (p : VecParam) : Statement (.vmin c p) := vecCase _ 5 _ _ rfl rfl rfl (by decide) rfl

theorem vabs (c : OpCfg) (p : VecParam) : Statement (.vabs c p) := vecCase _ 6 _ _ rfl rfl rfl (by decide) rfl

theorem vneg (c : OpCfg) (p : VecParam) : Statement (.vneg c p) := vecCase _ 7 _ _ rfl rfl rfl (by decide) rfl

theorem vexp2 (c : OpCfg) (p : VecParam) : Statement (.vexp2 c p) := vecCase _ 8 _ _ rfl rfl rfl (by decide) rfl

theorem vlog2 (c : OpCfg) (p : VecParam) : Statement (.vlog2 c p) := vecCase _ 9 _ _ rfl rfl rfl (by decide) rfl

theorem vrcp (c : OpCfg) (p : VecParam) : Statement (.vrcp c p) := vecCase _ 10 _ _ rfl rfl rfl (by decide) rfl

theorem vrsqrt (c : OpCfg) (p : VecParam) : Statement (.vrsqrt c p) := vecCase _ 11 _ _ rfl rfl rfl (by decide) rfl

theorem vcvt (c : OpCfg) (p : VecParam) : Statement (.vcvt c p) := vecCase _ 12 _ _ rfl rfl rfl (by decide) rfl

theorem vcmp (c : OpCfg) (p : VecParam) : Statement (.vcmp c p) := vecCase _ 13 _ _ rfl rfl rfl (by decide) rfl

theorem vand (c : OpCfg) (p : VecParam) : Statement (.vand c p) := vecCase _ 14 _ _ rfl rfl rfl (by decide) rfl

theorem vor (c : OpCfg) (p : VecParam) : Statement (.vor c p) := vecCase _ 15 _ _ rfl rfl rfl (by decide) rfl

theorem vxor (c : OpCfg) (p : VecParam) : Statement (.vxor c p) := vecCase _ 16 _ _ rfl rfl rfl (by decide) rfl

theorem vshl (c : OpCfg) (p : VecParam) : Statement (.vshl c p) := vecCase _ 17 _ _ rfl rfl rfl (by decide) rfl

theorem vshr (c : OpCfg) (p : VecParam) : Statement (.vshr c p) := vecCase _ 18 _ _ rfl rfl rfl (by decide) rfl

theorem vred (c : OpCfg) (p : VecParam) : Statement (.vred c p) := vecCase _ 19 _ _ rfl rfl rfl (by decide) rfl

theorem vscan (c : OpCfg) (p : VecParam) : Statement (.vscan c p) := vecCase _ 20 _ _ rfl rfl rfl (by decide) rfl

theorem vquant (c : OpCfg) (type : BitVec 2) : Statement (.vquant c type) := by
  refine opCase _ 0x35 c (type.toNat * 2 ^ 142) rfl rfl rfl (by decide) (by omega) ?_
  intro n ho hc hq
  have t142 : bf n 142 2 = type.toNat := by rw [hq _ _ (by decide)]; unfold bf ; omega
  have r0 : bf n 0 142 = 0 := by rw [hq _ _ (by decide)]; unfold bf ; omega
  constructor <;> simp [opParamOk, decodeOpFields, bit_eq, bit_b2n, ho, hc, t142, r0]

theorem vdequant (c : OpCfg) : Statement (.vdequant c) := by
  refine opCase _ 0x36 c 0 rfl rfl rfl (by decide) (by omega) ?_
  intro n ho hc hq
  have r0 : bf n 0 144 = 0 := by rw [hq _ _ (by decide)]; exact bf_zero _ _
  constructor <;> simp [opParamOk, decodeOpFields, bit_eq, bit_b2n, ho, hc, r0]

theorem planes (c : OpCfg) (types : BitVec 4) (cmpr : Bool) : Statement (.planes c types cmpr) := by
  have b_cmpr := b2n_lt cmpr
  refine opCase _ 0x37 c (types.toNat * 2 ^ 140 + b2n cmpr * 2 ^ 139) rfl rfl rfl (by decide) (by omega) ?_
  intro n ho hc hq
  have t140 : bf n 140 4 = types.toNat := by rw [hq _ _ (by decide)]; unfold bf ; omega
  have t139 : bf n 139 1 = b2n cmpr := by rw [hq _ _ (by decide)]; unfold bf ; omega
  have r0 : bf n 0 139 = 0 := by rw [hq _ _ (by decide)]; unfold bf ; omega
  constructor <;> simp [opParamOk, decodeOpFields, bit_eq, bit_b2n, ho, hc, t140, t139, r0]

theorem buf (c : OpCfg) (depth : BitVec 13) : Statement (.buf c depth) := by
  refine opCase _ 0x40 c (depth.toNat * 2 ^ 131) rfl rfl rfl (by decide) (by omega) ?_
  intro n ho hc hq
  have t131 : bf n 131 13 = depth.toNat := by rw [hq _ _ (by decide)]; unfold bf ; omega
  have r0 : bf n 0 131 = 0 := by rw [hq _ _ (by decide)]; unfold bf ; omega
  constructor <;> simp [opParamOk, decodeOpFields, bit_eq, bit_b2n, ho, hc, t131, r0]

theorem scratch (c : OpCfg) (size : BitVec 13) : Statement (.scratch c size) := by
  refine opCase _ 0x41 c (size.toNat * 2 ^ 131) rfl rfl rfl (by decide) (by omega) ?_
  intro n ho hc hq
  have t131 : bf n 131 13 = size.toNat := by rw [hq _ _ (by decide)]; unfold bf ; omega
  have r0 : bf n 0 131 = 0 := by rw [hq _ _ (by decide)]; unfold bf ; omega
  constructor <;> simp [opParamOk, decodeOpFields, bit_eq, bit_b2n, ho, hc, t131, r0]

theorem window (c : OpCfg) (n_ : BitVec 2) (d : BitVec 11) : Statement (.window c n_ d) := by
  refine opCase _ 0x42 c (n_.toNat * 2 ^ 142 + d.toNat * 2 ^ 131) rfl rfl rfl (by decide) (by omega) ?_
  intro n ho hc hq
  have t142 : bf n 142 2 = n_.toNat := by rw [hq _ _ (by decide)]; unfold bf ; omega
  have t131 : bf n 131 11 = d.toNat := by rw [hq _ _ (by decide)]; unfold bf ; omega
  have r0 : bf n 0 131 = 0 := by rw [hq _ _ (by decide)]; unfold bf ; omega
  constructor <;> simp [opParamOk, decodeOpFields, bit_eq, bit_b2n, ho, hc, t142, t131, r0]

theorem pin (c : OpCfg) (size : BitVec 13) : Statement (.pin c size) := by
  refine opCase _ 0x43 c (size.toNat * 2 ^ 131) rfl rfl rfl (by decide) (by omega) ?_
  intro n ho hc hq
  have t131 : bf n 131 13 = size.toNat := by rw [hq _ _ (by decide)]; unfold bf ; omega
  have r0 : bf n 0 131 = 0 := by rw [hq _ _ (by decide)]; unfold bf ; omega
  constructor <;> simp [opParamOk, decodeOpFields, bit_eq, bit_b2n, ho, hc, t131, r0]

theorem agen (c : OpCfg) (p : AgenParam) : Statement (.agen c p) := by
  refine opCase _ 0x50 c (p.n0.toNat * 2 ^ 128 + p.n1.toNat * 2 ^ 112 + p.n2.toNat * 2 ^ 96 + p.n3.toNat * 2 ^ 80 + p.s0.toNat * 2 ^ 64 + p.s1.toNat * 2 ^ 48 + p.s2.toNat * 2 ^ 32 + p.s3.toNat * 2 ^ 16 + p.nt.toNat) rfl rfl rfl (by decide) (by omega) ?_
  intro n ho hc hq
  have t128 : bf n 128 16 = p.n0.toNat := by rw [hq _ _ (by decide)]; unfold bf ; omega
  have t112 : bf n 112 16 = p.n1.toNat := by rw [hq _ _ (by decide)]; unfold bf ; omega
  have t96 : bf n 96 16 = p.n2.toNat := by rw [hq _ _ (by decide)]; unfold bf ; omega
  have t80 : bf n 80 16 = p.n3.toNat := by rw [hq _ _ (by decide)]; unfold bf ; omega
  have t64 : bf n 64 16 = p.s0.toNat := by rw [hq _ _ (by decide)]; unfold bf ; omega
  have t48 : bf n 48 16 = p.s1.toNat := by rw [hq _ _ (by decide)]; unfold bf ; omega
  have t32 : bf n 32 16 = p.s2.toNat := by rw [hq _ _ (by decide)]; unfold bf ; omega
  have t16 : bf n 16 16 = p.s3.toNat := by rw [hq _ _ (by decide)]; unfold bf ; omega
  have t0 : bf n 0 16 = p.nt.toNat := by rw [hq _ _ (by decide)]; unfold bf ; omega
  constructor <;> simp [opParamOk, decodeOpFields, bit_eq, bit_b2n, ho, hc, t128, t112, t96, t80, t64, t48, t32, t16, t0]

theorem gather (c : OpCfg) (p : RowParam) : Statement (.gather c p) := by
  refine opCase _ 0x51 c (rowNat p) rfl rfl rfl (by decide) (by unfold rowNat; omega) ?_
  intro n ho hc hq
  have t112 : bf n 112 32 = p.row.toNat := by rw [hq _ _ (by decide)]; unfold bf rowNat; omega
  have t80 : bf n 80 32 = p.limit.toNat := by rw [hq _ _ (by decide)]; unfold bf rowNat; omega
  have t48 : bf n 48 32 = p.base.toNat := by rw [hq _ _ (by decide)]; unfold bf rowNat; omega
  have t46 : bf n 46 2 = p.dim.toNat := by rw [hq _ _ (by decide)]; unfold bf rowNat; omega
  have r0 : bf n 0 46 = 0 := by rw [hq _ _ (by decide)]; unfold bf rowNat; omega
  constructor <;> simp [opParamOk, decodeOpFields, rowParam, bit_eq, bit_b2n, ho, hc, t112, t80, t48, t46, r0]

theorem scatter (c : OpCfg) (p : RowParam) : Statement (.scatter c p) := by
  refine opCase _ 0x52 c (rowNat p) rfl rfl rfl (by decide) (by unfold rowNat; omega) ?_
  intro n ho hc hq
  have t112 : bf n 112 32 = p.row.toNat := by rw [hq _ _ (by decide)]; unfold bf rowNat; omega
  have t80 : bf n 80 32 = p.limit.toNat := by rw [hq _ _ (by decide)]; unfold bf rowNat; omega
  have t48 : bf n 48 32 = p.base.toNat := by rw [hq _ _ (by decide)]; unfold bf rowNat; omega
  have t46 : bf n 46 2 = p.dim.toNat := by rw [hq _ _ (by decide)]; unfold bf rowNat; omega
  have r0 : bf n 0 46 = 0 := by rw [hq _ _ (by decide)]; unfold bf rowNat; omega
  constructor <;> simp [opParamOk, decodeOpFields, rowParam, bit_eq, bit_b2n, ho, hc, t112, t80, t48, t46, r0]

theorem mload (c : OpCfg) (p : PortParam) : Statement (.mload c p) := by
  have b_p_mode := b2n_lt p.mode
  have b_p_dir := b2n_lt p.dir
  refine opCase _ 0x60 c (portNat p) rfl rfl rfl (by decide) (by unfold portNat; omega) ?_
  intro n ho hc hq
  have t138 : bf n 138 6 = p.xport.toNat := by rw [hq _ _ (by decide)]; unfold bf portNat; omega
  have t137 : bf n 137 1 = b2n p.mode := by rw [hq _ _ (by decide)]; unfold bf portNat; omega
  have t133 : bf n 133 4 = p.aop.toNat := by rw [hq _ _ (by decide)]; unfold bf portNat; omega
  have t101 : bf n 101 32 = p.seq.toNat := by rw [hq _ _ (by decide)]; unfold bf portNat; omega
  have t100 : bf n 100 1 = b2n p.dir := by rw [hq _ _ (by decide)]; unfold bf portNat; omega
  have r0 : bf n 0 100 = 0 := by rw [hq _ _ (by decide)]; unfold bf portNat; omega
  constructor <;> simp [opParamOk, decodeOpFields, portParam, bit_eq, bit_b2n, ho, hc, t138, t137, t133, t101, t100, r0]

theorem mstore (c : OpCfg) (p : PortParam) : Statement (.mstore c p) := by
  have b_p_mode := b2n_lt p.mode
  have b_p_dir := b2n_lt p.dir
  refine opCase _ 0x61 c (portNat p) rfl rfl rfl (by decide) (by unfold portNat; omega) ?_
  intro n ho hc hq
  have t138 : bf n 138 6 = p.xport.toNat := by rw [hq _ _ (by decide)]; unfold bf portNat; omega
  have t137 : bf n 137 1 = b2n p.mode := by rw [hq _ _ (by decide)]; unfold bf portNat; omega
  have t133 : bf n 133 4 = p.aop.toNat := by rw [hq _ _ (by decide)]; unfold bf portNat; omega
  have t101 : bf n 101 32 = p.seq.toNat := by rw [hq _ _ (by decide)]; unfold bf portNat; omega
  have t100 : bf n 100 1 = b2n p.dir := by rw [hq _ _ (by decide)]; unfold bf portNat; omega
  have r0 : bf n 0 100 = 0 := by rw [hq _ _ (by decide)]; unfold bf portNat; omega
  constructor <;> simp [opParamOk, decodeOpFields, portParam, bit_eq, bit_b2n, ho, hc, t138, t137, t133, t101, t100, r0]

theorem matom (c : OpCfg) (p : PortParam) : Statement (.matom c p) := by
  have b_p_mode := b2n_lt p.mode
  have b_p_dir := b2n_lt p.dir
  refine opCase _ 0x62 c (portNat p) rfl rfl rfl (by decide) (by unfold portNat; omega) ?_
  intro n ho hc hq
  have t138 : bf n 138 6 = p.xport.toNat := by rw [hq _ _ (by decide)]; unfold bf portNat; omega
  have t137 : bf n 137 1 = b2n p.mode := by rw [hq _ _ (by decide)]; unfold bf portNat; omega
  have t133 : bf n 133 4 = p.aop.toNat := by rw [hq _ _ (by decide)]; unfold bf portNat; omega
  have t101 : bf n 101 32 = p.seq.toNat := by rw [hq _ _ (by decide)]; unfold bf portNat; omega
  have t100 : bf n 100 1 = b2n p.dir := by rw [hq _ _ (by decide)]; unfold bf portNat; omega
  have r0 : bf n 0 100 = 0 := by rw [hq _ _ (by decide)]; unfold bf portNat; omega
  constructor <;> simp [opParamOk, decodeOpFields, portParam, bit_eq, bit_b2n, ho, hc, t138, t137, t133, t101, t100, r0]

theorem mvers (c : OpCfg) (p : PortParam) : Statement (.mvers c p) := by
  have b_p_mode := b2n_lt p.mode
  have b_p_dir := b2n_lt p.dir
  refine opCase _ 0x63 c (portNat p) rfl rfl rfl (by decide) (by unfold portNat; omega) ?_
  intro n ho hc hq
  have t138 : bf n 138 6 = p.xport.toNat := by rw [hq _ _ (by decide)]; unfold bf portNat; omega
  have t137 : bf n 137 1 = b2n p.mode := by rw [hq _ _ (by decide)]; unfold bf portNat; omega
  have t133 : bf n 133 4 = p.aop.toNat := by rw [hq _ _ (by decide)]; unfold bf portNat; omega
  have t101 : bf n 101 32 = p.seq.toNat := by rw [hq _ _ (by decide)]; unfold bf portNat; omega
  have t100 : bf n 100 1 = b2n p.dir := by rw [hq _ _ (by decide)]; unfold bf portNat; omega
  have r0 : bf n 0 100 = 0 := by rw [hq _ _ (by decide)]; unfold bf portNat; omega
  constructor <;> simp [opParamOk, decodeOpFields, portParam, bit_eq, bit_b2n, ho, hc, t138, t137, t133, t101, t100, r0]

theorem siding (c : OpCfg) (p : SidingParam) : Statement (.siding c p) := by
  refine opCase _ 0x70 c (p.gbase.toNat * 2 ^ 127 + p.gcnt.toNat * 2 ^ 115 + p.d.toNat * 2 ^ 83 + p.edge.toNat * 2 ^ 71) rfl rfl rfl (by decide) (by omega) ?_
  intro n ho hc hq
  have t127 : bf n 127 17 = p.gbase.toNat := by rw [hq _ _ (by decide)]; unfold bf ; omega
  have t115 : bf n 115 12 = p.gcnt.toNat := by rw [hq _ _ (by decide)]; unfold bf ; omega
  have t83 : bf n 83 32 = p.d.toNat := by rw [hq _ _ (by decide)]; unfold bf ; omega
  have t71 : bf n 71 12 = p.edge.toNat := by rw [hq _ _ (by decide)]; unfold bf ; omega
  have r0 : bf n 0 71 = 0 := by rw [hq _ _ (by decide)]; unfold bf ; omega
  constructor <;> simp [opParamOk, decodeOpFields, bit_eq, bit_b2n, ho, hc, t127, t115, t83, t71, r0]

theorem race (c : OpCfg) (e : BitVec 8) (k : BitVec 4) : Statement (.race c e k) := by
  refine opCase _ 0x71 c (e.toNat * 2 ^ 136 + k.toNat * 2 ^ 132) rfl rfl rfl (by decide) (by omega) ?_
  intro n ho hc hq
  have t136 : bf n 136 8 = e.toNat := by rw [hq _ _ (by decide)]; unfold bf ; omega
  have t132 : bf n 132 4 = k.toNat := by rw [hq _ _ (by decide)]; unfold bf ; omega
  have r0 : bf n 0 132 = 0 := by rw [hq _ _ (by decide)]; unfold bf ; omega
  constructor <;> simp [opParamOk, decodeOpFields, bit_eq, bit_b2n, ho, hc, t136, t132, r0]

theorem count (c : OpCfg) (p : CountParam) : Statement (.count c p) := by
  refine opCase _ 0x72 c (p.n.toNat * 2 ^ 128 + p.ii.toNat * 2 ^ 122 + p.dist.toNat * 2 ^ 116 + p.lev.toNat * 2 ^ 113) rfl rfl rfl (by decide) (by omega) ?_
  intro n ho hc hq
  have t128 : bf n 128 16 = p.n.toNat := by rw [hq _ _ (by decide)]; unfold bf ; omega
  have t122 : bf n 122 6 = p.ii.toNat := by rw [hq _ _ (by decide)]; unfold bf ; omega
  have t116 : bf n 116 6 = p.dist.toNat := by rw [hq _ _ (by decide)]; unfold bf ; omega
  have t113 : bf n 113 3 = p.lev.toNat := by rw [hq _ _ (by decide)]; unfold bf ; omega
  have r0 : bf n 0 113 = 0 := by rw [hq _ _ (by decide)]; unfold bf ; omega
  constructor <;> simp [opParamOk, decodeOpFields, bit_eq, bit_b2n, ho, hc, t128, t122, t116, t113, r0]

theorem merge (c : OpCfg) (p : TurnParam) : Statement (.merge c p) := by
  have b_p_byTensor := b2n_lt p.byTensor
  refine opCase _ 0x73 c (turnNat p) rfl rfl rfl (by decide) (by unfold turnNat edges4Nat; omega) ?_
  intro n ho hc hq
  have t96 : bf n 96 12 = p.ports.e4.toNat := by rw [hq _ _ (by decide)]; unfold bf turnNat edges4Nat; omega
  have t108 : bf n 108 12 = p.ports.e5.toNat := by rw [hq _ _ (by decide)]; unfold bf turnNat edges4Nat; omega
  have t120 : bf n 120 12 = p.ports.e6.toNat := by rw [hq _ _ (by decide)]; unfold bf turnNat edges4Nat; omega
  have t132 : bf n 132 12 = p.ports.e7.toNat := by rw [hq _ _ (by decide)]; unfold bf turnNat edges4Nat; omega
  have t93 : bf n 93 3 = p.m.toNat := by rw [hq _ _ (by decide)]; unfold bf turnNat edges4Nat; omega
  have t92 : bf n 92 1 = b2n p.byTensor := by rw [hq _ _ (by decide)]; unfold bf turnNat edges4Nat; omega
  have t90 : bf n 90 2 = p.dim.toNat := by rw [hq _ _ (by decide)]; unfold bf turnNat edges4Nat; omega
  have r0 : bf n 0 90 = 0 := by rw [hq _ _ (by decide)]; unfold bf turnNat edges4Nat; omega
  constructor <;> simp [opParamOk, decodeOpFields, turnParam, edges4, bit_eq, bit_b2n, ho, hc, t96, t108, t120, t132, t93, t92, t90, r0]

theorem split (c : OpCfg) (p : TurnParam) : Statement (.split c p) := by
  have b_p_byTensor := b2n_lt p.byTensor
  refine opCase _ 0x74 c (turnNat p) rfl rfl rfl (by decide) (by unfold turnNat edges4Nat; omega) ?_
  intro n ho hc hq
  have t96 : bf n 96 12 = p.ports.e4.toNat := by rw [hq _ _ (by decide)]; unfold bf turnNat edges4Nat; omega
  have t108 : bf n 108 12 = p.ports.e5.toNat := by rw [hq _ _ (by decide)]; unfold bf turnNat edges4Nat; omega
  have t120 : bf n 120 12 = p.ports.e6.toNat := by rw [hq _ _ (by decide)]; unfold bf turnNat edges4Nat; omega
  have t132 : bf n 132 12 = p.ports.e7.toNat := by rw [hq _ _ (by decide)]; unfold bf turnNat edges4Nat; omega
  have t93 : bf n 93 3 = p.m.toNat := by rw [hq _ _ (by decide)]; unfold bf turnNat edges4Nat; omega
  have t92 : bf n 92 1 = b2n p.byTensor := by rw [hq _ _ (by decide)]; unfold bf turnNat edges4Nat; omega
  have t90 : bf n 90 2 = p.dim.toNat := by rw [hq _ _ (by decide)]; unfold bf turnNat edges4Nat; omega
  have r0 : bf n 0 90 = 0 := by rw [hq _ _ (by decide)]; unfold bf turnNat edges4Nat; omega
  constructor <;> simp [opParamOk, decodeOpFields, turnParam, edges4, bit_eq, bit_b2n, ho, hc, t96, t108, t120, t132, t93, t92, t90, r0]

theorem dup (c : OpCfg) (ports : Edges4) (m : BitVec 3) : Statement (.dup c ports m) := by
  refine opCase _ 0x75 c (edges4Nat ports + m.toNat * 2 ^ 93) rfl rfl rfl (by decide) (by unfold edges4Nat; omega) ?_
  intro n ho hc hq
  have t96 : bf n 96 12 = ports.e4.toNat := by rw [hq _ _ (by decide)]; unfold bf edges4Nat; omega
  have t108 : bf n 108 12 = ports.e5.toNat := by rw [hq _ _ (by decide)]; unfold bf edges4Nat; omega
  have t120 : bf n 120 12 = ports.e6.toNat := by rw [hq _ _ (by decide)]; unfold bf edges4Nat; omega
  have t132 : bf n 132 12 = ports.e7.toNat := by rw [hq _ _ (by decide)]; unfold bf edges4Nat; omega
  have t93 : bf n 93 3 = m.toNat := by rw [hq _ _ (by decide)]; unfold bf edges4Nat; omega
  have r0 : bf n 0 93 = 0 := by rw [hq _ _ (by decide)]; unfold bf edges4Nat; omega
  constructor <;> simp [opParamOk, decodeOpFields, edges4, bit_eq, bit_b2n, ho, hc, t96, t108, t120, t132, t93, r0]

theorem gate (c : OpCfg) : Statement (.gate c) := by
  refine opCase _ 0x76 c 0 rfl rfl rfl (by decide) (by omega) ?_
  intro n ho hc hq
  have r0 : bf n 0 144 = 0 := by rw [hq _ _ (by decide)]; exact bf_zero _ _
  constructor <;> simp [opParamOk, decodeOpFields, bit_eq, bit_b2n, ho, hc, r0]

theorem select (c : OpCfg) : Statement (.select c) := by
  refine opCase _ 0x77 c 0 rfl rfl rfl (by decide) (by omega) ?_
  intro n ho hc hq
  have r0 : bf n 0 144 = 0 := by rw [hq _ _ (by decide)]; exact bf_zero _ _
  constructor <;> simp [opParamOk, decodeOpFields, bit_eq, bit_b2n, ho, hc, r0]

theorem delay (c : OpCfg) (p : DelayParam) : Statement (.delay c p) := by
  have b_p_init := b2n_lt p.init
  have b_p_carry := b2n_lt p.carry
  refine opCase _ 0x78 c (p.n.toNat * 2 ^ 134 + b2n p.init * 2 ^ 133 + p.const.toNat * 2 ^ 101 + b2n p.carry * 2 ^ 100) rfl rfl rfl (by decide) (by omega) ?_
  intro n ho hc hq
  have t134 : bf n 134 10 = p.n.toNat := by rw [hq _ _ (by decide)]; unfold bf ; omega
  have t133 : bf n 133 1 = b2n p.init := by rw [hq _ _ (by decide)]; unfold bf ; omega
  have t101 : bf n 101 32 = p.const.toNat := by rw [hq _ _ (by decide)]; unfold bf ; omega
  have t100 : bf n 100 1 = b2n p.carry := by rw [hq _ _ (by decide)]; unfold bf ; omega
  have r0 : bf n 0 100 = 0 := by rw [hq _ _ (by decide)]; unfold bf ; omega
  constructor <;> simp [opParamOk, decodeOpFields, bit_eq, bit_b2n, ho, hc, t134, t133, t101, t100, r0]

theorem stopgen (c : OpCfg) (p : StopgenParam) : Statement (.stopgen c p) := by
  refine opCase _ 0x79 c (p.run1.toNat * 2 ^ 128 + p.lev1.toNat * 2 ^ 125 + p.run2.toNat * 2 ^ 109 + p.lev2.toNat * 2 ^ 106) rfl rfl rfl (by decide) (by omega) ?_
  intro n ho hc hq
  have t128 : bf n 128 16 = p.run1.toNat := by rw [hq _ _ (by decide)]; unfold bf ; omega
  have t125 : bf n 125 3 = p.lev1.toNat := by rw [hq _ _ (by decide)]; unfold bf ; omega
  have t109 : bf n 109 16 = p.run2.toNat := by rw [hq _ _ (by decide)]; unfold bf ; omega
  have t106 : bf n 106 3 = p.lev2.toNat := by rw [hq _ _ (by decide)]; unfold bf ; omega
  have r0 : bf n 0 106 = 0 := by rw [hq _ _ (by decide)]; unfold bf ; omega
  constructor <;> simp [opParamOk, decodeOpFields, bit_eq, bit_b2n, ho, hc, t128, t125, t109, t106, r0]

theorem filter (c : OpCfg) : Statement (.filter c) := by
  refine opCase _ 0x7A c 0 rfl rfl rfl (by decide) (by omega) ?_
  intro n ho hc hq
  have r0 : bf n 0 144 = 0 := by rw [hq _ _ (by decide)]; exact bf_zero _ _
  constructor <;> simp [opParamOk, decodeOpFields, bit_eq, bit_b2n, ho, hc, r0]

theorem sortnet (c : OpCfg) (desc : Bool) : Statement (.sortnet c desc) := by
  have b_desc := b2n_lt desc
  refine opCase _ 0x7B c (b2n desc * 2 ^ 143) rfl rfl rfl (by decide) (by omega) ?_
  intro n ho hc hq
  have t143 : bf n 143 1 = b2n desc := by rw [hq _ _ (by decide)]; unfold bf ; omega
  have r0 : bf n 0 143 = 0 := by rw [hq _ _ (by decide)]; unfold bf ; omega
  constructor <;> simp [opParamOk, decodeOpFields, bit_eq, bit_b2n, ho, hc, t143, r0]

theorem wsport (c : OpCfg) (base0 : BitVec 14) (base1 : BitVec 14) (sel : Bool) : Statement (.wsport c base0 base1 sel) := by
  have b_sel := b2n_lt sel
  refine opCase _ 0x7C c (base0.toNat * 2 ^ 130 + base1.toNat * 2 ^ 116 + b2n sel * 2 ^ 115) rfl rfl rfl (by decide) (by omega) ?_
  intro n ho hc hq
  have t130 : bf n 130 14 = base0.toNat := by rw [hq _ _ (by decide)]; unfold bf ; omega
  have t116 : bf n 116 14 = base1.toNat := by rw [hq _ _ (by decide)]; unfold bf ; omega
  have t115 : bf n 115 1 = b2n sel := by rw [hq _ _ (by decide)]; unfold bf ; omega
  have r0 : bf n 0 115 = 0 := by rw [hq _ _ (by decide)]; unfold bf ; omega
  constructor <;> simp [opParamOk, decodeOpFields, bit_eq, bit_b2n, ho, hc, t130, t116, t115, r0]

theorem blockDispatch (die : Nat) (seq : Nat) (ctx : Nat) : Statement (.blockDispatch die seq ctx) := noWord _ rfl rfl rfl
theorem contextPreempt (die : Nat) : Statement (.contextPreempt die) := noWord _ rfl rfl rfl
theorem classBudgetPeriod (die : Nat) : Statement (.classBudgetPeriod die) := noWord _ rfl rfl rfl
theorem deadlineMiss (job : Nat) (idx : Nat) : Statement (.deadlineMiss job idx) := noWord _ rfl rfl rfl
theorem taskNotify (job : Nat) (idx : Nat) (gen : Nat) : Statement (.taskNotify job idx gen) := noWord _ rfl rfl rfl
theorem twaitWake (job : Nat) (idx : Nat) : Statement (.twaitWake job idx) := noWord _ rfl rfl rfl
theorem accessTimeout (p : Party) : Statement (.accessTimeout p) := noWord _ rfl rfl rfl
theorem schedulerFillIssue (job : Nat) (idx : Nat) : Statement (.schedulerFillIssue job idx) := noWord _ rfl rfl rfl
theorem schedulerFill (die : Nat) (k : Nat) : Statement (.schedulerFill die k) := noWord _ rfl rfl rfl
theorem schedulerFillRetry (die : Nat) (k : Nat) : Statement (.schedulerFillRetry die k) := noWord _ rfl rfl rfl
theorem barrierArrival (job : Nat) (die : Nat) (num : Nat) (w : BitVec 32) (err : Bool) (agent : Nat) : Statement (.barrierArrival job die num w err agent) := noWord _ rfl rfl rfl
theorem commandStart (job : Nat) (qid : Nat) : Statement (.commandStart job qid) := noWord _ rfl rfl rfl
theorem commandFinish (job : Nat) (qid : Nat) (tln : Nat) : Statement (.commandFinish job qid tln) := noWord _ rfl rfl rfl
theorem launchComplete (job : Nat) (region : Nat) : Statement (.launchComplete job region) := noWord _ rfl rfl rfl
theorem replayStart (job : Nat) (va : Word64) : Statement (.replayStart job va) := noWord _ rfl rfl rfl
theorem nodeComplete (job : Nat) (va : Word64) (node : Nat) : Statement (.nodeComplete job va node) := noWord _ rfl rfl rfl
theorem staffSend (job : Nat) (sc : BitVec 3) (die : Nat) : Statement (.staffSend job sc die) := noWord _ rfl rfl rfl
theorem staffReceive (job : Nat) (sc : BitVec 3) (sdie : Nat) (ddie : Nat) : Statement (.staffReceive job sc sdie ddie) := noWord _ rfl rfl rfl
theorem versionPublish (k : Nat) : Statement (.versionPublish k) := noWord _ rfl rfl rfl
theorem versionRetire (job : Nat) (a : Word64) (n_ : BitVec 32) : Statement (.versionRetire job a n_) := noWord _ rfl rfl rfl
theorem reductionContribution (k : Nat) : Statement (.reductionContribution k) := noWord _ rfl rfl rfl
theorem refreshWindowEnd (die : Nat) (bank : Nat) : Statement (.refreshWindowEnd die bank) := noWord _ rfl rfl rfl
theorem hangDetect (job : Nat) (region : Nat) : Statement (.hangDetect job region) := noWord _ rfl rfl rfl
theorem txChunkDecoded (job : Nat) (qid : Nat) (tln : Nat) (k : Nat) : Statement (.txChunkDecoded job qid tln k) := noWord _ rfl rfl rfl
theorem collMembersMatched (job : Nat) (id : Nat) : Statement (.collMembersMatched job id) := noWord _ rfl rfl rfl
theorem preemptWatchdog (job : Nat) (region : Nat) : Statement (.preemptWatchdog job region) := noWord _ rfl rfl rfl
theorem regionTrapStop (job : Nat) (region : Nat) : Statement (.regionTrapStop job region) := noWord _ rfl rfl rfl
theorem configSoftError (job : Nat) (region : Nat) : Statement (.configSoftError job region) := noWord _ rfl rfl rfl
theorem jobSubmit (port : Nat) (v : Word64) : Statement (.jobSubmit port v) := noWord _ rfl rfl rfl
theorem jobStart (job : Nat) : Statement (.jobStart job) := noWord _ rfl rfl rfl
theorem jobEnd (job : Nat) : Statement (.jobEnd job) := noWord _ rfl rfl rfl
theorem jobCancel (port : Nat) (job : Nat) : Statement (.jobCancel port job) := noWord _ rfl rfl rfl
theorem jobRelease (port : Nat) (job : Nat) : Statement (.jobRelease port job) := noWord _ rfl rfl rfl
theorem jobRetire (port : Nat) (job : Nat) : Statement (.jobRetire port job) := noWord _ rfl rfl rfl
theorem jobres (port : Nat) : Statement (.jobres port) := noWord _ rfl rfl rfl
theorem intstat (port : Nat) (v : Word64) : Statement (.intstat port v) := noWord _ rfl rfl rfl
theorem semWrite (port : Nat) (n_ : Nat) (v : Word64) : Statement (.semWrite port n_ v) := noWord _ rfl rfl rfl
theorem windata (port : Nat) (v : Word64) : Statement (.windata port v) := noWord _ rfl rfl rfl
theorem registerWrite (port : Nat) (off : Nat) (v : Word64) : Statement (.registerWrite port off v) := noWord _ rfl rfl rfl
theorem apertureAccess (port : Nat) (off : Nat) (write : Bool) (v : Word64) : Statement (.apertureAccess port off write v) := noWord _ rfl rfl rfl
theorem hostPortReset (port : Nat) : Statement (.hostPortReset port) := noWord _ rfl rfl rfl
theorem trunkCellReceive (sdie : Nat) (ddie : Nat) (cell : BitVec 512) (good : Bool) : Statement (.trunkCellReceive sdie ddie cell good) := noWord _ rfl rfl rfl
theorem linkDown (d1 : Nat) (d2 : Nat) : Statement (.linkDown d1 d2) := noWord _ rfl rfl rfl
theorem timeExchange (die : Nat) : Statement (.timeExchange die) := noWord _ rfl rfl rfl
theorem treq (die : Nat) : Statement (.treq die) := noWord _ rfl rfl rfl
theorem trsp (die : Nat) : Statement (.trsp die) := noWord _ rfl rfl rfl
theorem tfup (die : Nat) : Statement (.tfup die) := noWord _ rfl rfl rfl
theorem faultRecordPost (die : Nat) : Statement (.faultRecordPost die) := noWord _ rfl rfl rfl
theorem pgdoneRetry (die : Nat) (token : Nat) : Statement (.pgdoneRetry die token) := noWord _ rfl rfl rfl
theorem pgdonePage (die : Nat) (token : Nat) : Statement (.pgdonePage die token) := noWord _ rfl rfl rfl
theorem pgdoneNoframe (die : Nat) (token : Nat) : Statement (.pgdoneNoframe die token) := noWord _ rfl rfl rfl
theorem pgswap (die : Nat) : Statement (.pgswap die) := noWord _ rfl rfl rfl
theorem swapComplete (die : Nat) : Statement (.swapComplete die) := noWord _ rfl rfl rfl
theorem unmap : Statement .unmap := noWord _ rfl rfl rfl
theorem migrate : Statement .migrate := noWord _ rfl rfl rfl
theorem powerOn : Statement .powerOn := noWord _ rfl rfl rfl
theorem fence (die : Nat) : Statement (.fence die) := noWord _ rfl rfl rfl
theorem seqrst (die : Nat) : Statement (.seqrst die) := noWord _ rfl rfl rfl
theorem mgmtWatchdog (die : Nat) : Statement (.mgmtWatchdog die) := noWord _ rfl rfl rfl
theorem report (port : Nat) : Statement (.report port) := noWord _ rfl rfl rfl
theorem update (port : Nat) : Statement (.update port) := noWord _ rfl rfl rfl
theorem setbudget (port : Nat) : Statement (.setbudget port) := noWord _ rfl rfl rfl
theorem getbudget (port : Nat) : Statement (.getbudget port) := noWord _ rfl rfl rfl
theorem telemetry (port : Nat) : Statement (.telemetry port) := noWord _ rfl rfl rfl
theorem log (port : Nat) : Statement (.log port) := noWord _ rfl rfl rfl
theorem reset (port : Nat) : Statement (.reset port) := noWord _ rfl rfl rfl
theorem rcvgo (port : Nat) : Statement (.rcvgo port) := noWord _ rfl rfl rfl
theorem budgetPeriodStart (die : Nat) : Statement (.budgetPeriodStart die) := noWord _ rfl rfl rfl
theorem powerCheck (die : Nat) : Statement (.powerCheck die) := noWord _ rfl rfl rfl
theorem schedulerFillComplete (die : Nat) (k : Nat) : Statement (.schedulerFillComplete die k) := noWord _ rfl rfl rfl
theorem grandmasterLock (t : Word64) : Statement (.grandmasterLock t) := noWord _ rfl rfl rfl
theorem linkRetrain (d1 : Nat) (d2 : Nat) (ok : Bool) : Statement (.linkRetrain d1 d2 ok) := noWord _ rfl rfl rfl
theorem externalSwitchResult (job : Nat) (a : Word64) (reduce : Bool) (w : Bool) (op : BitVec 4) (seq : BitVec 32) (v : Word64) : Statement (.externalSwitchResult job a reduce w op seq v) := noWord _ rfl rfl rfl
theorem switchBoundaryComplete (job : Nat) (sc : BitVec 3) (die : Nat) : Statement (.switchBoundaryComplete job sc die) := noWord _ rfl rfl rfl

end Sys2Proof.Laws.RoundTrip
end

