-- ==== Sys2Proof/Safety.lean ====
section
/-! DEFINITION. What claims say of runs: stretches without a stop, the form in which memory is held, and what a committed
write leaves in it. -/

namespace Sys2Proof.Machine

/-- `k` steps end in a next state. -/
def runs (s : State) : Nat → Option State
  | 0 => some s
  | k + 1 =>
    match step s with
    | .next t => runs t k
    | .fault _ => none
    | .refused _ => none

/-- Memory is in its canonical form. -/
def State.memOk (s : State) : Bool := s.mem.wf

/-- WVER of each of the page leaves at `ls` counts a write (05_memory.md R122, 21_paging.md R394). -/
def Memory.counted (m : Memory) (ls : List Nat) : Memory :=
  ls.eraseDups.foldl (fun m l =>
    m.writeCells (cells (upFrom (l + 12) 4) (toBytes 4 (ofBytes ((upFrom (l + 12) 4).map m.read) + 1)))) m

/-- Memory behind a write of `bs` at the translated bytes `ts`: the page leaves that lead there count it, the bytes hold
what was written, and no other byte differs. -/
def Memory.landed (m : Memory) (ts : List Trans) (bs : List Byte) : Memory :=
  (m.counted (ts.filterMap (fun t => t.leaf))).writeCells (cells (ts.map (fun t => t.loc)) bs)

end Sys2Proof.Machine
end

