-- ==== Sys2Proof/Certificates/Slice0/Obligations.lean ====
section
/-! DEFINITION. The statements for the provers: each `Obligations.<Name>` says in its docstring which rules of the
manual it formalises. The helpers of the namespace `Sys2Proof.Claims` only abbreviate what several statements say. -/

namespace Sys2Proof.Claims

open Sys2Proof.Machine

/-! ### Instructions of a running context -/

/-- `t` is `s` with the context whose turn it is become `c'`, and nothing else changed: no other context, no byte of memory,
and no other field of the state. -/
def MovedTo (s : State) (c' : Ctx) (t : State) : Prop :=
  t.cur = some c' ∧ (∀ d q k, ¬(d = c'.die ∧ q = c'.seq ∧ k = c'.ctx) → t.ctx? d q k = s.ctx? d q k) ∧
    { t with ctxs := s.ctxs } = s ∧ ∀ l, t.mem.read l = s.mem.read l

/-- `exec i s` answers a next state in which the context whose turn it is has become `c'`, and NOTHING else of the
package has changed: no other context, no byte of memory, and no other field of the state. -/
def Moves (i : Instr) (s : State) (c' : Ctx) : Prop := ∃ t, exec i s = .next t ∧ MovedTo s c' t

/-- `r'` is `r` with g register `d` holding `v`, its taint `t` and what the taint orders `w`; a write to g0 has no
effect. Every other register, condition, f register and FPCTL is unchanged. -/
def SetsG (r r' : RegFile) (d : GReg) (v : Word64) (t : Bool) (w : View) : Prop :=
  (d ≠ 0 → r'.rdG d = v ∧ r'.rdTaint d = t ∧ r'.rdTview d = w) ∧ r'.rdG 0 = 0 ∧ r'.rdTaint 0 = false ∧
    (∀ k, k ≠ d → r'.rdG k = r.rdG k ∧ r'.rdTaint k = r.rdTaint k ∧ r'.rdTview k = r.rdTview k) ∧
    r'.c = r.c ∧ r'.f = r.f ∧ r'.fpctl = r.fpctl

/-- `r'` is `r` with c register `d` holding `v`; a write to c0 has no effect. -/
def SetsC (r r' : RegFile) (d : CReg) (v : Bool) : Prop :=
  (d ≠ 0 → r'.rdC d = v) ∧ r'.rdC 0 = true ∧ (∀ k, k ≠ d → r'.rdC k = r.rdC k) ∧
    r'.g = r.g ∧ r'.taint = r.taint ∧ r'.tview = r.tview ∧ r'.f = r.f ∧ r'.fpctl = r.fpctl

/-- `r'` is `r` with f register `d` holding a code of a format in its low bits and 0 above it. -/
def SetsF (r r' : RegFile) (d : FReg) (f : FFmt) (code : Nat) : Prop :=
  r'.rdF d = BitVec.ofNat 64 (code % 2 ^ f.width) ∧ (∀ k, k ≠ d → r'.rdF k = r.rdF k) ∧
    r'.g = r.g ∧ r'.taint = r.taint ∧ r'.tview = r.tview ∧ r'.c = r.c ∧ r'.fpctl = r.fpctl

/-- The instruction writes g register `d` with a value tainted as registers `a` and `b` are, and goes on. -/
def GivesG2 (i : Instr) (s : State) (c : Ctx) (d : GReg) (v : Word64) (a b : GReg) : Prop :=
  ∃ r', SetsG c.regs r' d v (c.regs.rdTaint a || c.regs.rdTaint b) (unionNat (c.regs.rdTview a) (c.regs.rdTview b)) ∧
    Moves i s { c with regs := r', ip := c.ip + 1 }

/-- The instruction writes g register `d` with a value tainted as register `a` is, and goes on. -/
def GivesG1 (i : Instr) (s : State) (c : Ctx) (d : GReg) (v : Word64) (a : GReg) : Prop :=
  ∃ r', SetsG c.regs r' d v (c.regs.rdTaint a) (c.regs.rdTview a) ∧ Moves i s { c with regs := r', ip := c.ip + 1 }

/-- The instruction writes g register `d` with an untainted value, and goes on. -/
def GivesG (i : Instr) (s : State) (c : Ctx) (d : GReg) (v : Word64) : Prop :=
  ∃ r', SetsG c.regs r' d v false [] ∧ Moves i s { c with regs := r', ip := c.ip + 1 }

/-- The instruction writes c register `d`, and goes on. -/
def GivesC (i : Instr) (s : State) (c : Ctx) (d : CReg) (v : Bool) : Prop :=
  ∃ r', SetsC c.regs r' d v ∧ Moves i s { c with regs := r', ip := c.ip + 1 }

/-- The instruction writes f register `d` with a code of format `f`, and goes on. -/
def GivesF (i : Instr) (s : State) (c : Ctx) (d : FReg) (f : FFmt) (code : Nat) : Prop :=
  ∃ r', SetsF c.regs r' d f code ∧ Moves i s { c with regs := r', ip := c.ip + 1 }

/-- Width of an ALU form: 32 for a `w` form, else 64. -/
def nw (w : Bool) : Nat := if w then 32 else 64

/-- The low n bits of a register. -/
def lo (w : Bool) (x : Word64) : BitVec (nw w) := x.setWidth (nw w)

/-- A result of an ALU form: the 64 bits, or the low 32 sign-extended. -/
def wide {w : Bool} (x : BitVec (nw w)) : Word64 := x.signExtend 64

end Sys2Proof.Claims

section Statements

open Sys2Proof Sys2Proof.Machine Sys2Proof.Claims

/-! ### Registers and the integer group -/

/-- R198: a write to g0 or to c0 has no effect, g0 reads 0 and its taint reads 0, c0 reads 1; another register reads
what was last written to it, and a write leaves every other register alone. An f register is read in the low bits of a
format's width, and a result written to it has 0 above them. -/
def Obligations.RegisterFile : Prop :=
  (∀ (r : RegFile) (d : GReg) (v : Word64) (t : Bool) (w : View),
    (d = 0 → r.setG d v t w = r) ∧ SetsG r (r.setG d v t w) d v t (if t then w else [])) ∧
  (∀ (r : RegFile) (d : CReg) (v : Bool), (d = 0 → r.setC d v = r) ∧ SetsC r (r.setC d v) d v) ∧
  (∀ (r : RegFile) (d : FReg) (f : FFmt) (code : Nat), SetsF r (r.setF d f code) d f code ∧
    (r.setF d f code).codeF d f = code % 2 ^ f.width ∧ r.codeF d f = (r.rdF d).toNat % 2 ^ f.width)

/-- R203: the integer group on the low n bits of two registers, n = 64, or 32 with the result sign-extended from bit
31; the result is tainted as the sources are (R153), and nothing else changes. -/
def Sys2Proof.Claims.IntegerResults : Prop :=
  ∀ (s : State) (c : Ctx) (d a b : GReg) (w : Bool), s.cur = some c →
    let x := lo w (c.regs.rdG a)
    let y := lo w (c.regs.rdG b)
    GivesG2 (.add d a b w) s c d (wide (x + y)) a b ∧
    GivesG2 (.sub d a b w) s c d (wide (x - y)) a b ∧
    GivesG2 (.and d a b w) s c d (wide (x &&& y)) a b ∧
    GivesG2 (.or d a b w) s c d (wide (x ||| y)) a b ∧
    GivesG2 (.xor d a b w) s c d (wide (x ^^^ y)) a b ∧
    GivesG2 (.andn d a b w) s c d (wide (x &&& ~~~y)) a b ∧
    GivesG2 (.shl d a b w) s c d (wide (x <<< (y.toNat % nw w))) a b ∧
    GivesG2 (.shr d a b w) s c d (wide (x >>> (y.toNat % nw w))) a b ∧
    GivesG2 (.sar d a b w) s c d (wide (x.sshiftRight (y.toNat % nw w))) a b ∧
    GivesG2 (.mul d a b w) s c d (wide (x * y)) a b ∧
    GivesG2 (.mulh d a b w) s c d (wide (BitVec.ofInt (nw w) (x.toInt * y.toInt / 2 ^ nw w))) a b ∧
    GivesG2 (.mulhu d a b w) s c d (wide (BitVec.ofNat (nw w) (x.toNat * y.toNat / 2 ^ nw w))) a b ∧
    GivesG2 (.min d a b w) s c d (wide (if x.sle y then x else y)) a b ∧
    GivesG2 (.max d a b w) s c d (wide (if y.sle x then x else y)) a b ∧
    GivesG2 (.minu d a b w) s c d (wide (if x ≤ y then x else y)) a b ∧
    GivesG2 (.maxu d a b w) s c d (wide (if y ≤ x then x else y)) a b

/-- R203: `clz` and `ctz` count the zeros before the first one bit from the top and from the bottom, n when there is
none; `popc` counts the one bits; `brev` reverses the bits. -/
def Sys2Proof.Claims.UnaryResults : Prop :=
  ∀ (s : State) (c : Ctx) (d a : GReg) (w : Bool), s.cur = some c →
    let x := lo w (c.regs.rdG a)
    (∃ k ≤ nw w, (∀ j < k, x.getLsbD (nw w - 1 - j) = false) ∧ (k < nw w → x.getLsbD (nw w - 1 - k) = true) ∧
      GivesG1 (.clz d a w) s c d (wide (w := w) (BitVec.ofNat _ k)) a) ∧
    (∃ k ≤ nw w, (∀ j < k, x.getLsbD j = false) ∧ (k < nw w → x.getLsbD k = true) ∧
      GivesG1 (.ctz d a w) s c d (wide (w := w) (BitVec.ofNat _ k)) a) ∧
    GivesG1 (.popc d a w) s c d
      (wide (w := w) (BitVec.ofNat _ ((List.range (nw w)).countP (fun j => x.getLsbD j)))) a ∧
    GivesG1 (.brev d a w) s c d (wide x.reverse) a

/-- R204, R202: `div` rounds toward zero and `rem` takes the sign of the dividend; a divisor of 0 gives all ones and
raises IDZ, flag 6, which no enable makes a trap; the overflow of the most negative number by -1 gives that number and
the remainder 0. -/
def Obligations.Division : Prop :=
  ∀ (s : State) (c : Ctx) (d a b : GReg) (w : Bool), s.cur = some c →
    let x := lo w (c.regs.rdG a)
    let y := lo w (c.regs.rdG b)
    let res (q : BitVec (nw w)) : Word64 := wide (if y = 0 then BitVec.allOnes (nw w) else q)
    let gives (i : Instr) (v : Word64) : Prop := ∃ r',
      SetsG c.regs r' d v (c.regs.rdTaint a || c.regs.rdTaint b) (unionNat (c.regs.rdTview a) (c.regs.rdTview b)) ∧
      Moves i s { c with regs := r', ip := c.ip + 1, raised := if y = 0 then c.raised ||| 64#8 else c.raised }
    gives (.div d a b w) (res (x.sdiv y)) ∧ gives (.divu d a b w) (res (x / y)) ∧
    gives (.rem d a b w) (res (x.srem y)) ∧ gives (.remu d a b w) (res (x % y))

/-- R205-R208: the immediate group on all 64 bits. -/
def Sys2Proof.Claims.ImmediateResults : Prop :=
  ∀ (s : State) (c : Ctx) (d a : GReg) (n : BitVec 16) (sh : BitVec 6) (k : BitVec 21), s.cur = some c →
    let x := c.regs.rdG a
    GivesG1 (.addi d a n) s c d (x + n.signExtend 64) a ∧
    GivesG1 (.andi d a n) s c d (x &&& n.zeroExtend 64) a ∧
    GivesG1 (.ori d a n) s c d (x ||| n.zeroExtend 64) a ∧
    GivesG1 (.xori d a n) s c d (x ^^^ n.zeroExtend 64) a ∧
    GivesG1 (.shli d a sh) s c d (x <<< sh.toNat) a ∧
    GivesG1 (.shri d a sh) s c d (x >>> sh.toNat) a ∧
    GivesG1 (.sari d a sh) s c d (x.sshiftRight sh.toNat) a ∧
    GivesG (.lim d k) s c d (k.signExtend 64) ∧
    GivesG1 (.lsh d n) s c d ((c.regs.rdG d <<< 16) ||| n.zeroExtend 64) d

/-- R209-R211: compares write one c register, and the condition logic reads c0 as 1. -/
def Obligations.CompareResults : Prop :=
  ∀ (s : State) (c : Ctx) (d p q : CReg) (a b : GReg) (w : Bool) (n : BitVec 16), s.cur = some c →
    let x := lo w (c.regs.rdG a)
    let y := lo w (c.regs.rdG b)
    let u := c.regs.rdG a
    let k := n.signExtend 64
    GivesC (.cmp d a b w .eq) s c d (decide (x = y)) ∧
    GivesC (.cmp d a b w .ne) s c d (decide (x ≠ y)) ∧
    GivesC (.cmp d a b w .lt) s c d (x.slt y) ∧
    GivesC (.cmp d a b w .ge) s c d (y.sle x) ∧
    GivesC (.cmp d a b w .ltu) s c d (x.ult y) ∧
    GivesC (.cmp d a b w .geu) s c d (y.ule x) ∧
    GivesC (.cmpi .eq d a n) s c d (decide (u = k)) ∧
    GivesC (.cmpi .ne d a n) s c d (decide (u ≠ k)) ∧
    GivesC (.cmpi .lt d a n) s c d (u.slt k) ∧
    GivesC (.cmpi .ltu d a n) s c d (u.ult k) ∧
    GivesC (.cand d p q) s c d (c.regs.rdC p && c.regs.rdC q) ∧
    GivesC (.cor d p q) s c d (c.regs.rdC p || c.regs.rdC q) ∧
    GivesC (.cxor d p q) s c d (c.regs.rdC p != c.regs.rdC q) ∧
    GivesC (.cnot d p) s c d (!c.regs.rdC p)

/-- R212-R214: `sel` carries the taint of both sources whichever it chooses; `untaint` and `istaint` give untainted
results. -/
def Sys2Proof.Claims.SelectAddressTaint : Prop :=
  ∀ (s : State) (c : Ctx) (d a b : GReg) (p : CReg) (sh : BitVec 3), s.cur = some c →
    GivesG2 (.sel d a b p) s c d (if c.regs.rdC p then c.regs.rdG a else c.regs.rdG b) a b ∧
    GivesG2 (.lea d a b sh) s c d (c.regs.rdG a + (c.regs.rdG b <<< sh.toNat)) a b ∧
    GivesG (.untaint d a) s c d (c.regs.rdG a) ∧
    GivesG (.istaint d a) s c d (if c.regs.rdTaint a then 1 else 0)

/-- R203: the integer group on the low n bits of two registers, n = 64, or 32 with the result sign-extended from bit
31; the result is tainted as the sources are (R153), and nothing else changes. R203: `clz` and `ctz` count the zeros
before the first one bit from the top and from the bottom, n when there is none; `popc` counts the one bits; `brev`
reverses the bits. -/
def Obligations.IntegerGroup : Prop := Claims.IntegerResults ∧ Claims.UnaryResults

/-- R205-R208: the immediate group on all 64 bits. R212-R214: `sel` carries the taint of both sources whichever it
chooses; `untaint` and `istaint` give untainted results. -/
def Obligations.ImmediatesAndAddresses : Prop := Claims.ImmediateResults ∧ Claims.SelectAddressTaint

/-! ### Floating point -/

namespace Sys2Proof.Claims

open Sys2Proof.Machine

/-- A floating-point instruction that raises the flags `fl` under rounding code `m` and gives `r'`: with a flag whose
trap enable is 1 it faults with FP_TRAP (0x0D), DETAIL as R200 lays it out; else its flags are recorded and the context
goes on. -/
def Floats (i : Instr) (s : State) (c : Ctx) (m fl : Nat) (ok : RegFile → Prop) : Prop :=
  if fl &&& bf c.regs.fpctl.toNat 11 5 = 0 then
    ∃ r', ok r' ∧ Moves i s { c with regs := r', ip := c.ip + 1, raised := c.raised ||| BitVec.ofNat 8 fl }
  else exec i s = .next (s.trapTask c 0x0D 0 (c.ip + fl * 2 ^ 8 + m * 2 ^ 16))

/-- The rounding code of an instruction: DYN takes FPCTL.RM, bits 10:8. -/
def modeOf (r : FRnd) (fpctl : BitVec 16) : Nat :=
  match r with
  | .rne => 0
  | .rtz => 1
  | .rdn => 2
  | .rup => 3
  | .dyn => bf fpctl.toNat 8 3

/-- The rational number that an exact value stands for. -/
def ratOf (x : Ex) : Rat := if x.neg then -((x.num : Rat) / (x.den : Rat)) else (x.num : Rat) / (x.den : Rat)

/-- The integer that a kind reads from a register. -/
def kindOf (k : IKind) (x : Word64) : Int :=
  match k with
  | .i64 => x.toInt
  | .u64 => x.toNat
  | .i32 => (x.setWidth 32).toInt
  | .u32 => (x.setWidth 32).toNat

/-- MIN and MAX of a kind. -/
def kindBounds (k : IKind) : Int × Int :=
  match k with
  | .i64 => (-2 ^ 63, 2 ^ 63 - 1)
  | .u64 => (0, 2 ^ 64 - 1)
  | .i32 => (-2 ^ 31, 2 ^ 31 - 1)
  | .u32 => (0, 2 ^ 32 - 1)

end Sys2Proof.Claims

/-- R217, R216, R220, R222: the exact result of the operands is rounded once to the format, and written with 0 above
it; the flags of the operation and of the rounding are recorded, or make FP_TRAP (R200). -/
def Sys2Proof.Claims.FloatArithmetic : Prop :=
  ∀ (s : State) (c : Ctx) (d a b : FReg) (g : GReg) (f src : FFmt) (k : IKind) (r : FRnd), s.cur = some c →
    let m := modeOf r c.regs.fpctl
    let x := c.regs.valF a f
    let y := c.regs.valF b f
    let gives (i : Instr) (v : FVal × Nat) : Prop :=
      Floats i s c m (v.2 ||| (roundF f.fmt m 0 .ieee v.1).2)
        (fun r' => SetsF c.regs r' d f (roundF f.fmt m 0 .ieee v.1).1)
    gives (.fadd d a b f r) (addV x y (m == 2)) ∧
    gives (.fsub d a b f r) (addV x (negV y) (m == 2)) ∧
    gives (.fmul d a b f r) (mulV x y) ∧
    gives (.fdiv d a b f r) (divV x y) ∧
    gives (.fsqrt d a f r) (sqrtV x) ∧
    gives (.fmac d a b f r) (fmaV x y (c.regs.valF d f) (m == 2)) ∧
    gives (.fcvt d a src f r) (c.regs.valF a src, 0) ∧
    gives (.icvtf d g k f r) (.fin (Ex.ofInt (kindOf k (c.regs.rdG g))), 0)

/-- R221: `fcvti` gives 0 and NV for a NaN, the kind's bound and NV outside its range, and else the integer to which
the mode rounds, with NX when that is not exact. -/
def Obligations.FloatToInteger : Prop :=
  decodeScalar 0x4064124B = .ok (.fcvti 3 4 .i32 .f32 .rtz) ∧
  ∀ (s : State) (c : Ctx) (d : GReg) (a : FReg) (f : FFmt) (k : IKind) (r : FRnd), s.cur = some c →
    let m := modeOf r c.regs.fpctl
    let lo := (kindBounds k).1
    let hi := (kindBounds k).2
    let gives (v : Int) (fl : Nat) : Prop :=
      Floats (.fcvti d a k f r) s c m fl (fun r' => SetsG c.regs r' d (BitVec.ofInt 64 v) false [])
    match c.regs.valF a f with
    | .nan => gives 0 16
    | .inf neg => gives (if neg then lo else hi) 16
    | .fin x =>
      let q := roundQ m 0 x.neg x.num x.den
      let t : Int := if x.neg then -(q.1 : Int) else q.1
      if hi < t then gives hi 16 else if t < lo then gives lo 16 else gives t (if q.2 then 1 else 0)

/-- R217, R216: what is rounded. For finite operands it is the rational sum, product, quotient, or product and sum together; of
a square root it is the root where that lies on a grid finer than 2^-160, else the middle of the cell of the grid in which it
lies. The invalid operations give a NaN and NV (16), and a finite non-zero number over a zero gives a signed infinity and DZ
(8). A sum of zero keeps the sign that its operands share, else it is positive, negative under RDN; a product or quotient has
the sign of its operands, and rounding keeps the sign of a zero. A comparison of finite values is that of the rationals. -/
def Sys2Proof.Claims.FloatExactValues : Prop :=
  (∀ (x y : Ex) (z : Bool), x.den ≠ 0 → y.den ≠ 0 →
    (∃ v, addV (.fin x) (.fin y) z = (.fin v, 0) ∧ v.den ≠ 0 ∧ ratOf v = ratOf x + ratOf y ∧
      (v.num = 0 → v.neg = if x.neg = y.neg then x.neg else z)) ∧
    (∃ v, mulV (.fin x) (.fin y) = (.fin v, 0) ∧ v.den ≠ 0 ∧ ratOf v = ratOf x * ratOf y ∧ v.neg = (x.neg != y.neg)) ∧
    (y.num ≠ 0 → ∃ v, divV (.fin x) (.fin y) = (.fin v, 0) ∧ v.den ≠ 0 ∧ ratOf v = ratOf x / ratOf y ∧
      v.neg = (x.neg != y.neg)) ∧
    (∀ u : Ex, u.den ≠ 0 → ∃ v, fmaV (.fin x) (.fin y) (.fin u) z = (.fin v, 0) ∧ v.den ≠ 0 ∧
      ratOf v = ratOf x * ratOf y + ratOf u ∧ (v.num = 0 → v.neg = if (x.neg != y.neg) = u.neg then u.neg else z)) ∧
    (x.num ≠ 0 → x.neg = false → ∃ (v : Ex) (n : Nat), sqrtV (.fin x) = (.fin v, 0) ∧ v.den ≠ 0 ∧ v.neg = false ∧
      let g : Rat := 1 / (x.den * 2 ^ (160 + x.den.log2) : Nat)
      (n * g) ^ 2 ≤ ratOf x ∧ ratOf x < ((n + 1) * g) ^ 2 ∧
        ratOf v = if (n * g) ^ 2 = ratOf x then n * g else (n + 1 / 2) * g) ∧
    (∀ (f : FFmt) (m : Nat), x.num = 0 →
      roundF f.fmt m 0 .ieee (.fin x) = (if x.neg then 2 ^ (f.width - 1) else 0, 0)) ∧
    (y.num = 0 → x.num ≠ 0 → divV (.fin x) (.fin y) = (.inf (x.neg != y.neg), 8)) ∧
    (y.num = 0 → x.num = 0 → divV (.fin x) (.fin y) = (.nan, 16)) ∧
    (x.num = 0 → sqrtV (.fin x) = (.fin x, 0)) ∧
    (x.num ≠ 0 → x.neg = true → sqrtV (.fin x) = (.nan, 16)) ∧
    (ltV (.fin x) (.fin y) = true ↔ ratOf x < ratOf y) ∧ (eqV (.fin x) (.fin y) = true ↔ ratOf x = ratOf y)) ∧
  (∀ (x : Ex) (p q z : Bool),
    addV (.inf p) (.inf q) z = (if p = q then (.inf p, 0) else (.nan, 16)) ∧
    addV (.inf p) (.fin x) z = (.inf p, 0) ∧ addV (.fin x) (.inf p) z = (.inf p, 0) ∧
    (x.num = 0 → mulV (.inf p) (.fin x) = (.nan, 16) ∧ mulV (.fin x) (.inf p) = (.nan, 16)) ∧
    (x.num ≠ 0 → mulV (.inf p) (.fin x) = (.inf (p != x.neg), 0) ∧ mulV (.fin x) (.inf p) = (.inf (x.neg != p), 0)) ∧
    divV (.inf p) (.inf q) = (.nan, 16) ∧ divV (.inf p) (.fin x) = (.inf (p != x.neg), 0) ∧
    (∃ v, divV (.fin x) (.inf p) = (.fin v, 0) ∧ v.num = 0 ∧ v.neg = (x.neg != p)) ∧
    sqrtV (.inf p) = (if p then (.nan, 16) else (.inf false, 0))) ∧
  (∀ (x : FVal) (z : Bool),
    addV .nan x z = (.nan, 0) ∧ addV x .nan z = (.nan, 0) ∧ mulV .nan x = (.nan, 0) ∧ mulV x .nan = (.nan, 0) ∧
    divV .nan x = (.nan, 0) ∧ divV x .nan = (.nan, 0) ∧ sqrtV .nan = (.nan, 0)) ∧
  (∀ (x y u : FVal) (z : Bool), fmaV x y .nan z = (.nan, 0) ∧
    (u ≠ .nan → (mulV x y).2 = 0 → fmaV x y u z = addV (mulV x y).1 u z) ∧
    (u ≠ .nan → (mulV x y).2 ≠ 0 → fmaV x y u z = (.nan, 16)))

/-- R218, R219, R223, R224: moves, signs, minimum and maximum write an operand's bits unchanged or the canonical NaN,
compares write a condition; none of them raises a flag. -/
def Obligations.FloatMoves : Prop :=
  ∀ (s : State) (c : Ctx) (d a b : FReg) (g : GReg) (p : CReg) (f : FFmt), s.cur = some c →
    let x := c.regs.codeF a f
    let y := c.regs.codeF b f
    let u := decodeF f.fmt x
    let v := decodeF f.fmt y
    let nan := f.fmt.nanCode
    let abs := x % 2 ^ (f.width - 1)
    GivesF (.fmin d a b f) s c d f
      (if u.isNaN && v.isNaN then nan else if u.isNaN then y else if v.isNaN then x else if ltZ v u then y else x) ∧
    GivesF (.fmax d a b f) s c d f
      (if u.isNaN && v.isNaN then nan else if u.isNaN then y else if v.isNaN then x else if ltZ u v then y else x) ∧
    GivesF (.fneg d a f) s c d f
      (if u.isNaN then nan else if x < 2 ^ (f.width - 1) then x + 2 ^ (f.width - 1) else abs) ∧
    GivesF (.fabs d a f) s c d f (if u.isNaN then nan else abs) ∧
    GivesG (.fmvg g a f) s c g (BitVec.ofNat 64 x) ∧
    GivesF (.gmvf d g f) s c d f (c.regs.rdG g).toNat ∧
    GivesC (.fcmp p a b f .eq) s c p (eqV u v) ∧
    GivesC (.fcmp p a b f .lt) s c p (ltV u v) ∧
    GivesC (.fcmp p a b f .le) s c p (ltV u v || eqV u v) ∧
    GivesC (.fcmp p a b f .unord) s c p (u.isNaN || v.isNaN)

/-- R217, R216, R220, R222: the exact result of the operands is rounded once to the format, and written with 0 above
it; the flags of the operation and of the rounding are recorded, or make FP_TRAP (R200). R217, R216: what is
rounded. For finite operands it is the rational sum, product, quotient, or product and sum together; of a square
root it is the root where that lies on a grid finer than 2^-160, else the middle of the cell of the grid in which it
lies. The invalid operations give a NaN and NV (16), and a finite non-zero number over a zero gives a signed
infinity and DZ (8). A sum of zero keeps the sign that its operands share, else it is positive, negative under RDN;
a product or quotient has the sign of its operands, and rounding keeps the sign of a zero. A comparison of finite
values is that of the rationals. -/
def Obligations.FloatArithmeticAndValues : Prop := Claims.FloatArithmetic ∧ Claims.FloatExactValues

/-! ### Scalar memory -/

namespace Sys2Proof.Claims

open Sys2Proof.Machine

/-- The access of `w` bytes at `va` by a context is below 2^56, aligned, comes to its bytes `ts` (R235), and finds its budget of
host DMA unspent where it goes to a host (R424, R425). -/
def Reaches (s : State) (c : Ctx) (kind : AccKind) (va w : Nat) (ts : List Trans) : Prop :=
  va < 2 ^ 56 ∧ va % w = 0 ∧ s.access c.die c.job (s.jobRanges c.job) kind va w = .ok ts ∧ (s.dmaPass c ts).isSome

/-- `exec i s` answers a next state in which the context has become `c'`, the access to `ts` has drawn its budget, and NOTHING
else has changed. What is drawn is nothing where no byte lies on a host (`AccessChecks`). -/
def Draws (i : Instr) (s : State) (c : Ctx) (ts : List Trans) (c' : Ctx) : Prop :=
  ∃ t, exec i s = .next (t.dmaDraw c ts) ∧ MovedTo s c' t

/-- `exec i s` answers `t` after the access to `ts` has drawn its budget. -/
def Ends (i : Instr) (s : State) (c : Ctx) (ts : List Trans) (t : State) : Prop := exec i s = .next (t.dmaDraw c ts)

/-- What an `ldc` returns for a byte, and what it releases to the reader: a byte of its own block, else that of the newest store
of which it may know (R152), else what an ordinary load returns. -/
def Consumes (s : State) (c : Ctx) (v : View) (l : Nat) (b : Byte) (w : View) : Prop :=
  match c.overlay l with
  | some x => b = x ∧ w = []
  | none => match s.consume c.agent v l with
    | some (r, rel) => b = r.at_ l ∧ w = rel
    | none => b = s.readByte c.job v l ∧ w = []

/-- Where in the home's order what an ordinary load returns for a location stands: none for a store that has not reached it. -/
def loadPlace (s : State) (job : Nat) (v : View) (l : Nat) : Option Nat :=
  match s.hbLatest v l with
  | none => some (match s.job? job with
    | some j => j.createdAt
    | none => 0)
  | some x => if x.2.placed = 0 then none else some x.2.placed

/-- Store `r` is newer at the home of `l` than what an ordinary load with view `v` returns, and happens before the reader, which
names no release, or is covered by a performed release to an instance the reader is in (R152). -/
def Newer (s : State) (a : Agent) (v : View) (l : Nat) (r : StoreRec) (rel : View) : Prop :=
  ∃ i t, s.history[i]? = some r ∧ loadPlace s a.job v l = some t ∧ t < r.placed ∧ r.covers l = true ∧
    (i ∈ v ∧ rel = [] ∨ i ∉ v ∧ ∃ x ∈ s.releases, a.inInst x.inst = true ∧ i ∈ x.view ∧ rel = x.view)

/-- The address of a load or store: g[b] + sext(disp) × width, modulo 2^64 (R179). -/
def addrOf (c : Ctx) (b : GReg) (disp : BitVec 13) (w : Nat) : Nat :=
  (c.regs.rdG b + disp.signExtend 64 * BitVec.ofNat 64 w).toNat

/-- A loaded number of `m.bytes` bytes as a register takes it (R235). -/
def extended (m : LdMode) (n : Nat) : Word64 :=
  match m with
  | .b => (BitVec.ofNat 8 n).signExtend 64
  | .h => (BitVec.ofNat 16 n).signExtend 64
  | .w => (BitVec.ofNat 32 n).signExtend 64
  | .d => BitVec.ofNat 64 n
  | .bu => (BitVec.ofNat 8 n).zeroExtend 64
  | .hu => (BitVec.ofNat 16 n).zeroExtend 64
  | .wu => (BitVec.ofNat 32 n).zeroExtend 64

/-- No byte lies in a versioned range. -/
def Plain (ts : List Trans) : Prop := ∀ t ∈ ts, rgVers t.entry = false

/-- The first byte lies in a versioned range, at the slot `r`. -/
def InSlot (va : Nat) (ts : List Trans) (r : SlotRef) : Prop :=
  ∃ t rest, ts = t :: rest ∧ rgVers t.entry = true ∧ r = slotRef va t

end Sys2Proof.Claims

/-- R235, R239, R153: a load that reaches its bytes writes them, little-endian and extended as the mode says; the
result of `ld` is tainted as its base register is. The bytes are those of R33 and R145 (`loadBytes`). -/
def Sys2Proof.Claims.Loads : Prop :=
  ∀ (s : State) (c : Ctx) (d b : GReg) (e : FReg) (m : LdMode) (fm : FMode) (k : BitVec 13) (ts : List Trans),
    s.cur = some c →
    (Reaches s c .read (addrOf c b k m.bytes) m.bytes ts → ∃ r',
      SetsG c.regs r' d (extended m (ofBytes (s.loadBytes c (c.viewAt b) (addrOf c b k m.bytes) ts)))
        (c.regs.rdTaint b) (c.regs.rdTview b) ∧
      Draws (.ld d b m k) s c ts { c with regs := r', ip := c.ip + 1, stalled := none }) ∧
    (Reaches s c .read (addrOf c b k fm.bytes) fm.bytes ts → ∃ r',
      SetsF c.regs r' e fm.ffmt (ofBytes (s.loadBytes c (c.viewAt b) (addrOf c b k fm.bytes) ts)) ∧
      Draws (.fld e b fm k) s c ts { c with regs := r', ip := c.ip + 1, stalled := none })

/-- R238, R152: `ldc` taints its destination, whatever it reads. Each of its bytes is one that the block itself has stored, or
that of the store newest at its home among those that happen before it or that a performed release to a scope of the reader
covers, or what an ordinary load returns where none of them is newer; the taint orders what those releases made available. -/
def Sys2Proof.Claims.ConsumeLoad : Prop :=
  (∀ (s : State) (c : Ctx) (d b : GReg) (m : LdcMode) (k : BitVec 13) (ts : List Trans), s.cur = some c →
    Reaches s c .read (addrOf c b k m.toLd.bytes) m.toLd.bytes ts → Plain ts →
    ∃ (r' : RegFile) (bs : List Byte) (vs : List View), bs.length = ts.length ∧ vs.length = ts.length ∧
      (∀ j (h : j < ts.length), Consumes s c (c.viewAt b) ts[j].loc (bs.getD j 0) (vs.getD j [])) ∧
      SetsG c.regs r' d (extended m.toLd (ofBytes bs)) true (vs.foldl unionNat (c.regs.rdTview b)) ∧
      Draws (.ldc d b m k) s c ts { c with regs := r', ip := c.ip + 1, stalled := none }) ∧
  ∀ (s : State) (a : Agent) (v : View) (l : Nat),
    (∀ r rel, s.consume a v l = some (r, rel) → Newer s a v l r rel ∧ ∀ q u, Newer s a v l q u → q.placed ≤ r.placed) ∧
    (s.consume a v l = none → ∀ q u, ¬Newer s a v l q u)

/-- R33: a store that is held in the block is what a later load of the block returns for its bytes. -/
def Sys2Proof.Claims.BlockStoresForward : Prop :=
  ∀ (s : State) (c : Ctx) (v : View) (va ip : Nat) (h : List (Nat × HeldOp)) (a : Word64) (bs : List Byte)
    (w : View) (ts : List Trans),
    c.held = h ++ [(ip, .store a (ts.map (fun t => t.loc)) bs w)] → Plain ts → bs.length = ts.length →
    (ts.map (fun t => t.loc)).Nodup → s.loadBytes c v va ts = bs

/-- R232, R235, R236, R239: a store is held in its block: until the commit no byte of memory changes; a version range
is no place for it (R138: subcause 5). -/
def Sys2Proof.Claims.StoresAreHeld : Prop :=
  ∀ (s : State) (c : Ctx) (d b : GReg) (e : FReg) (m : StMode) (fm : FMode) (k : BitVec 13) (ts : List Trans),
    s.cur = some c →
    let held (i : Instr) (va w n : Nat) : Prop :=
      Draws i s c ts { c with
        held := c.held ++ [(c.ip, .store (BitVec.ofNat 64 va) (ts.map (fun t => t.loc)) (toBytes w n) (c.viewAt b))]
        rel := unionNat c.rel (c.regs.rdTview b), ip := c.ip + 1, stalled := none }
    let va := addrOf c b k m.bytes
    let fa := addrOf c b k fm.bytes
    (Reaches s c .write va m.bytes ts → Plain ts → held (.st d b m k) va m.bytes (c.regs.rdG d).toNat) ∧
    (Reaches s c .write va m.bytes ts → ¬Plain ts →
      Ends (.st d b m k) s c ts (s.trapTask c 0x05 va (c.ip + 5 * 2 ^ 8))) ∧
    (Reaches s c .write fa fm.bytes ts → Plain ts → held (.fst e b fm k) fa fm.bytes (c.regs.codeF e fm.ffmt)) ∧
    (Reaches s c .write fa fm.bytes ts → ¬Plain ts →
      Ends (.fst e b fm k) s c ts (s.trapTask c 0x05 fa (c.ip + 5 * 2 ^ 8)))

/-- R235, R234: an address of 2^56 or more faults with PROTECT, subcause 3; a misaligned one with MISALIGNED (0x03);
an access that does not come to its bytes faults, parks for the pager or waits. One whose budget of host DMA is spent parks until
the next period (R424, R425; log 27); one that passes draws of the budgets of its die, and of nothing where no byte lies on a
host. -/
def Sys2Proof.Claims.AccessChecks : Prop :=
  (∀ (s : State) (c : Ctx) (ts : List Trans), ((∀ t ∈ ts, isHostLoc t.loc = false) → s.dmaDraw c ts = s) ∧
    { s.dmaDraw c ts with dies := s.dies } = s ∧ (∀ d, d ≠ c.die → (s.dmaDraw c ts).die d = s.die d) ∧
    let x := s.die c.die
    let y := (s.dmaDraw c ts).die c.die
    { y with left := x.left, actPeriod := x.actPeriod, budget := x.budget, pending := x.pending, waited := x.waited,
             counters := x.counters } = x) ∧
  ∀ (s : State) (c : Ctx) (d b : GReg) (e : FReg) (m : LdMode) (n : StMode) (fm : FMode) (k : BitVec 13),
    s.cur = some c →
    let checks (i : Instr) (kind : AccKind) (w : Nat) : Prop :=
      let va := addrOf c b k w
      (2 ^ 56 ≤ va → exec i s = .next (s.trapTask c 0x05 va (c.ip + 3 * 2 ^ 8))) ∧
      (va < 2 ^ 56 → va % w ≠ 0 → exec i s = .next (s.trapTask c 0x03 va c.ip)) ∧
      (∀ f, va < 2 ^ 56 → va % w = 0 → s.access c.die c.job (s.jobRanges c.job) kind va w = .error f →
        exec i s = .next (s.accessFault c va kind f.1)) ∧
      (∀ ts, va < 2 ^ 56 → va % w = 0 → s.access c.die c.job (s.jobRanges c.job) kind va w = .ok ts → s.dmaPass c ts = none →
        exec i s = .next (s.dmaPark c))
    checks (.ld d b m k) .read m.bytes ∧ checks (.st d b n k) .write n.bytes ∧
    checks (.fld e b fm k) .read fm.bytes ∧ checks (.fst e b fm k) .write fm.bytes

/-- R234, R35, R58, R128: what becomes of a task whose access does not come to its bytes: it faults, parks for the pager or
until a closed bank of a weight store opens, or waits in its context. -/
def Sys2Proof.Claims.AccessFaults : Prop :=
  ∀ (s : State) (c : Ctx) (va : Nat) (kind : AccKind),
    (∀ sub, s.accessFault c va kind (.prot sub) = s.trapTask c 0x05 va (c.ip + sub * 2 ^ 8)) ∧
    s.accessFault c va kind .dieLost = s.trapTask c 0x1B va c.ip ∧
    (∀ home pa, s.accessFault c va kind (.data home pa) = (s.eccHit home pa).trapTask c 0x1A va (c.ip + 20 * 2 ^ 8)) ∧
    (∀ lev cause, s.accessFault c va kind (.page lev cause) =
      (s.pageFault c.die c.job (.task c.idx) va c.pc.toNat kind lev cause c.ip).2.parkTask c
        (.pager c.die ((s.die c.die).nextToken % 2 ^ 48))) ∧
    (∀ d n, s.bankShut c.die c.job (s.jobRanges c.job) kind va = some (d, n) →
      s.accessFault c va kind .moving = s.parkTask c (.bank d n)) ∧
    (s.bankShut c.die c.job (s.jobRanges c.job) kind va = none →
      (c.stalled = none → s.accessFault c va kind .moving =
        s.setCtx { c with stalled := some (va, (s.die c.die).stime) }) ∧
      (c.stalled ≠ none → s.accessFault c va kind .moving = s))

/-- R240-R242: loads and queries of versions. A load that finds its version returns its bytes untainted and acquires
its publication; `vfloor`, `vnewest` and `vstamp` read the slot, and an unpublished or reclaimed version has the stamp of all
ones. -/
def Obligations.VersionReads : Prop :=
  ∀ (s : State) (c : Ctx) (d a n : GReg) (m : LdMode) (mode : VMode) (ts : List Trans) (r : SlotRef) (v : Version),
    s.cur = some c →
    let va := (c.regs.rdG a).toNat
    let num := (c.regs.rdG n).toNat % 2 ^ 32
    let x := s.slotAt c.job r
    let next (i : Instr) (v : Word64) (w : View) : Prop := ∃ r', SetsG c.regs r' d v false [] ∧
      Draws i s c ts { c with regs := r', view := w, ip := c.ip + 1, stalled := none }
    (Reaches s c .read va m.bytes ts → InSlot va ts r → vlook x mode num = .version v →
      next (.vld d a n m mode) (extended m (ofBytes (v.bytes r.off m.bytes)))
        (unionNat c.view (acquireFrom c.agent (x.relsTo v.num.toNat)))) ∧
    (Reaches s c .read va m.bytes ts → InSlot va ts r → vlook x mode num = .gone →
      Ends (.vld d a n m mode) s c ts (s.trapTask c 0x06 va c.ip)) ∧
    (Reaches s c .read va m.bytes ts → InSlot va ts r → vlook x mode num = .skipped →
      Ends (.vld d a n m mode) s c ts (s.trapTask c 0x07 va c.ip)) ∧
    (Reaches s c .read va m.bytes ts → InSlot va ts r → vlook x mode num = .wait →
      Ends (.vld d a n m mode) s c ts (s.parkTask c (.slot (c.regs.rdG a)))) ∧
    (Reaches s c .read va 1 ts → InSlot va ts r →
      next (.vfloor d a) (BitVec.ofNat 64 x.floor) c.view ∧ next (.vnewest d a) (BitVec.ofNat 64 x.newest) c.view ∧
      next (.vstamp d a n) (match x.version? num with
        | some y => y.stamp
        | none => BitVec.allOnes 64) c.view)

/-- R241, R242, R244, R243: publications, retirements, atomics and reductions capture their operands and are held; the
memory does not change before the commit. `redinit` of 0 or of more than 65,536 contributions faults (subcause 10). -/
def Sys2Proof.Claims.HeldOperations : Prop :=
  ∀ (s : State) (c : Ctx) (d a b : GReg) (e : FReg) (f32 w : Bool) (o : AmoOrder) (sc : BitVec 3) (ts : List Trans)
    (r : SlotRef), s.cur = some c →
    let va := (c.regs.rdG a).toNat
    let aw := if w then 4 else 8
    let fw := if f32 then 4 else 8
    let n := (c.regs.rdG b).toNat % 2 ^ 32
    let rel := unionNat c.rel (c.regs.rdTview a)
    let amo (i : Instr) (op : AmoOp) : Prop := Draws i s c ts { c with
      commitPt := some (c.ip, .amo op (c.regs.rdG a) w o sc.toNat (c.regs.rdG b) (c.regs.rdG d) d)
      rel := rel, ip := c.ip + 1, stalled := none }
    (Reaches s c .write va 8 ts → InSlot va ts r → Draws (.vpub d a b) s c ts { c with
      held := c.held ++ [(c.ip, .vpub (c.regs.rdG a) (c.regs.rdG d) (BitVec.ofNat 32 n) c.view rel)]
      rel := rel, ip := c.ip + 1, stalled := none }) ∧
    (Reaches s c .read va 1 ts → InSlot va ts r → Draws (.vretire a b) s c ts { c with
      held := c.held ++ [(c.ip, .vretire (c.regs.rdG a) (BitVec.ofNat 32 n))], ip := c.ip + 1, stalled := none }) ∧
    (Reaches s c .atomic va aw ts → Plain ts →
      amo (.amoadd d a b w o sc) .add ∧ amo (.amoand d a b w o sc) .and ∧ amo (.amoor d a b w o sc) .or ∧
      amo (.amoxor d a b w o sc) .xor ∧ amo (.amomin d a b w o sc) .min ∧ amo (.amomax d a b w o sc) .max ∧
      amo (.amominu d a b w o sc) .minu ∧ amo (.amomaxu d a b w o sc) .maxu ∧ amo (.amoswap d a b w o sc) .swap ∧
      amo (.amocas d a b w o sc) .cas) ∧
    (Reaches s c .atomic va fw ts → InSlot va ts r →
      Draws (.redf d a e f32) s c ts { c with
        commitPt := some (c.ip, .redf (c.regs.rdG a) f32 ((c.regs.rdG d).toNat % 2 ^ 32)
          (BitVec.ofNat 64 ((c.regs.rdF e).toNat % 2 ^ (8 * fw)))), ip := c.ip + 1, stalled := none } ∧
      (0 < n → n ≤ 65536 → Draws (.redinit a b f32) s c ts { c with
        commitPt := some (c.ip, .redinit (c.regs.rdG a) f32 n), ip := c.ip + 1, stalled := none }) ∧
      (n = 0 ∨ 65536 < n → Ends (.redinit a b f32) s c ts (s.trapTask c 0x05 va (c.ip + 10 * 2 ^ 8))))

/-- R243, R154: one step of an atomic at the home of its word: it returns what the home holds, stores the result of its
operation there, and changes no other byte. A failing `amocas` stores nothing (log 21), and a busy weight store takes no write
(R129; log 89). -/
def Sys2Proof.Claims.AtomicAtHome : Prop :=
  ∀ (s : State) (a : Agent) (locs : List Nat) (op : AmoOp) (b x : Nat) (rel : View),
    s.mem.wf = true → locs.Nodup → locs ≠ [] →
    let n := 8 * locs.length
    let old := ofBytes (locs.map s.mem.read)
    let y := b % 2 ^ n
    let z := x % 2 ^ n
    let new : Nat :=
      match op with
      | .add => (old + y) % 2 ^ n
      | .and => old &&& y
      | .or => old ||| y
      | .xor => old ^^^ y
      | .min => if toSigned old n ≤ toSigned y n then old else y
      | .max => if toSigned y n ≤ toSigned old n then old else y
      | .minu => if old ≤ y then old else y
      | .maxu => if y ≤ old then old else y
      | .swap => y
      | .cas => if old = z then y else old
    let out := s.atomicAt a [] rel locs op b x .relaxed 4
    out.1 = old ∧ (s.wsHit locs = false → locs.map out.2.2.mem.read = toBytes locs.length new) ∧
      (s.wsHit locs = true → out.2.2.mem = s.mem) ∧ ∀ l, l ∉ locs → out.2.2.mem.read l = s.mem.read l

/-- R235, R239, R153: a load that reaches its bytes writes them, little-endian and extended as the mode says; the
result of `ld` is tainted as its base register is. The bytes are those of R33 and R145 (`loadBytes`). R238, R152:
`ldc` taints its destination, whatever it reads. Each of its bytes is one that the block itself has stored, or that
of the store newest at its home among those that happen before it or that a performed release to a scope of the
reader covers, or what an ordinary load returns where none of them is newer; the taint orders what those releases
made available. -/
def Obligations.LoadResults : Prop := Claims.Loads ∧ Claims.ConsumeLoad

/-- R235, R234: an address of 2^56 or more faults with PROTECT, subcause 3; a misaligned one with MISALIGNED (0x03);
an access that does not come to its bytes faults, parks for the pager or waits. One whose budget of host DMA is
spent parks until the next period (R424, R425; log 27); one that passes draws of the budgets of its die, and of
nothing where no byte lies on a host. R234, R35, R58, R128: what becomes of a task whose access does not come to its
bytes: it faults, parks for the pager or until a closed bank of a weight store opens, or waits in its context. -/
def Obligations.FailingAccesses : Prop := Claims.AccessChecks ∧ Claims.AccessFaults

/-- R241, R242, R244, R243: publications, retirements, atomics and reductions capture their operands and are held;
the memory does not change before the commit. `redinit` of 0 or of more than 65,536 contributions faults (subcause
10). R243, R154: one step of an atomic at the home of its word: it returns what the home holds, stores the result of
its operation there, and changes no other byte. A failing `amocas` stores nothing (log 21), and a busy weight store
takes no write (R129; log 89). -/
def Obligations.AtomicsAndHeldOperations : Prop := Claims.HeldOperations ∧ Claims.AtomicAtHome

/-! ### Phases, barriers, timelines, time, task operations, system instructions -/

/-- R245-R249, R149, R147: instructions that wait. Where the event has occurred they go on, and acquire what was released
for it: `pwait` what its phases have brought, `barw` the arrivals of the generations up to its number, `tlwait` the commands up to
its number, `twait` nothing. Else their task parks on the event. `pwait` writes whether the phase was passed before, `barw` the
barrier's LASTERR. A scope without a share, a barrier or a queue that is out of reach, fault. -/
def Obligations.Waits : Prop :=
  ∀ (s : State) (c : Ctx) (d : CReg) (a b : GReg) (sc : BitVec 3), s.cur = some c →
    let x := c.regs.rdG a
    let n := (c.regs.rdG b).toNat
    let m := x.toNat % 2 ^ 32
    let gen := BitVec.ofNat 32 n
    let qid := x.toNat % 2 ^ 16
    let p := s.phaseAt (c.agent.instOf sc.toNat) c.die
    let bar := s.barrier (barDie x) (barNum x)
    let q := s.queue c.job qid
    let now := (s.die c.die).stime
    let gains (rs : List Release) : View := unionNat c.view (acquireFrom c.agent rs)
    let faults (i : Instr) (code detail : Nat) : Prop := exec i s = .next (s.trapTask c code 0 (c.ip + detail * 2 ^ 8))
    -- they go on
    (s.phaseShare c.job sc.toNat ≠ 0 → m ≤ p.p.toNat → ∃ r', SetsC c.regs r' d (decide (m < p.p.toNat)) ∧
      Moves (.pwait d a sc) s { c with regs := r', view := unionNat c.view p.acquired, ip := c.ip + 1 }) ∧
    (s.live (barDie x) = true → barNum x < 768 → bar.heldByOther c.job = false → bar.passed gen = true →
      ∃ r', SetsC c.regs r' d bar.lasterr ∧ Moves (.barw d a b) s
        { c with regs := r', view := gains ((bar.rels.filter (fun r => genUpTo r.1 gen)).map (fun r => r.2)), ip := c.ip + 1 }) ∧
    (s.queueFault c.job qid = none → n ≤ q.counter → Moves (.tlwait a b) s
      { c with view := gains ((q.rels.filter (fun r => decide (r.1 ≤ n))).map (fun r => r.2)), ip := c.ip + 1 }) ∧
    (x ≤ now → Moves (.twait a) s { c with ip := c.ip + 1 }) ∧
    -- they park
    (s.phaseShare c.job sc.toNat ≠ 0 → p.p.toNat < m →
      exec (.pwait d a sc) s = .next (s.parkTask c (.phase sc.toNat c.die p.at_.key m))) ∧
    (s.live (barDie x) = true → barNum x < 768 → bar.heldByOther c.job = false → bar.passed gen = false →
      exec (.barw d a b) s = .next (s.parkTask c (.barrier (barDie x) (barNum x)))) ∧
    (s.queueFault c.job qid = none → q.counter < n → exec (.tlwait a b) s = .next (s.parkTask c (.timeline qid n))) ∧
    (now < x → exec (.twait a) s = .next (s.parkTask c (.time x.toNat))) ∧
    -- they fault
    (s.phaseShare c.job sc.toNat = 0 → faults (.pwait d a sc) 0x05 8) ∧
    (s.live (barDie x) = false → faults (.barw d a b) 0x1B 0) ∧
    (s.live (barDie x) = true → 768 ≤ barNum x ∨ bar.heldByOther c.job = true → faults (.barw d a b) 0x05 9) ∧
    (s.queueFault c.job qid = some .dieLost → faults (.tlwait a b) 0x1B 0) ∧
    (∀ f, s.queueFault c.job qid = some f → f ≠ .dieLost → faults (.tlwait a b) 0x05 7)

/-- R245, R246, R248: `phase`, `barm` and `barr` are held until the commit; `pnum`, `tlread` and `stime` write a number
and acquire nothing. -/
def Obligations.PhasesBarriersTimelines : Prop :=
  ∀ (s : State) (c : Ctx) (d a b : GReg) (sc : BitVec 3), s.cur = some c →
    let x := c.regs.rdG a
    let p := s.phaseAt (c.agent.instOf sc.toNat) c.die
    let bar := s.barrier (barDie x) (barNum x)
    let hold (i : Instr) (h : HeldOp) : Prop := Moves i s { c with held := c.held ++ [(c.ip, h)], ip := c.ip + 1 }
    (s.phaseShare c.job sc.toNat ≠ 0 →
      GivesG (.pnum d sc) s c d (p.p.zeroExtend 64) ∧
      (p.p ≠ BitVec.allOnes 32 → hold (.phase sc) (.phase sc.toNat)) ∧
      (p.p = BitVec.allOnes 32 → exec (.phase sc) s = .next (s.trapTask c 0x08 0 c.ip))) ∧
    (s.phaseShare c.job sc.toNat = 0 →
      exec (.phase sc) s = .next (s.trapTask c 0x05 0 (c.ip + 8 * 2 ^ 8)) ∧
      exec (.pnum d sc) s = .next (s.trapTask c 0x05 0 (c.ip + 8 * 2 ^ 8))) ∧
    (s.live (barDie x) = true →
      let w := (c.regs.rdG b).setWidth 32
      (barNum x < 768 → bar.heldByOther c.job = false → hold (.barm d a b) (.barm x (c.regs.rdG d) w)) ∧
      (768 ≤ barNum x ∨ bar.heldByOther c.job = false → hold (.barr a b) (.barr x (if w = 0#32 then 1 else w))) ∧
      (768 ≤ barNum x ∨ bar.heldByOther c.job = true →
        exec (.barm d a b) s = .next (s.trapTask c 0x05 0 (c.ip + 9 * 2 ^ 8))) ∧
      (barNum x < 768 → bar.heldByOther c.job = true →
        exec (.barr a b) s = .next (s.trapTask c 0x05 0 (c.ip + 9 * 2 ^ 8)))) ∧
    (s.live (barDie x) = false → exec (.barm d a b) s = .next (s.trapTask c 0x1B 0 c.ip) ∧
      exec (.barr a b) s = .next (s.trapTask c 0x1B 0 c.ip)) ∧
    (s.queueFault c.job (x.toNat % 2 ^ 16) = none →
      GivesG (.tlread d a) s c d (BitVec.ofNat 64 (s.queue c.job (x.toNat % 2 ^ 16)).counter)) ∧
    GivesG (.stime d) s c d (s.die c.die).stime

/-- R250-R252, R249: task-machine operations and command issues capture their operands and are held until the commit;
a command is the pair g[P], g[P + 1], the low half first. -/
def Sys2Proof.Claims.CapturingOperations : Prop :=
  ∀ (s : State) (c : Ctx) (a b p q : GReg) (sc : BitVec 3), s.cur = some c →
    let x := c.regs.rdG a
    let holds (i : Instr) (o : TaskOp) : Prop :=
      Moves i s { c with taskOps := c.taskOps ++ [o], ip := c.ip + 1 }
    let qid := (c.regs.rdG q).toNat % 2 ^ 16
    let word : CmdWord := c.regs.rdG (p + 1) ++ c.regs.rdG p
    let issues (i : Instr) (t : Option GReg) : Prop :=
      Moves i s { c with issues := c.issues ++ [{ qid := qid, word := word, dest := t }], ip := c.ip + 1 }
    holds (.tdec a) (.dec x) ∧ holds (.tspawn a) (.spawn (x.toNat % 2 ^ 16)) ∧
    holds (.tset a b) (.set (x.toNat % 2 ^ 16) (c.regs.rdG b)) ∧ holds (.tdeadline a b) (.deadline x (c.regs.rdG b)) ∧
    holds (.tcancelTask a) (.cancelTask x) ∧ holds (.tcancelLaunch a) (.cancelLaunch (x.toNat % 2 ^ 6)) ∧
    holds (.tcancelReplay a) (.cancelReplay x) ∧ holds (.tcancelPhase sc) (.cancelPhase sc.toNat) ∧
    holds .tcancelJob .cancelJob ∧ holds (.trun a) (.run x) ∧
    (s.queueFault c.job qid = none → issues (.scmd p q) none ∧ issues (.scmdt p q a) (some a)) ∧
    (s.queueFault c.job qid = some .dieLost → exec (.scmd p q) s = .next (s.trapTask c 0x1B 0 c.ip)) ∧
    (∀ k, s.queueFault c.job qid = some (.prot k) → exec (.scmd p q) s = .next (s.trapTask c 0x05 0 (c.ip + 7 * 2 ^ 8)))

/-- R253, R254, R256: system registers read the machine; FPCTL alone can be written, and drops the flags raised before
it in the block; a write of another register faults with PRIVILEGE, subcause 11, and so does `halt` in a job that is
not privileged. -/
def Obligations.SystemRegisters : Prop :=
  ∀ (s : State) (c : Ctx) (d a : GReg) (n : BitVec 12) (j : Job), s.cur = some c → s.job? c.job = some j →
    let reads (k : BitVec 12) (v : Nat) : Prop := GivesG (.sysrd d k) s c d (BitVec.ofNat 64 v)
    let v := (c.regs.rdG a).setWidth 16
    let rm := if bf v.toNat 8 3 < 4 then bf v.toNat 8 3 else bf c.regs.fpctl.toNat 8 3
    let word : BitVec 16 := BitVec.ofNat 16 (bf v.toNat 11 5 * 2 ^ 11 + rm * 2 ^ 8 + (v.toNat % 2 ^ 8 &&& 0x5F))
    reads 0x000 (s.die c.die).stime.toNat ∧ reads 0x002 (s.die c.die).cycle.toNat ∧ reads 0x003 c.die ∧
    reads 0x004 s.livedies.toNat ∧ reads 0x005 (s.die c.die).orient.toNat ∧ reads 0x006 (c.seq * 8 + c.ctx) ∧
    reads 0x010 c.job ∧ reads 0x011 (c.gen * 2 ^ 16 + c.idx) ∧ reads 0x012 (bf j.record.toNat 64 64) ∧
    reads 0x014 (c.regs.fpctl ||| BitVec.ofNat 16 c.raised.toNat).toNat ∧ reads 0x015 (bf j.record.toNat 584 56) ∧
    reads 0x016 (bf j.record.toNat 192 64) ∧ reads 0x020 ((s.die c.die).stime.toNat / 512000 * 512000) ∧
    reads n (s.sysReg c n.toNat) ∧
    Moves (.syswr a 0x014) s { c with regs := { c.regs with fpctl := word }, raised := 0, ip := c.ip + 1 } ∧
    (n ≠ 0x014 → exec (.syswr a n) s = .next (s.trapTask c 0x0B 0 (c.ip + 11 * 2 ^ 8))) ∧
    (bit j.record.toNat 8 = true → Moves .halt s { c with halting := true, ip := c.ip + 1 }) ∧
    (bit j.record.toNat 8 = false → exec .halt s = .next (s.trapTask c 0x0B 0 c.ip))

/-! ### The end of a block, faults and parks -/

namespace Sys2Proof.Claims

open Sys2Proof.Machine

/-- The block of a context holds nothing that its commit would still have to do. -/
def Quiet (s : State) (c : Ctx) : Prop :=
  c.held = [] ∧ c.commitPt = none ∧ c.issues = [] ∧ c.taskOps = [] ∧ c.halting = false ∧
    (s.aux c.job c.idx).owesOF = false ∧ s.lives c = true ∧ s.refused = []

/-- FPCTL at the commit: the flags raised in the block are in FLAGS (R105). -/
def committed (c : Ctx) : RegFile := { c.regs with fpctl := c.regs.fpctl ||| BitVec.ofNat 16 c.raised.toNat }

/-- A context that has committed its block and goes on at the block at `pc`, which it has still to fetch. -/
def nextBlock (c : Ctx) (r : RegFile) (pc : Word64) : Ctx :=
  { c with pc := pc, words := [], ip := 0, base := r, regs := r, raised := 0, baseView := c.view, baseRel := c.rel,
           held := [], commitPt := none, issues := [], taskOps := [], halting := false, stalled := none }

/-- The block behind the current one: the first 16-byte boundary at or after its last word. -/
def behind (c : Ctx) : Word64 := c.pc + BitVec.ofNat 64 ((4 * c.words.length + 15) / 16 * 16)

/-- The hardware has written `bs` at the translated bytes `ts`: they hold them, each page leaf that leads there counts the write
in its WVER (R394), and no other byte of memory differs from `s`; a busy weight store takes nothing of it (R129). -/
def Written (s t : State) (ts : List Trans) (bs : List Byte) : Prop :=
  t.mem = if s.wsHit (ts.map (fun x => x.loc)) then s.mem else s.mem.landed ts bs

/-- Word 0 of a task record, whose bytes are `ts`, holds `w`, and no other byte of memory differs from `s` but WVER. -/
def Word0 (s t : State) (ts : List Trans) (w : Nat) : Prop := Written s t ts (toBytes 8 w)

/-- The block of the context whose turn it is holds these operations and no others. -/
def Block (s : State) (c : Ctx) (h : List (Nat × HeldOp)) (pt : Option (Nat × CommitPoint)) (is : List Issue)
    (ops : List TaskOp) : Prop :=
  s.cur = some c ∧ c.held = h ∧ c.commitPt = pt ∧ c.issues = is ∧ c.taskOps = ops ∧ c.halting = false ∧
    (s.aux c.job c.idx).owesOF = false

/-- Where the commit of such a block can be made, it has the effects `E`, and its context then goes on at the target of its exit,
with the view `v` and the registers `r`. -/
def Commits (s : State) (c : Ctx) (o : BitVec 21) (h : List (Nat × HeldOp)) (pt : Option (Nat × CommitPoint))
    (is : List Issue) (ops : List TaskOp) (v : View) (r : RegFile) (E : State) : Prop :=
  Block s c h pt is ops → s.commitStop c = none → E.lives c = true → E.refused = [] →
    ((E.aux c.job c.idx).missed = true → (s.aux c.job c.idx).missed = true) →
    exec (.jex o) s = .next (E.setCtx (nextBlock { c with view := v } r (c.pc + o.signExtend 64 * 16)))

/-- The block ends without any of its effects, in `E`. -/
def Stops (s : State) (c : Ctx) (o : BitVec 21) (h : List (Nat × HeldOp)) (pt : Option (Nat × CommitPoint))
    (is : List Issue) (E : State) : Prop :=
  Block s c h pt is [] → exec (.jex o) s = .next E

/-- What a release by a context's task makes available, and the state in which it has been performed (R146). -/
def relOf (c : Ctx) (scope : Nat) (v rel : View) : Release :=
  { by_ := c.agent, inst := c.agent.instOf scope, view := unionNat v rel }
def released (s : State) (c : Ctx) (scope : Nat) (v rel : View) : State :=
  let a := s.placeOwn c.job c.num v
  { a with releases := a.releases ++ [relOf c scope v rel] }

end Sys2Proof.Claims

/-- R225-R231, R34, R105: a taken exit commits the block, and the context goes on at the target, blk + offset × 16, or
at the address of `cex`; FLAGS takes what the block raised. A `bex` whose condition is 0 and a `skip` go on in the
block. Whatever a block holds, every taken exit commits it alike. -/
def Sys2Proof.Claims.ExitInstructions : Prop :=
  ∀ (s : State) (c : Ctx) (p : CReg) (a d : GReg) (o : BitVec 21) (k : BitVec 7), s.cur = some c →
    let to_ := c.pc + o.signExtend 64 * 16
    let t := c.regs.rdG a
    (exec (.jex o) s = .next (s.commit c (.goto to_)) ∧
      (c.regs.rdC p = true → exec (.bex p o) s = exec (.jex o) s) ∧
      (t = to_ → t.toNat < 2 ^ 56 → t.toNat % 16 = 0 → exec (.cex a) s = exec (.jex o) s) ∧
      (d = 0 → exec (.call d o) s = exec (.jex o) s) ∧
      exec .done s = .next (s.commit c .done) ∧ exec .yield s = .next (s.commit c .yield)) ∧
    (Quiet s c →
      Moves (.jex o) s (nextBlock c (committed c) to_) ∧
      (c.regs.rdC p = true → Moves (.bex p o) s (nextBlock c (committed c) to_)) ∧
      (t.toNat < 2 ^ 56 → t.toNat % 16 = 0 → Moves (.cex a) s (nextBlock c (committed c) t)) ∧
      (∃ r', SetsG (committed c) r' d (behind c) false [] ∧ Moves (.call d o) s (nextBlock c r' to_))) ∧
    (c.regs.rdC p = false → Moves (.bex p o) s { c with ip := c.ip + 1 }) ∧
    (2 ^ 56 ≤ t.toNat → exec (.cex a) s = .next (s.trapTask c 0x05 t.toNat (c.ip + 3 * 2 ^ 8))) ∧
    (t.toNat < 2 ^ 56 → t.toNat % 16 ≠ 0 → exec (.cex a) s = .next (s.trapTask c 0x03 t.toNat c.ip)) ∧
    Moves (.skip p k) s { c with ip := c.ip + 1 + (if c.regs.rdC p then k.toNat else 0) }

/-- R232, R241-R248, R140, R146: the commit of a block that holds one operation. `vpub` releases and creates its version;
`vretire` retires; `phase` and `barr` release and arrive; `barm` arms; an `amo` does its step at the home and writes what
that held; `redf` and `redinit` reach the reduction's home. To a reduction window an `amo` reads a free value (log 10), and a
`redinit` opens for one contribution (log 96). -/
def Sys2Proof.Claims.HeldOperationsCommit : Prop :=
  ∀ (s : State) (c : Ctx) (o : BitVec 21) (ip m n : Nat) (va u w : Word64) (k : BitVec 32) (v rel : View) (r : SlotRef)
    (op : AmoOp) (w32 : Bool) (ord : AmoOrder) (d : GReg) (ts : List Trans),
    let regs := committed c
    let one (h : HeldOp) (E : State) : Prop := Commits s c o [(ip, h)] none [] [] c.view regs E
    let pt (x : CommitPoint) (v : View) (r : RegFile) (E : State) : Prop := Commits s c o [] (some (ip, x)) [] [] v r E
    let i := c.agent.instOf m
    let p := s.phaseAt i c.die
    let b := s.barrier (barDie u) (barNum u)
    let aw := if w32 then 4 else 8
    let loaded (old : Nat) : RegFile :=
      regs.setG d (if w32 then (BitVec.ofNat 32 old).signExtend 64 else BitVec.ofNat 64 old) false []
    (s.slotOf c.job va.toNat = some r →
      let a := released s c (rgScope r.entry) v rel
      one (.vpub va w k v rel) (a.createVersion c.job r (a.slotHome r) k.toNat (cells (upFrom r.off 8) (toBytes 8 w.toNat))
        (relOf c (rgScope r.entry) v rel)) ∧
      one (.vretire va k) (s.retire c.job r k.toNat)) ∧
    (s.phaseShare c.job m ≠ 0 → 2 ≤ m → m < 8 → ∃ E, one (.phase m) E ∧
      (m < 4 → s.phaseShare c.job m ≤ p.arrived + 1 → (E.phaseAt i c.die).p = p.p + 1 ∧ (E.phaseAt i c.die).arrived = 0) ∧
      (p.arrived + 1 < s.phaseShare c.job m → E.phaseAt i c.die =
        { p with arrived := p.arrived + 1, rels := (p.p.toNat + 1, relOf c m c.view c.rel) :: p.rels } ∧
        relOf c m c.view c.rel ∈ E.releases)) ∧
    (∃ E, one (.barm u w k) E ∧ { E with barriers := s.barriers } = s ∧ E.barrier (barDie u) (barNum u) =
      { b with expect := k, sum := 0, err := false, overrun := false, owner := if k = 0 then 64 else c.job,
               notify := if bit w.toNat 32 then some (bf w.toNat 0 16, bf w.toNat 16 16) else none }) ∧
    (∃ E, one (.barr u k) E ∧ relOf c 4 c.view c.rel ∈ E.releases ∧
      (s.live (barDie u) = true → barNum u < 768 → b.expect ≠ 0 →
        let y := E.barrier (barDie u) (barNum u)
        if b.expect.toNat ≤ b.sum.toNat + k.toNat then y.gen = b.gen + 1 ∧ y.sum = 0 ∧ y.lasterr = (b.err || bit u.toNat 12)
        else y.gen = b.gen ∧ y.sum = b.sum + k ∧ y.err = (b.err || bit u.toNat 12))) ∧
    (s.windowOf c.job va.toNat = none → s.access c.die c.job (s.jobRanges c.job) .atomic va.toNat aw = .ok ts →
      let ls := ts.map (fun t => t.loc)
      let out := s.atomicAt c.agent c.view c.rel ls op u.toNat w.toNat ord m
      let stores : Prop := op ≠ .cas ∨ out.1 = w.toNat % 2 ^ (8 * aw)
      ∃ E, pt (.amo op va w32 ord m u w d) out.2.1 (loaded out.1) E ∧ (¬stores → E = out.2.2) ∧
        (stores → s.wsHit ls = true → E = out.2.2.postEvent c.job c.die
          { code := 0x15, srck := 4, index := c.idx, pc := c.pc.toNat, addr := va.toNat }) ∧
        (stores → s.wsHit ls = false → E.mem = out.2.2.mem.counted (ts.filterMap (fun t => t.leaf)))) ∧
    ((s.windowOf c.job va.toNat).isSome = true →
      let a : State := { s with freeCtr := s.freeCtr + 1 }
      pt (.amo op va w32 ord m u w d) c.view (loaded ((Config.windowOld s.freeCtr).toNat % 2 ^ (8 * aw)))
        (if ord = .rel ∨ ord = .acqrel then released a c m c.view c.rel else a)) ∧
    (s.slotOf c.job va.toNat = some r →
      let home := (s.atomicUnit r).1
      let event (index : Nat) : EventRec := { code := 0x05, srck := 4, addr := va.toNat, detail := 21 * 2 ^ 8 + index * 2 ^ 32 }
      let window := (s.windowOf c.job va.toNat).isSome
      (∃ E, pt (.redinit va w32 n) c.view regs E ∧
        (∀ x, s.redAt c.job r w32 = some x → E = s.postEvent c.job home (event 0)) ∧
        (s.redAt c.job r w32 = none → E.redAt c.job r w32 = some
          { job := c.job, va := va, target := r, f32 := w32, count := if window then 1 else n, next := 0, acc := 0, held := [],
            agent := c.agent, view := unionNat c.view c.rel })) ∧
      (window = true → pt (.redf va w32 n w) c.view regs s) ∧
      (window = false → ∃ E, pt (.redf va w32 n w) c.view regs E ∧
        (s.redAt c.job r w32 = none → E = s.postEvent c.job home (event n)) ∧
        (∀ x, s.redAt c.job r w32 = some x → x.next = 0 → n = 0 → 1 < x.count → x.held = [] →
          let f := if x.f32 then Fmt.fp32 else Fmt.fp64
          E.redAt c.job r w32 = some { x with
            next := 1, acc := BitVec.ofNat 64 (roundF f 0 0 .ieee (decodeF f w.toNat)).1 })))

/-- R34, R35, R241, R245, R249: what keeps a commit from being made ends the block without any effect: an access that no longer
comes to its bytes, a publication whose number is not above NEWEST or whose pool is full, a phase that has the highest number, and
a queue with no room, which is reported once (the fields of that event are the model's: log 24). -/
def Sys2Proof.Claims.CommitStops : Prop :=
  ∀ (s : State) (c : Ctx) (o : BitVec 21) (ip m : Nat) (va u : Word64) (k : BitVec 32) (bs : List Byte) (ls : List Nat)
    (v rel : View) (r : SlotRef) (ts : List Trans) (f : TFault × Nat) (x : Issue),
    let reach (kind : AccKind) (n : Nat) := s.access c.die c.job (s.jobRanges c.job) kind va.toNat n
    let y := s.slotAt c.job r
    let q := s.queue c.job x.qid
    let a := s.parkTask c (.spill x.qid)
    let region : Bool := x.qid / 4096 % 16 == 0
    (reach .write bs.length = .error f →
      Stops s c o [(ip, .store va ls bs v)] none [] (s.accessFault { c with ip := ip } va.toNat .write f.1)) ∧
    (∀ op w32 ord d w, reach .atomic (if w32 then 4 else 8) = .error f →
      Stops s c o [] (some (ip, .amo op va w32 ord m u w d)) [] (s.accessFault { c with ip := ip } va.toNat .atomic f.1)) ∧
    (reach .write 8 = .ok ts → s.slotOf c.job va.toNat = some r →
      (k.toNat ≤ y.newest → Stops s c o [(ip, .vpub va u k v rel)] none [] (s.trapTask c 0x08 va.toNat ip)) ∧
      (y.newest < k.toNat → rgK r.entry ≤ y.live.length →
        Stops s c o [(ip, .vpub va u k v rel)] none [] (s.parkTask c (.pool va)))) ∧
    ((s.phaseAt (c.agent.instOf m) c.die).p = BitVec.allOnes 32 →
      Stops s c o [(ip, .phase m)] none [] (s.trapTask c 0x08 0 ip)) ∧
    (s.room c.job x.qid = 0 → Stops s c o [] none [x]
      (if q.overflowed then a
       else (a.setQueue { a.queue c.job x.qid with overflowed := true }).postEvent c.job c.die
         { code := 0x09, srck := if region then 1 else 3, index := if region then x.qid % 64 else x.qid }))

/-- R34, R232, R154, R24: the commit of a held store. It gets its place in the task's order, with what the task knew where it
was executed, and memory does not change before it comes home; to a weight store it arrives with the commit (log 98). One
into word 0 of a valid record leaves that word undefined (log 10). R237, R394, R129: a store comes home later than every one before
it; its bytes stand in memory and are counted in WVER, but of one to a busy weight store no byte does, and it is to be reported. -/
def Sys2Proof.Claims.HeldStoresCommit : Prop :=
  (∀ (s : State) (c : Ctx) (o : BitVec 21) (ip : Nat) (va : Word64) (ls : List Nat) (bs : List Byte) (w : View)
    (ts : List Trans), s.access c.die c.job (s.jobRanges c.job) .write va.toNat bs.length = .ok ts →
    let n := s.history.length
    let r : StoreRec :=
      { by_ := c.agent, bytes := cells (ts.map (fun t => t.loc)) bs, view := w, placed := 0, ordinary := true,
        src := some { die := c.die, idx := c.idx, pc := c.pc, va := va, path := (ts.flatMap (fun t => t.path)).eraseDups,
                      leaves := ts.filterMap (fun t => t.leaf) } }
    let a : State := { s with history := s.history ++ [r] }
    let b := if ts.any (fun t => (wsDie? t.loc).isSome) then a.place n else a
    ∃ E, Commits s c o [(ip, .store va ls bs w)] none [] [] (unionNat c.view [n]) (committed c) E ∧
      (∀ j, s.job? c.job = some j → va.toNat < j.taskTab ∨ j.tasks * 128 ≤ va.toNat - j.taskTab ∨
        8 ≤ (va.toNat - j.taskTab) % 128 → E = b) ∧
      (∀ j i x, s.job? c.job = some j → j.taskTab ≤ va.toNat → i = (va.toNat - j.taskTab) / 128 → i < j.tasks →
        (va.toNat - j.taskTab) % 128 < 8 → bs.length ≤ 8 → b.taskRec c.job i = some x → bit x 63 = true →
        let f : State := { b with freeCtr := b.freeCtr + 1 }
        E = f.setWord0 c.job i (Config.recordWord b.freeCtr).toNat)) ∧
  ∀ (s : State) (i : Nat) (r : StoreRec), s.history[i]? = some r →
    (r.placed ≠ 0 → s.place i = s) ∧
    (r.placed = 0 →
      let t := s.place i
      let busy : Bool := r.src.isSome && s.wsHit (r.bytes.map (fun b => b.1))
      let leaves := (r.src.map (fun x => x.leaves)).getD []
      s.homeClock < t.homeClock ∧
      (busy = false → t.mem = (s.mem.counted leaves).writeCells r.bytes ∧
        t.history[i]? = some { r with placed := t.homeClock } ∧ t.refused = s.refused) ∧
      (busy = true → t.mem = s.mem ∧ t.history[i]? = some { r with bytes := [], placed := t.homeClock } ∧
        t.refused = s.refused ++ [i]))

/-- R34, R45, R249, R146, R250-R252: the commit of issues and task-machine operations. A command takes the next number of its
queue, which `scmdt` writes, and a place on chip or in the spill ring, with what the task has released to it. An operation acts on
its record: a notify, a spawn, a set, a deadline, a cancel; one that names no valid record of the generation is a dead letter. A
cancel of what holds the task itself acts after the block. -/
def Sys2Proof.Claims.OperationsCommit : Prop :=
  ∀ (s : State) (c : Ctx) (o : BitVec 21) (x : Issue) (op : TaskOp) (i w : Nat) (t d : Word64) (j : Job),
    let regs := committed c
    let q := s.queue c.job x.qid
    let tw := (s.taskRec c.job c.idx).getD 0
    let cmd : Cmd :=
      { tln := q.next, word := x.word, cls := recClass tw, deadline := BitVec.ofNat 64 (recDeadline tw),
        view := unionNat c.view c.rel, phase := .running, progress := 0, buf := [], desc := 0, stalled := none, node := none,
        counted := [] }
    let does (op : TaskOp) (E : State) : Prop := Commits s c o [] none [] [op] c.view regs E
    let dead (g det : Nat) : State := s.postDead c.job c.die i g det
    let new (a : State) : State := a.setAux
      { job := c.job, idx := i, saved := none, park := none, missed := false, owesOF := false, node := none, startedIn := [] }
    let e : ReadyEntry := { job := c.job, idx := i }
    let gen := bf t.toNat 16 16
    (∃ E, Commits s c o [] none [x] [] c.view
        (match x.dest with
          | some a => regs.setG a (BitVec.ofNat 64 q.next) false []
          | none => regs) E ∧
      (E.queue c.job x.qid).next = q.next + 1 ∧
      (q.spill = [] → q.onChip.length < Config.onChipQueue → (E.queue c.job x.qid).onChip = q.onChip ++ [cmd] ∧
        (E.queue c.job x.qid).spill = []) ∧
      (q.spill ≠ [] ∨ Config.onChipQueue ≤ q.onChip.length → (E.queue c.job x.qid).onChip = q.onChip ∧
        (E.queue c.job x.qid).spill = q.spill ++ [cmd])) ∧
    (s.selfCancel c op = true → Block s c [] none [] [op] → s.commitStop c = none → s.lives c = true → s.refused = [] →
      exec (.jex o) s = .next ((s.setCtx (nextBlock c regs (c.pc + o.signExtend 64 * 16))).taskOp c op)) ∧
    (s.selfCancel c op = false → (∀ t d, op ≠ .deadline t d ∨ bf t.toNat 0 16 ≠ c.idx) → does op (s.taskOp c op)) ∧
    (s.job? c.job = some j → s.taskRec c.job i = some w → i = bf t.toNat 0 16 →
      (recValid w = true → recGen w = gen → recCount w ≠ 0 → s.taskOp c (.dec t) =
        (if recCount w = 1 ∧ (recState w = 0 ∨ recState w = 6)
          then (s.setWord0 c.job i (w % 2 ^ 64 - 1)).makeReady c.job i else s.setWord0 c.job i (w % 2 ^ 64 - 1))) ∧
      (recValid w = true → recGen w = gen → recCount w = 0 → s.taskOp c (.dec t) = dead gen 1) ∧
      (recValid w = false ∨ recGen w ≠ gen → s.taskOp c (.dec t) = dead gen 0 ∧ s.taskOp c (.cancelTask t) = dead gen 0 ∧
        s.taskOp c (.deadline t d) = dead gen 0) ∧
      (recValid w = true → recGen w = gen → s.taskOp c (.cancelTask t) = s.cancelTask c.job i ∧
        (i ≠ c.idx → e ∉ (s.die (s.taskDie w)).ready → s.taskOp c (.deadline t d) =
          ((s.hwWrite c.job (j.recVa i + 24) 8 d.toNat).missDeadline c.job i))) ∧
      (bit w 63 = true → s.taskOp c (.spawn i) = dead 0 2) ∧
      (bit w 63 = false →
        let v := putField (putField (putField (putField (w % 2 ^ 64) 63 1 1) 32 16 (recGen w + 1)) 0 32 0) 56 4 1
        let a := new (s.setWord0 c.job i v)
        s.taskOp c (.spawn i) = a.enqueue (a.taskDie v) e)) ∧
    (s.job? c.job = some j → s.taskRec c.job i = some w →
      let g := bf d.toNat 32 16
      let ls := (s.hwLocs c.job (j.recVa i) 128).getD []
      let mine := c.view.filter (fun k => match s.history[k]? with
        | some r => r.job == c.job && r.agent == c.num && ls.any r.covers
        | none => false)
      let u := mine.foldl State.place s
      let a : State := { u with releases := u.releases ++ [relOf c 4 mine []] }
      let v := putField (putField d.toNat 50 6 c.job) 56 4 (if bf d.toNat 0 32 = 0 then 1 else 0)
      let b := new (a.setWord0 c.job i v)
      (bit d.toNat 63 = false → s.taskOp c (.set i d) = a.clearTask c.job i) ∧
      (∀ x, a.taskRec c.job i = some x → recState x = 2 →
        a.clearTask c.job i = a.setWord0 c.job i (putField (x % 2 ^ 64) 63 1 0)) ∧
      (∀ x, a.taskRec c.job i = some x → recState x ≠ 2 →
        (a.clearTask c.job i).mem = (a.setWord0 c.job i (putField (x % 2 ^ 64) 63 1 0)).mem ∧
        ((a.clearTask c.job i).aux c.job i).park = none) ∧
      (bit d.toNat 63 = true → bit w 63 = true → s.taskOp c (.set i d) = a.postDead c.job c.die i g 4) ∧
      (bit d.toNat 63 = true → bit w 63 = false → g = recGen w → s.taskOp c (.set i d) = a.postDead c.job c.die i g 3) ∧
      (bit d.toNat 63 = true → bit w 63 = false → g ≠ recGen w → s.taskOp c (.set i d) =
        if bf d.toNat 0 32 = 0 then b.enqueue (b.taskDie v) e else b)) ∧
    (∀ sc k, s.taskOp c (.cancelLaunch k) = s.cancelLaunch c.job k ∧ s.taskOp c (.cancelReplay t) = s.cancelReplay c.job t ∧
      s.taskOp c (.cancelPhase sc) = s.cancelPhase (c.agent.instOf sc) c.die ∧ s.taskOp c .cancelJob = s.cancelJob c.job ∧
      s.taskOp c (.run t) = s.requestReplay c.job t c.die)

/-- R39, R34, R37: `done` gives the context up and STATE of the record becomes DONE (4), with no other byte changed
where the record has no notify target and no replay node waits for the task; `yield` gives the context up, and the task has the
registers of its commit and the block that follows saved. -/
def Obligations.TaskEnds : Prop :=
  ∀ (s : State) (c : Ctx) (j : Job) (w : Nat) (ts : List Trans), s.cur = some c → Quiet s c → s.job? c.job = some j →
    s.taskRec c.job c.idx = some w → s.hwSpan c.job (j.recVa c.idx) 8 = some ts →
    (bit w 383 = false → (s.aux c.job c.idx).node = none →
      ∃ t, exec .done s = .next t ∧ t.cur = none ∧ Word0 s t ts (putField (w % 2 ^ 64) 56 4 4) ∧
        (t.aux c.job c.idx).saved = none ∧ t.viewOf c.job c.num = (c.view, c.rel)) ∧
    ∃ t, exec .yield s = .next t ∧ t.cur = none ∧ (t.aux c.job c.idx).saved = some (committed c, behind c)

/-- R31, R36, R37, R28: a scalar fault. The block ends with no effect: the context is given up, the registers and the address
of the block as they were at the last commit are saved in the save area, STATE becomes TRAPPED (6) and COUNT 1, and one event
with SRCK 0 says code, index, generation, block, ADDR and DETAIL. Memory is written at the save area, at word 0 of the record and
by the event alone, and no store of the block is recorded. A context whose record names another task by now, or none, saves
nothing (R38). -/
def Sys2Proof.Claims.TakingAFault : Prop :=
  ∀ (s : State) (c : Ctx) (code addr detail : Nat), s.ctx? c.die c.seq c.ctx = some c →
    let t := s.trapTask c code addr detail
    let a := s.abort c
    let event : EventRec :=
      { code := code, srck := 0, index := c.idx, gen := c.gen, pc := c.pc.toNat, addr := addr, detail := detail }
    t.ctx? c.die c.seq c.ctx = none ∧ (s.lives c = true → (t.aux c.job c.idx).saved = some (c.base, c.pc)) ∧
      (s.lives c = false → (t.aux c.job c.idx).saved = (s.aux c.job c.idx).saved) ∧
      t.viewOf c.job c.num = (c.baseView, c.baseRel) ∧
      t.slots = s.slots ∧ t.queues = s.queues ∧ t.regions = s.regions ∧ t.barriers = s.barriers ∧ t.phases = s.phases ∧
      t.reductions = s.reductions ∧ t.releases = s.releases ∧
      t.history.take s.history.length = s.history ∧ (∀ r ∈ t.history.drop s.history.length, r.agent = hwNum) ∧
      (∀ ts, s.lives c = true → s.hwSpan c.job (recSave ((s.taskRec c.job c.idx).getD 0)) 392 = some ts →
        Written s a ts (saveBytes c.base c.pc)) ∧
      (s.lives c = false ∨ s.hwSpan c.job (recSave ((s.taskRec c.job c.idx).getD 0)) 392 = none → a.mem = s.mem) ∧
      (∀ (j : Job) (w : Nat) (ts : List Trans), a.lives c = true → a.job? c.job = some j → a.taskRec c.job c.idx = some w →
        a.hwSpan c.job (j.recVa c.idx) 8 = some ts → ∃ u, t = u.postEvent c.job c.die event ∧
          Word0 a u ts (putField (putField (w % 2 ^ 64) 56 4 6) 0 32 1) ∧ u.dies = a.dies ∧ u.ports = a.ports) ∧
      (∀ w, a.lives c = false → a.taskRec c.job c.idx = some w → t = a.postEvent c.job c.die event)

/-- R28, R29, R384: post_event. The event stands in the ring at PROD, PROD counts it, the job's host port has the vector
raised, and the handler task is notified; a full ring drops it, counts it as LOST and notifies no one. No other byte of memory
changes but WVER and what the notify writes. -/
def Sys2Proof.Claims.PostingAnEvent : Prop :=
  ∀ (s : State) (job die h w : Nat) (j : Job) (e : EventRec) (ts us : List Trans),
    s.job? job = some j → s.hwRead job j.evRing 24 = some h →
    let prod := bf h 0 64
    let used := (prod + 2 ^ 64 - bf h 64 64) % 2 ^ 64
    let a := s.appendEvent job die e
    (used < j.evCap → s.hwSpan job (j.evRing + 64 + 64 * (prod % j.evCap)) 64 = some ts →
      let u := s.hwPut job ts (toBytes 64 (e.bits die (s.die die).stime.toNat))
      Written s u ts (toBytes 64 (e.bits die (s.die die).stime.toNat)) ∧
      (u.hwSpan job j.evRing 8 = some us → Written u a us (toBytes 8 (prod + 1))) ∧
      (vget a.ports j.evPort Port.reset).vectors = j.num :: (vget s.ports j.evPort Port.reset).vectors) ∧
    (j.evCap ≤ used → s.hwSpan job (j.evRing + 16) 4 = some ts →
      Written s a ts (toBytes 4 (bf h 128 32 + 1)) ∧ a.ports = s.ports ∧ s.postEvent job die e = a) ∧
    (used < j.evCap → j.handler = 0xFFFF → s.postEvent job die e = a) ∧
    (used < j.evCap → j.handler ≠ 0xFFFF → a.taskRec job j.handler = some w → recValid w = true → recCount w ≠ 0 →
      exec (.taskNotify job j.handler (recGen w)) a = .next (s.postEvent job die e)) ∧
    -- where each field of the event stands (R29)
    (let n := e.bits die (s.die die).stime.toNat
     bf n 504 8 = e.code % 2 ^ 8 ∧ bf n 496 8 = e.srck % 2 ^ 8 ∧ bf n 480 2 = die % 4 ∧ bf n 464 16 = e.index % 2 ^ 16 ∧
      bf n 448 16 = e.gen % 2 ^ 16 ∧ bf n 384 64 = (s.die die).stime.toNat ∧ bf n 320 64 = e.pc % 2 ^ 64 ∧
      bf n 256 64 = e.addr % 2 ^ 64 ∧ bf n 0 256 = e.detail % 2 ^ 256)

/-- R255: `trap` takes a USER fault (0x0C), its immediate in DETAIL from bit 16 up. That is its whole effect. -/
def Obligations.TrapInstruction : Prop :=
  decodeScalar 0xFC002007 = .ok (.trap 7) ∧
  ∀ (s : State) (c : Ctx) (k : BitVec 12), s.cur = some c →
    exec (.trap k) s = .next (s.trapTask c 0x0C 0 (c.ip + k.toNat * 2 ^ 16)) ∧
    ∃ t, exec (.trap k) s = .next t ∧ t.cur = none ∧
      (s.lives c = true → (t.aux c.job c.idx).saved = some (c.base, c.pc))

/-- R35-R37: a park. The block ends with no effect and runs again from its beginning when the task is next dispatched;
the task waits for what it parked on. -/
def Sys2Proof.Claims.Parking : Prop :=
  ∀ (s : State) (c : Ctx) (p : Park), s.ctx? c.die c.seq c.ctx = some c →
    let t := s.parkTask c p
    t.ctx? c.die c.seq c.ctx = none ∧ (s.lives c = true → (t.aux c.job c.idx).saved = some (c.base, c.pc)) ∧
      t.viewOf c.job c.num = (c.baseView, c.baseRel) ∧ ((s.abort c).lives c = true → (t.aux c.job c.idx).park = some p) ∧
      t.slots = s.slots ∧ t.queues = s.queues ∧ t.regions = s.regions ∧ t.barriers = s.barriers ∧ t.phases = s.phases

/-- R225-R231, R34, R105: a taken exit commits the block, and the context goes on at the target, blk + offset × 16,
or at the address of `cex`; FLAGS takes what the block raised. A `bex` whose condition is 0 and a `skip` go on in
the block. Whatever a block holds, every taken exit commits it alike. R232, R241-R248, R140, R146: the commit of a
block that holds one operation. `vpub` releases and creates its version; `vretire` retires; `phase` and `barr`
release and arrive; `barm` arms; an `amo` does its step at the home and writes what that held; `redf` and `redinit`
reach the reduction's home. To a reduction window an `amo` reads a free value (log 10), and a `redinit` opens for
one contribution (log 96). R34, R35, R241, R245, R249: what keeps a commit from being made ends the block without
any effect: an access that no longer comes to its bytes, a publication whose number is not above NEWEST or whose
pool is full, a phase that has the highest number, and a queue with no room, which is reported once (the fields of
that event are the model's: log 24). -/
def Obligations.Exits : Prop := Claims.ExitInstructions ∧ Claims.HeldOperationsCommit ∧ Claims.CommitStops

/-- R33: a store that is held in the block is what a later load of the block returns for its bytes. R232, R235,
R236, R239: a store is held in its block: until the commit no byte of memory changes; a version range is no place
for it (R138: subcause 5). R34, R232, R154, R24: the commit of a held store. It gets its place in the task's order,
with what the task knew where it was executed, and memory does not change before it comes home; to a weight store it
arrives with the commit (log 98). One into word 0 of a valid record leaves that word undefined (log 10). R237, R394,
R129: a store comes home later than every one before it; its bytes stand in memory and are counted in WVER, but of
one to a busy weight store no byte does, and it is to be reported. -/
def Obligations.StoresAndForwarding : Prop := Claims.BlockStoresForward ∧ Claims.StoresAreHeld ∧ Claims.HeldStoresCommit

/-- R250-R252, R249: task-machine operations and command issues capture their operands and are held until the
commit; a command is the pair g[P], g[P + 1], the low half first. R34, R45, R249, R146, R250-R252: the commit of
issues and task-machine operations. A command takes the next number of its queue, which `scmdt` writes, and a place
on chip or in the spill ring, with what the task has released to it. An operation acts on its record: a notify, a
spawn, a set, a deadline, a cancel; one that names no valid record of the generation is a dead letter. A cancel of
what holds the task itself acts after the block. -/
def Obligations.CapturedOperations : Prop := Claims.CapturingOperations ∧ Claims.OperationsCommit

/-- R31, R36, R37, R28: a scalar fault. The block ends with no effect: the context is given up, the registers and
the address of the block as they were at the last commit are saved in the save area, STATE becomes TRAPPED (6) and
COUNT 1, and one event with SRCK 0 says code, index, generation, block, ADDR and DETAIL. Memory is written at the
save area, at word 0 of the record and by the event alone, and no store of the block is recorded. A context whose
record names another task by now, or none, saves nothing (R38). R28, R29, R384: post_event. The event stands in the
ring at PROD, PROD counts it, the job's host port has the vector raised, and the handler task is notified; a full
ring drops it, counts it as LOST and notifies no one. No other byte of memory changes but WVER and what the notify
writes. R35-R37: a park. The block ends with no effect and runs again from its beginning when the task is next
dispatched; the task waits for what it parked on. -/
def Obligations.FaultsAndParks : Prop := Claims.TakingAFault ∧ Claims.PostingAnEvent ∧ Claims.Parking

/-! ### Tasks and the scheduler -/

namespace Sys2Proof.Claims

open Sys2Proof.Machine

/-- The legal contents of a register file: g0, its taint and the stored bit of c0 are clear (R198), and so are bits 7 and 5
of FPCTL (R105). -/
def Legal (r : RegFile) : Prop :=
  vget r.g 0 0 = 0 ∧ vget r.taint 0 false = false ∧ vget r.c 0 false = false ∧ r.fpctl &&& 0xA0 = 0

end Sys2Proof.Claims

/-- R37: a save area is 392 bytes, and what was saved in it is what a dispatch restores: the next block, g1-g31, f0-f15,
the taints, c1-c7 and FPCTL. -/
def Sys2Proof.Claims.SaveAndRestore : Prop :=
  ∀ (r : RegFile) (pc : Word64), Legal r →
    (saveBytes r pc).length = 392 ∧ restoreBytes (saveBytes r pc) r = (r, pc)

/-- R38, R37, R41: BLOCK_DISPATCH on a free context of a live die that has not stopped. The task that the die takes
runs with the generation of its record; the first time with ARG in g1, every other register 0 and the block at ENTRY,
later with what its save area holds. The fetch of the block follows. Where no task can be taken nothing happens, but that a record
which the scheduler needs and cannot reach is fetched first (R395, R397; log 95). -/
def Sys2Proof.Claims.Dispatch : Prop :=
  ∀ (s : State) (die seq ctx : Nat) (e : ReadyEntry) (w : Nat),
    s.live die = true → (s.die die).stopped = false → seq < 16 → ctx < 8 → s.ctx? die seq ctx = none →
    (s.nextReady die = none → (∃ x, exec (.blockDispatch die seq ctx) s = .next { s with missed := x }) ∧
      ((∀ e ∈ (s.die die).ready, (s.taskRec e.job e.idx).isSome = true) → exec (.blockDispatch die seq ctx) s = .next s)) ∧
    (s.nextReady die = some e → s.taskRec e.job e.idx = some w →
      ∃ (t : State) (c : Ctx), exec (.blockDispatch die seq ctx) s = .next (t.fetchBlock c) ∧ t.ctx? die seq ctx = some c ∧
        c.die = die ∧ c.seq = seq ∧ c.ctx = ctx ∧ c.job = e.job ∧ c.idx = e.idx ∧ c.gen = recGen w ∧ c.words = [] ∧
        c.base = c.regs ∧ c.held = [] ∧ c.raised = 0 ∧
        ((s.aux e.job e.idx).saved = none → c.pc = BitVec.ofNat 64 (recEntry w) ∧
          c.regs.rdG 1 = BitVec.ofNat 64 (recArg w) ∧ (∀ k, k ≠ 1 → c.regs.rdG k = 0) ∧
          (∀ k, c.regs.rdTaint k = false) ∧ (∀ k, c.regs.rdF k = 0) ∧ (∀ k, k ≠ 0 → c.regs.rdC k = false) ∧
          c.regs.fpctl = 0) ∧
        (∀ r pc ls, (s.aux e.job e.idx).saved = some (r, pc) → s.hwLocs e.job (recSave w) 392 = some ls →
          (c.regs, c.pc) = restoreBytes (s.homeBytes ls) r))

/-- R35, R26, R40: what makes a task READY. STATE of its record becomes 1, with no other byte changed but WVER; it waits for
nothing any more, and it stands in the ready queue of its die, or in the PARK chain when the queue is full, which the model keeps
beside the records (log 85). -/
def Sys2Proof.Claims.BecomingReady : Prop :=
  ∀ (s : State) (job i w : Nat) (j : Job) (ts : List Trans),
    s.job? job = some j → s.taskRec job i = some w → recValid w = true → s.hwSpan job (j.recVa i) 8 = some ts →
    let t := s.makeReady job i
    let e : ReadyEntry := { job := job, idx := i }
    Word0 s t ts (putField (w % 2 ^ 64) 56 4 1) ∧ (t.aux job i).park = none ∧
      (e ∈ (t.die (s.taskDie w)).ready ∨ e ∈ (t.die (s.taskDie w)).chain) ∧ t.ctxs = s.ctxs ∧ t.jobs = s.jobs ∧
      t.queues = s.queues ∧ t.regions = s.regions

/-- R26: TASK_NOTIFY subtracts 1 from COUNT of a valid record of the generation, in one atomic step; a task in WAITING (0)
or TRAPPED (6) that comes to 0 becomes READY. A record that is not valid or has another generation takes a dead letter, and so
does a COUNT of 0, with detail UNDERFLOW, and an index beyond the table. -/
def Sys2Proof.Claims.Notifies : Prop :=
  (∀ (s : State) (job i g : Nat) (j : Job), s.job? job = some j → j.tasks ≤ i →
    exec (.taskNotify job i g) s = .next (s.postDead job 0 i g 0)) ∧
  ∀ (s : State) (job i g w : Nat) (j : Job) (ts : List Trans),
    s.job? job = some j → s.taskRec job i = some w → s.hwSpan job (j.recVa i) 8 = some ts →
    let die := (s.recHome job i).getD 0
    (recValid w = true → recGen w = g → recCount w ≠ 0 →
      (recCount w = 1 ∧ (recState w = 0 ∨ recState w = 6) → exec (.taskNotify job i g) s =
        .next ((s.setWord0 job i (w % 2 ^ 64 - 1)).makeReady job i)) ∧
      (¬(recCount w = 1 ∧ (recState w = 0 ∨ recState w = 6)) →
        ∃ t, exec (.taskNotify job i g) s = .next t ∧ Word0 s t ts (w % 2 ^ 64 - 1) ∧ t.tasks = s.tasks ∧
          t.dies = s.dies ∧ t.ctxs = s.ctxs)) ∧
    (recValid w = true → recGen w = g → recCount w = 0 →
      exec (.taskNotify job i g) s = .next (s.postDead job die i g 1)) ∧
    (recValid w = false ∨ recGen w ≠ g → exec (.taskNotify job i g) s = .next (s.postDead job die i g 0))

/-- R42, R35, R37: CONTEXT_PREEMPT. Where all 128 contexts of a die are busy and a READY task of a higher class stands first,
the running task of a lower class that yields first gives its context up: its running block aborts, its registers and block of
the last commit are saved, and it is READY again. Where no task must give way, nothing happens. -/
def Sys2Proof.Claims.Preemption : Prop :=
  ∀ (s : State) (die k : Nat) (c : Ctx) (e : ReadyEntry),
    let cls (x : Ctx) : Nat := recClass ((s.taskRec x.job x.idx).getD 0)
    let given (t : State) : Prop := t.ctx? c.die c.seq c.ctx = none ∧
      (s.lives c = true → (t.aux c.job c.idx).saved = some (c.base, c.pc)) ∧ t.viewOf c.job c.num = (c.baseView, c.baseRel)
    (s.toYield die = some c → ∃ t, exec (.contextPreempt die) s = .next t ∧ given t ∧
      ((s.abort c).lives c = true →
        let u := (s.abort c).setTaskState c.job c.idx 1
        t = u.enqueue (u.taskDie ((u.taskRec c.job c.idx).getD 0)) { job := c.job, idx := c.idx }) ∧
      ((s.abort c).lives c = false → t = s.abort c)) ∧
    (128 ≤ (s.ctxs.filter (fun x => x.die == die)).length → s.nextReady die = some e →
      recClass ((s.taskRec e.job e.idx).getD 0) = k → c ∈ s.ctxs → c.die = die → cls c < k →
      (∀ x ∈ s.ctxs, x.die = die → x ≠ c → cls x < k → s.yieldsBefore c x = true ∧ s.yieldsBefore x c = false) →
      s.ctx? c.die c.seq c.ctx = some c → ∃ t, exec (.contextPreempt die) s = .next t ∧ given t) ∧
    ((s.ctxs.filter (fun x => x.die == die)).length < 128 ∨ s.nextReady die = none → exec (.contextPreempt die) s = .next s) ∧
    (s.toYield die = none → exec (.contextPreempt die) s = .next s)

/-- R41, R43, R248, R128: steps of station time. A new class-budget period begins with nothing charged; a deadline that has
passed is missed once for a generation: the miss is counted, DEADLINE_MISS is posted (its SRCK, INDEX, GEN, ADDR and DETAIL are those of log 24), and MISSK cancels the
task; a task whose
`twait` time has come, or whose bank of a weight store is open again, becomes READY. -/
def Sys2Proof.Claims.TimeSteps : Prop :=
  ∀ (s : State) (die job i w n : Nat),
    let k := (s.die die).stime.toNat / 16000
    let home := s.taskDie w
    let now := (s.die home).stime.toNat
    let a : State := s.setAux { s.aux job i with missed := true }
    let x := a.die home
    let missed : State := (a.setDie home { x with counters := { x.counters with dlmiss := x.counters.dlmiss + 1 } }).postEvent
      job home { code := 0x19, srck := 5, index := i, gen := recGen w }
    ((s.die die).period < k → exec (.classBudgetPeriod die) s =
      .next (s.setDie die { s.die die with period := k, charged := Vector.replicate 8 0 })) ∧
    (k ≤ (s.die die).period → exec (.classBudgetPeriod die) s = .next s) ∧
    (s.taskRec job i = some w → recValid w = true → recState w ≠ 4 → recState w ≠ 5 → (s.aux job i).missed = false →
      recDeadline w ≠ 0 → recDeadline w < now →
      exec (.deadlineMiss job i) s = .next (if bit w 445 then missed.cancelTask job i else missed)) ∧
    (s.taskRec job i = some w → recValid w = false ∨ recState w = 4 ∨ recState w = 5 ∨ (s.aux job i).missed = true ∨
      recDeadline w = 0 ∨ now ≤ recDeadline w → exec (.deadlineMiss job i) s = .next s) ∧
    (s.taskRec job i = some w → (s.aux job i).park = some (.time n) →
      (n ≤ now → exec (.twaitWake job i) s = .next (s.makeReady job i)) ∧
      (now < n → exec (.twaitWake job i) s = .next s)) ∧
    (∀ d, (s.aux job i).park = some (.bank d n) →
      (n ≤ (s.die d).stime.toNat → exec (.twaitWake job i) s = .next (s.makeReady job i)) ∧
      ((s.die d).stime.toNat < n → exec (.twaitWake job i) s = .next s))

/-- R51, R50, R49, R252: cancelling. A task that has not ended loses its context, its place in every queue and what it waits
for; STATE becomes CANCELLED (5), and its notify target is notified once. A launch's commands finish and its region is ARMED
again, or stays SAVED. A replay ends, and so do the requests of its timetable that have not started. Of a cancelled job no
command, run, fill, call or publication remains. What has ended, or does not run, is left alone. -/
def Obligations.Cancelling : Prop :=
  ∀ (s : State) (job i v w : Nat) (j : Job) (va : Word64),
    let e : ReadyEntry := { job := job, idx := i }
    let a := match s.ctxOf job i (recGen w) with
      | some c => s.abort c
      | none => s
    let t := s.cancelTask job i
    let ended : Prop := recValid w = false ∨ recState w = 4 ∨ recState w = 5
    (s.taskRec job i = some w → (ended → t = s) ∧ (¬ended →
      (∀ c, s.ctxOf job i (recGen w) = some c → t.ctx? c.die c.seq c.ctx = none) ∧
      ∀ x ts, s.job? job = some j → a.taskRec job i = some x → a.hwSpan job (j.recVa i) 8 = some ts →
        ∃ u, Word0 a u ts (putField (x % 2 ^ 64) 56 4 5) ∧ u.ctxs = a.ctxs ∧ (u.aux job i).park = none ∧
          (∀ d, e ∉ (u.die d).ready ∧ e ∉ (u.die d).chain) ∧
          t = if bit w 383 then u.notify job (s.taskDie w) (bf w 320 16) (bf w 336 16) else u)) ∧
    (s.region? job v = none → s.cancelLaunch job v = s) ∧
    (∀ r, s.region? job v = some r → (r.launch = none → s.cancelLaunch job v = s) ∧ (r.launch.isSome = true →
      let u := s.cancelLaunch job v
      (∀ k ∈ r.launch.getD [], u.cmd? job k.1 k.2 = none) ∧
      ∃ x, u.region? job v = some x ∧ x.launch = none ∧ x.state = (if r.state.holdsTiles then .armed else r.state) ∧
        ∀ p ∈ x.body.ports, p.cmds = [])) ∧
    (let u := s.cancelReplay job va
     (∀ d r, s.replayOf job va = some (d, r) → ∀ x ∈ (u.die d).running, ¬(x.job = job ∧ x.va = va)) ∧
      ∀ d, (job, va) ∉ (u.die d).replays) ∧
    (s.resident? job = none → s.cancelJob job = s) ∧
    (s.resident? job = some j →
      let u := s.cancelJob job
      (∀ q, (u.queue job q).onChip = [] ∧ (u.queue job q).spill = [] ∧ (u.queue job q).started = []) ∧
      (∀ x ∈ u.txruns, x.job ≠ job) ∧ (∀ x ∈ u.colls, x.job ≠ job) ∧ (∀ x ∈ u.pubs, x.job ≠ job) ∧
      ∀ d, ∀ f ∈ (u.die d).fills, f.job ≠ job)

/-- R47: BARRIER_ARRIVAL. A barrier that is armed adds the weight to SUM; at EXPECT its generation completes: GEN
advances, LASTERR takes the errors of the generation, OVERRUN says that the weights exceeded EXPECT, and SUM and ERR
start anew. No other barrier changes. An arrival that no barrier takes is a
dead letter, with DETAIL 5 where its number or die is none (log 18). -/
def Sys2Proof.Claims.BarrierArrivals : Prop :=
  ∀ (s : State) (job die num agent : Nat) (w : BitVec 32) (err : Bool),
    let at_ : Agent := { job := job, num := agent, die := bf agent 18 2, quarter := 4, region := none }
    let u := (s.release at_ 4 (s.viewOf job agent).1 (s.viewOf job agent).2).2
    let b := s.barrier die num
    let total := b.sum.toNat + (if w = 0 then 1 else w.toNat)
    (s.live die = true → num < 768 →
    (b.expect ≠ 0 → ∃ t, exec (.barrierArrival job die num w err agent) s = .next t ∧
      (total < b.expect.toNat → (t.barrier die num).sum = BitVec.ofNat 32 total ∧ (t.barrier die num).gen = b.gen ∧
        (t.barrier die num).err = (b.err || err) ∧ (t.barrier die num).lasterr = b.lasterr ∧
        (t.barrier die num).overrun = b.overrun) ∧
      (b.expect.toNat ≤ total → (t.barrier die num).sum = 0 ∧ (t.barrier die num).gen = b.gen + 1 ∧
        (t.barrier die num).err = false ∧ (t.barrier die num).lasterr = (b.err || err) ∧
        (t.barrier die num).overrun = (b.overrun || decide (b.expect.toNat < total))) ∧
      (t.barrier die num).expect = b.expect ∧ ∀ d n, ¬(d = die ∧ n = num) → t.barrier d n = s.barrier d n) ∧
    (b.expect = 0 → exec (.barrierArrival job die num w err agent) s = .next (u.postEvent job die (deadLetter 6 num 0 0)))) ∧
    (768 ≤ num ∨ s.live die = false → exec (.barrierArrival job die num w err agent) s =
      .next (u.postEvent job die (deadLetter 6 num 0 5)))

/-- R148, R156, R157: phases beyond a die. A die whose share of a boundary is in sends one staff of SKIND 1 to every other
live die, and the boundary completes there when the staffs of all others are held; releases that no staff has covered go out
with one of SKIND 2, and only then (log 69). A staff that arrives is held, and what it covers is known. The external switch completes a window or world
boundary when every live die's share is in. A boundary that completes advances P by 1. -/
def Sys2Proof.Claims.PhaseBoundaries : Prop :=
  ∀ (s : State) (job d e : Nat) (sc : BitVec 3) (x : Staff),
    let i : ScopeAt := { scope := sc.toNat, job := job, key := 0 }
    let p := s.phaseAt i d
    let n := p.p.toNat + 1
    let rs := s.releasesTo i d
    let all : Prop := ∀ k ∈ s.liveDies, k ≠ d → ∃ h ∈ p.held, h.1 = k ∧ n ≤ h.2
    let sends (t : State) (skind phase : Nat) : Prop := ∀ k ∈ s.liveDies, k ≠ d → ∃ y ∈ t.staffs, y.skind = skind ∧ y.sdie = d ∧
      y.ddie = k ∧ y.scope = sc.toNat ∧ y.job = job ∧ y.phase = phase ∧ y.rseq = rs.length ∧ y.stamp = (s.die d).stime ∧
      y.rels = p.rels ∧ (∀ r ∈ rs, ∀ m ∈ r.view, m ∈ y.covers) ∧ ∀ m ∈ p.known, m ∈ y.covers
    (4 ≤ sc.toNat → s.live d = true → (s.job? job).isSome = true →
      (s.shareDone i d = true → p.sent < n → ∃ t, exec (.staffSend job sc d) s = .next t ∧ sends t 1 n ∧
        (t.phaseAt i d).sent = n ∧ (t.phaseAt i d).rseq = rs.length ∧
        (sc.toNat < 6 → all → (t.phaseAt i d).p = p.p + 1 ∧ (t.phaseAt i d).arrived = 0) ∧
        (6 ≤ sc.toNat ∨ ¬all → (t.phaseAt i d).p = p.p ∧ t.mem = s.mem)) ∧
      (s.shareDone i d = false ∨ n ≤ p.sent → p.rseq < rs.length → ∃ t, exec (.staffSend job sc d) s = .next t ∧ sends t 2 0 ∧
        (t.phaseAt i d).sent = p.sent ∧ (t.phaseAt i d).p = p.p ∧ (t.phaseAt i d).rseq = rs.length ∧ t.mem = s.mem)) ∧
    (s.reach e d = true → s.staffs.find? (fun y => y.sdie == e && y.ddie == d && y.scope == sc.toNat && y.job == job) =
        some x →
      ∃ t, exec (.staffReceive job sc e d) s = .next t ∧ x ∉ t.staffs ∧ (∀ m ∈ x.covers, m ∈ (t.phaseAt i d).known) ∧
        (x.skind = 1 → (e, x.phase) ∈ (t.phaseAt i d).held ∧ ∀ r ∈ x.rels, r ∈ (t.phaseAt i d).rels) ∧
        (x.skind ≠ 1 ∨ s.shareDone i d = false → (t.phaseAt i d).p = p.p)) ∧
    (6 ≤ sc.toNat → s.live d = true → s.shareDone i d = true →
      ((∀ k ∈ s.liveDies, s.shareDone i k = true ∨ n ≤ (s.phaseAt i k).p.toNat) →
        ∃ t, exec (.switchBoundaryComplete job sc d) s = .next t ∧ (t.phaseAt i d).p = p.p + 1 ∧
          (t.phaseAt i d).arrived = 0) ∧
      ((∃ k ∈ s.liveDies, s.shareDone i k = false ∧ (s.phaseAt i k).p.toNat < n) →
        exec (.switchBoundaryComplete job sc d) s = .next s))

/-! ### Versions and reductions -/

/-- R135, R136: reclamation removes versions from the low end alone, only those retired by the quorum, and never
NEWEST; a versioned load finds what the table of R136 says. -/
def Sys2Proof.Claims.VersionRules : Prop :=
  (∀ (q : Nat) (l : List Version), ∃ k, reclaimLive q l = l.drop k ∧ (∀ v ∈ l.take k, q ≤ v.retired) ∧
    (l ≠ [] → reclaimLive q l ≠ [] ∧ (reclaimLive q l).getLast? = l.getLast?) ∧
    (∀ v rest, reclaimLive q l = v :: rest → rest ≠ [] → v.retired < q)) ∧
  (∀ (x : Slot) (n : Nat) (v : Version), x.live.getLast? = some v →
    vlook x .newest n = .version v ∧ (n ≤ v.num.toNat → vlook x .atLeast n = .version v) ∧
    (v.num.toNat < n → vlook x .atLeast n = .wait) ∧ (n < x.floor → vlook x .exact n = .gone) ∧
    (x.floor ≤ n → v.num.toNat < n → vlook x .exact n = .wait) ∧
    (x.floor ≤ n → n ≤ v.num.toNat → ∀ y, x.version? n = some y → vlook x .exact n = .version y) ∧
    (x.floor ≤ n → n ≤ v.num.toNat → x.version? n = none → vlook x .exact n = .skipped))

/-- R133, R134, R135, R140: VERSION_PUBLISH at a slot's home. A number not above NEWEST is refused, and a full pool makes it wait;
else the publishing agent's release is performed, and the version is created: its bytes are those given, the others carried
forward from NEWEST, its stamp is the home's station time. The number of a closed reduction's publication is NEWEST + 1 when it is
applied (log 90), and an event says when there is none left; the command that made a publication ends with it, or fails with
VERSION_EXISTS. VERSION_RETIRE counts a retirement of every live version up to its
number. Reclamation follows both. -/
def Sys2Proof.Claims.VersionSteps : Prop :=
  ∀ (s : State) (k job : Nat) (a : Word64) (m : BitVec 32) (p : Publication) (r : SlotRef) (y : Version),
    let x := s.slotAt p.job p.target
    let n := if p.auto then x.newest + 1 else p.num.toNat
    let q := p.target.entry
    let gone : State := { s with pubs := s.pubs.eraseIdx k }
    let released := (gone.release p.agent (rgScope q) p.view []).2
    let live := (released.slotAt p.job p.target).live
    let z := s.slotAt job r
    (s.pubs[k]? = some p →
      (n ≤ x.newest ∨ 2 ^ 32 ≤ n → p.cmd = none → exec (.versionPublish k) s = .next (if p.auto then
        gone.postEvent p.job (s.slotHome p.target) { code := 0x08, srck := 4, addr := p.va.toNat } else gone)) ∧
      (∀ q m c, n ≤ x.newest ∨ 2 ^ 32 ≤ n → p.auto = false → p.cmd = some (q, m) → s.cmd? p.job q m = some c →
        exec (.versionPublish k) s = .next (gone.setCmd p.job q { c with phase := .ended (.fail 0x08 0 p.va 0) })) ∧
      (x.newest < n → n < 2 ^ 32 → rgK q ≤ x.live.length → exec (.versionPublish k) s = .next s) ∧
      (x.newest < n → n < 2 ^ 32 → x.live.length < rgK q → live.getLast? = some y → y.data.wf = true →
        ∃ (t : State) (v : Version), exec (.versionPublish k) s = .next t ∧
          (t.slotAt p.job p.target).live = reclaimLive (rgQ q) (live ++ [v]) ∧ v.num = BitVec.ofNat 32 n ∧
          v.retired = 0 ∧ v.stamp = (s.die (s.slotHome p.target)).stime ∧
          (∀ o, (∀ b ∈ p.data, o ≠ b.1) → v.data.read o = y.data.read o) ∧
          ((p.data.map (fun b => b.1)).Nodup → ∀ b ∈ p.data, v.data.read b.1 = b.2) ∧
          (∀ q m c, p.cmd = some (q, m) → s.cmd? p.job q m = some c → ∃ c', t.cmd? p.job q m = some c' ∧ c'.phase = .ended .ok) ∧
          t.pubs = s.pubs.eraseIdx k ∧ t.ctxs = s.ctxs)) ∧
    (s.slotOf job a.toNat = some r →
      (m.toNat < z.floor → exec (.versionRetire job a m) s = .next s) ∧
      (z.floor ≤ m.toNat → ∃ t, exec (.versionRetire job a m) s = .next t ∧
        (t.slotAt job r).live = reclaimLive (rgQ r.entry)
          (z.live.map (fun v => if v.num.toNat ≤ min m.toNat z.newest then { v with retired := v.retired + 1 } else v)) ∧
        t.pubs = s.pubs ∧ t.ctxs = s.ctxs))

/-- R140, R141: REDUCTION_CONTRIBUTION. A contribution to no open reduction, or of an index that is out of range or has
come before, is discarded with a PROTECT event of subcause 21; one that is not the next is kept in the reorder buffer while that
has room, and waits in transport when it has none; the next one is added, the first being taken as it is. -/
def Sys2Proof.Claims.Contributions : Prop :=
  ∀ (s : State) (k : Nat) (c : Contribution) (r : Reduction), s.transit[k]? = some c →
    let home := (s.atomicUnit c.target).1
    let event : EventRec := { code := 0x05, srck := 4, addr := c.va.toNat, detail := 21 * 2 ^ 8 + c.index * 2 ^ 32 }
    let gone (t : State) : State := { t with transit := t.transit.eraseIdx k }
    (s.redAt c.job c.target c.f32 = none → exec (.reductionContribution k) s = .next (gone (s.postEvent c.job home event))) ∧
    (s.redAt c.job c.target c.f32 = some r →
      (r.count ≤ c.index ∨ c.index < r.next ∨ (∃ d ∈ r.held, d.index = c.index) →
        exec (.reductionContribution k) s = .next (gone (s.postEvent c.job home event))) ∧
      (r.next < c.index → c.index < r.count → (∀ d ∈ r.held, d.index ≠ c.index) → (∀ d ∈ r.held, d.index ≠ r.next) →
        (s.heldAt c.target < 256 → ∃ t, exec (.reductionContribution k) s = .next t ∧
          t.redAt c.job c.target c.f32 = some { r with held := c :: r.held } ∧ t.transit = s.transit.eraseIdx k ∧
          t.mem = s.mem) ∧
        (256 ≤ s.heldAt c.target → exec (.reductionContribution k) s = .next s)) ∧
      (r.next = 0 → c.index = 0 → 1 < r.count → r.held = [] → ∃ t, exec (.reductionContribution k) s = .next t ∧
        t.redAt c.job c.target c.f32 = some { r with
          next := 1
          acc := BitVec.ofNat 64 (roundF (if r.f32 then .fp32 else .fp64) 0 0 .ieee
            (decodeF (if r.f32 then .fp32 else .fp64) c.value.toNat)).1 }))

/-- R37: a save area is 392 bytes, and what was saved in it is what a dispatch restores: the next block, g1-g31,
f0-f15, the taints, c1-c7 and FPCTL. R38, R37, R41: BLOCK_DISPATCH on a free context of a live die that has not
stopped. The task that the die takes runs with the generation of its record; the first time with ARG in g1, every
other register 0 and the block at ENTRY, later with what its save area holds. The fetch of the block follows. Where
no task can be taken nothing happens, but that a record which the scheduler needs and cannot reach is fetched first
(R395, R397; log 95). -/
def Obligations.SaveAndDispatch : Prop := Claims.SaveAndRestore ∧ Claims.Dispatch

/-- R35, R26, R40: what makes a task READY. STATE of its record becomes 1, with no other byte changed but WVER; it
waits for nothing any more, and it stands in the ready queue of its die, or in the PARK chain when the queue is
full, which the model keeps beside the records (log 85). R26: TASK_NOTIFY subtracts 1 from COUNT of a valid record
of the generation, in one atomic step; a task in WAITING (0) or TRAPPED (6) that comes to 0 becomes READY. A record
that is not valid or has another generation takes a dead letter, and so does a COUNT of 0, with detail UNDERFLOW,
and an index beyond the table. -/
def Obligations.ReadyAndNotified : Prop := Claims.BecomingReady ∧ Claims.Notifies

/-- R42, R35, R37: CONTEXT_PREEMPT. Where all 128 contexts of a die are busy and a READY task of a higher class
stands first, the running task of a lower class that yields first gives its context up: its running block aborts,
its registers and block of the last commit are saved, and it is READY again. Where no task must give way, nothing
happens. R41, R43, R248, R128: steps of station time. A new class-budget period begins with nothing charged; a
deadline that has passed is missed once for a generation: the miss is counted, DEADLINE_MISS is posted (its SRCK,
INDEX, GEN, ADDR and DETAIL are those of log 24), and MISSK cancels the task; a task whose `twait` time has come, or
whose bank of a weight store is open again, becomes READY. -/
def Obligations.PreemptionAndTime : Prop := Claims.Preemption ∧ Claims.TimeSteps

/-- R47: BARRIER_ARRIVAL. A barrier that is armed adds the weight to SUM; at EXPECT its generation completes: GEN
advances, LASTERR takes the errors of the generation, OVERRUN says that the weights exceeded EXPECT, and SUM and ERR
start anew. No other barrier changes. An arrival that no barrier takes is a dead letter, with DETAIL 5 where its
number or die is none (log 18). R148, R156, R157: phases beyond a die. A die whose share of a boundary is in sends
one staff of SKIND 1 to every other live die, and the boundary completes there when the staffs of all others are
held; releases that no staff has covered go out with one of SKIND 2, and only then (log 69). A staff that arrives is
held, and what it covers is known. The external switch completes a window or world boundary when every live die's
share is in. A boundary that completes advances P by 1. -/
def Obligations.BarriersAndBoundaries : Prop := Claims.BarrierArrivals ∧ Claims.PhaseBoundaries

/-- R135, R136: reclamation removes versions from the low end alone, only those retired by the quorum, and never
NEWEST; a versioned load finds what the table of R136 says. R133, R134, R135, R140: VERSION_PUBLISH at a slot's
home. A number not above NEWEST is refused, and a full pool makes it wait; else the publishing agent's release is
performed, and the version is created: its bytes are those given, the others carried forward from NEWEST, its stamp
is the home's station time. The number of a closed reduction's publication is NEWEST + 1 when it is applied (log
90), and an event says when there is none left; the command that made a publication ends with it, or fails with
VERSION_EXISTS. VERSION_RETIRE counts a retirement of every live version up to its number. Reclamation follows both. -/
def Obligations.VersionRulesAndSteps : Prop := Claims.VersionRules ∧ Claims.VersionSteps

/-! ### Stream commands -/

namespace Sys2Proof.Claims

open Sys2Proof.Machine

/-- The command whose turn it is runs on queue `q` of a job. -/
def Running (s : State) (job q : Nat) (c : Cmd) : Prop := s.curCmd = some (job, q, c) ∧ c.phase = .running

/-- `t` is `s` with the command become `c'`, and nothing else changed: no other command, no other queue, no byte of memory, no
other field of the state. -/
def CmdMovedTo (s : State) (job q : Nat) (c' : Cmd) (t : State) : Prop :=
  t.cmd? job q c'.tln = some c' ∧ (∀ n, n ≠ c'.tln → t.cmd? job q n = s.cmd? job q n) ∧
    (∀ j k, ¬(j = job ∧ k = q) → t.queue j k = s.queue j k) ∧ { t with queues := s.queues } = s ∧
    ∀ l, t.mem.read l = s.mem.read l

/-- `exec i s` answers a next state in which the command whose turn it is has become `c'`, and NOTHING else has changed. -/
def CmdMoves (i : Instr) (s : State) (job q : Nat) (c' : Cmd) : Prop := ∃ t, exec i s = .next t ∧ CmdMovedTo s job q c' t

/-- The access to `ts` comes to the gates of its queue's activity: the command waits there, or moves to `c'` behind them, and
nothing changes but what the gates have drawn (R425). -/
def CmdGated (i : Instr) (s : State) (job q : Nat) (c : Cmd) (ts : List Trans) (c' : Cmd) : Prop :=
  match s.queuePass job q c ts with
  | .inl g => exec i s = .next g
  | .inr g => ∃ t, exec i s = .next t ∧ CmdMovedTo g job q c' t

/-- Page leaves of a write, with what they held, that the command has not counted as they stand (R122; log 100). -/
def newLeaves (m : Memory) (counted : List (Nat × Nat)) (ts : List Trans) : List (Nat × Nat) :=
  ((ts.filterMap (fun t => t.leaf)).map (fun l => (l, ofBytes ((upFrom l 8).map m.read)))).eraseDups.filter
    (fun e => !counted.contains e)

/-- Memory behind a write of `bs` by a command at `ts`: WVER of those leaves counts it, and no other byte differs. -/
def CmdLanded (m : Memory) (counted : List (Nat × Nat)) (ts : List Trans) (bs : List Byte) : Memory :=
  (m.counted ((newLeaves m counted ts).map (fun e => e.1))).writeCells (cells (ts.map (fun t => t.loc)) bs)

/-- The command fails with a code and a subcause (R260): COMMAND_FINISH finishes it. -/
def CmdFails (i : Instr) (s : State) (job q : Nat) (c : Cmd) (code subc addr : Nat) : Prop :=
  CmdMoves i s job q { c with phase := .ended (.fail code subc (BitVec.ofNat 64 addr) 0) }

/-- A read of `n` bytes at `va` by a command comes to its bytes, none of which lies in a versioned range. -/
def CmdReads (s : State) (job q va n : Nat) (ts : List Trans) : Prop :=
  s.access (s.queueDie job q) job (s.jobRanges job) .read va n = .ok ts ∧ Plain ts

/-- A write of `n` bytes at `va` by a command comes to its bytes: none in a versioned range or in a busy weight store; the
gate of its activity lets it pass, and no later command of its context has written before it. -/
def CmdWrites (s : State) (job q kind : Nat) (c : Cmd) (va n : Nat) (ts : List Trans) (gated : State) : Prop :=
  s.access (s.queueDie job q) job (s.jobRanges job) .write va n = .ok ts ∧ Plain ts ∧
    s.wsHit (ts.map (fun t => t.loc)) = false ∧
    s.passGate (s.queueDie job q) kind (qNum q) job q c ts = .inr gated ∧ ∀ w ∈ (s.queue job q).writes, w.1 ≤ c.tln

/-- The command has written `bs` at the locations of `ts`, no other byte of memory differs but the WVER of the page leaves that
lead there, and the command has advanced by them and stands in phase `p`. -/
def Wrote (i : Instr) (s : State) (job q : Nat) (c : Cmd) (ts : List Trans) (bs : List Byte) (p : CmdPhase) : Prop :=
  ∃ (t : State) (c' : Cmd), exec i s = .next t ∧ t.mem = CmdLanded s.mem c.counted ts bs ∧
    c'.counted = c.counted ++ newLeaves s.mem c.counted ts ∧
    t.cmd? job q c.tln = some c' ∧ c'.progress = c.progress + bs.length ∧ c'.phase = p ∧ c'.word = c.word ∧
    t.ctxs = s.ctxs ∧ t.regions = s.regions

/-- The command has read the bytes of `ts` behind those it holds, and no byte of memory differs. -/
def Gathered (i : Instr) (s : State) (job q : Nat) (c : Cmd) (ts : List Trans) (n : Nat) : Prop :=
  ∃ (t : State) (c' : Cmd), exec i s = .next t ∧ t.mem = s.mem ∧ t.cmd? job q c.tln = some c' ∧
    c'.progress = c.progress + n ∧ c'.phase = .running ∧
    ((s.queue job q).writes = [] → c'.buf = c.buf ++ s.readBytes job c.view (ts.map (fun x => x.loc))) ∧ t.ctxs = s.ctxs ∧
    t.regions = s.regions

/-- Length of the next request of a transfer at address `a` with `left` bytes to go: up to the next 256-byte boundary
(R425). -/
def request (a left : Nat) : Nat := min left (256 - a % 256)

/-- A finished timeline number: the counter has passed it, or waits for a lower one (R151). -/
def Finished (t : State) (job q n : Nat) : Prop := n ≤ (t.queue job q).counter ∨ n ∈ (t.queue job q).finished

end Sys2Proof.Claims

/-- R258, R263, R264: COMMAND_START. The command that its context takes next, and that wins its engine, leaves the queue
and runs; a data command joins the launch of its region, which is RUNNING from then on, and stands last at its port. A
region in no fitting state makes it fail with PROTECT, subcause 12. -/
def Sys2Proof.Claims.CommandsStart : Prop :=
  ∀ (s : State) (job q k : Nat) (c : Cmd) (r : Region) (p : ExtPort),
    s.cmd? job q c.tln = none → s.winsEngine job q c = true →
    let starts (ph : CmdPhase) : Prop := ∃ (t : State) (c' : Cmd), exec (.commandStart job q) s = .next t ∧
      t.cmd? job q c.tln = some c' ∧ c'.word = c.word ∧ c'.phase = ph ∧ t.ctxs = s.ctxs
    (s.candidate job q = some (k, c, .go) → starts .running) ∧
    (s.candidate job q = some (k, c, .wrongState) → starts (.ended (.fail 0x05 12 0 0))) ∧
    (s.candidate job q = some (k, c, .go) → isData c.op = true → s.region? job c.region = some r →
      (r.state = .armed ∨ r.state = .running) → r.body.ports[c.port]? = some p →
      ∃ (t : State) (r' : Region), exec (.commandStart job q) s = .next t ∧ t.region? job c.region = some r' ∧
        r'.state = .running ∧ (q, c.tln) ∈ r'.launch.getD [] ∧
        r'.body.ports[c.port]? = some { p with cmds := p.cmds ++ [(q, c.tln)] }) ∧
    (s.candidate job q = none → exec (.commandStart job q) s = .next s)

/-- R259, R151: COMMAND_FINISH. A command that has ended leaves its queue exactly once, and its timeline number is
finished; a command that has not ended stays. -/
def Sys2Proof.Claims.CommandsFinish : Prop :=
  ∀ (s : State) (job q n : Nat) (c : Cmd) (r : CmdResult), s.cmd? job q n = some c → n ≠ 0 →
    (c.phase = .ended r → isData c.op = false ∨ (∀ x y z w, r ≠ .fail x y z w) → ∃ t, exec (.commandFinish job q n) s = .next t ∧
      t.cmd? job q n = none ∧ Finished t job q n ∧ (s.queue job q).counter ≤ (t.queue job q).counter) ∧
    ((∀ x, c.phase ≠ .ended x) → exec (.commandFinish job q n) s = .next s)

/-- R263: a started data command waits at its port for the operator that carries it out. -/
def Sys2Proof.Claims.DataCommands : Prop :=
  ∀ (s : State) (job q : Nat) (c : Cmd) (h : CmdHead) (r p : BitVec 6) (b : Bool) (m : BitVec 2) (n : BitVec 36)
    (a : BitVec 56), Running s job q c →
    let waits (i : Instr) : Prop := CmdMoves i s job q { c with phase := .atPort }
    waits (.load h r p b n a) ∧ waits (.store h r p n a) ∧ waits (.publish h r p n a) ∧ waits (.vload h r p m b n a)

/-- R282, R147: `notify` does nothing but finish. `bwait` fails on a barrier of a dead die (0x1B) and on one that is not
armed, is another job's or does not exist (PROTECT, subcause 9), ends when the generation has passed, unsuccessfully where
LASTERR is set, and else waits; `tlwaitq` ends when the counter has come to its number, and fails with PROTECT, subcause 7, where
its queue id names no queue in reach. Each acquires what was released for the event. -/
def Sys2Proof.Claims.QueueWaits : Prop :=
  ∀ (s : State) (job q : Nat) (c : Cmd) (h : CmdHead) (b : BitVec 36) (n : BitVec 56), Running s job q c →
    let die := bf b.toNat 10 2
    let num := bf b.toNat 0 10
    let bar := s.barrier die num
    let gen := BitVec.ofNat 32 n.toNat
    let bad := 768 ≤ num ∨ bar.heldByOther job = true ∨ bar.expect = 0
    let other := s.queue job b.toNat
    let gains (rs : List Release) : View := unionNat c.view (acquireFrom (s.queueAgent job q) rs)
    CmdMoves (.notify h) s job q { c with phase := .ended .ok } ∧
    (s.live die = false → CmdFails (.bwait h b n) s job q c 0x1B 0 0) ∧
    (s.live die = true →
      (c.progress = 0 → bad → CmdFails (.bwait h b n) s job q c 0x05 9 0) ∧
      (c.progress ≠ 0 ∨ ¬bad →
        (bar.passed gen = true → CmdMoves (.bwait h b n) s job q
          { c with view := gains ((bar.rels.filter (fun r => genUpTo r.1 gen)).map (fun r => r.2)), phase := .ended (if bar.lasterr then .err else .ok) }) ∧
        (bar.passed gen = false → CmdMoves (.bwait h b n) s job q { c with progress := 1 }))) ∧
    (s.queueFault job b.toNat = none →
      (n.toNat ≤ other.counter → CmdMoves (.tlwaitq h b n) s job q
        { c with view := gains ((other.rels.filter (fun r => decide (r.1 ≤ n.toNat))).map (fun r => r.2)), phase := .ended .ok }) ∧
      (other.counter < n.toNat → exec (.tlwaitq h b n) s = .next s)) ∧
    (s.queueFault job b.toNat ≠ none → CmdFails (.tlwaitq h b n) s job q c 0x05 7 0)

/-- R267, R268: `copy`, `fill` and `copyv` read and check their descriptor on their first turn. `copy` reads every source
byte before it writes one; each turn moves one request, or waits at its gate (R425); `fill` writes the byte x mod 8 of its pattern at address x;
`copyv` checks the slot, reads, and publishes its version, which VERSION_PUBLISH applies. -/
def Obligations.CopyCommands : Prop :=
  ∀ (s g : State) (job q d : Nat) (c : Cmd) (h : CmdHead) (a : BitVec 56) (ts : List Trans) (r : SlotRef),
    Running s job q c →
    let n := bf d 128 40
    let src := bf d 0 56
    let dst := bf d 64 56
    let left := 2 * n - c.progress
    let to_ := dst + (c.progress - n)
    let at_ := dst + c.progress
    let ends (k : Nat) : CmdPhase := if 2 * n ≤ c.progress + k then .ended .ok else .running
    let chunk := (c.buf.drop (c.progress - n)).take (request to_ left)
    let pattern := (List.range (request at_ (n - c.progress))).map (fun x => BitVec.ofNat 8 (bf d (8 * ((at_ + x) % 8)) 8))
    let first (i : Instr) : Prop :=
      c.desc = 0 → CmdReads s job q a.toNat 32 ts → d = ofBytes (s.readBytes job c.view (ts.map (fun x => x.loc))) →
        (copyDescOk c.op d = true → CmdGated i s job q c ts { c with desc := d + 2 ^ 256, stalled := none }) ∧
        (copyDescOk c.op d = false → CmdGated i s job q c ts { c with phase := .ended (.fail 0x05 15 0 0) })
    (∀ x, s.queuePass job q c ts = .inl x ∨ s.queuePass job q c ts = .inr x → { x with dies := s.dies } = s) ∧ first (.copy h a) ∧ first (.fill h a) ∧ first (.copyv h a) ∧
    (c.desc = d + 2 ^ 256 → d < 2 ^ 256 →
      (c.progress < n → CmdReads s job q (src + c.progress) (request (src + c.progress) (n - c.progress)) ts →
        s.passGate (s.queueDie job q) 1 (qNum q) job q c ts = .inl g → exec (.copy h a) s = .next g) ∧
      (c.progress < n → CmdReads s job q (src + c.progress) (request (src + c.progress) (n - c.progress)) ts →
        s.passGate (s.queueDie job q) 1 (qNum q) job q c ts = .inr g →
        Gathered (.copy h a) s job q c ts (request (src + c.progress) (n - c.progress))) ∧
      (n ≤ c.progress → CmdWrites s job q 1 c to_ chunk.length ts g →
        Wrote (.copy h a) s job q c ts chunk (ends chunk.length)) ∧
      (CmdWrites s job q 1 c at_ pattern.length ts g → Wrote (.fill h a) s job q c ts pattern
        (if n ≤ c.progress + pattern.length then .ended .ok else .running)) ∧
      (0 < c.progress → c.progress < n →
        CmdReads s job q (src + c.progress) (request (src + c.progress) (n - c.progress)) ts →
        s.passGate (s.queueDie job q) 1 (qNum q) job q c ts = .inr g →
        Gathered (.copyv h a) s job q c ts (request (src + c.progress) (n - c.progress))) ∧
      (s.slotOf job dst = none → c.progress = 0 → 0 < n → CmdFails (.copyv h a) s job q c 0x05 5 dst) ∧
      (s.slotOf job dst = some r → rgZ r.entry < r.off + n → c.progress = 0 → 0 < n →
        CmdFails (.copyv h a) s job q c 0x05 5 dst) ∧
      (0 < n → s.slotOf job dst = some r → r.off + n ≤ rgZ r.entry →
        s.access (s.queueDie job q) job (s.jobRanges job) .write dst n = .ok ts →
        (c.progress = n → s.queuePass job q c ts = .inl g → exec (.copyv h a) s = .next g) ∧
        (c.progress = n → s.queuePass job q c ts = .inr g → ∃ p t, exec (.copyv h a) s = .next t ∧ t.pubs = s.pubs ++ [p] ∧
          t.cmd? job q c.tln = some { c with progress := n + 1 } ∧ p.job = job ∧ p.va = BitVec.ofNat 64 dst ∧ p.target = r ∧
          p.num = BitVec.ofNat 32 (bf d 192 32) ∧ p.auto = false ∧ p.cmd = some (q, c.tln) ∧ t.mem = s.mem ∧
          p.data = (upFrom r.off n).zip c.buf) ∧
        (c.progress = 0 → pubCheck (s.slotAt job r) r.entry (bf d 192 32) = .exists_ →
          CmdFails (.copyv h a) s job q c 0x08 0 dst) ∧
        (c.progress = 0 → pubCheck (s.slotAt job r) r.entry (bf d 192 32) = .full → exec (.copyv h a) s = .next s) ∧
        (∀ us, c.progress = 0 → pubCheck (s.slotAt job r) r.entry (bf d 192 32) = .ok →
          CmdReads s job q src (request src n) us → s.passGate (s.queueDie job q) 1 (qNum q) job q c us = .inr g →
          Gathered (.copyv h a) s job q c us (request src n))))

/-- R129, R270, R128: the weight store. A `wsload` that starts while the store is busy fails with WEIGHT_WRITE_BUSY (0x15);
it reads its bytes and then writes them into the span of banks it names, a request a turn, waiting while a bank is closed.
`wsread` goes the other way, and meets no error in what it reads here (R431). When a bank reopens, the accesses that waited for it proceed. -/
def Sys2Proof.Claims.WeightStore : Prop :=
  ∀ (s g : State) (job q die bank va : Nat) (c : Cmd) (h : CmdHead) (b : BitVec 36) (a : BitVec 56) (ts : List Trans)
    (x : Ctx) (t0 : Word64) (tr : Trans),
    let n := bf b.toNat 20 16 * 65536
    let base := windowLoc (qDie q) (0x40000000 + bf b.toNat 6 14 * 65536)
    let w := c.progress - n
    let k := request w (n - w)
    let locs := (List.range k).map (fun o => base + (w + o))
    let rk := request c.progress (n - c.progress)
    let rlocs := (List.range rk).map (fun o => base + (c.progress + o))
    let from_ := a.toNat + c.progress
    let to_ := a.toNat + w
    let chunk := (c.buf.drop w).take (request to_ (n - w))
    (Running s job q c →
      (c.desc = 0 → s.wsBusy (qDie q) = true → CmdFails (.wsload h b a) s job q c 0x15 0 0) ∧
      (c.desc = 1 ∨ c.desc = 0 ∧ s.wsBusy (qDie q) = false → c.progress < n →
        CmdReads s job q from_ (request from_ (n - c.progress)) ts →
        s.passGate (s.queueDie job q) 9 (qNum q) job q c ts = .inr g → Gathered (.wsload h b a) s job q c ts (request from_ (n - c.progress))) ∧
      (c.desc = 1 → n ≤ c.progress → (∀ l ∈ locs, s.wsClosed l = false) → k ≤ (c.buf.drop w).length →
        ∃ (t : State) (c' : Cmd), exec (.wsload h b a) s = .next t ∧
          t.mem = s.mem.writeCells (locs.zip ((c.buf.drop w).take k)) ∧ t.cmd? job q c.tln = some c' ∧
          c'.progress = c.progress + k ∧ c'.phase = (if n ≤ w + k then .ended .ok else .running)) ∧
      (c.progress < n → (∀ l ∈ rlocs, s.wsClosed l = false ∧ l ∉ s.badBytes) → CmdMoves (.wsread h b a) s job q
        { c with buf := c.buf ++ s.readBytes job c.view rlocs, progress := c.progress + rk }) ∧
      (n ≤ c.progress → CmdWrites s job q 9 c to_ chunk.length ts g → Wrote (.wsread h b a) s job q c ts chunk
        (if 2 * n ≤ c.progress + chunk.length then .ended .ok else .running))) ∧
    (s.wsClosed (windowLoc die (0x40000000 + bank * 2 ^ 26)) = true → exec (.refreshWindowEnd die bank) s = .next s) ∧
    (s.wsClosed (windowLoc die (0x40000000 + bank * 2 ^ 26)) = false → s.ctx? x.die x.seq x.ctx = some x →
      x.stalled = some (va, t0) → s.translate (s.jobRanges x.job) x.job .read va = .ok tr →
      wsDie? tr.loc = some die → ((tr.loc - 2 ^ 44) % 2 ^ 40 - 0x40000000) / 2 ^ 26 = bank →
      ∃ t, exec (.refreshWindowEnd die bank) s = .next t ∧ t.ctx? x.die x.seq x.ctx = some { x with stalled := none } ∧
        t.mem = s.mem)

/-- R271, R127: the berth commands, and what each makes of a berth's state. A fill takes a FREE berth through FILLING
to RESIDENT, an eviction a RESIDENT one (with FORCE a PINNED one, the other way to begin one) through EVICTING to FREE, with its generation advanced; `berthpin` and
`berthfree` act at once; a command that meets a berth on its way waits. -/
def Sys2Proof.Claims.BerthCommands : Prop :=
  ∀ (s g : State) (job q : Nat) (c : Cmd) (h : CmdHead) (f : Bool) (b : BitVec 36) (a : BitVec 56) (j : Job)
    (ts : List Trans), Running s job q c → s.job? job = some j → b.toNat < j.berthCount →
    let i := b.toNat
    let d := qDie q
    let x := s.berth job d i
    let n := j.berthSize
    let becomes (i' : Instr) (y : Berth) (c' : Cmd) : Prop := ∃ t, exec i' s = .next t ∧ t.berth job d i = y ∧
      t.cmd? job q c.tln = some c' ∧ (∀ j' d' k, ¬(j' = job ∧ d' = d ∧ k = i) → t.berth j' d' k = s.berth j' d' k) ∧
      t.mem = s.mem
    let done : Cmd := { c with phase := .ended .ok }
    let w := c.progress - n
    let dst := j.berthVa d i + w
    let bs := (c.buf.drop w).take (request w (n - w))
    let back := if a.toNat = 0 then j.backing d i else a.toNat
    let chunk := (c.buf.drop w).take (request (back + w) (n - w))
    (c.desc = 0 →
      (x.state = .free → becomes (.berthfill h b a) { x with state := .filling } { c with desc := 1 } ∧
        becomes (.berthevict h f b a) x done) ∧
      (x.state = .resident → becomes (.berthfill h b a) x done ∧
        becomes (.berthevict h f b a) { x with state := .evicting } { c with desc := 1 }) ∧
      (x.state = .pinned → becomes (.berthfill h b a) x done ∧
        (f = true → becomes (.berthevict h f b a) { x with state := .evicting } { c with desc := 2 }) ∧
        (f = false → becomes (.berthevict h f b a) x { c with phase := .ended (.fail 0x05 6 0 1) })) ∧
      (x.state = .filling ∨ x.state = .evicting → exec (.berthfill h b a) s = .next s ∧
        exec (.berthevict h f b a) s = .next s)) ∧
    (c.desc = 1 → n ≤ c.progress → n ≤ w + bs.length → bs.length = request w (n - w) →
      s.berthSpan job d i .write dst (request w (n - w)) = .ok ts →
      ∃ t, exec (.berthfill h b a) s = .next t ∧ t.berth job d i = { x with state := .resident } ∧
        t.mem = CmdLanded s.mem c.counted ts bs) ∧
    (c.desc ≠ 0 → n ≤ c.progress → 2 * n ≤ c.progress + chunk.length →
      CmdWrites s job q 5 c (back + w) chunk.length ts g →
      ∃ t, exec (.berthevict h f b a) s = .next t ∧ t.berth job d i = { x with state := .free, gen := x.gen + 1 } ∧
        t.mem = CmdLanded s.mem c.counted ts chunk) ∧
    (x.state = .resident ∨ x.state = .pinned →
      becomes (.berthpin h f b) { x with state := if f then .pinned else .resident } done) ∧
    (x.state = .resident ∨ x.state = .pinned ∨ x.state = .free →
      becomes (.berthfree h b) { x with state := .free, gen := x.gen + 1 } done) ∧
    (x.state = .free → CmdFails (.berthpin h f b) s job q c 0x05 6 0) ∧
    (x.state = .filling ∨ x.state = .evicting → exec (.berthpin h f b) s = .next s ∧ exec (.berthfree h b) s = .next s)

/-- R258, R263, R264: COMMAND_START. The command that its context takes next, and that wins its engine, leaves the
queue and runs; a data command joins the launch of its region, which is RUNNING from then on, and stands last at its
port. A region in no fitting state makes it fail with PROTECT, subcause 12. R259, R151: COMMAND_FINISH. A command
that has ended leaves its queue exactly once, and its timeline number is finished; a command that has not ended
stays. -/
def Obligations.CommandsStartAndFinish : Prop := Claims.CommandsStart ∧ Claims.CommandsFinish

/-- R263: a started data command waits at its port for the operator that carries it out. R282, R147: `notify` does
nothing but finish. `bwait` fails on a barrier of a dead die (0x1B) and on one that is not armed, is another job's
or does not exist (PROTECT, subcause 9), ends when the generation has passed, unsuccessfully where LASTERR is set,
and else waits; `tlwaitq` ends when the counter has come to its number, and fails with PROTECT, subcause 7, where
its queue id names no queue in reach. Each acquires what was released for the event. -/
def Obligations.WaitingCommands : Prop := Claims.DataCommands ∧ Claims.QueueWaits

/-- R44, R271, R272: scheduler fills. A READY task whose berth is not served asks once for a fill, when it is first in the
order of R41 or its deadline is near; a fill that finds the
berth FREE and of its generation makes it FILLING, one that finds another generation is dropped and counted, one that finds it
EVICTING is held until the commands that stood in the queue have passed, and one that finds it in another state is dropped;
when its requests have passed their gate and the copy is done, the berth is RESIDENT and holds the bytes of its backing copy. -/
def Sys2Proof.Claims.SchedulerFills : Prop :=
  ∀ (s : State) (job idx die k w bd bi m : Nat) (j : Job) (f : SchedFill) (src dst : List Trans),
    let e : ReadyEntry := { job := job, idx := idx }
    let d := s.dieFor bd
    let b := s.berth job d bi
    let now := (s.die (s.taskDie w)).stime.toNat
    let x := s.die die
    let y := s.berth f.job die f.idx
    let start : SchedFill := { f with running := true, held := false, heldTo := none }
    (s.taskRec job idx = some w → s.resident? job = some j → recBerth w = some (bd, bi) → recValid w = true →
      recState w = 1 → b.state.served = false →
      (recDeadline w = 0 ∧ s.firstReady (s.taskDie w) = some e) ∨ (recDeadline w ≠ 0 ∧ recDeadline w ≤ now + 16 * j.f 544 32) →
      (∀ z ∈ (s.die d).fills, ¬(z.job = job ∧ z.idx = bi)) → d < 4 →
      ∃ t, exec (.schedulerFillIssue job idx) s = .next t ∧ (t.die d).fills = (s.die d).fills ++
        [{ job := job, idx := bi, gen := b.gen, running := false, held := false, heldTo := none,
            stopped := none }] ∧ t.mem = s.mem) ∧
    (die < 4 → x.fills[k]? = some f →
      (f.running = false → f.held = false →
        (y.state = .free → y.gen = f.gen → ∃ t, exec (.schedulerFill die k) s = .next t ∧
          t.berth f.job die f.idx = { y with state := .filling } ∧ (t.die die).fills = x.fills.set k start ∧ t.mem = s.mem) ∧
        (y.state = .free → y.gen ≠ f.gen → ∃ t, exec (.schedulerFill die k) s = .next t ∧
          (t.die die).fills = x.fills.eraseIdx k ∧ (t.die die).counters.berthDrops = x.counters.berthDrops + 1) ∧
        (y.state = .evicting → ∃ t, exec (.schedulerFill die k) s = .next t ∧
          (t.die die).fills = x.fills.set k { f with gen := f.gen + 1, held := true, heldTo := none }) ∧
        (y.state = .resident ∨ y.state = .pinned ∨ y.state = .filling → ∃ t, exec (.schedulerFill die k) s = .next t ∧
          (t.die die).fills = x.fills.eraseIdx k ∧ (t.die die).counters = x.counters ∧ t.berth f.job die f.idx = y)) ∧
      (f.heldTo = some m → (s.queue f.job (0x6000 + die * 2 ^ 10)).counter < m →
        exec (.schedulerFillRetry die k) s = .next s) ∧
      (f.heldTo = some m → m ≤ (s.queue f.job (0x6000 + die * 2 ^ 10)).counter → y.state = .free → y.gen = f.gen →
        ∃ t, exec (.schedulerFillRetry die k) s = .next t ∧ t.berth f.job die f.idx = { y with state := .filling } ∧
          (t.die die).fills = x.fills.set k start) ∧
      (f.running = true → f.stopped = none → s.job? f.job = some j →
        s.access die f.job (s.jobRanges f.job) .read (j.backing die f.idx) j.berthSize = .ok src →
        s.berthSpan f.job die f.idx .write (j.berthVa die f.idx) j.berthSize = .ok dst →
        let bill := billOf die (src ++ dst)
        let gate := s.passBill die
          { kind := 5, unit := 0, job := f.job, qid := 0x6000 + die * 2 ^ 10, tln := 2 ^ 64 + f.idx, part := 0, owes := Bill.zero }
          bill.1 bill.2
        (∀ g, gate = .inl g → exec (.schedulerFillComplete die k) s = .next g) ∧
        (∀ g, gate = .inr g → ∃ t, exec (.schedulerFillComplete die k) s = .next t ∧
          t.berth f.job die f.idx = { y with state := .resident } ∧ (t.die die).fills = x.fills.eraseIdx k ∧
          t.mem = s.mem.writeCells ((dst.map (fun z => z.loc)).zip (src.map (fun z => s.mem.read z.loc))))))

/-- R273-R277: transducer lanes. `txload` puts a table that R273 admits into its lane and refuses another (PROTECT, 16);
`txrun` claims its lanes when its descriptor is right (else PROTECT, 15) and no other run holds one; a chunk that a
lane decodes and that is next in order is released: its bytes are written behind those of the chunks before it. Each access
passes the gate of its activity, the decoding steps of a chunk that of the die's lanes (R425). -/
def Obligations.Transducers : Prop :=
  ∀ (s g g1 g2 : State) (job q k : Nat) (c : Cmd) (h : CmdHead) (n : BitVec 36) (a : BitVec 56) (hs ts ws : List Trans)
    (t : TxTable) (r : TxRun) (out : List Byte),
    let d := qDie q
    let bytes (v : List Trans) : List Byte := s.readBytes job c.view (v.map (fun z => z.loc))
    let e := r.chunks.getD k 0
    let es := (upFrom 0 n.toNat).map (fun i => BitVec.ofNat 192 (sliceNat (bytes ts) (32 + 24 * i) 24))
    let m := bf (sliceNat (bytes ts) 0 32) 128 4 + 1
    (Running s job q c → CmdReads s job q a.toNat 16 hs → CmdReads s job q a.toNat n.toNat ts → 16 ≤ n.toNat →
      s.queuePass job q c hs = .inr g1 → g1.queuePass job q c ts = .inr g2 →
      (txSize (bytes hs) = n.toNat → txParse (bytes ts) = some t → ∃ u, exec (.txload h n a) s = .next u ∧
        (u.die d).lane (qNum q) = some t ∧ (∀ l, l ≠ qNum q → (u.die d).lane l = (s.die d).lane l) ∧
        u.cmd? job q c.tln = some { c with phase := .ended .ok } ∧ u.mem = s.mem) ∧
      (txSize (bytes hs) ≠ n.toNat ∨ txParse (bytes ts) = none → ∃ u, exec (.txload h n a) s = .next u ∧
        CmdMovedTo (if txSize (bytes hs) = n.toNat then g2 else g1) job q { c with phase := .ended (.fail 0x05 16 0 0) } u)) ∧
    (Running s job q c → s.txrun? job q c.tln = none → CmdReads s job q a.toNat (32 + 24 * n.toNat) ts →
      (s.txOk q (sliceNat (bytes ts) 0 32) es = false →
        CmdGated (.txrun h n a) s job q c ts { c with phase := .ended (.fail 0x05 15 0 0) }) ∧
      (s.txOk q (sliceNat (bytes ts) 0 32) es = true → s.queuePass job q c ts = .inr g →
        (∀ x ∈ s.txruns, qDie x.qid = d → ∀ l < m, x.claims (qNum q + l) = false) →
        ∃ u x, exec (.txrun h n a) s = .next u ∧ u.txrun? job q c.tln = some x ∧ x.lane = qNum q ∧ x.lanes = m ∧
          x.chunks = es ∧ x.released = 0 ∧ u.mem = s.mem)) ∧
    (s.txrun? job q c.tln = some r → s.cmd? job q c.tln = some c → c.phase = .running → r.mayDecode k = true →
      r.released = k → r.chunks.length = k + 2 → r.decoded.getD (k + 1) none = none → r.decoded.length = k + 2 →
      CmdReads s job q (chunkSrc e) (chunkLen e) ts → qKind q = 3 → (s.die d).lane (r.lane + k % r.lanes) = some t →
      txDecode t (chunkStart e) (chunkCrc e) (bytes ts) = { out := some out, cause := 0 } →
      r.outBytes + out.length ≤ bf r.desc.toNat 64 40 →
      s.access d job (s.jobRanges job) .write (bf r.desc.toNat 0 56 + r.outBytes) out.length = .ok ws → Plain ws →
      s.wsHit (ws.map (fun z => z.loc)) = false →
      let bill := billOf d ts
      let steps : Bill := { reqs := 0, cells := 0, work := (2 * chunkLen e + 63) / 64, per := 1 }
      let c1 := c.unstall (chunkSrc e) (chunkLen e)
      let gate := s.passBill d (cmdGate 3 0 job q c (k + 1)) (bill.1.plus steps) bill.2
      (∀ x, gate = .inl x → exec (.txChunkDecoded job q c.tln k) s = .next x) ∧
      (gate = .inr g1 → (g1.setCmd job q c1).queuePass job q c1 ws = .inr g2 →
        ∃ u x, exec (.txChunkDecoded job q c.tln k) s = .next u ∧ u.txrun? job q c.tln = some x ∧ x.released = k + 1 ∧
          x.outBytes = r.outBytes + out.length ∧ u.mem = CmdLanded s.mem c.counted ws out))

/-- R278-R281: encoders and collectives. The first turn of `encode` reads its descriptor; the second makes the bitstream of its
frame, of which what R279 leaves open is free (log 10); the third writes it at OUT and its length at LENADDR, or fails with
subcause 18 when it exceeds OLIM; each waits at its gate until its units have passed (R425). `coll` enters a call with the members of that moment; when every member has entered one, each gets
its part of the result of R281 and writes it. -/
def Obligations.EncodersAndCollectives : Prop :=
  ∀ (s g : State) (job q id d : Nat) (c : Cmd) (h : CmdHead) (f : Bool) (n : BitVec 36) (a : BitVec 56) (x : Version)
    (tr : Trans) (ts os ls : List Trans) (calls : List CollCall) (ms : List Nat) (parts : List (List Byte)) (k : CollCall),
    let bytes (v : List Trans) : List Byte := s.readBytes job c.view (v.map (fun z => z.loc))
    let cd := c.desc % 2 ^ 256
    let r := slotRef (bf d 0 56) tr
    let y := s.die (qDie q)
    let keyed : Bool := y.streams.any (fun e => e.unit == qNum q && e.stream == bf d 192 4 && e.key == encKey d)
    let written (len : Nat) : Prop :=
      s.access (s.queueDie job q) job (s.jobRanges job) .write (bf d 64 56) len = .ok os ∧ Plain os ∧
      s.access (s.queueDie job q) job (s.jobRanges job) .write (bf d 256 56) 4 = .ok ls ∧ Plain ls ∧
      s.wsHit ((os ++ ls).map (fun z => z.loc)) = false ∧ s.queuePass job q c (os ++ ls) = .inr g
    let own := (billBytes (qDie q) tr (encFrame d)).plus
      { reqs := 0, cells := 0, work := (bf d 160 16 * bf d 176 16 + 1023) / 1024, per := 40 }
    let frame := s.passBill (qDie q) (cmdGate 4 0 job q c) own Bill.zero
    (Running s job q c → c.desc = 0 → CmdReads s job q a.toNat 64 ts → d = ofBytes (bytes ts) →
      (encDescOk d = true → CmdGated (.encode h f n a) s job q c ts { c with desc := d + 2 ^ 512, stalled := none }) ∧
      (encDescOk d = false → CmdGated (.encode h f n a) s job q c ts { c with phase := .ended (.fail 0x05 15 0 0) })) ∧
    (Running s job q c → c.desc = d + 2 ^ 512 → d < 2 ^ 512 →
      (c.progress = 0 → s.access (s.queueDie job q) job (s.jobRanges job) .read (bf d 0 56) 1 = .ok (tr :: os) →
        rgVers tr.entry = true → r.off + encFrame d ≤ rgZ r.entry →
        vlook (s.slotAt job r) .exact (n.toNat % 2 ^ 32) = .version x →
        (bit d 216 = true ∨ keyed = true → frame = .inl g → exec (.encode h f n a) s = .next g) ∧
        (bit d 216 = true ∨ keyed = true → frame = .inr g → ∃ (u : State) (c' : Cmd) (k : Nat), exec (.encode h f n a) s = .next u ∧
          u.cmd? job q c.tln = some c' ∧ c'.desc = c.desc ∧ c'.progress = 1 ∧ c'.phase = .running ∧
          c'.buf = encBits d (x.bytes r.off (encFrame d)) k) ∧
        (bit d 216 = false → keyed = false → CmdFails (.encode h f n a) s job q c 0x05 17 0)) ∧
      (c.progress ≠ 0 → c.buf.length ≤ encOlim d → written c.buf.length →
        ∃ (u : State) (c' : Cmd), exec (.encode h f n a) s = .next u ∧
          u.mem = CmdLanded (CmdLanded s.mem c.counted os c.buf) (c.counted ++ newLeaves s.mem c.counted os) ls
            (toBytes 4 c.buf.length) ∧
          u.cmd? job q c.tln = some c' ∧ c'.phase = .ended .ok) ∧
      (c.progress ≠ 0 → encOlim d < c.buf.length → written (encOlim d) →
        ∃ (u : State) (c' : Cmd), exec (.encode h f n a) s = .next u ∧ u.cmd? job q c.tln = some c' ∧
          c'.phase = .ended (.fail 0x05 18 0 0))) ∧
    (Running s job q c → c.desc = 0 → CmdReads s job q a.toNat 32 ts → d = ofBytes (bytes ts) →
      (collDescOk d = true → s.collMembers job d = some (ms, f) → qDie q ∈ ms → d < 2 ^ 256 → s.queuePass job q c ts = .inr g →
        ∃ u, exec (.coll h n a) s = .next u ∧ u.cmd? job q c.tln = some { c with desc := d + 2 ^ 256, stalled := none } ∧
          u.colls = s.colls ++ [{ job := job, id := n.toNat, die := qDie q, qid := q, tln := c.tln,
                                  desc := BitVec.ofNat 256 d, members := ms, beyond := f }] ∧ u.mem = s.mem) ∧
      (collDescOk d = true → s.collMembers job d = some (ms, f) → qDie q ∉ ms → 
        CmdGated (.coll h n a) s job q c ts { c with phase := .ended (.fail 0x05 19 0 0) }) ∧
      (collDescOk d = true → s.collMembers job d = none → 
        CmdGated (.coll h n a) s job q c ts { c with phase := .ended (.fail 0x05 19 0 0) }) ∧
      (collDescOk d = false → CmdGated (.coll h n a) s job q c ts { c with phase := .ended (.fail 0x05 15 0 0) })) ∧
    (Running s job q c → c.desc ≠ 0 → c.progress ≠ 0 →
      s.access (s.queueDie job q) job (s.jobRanges job) .write (bf cd 64 56) c.buf.length = .ok os → Plain os →
      s.wsHit (os.map (fun z => z.loc)) = false → s.queuePass job q c os = .inr g →
      ∃ (u : State) (c' : Cmd), exec (.coll h n a) s = .next u ∧ u.mem = CmdLanded s.mem c.counted os c.buf ∧
        u.cmd? job q c.tln = some c' ∧ c'.phase = .ended .ok) ∧
    (s.callsOf job id = k :: calls → k.members.all s.live = true → k.beyond = false →
      (∀ x ∈ k.members, ∃ y ∈ k :: calls, y.die = x) → (∀ y ∈ k :: calls, y.die ∈ k.members) →
      collAgrees ((k :: calls).map (fun y => y.desc.toNat)) k.members.length = true →
      (s.collPayAll (k :: calls) = (false, g) → exec (.collMembersMatched job id) s = .next g) ∧
      (s.collPayAll (k :: calls) = (true, g) → g.collRead (k :: calls) = .ok parts →
      g.cmd? job k.qid k.tln = some c → (∀ y ∈ calls, y.qid ≠ k.qid) → k.job = job →
      ∃ (u : State) (c' : Cmd), exec (.collMembersMatched job id) s = .next u ∧ u.cmd? job k.qid k.tln = some c' ∧
        c'.progress = 1 ∧ c'.buf = collResult k.desc.toNat parts 0 (calls.length + 1) ∧ u.mem = s.mem))

/-! ### Regions -/

namespace Sys2Proof.Claims

open Sys2Proof.Machine

/-- The instruction leaves region `v` of a job as `P` says, and its command in phase `p`. -/
def Makes (i : Instr) (s : State) (job q v : Nat) (c : Cmd) (p : CmdPhase) (P : Region → Prop) : Prop :=
  ∃ (t : State) (r' : Region) (c' : Cmd), exec i s = .next t ∧ t.region? job v = some r' ∧ P r' ∧
    t.cmd? job q c.tln = some c' ∧ c'.phase = p

end Sys2Proof.Claims

/-- R266, R61, R57, R88: commands on a region that do their work at once. `disarm` makes it EMPTY; `stop` returns it to
its armed configuration with no launch: its words, banks, memory tiles, sidings, TFLAGS and generators are those at arming, and
no beat remains; `config` gathers its records, which wait at the port; `marker` is done at once on an
ARMED region, waits on a RUNNING one, and stops it when the cut is made; `hang` sets the monitor; `resume` in place sets it
RUNNING again. A region in another state makes the command fail with PROTECT, subcause 12. -/
def Obligations.RegionCommands : Prop :=
  ∀ (s : State) (job q : Nat) (c : Cmd) (h : CmdHead) (v p : BitVec 6) (n : BitVec 36) (a : BitVec 56) (r : Region)
    (ts : List Trans) (since : Word64), Running s job q c →
    let bs := s.readBytes job c.view (ts.map (fun z => z.loc))
    ((∀ x ∈ s.regions, x.resumeDue = false) → ∃ t, exec (.disarm h v) s = .next t ∧ t.region? job v.toNat = none ∧
      ∃ c', t.cmd? job q c.tln = some c' ∧ c'.phase = .ended .ok) ∧
    (let state := (s.region? job v.toNat).map (fun x => x.state)
     let fails (i : Instr) : Prop := CmdFails i s job q c 0x05 12 0
     (state ≠ some .armed → state ≠ some .running → fails (.config h v p n a) ∧ (c.progress = 0 → fails (.marker h v n)) ∧
       (state ≠ some .stopped → fails (.stop h v))) ∧
     (state ≠ some .stopped → fails (.snap h v n a) ∧ fails (.resume h v 0 0) ∧
       (state ≠ some .saved → fails (.resume h v n a))) ∧
     (state = none ∨ state = some .empty → fails (.hang h v n a))) ∧
    (s.region? job v.toNat = some r →
      (r.state.holdsTiles = true → Makes (.stop h v) s job q v.toNat c (.ended .ok)
        (fun r' => r'.state = .armed ∧ r'.launch = none ∧ r'.trap = none ∧ r'.stalls = [] ∧ r'.preempt = none ∧ r'.cause = 0 ∧
          r'.body.ops.map (fun o => (o.word, o.mem, o.outbox, o.pos, o.inside, o.marked, o.finals, o.frozen)) =
            r.body.ops.map (fun o => (o.armed, OpMem.init o.armed, [], [], [], [], [], false)) ∧
          r'.body.edges = r.body.edges.map (fun e => { e with link := [], out := [] }) ∧
          r'.body.tiles = r.body.tiles.map (fun t => { t with
            tflags := 0
            gen := if tileType (r.x0 + t.x) (r.y0 + t.y) = 0 ∨ tileType (r.x0 + t.x) (r.y0 + t.y) = 3
              then seedOf r.seed t.x t.y else 0 }) ∧
          (r.launch.isSome = true → ∀ x ∈ r'.body.ports, x.cmds = []))) ∧
      (r.state ≠ .empty → Makes (.hang h v n a) s job q v.toNat c (.ended .ok)
        (fun r' => r' = { r with hangUs := n.toNat, hangBuf := a.zeroExtend 64 })) ∧
      (r.state = .armed ∨ r.state = .running → CmdReads s job q a.toNat (64 * n.toNat) ts →
        (recordsOk n.toNat bs = true → CmdGated (.config h v p n a) s job q c ts
          { c with phase := .atPort, buf := bs, stalled := none }) ∧
        (recordsOk n.toNat bs = false → CmdGated (.config h v p n a) s job q c ts
          { c with phase := .ended (.fail 0x05 13 0 0) })) ∧
      (r.state = .armed → c.progress = 0 → CmdMoves (.marker h v n) s job q { c with phase := .ended .ok }) ∧
      (r.state = .running → c.progress = 0 → r.preempt = none → Makes (.marker h v n) s job q v.toNat c .running
        (fun r' => r' = { r with preempt := some ((s.die r.die).stime, q, c.tln), marker := n.setWidth 32,
                                 cutOpen := !r.groupDriven, grouped := [] })) ∧
      (r.state = .running → c.progress ≠ 0 → r.preempt = some (since, q, c.tln) → r.cutMade = true →
        (∀ x ∈ s.regions, x.resumeDue = false) → Makes (.marker h v n) s job q v.toNat c (.ended .ok) (fun r' => r'.state = .stopped ∧ r'.cause = 4 ∧
          r'.stopTime = (s.die r.die).stime ∧ r'.preempt = none ∧ r'.body = r.body)) ∧
      (r.state = .stopped → Makes (.resume h v 0 0) s job q v.toNat c (.ended .ok)
        (fun r' => r'.state = .running ∧ r'.trap = none ∧ r'.cause = 0 ∧ r'.stalls = [] ∧ r'.launch = r.launch)))

/-- R401, R402, R266: `snap` of a STOPPED region makes its image, whose STATE sections hold the number of log 38, fails with subcause 14 when the buffer is too small,
writes it a request a turn, and leaves the region SAVED; a `resume` of an image that the checks of R403 refuse fails
with subcause 14. -/
def Obligations.SnapAndResume : Prop :=
  ∀ (s g : State) (job q : Nat) (c : Cmd) (h : CmdHead) (v : BitVec 6) (n : BitVec 36) (a : BitVec 56) (r : Region)
    (ts : List Trans), Running s job q c → s.region? job v.toNat = some r →
    let img := r.image s.snaps.length
    let at_ := a.toNat + c.progress
    let chunk := (c.buf.drop c.progress).take (requestLen at_ (c.buf.length - c.progress))
    (r.state = .stopped → c.buf = [] →
      (n.toNat < img.length → CmdFails (.snap h v n a) s job q c 0x05 14 0) ∧
      (img.length ≤ n.toNat → r.sramLocs.any s.badBytes.contains = false → ∃ t, exec (.snap h v n a) s = .next t ∧ t.cmd? job q c.tln = some { c with buf := img } ∧
        t.mem = s.mem ∧ t.regions = s.regions)) ∧
    (r.state = .stopped → c.buf ≠ [] →
      s.access (s.queueDie job q) job (s.jobRanges job) .write at_ chunk.length = .ok ts → Plain ts →
      s.wsRefuses ts = false → s.passGate r.die 0 r.unit job q c ts = .inr g → (∀ x ∈ s.regions, x.resumeDue = false) →
      ∃ (t : State) (c' : Cmd) (r' : Region), exec (.snap h v n a) s = .next t ∧
        t.mem = CmdLanded s.mem c.counted ts chunk ∧ t.cmd? job q c.tln = some c' ∧
        t.region? job v.toNat = some r' ∧
        (c.buf.length ≤ c.progress + chunk.length → c'.phase = .ended .ok ∧ r'.state = .saved ∧
          r'.saved = some (a.zeroExtend 64, c.buf.length, false)) ∧
        (c.progress + chunk.length < c.buf.length → c'.phase = .running ∧ r' = r)) ∧
    (r.state = .stopped ∨ r.state = .saved → ¬(n = 0 ∧ a = 0) → s.overlapped r = false →
      CmdReads s job q a.toNat n.toNat ts → s.queuePass job q c ts = .inr g →
      (g.resumeImage r (s.readBytes job c.view (ts.map (fun z => z.loc))) = none →
        CmdGated (.resume h v n a) s job q c ts { c with phase := .ended (.fail 0x05 14 0 0) }) ∧
      (∀ t, g.resumeImage r (s.readBytes job c.view (ts.map (fun z => z.loc))) = some t →
        ∃ u c', exec (.resume h v n a) s = .next u ∧ u.cmd? job q c.tln = some c' ∧ c'.phase = .ended .ok ∧
          u.regions = t.regions))

namespace Sys2Proof.Claims

open Sys2Proof.Machine

/-- An `arm` that stands, in state `u` and with the header in `c.buf`, before the reading of the rest of its image `ts`. With no
reserved bit set that R7 names (log 82) and every check passed, the region is ARMED with the image's seed and watchdog and no launch
has begun; else the command ends unsuccessfully and the region stays LOADED. A page that is not there pauses the command, which
keeps the header. -/
def ArmsRest (i : Instr) (s u : State) (job q : Nat) (c : Cmd) (r1 : Region) : Prop :=
  let read := u.access (u.queueDie job q) job (u.jobRanges job) .read (r1.imgVa.toNat + 128) (r1.imgLen - 128)
  (∀ l k a, read = .error (.page l k, a) → ∃ (t : State) (c' : Cmd), exec i s = .next t ∧ t.cmd? job q c.tln = some c' ∧
    c'.progress = 2 ∧ c'.buf = c.buf ∧ (∃ d n, c'.phase = .faulted d n) ∧ t.regions = u.regions ∧ t.mem = s.mem) ∧
  ∀ ts, read = .ok ts → (∀ g, u.queuePass job q c ts = .inl g → exec i s = .next g) ∧
    ∀ g, u.queuePass job q c ts = .inr g →
      let bs := c.buf ++ g.engineBytes job c.view (r1.imgVa.toNat + 128) ts
      (∀ r2, imgReserved bs = false → g.armCheck r1 bs = .ok r2 → ∃ (t : State) (c' : Cmd), exec i s = .next t ∧
        t.region? r2.job r2.v = some r2 ∧ r2.state = .armed ∧ r2.seed = BitVec.ofNat 32 (hdr bs 192 32) ∧
        r2.watchdog = hdr bs 224 16 ∧ r2.launch = r1.launch ∧ t.cmd? job q c.tln = some c' ∧ c'.phase = .ended .ok ∧
        t.mem = s.mem) ∧
      (∀ f, imgReserved bs = true ∨ g.armCheck r1 bs = .error f → f.step ≠ 1 → ∃ (t : State) (c' : Cmd) (x : Region),
        exec i s = .next t ∧ t.region? r1.job r1.v = some x ∧ x.state = .loaded ∧ x.body = Body.empty ∧
        t.cmd? job q c.tln = some c' ∧ c'.phase = .ended .err)

/-- An `arm` that has its binding `r0` and stands, in state `u`, before the reading of its header. -/
def ArmsHead (i : Instr) (s u : State) (job q len : Nat) (c : Cmd) (r0 : Region) : Prop :=
  let read := u.access (u.queueDie job q) job (u.jobRanges job) .read r0.imgVa.toNat 128
  let ends : Prop := ∃ (t : State) (c' : Cmd), exec i s = .next t ∧ t.cmd? job q c.tln = some c' ∧ c'.phase = .ended .err
  (∀ l k a, read = .error (.page l k, a) → ∃ (t : State) (c' : Cmd), exec i s = .next t ∧ t.cmd? job q c.tln = some c' ∧
    c'.progress = c.progress ∧ c'.desc = c.desc ∧ (∃ d n, c'.phase = .faulted d n) ∧ t.regions = s.regions ∧ t.mem = s.mem) ∧
  ∀ hs, read = .ok hs → (∀ g, u.queuePass job q c hs = .inl g → exec i s = .next g) ∧
    ∀ g, u.queuePass job q c hs = .inr g →
      let head := g.engineBytes job c.view r0.imgVa.toNat hs
      (∀ f, g.armStore r0 (hdr head 64 32) = .error f → ends) ∧
      ∀ r1, g.armStore r0 (hdr head 64 32) = .ok r1 → (∀ f, imgHeaderOk r1 head len = some f → ends) ∧
        (imgHeaderOk r1 head len = none → let c2 := { c with progress := 2, buf := head }
          ArmsRest i s ((g.setRegion r1).setCmd job q c2) job q c2 r1)

end Sys2Proof.Claims

/-- R266, R355-R361: `arm` of a region that is EMPTY or LOADED. When its binding, the header and the rest of the image pass their
checks, the region is ARMED (the order in which reserved fields are judged: log 82). A check that fails ends the command
unsuccessfully. Reads of a page that is not there pause the command, which keeps its binding and its header, and goes on from them
when it runs again. -/
def Obligations.Arming : Prop :=
  ∀ (s : State) (job q : Nat) (c : Cmd) (h : CmdHead) (v : BitVec 6) (n : BitVec 36) (a : BitVec 56)
    (r0 r : Region) (f : ArmFail), Running s job q c → c.tln ≠ 0 →
    let i : Instr := .arm h v n a
    let c1 := { c with progress := 1, desc := s.reloc job v.toNat }
    (c.progress = 0 → (∀ r, s.region? job v.toNat = some r → r.state = .loaded ∨ r.state = .empty) →
      (s.armingBusy (s.queueDie job q) job q c.tln = true → exec i s = .next s) ∧
      (s.armingBusy (s.queueDie job q) job q c.tln = false →
        (s.armPlace job v.toNat a.toNat = .ok r0 → ArmsHead i s (s.setCmd job q c1) job q n.toNat c1 r0) ∧
        (s.armPlace job v.toNat a.toNat = .error f → ∃ (t : State) (c' : Cmd), exec i s = .next t ∧
          t.cmd? job q c.tln = some c' ∧ c'.phase = .ended .err))) ∧
    (c.progress = 0 → s.region? job v.toNat = some r → r.state ≠ .loaded → r.state ≠ .empty →
      CmdFails i s job q c 0x05 12 0) ∧
    (c.progress = 1 → (s.region? job v.toNat = none → ArmsHead i s s job q n.toNat c (Region.bound job v.toNat c.desc a.toNat)) ∧
      (s.region? job v.toNat = some r → ArmsHead i s s job q n.toNat c (Region.rebound r a.toNat))) ∧
    (c.progress = 2 → s.region? job v.toNat = some r → ArmsRest i s s job q c r)

/-- R48, R57, R291, R404, R399: steps that end what a region does. A launch completes when final stops have reached
every sink; a pre-emption that waits too long cancels it; a trapping region in which nothing can move is STOPPED with
cause 1, a region in which no beat has moved for the monitor's interval with cause 2, each with its event; a map of a hang that had to
wait is written at a later HANG_DETECT (log 40). A launch with a `config` still to enter is not complete (R264). -/
def Sys2Proof.Claims.RegionSteps : Prop :=
  ∀ (s : State) (job v q m : Nat) (r : Region) (since : Word64) (l : List (Nat × Nat)) (tr : TrapRec),
    s.region? job v = some r →
    let now := (s.die r.die).stime.toNat
    let stopped (t : State) (cause : Nat) : Prop := ∃ r', t.region? job v = some r' ∧ r'.state = .stopped ∧
      r'.cause = cause ∧ r'.stopTime = (s.die r.die).stime ∧ r'.body = r.body
    (r.state = .running → r.launch = some l → r.drained = true → s.configOwed r = false → ∃ (t : State) (r' : Region),
      exec (.launchComplete job v) s = .next t ∧ t.region? job v = some r' ∧ r'.state = .armed ∧ r'.trap = none ∧
        (∀ p ∈ r'.body.ports, p.cmds = [])) ∧
    (r.state ≠ .running ∨ r.launch = none ∨ r.drained = false ∨ s.configOwed r = true → exec (.launchComplete job v) s = .next s) ∧
    (r.state = .running → r.preempt = some (since, q, m) → r.watchdog ≠ 0 → since.toNat + r.watchdog * 16000 < now →
      r.launch.isSome = true → ∃ (t : State) (r' : Region), exec (.preemptWatchdog job v) s = .next t ∧
        t.region? job v = some r' ∧ r'.state = .armed ∧ r'.launch = none) ∧
    (r.watchdog = 0 → exec (.preemptWatchdog job v) s = .next s) ∧
    (r.preempt = none ∨ now ≤ since.toNat + r.watchdog * 16000 ∧ r.preempt = some (since, q, m) →
      exec (.preemptWatchdog job v) s = .next s) ∧
    (r.state = .running → r.trap = some tr →
      (∀ ix o, r.view ix = some o → (s.opState r o).1 ≠ 0 ∧ (s.opState r o).2 = false) →
      exec (.regionTrapStop job v) s = .next ((s.stopRegion r 1).postEvent job r.die (r.trapEvent tr)) ∧
      ∃ t, exec (.regionTrapStop job v) s = .next t ∧ stopped t 1) ∧
    (r.trap = none → exec (.regionTrapStop job v) s = .next s) ∧
    (∀ bs, r.mapDue = some bs → exec (.hangDetect job v) s = .next (s.writeMap r bs)) ∧
    (r.mapDue = none → r.state = .running → r.hangUs ≠ 0 → r.moved.toNat + r.hangUs * 16000 ≤ now →
      (∃ t, exec (.hangDetect job v) s = .next t ∧ stopped t 2) ∧
      (r.hangBuf = 0 → ∀ x, (s.stopRegion r 2).region? job v = some x → exec (.hangDetect job v) s = .next
        (((s.stopRegion r 2).setRegion { x with mapDue := none }).postEvent r.job r.die { code := 0x13, srck := 1, index := r.v }))) ∧
    (r.mapDue = none → r.hangUs = 0 ∨ now < r.moved.toNat + r.hangUs * 16000 → exec (.hangDetect job v) s = .next s)

/-- R363, R58: CONFIG_SOFT_ERROR is counted and reads the image again: when it is sound the region's configuration
words are those that were armed, and all else of it stands; while that reading waits for memory, its beats are frozen. ACCESS_TIMEOUT makes an access that has waited 64
microseconds for a die out of reach, or at a page entry that is moving, fault with LINK (0x1A), and the berth of such a command goes
back to the state it had (log 28); one that has not waited so long goes on waiting. -/
def Sys2Proof.Claims.ErrorsAndTimeouts : Prop :=
  ∀ (s : State) (job v q n va : Nat) (r : Region) (j : Job) (ts : List Trans) (x : Ctx) (c : Cmd) (t0 : Word64),
    (s.region? job v = some r → r.state = .running → r.die < 4 → s.job? job = some j →
      s.access r.die job (s.jobRanges job) .read r.imgVa.toNat r.imgLen = .ok ts →
      imageSound (s.imageBytes job r.imgVa.toNat ts) s.depot.signKey (bit j.record.toNat 9) = none →
      ∃ (t : State) (r' : Region), exec (.configSoftError job v) s = .next t ∧ t.region? job v = some r' ∧
        (t.die r.die).counters.cfgsoft = (s.die r.die).counters.cfgsoft + 1 ∧
        r'.body.ops.map (fun o => o.word) = r.body.ops.map (fun o => o.armed) ∧
        r'.body.ops.map (fun o => o.mem) = r.body.ops.map (fun o => o.mem) ∧ r'.body.edges = r.body.edges ∧
        r'.state = .running ∧ r'.reloading = false ∧ t.mem = s.mem) ∧
    (∀ a, s.region? job v = some r → r.die < 4 →
      s.access r.die job (s.jobRanges job) .read r.imgVa.toNat r.imgLen = .error (.moving, a) →
      ∃ t, exec (.configSoftError job v) s = .next t ∧ t.region? job v = some { r with reloading := true } ∧ t.mem = s.mem) ∧
    (s.ctx? x.die x.seq x.ctx = some x → x.stalled = some (va, t0) →
      (s.overdue x.job x.die va t0 = true → exec (.accessTimeout (.task x.die x.seq x.ctx)) s =
        .next (s.trapTask x 0x1A va x.ip)) ∧
      (s.overdue x.job x.die va t0 = false → exec (.accessTimeout (.task x.die x.seq x.ctx)) s = .next s)) ∧
    (s.cmd? job q n = some c → c.phase = .running → c.stalled = some (va, t0) →
      s.overdue job (s.queueDie job q) va t0 = true → c.op ≠ 0x08 → s.txrun? job q n = none →
      (c.op ≠ 0x1B → (c.op ≠ 0x12 ∧ c.op ≠ 0x13) ∨ c.desc = 0 → CmdFails (.accessTimeout (.command job q n)) s job q c 0x1A 0 va) ∧
      (c.op = 0x12 ∨ c.op = 0x13 → c.desc ≠ 0 → qDie q < 4 → ∃ (t : State) (c' : Cmd),
        exec (.accessTimeout (.command job q n)) s = .next t ∧ t.cmd? job q n = some c' ∧
        c'.phase = .ended (.fail 0x1A 0 (BitVec.ofNat 64 va) 0) ∧
        (t.berth job (qDie q) (cmdB c.word.toNat % 2 ^ 16)).state =
          (if c.op = 0x12 then .free else if c.desc = 2 then .pinned else .resident))) ∧
    (∀ d a, s.overdue job d a t0 = true ↔ t0.toNat + 64 * 16000 ≤ (s.die d).stime.toNat ∧
      ∃ k : AccKind, s.translate (s.jobRanges job) job k a = .error .moving ∨
        ∃ y, s.translate (s.jobRanges job) job k a = .ok y ∧ s.reach d y.home = false)

/-- R271, R127: the berth commands, and what each makes of a berth's state. A fill takes a FREE berth through
FILLING to RESIDENT, an eviction a RESIDENT one (with FORCE a PINNED one, the other way to begin one) through
EVICTING to FREE, with its generation advanced; `berthpin` and `berthfree` act at once; a command that meets a berth
on its way waits. R44, R271, R272: scheduler fills. A READY task whose berth is not served asks once for a fill,
when it is first in the order of R41 or its deadline is near; a fill that finds the berth FREE and of its generation
makes it FILLING, one that finds another generation is dropped and counted, one that finds it EVICTING is held until
the commands that stood in the queue have passed, and one that finds it in another state is dropped; when its
requests have passed their gate and the copy is done, the berth is RESIDENT and holds the bytes of its backing copy. -/
def Obligations.Berths : Prop := Claims.BerthCommands ∧ Claims.SchedulerFills

/-- R48, R57, R291, R404, R399: steps that end what a region does. A launch completes when final stops have reached
every sink; a pre-emption that waits too long cancels it; a trapping region in which nothing can move is STOPPED
with cause 1, a region in which no beat has moved for the monitor's interval with cause 2, each with its event; a
map of a hang that had to wait is written at a later HANG_DETECT (log 40). A launch with a `config` still to enter
is not complete (R264). R363, R58: CONFIG_SOFT_ERROR is counted and reads the image again: when it is sound the
region's configuration words are those that were armed, and all else of it stands; while that reading waits for
memory, its beats are frozen. ACCESS_TIMEOUT makes an access that has waited 64 microseconds for a die out of reach,
or at a page entry that is moving, fault with LINK (0x1A), and the berth of such a command goes back to the state it
had (log 28); one that has not waited so long goes on waiting. -/
def Obligations.RegionEndsAndErrors : Prop := Claims.RegionSteps ∧ Claims.ErrorsAndTimeouts

/-! ### Operators -/

namespace Sys2Proof.Claims

open Sys2Proof.Machine

/-- Operator `v` of the RUNNING region `r`, whose configuration is not being read again, is in focus; it is not frozen, and nothing of a burst is left. -/
def Ready (s : State) (r : Region) (v : OpView) : Prop :=
  s.curOp = some (r, v) ∧ r.state = .running ∧ r.reloading = false ∧ v.op.frozen = false ∧ v.op.outbox = []

/-- Every connected output has space, the tile's SRAM serves the operator, and the region's gate passes a firing (R286, R425,
R431): `s'` has been charged for it. -/
def Passes (s : State) (r : Region) (v : OpView) (s' : State) : Prop :=
  (∀ p ∈ v.outPorts, r.body.space v.ix p = true) ∧ s.sramBad r v = false ∧ s.regionSpent r = false ∧
    s.charge r.die 0 r.unit r.job (Bill.cycle (if opc v.op.word < 0x40 then 1 else 0)) = some s'

/-- The heads of the inputs `ps` are the beats `bs`; none is held by a trap, fed back around a cycle or behind a
marker. -/
def At (v : OpView) (ps : List Nat) (bs : List Beat) : Prop :=
  bs.length = ps.length ∧ ∀ x ∈ ps.zip bs, v.head x.1 = some x.2 ∧ x.2.held = false ∧ v.fedBack x.1 = false ∧
    v.op.marked.contains x.1 = false

/-- The operator fires as `g` says (`Region.fired`), and nothing of the package changes but its region and what the
die's budgets have left. -/
def Fires (i : Instr) (s s' : State) (r : Region) (v : OpView) (g : Firing) : Prop :=
  exec i s = .next (s'.setRegion { r.fired v g with moved := (s'.die r.die).stime }) ∧ { s' with dies := s.dies } = s ∧
    (s'.die r.die).stime = (s.die r.die).stime

/-- An operator fires with the results `codes`, lane 0 first, on every output: it takes the beats of the inputs `al`. -/
def Gives (i : Instr) (s s' : State) (r : Region) (v : OpView) (al codes : List Nat) (flags : Nat) (gen : BitVec 32) :
    Prop :=
  Fires i s s' r v
    { take := al, emit := v.toAll (beatOf (v.outFmt 0) codes), flags := flags, gen := some gen }

/-- The operators of two inputs that work lane by lane. -/
def twoInputs (c : OpCfg) (p : VecParam) : List Instr :=
  [.vadd c p, .vsub c p, .vmul c p, .vmax c p, .vmin c p, .vcmp c p, .vand c p, .vor c p, .vxor c p, .vshl c p, .vshr c p]

/-- The operators of one input that work lane by lane. -/
def oneInput (c : OpCfg) (p : VecParam) : List Instr :=
  [.vabs c p, .vneg c p, .vexp2 c p, .vlog2 c p, .vrcp c p, .vrsqrt c p, .vcvt c p]

end Sys2Proof.Claims

/-- R65, R286, R106: what firing does. The beat at the head of a taken input leaves its link, the emitted beat joins the
link of its output, no other edge of the region changes, and the flags are ORed into the flags of the tile. A copy of the trap
poison takes no position (R291). -/
def Sys2Proof.Claims.FiringTakesAndEmits : Prop :=
  ∀ (r : Region) (ix : Nat) (v : OpView) (p q k m fl : Nat) (e f : Edge) (h b : Beat) (rest : List Beat) (t : Tile),
    r.view ix = some v → v.ins.find? (fun x => x.1 == p) = some (p, k) → v.outs.find? (fun x => x.1 == q) = some (q, m) →
    k ≠ m → r.body.edges[k]? = some e → r.body.edges[m]? = some f → e.siding = none → f.siding = none →
    e.link = h :: rest → r.body.space ix q = true → t ∈ r.body.tiles →
    let r' := r.fired v { take := [p], emit := [(q, b)], flags := fl }
    r'.body.edges = (r.body.edges.set k { e with link := rest }).set m { f with link := f.link ++ [b] } ∧
      (∀ o ∈ r'.body.ops[ix]?, o.outbox = [] ∧ o.mem = v.op.mem ∧ o.word = v.op.word ∧
        (h.kind.takesPosition = true → h.held = false → o.pos.getD p 0 = v.op.pos.getD p 0 + 1) ∧
        (h.held = true → h.kind = .poison → o.pos = v.op.pos)) ∧
      (∀ j, j ≠ ix → r'.body.ops[j]? = r.body.ops[j]?) ∧
      (if t.x = v.op.x ∧ t.y = v.op.y then { t with tflags := t.tflags ||| BitVec.ofNat 8 fl } ∈ r'.body.tiles
        else t ∈ r'.body.tiles) ∧
      { r' with body := r.body, cutOpen := r.cutOpen, grouped := r.grouped } = r ∧ (b.kind ≠ .group → r'.grouped = r.grouped)

/-- R304-R306, R101: elementwise operators on an integer format. Each lane is the exact integer result; one outside the
format becomes the nearest value of the format, with SAT raised, under the saturating policy. IMMB replaces b by
CONST. `vcvt` to a floating format rounds the integer. -/
def Obligations.VectorIntegers : Prop :=
  ∀ (s s' : State) (r : Region) (v : OpView) (c : OpCfg) (p : VecParam) (a b : Beat) (lo hi lo' hi' : Int)
    (fo : Fmt), Ready s r v → Passes s r v s' → p.acc = 0 → intRangeOf (v.inFmt 0) = some (lo, hi) → a.kind = .data →
    b.kind = .data →
    let code := v.inFmt 0
    let w := fmtWidth code
    let n := v.inLanes 0
    let ps := if p.immb then [0] else [0, 1]
    let bits (k : Nat) : Nat := if p.immb then p.const.toNat % 2 ^ w else b.lane w k
    let x (k : Nat) : Int := intOf code (a.lane w k)
    let y (k : Nat) : Int := intOf code (bits k)
    let count (k : Nat) : Nat := 2 ^ min (bits k) w
    let inside (l h : Int) (f : Nat → Int) : Prop := ∀ k, k < n → l ≤ f k ∧ f k ≤ h
    let exact (i : Instr) (ps : List Nat) (w' : Nat) (l h : Int) (f : Nat → Int) : Prop :=
      (inside l h f → Gives i s s' r v ps ((upFrom 0 n).map (fun k => ofSigned (f k) w')) 0 v.tile.gen) ∧
      (¬ inside l h f → c.sat = true →
        Gives i s s' r v ps ((upFrom 0 n).map (fun k => ofSigned (max l (min h (f k))) w')) SAT v.tile.gen)
    let bitwise (i : Instr) (f : Nat → Nat → Nat) : Prop :=
      Gives i s s' r v ps ((upFrom 0 n).map (fun k => f (a.lane w k) (bits k))) 0 v.tile.gen
    (At v ps (if p.immb then [a] else [a, b]) →
      exact (.vadd c p) ps w lo hi (fun k => x k + y k) ∧
      exact (.vsub c p) ps w lo hi (fun k => x k - y k) ∧
      exact (.vmul c p) ps w lo hi (fun k => x k * y k) ∧
      exact (.vmax c p) ps w lo hi (fun k => max (x k) (y k)) ∧
      exact (.vmin c p) ps w lo hi (fun k => min (x k) (y k)) ∧
      exact (.vshl c p) ps w lo hi (fun k => x k * count k) ∧
      exact (.vshr c p) ps w lo hi (fun k => x k / count k) ∧
      bitwise (.vand c p) (fun i j => i &&& j) ∧ bitwise (.vor c p) (fun i j => i ||| j) ∧
      bitwise (.vxor c p) (fun i j => i ^^^ j) ∧
      Gives (.vcmp c p) s s' r v ps ((upFrom 0 n).map (fun k => b2n (match p.rel.toNat with
        | 0 => decide (x k = y k)
        | 1 => decide (x k ≠ y k)
        | 2 => decide (x k < y k)
        | 3 => decide (x k ≤ y k)
        | 4 => decide (y k < x k)
        | _ => decide (y k ≤ x k)))) 0 v.tile.gen) ∧
    (p.immb = false → At v [0] [a] →
      exact (.vabs c p) [0] w lo hi (fun k => ((x k).natAbs : Int)) ∧
      exact (.vneg c p) [0] w lo hi (fun k => - x k) ∧
      (intRangeOf (v.outFmt 0) = some (lo', hi') → exact (.vcvt c p) [0] (fmtWidth (v.outFmt 0)) lo' hi' x) ∧
      (floatOf (v.outFmt 0) = some fo →
        let res := runLanes (fun k g => roundEl { rnd := c.rnd.toNat, sat := c.sat } fo g (.fin (Ex.ofInt (x k))) 0) n 0
          v.tile.gen
        res.fault = none → Gives (.vcvt c p) s s' r v [0] res.codes res.flags res.gen))

/-- R304, R306, R100-R104, R108, R109, R112, R114: elementwise operators on a floating format. Each lane is the value of the
operation rounded in the word's mode to the format (`roundEl`), lanes in ascending order, each with the generator that the
lanes before it leave. The operators that take an operand as it is draw as the others do under SR (log 78). `vcvt` to an
integer format rounds each lane to an integer, NV and the nearest bound where it passes one, 0 for a NaN; a number that SR alone
takes past a bound is an overflow (log 77). -/
def Sys2Proof.Claims.FloatLanes : Prop :=
  ∀ (s s' : State) (r : Region) (v : OpView) (c : OpCfg) (p : VecParam) (a b d : Beat) (fm fo : Fmt)
    (lo hi : Int), Ready s r v → Passes s r v s' → p.acc = 0 → floatOf (v.inFmt 0) = some fm → a.kind = .data →
    b.kind = .data → d.kind = .data →
    let R : Rounding := { rnd := c.rnd.toNat, sat := c.sat }
    let code := v.inFmt 0
    let w := fmtWidth code
    let n := v.inLanes 0
    let cst := p.const.toNat % 2 ^ w
    let ps := if p.immb then [0] else [0, 1]
    let x (k : Nat) : Nat := a.lane w k
    let y (k : Nat) : Nat := if p.immb then cst else b.lane w k
    let z (k : Nat) : Nat := if p.immb then cst else d.lane w k
    let X (k : Nat) : FVal := decodeF fm (x k)
    let Y (k : Nat) : FVal := decodeF fm (y k)
    let rounds (i : Instr) (ps : List Nat) (to_ : Fmt) (f : Nat → FVal × Nat) : Prop :=
      let res := runLanes (fun k g => roundEl R to_ g (f k).1 (f k).2) n 0 v.tile.gen
      res.fault = none → Gives i s s' r v ps res.codes res.flags res.gen
    let compares (i : Instr) (ps : List Nat) (f : Nat → Nat) : Prop :=
      Gives i s s' r v ps ((upFrom 0 n).map f) 0 v.tile.gen
    let picks (i : Instr) (ps : List Nat) (f : Nat → Nat) : Prop :=
      Gives i s s' r v ps ((upFrom 0 n).map f) 0 ((upFrom 0 n).foldl (fun g k => R.drawn g (decodeF fm (f k))) v.tile.gen)
    (At v ps (if p.immb then [a] else [a, b]) →
      rounds (.vadd c p) ps fm (fun k => addV (X k) (Y k) (c.rnd == 2)) ∧
      rounds (.vsub c p) ps fm (fun k => addV (X k) (negV (Y k)) (c.rnd == 2)) ∧
      rounds (.vmul c p) ps fm (fun k => mulV (X k) (Y k)) ∧
      picks (.vmax c p) ps (fun k => minMaxF fm false (x k) (y k)) ∧
      picks (.vmin c p) ps (fun k => minMaxF fm true (x k) (y k)) ∧
      compares (.vcmp c p) ps (fun k => b2n (
        if (X k).isNaN || (Y k).isNaN then p.rel.toNat == 1
        else match p.rel.toNat with
          | 0 => eqV (X k) (Y k)
          | 1 => !eqV (X k) (Y k)
          | 2 => ltV (X k) (Y k)
          | 3 => ltV (X k) (Y k) || eqV (X k) (Y k)
          | 4 => !ltV (X k) (Y k) && !eqV (X k) (Y k)
          | _ => !ltV (X k) (Y k)))) ∧
    (At v (if p.immb then [0, 1] else [0, 1, 2]) (if p.immb then [a, b] else [a, b, d]) →
      rounds (.vfma c p) (if p.immb then [0, 1] else [0, 1, 2]) fm
        (fun k => fmaV (X k) (decodeF fm (b.lane w k)) (decodeF fm (z k)) (c.rnd == 2))) ∧
    (p.immb = false → At v [0] [a] →
      rounds (.vexp2 c p) [0] fm (fun k => exp2V (X k)) ∧ rounds (.vlog2 c p) [0] fm (fun k => log2V (X k)) ∧
      rounds (.vrcp c p) [0] fm (fun k => rcpV (X k)) ∧ rounds (.vrsqrt c p) [0] fm (fun k => rsqrtV (X k)) ∧
      (floatOf (v.outFmt 0) = some fo → rounds (.vcvt c p) [0] fo (fun k => (X k, 0))) ∧
      (floatOf (v.outFmt 0) = none → intRangeOf (v.outFmt 0) = some (lo, hi) →
        let wo := fmtWidth (v.outFmt 0)
        let res := runLanes (fun k g => match X k with
          | .nan => (Elem.judge c.sat 0 NV, g)
          | .inf neg => (Elem.judge c.sat (ofSigned (if neg then lo else hi) wo) NV, if c.rnd = 4 then draw g else g)
          | .fin x =>
            let g' := if c.rnd = 4 then draw g else g
            let i := roundInt c.rnd.toNat g'.toNat x
            let t := (roundInt 1 0 x).1
            (if lo ≤ i.1 ∧ i.1 ≤ hi then Elem.judge c.sat (ofSigned i.1 wo) (if i.2 then NX else 0)
              else if c.rnd = 4 ∧ lo ≤ t ∧ t ≤ hi then intEl c.sat (v.outFmt 0) i.1
              else Elem.judge c.sat (ofSigned (if hi < i.1 then hi else lo) wo) NV, g')) n 0 v.tile.gen
        res.fault = none → Gives (.vcvt c p) s s' r v [0] res.codes res.flags res.gen) ∧
      picks (.vabs c p) [0] (fun k => if (X k).isNaN then fm.nanCode else x k % 2 ^ (fm.w - 1)) ∧
      picks (.vneg c p) [0] (fun k => if (X k).isNaN then fm.nanCode
        else if 2 ^ (fm.w - 1) ≤ x k then x k - 2 ^ (fm.w - 1) else x k + 2 ^ (fm.w - 1)))

/-- R114, R115: `vexp2`, `vlog2`, `vrcp` and `vrsqrt` by value: the special inputs, and the general cases in steps that round to
FP32 with RNE, where 1 ≤ m < 2, or 1 ≤ m < 4 with e even for `vrsqrt`. -/
def Sys2Proof.Claims.TranscendentalValues : Prop :=
  let num (n d : Nat) : Ex := { neg := false, num := n, den := d }
  let single (code : Nat) : Ex := match decodeF .fp32 code with
    | .fin y => y
    | _ => Ex.zero false
  let rnd (x : Ex) : Ex := match decodeF .fp32 (roundF .fp32 0 0 .ieee (.fin x)).1 with
    | .fin y => y
    | _ => Ex.zero x.neg
  let fma (x y z : Ex) : Ex := rnd ((x.mul y).add z false)
  let sub (x y : Ex) : Ex := x.add y.negate false
  let flo (x : Ex) : Int := x.int 1 / (x.den : Int)
  let last (x : Ex) : FVal × Nat :=
    (decodeF .fp32 (roundF .fp32 0 0 .saturate (.fin x)).1, (roundF .fp32 0 0 .saturate (.fin x)).2)
  ((exp2V .nan).1 = .nan ∧ (log2V .nan).1 = .nan ∧ (rcpV .nan).1 = .nan ∧ (rsqrtV .nan).1 = .nan ∧
    exp2V (.inf false) = (.inf false, 0) ∧ log2V (.inf false) = (.inf false, 0) ∧
    rcpV (.inf false) = (.fin (Ex.zero false), 0) ∧ rsqrtV (.inf false) = (.fin (Ex.zero false), 0) ∧
    exp2V (.inf true) = (.fin (Ex.zero false), 0) ∧ log2V (.inf true) = (.nan, 16) ∧
    rcpV (.inf true) = (.fin (Ex.zero true), 0) ∧ rsqrtV (.inf true) = (.nan, 16)) ∧
  (∀ x : Ex, x.num = 0 → exp2V (.fin x) = (.fin Ex.one, 0) ∧ log2V (.fin x) = (.inf true, 8) ∧
    rcpV (.fin x) = (.inf x.neg, 8) ∧ rsqrtV (.fin x) = (.inf x.neg, 8)) ∧
  (∀ x : Ex, x.num ≠ 0 → x.neg = true → log2V (.fin x) = (.nan, 16) ∧ rsqrtV (.fin x) = (.nan, 16)) ∧
  (∀ x : Ex, x.num ≠ 0 → 0 < x.den →
    let neg := x.neg
    let n := flo x
    let f := sub x (Ex.ofInt n)
    let j := (flo (f.mul (num 64 1))).toNat
    let g := rnd (sub f (num j 64))
    let p := rnd ((fma (fma (single constC3) g (single constC2)) g (single constC1)).mul g)
    let t := single (tabEXT.getD j 0)
    (x.lt (num 128 1) = false → exp2V (.fin x) = (decodeF .fp32 0x7F7FFFFF, 5)) ∧
    (x.lt (Ex.ofInt (-160)) = true → exp2V (.fin x) = (.fin (Ex.zero false), 3)) ∧
    (x.lt (num 128 1) = true → x.lt (Ex.ofInt (-160)) = false →
      exp2V (.fin x) = last ((fma t p t).mul (Ex.pow2 n)) ∧ j < 64) ∧
    let e := ilog2 x.num x.den
    let m := Ex.mul { x with neg := false } (Ex.pow2 (-e))
    (m.lt Ex.one = false ∧ m.lt (num 2 1) = true) ∧
    (neg = false →
      let j := (flo ((sub m Ex.one).mul (num 64 1))).toNat
      let z := rnd ((sub m (num (64 + j) 64)).mul (single (tabINV.getD j 0)))
      let p := rnd ((fma (fma (single constD3) z (single constD2)) z (single constD1)).mul z)
      let s := rnd ((Ex.ofInt e).add (single (tabLGT.getD j 0)) false)
      log2V (.fin x) = last (s.add p false) ∧ j < 64) ∧
    (let y0 := single (tabSEEDR.getD (flo ((sub m Ex.one).mul (num 128 1))).toNat 0)
      let again (y : Ex) : Ex := fma y (fma m.negate y Ex.one) y
      let v := last ((again (again y0)).mul (Ex.pow2 (-e)))
      rcpV (.fin x) = (if neg then negV v.1 else v.1, v.2)) ∧
    (neg = false →
      let e' := if e % 2 = 0 then e else e - 1
      let m' := if e % 2 = 0 then m else m.mul (num 2 1)
      let y0 := single (tabSEEDS.getD (flo ((sub m' Ex.one).mul (num 64 1))).toNat 0)
      let again (y : Ex) : Ex := fma (y.mul (num 1 2)) (fma (rnd (m'.mul y)).negate y Ex.one) y
      rsqrtV (.fin x) = last ((again (again y0)).mul (Ex.pow2 (-(e' / 2))))))

/-- R63, R80, R82, R101, R286, R289, R291: what every elementwise operator does alike. A stop passes; a hole at an input
makes the position a hole; poison passes in deferred mode and traps in immediate mode with its own cause; without space
on an output, or without an input beat, nothing happens. An integer sum outside its format under the trap policy (`vadd`)
traps with cause 1 and its lane in immediate mode, so that the region keeps the trap and the operator freezes; in
deferred mode poison leaves in the place of the result; either way OF stands in TFLAGS of the tile, as R101 has it against R305
(log 63). -/
def Sys2Proof.Claims.ElementwiseControl : Prop :=
  ∀ (s s' : State) (r : Region) (v : OpView) (c : OpCfg) (p : VecParam) (a b : Beat) (q k : Nat) (lo hi : Int) (i : Instr),
    Ready s r v → p.acc = 0 → p.immb = false →
    let w := fmtWidth (v.inFmt 0)
    let two := i ∈ twoInputs c p
    let ps := if two then [0, 1] else [0]
    let sum (m : Nat) : Int := intOf (v.inFmt 0) (a.lane w m) + intOf (v.inFmt 0) (b.lane w m)
    let traps (i : Instr) (fl : Nat) (ok : TrapRec → Prop) : Prop :=
      ∃ t r' z, exec i s = .next t ∧ t.region? r.job r.v = some r' ∧ r'.trap = some z ∧ z.op = v.ix ∧ ok z ∧
        { t with regions := s.regions } = s ∧ (∀ o, r'.body.ops[v.ix]? = some o → o.frozen = true) ∧
        r'.body.tiles = r.body.tiles.map (fun x =>
          if x.x = v.op.x ∧ x.y = v.op.y then { x with tflags := x.tflags ||| BitVec.ofNat 8 fl } else x)
    ((i ∈ twoInputs c p ∨ i ∈ oneInput c p) →
      (Passes s r v s' → At v ps (if two then [a, b] else [a]) → b = a ∨ ¬ two → a.kind = .stop →
        Fires i s s' r v { take := ps, emit := v.toAll (stopBeat a.level) }) ∧
      (Passes s r v s' → At v ps (if two then [a, b] else [a]) → a.kind = .cond → b.kind.takesPosition = true →
        Fires i s s' r v { take := ps, emit := v.toAll holeBeat }) ∧
      (At v ps (if two then [a, b] else [a]) → a.kind = .poison → b.kind = .data →
        (v.deferred = true → Passes s r v s' → Fires i s s' r v { take := ps, emit := v.toAll a }) ∧
        (v.deferred = false → r.trap = none → traps i 0 (fun z => z.cause = bf a.data.toNat 0 8 ∧ z.port = 0 ∧
          z.pos = bf a.data.toNat 32 32))) ∧
      (v.head 0 = none → ¬ two → exec i s = .next s) ∧
      (q ∈ v.outPorts → r.body.space v.ix q = false → At v ps (if two then [a, b] else [a]) → a.kind = .cond →
        b.kind = .data → exec i s = .next s)) ∧
    (At v [0, 1] [a, b] → a.kind = .data → b.kind = .data → intRangeOf (v.inFmt 0) = some (lo, hi) → c.sat = false →
      k < v.inLanes 0 → (∀ m, m < k → lo ≤ sum m ∧ sum m ≤ hi) → ¬(lo ≤ sum k ∧ sum k ≤ hi) → k < 512 →
      (v.deferred = false → r.trap = none → traps (.vadd c p) 4 (fun z => z.cause = 1 ∧ z.lane = k)) ∧
      (v.deferred = true → Passes s r v s' → Fires (.vadd c p) s s' r v
        { take := [0, 1], emit := v.toAll (v.poison 1 k (v.posAt 0)), gen := some v.tile.gen,
          flags := 4 }))

/-- R307, R308, R113, R116: accumulations, reductions and scans. `vadd`, `vmax` and `vmin` with ACC combine each position with
the value held per lane, and leave it running (ACC 1) or at the closing stop (ACC 2), whose level drops by the
closed levels less one. `vred` combines the lanes of a beat as a tree of neighbours, `vscan` from lane 0 up; both
carry on from the value held. A value held in another format than the one it is used in traps FORMAT_TAG (cause 3). -/
def Sys2Proof.Claims.RunningValues : Prop :=
  ∀ (s s' : State) (r : Region) (v : OpView) (c : OpCfg) (p : VecParam) (b : Beat) (fi fa : Fmt) (kind : Nat) (i : Instr),
    Ready s r v → Passes s r v s' → At v [0] [b] →
    (i = .vadd c p ∧ kind = 0) ∨ (i = .vmax c p ∧ kind = 1) ∨ (i = .vmin c p ∧ kind = 2) →
    let R : Rounding := { rnd := c.rnd.toNat, sat := c.sat }
    let code := v.inFmt 0
    let n := v.inLanes 0
    let af := if p.afmt = 0 then v.outFmt 0 else p.afmt.toNat
    let vs := heldAcc v.op.mem
    let lev := p.alev.toNat
    let x (k : Nat) : Nat := b.lane (fmtWidth code) k
    let held (fmt : Nat) (codes : List Nat) : Option OpMem := some (.acc (tagOf fmt 0) (codes.map AccVal.val))
    let none_ : Option OpMem := some (.acc 0 [])
    let tagTrap : Host.Outcome State Fault Refusal := .next (s.setRegion (r.trapped v { cause := 0x03 }))
    let level := if b.level = 7 then 7 else b.level - lev + 1
    (accPoison vs = none → b.kind = .data → tagDiffers v.op.mem af = true → p.acc ≠ 0 → exec i s = tagTrap) ∧
    (accPoison vs = none → b.kind = .data → tagDiffers v.op.mem code = true →
      exec (.vscan c p) s = tagTrap ∧ (p.span ≠ 1 → exec (.vred c p) s = tagTrap)) ∧
    (accPoison vs = none → b.kind = .data → tagDiffers v.op.mem af = false → floatOf code = some fi → floatOf af = some fa →
      let Y (k : Nat) : FVal := decodeF fi (x k)
      let step (k : Nat) (g : BitVec 32) : Elem × BitVec 32 := match accCode vs k with
        | none => roundEl R fa g (Y k) 0
        | some a =>
          let A := decodeF fa a
          if kind = 0 then roundEl R fa g (addV A (Y k) (c.rnd == 2)).1 (addV A (Y k) (c.rnd == 2)).2
          else if A.isNaN then roundEl R fa g (Y k) 0
          else if (Y k).isNaN then roundEl R fa g A 0
          else if (if kind = 1 then ltZ A (Y k) else ltZ (Y k) A) then roundEl R fa g (Y k) 0
          else roundEl R fa g A 0
      let run := accLanes step (some (fun y g => cvtLane (v.outFmt 0) R af [y] g)) n 0 v.tile.gen
      let acc := accLanes step none n 0 v.tile.gen
      (p.acc = 1 → run.accFault = none → run.outFault = none → Fires i s s' r v
        { take := [0], emit := v.toAll (beatOf (v.outFmt 0) run.outs), mem := held af run.accs, flags := run.flags,
          gen := some run.gen }) ∧
      (p.acc = 2 → acc.accFault = none → Fires i s s' r v
        { take := [0], emit := [], mem := held af acc.accs, flags := acc.flags, gen := some acc.gen })) ∧
    (b.kind = .stop →
      (p.acc = 1 → lev ≤ b.level → Fires i s s' r v
        { take := [0], emit := v.toAll (stopBeat b.level), mem := none_ }) ∧
      (p.acc = 2 → lev ≤ b.level → vs = [] → Fires i s s' r v
        { take := [0], emit := v.toAll (dataBeat 0) ++ v.toAll (stopBeat level), mem := none_ }) ∧
      (p.acc = 2 → lev ≤ b.level → accPoison vs = none → vs ≠ [] → tagDiffers v.op.mem af = false →
        let out := runLanes (fun k g => cvtLane (v.outFmt 0) R af [(accCode vs k).getD 0] g) vs.length 0 v.tile.gen
        out.fault = none → Fires i s s' r v
          { take := [0], emit := v.toAll (beatOf (v.outFmt 0) out.codes) ++ v.toAll (stopBeat level), mem := none_,
            flags := out.flags, gen := some out.gen }) ∧
      (lev ≤ b.level → accPoison vs = none → p.span ≠ 1 → tagDiffers v.op.mem code = false → Fires (.vred c p) s s' r v
        { take := [0], emit := v.toAll (beatOf (v.outFmt 0) ((upFrom 0 vs.length).map (fun k => (accCode vs k).getD 0))) ++
            v.toAll (stopBeat level), mem := none_ }) ∧
      (p.span = 1 → Fires (.vred c p) s s' r v { take := [0], emit := v.toAll (stopBeat b.level) }) ∧
      (lev ≤ b.level → Fires (.vscan c p) s s' r v
        { take := [0], emit := v.toAll (stopBeat b.level), mem := none_ })) ∧
    (b.kind = .data → accPoison vs = none →
      let plain (k : Nat) : Nat := match floatOf code with
        | some fm => if (decodeF fm (x k)).isNaN then fm.nanCode else x k
        | none => x k
      let lanes := (upFrom 0 n).map (fun k => (k, plain k))
      let tree := if p.span = 2 then { vals := lanes, flags := 0, fault := none, gen := v.tile.gen }
        else treeOf p.op.toNat R code n lanes v.tile.gen
      let all := onto p.op.toNat R code vs tree.vals tree.gen
      let scan := scanLanes p.op.toNat R code (accCode vs 0) 0 ((upFrom 0 n).map x) v.tile.gen
      (p.span = 1 → tree.fault = none → Gives (.vred c p) s s' r v [0] (tree.vals.map (fun e => e.2)) tree.flags tree.gen) ∧
      (p.span ≠ 1 → tagDiffers v.op.mem code = false → tree.fault = none → all.fault = none → Fires (.vred c p) s s' r v
        { take := [0], emit := [], mem := held code all.codes, flags := tree.flags ||| all.flags, gen := some all.gen }) ∧
      (tagDiffers v.op.mem code = false → scan.fault = none → Fires (.vscan c p) s s' r v
        { take := [0], emit := v.toAll (beatOf (v.outFmt 0) scan.codes),
          mem := held code [scan.codes.getLast?.getD 0], flags := scan.flags, gen := some scan.gen }))

/-- R113, R109, R218: what the names of the rows, trees and scans of `RunningValues` stand for. The lanes of a row come in ascending
order, each with the generator that the lanes before it leave. A level of the tree combines element 2i with element 2i + 1, an
unpaired last one passes on, and levels go on until one element is left or one faults. A scan combines each lane with the result
before it. -/
def Sys2Proof.Claims.CombinationValues : Prop :=
  ∀ (op code n k : Nat) (R : Rounding) (f h : Nat → BitVec 32 → Elem × BitVec 32) (g : BitVec 32) (xs : List (Nat × Nat))
    (ys : List Nat) (start : Option Nat) (vs : List AccVal), op ≤ 2 →
    let comb (x y : Nat) (g : BitVec 32) : Elem × BitVec 32 := match floatOf code, op with
      | some fm, 0 => roundEl R fm g (addV (decodeF fm x) (decodeF fm y) (R.rnd == 2)).1
          (addV (decodeF fm x) (decodeF fm y) (R.rnd == 2)).2
      | none, 0 => (intEl R.sat code (intOf code x + intOf code y), g)
      | some fm, o => (Elem.plain (minMaxF fm (o == 2) x y), g)
      | none, o => (intEl R.sat code (if o = 1 then max (intOf code x) (intOf code y) else min (intOf code x) (intOf code y)), g)
    let first (x : Nat) : Nat := match floatOf code with
      | some fm => if (decodeF fm x).isNaN then fm.nanCode else x
      | none => x
    let row := runLanes f n k g
    let gen (j : Nat) : BitVec 32 := (runLanes f j k g).gen
    (row.codes.length = n ∧ (∀ j, j < n → row.codes[j]? = some (f (k + j) (gen j)).1.code ∧
        gen (j + 1) = (f (k + j) (gen j)).2) ∧ gen 0 = g ∧
      (row.fault = none ↔ ∀ j, j < n → (f (k + j) (gen j)).1.cause = 0) ∧
      row.flags = (upFrom 0 n).foldl (fun fl j => fl ||| (f (k + j) (gen j)).1.flags) 0) ∧
    (let acc := accLanes f (some (fun x => h x)) n k g
     let gen (j : Nat) : BitVec 32 := (accLanes f (some (fun x => h x)) j k g).gen
     acc.accs.length = n ∧ acc.outs.length = n ∧ gen 0 = g ∧ ∀ j, j < n →
       acc.accs[j]? = some (f (k + j) (gen j)).1.code ∧
       acc.outs[j]? = some (h (f (k + j) (gen j)).1.code (f (k + j) (gen j)).2).1.code ∧
       gen (j + 1) = (h (f (k + j) (gen j)).1.code (f (k + j) (gen j)).2).2) ∧
    (let q := pairUp op R code xs g
     let gen (i : Nat) : BitVec 32 := (pairUp op R code (xs.take (2 * i)) g).gen
     q.vals.length = (xs.length + 1) / 2 ∧
     (∀ i x y, xs[2 * i]? = some x → xs[2 * i + 1]? = some y → q.vals[i]? = some (x.1, (comb x.2 y.2 (gen i)).1.code)) ∧
     (∀ i x, xs[2 * i]? = some x → xs[2 * i + 1]? = none → q.vals[i]? = some x) ∧
     (1 < xs.length → q.fault = none → (treeOf op R code (n + 1) xs g).vals = (treeOf op R code n q.vals q.gen).vals)) ∧
    (xs ≠ [] → xs.length ≤ n → (treeOf op R code n xs g).fault = none → (treeOf op R code n xs g).vals.length = 1) ∧
    (treeOf op R code n (xs.take 1) g).vals = xs.take 1 ∧
    (let q := scanLanes op R code start k ys g
     let gen (j : Nat) : BitVec 32 := (scanLanes op R code start k (ys.take j) g).gen
     q.codes.length = ys.length ∧
     (∀ y, ys.head? = some y → q.codes.head? = some (match start with
       | some a => (comb a y g).1.code
       | none => first y)) ∧
     ∀ j a y, q.codes[j]? = some a → ys[j + 1]? = some y → q.codes[j + 1]? = some (comb a y (gen (j + 1))).1.code) ∧
    (let q := onto op R code vs xs g
     q.codes.length = xs.length ∧ ∀ x, xs[0]? = some x → q.codes[0]? = some (match accCode vs 0 with
       | some a => (comb a x.2 g).1.code
       | none => first x.2))

/-- R304, R306, R100-R104, R108, R109, R112, R114: elementwise operators on a floating format. Each lane is the
value of the operation rounded in the word's mode to the format (`roundEl`), lanes in ascending order, each with the
generator that the lanes before it leave. The operators that take an operand as it is draw as the others do under SR
(log 78). `vcvt` to an integer format rounds each lane to an integer, NV and the nearest bound where it passes one,
0 for a NaN; a number that SR alone takes past a bound is an overflow (log 77). R114, R115: `vexp2`, `vlog2`, `vrcp`
and `vrsqrt` by value: the special inputs, and the general cases in steps that round to FP32 with RNE, where 1 ≤ m <
2, or 1 ≤ m < 4 with e even for `vrsqrt`. -/
def Obligations.VectorFloats : Prop := Claims.FloatLanes ∧ Claims.TranscendentalValues

/-- R65, R286, R106: what firing does. The beat at the head of a taken input leaves its link, the emitted beat joins
the link of its output, no other edge of the region changes, and the flags are ORed into the flags of the tile. A
copy of the trap poison takes no position (R291). R63, R80, R82, R101, R286, R289, R291: what every elementwise
operator does alike. A stop passes; a hole at an input makes the position a hole; poison passes in deferred mode and
traps in immediate mode with its own cause; without space on an output, or without an input beat, nothing happens.
An integer sum outside its format under the trap policy (`vadd`) traps with cause 1 and its lane in immediate mode,
so that the region keeps the trap and the operator freezes; in deferred mode poison leaves in the place of the
result; either way OF stands in TFLAGS of the tile, as R101 has it against R305 (log 63). -/
def Obligations.FiringAndControl : Prop := Claims.FiringTakesAndEmits ∧ Claims.ElementwiseControl

/-- R307, R308, R113, R116: accumulations, reductions and scans. `vadd`, `vmax` and `vmin` with ACC combine each
position with the value held per lane, and leave it running (ACC 1) or at the closing stop (ACC 2), whose level
drops by the closed levels less one. `vred` combines the lanes of a beat as a tree of neighbours, `vscan` from lane
0 up; both carry on from the value held. A value held in another format than the one it is used in traps FORMAT_TAG
(cause 3). R113, R109, R218: what the names of the rows, trees and scans of `RunningValues` stand for. The lanes of
a row come in ascending order, each with the generator that the lanes before it leave. A level of the tree combines
element 2i with element 2i + 1, an unpaired last one passes on, and levels go on until one element is left or one
faults. A scan combines each lane with the result before it. -/
def Obligations.Accumulations : Prop := Claims.RunningValues ∧ Claims.CombinationValues

/-- R293, R294, R300-R302, R96, R97: block operators on a data beat. `vdequant` multiplies each element by its block's
scale; a NaN block gives NaNs and raises NV once. `vquant` makes the scale of each block and rounds the elements with it.
`planes` gathers the beats of a slice and then leaves its head beats on out1 and its plane beats on out0; a stop leaves at the
level of R300, but a final one stays final, as R67 asks (log 34). -/
def Sys2Proof.Claims.BlockFirings : Prop :=
  ∀ (s s' : State) (r : Region) (v : OpView) (c : OpCfg) (type : BitVec 2) (types : BitVec 4) (cmpr : Bool) (b : Beat)
    (f : Fmt), Ready s r v → Passes s r v s' → At v [0] [b] →
    let R : Rounding := { rnd := c.rnd.toNat, sat := c.sat }
    let code := v.inFmt 0
    let out := v.outFmt 0
    let n := v.inLanes 0
    let w := fmtWidth code
    let din := v.inDesc 0
    let dout := v.outDesc 0
    let size := dBsize dout
    let lane (k : Nat) : Nat := b.lane w k
    let scale (k : Nat) : Nat := b.scale n w (k / dBsize din)
    let deq := runLanes (fun k g => match scaleV (dSfmt din) (scale k) with
      | .fin x =>
        if x.num = 0 then roundEl R f g (.fin (Ex.zero false)) 0
        else roundEl R f g (mulV (elemV code (scale k) (lane k)) (.fin x)).1 0
      | _ => (Elem.judge c.sat f.nanCode (if k % dBsize din = 0 then NV else 0), g)) n 0 v.tile.gen
    let vals := (upFrom 0 n).map (fun k => decodeF f (lane k))
    let block (t : Nat) : Nat × Nat × Option Nat := quantBlock (dSfmt dout) out type.toNat ((vals.drop (t * size)).take size)
    let qnt := runLanes (fun k g =>
      let e := quantEl R out type.toNat (dW dout) (match scaleV (dSfmt dout) (block (k / size)).1 with
        | .fin x => x
        | _ => Ex.zero false) (vals.getD k .nan) g
      ({ e.1 with flags := e.1.flags ||| (block (k / size)).2.1 }, e.2)) n 0 v.tile.gen
    let got := planesMem v.op.mem ++ [b]
    let due := 8 * (64 / laneCountL code din)
    let forms := sliceForms code din types.toNat (some c.sat) 8 got
    let beats := sliceBeats code din types.toNat cmpr forms (sliceScales code din 8 got)
    (b.kind = .data → floatOf out = some f → deq.fault = none →
      Gives (.vdequant c) s s' r v [0] deq.codes deq.flags deq.gen) ∧
    (b.kind = .data → floatOf code = some f → 0 < size → n % size = 0 → (∀ t, t < n / size → (block t).2.2 = none) →
      qnt.fault = none → Fires (.vquant c type) s s' r v
        { take := [0], emit := v.toAll (blockBeat (fmtWidth out) n qnt.codes ((upFrom 0 (n / size)).map (fun t => (block t).1))),
          flags := qnt.flags, gen := some qnt.gen }) ∧
    (b.kind = .data → got.length < due → Fires (.planes c types cmpr) s s' r v
      { take := [0], emit := [], mem := some (.planes got) }) ∧
    (b.kind = .data → due ≤ got.length → (∀ x ∈ got, x.kind = .data) → (∀ x ∈ forms, x.fault = none) →
      Fires (.planes c types cmpr) s s' r v
        { take := [0], emit := beats.1.map (fun x => (1, x)) ++ beats.2.map (fun x => (0, x)), mem := some (.planes []),
          flags := forms.foldl (fun fl x => fl ||| x.flags) 0 }) ∧
    (b.kind = .stop → planesMem v.op.mem = [] → v.inLevel 0 ≤ b.level → Fires (.planes c types cmpr) s s' r v
      { take := [0], emit := v.toAll (stopBeat (if b.level = 7 then 7 else min 7 (3 + b.level - v.inLevel 0))) })

/-- R91, R93, R96, R97, R99, R294, R301: the block arithmetic by value. `vquant`: the table of V and e, the scale of a block from the
largest magnitude in it, and each element. Integer forms: a TYPED4 code, a narrowed element, an aligned block with its shared
exponent. Then where the elements and scales of a slice stand in its beats, and what a plane beat holds. -/
def Sys2Proof.Claims.BlockValues : Prop :=
  ∀ (R : Rounding) (fmt t w sfmt k rows : Nat) (s x : Ex) (g : BitVec 32) (vs : List FVal) (d : BitVec 32) (types scale : Nat)
    (policy : Option Bool) (codes : List Nat) (beats : List Beat) (f : Fmt) (neg : Bool),
    let draws (v : FVal) : BitVec 32 := if R.rnd = 4 && !v.isNaN then draw g else g
    let flo (x : Ex) : Int := x.int 1 / (x.den : Int)
    let abs (x : Ex) : Ex := { x with neg := false }
    let lohi : Int × Int := let r := (intRangeOf fmt).getD (0, 0); if w = 0 then r
      else if r.1 < 0 then (-(2 ^ (w - 1) : Nat), (2 ^ (w - 1) : Nat) - 1) else (0, (2 ^ w : Nat) - 1)
    let topped (code fl : Nat) : Elem := if R.sat then { code := code, flags := fl }
      else { code := code, flags := 4, cause := 1, own := 4 }
    (quantTop 0x0E t = (6, 2) ∧ quantTop 0x01 t = (7, 2) ∧ quantTop 0x02 t = (15, 3) ∧ quantTop 0x03 t = (127, 6) ∧
      quantTop 0x04 t = (255, 7) ∧ quantTop 0x0B t = (448, 8) ∧ quantTop 0x0C t = (57344, 15) ∧ quantTop 0x0F 0 = (7, 2) ∧
      quantTop 0x0F 1 = (6, 2) ∧ quantTop 0x0F 2 = (64, 6) ∧ quantTop 0x0F 3 = (32, 5)) ∧
    (k < vs.length → vs[k]? = some .nan → (∀ j, j < k → vs[j]? ≠ some .nan) → 1 ≤ sfmt → sfmt ≤ 4 → quantBlock sfmt fmt t vs =
      ((match sfmt with
        | 1 => t * 64 + 63
        | 2 => 0xFF
        | 3 => 0x7E
        | _ => 0x7F), 16, some k)) ∧
    ((∀ v ∈ vs, v ≠ .nan) → (∀ y, FVal.fin y ∈ vs → 0 < y.den) → 1 ≤ sfmt → sfmt ≤ 4 → ∃ m : Ex,
      (∀ y, FVal.fin y ∈ vs → m.lt (abs y) = false) ∧ (m = Ex.zero false ∨ ∃ y, FVal.fin y ∈ vs ∧ m = abs y) ∧
      let e := ilog2 m.num m.den - (quantTop fmt t).2
      let r := roundF (if sfmt = 3 then .e5m2 else .e4m3) 3 0 .saturate (.fin (m.div { neg := false, num := (quantTop fmt t).1, den := 1 }))
      quantBlock sfmt fmt t vs = (match sfmt with
        | 1 => (t * 64 + (if m.num = 0 then 32 else (max 0 (min 62 (e + 32))).toNat), 0, none)
        | 2 => (if m.num = 0 then 127 else (max 0 (min 254 (e + 127))).toNat, 0, none)
        | _ => if m.num = 0 then (0, 0, none) else (r.1, r.2, none))) ∧
    quantEl R fmt t w s .nan g = (Elem.plain 0, g) ∧
    (fmt ≠ 0x0F → floatOf fmt = some f →
      quantEl R fmt t w s (.inf neg) g = (topped (if neg then f.maxCode + 2 ^ (f.w - 1) else f.maxCode) 5, draws (.inf neg)) ∧
      (s.num ≠ 0 → quantEl R fmt t w s (.fin x) g = roundEl R f g (.fin (x.div s)) 0)) ∧
    (fmt ≠ 0x0F → floatOf fmt = none →
      quantEl R fmt t w s (.inf neg) g =
        (topped (ofSigned (if neg then lohi.1 else lohi.2) (fmtWidth fmt)) 32, draws (.inf neg)) ∧
      (s.num ≠ 0 → let i := roundInt R.rnd (draws (.fin x)).toNat (x.div s)
        quantEl R fmt t w s (.fin x) g = (if lohi.1 ≤ i.1 ∧ i.1 ≤ lohi.2
          then { code := ofSigned i.1 (fmtWidth fmt), flags := if i.2 then 1 else 0 }
          else topped (ofSigned (if lohi.2 < i.1 then lohi.2 else lohi.1) (fmtWidth fmt)) 32, draws (.fin x)))) ∧
    (∃ c, c < 16 ∧ quantEl R 0x0F t w s (.inf neg) g = (topped c 5, draws (.inf neg)) ∧
      ∀ c', c' < 16 → if neg then typedInt t c ≤ typedInt t c' else typedInt t c' ≤ typedInt t c) ∧
    (0 < x.den → s.num ≠ 0 → let y := if t = 1 then (x.div s).mul { neg := false, num := 2, den := 1 } else x.div s
      let dist (c : Nat) : Ex := abs (y.add (Ex.ofInt (typedInt t c)).negate false)
      ∃ c fl, c < 16 ∧ quantEl R 0x0F t w s (.fin x) g = ({ code := c, flags := fl }, draws (.fin x)) ∧
        fl = (if y.eqv (Ex.ofInt (typedInt t c)) then 0 else 1) ∧ ∀ c', c' < 16 → (dist c').lt (dist c) = false ∧
          ((dist c').eqv (dist c) = true → (typedInt t c).natAbs ≤ (typedInt t c').natAbs)) ∧
    (typedInt 0 0xF = -1 ∧ typedInt 1 0x7 = 12 ∧ typedInt 2 0x3 = 4 ∧ typedInt 2 0xB = -4 ∧ typedInt 2 0x7 = 64 ∧ typedInt 2 0x8 = 0 ∧
      typedInt 3 0x5 = 8 ∧ typedInt 3 0xA = -2 ∧ typedInt 3 0xF = -32) ∧
    (let F := blockForms fmt d types policy scale codes
     let W : Int := dW d
     (scaleV (dSfmt d) scale = .nan → F = { q := codes.map (fun _ => 0), x := 0, nan := true, flags := 0, fault := none }) ∧
     (scaleV (dSfmt d) scale ≠ .nan → dAlign d = true → floatOf fmt = some f →
       ((∃ c ∈ codes, ∀ y, decodeF f c ≠ .fin y) →
         F = { q := codes.map (fun _ => 0), x := 0, nan := true, flags := 0, fault := none }) ∧
       ((∀ c ∈ codes, ∃ y, decodeF f c = .fin y) →
         F.nan = false ∧ F.flags = 0 ∧ F.fault = none ∧ F.q.length = codes.length ∧
         (∀ (i c : Nat) (y : Ex), codes[i]? = some c → decodeF f c = .fin y →
           let q := flo ((abs y).mul (Ex.pow2 (W - 2 - F.x)))
           F.q[i]? = some (if y.neg then -q else q) ∧
             (y.num ≠ 0 → max (ilog2 y.num y.den) (1 - (f.bias : Int)) ≤ F.x)) ∧
         ((∀ c ∈ codes, ∀ y, decodeF f c = .fin y → y.num = 0) → F.x = 0) ∧
         ((∃ c ∈ codes, ∃ y, decodeF f c = .fin y ∧ y.num ≠ 0) →
           ∃ c ∈ codes, ∃ y, decodeF f c = .fin y ∧ y.num ≠ 0 ∧ F.x = max (ilog2 y.num y.den) (1 - (f.bias : Int))))) ∧
     (scaleV (dSfmt d) scale ≠ .nan → dAlign d = false →
       let ty := scale / 64 % 4
       let form (c : Nat) : Int := if fmt = 0x0E then typedInt 1 c else if fmt = 0x0F then typedInt ty c else intOf fmt c
       (fmt = 0x0F → bit types ty = false → F.fault = some (2, 0)) ∧
       ((fmt = 0x0F → bit types ty = true) → F.nan = false ∧ F.x = 0 ∧
         (policy = none ∨ dW d = 0 → F.q = codes.map form ∧ F.flags = 0 ∧ F.fault = none) ∧
         (∀ sat, policy = some sat → dW d = w → w ≠ 0 →
           F.q = codes.map (fun c => max lohi.1 (min lohi.2 (form c))) ∧
           ((∀ c ∈ codes, lohi.1 ≤ form c ∧ form c ≤ lohi.2) → F.flags = 0 ∧ F.fault = none) ∧
           ((∃ c ∈ codes, ¬(lohi.1 ≤ form c ∧ form c ≤ lohi.2)) → if sat then F.flags = 32 ∧ F.fault = none
             else ∃ i c, F.fault = some (1, i) ∧ codes[i]? = some c ∧ ¬(lohi.1 ≤ form c ∧ form c ≤ lohi.2)))))) ∧
    (let l := laneCountL fmt d
     let bs := dBlock d
     let wd := fmtWidth fmt
     let at_ (n : Nat) : Beat := (beats[n]?).getD (dataBeat 0)
     let fs := sliceForms fmt d types policy rows beats
     let code (r k : Nat) : Nat := (at_ (r * (64 / l) + k / l)).data.toNat / 2 ^ (k % l * wd) % 2 ^ wd
     let byte (r t : Nat) : Nat := if dSfmt d = 0 then 0
       else (at_ (r * (64 / l) + t * bs / l)).data.toNat / 2 ^ (l * wd + 8 * (t * bs % l / bs)) % 2 ^ 8
     fs.length = rows * (64 / bs) ∧ (∀ r t, r < rows → t < 64 / bs → fs[r * (64 / bs) + t]? =
       some (blockForms fmt d types policy (byte r t) ((upFrom (t * bs) bs).map (code r)))) ∧
     (rows = 64 → types = 15 → policy = none → let b := bankOf fmt d beats
       b.tag.toNat % 2 ^ 8 = fmt % 2 ^ 8 ∧ b.tag.toNat / 2 ^ 8 = d.toNat ∧ b.q = fs.flatMap (fun x => x.q) ∧
       b.x = fs.map (fun x => if x.nan then 0x80 else x.x) ∧
       ∀ r t, r < 64 → t < 64 / bs → b.scale[r * (64 / bs) + t]? = some (byte r t))) ∧
    (∀ (qs : List Int) (p i : Nat) (q : Int), i < 512 → qs[i]? = some q → bit (planeOf p qs) i = decide (q / 2 ^ p % 2 = 1))

/-- R296, R297, R299, R110, R116: the matrix engine. `mmload` gathers the beats of a tile of B and puts it into a free bank of
the `mmp` of its tile; the last tile of a tensor is complete with the stop behind it, or with a beat beyond the tensor's order (log
64). `mmp` takes the head beats and then the planes of a slice, computes it with the active bank, and after
KC chunks leaves the 32 beats of its row group; the first slice of a tensor waits for the next beat of in0. A bank or an
accumulator whose tag is not the one expected traps FORMAT_TAG (R116). -/
def Sys2Proof.Claims.MatrixFirings : Prop :=
  ∀ (s s' : State) (r : Region) (v : OpView) (c : OpCfg) (p : MmpParam) (b : Beat) (i : Nat) (m : MmpMem) (bank : Bank)
    (acc : List Int) (flags : Nat) (out : List (Beat × Nat)), Ready s r v → Passes s r v s' →
    let h := v.mmpShape p
    let fmt := v.inFmt 0
    let d := v.inDesc 0
    let tile := 64 * (64 / laneCountL fmt d)
    let next := { m with heads := [], planes := [], chunk := m.chunk + 1, acc := acc, acctag := h.accTag }
    let filled (beats : List Beat) : Option (Nat × OpMem) := some (i, .mmp (
      if m.active.isNone then { m with active := some (bankOf fmt d beats) } else { m with inactive := some (bankOf fmt d beats) }))
    (At v [0] [b] → v.mate = some (i, m) → ∀ (got : List Beat) (e : Edge), v.op.mem = .mmload got → v.inEdge 0 = some e →
      (b.kind = .data → (got ≠ [] ∨ m.active = none ∨ (v.bankBytes = 1 ∧ m.inactive = none)) →
        (got.length < tile → (got.length + 1 < tile ∨ e.q.beatCount ≤ v.posAt 0 + 1) →
          Fires (.mmload c) s s' r v { take := [0], emit := [], mem := some (.mmload (got ++ [b])) }) ∧
        (got.length + 1 = tile → v.posAt 0 + 1 < e.q.beatCount → Fires (.mmload c) s s' r v
          { take := [0], emit := [], mem := some (.mmload []), other := filled (got ++ [b]) }) ∧
        (tile ≤ got.length → Fires (.mmload c) s s' r v
          { take := [], emit := [], mem := some (.mmload []), other := filled got })) ∧
      (b.kind = .stop →
        (got = [] → Fires (.mmload c) s s' r v { take := [0], emit := [] }) ∧
        (got ≠ [] → tile ≤ got.length → Fires (.mmload c) s s' r v
          { take := [0], emit := [], mem := some (.mmload []), other := filled got }) ∧
        (got ≠ [] → got.length < tile → exec (.mmload c) s = .next (s.setRegion (r.trapped v { cause := 0x0B, port := 0 }))))) ∧
    (v.op.mem = .mmp m → v.has 1 = true → (∀ x ∈ v.ins, v.fedBack x.1 = false ∧ v.op.marked.contains x.1 = false ∧
        ∀ y, v.head x.1 = some y → y.held = false ∧ y.kind = .data) →
      (m.chunk < h.kc → m.heads.length < h.heads → m.planes = [] → v.head 1 = some b →
          (m.heads = [] → v.has 0 = true → v.atBoundary 0 = true → v.head 0 ≠ none) → Fires (.mmp c p) s s' r v
        { take := [1], emit := [], mem := some (.mmp { m with heads := m.heads ++ [b] }) }) ∧
      (m.chunk < h.kc → 0 < h.heads → m.heads.length = h.heads → m.planes.length < h.planesDue p.cmpr (m.heads.headD (dataBeat 0)) →
        v.head 0 = some b → v.has 0 = true → Fires (.mmp c p) s s' r v
          { take := [0], emit := [], mem := some (.mmp { m with planes := m.planes ++ [b] }) }) ∧
      (m.chunk < h.kc → 0 < h.heads → m.heads.length = h.heads → h.planesDue p.cmpr (m.heads.headD (dataBeat 0)) ≤ m.planes.length →
        m.swapDue = false → m.active = some bank → m.poison = none → (∀ x ∈ m.heads ++ m.planes, x.kind = .data) →
        h.slice c.sat p.cmpr m.heads m.planes bank m.acctag m.acc = .ok acc flags → Fires (.mmp c p) s s' r v
          { take := [], emit := [], flags := flags, mem := some (.mmp (
              if h.kc = 1 then next else if h.bytes = 2 then { next with active := none } else { next with swapDue := true })) }) ∧
      (m.chunk < h.kc → 0 < h.heads → m.heads.length = h.heads →
        h.planesDue p.cmpr (m.heads.headD (dataBeat 0)) ≤ m.planes.length → m.swapDue = false → m.active = some bank →
        m.poison = none → (∀ x ∈ m.heads ++ m.planes, x.kind = .data) → h.tagsFit bank m.acctag = false →
        exec (.mmp c p) s = .next (s.setRegion (r.trapped v { cause := 0x03 }))) ∧
      (h.kc ≤ m.chunk → p.uadd = true → m.us.length < 32 → v.has 2 = true → v.head 2 = some b → Fires (.mmp c p) s s' r v
        { take := [2], emit := [], mem := some (.mmp { m with us := m.us ++ [b] }) }) ∧
      (h.kc ≤ m.chunk → (p.uadd = true → 32 ≤ m.us.length) → m.poison = none → (∀ x ∈ m.us, x.kind = .data) →
        h.results c.sat p.tsb.toNat m.acc m.us = out.map Except.ok → Fires (.mmp c p) s s' r v
          { take := [], emit := out.flatMap (fun x => v.toAll x.1), flags := out.foldl (fun f x => f ||| x.2) 0,
            mem := some (.mmp { m with us := [], chunk := 0, acc := [], acctag := 0, poison := none }) }))

/-- R110, R111, R297: the accumulators of a slice and what leaves of them, by value, under the saturating policy. In INT32 mode an
accumulator takes the exact sum of 64 products, brought into INT32. In FP32 mode each block's exact sum, times both scales and
factors, is rounded once, and the blocks are added in order with one rounding each; a NaN block gives NaN. The tensor scale and
then the addend follow, each rounded. -/
def Sys2Proof.Claims.MatrixValues : Prop :=
  ∀ (k : MmpShape) (aq : List (List Int)) (af bfac : List (Option Ex)) (bank : Bank) (old : List Int) (tsb n y : Nat) (z : Int),
    let code (v : FVal) : Nat := (roundF .fp32 0 0 .saturate v).1
    let single (c : Nat) : FVal := decodeF .fp32 c
    let row (x : Nat) : List Int := aq.getD (x / 64) []
    let col (x : Nat) : List Int := (bank.q.drop (64 * (x % 64))).take 64
    let dot (a b : List Int) : Int := ((a.zip b).map (fun e => e.1 * e.2)).foldl (fun i j => i + j) 0
    let inside (i : Int) : Prop := -2147483648 ≤ i ∧ i ≤ 2147483647
    (k.intMode = true →
      let sum (x : Nat) : Int := (old[x]?).getD 0 + dot (row x) (col x)
      (∃ fl, k.accumulate true aq af bank bfac old =
        .ok ((upFrom 0 512).map (fun x => max (-2147483648) (min 2147483647 (sum x))), fl) ∧
        (fl = 0 ↔ ∀ x, x < 512 → inside (sum x))) ∧
      k.finish true tsb n z none = .ok (z, 0) ∧
      (inside (z + toSigned y 32) → k.finish true tsb n z (some y) = .ok (z + toSigned y 32, 0))) ∧
    (k.intMode = false →
      let bsA := dBlock k.desc
      let bsB := dBlock k.bedge
      let size := min bsA bsB
      let block (x t : Nat) : FVal :=
        match (af[x / 64 * (64 / bsA) + t * size / bsA]?).getD none, (bfac[x % 64 * (64 / bsB) + t * size / bsB]?).getD none with
        | some a, some b =>
          let e := ((Ex.ofInt (dot (((row x).drop (t * size)).take size) (((col x).drop (t * size)).take size))).mul a).mul b
          single (code (.fin (if e.num = 0 then Ex.zero false else e)))
        | _, _ => .nan
      let add (acc : Option Nat) (v : FVal) : Option Nat := some (match acc with
        | none => code v
        | some a => code (addV (single a) v false).1)
      (∃ fl, k.accumulate true aq af bank bfac old = .ok ((upFrom 0 512).map (fun x =>
        ((((upFrom 0 (64 / size)).foldl (fun acc t => add acc (block x t)) ((old[x]?).map Int.toNat)).getD 0 : Nat) : Int)), fl)) ∧
      (bf k.bdesc.toNat 15 2 = 0 → k.finish true tsb n z none = .ok (z, 0) ∧
        ∃ fl, k.finish true tsb n z (some y) = .ok ((code (addV (single z.toNat) (single y) false).1 : Nat), fl)) ∧
      (bf k.bdesc.toNat 15 2 ≠ 0 →
        let c := code (mulV (single z.toNat) (single (code (single tsb)))).1
        (∃ fl, k.finish true tsb n z none = .ok ((c : Nat), fl)) ∧
        ∃ fl, k.finish true tsb n z (some y) = .ok ((code (addV (single c) (single y) false).1 : Nat), fl)))

/-- R310-R315: memory-tile and address-tile operators. `buf` keeps beats in order; `scratch` reads and writes the beat at
an index, and traps on one outside its size; `window` leaves the beat of d positions before on each tap; `pin` stores a
tensor and replays it; `agen` walks its loops, loop 0 fastest, with a
stop behind each run of a ragged factor of its order; `gather` and `scatter` make the offsets of the rows that the
lanes name, and trap on an index that reaches LIMIT. -/
def Obligations.MemoryTileOperators : Prop :=
  ∀ (s s' : State) (r : Region) (v : OpView) (c : OpCfg) (size : BitVec 13) (n2 : BitVec 2) (d : BitVec 11) (ap : AgenParam)
    (rp : RowParam) (b x : Beat) (q more stored : List Beat) (area : List (Nat × Beat)) (wt rt t i j0 j1 j2 j3 : Nat),
    Ready s r v → Passes s r v s' →
    let idx := b.lane 32 0
    let off (k : Nat) (st : BitVec 16) : Int := (k : Int) * st.toInt
    let lanes := v.inLanes 0
    let row (m : Nat) : List Beat := (upFrom 0 rp.row.toNat).map (fun e =>
      dataBeat (64 * (rp.base.toNat + b.lane 32 m * rp.row.toNat + e) % 2 ^ 64))
    (v.op.mem = .fifo q → v.head 0 = some b → b.held = false → (b.kind = .config ∨ b.kind = .group → v.atBoundary 0 = true) →
      v.op.marked.contains 0 = false →
      q.length < size.toNat + 1 → Fires (.buf c size) s s' r v
        { take := [0], emit := [], mem := some (.fifo (q ++ [b])), mark := if b.kind = .marker then some 0 else none }) ∧
    (v.op.mem = .fifo (x :: q) → (v.head 0 = none ∨ (v.head 0 = some b ∧ b.held = false ∧ b.kind ≠ .config ∧ b.kind ≠ .group ∧
        size.toNat ≤ q.length)) →
      Fires (.buf c size) s s' r v
        { take := [], emit := v.toAll x, mem := some (.fifo q), freeze := x.kind == .marker }) ∧
    (v.op.mem = .scratch area wt rt → v.has 0 = false → v.has 2 = true → At v [2] [b] → b.kind = .data →
      (idx < size.toNat + 1 → Fires (.scratch c size) s s' r v { take := [2], emit := v.toAll (
        if (areaAt area idx).kind = .data then v.outBeat 0 (areaAt area idx).data.toNat else areaAt area idx) }) ∧
      (size.toNat < idx → v.deferred = true → Fires (.scratch c size) s s' r v
        { take := [2], emit := v.toAll (v.poison 0x0D 0 (v.posAt 2)) })) ∧
    (v.op.mem = .scratch area wt rt → v.has 2 = false → v.has 0 = true → At v [0, 1] [b, x] → b.kind = .data →
      x.kind = .data → idx < size.toNat + 1 → Fires (.scratch c size) s s' r v
        { take := [0, 1], emit := [], mem := some (.scratch (areaSet area idx x) wt rt) }) ∧
    (areaAt [] i = dataBeat 0 ∧ areaAt (areaSet area i x) i = x ∧ ∀ k, k ≠ i → areaAt (areaSet area i x) k = areaAt area k) ∧
    (v.op.mem = .window q → At v [0] [b] → b.kind = .data → Fires (.window c n2 d) s s' r v
      { take := [0], emit := v.outPorts.map (fun k => (k, ((b :: q)[k * d.toNat]?).getD (v.outBeat k 0))),
        mem := some (.window ((b :: q).take (n2.toNat * d.toNat))) }) ∧
    (v.op.mem = .pin stored q none 0 → At v [0] [b] → b.kind = .data → positionsOf q < size.toNat + 1 →
      Fires (.pin c size) s s' r v { take := [0], emit := [], mem := some (.pin stored (q ++ [b]) none 0) }) ∧
    (v.op.mem = .pin stored q none 0 → At v [0] [b] → b.kind = .stop → v.inLevel 0 ≤ b.level →
      Fires (.pin c size) s s' r v
        { take := [0], emit := [], mem := some (.pin (q ++ [stopBeat b.level]) [] none 0) }) ∧
    (v.op.mem = .pin (x :: stored) [] none 0 → v.head 0 = none → At v [1] [b] → b.kind = .stop → v.inLevel 1 ≤ b.level →
      Fires (.pin c size) s s' r v
        { take := [1], emit := [], mem := some (.pin (x :: stored) [] (some (withClose (x :: stored)
            (pinClose v (((x :: stored).getLast?.map Beat.level).getD 1) b.level))) 0) }) ∧
    (v.op.mem = .pin stored more (some (x :: q)) 0 → Fires (.pin c size) s s' r v
      { take := [], emit := v.toAll x, mem := some (.pin stored more (if q = [] then none else some q) 0) }) ∧
    (v.op.mem = .agen j0 j1 j2 j3 t false → j3 ≤ ap.n3.toNat →
      ∃ k0 k1 k2 k3, Fires (.agen c ap) s s' r v
        { take := [], mem := some (.agen k0 k1 k2 k3 t false), emit := v.withRun (dataBeat
            ((64 * (off j0 ap.s0 + off j1 ap.s1 + off j2 ap.s2 + off j3 ap.s3)) % 2 ^ 64).toNat)
            (agenCount ap j0 j1 j2 j3) } ∧
        (k0, k1, k2, k3) = (if j0 < ap.n0.toNat then (j0 + 1, j1, j2, j3) else if j1 < ap.n1.toNat then (0, j1 + 1, j2, j3)
          else if j2 < ap.n2.toNat then (0, 0, j2 + 1, j3) else (0, 0, 0, j3 + 1))) ∧
    (v.op.mem = .agen j0 j1 j2 j3 t false → ap.n3.toNat < j3 → Fires (.agen c ap) s s' r v
      { take := [], emit := v.toAll (stopBeat (if t = ap.nt.toNat then 7 else v.outLevel 0)),
        mem := some (.agen 0 0 0 0 (t + 1) (t == ap.nt.toNat)) }) ∧
    (At v [0] [b] → b.kind = .data →
      ((∀ m, m < lanes → b.lane 32 m < rp.limit.toNat) →
        Fires (.gather c rp) s s' r v { take := [0], emit := ((upFrom 0 lanes).flatMap row).flatMap v.toAll } ∧
        Fires (.scatter c rp) s s' r v { take := [0], emit := ((upFrom 0 lanes).flatMap row).flatMap v.toAll }) ∧
      (i < lanes → i < 512 → rp.limit.toNat ≤ b.lane 32 i → (∀ m, m < i → b.lane 32 m < rp.limit.toNat) →
        v.deferred = false → r.trap = none →
        (∃ r' z, exec (.gather c rp) s = .next (s.setRegion r') ∧ r'.trap = some z ∧ z.cause = 0x0D ∧ z.lane = i) ∧
        ∃ r' z, exec (.scatter c rp) s = .next (s.setRegion r') ∧ r'.trap = some z ∧ z.cause = 0x0D ∧ z.lane = i))

/-- R324-R332, R63, R79-R81, R83, R84: special-tile operators. `dup` copies a config beat that names another operator too (log
37). On a COND edge a cond beat is a condition and no hole. `delay` on a cycle gives its beats ahead of those that replace them (log
30). `count` is not timed: index n leaves for every II as soon as there is space (log 62). `merge` takes positions or whole
tensors in turn; an input that has ended is passed over. -/
def Sys2Proof.Claims.SpecialTileOperators : Prop :=
  ∀ (s s' : State) (r : Region) (v : OpView) (c : OpCfg) (es : Edges4) (m : BitVec 3) (tp : TurnParam) (dp : DelayParam)
    (sp : StopgenParam) (cp : CountParam) (e : BitVec 8) (k4 : BitVec 4) (desc : Bool) (a b d x : Beat) (q : List Beat)
    (pos runs turn i : Nat) (gone : List Nat) (keys : List (Nat × Nat × Nat)) (ed : Edge),
    Ready s r v → Passes s r v s' →
    let fmt := v.inFmt 0
    let n := v.inLanes 0
    let ways := tp.m.toNat + 1
    let total := cp.n.toNat + 1
    let first := List.replicate (dp.n.toNat + 1) (delayInit dp v)
    let keyOf (k : Nat) : Int := (sortKey fmt (a.lane 32 k)).2.1
    let before (y z : Nat) : Prop := (if desc then keyOf z < keyOf y else keyOf y < keyOf z) ∨ (keyOf y = keyOf z ∧ y < z)
    -- `dup`: every output gets the beat
    (v.head 0 = some a → a.held = false → (a.kind = .config → v.reg.body.targetOf a ≠ some v.ix) →
        (a.kind = .config ∨ a.kind = .group → v.atBoundary 0 = true) → Fires (.dup c es m) s s' r v
      { take := [0], emit := v.toAll a, mark := if a.kind = .marker then some 0 else none, freeze := a.kind == .marker }) ∧
    -- `gate` and `select`
    (At v [0, 1] [a, b] → a.kind = .data → b.kind = .cond → Fires (.gate c) s s' r v
      { take := [0, 1], emit := v.toAll (if bit b.data.toNat 0 then a else holeBeat) }) ∧
    (At v [0, 1] [a, b] → a.kind = .cond → b.kind = .cond → Fires (.gate c) s s' r v
      { take := [0, 1], emit := v.toAll (if fmt = 0x12 ∧ bit b.data.toNat 0 = true then a else holeBeat) }) ∧
    (At v [0, 1, 2] [a, b, d] → a.kind = .cond → b.kind = .data → d.kind = .data → Fires (.select c) s s' r v
      { take := [0, 1, 2], emit := v.toAll (if bit a.data.toNat 0 then d else b) }) ∧
    -- `filter`: a position whose condition is false leaves nothing
    (v.op.mem = .stopgen pos runs → (filterRun v = 0 ∨ pos < filterRun v) → At v [0, 1] [a, b] → a.kind = .data →
      b.kind = .cond → Fires (.filter c) s s' r v
        { take := [0, 1], emit := if bit b.data.toNat 0 then v.toAll a else [], mem := some (.stopgen (pos + 1) 0) }) ∧
    -- `delay`: the beat of N + 1 positions before leaves, at first an initial one
    (At v [0] [a] → a.kind = .data →
      (v.op.mem = .delay (x :: q) false 0 → Fires (.delay c dp) s s' r v
        { take := [0], emit := v.toAll x, mem := some (.delay (q ++ [a]) false 0) }) ∧
      (v.op.mem = .delay [] true 0 → Fires (.delay c dp) s s' r v
        { take := [0], emit := v.toAll (delayInit dp v), mem := some (.delay (first.drop 1 ++ [a]) false 0) }) ∧
      (v.op.mem = .delay q false (i + 1) → Fires (.delay c dp) s s' r v
        { take := [0], emit := [], mem := some (.delay (q ++ [a]) false i) })) ∧
    -- `stopgen` counts positions, and puts a stop behind RUN1 of them
    (v.op.mem = .stopgen pos runs →
      (pos ≤ sp.run1.toNat → At v [0] [a] → a.kind = .data → Fires (.stopgen c sp) s s' r v
        { take := [0], emit := v.toAll a, mem := some (.stopgen (pos + 1) runs) }) ∧
      (sp.run1.toNat < pos → v.head 0 = some a → a.kind = .data → a.held = false → Fires (.stopgen c sp) s s' r v
        { take := [], mem := some (runEnded sp.lev2.toNat runs (insertLevel sp runs)), emit := v.toAll (stopBeat (
            if sp.lev2 ≠ 0 ∧ runs = sp.run2.toNat then sp.lev2.toNat else sp.lev1.toNat)) })) ∧
    -- `count` without inputs: N + 1 tokens and a final stop
    (v.ins = [] → v.op.mem = .count i (i != 0) 0 0 0 false →
      (i < total → Fires (.count c cp) s s' r v
        { take := [], mem := some (.count (i + 1) true 0 0 0 false), emit := v.toAll (dataBeat (packLanes 32
            [i, (if i = 0 then 1 else 0) + (if i + 1 = total then 2 else 0)])) }) ∧
      (i = total → Fires (.count c cp) s s' r v
        { take := [], emit := v.toAll (stopBeat 7), mem := some (.count 0 false 1 0 0 true) })) ∧
    -- `merge` and `split` take turns
    (v.op.mem = .turn turn [] false → turn < ways →
      (tp.byTensor = false → v.ins.length = ways → (∀ y z, y < ways → v.head y = some z →
          z.held = false ∧ z.kind = .data ∧ v.fedBack y = false ∧ v.op.marked.contains y = false) →
        v.op.marked.contains turn = false → (∀ y, y < ways → v.fedBack y = false) →
        ((∀ y, y < ways → v.atBoundary y = true) → ∀ y, y < ways → v.head y ≠ none) →
        v.head turn = some a → Fires (.merge c tp) s s' r v
          { take := [turn], emit := v.toAll a, mem := some (.turn ((turn + 1) % ways) [] false) }) ∧
      (At v [0] [a] → a.kind = .data → Fires (.split c tp) s s' r v
        { take := [0], emit := [(turn, a)],
          mem := some (.turn (if tp.byTensor then turn else (turn + 1) % ways) [] false) })) ∧
    (v.op.mem = .turn turn gone false → turn < ways → tp.byTensor = true → At v [turn] [a] →
      (∀ y z, y < ways → v.head y = some z → z.held = false ∧ z.kind ≠ .marker) →
      (a.kind = .data → Fires (.merge c tp) s s' r v { take := [turn], emit := v.toAll a }) ∧
      (a.kind = .stop → a.level < v.inLevel turn → Fires (.merge c tp) s s' r v
        { take := [turn], emit := v.toAll (stopBeat a.level) }) ∧
      (a.kind = .stop → v.inLevel turn ≤ a.level → a.level < 7 → (turn + 1) % ways ∉ gone → Fires (.merge c tp) s s' r v
        { take := [turn], emit := v.toAll (stopBeat a.level), mem := some (.turn ((turn + 1) % ways) gone false) }) ∧
      (a.kind = .stop → v.inLevel turn ≤ 7 → a.level = 7 → gone = [] → 1 < ways → Fires (.merge c tp) s s' r v
        { take := [turn], emit := v.toAll (stopBeat (v.outLevel 0)), mem := some (.turn ((turn + 1) % ways) [turn] false) }) ∧
      (a.kind = .stop → v.inLevel turn ≤ 7 → a.level = 7 → turn ∉ gone → gone.length + 1 = ways →
        ∃ m, Fires (.merge c tp) s s' r v { take := [turn], emit := v.toAll (stopBeat 7), mem := some m })) ∧
    -- `race`: the K best scores of a token, ties to the lower index
    (v.op.mem = .race keys i none → v.inEdge 0 = some ed → At v [0] [a] → a.kind = .data →
      let scores := (upFrom 0 ed.q.laneCount).map (fun y => (ed.q.coord y i 1, a.lane (fmtWidth fmt) y))
      let best := (scores.foldl (fun l y => raceInsert ((raceKey fmt y.2).1, y.1, y.2) l) keys).take (k4.toNat + 1)
      let fl := scores.foldl (fun f y => f ||| (raceKey fmt y.2).2) 0
      ((i + 1) * ed.q.laneCount < e.toNat + 1 → Fires (.race c e k4) s s' r v
        { take := [0], emit := [], mem := some (.race best (i + 1) none), flags := fl }) ∧
      (e.toNat + 1 ≤ (i + 1) * ed.q.laneCount → k4.toNat + 1 ≤ best.length → v.hasOut 1 = false → Fires (.race c e k4) s s' r v
        { take := [0], emit := [(0, dataBeat (packLanes 32 (best.map (fun y => y.2.1))))], mem := some (.race [] 0 none),
          flags := fl })) ∧
    -- `sortnet`: the lanes in the order of their keys, equal keys in lane order, and the payload with them
    (v.has 1 = true → v.hasOut 1 = true → At v [0, 1] [a, b] → a.kind = .data → b.kind = .data →
      ∃ o : List Nat, o.Perm (upFrom 0 n) ∧ o.Pairwise before ∧ ∃ fl, Fires (.sortnet c desc) s s' r v
        { take := [0, 1], flags := fl, emit :=
            [(0, dataBeat (packLanes 32 (o.map (fun y => (sortKey fmt (a.lane 32 y)).1)))),
             (1, dataBeat (packLanes 32 (o.map (fun y => b.lane 32 y))))] }) ∧
    (v.has 1 = true → v.hasOut 1 = true → At v [0, 1] [a, b] → a.kind = .data → b.kind = .cond →
      ∃ o : List Nat, o.Perm (upFrom 0 n) ∧ o.Pairwise before ∧ ∃ fl, Fires (.sortnet c desc) s s' r v
        { take := [0, 1], flags := fl, emit :=
            [(0, dataBeat (packLanes 32 (o.map (fun y => (sortKey fmt (a.lane 32 y)).1)))), (1, b)] })

/-- R75-R77, R323: a `siding` takes the beats of a tensor of the producer in as its schedule allows, and sends the beats of
the consumer's order, each once every element of it has arrived; after the last it sends the closing stop. -/
def Sys2Proof.Claims.SidingSchedule : Prop :=
  ∀ (s s' : State) (r : Region) (v : OpView) (c : OpCfg) (p : SidingParam) (e : Edge) (a : Beat) (t : SideTensor)
    (ts : List SideTensor) (k : Nat), Ready s r v → Passes s r v s' → v.inEdge 0 = some e → unragged e.p = e.p →
    let plan := sidePlan p.d.toNat e
    let count := e.q.beatCount
    let arrived (k : Nat) : Prop := ∀ l, l < e.q.laneCount →
      (e.p.place (pick4 (e.q.coordsOf l k))).2 < t.beats.length
    (∀ y, v.head 0 = some y → y.held = false) → t.before = [] →
    (v.op.mem = .siding (t :: ts) k → t.closed = false → t.sent < count → unragged e.q = e.q → arrived t.sent →
      Fires (.siding c p) s s' r v
        { take := [], emit := v.toAll (plan.form t.beats t.sent), mem := some (.siding ({ t with sent := t.sent + 1 } :: ts) k) }) ∧
    (v.op.mem = .siding (t :: ts) k → t.closed = true → t.closing = [stopBeat 7] → t.beats.length = e.p.beatCount →
      count ≤ t.sent → unragged e.q = e.q → Fires (.siding c p) s s' r v
        { take := [], emit := v.toAll (stopBeat 7), mem := some (.siding ts k) }) ∧
    (v.op.mem = .siding [] 0 → v.head 0 = some a → a.kind = .data → v.op.marked.contains 0 = false →
      (e.p.beats.find? (fun f => f.ragged)) = none → 1 < e.p.beatCount → Fires (.siding c p) s s' r v
        { take := [0], emit := [], mem := some (.siding [{ before := [], slice := 0, beats := [a], sent := 0, closing := [],
                                                           closed := false }] 0) })

/-- R293, R294, R300-R302, R96, R97: block operators on a data beat. `vdequant` multiplies each element by its
block's scale; a NaN block gives NaNs and raises NV once. `vquant` makes the scale of each block and rounds the
elements with it. `planes` gathers the beats of a slice and then leaves its head beats on out1 and its plane beats
on out0; a stop leaves at the level of R300, but a final one stays final, as R67 asks (log 34). R91, R93, R96, R97,
R99, R294, R301: the block arithmetic by value. `vquant`: the table of V and e, the scale of a block from the
largest magnitude in it, and each element. Integer forms: a TYPED4 code, a narrowed element, an aligned block with
its shared exponent. Then where the elements and scales of a slice stand in its beats, and what a plane beat holds. -/
def Obligations.BlockOperators : Prop := Claims.BlockFirings ∧ Claims.BlockValues

/-- R296, R297, R299, R110, R116: the matrix engine. `mmload` gathers the beats of a tile of B and puts it into a
free bank of the `mmp` of its tile; the last tile of a tensor is complete with the stop behind it, or with a beat
beyond the tensor's order (log 64). `mmp` takes the head beats and then the planes of a slice, computes it with the
active bank, and after KC chunks leaves the 32 beats of its row group; the first slice of a tensor waits for the
next beat of in0. A bank or an accumulator whose tag is not the one expected traps FORMAT_TAG (R116). R110, R111,
R297: the accumulators of a slice and what leaves of them, by value, under the saturating policy. In INT32 mode an
accumulator takes the exact sum of 64 products, brought into INT32. In FP32 mode each block's exact sum, times both
scales and factors, is rounded once, and the blocks are added in order with one rounding each; a NaN block gives
NaN. The tensor scale and then the addend follow, each rounded. -/
def Obligations.MatrixOperators : Prop := Claims.MatrixFirings ∧ Claims.MatrixValues

/-- R324-R332, R63, R79-R81, R83, R84: special-tile operators. `dup` copies a config beat that names another
operator too (log 37). On a COND edge a cond beat is a condition and no hole. `delay` on a cycle gives its beats
ahead of those that replace them (log 30). `count` is not timed: index n leaves for every II as soon as there is
space (log 62). `merge` takes positions or whole tensors in turn; an input that has ended is passed over. R75-R77,
R323: a `siding` takes the beats of a tensor of the producer in as its schedule allows, and sends the beats of the
consumer's order, each once every element of it has arrived; after the last it sends the closing stop. -/
def Obligations.SpecialTilesAndSiding : Prop := Claims.SpecialTileOperators ∧ Claims.SidingSchedule

/-! ### Operators that reach memory -/

namespace Sys2Proof.Claims

open Sys2Proof.Machine

/-- The port operator in focus fires as `g` says, on the state `u` that its access has left: nothing else of `u` changes
but its region, whose access waits no more. -/
def Acts (i : Instr) (s u : State) (r : Region) (v : OpView) (g : Firing) : Prop :=
  exec i s = .next (u.setRegion { (r.unstall v).fired v g with moved := (u.die r.die).stime })

/-- Command `c` of queue `q` stands first at the port of the operator in focus, whose region has power left and whose
outputs all have space. -/
def AtPort (s : State) (r : Region) (v : OpView) (q : Nat) (c : Cmd) : Prop :=
  Ready s r v ∧ s.regionSpent r = false ∧ v.roomy = true ∧ s.portCmd r v = some (q, c)

/-- Every store has reached its home. -/
def AllHome (s : State) : Prop := ∀ (i : Nat) (x : StoreRec), s.history[i]? = some x → x.placed ≠ 0

end Sys2Proof.Claims

/-- R317-R321, R263: `mload` gives the 64 bytes at A plus each offset; `mstore` writes the used bytes of its data beat
there; `matom` adds a lane's word and gives the old one; `mvers` gathers the bytes of a version, creates it at the stop
that ends its tensor, and streams one in the other direction. An offset that is not a multiple of 64 or not below the
command's length traps with cause BOUND. -/
def Obligations.PortOperators : Prop :=
  ∀ (s u : State) (r : Region) (v : OpView) (cfg : OpCfg) (p : PortParam) (q : Nat) (c : Cmd) (o d : Beat) (ts : List Trans)
    (gran n k : Nat) (e : Edge) (tr : Trans) (data : List Host.Cell) (x : Version) (num : BitVec 32) (open_ busy : Bool),
    AtPort s r v q c →
    let a := cmdA c.word.toNat
    let off := o.data.toNat % 2 ^ 64
    let va := a + off
    let locs := ts.map (fun t => t.loc)
    let bound : Prop := off % 64 ≠ 0 ∨ cmdB c.word.toNat ≤ off
    let used := e.usedBytes
    let ref := slotRef a tr
    let here : SlotRef := { ref with off := ref.off + 64 * k }
    let passes (ts : List Trans) : Prop := s.passGate r.die 0 r.unit r.job q c ts = .inr u
    let traps (i : Instr) (cause : Nat) : Prop :=
      r.trap = none → ∃ r' z, exec i s = .next (s.setRegion r') ∧ r'.trap = some z ∧ z.cause = cause ∧ z.port = 0
    -- mload
    (v.op.mem = .port gran busy → (busy = true ∨ s.portConfig r v.xport = none ∧ r.preempt = none) → At v [0] [o] →
      o.kind = .data →
      (bound → traps (.mload cfg p) 0x0A) ∧
      (¬ bound → s.access r.die r.job r.ranges .read va 64 = .ok ts → Plain ts →
        passes (if va / 256 + 1 = gran then [] else (ts.take 1).flatMap (List.replicate 256)) →
        Acts (.mload cfg p) s u r v
          { take := [0], emit := v.toAll (v.outBeat 0 (ofBytes (u.readBytes r.job c.view locs))),
            mem := some (.port (va / 256 + 1) true) })) ∧
    (v.op.mem = .port gran true → At v [0] [o] → o.kind = .stop → v.inLevel 0 ≤ o.level → ∃ (t : State) (r' : Region),
      exec (.mload cfg p) s = .next t ∧ t.region? r.job r.v = some r' ∧ t.mem = s.mem ∧
      (∀ y, r.body.ports[v.xport]? = some y → r'.body.ports[v.xport]? = some { y with cmds := y.cmds.drop 1 })) ∧
    -- mstore
    (v.op.mem = .port gran true → At v [0, 1] [o, d] → o.kind = .data → d.kind = .data → v.inEdge 1 = some e →
      (bound → traps (.mstore cfg p) 0x0A) ∧
      (¬ bound → s.access r.die r.job r.ranges .write va used = .ok ts → Plain ts →
        s.wsRefuses ts = false → passes ts →
        ∃ w : State, Acts (.mstore cfg p) s w r v { take := [0, 1], emit := [], mem := some (.port 0 true) } ∧
          w.mem = s.mem.landed ts (toBytes used d.data.toNat) ∧ w.ctxs = s.ctxs ∧ w.regions = s.regions)) ∧
    -- matom, one lane, AOP add
    (v.op.mem = .port n true → At v [0, 1] [o, d] → o.kind = .data → d.kind = .data → ¬ bound → p.mode = false →
      p.aop = 0 → v.inLanes 1 = 1 → s.access r.die r.job r.ranges .atomic va 4 = .ok ts → Plain ts →
      s.windowOf r.job va = none → s.wsHit locs = false → locs.length = 4 → locs.Nodup → s.mem.wf = true → AllHome s →
      passes ts →
      let old := ofBytes (s.homeBytes locs)
      ∃ w : State, Acts (.matom cfg p) s w r v
          { take := [0, 1], emit := v.toAll (dataBeat (packLanes 32 [old])), mem := some (.port n true) } ∧
        w.mem = (s.mem.writeCells (locs.zip (toBytes 4 ((old + d.lane 32 0) % 2 ^ 32)))).counted (ts.filterMap (fun t => t.leaf))) ∧
    -- mvers, a publish
    (v.op.mem = .mvers 0 k data open_ → p.dir = false → s.access r.die r.job r.ranges .write a 1 = .ok (tr :: ts) →
      rgVers tr.entry = true → At v [0] [o] →
      (o.kind = .data → ref.off + 64 * k + 64 ≤ rgZ ref.entry →
        (k = 0 → pubCheck (s.slotAt r.job here) here.entry (bf (cmdB c.word.toNat) 0 32) = .ok) →
        passes ((tr :: ts).flatMap (List.replicate 64)) → Acts (.mvers cfg p) s u r v
          { take := [0], emit := [], mem := some (.mvers 0 (k + 1)
              (data ++ (upFrom (ref.off + 64 * k) 64).zip (toBytes 64 o.data.toNat)) true) }) ∧
      (o.kind = .stop → v.inLevel 0 ≤ o.level → pubCheck (s.slotAt r.job ref) ref.entry (bf (cmdB c.word.toNat) 0 32) = .ok →
        let rel := s.release v.portAgent (rgScope ref.entry) c.view []
        let made := rel.2.createVersion r.job ref (rel.2.slotHome ref) (bf (cmdB c.word.toNat) 0 32) data rel.1
        ∃ r', exec (.mvers cfg p) s = .next (((made.setCmd r.job q c).setView r.job v.portNum c.view []).setRegion r') ∧
          r'.job = r.job ∧ r'.v = r.v)) ∧
    -- mvers, a vload of an exact version
    (v.op.mem = .mvers num k [] false → p.dir = true → v.outEdge 0 = some e → k < e.p.beatCount →
      s.access r.die r.job r.ranges .read a 1 = .ok (tr :: ts) → rgVers tr.entry = true →
      ref.off + 64 * k + 64 ≤ rgZ ref.entry → bf (cmdX c.word.toNat) 0 2 = 0 →
      vlook (s.slotAt r.job here) .exact (bf (cmdB c.word.toNat) 0 32) = .version x →
      passes ((tr :: ts).flatMap (List.replicate 64)) →
      ∃ w : State, Acts (.mvers cfg p) s w r v
          { take := [], emit := v.withRun (v.outBeat 0 (ofBytes ((upFrom (ref.off + 64 * k) 64).map x.data.read))) (k + 1),
            mem := some (.mvers x.num (k + 1) x.data true) } ∧ w.mem = s.mem)

/-- R333, R128: `wsport` gives the 64 bytes of the weight store at BASE of the bank it has selected plus the offset; a group
beat selects the other bank. -/
def Sys2Proof.Claims.WeightStorePort : Prop :=
  ∀ (s s' : State) (r : Region) (v : OpView) (cfg : OpCfg) (b0 b1 : BitVec 14) (x sel : Bool) (o : Beat),
    Ready s r v → Passes s r v s' → v.op.mem = .wsport sel → At v [0] [o] →
    let off := o.data.toNat % 2 ^ 64
    let a := 65536 * (if sel then b1 else b0).toNat + off
    let locs := upFrom (windowLoc r.die (Config.wsOffset + a)) 64
    (o.kind = .data → off % 64 = 0 → a + 64 ≤ Config.wsBytes → (∀ l ∈ locs, s.wsClosed l = false) →
      (∀ l ∈ locs, l ∉ s.badBytes) →
      Fires (.wsport cfg b0 b1 x) s s' r v { take := [0], emit := v.toAll (v.outBeat 0 (ofBytes (locs.map s.mem.read))) }) ∧
    (o.kind = .data → (∃ l ∈ locs, s.wsClosed l = true) → off % 64 = 0 → a + 64 ≤ Config.wsBytes →
      exec (.wsport cfg b0 b1 x) s = .next s) ∧
    (o.kind = .group → v.atBoundary 0 = true → Fires (.wsport cfg b0 b1 x) s s' r v
      { take := [0], emit := v.toAll o, mem := some (.wsport (!sel)),
        word := some (BitVec.ofNat 256 (putField v.op.word.toNat 115 1 (b2n (!sel)))) })

/-- R129, R270, R128: the weight store. A `wsload` that starts while the store is busy fails with WEIGHT_WRITE_BUSY
(0x15); it reads its bytes and then writes them into the span of banks it names, a request a turn, waiting while a
bank is closed. `wsread` goes the other way, and meets no error in what it reads here (R431). When a bank reopens,
the accesses that waited for it proceed. R333, R128: `wsport` gives the 64 bytes of the weight store at BASE of the
bank it has selected plus the offset; a group beat selects the other bank. -/
def Obligations.WeightStoreAccesses : Prop := Claims.WeightStore ∧ Claims.WeightStorePort

/-! ### Replays, hosts, trunks, the pager and Depot -/

namespace Sys2Proof.Claims

open Sys2Proof.Machine

/-- The event changes the registers of host port `p` to `x`, and nothing else of the package. -/
def PortSets (i : Instr) (s : State) (p : Nat) (x : Port) : Prop :=
  ∃ t, exec i s = .next t ∧ t.port p = x ∧ (∀ q, q < 2 → q ≠ p → t.port q = s.port q) ∧ { t with ports := s.ports } = s

/-- The event changes die `d` to `x`, and nothing else of the package. -/
def DieSets (i : Instr) (s : State) (d : Nat) (x : Die) : Prop :=
  ∃ t, exec i s = .next t ∧ t.die d = x ∧ (∀ k, k < 4 → k ≠ d → t.die k = s.die k) ∧ { t with dies := s.dies } = s

end Sys2Proof.Claims

/-- R52-R56: replays. The first request of a timetable that has no running replay starts one, bound to the newest
parameter version, with every node's counter at PRED, and its entry node starts. A node whose work has ended delivers a
completion to its successors, a conditional node to the chosen one only and a skip to the others; a successor starts when
its last predecessor is in and one of them completed. A while node counts its iterations. The walker's reads of the timetable can
be made; one that waits or meets a page fault leaves the step to be taken later (log 95). -/
def Obligations.Replays : Prop :=
  ∀ (s : State) (job d k : Nat) (va : Word64) (r : Replay) (v : Version) (ref : SlotRef) (done : Bool) (view : View),
    let w := s.ttNode job va.toNat k
    let n := r.node k
    let c := s.condWord job w
    let begun := { n with left := ndPred w, seen := false, started := true, due := false, ready := false }
    (s.replayOf job va = none → d < 4 → (job, va) ∈ (s.die d).replays →
      (∀ e, e < d → (job, va) ∉ (s.die e).replays) → s.slotOf job (s.ttRead job va.toNat 40 7) = some ref →
      (s.slotAt job ref).live.getLast? = some v → ∃ (u : State) (r' : Replay),
        exec (.replayStart job va) s = .next (u.startNode job va (u.ttRead job va.toNat 34 2)) ∧
        u.replayOf job va = some (d, r') ∧ r'.params = v ∧ r'.capped = false ∧ u.regions = s.regions ∧
        (u.die d).replays = (s.die d).replays.erase (job, va) ∧
        r'.nodes.length = s.ttRead job va.toNat 36 2 ∧
        ∀ i x, r'.nodes[i]? = some x → x.left = ndPred (s.ttNode job va.toNat i) ∧ x.seen = false ∧ x.started = false ∧
          x.due = false ∧ x.ready = false ∧ x.iter = 0) ∧
    (s.replayOf job va = some (d, r) → (∀ a n, s.hwTouch job a n = s) →
      exec (.replayStart job va) s = .next s ∧
      (n.due = false → n.ready = true → exec (.nodeComplete job va k) s = .next
        ((s.setNode job va k { n with ready := false, started := false }).deliver job va (8 * r.nodes.length + 8)
          (nodeDeliveries w n))) ∧
      (n.due = true → exec (.nodeComplete job va k) s = .next (s.startNode job va k)) ∧
      (n.due = false → n.ready = false → exec (.nodeComplete job va k) s = .next s) ∧
      (ndKind w = 2 → s.startNode job va k = s.setNode job va k
        { begun with ready := true, choice := min c (ndNs w - 1) }) ∧
      (ndKind w = 3 → c ≠ 0 → n.iter < ndCap w → s.startNode job va k = s.setNode job va k
        { begun with ready := true, choice := 0, looping := true, iter := n.iter + 1 }) ∧
      (ndKind w = 3 → c = 0 → s.startNode job va k = s.setNode job va k
        { begun with ready := true, choice := 1, looping := false }) ∧
      (ndKind w = 4 → s.startNode job va k = s.endReplay job va false) ∧
      (n.looping = false → 1 < n.left → s.deliver job va 1 [(k, done, view)] = s.setNode job va k
        { n with left := n.left - 1, seen := n.seen || done, view := unionNat n.view view }) ∧
      (n.looping = false → n.left = 1 → (n.seen || done) = true → s.deliver job va 1 [(k, done, view)] =
        (s.setNode job va k { n with left := 0, seen := true, view := unionNat n.view view, iter := 0 }).startNode
          job va k)) ∧
    (ndKind w = 2 → ∀ e, e < ndNs w → (nodeDeliveries w n)[e]? = some (ndSucc w e, e == n.choice, n.view)) ∧
    (ndKind w = 0 ∨ ndKind w = 1 → ∀ e, e < ndNs w → (nodeDeliveries w n)[e]? = some (ndSucc w e, true, n.view)) ∧
    (ndKind w = 3 → nodeDeliveries w n = [(ndSucc w n.choice, true, n.view)])

/-- R142, R386: a merged atomic or contribution of a reduction window is applied at its home as one, whether or not the
window's entry is still valid. The value that a merged compare and swap expects is a free one (log 10). A contribution whose
address leads to no reduction slot, and an atomic that a busy weight store refuses (log 89), change no memory and are reported; one
that waits on its way is not applied yet (log 95). -/
def Sys2Proof.Claims.SwitchResults : Prop :=
  ∀ (s : State) (job : Nat) (a v : Word64) (w : Bool) (op : BitVec 4) (seq : BitVec 32) (j : Job) (r : SlotRef)
    (tr : Trans) (ts : List Trans) (x : Nat), s.resident? job = some j →
    let locs := ts.map (fun t => t.loc)
    let m := s.mem.counted (ts.filterMap (fun t => t.leaf))
    let n := if w then 4 else 8
    let old := ofBytes (locs.map m.read)
    (s.slotOf job a.toNat = some r → exec (.externalSwitchResult job a true w op seq v) s = .next
      (s.sendContribution { job := job, va := a, target := r, f32 := w, index := seq.toNat, value := v, source := .switch })) ∧
    (s.slotOf job a.toNat = none → exec (.externalSwitchResult job a true w op seq v) s = .next
      (s.postEvent job 0 (reduceIndexEvent a.toNat seq.toNat))) ∧
    (s.translate j.ranges job .atomic a.toNat = .ok tr →
      (s.access tr.home job j.ranges .atomic a.toNat n = .error (.moving, x) →
        exec (.externalSwitchResult job a false w op seq v) s = .next (s.miss { job := job, va := x, fault := none })) ∧
      (s.access tr.home job j.ranges .atomic a.toNat n = .ok ts → (∀ t ∈ ts, rgVers t.entry = false) → a.toNat % n = 0 →
        (s.wsHit locs = false → locs.Nodup → locs.length = n → s.mem.wf = true →
          (op = 0 → ∃ t, exec (.externalSwitchResult job a false w op seq v) s = .next t ∧
            t.mem = m.writeCells (locs.zip (toBytes n ((old + v.toNat) % 2 ^ (8 * n))))) ∧
          (op = 9 → ∃ t, exec (.externalSwitchResult job a false w op seq v) s = .next t ∧
            t.mem = if old = (Config.windowOld s.freeCtr).toNat % 2 ^ (8 * n)
              then m.writeCells (locs.zip (toBytes n (v.toNat % 2 ^ (8 * n)))) else m)) ∧
        (s.wsHit locs = true → exec (.externalSwitchResult job a false w op seq v) s = .next
          (s.postEvent job (locDie (locs.headD 0)) { code := 0x15, srck := 4, addr := a.toNat }))))

/-- R375-R380, R386: the registers of a host port that is in force. JOBRES is read and cleared; INTSTAT clears by 1s; a free
semaphore is taken by a nonzero token and given back by its owner with 0, and no other write changes it; WINDATA takes effect
from the owner of SEM[0]; a port reset gives up what the port holds, its place at the gate of host DMA too, and sets bit 1 of the
other port's INTSTAT in every case (log 51). -/
def Sys2Proof.Claims.HostRegisters : Prop :=
  ∀ (s : State) (p n : Nat) (v : Word64) (job : BitVec 6), p < 2 → s.portInForce p = true →
    let x := s.port p
    let token := v.toNat % 2 ^ 32
    PortSets (.jobres p) s p { x with rdata := x.jobres, jobres := 0 } ∧
    PortSets (.intstat p v) s p { x with intstat := x.intstat &&& ~~~v } ∧
    PortSets (.registerWrite p 0x08 v) s p { x with apbase := BitVec.ofNat 64 (bf v.toNat 32 16 * 2 ^ 32) } ∧
    PortSets (.registerWrite p 0x2000 v) s p { x with winsel := BitVec.ofNat 64 (v.toNat % 64) } ∧
    exec (.registerWrite p 0x10 v) s = exec (.jobSubmit p v) s ∧
    exec (.registerWrite p 0x18 v) s = .next s ∧
    exec (.registerWrite p 0x20 (BitVec.ofNat 64 (job.toNat + 1 * 2 ^ 8))) s = exec (.jobCancel p job.toNat) s ∧
    exec (.registerWrite p 0x20 (BitVec.ofNat 64 (job.toNat + 2 * 2 ^ 8))) s = exec (.jobRelease p job.toNat) s ∧
    exec (.registerWrite p 0x20 (BitVec.ofNat 64 (job.toNat + 3 * 2 ^ 8))) s = exec (.jobRetire p job.toNat) s ∧
    exec (.registerWrite p 0x28 v) s = exec (.intstat p v) s ∧
    exec (.registerWrite p 0x2008 v) s = exec (.windata p v) s ∧
    (n < 64 → exec (.registerWrite p (0x1000 + 8 * n) v) s = exec (.semWrite p n v) s ∧
      (s.semOwner n = none → token ≠ 0 → ∃ t, exec (.semWrite p n v) s = .next t ∧
        t.sem n = BitVec.ofNat 64 (2 ^ 63 + p * 2 ^ 62 + token) ∧ (∀ k, k ≠ n → t.sem k = s.sem k) ∧
        { t with sems := s.sems } = s) ∧
      (s.semOwner n = some p → token = 0 → ∃ t, exec (.semWrite p n v) s = .next t ∧ t.sem n = 0 ∧
        (∀ k, k ≠ n → t.sem k = s.sem k) ∧ { t with sems := s.sems } = s) ∧
      (∀ q, s.semOwner n = some q → q ≠ p ∨ token ≠ 0 → exec (.semWrite p n v) s = .next s) ∧
      (s.semOwner n = none → token = 0 → exec (.semWrite p n v) s = .next s)) ∧
    (s.semOwner 0 = some p → ∃ t, exec (.windata p v) s = .next t ∧ t.winWord p = v ∧ { t with windows := s.windows } = s) ∧
    (s.semOwner 0 ≠ some p → exec (.windata p v) s = .next s) ∧
    (s.sems.Pairwise (fun a b => a.n ≠ b.n) → ∃ t, exec (.hostPortReset p) s = .next t ∧
      t.port p = { x with apbase := 0, jobres := 0, waiting := [] } ∧
      (∀ q, q < 2 → q ≠ p → t.port q = { s.port q with intstat := (s.port q).intstat ||| 2 }) ∧
      (∀ k, t.sem k = if s.semOwner k = some p then 0 else s.sem k) ∧
      (∀ d, d < 4 → { t.die d with gates := (s.die d).gates } = s.die d ∧ (d ≠ portDie p → t.die d = s.die d)) ∧
      { t with ports := s.ports, sems := s.sems, dies := s.dies } = s)

/-- R382, R383, R385, R415: jobs. A doorbell is answered with its code in JOBRES and bit 0 of INTSTAT, and an accepted job is
resident with its record and ranges; while the job engine is closed it is held. A job that starts runs its arm list and then
makes its tasks ready. A job of which nothing is left ends with state 1, or 2 after a cancellation, and its completion word
says so. JOBCTL cancels, releases and retires. A write of JOBDB or JOBCTL releases its port's writes, and so stands behind those
that still wait at the port (R390, log 41). The arms of the list run as command number 0, one behind the other (log 42), and a job
under cancellation starts no more of them; what is left of a job is as log 43 has it. -/
def Obligations.Jobs : Prop :=
  ∀ (s : State) (p job : Nat) (v : Word64) (j : Job) (w : CmdWord) (rest : List CmdWord) (ls : List Nat),
    let u := (s.portRelease p).2
    let waits (t : State) (o : PortOp) : Prop := t.port p = { s.port p with waiting := (s.port p).waiting ++ [o] } ∧
      { t with ports := s.ports } = s
    let x := u.verdict (bf v.toNat 6 42 * 64)
    let arm : Cmd := { tln := 0, word := w, cls := 0, deadline := 0, view := j.view, phase := .running, progress := 0, buf := [],
                       desc := 0, stalled := none, node := none, counted := [] }
    let armed := s.setJob { j with arms := rest }
    let begun := s.setJob { j with started := true }
    let code := if j.cancelling then 2 else 1
    let now := (s.die (s.dieFor (portDie j.evPort))).stime.toNat
    (p < 2 → s.portInForce p = true → (s.port p).waiting ≠ [] →
      (doorbellOk v = true → ∃ t, exec (.jobSubmit p v) s = .next t ∧
        waits t { register := true, write := true, off := 0x10, value := v }) ∧
      ∃ t, exec (.jobCancel p job) s = .next t ∧
        waits t { register := true, write := true, off := 0x20, value := BitVec.ofNat 64 (2 ^ 8 + job % 64) }) ∧
    (p < 2 → s.portInForce p = true → (s.port p).waiting = [] →
      (doorbellOk v = true → s.depot.open_ = true → ∃ t, exec (.jobSubmit p v) s = .next t ∧
        (t.port p).jobres = BitVec.ofNat 64 (2 ^ 15 + x.1.job % 64 * 2 ^ 8 + x.1.code) ∧
        (t.port p).intstat = (s.port p).intstat ||| 1 ∧ (x.1.code ≠ 1 → t.jobs = s.jobs) ∧
        (x.1.code = 1 → ∃ k : Job, t.job? x.1.job = some k ∧ k.record = BitVec.ofNat 1024 x.1.record ∧
          k.ranges = x.1.ranges ∧ k.started = false ∧ k.ended = none)) ∧
      (doorbellOk v = true → s.depot.open_ = false → ∃ t, exec (.jobSubmit p v) s = .next t ∧
        t.depot.held = s.depot.held ++ [(p, v, (s.portRelease p).1)] ∧ t.jobs = s.jobs ∧ t.ports = s.ports) ∧
      (doorbellOk v = false → exec (.jobSubmit p v) s = .next s) ∧
      exec (.jobCancel p job) s = .next (u.cancelJob (job % 64)) ∧
      (s.resident? (job % 64) = some j → s.job? (job % 64) = some j → s.regions = [] → s.queues = [] → s.txruns = [] →
        (∀ d, d < 4 → (s.die d).running = [] ∧ (s.die d).replays = []) → (∀ i, u.taskRec (job % 64) i = none) →
        ∃ t, exec (.jobCancel p job) s = .next t ∧
          t.job? (job % 64) = some { j with cancelling := true, held := false, arms := [] }) ∧
      (s.resident? (job % 64) = some j → ∃ t, exec (.jobRelease p job) s = .next t ∧
        t.job? (job % 64) = some { j with held := false } ∧ ∀ d, d < 4 → (t.die d).faults =
          (s.die d).faults.map (fun f => if f.job = j.num ∧ f.noframe = true then { f with noframe := false, again := true }
            else f)) ∧
      ∃ t, exec (.jobRetire p job) s = .next t ∧
        t.jobs = s.jobs.filter (fun k => !(k.num == job % 64 && k.ended.isSome)) ∧ t.ports = s.ports) ∧
    (s.resident? job = some j → j.started = false → j.cancelling = false → s.listedArm job = none →
      (j.arms = w :: rest → arm.op = 8 → armed.headCheck job arm.region arm = none → ∃ t, exec (.jobStart job) s = .next t ∧
        (t.queue job arm.region).started = (s.queue job arm.region).started ++ [arm] ∧
        t.job? job = some { j with arms := rest }) ∧
      (j.arms = [] → exec (.jobStart job) s = .next (s.startJob j)) ∧
      (j.arms = [] → (∀ i k, i < j.tasks → begun.taskRec job i = some k → recValid k = false) → j.f 10 1 = 0 →
        exec (.jobStart job) s = .next begun)) ∧
    (s.resident? job = some j →
      (s.jobDone j = true → (∀ x ∈ s.regions, x.resumeDue = false) → ∃ t, exec (.jobEnd job) s = .next t ∧
        t.job? job = some { j with ended := some code, arms := [], held := false } ∧
        t.regions = s.regions.filter (fun r => r.job != job) ∧
        (s.hwLocs job (j.f 768 56) 8 = some ls → ls.Nodup → s.mem.wf = true → s.wsHit ls = false →
          t.homeBytes ls = toBytes 8 (now / 256 * 256 + code))) ∧
      (s.jobDone j = false → (∀ i, s.recTouch job i = s) → exec (.jobEnd job) s = .next s))

/-- R377: an access of 8 bytes through the aperture, at APBASE plus its offset (log 41). A write stores them; a read returns them, all
ones where no memory answers (log 41). One that must wait, for its home, its bank or its die's budget of host DMA (R424), keeps its
address and goes behind those that wait at its port (R390), and a write to a busy weight store writes nothing, which nothing
reports (R129, log 89). -/
def Sys2Proof.Claims.ApertureAccesses : Prop :=
  ∀ (s u : State) (p off : Nat) (v : Word64) (xs : List (Nat × Nat)), p < 2 → s.portInForce p = true → off < 2 ^ 32 →
    let x := s.port p
    let pa := (s.port p).apbase.toNat + off
    let ls : List Nat := xs.map (fun x => x.1)
    let home := (xs.head?.map (fun x => x.2)).getD (portDie p)
    let bill : Bill := { reqs := if ls.headD 0 < 2 ^ 44 then 1 else 0, cells := if home = portDie p then 0 else 1, work := 0, per := 0 }
    let behind : Port := { x with waiting := x.waiting ++ [{ register := false, write := true, off := pa, value := v }] }
    let gate := s.passBill (portDie p) (hostGate p) bill Bill.zero
    (x.waiting ≠ [] → PortSets (.apertureAccess p off true v) s p behind) ∧
    (x.waiting = [] → (upFrom pa 8).mapM (fun a => (s.resolvePa a).toOption) = none →
      PortSets (.apertureAccess p off false v) s p { s.port p with rdata := BitVec.allOnes 64 } ∧
      exec (.apertureAccess p off true v) s = .next s) ∧
    (x.waiting = [] → (upFrom pa 8).mapM (fun a => (s.resolvePa a).toOption) = some xs →
      ((∃ x ∈ xs, s.reach (portDie p) x.2 = false) ∨ (∃ l ∈ ls, s.wsClosed l = true) →
        PortSets (.apertureAccess p off true v) s p behind) ∧
      ((∀ x ∈ xs, s.reach (portDie p) x.2 = true) → (∀ l ∈ ls, s.wsClosed l = false) →
        (gate = .inl u → ∃ t, exec (.apertureAccess p off true v) s = .next t ∧ t.port p = behind ∧ t.mem = s.mem ∧
          { t with ports := s.ports, dies := s.dies } = s) ∧
        (gate = .inr u → s.wsHit ls = true → exec (.apertureAccess p off true v) s = .next u) ∧
        (gate = .inr u → s.wsHit ls = false → ∃ t, exec (.apertureAccess p off true v) s = .next t ∧
          t.mem = s.mem.writeCells (ls.zip (toBytes 8 v.toNat)) ∧ t.ports = s.ports ∧ t.jobs = s.jobs) ∧
        (gate = .inr u → (∀ l ∈ ls, l ∉ s.badBytes) → ∃ t, exec (.apertureAccess p off false v) s = .next t ∧ t.mem = s.mem ∧
          (t.port p).rdata =
            BitVec.ofNat 64 (ofBytes (s.readBytes hostJob (unionNat (s.viewOf hostJob p).1 s.hwStores) ls)))))

/-- R387, R388, R415, R432, R411, R412: trunks and station time. The next cell in order is delivered; a bad one is requested again
and counted; a link with a cell missing after 16 requests goes down, and a die that Depot's die then no longer reaches is fenced. A
follower sends TREQ each 16.384 µs; its parent answers with TRSP and TFUP under the number of the TREQ; the exchange records t1 to
t4, t2 and t3 as the one time at which the parent takes the TREQ (log 57), and at its end sets STIME by the measured offset the
first time, and later leaves the offset to be slewed. An exchange that would leave the follower beyond its STIME_EPS is none of this
machine (log 9). -/
def Obligations.TrunksAndTime : Prop :=
  ∀ (s : State) (a b d p r k e : Nat) (cell : BitVec 512) (l : Link) (t : Word64),
    let x := s.die d
    let z := x.servo
    let y := s.die r
    let w := s.dropLink a b
    let up : State := { s with links := s.links.map (fun k => if k.joins a b then { k with up := true } else k) }
    let reached (s : State) : Prop := ∀ k e, s.depot.die = some k → e ∈ s.liveDies → s.reach k e = true
    let ask := s.linkDir d p
    let answer := s.linkDir p d
    let room (n : Nat) (g : LinkDir) (dest : Nat) : Prop := n ≤ g.free.count { vc := 2, dest := dest, reserved := none }
    (s.linkUp a b = true → l ∈ s.links → l.joins a b = true →
      (s.inFlight a b cell = true → (l.dir a).ahead = [] → (l.dir a).repeats = [] → cellSeq cell = (l.dir a).next → cellVc cell < 3 →
        (∀ c ∈ (l.dir a).out ++ [cell], cellVc c ≠ 1 ∨ cellDdie c ≠ b) →
        ∃ u, exec (.trunkCellReceive a b cell true) s = .next u ∧ { u with links := s.links } = s ∧
          l.setDir a { l.dir a with next := (l.dir a).next + 1, out := (l.dir a).out ++ [cell],
                                    flight := (l.dir a).flight.filter (· != cell) } ∈ u.links) ∧
      (s.inFlight a b cell = true → b < 4 → cellVc cell ≠ 2 → (l.dir a).repeats = [] → ∃ u, exec (.trunkCellReceive a b cell false) s = .next u ∧
        (u.die b).counters.trkrpt = (s.die b).counters.trkrpt + 1 ∧
        l.setDir a { l.dir a with repeats := [(cellSeq cell, 1)] } ∈ u.links) ∧
      (s.inFlight a b cell = false → ∀ g, exec (.trunkCellReceive a b cell g) s = .next s)) ∧
    (a < 4 → b < 4 → a ≠ b → l ∈ s.links → l.joins a b = true → l.up = true →
      ((l.toA.repeats ++ l.toB.repeats).any (fun q => decide (16 ≤ q.2)) = true →
        exec (.linkDown a b) s = .next w.fenceLost ∧ w.linkUp a b = false ∧ (s.outstanding a b = [] → w.mem = s.mem) ∧
          (w.die a).counters.trkdown = (s.die a).counters.trkdown + 1 ∧
          (w.die b).counters.trkdown = (s.die b).counters.trkdown + 1 ∧ (reached w → w.fenceLost = w) ∧
          (w.depot.die = some k → w.live e = true → w.reach k e = false → (∀ i ∈ w.liveDies, i ≠ e → w.reach k i = true) →
            (w.fenceLost.die e).state = .fenced)) ∧
      ((∀ k ∈ s.links, k.joins a b = true → k.spent = false) → exec (.linkDown a b) s = .next s)) ∧
    (s.idle = true → s.live a = true → s.live b = true → l ∈ s.links → l.joins a b = true →
      exec (.linkRetrain a b true) s = .next up.fenceLost ∧ up.linkUp a b = true ∧ (reached up → up.fenceLost = up) ∧
      exec (.linkRetrain a b false) s = .next s.fenceLost) ∧
    (s.parent d = some p → d < 4 → p < 4 →
      ((z.xnum ≠ 0 ∧ (x.clock - z.t1).toNat < 262144 → exec (.timeExchange d) s = .next s) ∧
        (z.xnum = 0 ∨ 262144 ≤ (x.clock - z.t1).toNat → room 1 ask p → ∃ u, exec (.timeExchange d) s = .next u ∧
          u.die d = { x with servo := { z with xnum := z.xnum + 1, t1 := x.clock, stage := 1, voided := false } } ∧
          (u.linkDir d p).flight = ask.flight ++ [timeCellOf 0x30 d p ask.seq (z.xnum + 1) 0] ∧
          { u with dies := s.dies, links := s.links } = s)) ∧
      (ask.out.find? (fun c => timeCell c && cellKind c == 0x30 && cellDdie c == p) = some cell → room 2 answer d →
        ∃ u, exec (.treq d) s = .next u ∧ { u with links := s.links } = s ∧ (u.linkDir d p).out = ask.out.erase cell ∧
          (u.linkDir p d).flight = answer.flight ++ [timeCellOf 0x31 p d answer.seq (cellNum cell) 0,
            timeCellOf 0x32 p d (answer.seq + 1) (cellNum cell)
              ((s.die p).stime.toNat + (s.die p).stime.toNat * 2 ^ 64 + s.stimeEps p * 2 ^ 128)]) ∧
      (answer.out.find? (fun c => timeCell c && cellKind c == 0x31 && cellDdie c == d) = some cell →
        ∃ u, exec (.trsp d) s = .next u ∧ (u.linkDir p d).out = answer.out.erase cell ∧ { u with dies := s.dies, links := s.links } = s ∧
          u.die d = if z.stage = 1 ∧ cellNum cell = z.xnum % 2 ^ 36 then { x with servo := { z with t4 := x.clock, stage := 3 } }
            else x) ∧
      (answer.out.find? (fun c => timeCell c && cellKind c == 0x32 && cellDdie c == d) = some cell → z.stage = 3 →
        cellNum cell = z.xnum % 2 ^ 36 →
        let t2 : Word64 := BitVec.ofNat 64 (bf cell.toNat 64 64)
        let t3 : Word64 := BitVec.ofNat 64 (bf cell.toNat 128 64)
        let offset : Int := ((t2 - z.t1).toInt - (z.t4 - t3).toInt) / 2
        let ends (u : State) : Prop := exec (.tfup d) s = .next u ∧ (u.die d).servo.stage = 0 ∧
          (u.linkDir p d).out = answer.out.erase cell ∧ { u with dies := s.dies, links := s.links } = s
        (z.voided = true → ∃ u, ends u ∧ (u.die d).stime = x.stime ∧ (u.die d).servo.locked = z.locked) ∧
        (z.voided = false → ∃ u : State, (u.timeError (s.depot.reference.getD d) d ≤ u.stimeEps d → ends u) ∧
          (u.timeError (s.depot.reference.getD d) d > u.stimeEps d → exec (.tfup d) s = .next s) ∧
          (u.die d).servo.locked = true ∧
          (z.locked = false → (u.die d).stime = z.free + BitVec.ofInt 64 offset) ∧
          (z.locked = true → (u.die d).stime = x.stime ∧ (u.die d).servo.residue = offset)))) ∧
    (s.depot.reference = some r → r < 4 → s.idle = true → ∃ u, exec (.grandmasterLock t) s = .next u ∧
      u.depot.gmLocked = true ∧ (s.depot.gmLocked = false → y.stime.toNat ≤ t.toNat → (u.die r).stime = t) ∧
      (s.depot.gmLocked = true → (u.die r).stime = y.stime ∧
        (u.die r).servo.residue = (t.toNat : Int) - (y.stime.toNat : Int)))

/-- R393, R395-R398, R400: the pager. Faults are posted in order to the die's ring while it has room. A pending fault ends with
RETRY when its page can be mapped, PAGE when no mapping can be made, NOFRAME when the page's pool is empty. PGSWAP compares
WVER and makes the entry moving; the swap replaces bits 63:0. UNMAP and MIGRATE work on the interface of Depot's own die and pass over
pages that are not resident (log 45): they take a page's entry up, start its swap, and end with the page when its entry holds the new
value; otherwise the swap has failed, and the page begins again (R396). Bytes that the pager needs at a busy or closed weight store
make it wait. -/
def Obligations.PagerSteps : Prop :=
  ∀ (s u : State) (die token q tln k e pa n pool : Nat) (f : PageFault) (c : Cmd) (ls : List Nat) (y : PageWork), die < 4 →
    let x := s.die die
    let g := x.pager
    let ea := bf g.pgea.toNat 4 44 * 16
    let taken : State := { s with depot := { s.depot with taken := true } }
    let pd := s.pagerDie
    let aimed (y : PageWork) : PagerIf := { (s.die pd).pager with
      pgea := BitVec.ofNat 64 y.entry, pgexp := BitVec.ofNat 32 y.wver, pgnew := BitVec.ofNat 64 y.new }
    let serves (i : Instr) : Prop := (i = .unmap ∧ bf e 248 8 = 1) ∨ (i = .migrate ∧ bf e 248 8 = 2)
    let begins (i : Instr) (new : Nat) (frame : Option (Nat × Nat)) : Prop := ∃ t, exec i s = .next t ∧ t.depot.taken = true ∧
      t.depot.work = some { entry := pa, old := n, wver := (s.wverAt pa).1, new := new, frame := frame, swapping := false } ∧
      (t.die pd).pager.pgea = BitVec.ofNat 64 pa ∧ t.depot.progress = s.depot.progress
    (x.faults.find? (fun f => !f.posted) = some f → g.room = true →
      s.paReady (bf g.pgrbase.toNat 6 42 * 64 + 64 * (g.pgprod % 2 ^ (g.pgrlog % 16))) 64 true = true → exec (.faultRecordPost die) s = .next
      ((s.setDie die { x with pager := { g with pgprod := g.pgprod + 1 },
                              faults := x.faults.map (fun h => if h.token = f.token then { h with posted := true } else h) }).paWrite
        (bf g.pgrbase.toNat 6 42 * 64 + 64 * (g.pgprod % 2 ^ (g.pgrlog % 16))) 64 (f.record die))) ∧
    (s.pending die token = some f → s.mapPage f.job f.va.toNat 4 = .made u →
      exec (.pgdoneRetry die token) s = .next (u.goOnFault die f) ∧
      (f.src = .command q tln → u.cmd? f.job q tln = some c → c.phase = .faulted die f.token →
        ∃ t, exec (.pgdoneRetry die token) s = .next t ∧ t.cmd? f.job q c.tln = some { c with phase := .running } ∧
          (∀ h ∈ (t.die die).faults, h.token ≠ f.token) ∧ t.mem = u.mem)) ∧
    (s.pending die token = some f → s.mapPage f.job f.va.toNat 4 = .cannot →
      exec (.pgdonePage die token) s = .next (s.failFault die f) ∧
      (f.src = .command q tln → s.cmd? f.job q tln = some c → c.phase = .faulted die f.token →
        ∃ t, exec (.pgdonePage die token) s = .next t ∧
          t.cmd? f.job q c.tln = some { c with phase := .ended (.fail 0x04 0 f.va 0) } ∧
          (∀ h ∈ (t.die die).faults, h.token ≠ f.token))) ∧
    (s.pending die token = some f → s.mapPage f.job f.va.toNat 4 = .noFrame pool → ∃ t : State,
      exec (.pgdoneNoframe die token) s = .next
        (t.postEvent f.job die { code := 0x16, srck := 4, index := f.src.index, addr := f.va.toNat, detail := pool }) ∧
      (∀ j, s.job? f.job = some j → t.job? f.job = some { j with held := true }) ∧
      (∀ h ∈ (t.die die).faults, h.token = token → h.noframe = true) ∧ t.mem = s.mem) ∧
    (s.pending die token = some f → s.mapPage f.job f.va.toNat 4 = .wait →
      exec (.pgdoneRetry die token) s = .next s ∧ exec (.pgdonePage die token) s = .next s ∧
      exec (.pgdoneNoframe die token) s = .next s) ∧
    (g.busy = false → s.pagerUp = true → s.paLocs ea 16 = some ls → AllHome s →
      (bf (ofBytes (s.homeBytes ls)) 96 32 = g.pgexp.toNat → ∃ t, exec (.pgswap die) s = .next t ∧
        (t.die die).pager = { g with busy := true, swapAt := ea } ∧ t.moving = ls.headD 0 :: s.moving ∧ t.mem = s.mem) ∧
      (bf (ofBytes (s.homeBytes ls)) 96 32 ≠ g.pgexp.toNat → ∃ t, exec (.pgswap die) s = .next t ∧
        (t.die die).pager = { g with busy := false, ok := false } ∧ t.moving = s.moving ∧ t.mem = s.mem)) ∧
    (g.busy = true → s.paLocs g.swapAt 16 = some ls → s.paReady g.swapAt 8 true = true → AllHome s → ∃ t,
      exec (.swapComplete die) s = .next t ∧ (t.die die).pager = { g with busy := false, ok := true } ∧
      t.moving = s.moving.erase (ls.headD 0) ∧ t.mem = (s.paWrite g.swapAt 8 g.pgnew.toNat).mem) ∧
    (∀ i, s.request = some (k, e) → serves i →
      (s.depot.taken = false → s.requestOk e = false → exec i s = .next (s.endRequest k e 2)) ∧
      (s.depot.taken = true ∨ s.requestOk e = true →
        (s.depot.work = some y → (s.die pd).pager.busy = true → exec i s = .next taken) ∧
        (s.depot.work = some y → (s.die pd).pager.busy = false → y.swapping = false → exec i s = .next
          (({ taken.setPgr pd (aimed y) with
              depot := { taken.depot with work := some { y with swapping := true } } } : State).swapStart pd)) ∧
        (s.depot.work = some y → (s.die pd).pager.busy = false → y.swapping = true → s.paRead y.entry 8 % 2 ^ 64 = y.new →
          exec i s = .next ((taken.freeOld y.old).pageDone k e)) ∧
        (s.depot.work = some y → (s.die pd).pager.busy = false → y.swapping = true → s.paRead y.entry 8 % 2 ^ 64 ≠ y.new →
          ∃ t, exec i s = .next t ∧ t.depot.work = none ∧ t.depot.progress = s.depot.progress ∧
            t.depot.free = s.depot.free ++ y.frame.toList ∧ t.mem = s.mem) ∧
        (s.depot.work = none → s.leafAt (rqJob e) (rqVa e s.depot.progress) = some (3, pa, n) →
          (bf n 0 2 ≠ 2 → exec i s = .next (taken.pageDone k e)) ∧
          (bf n 0 2 = 2 → (s.die pd).pager.busy = false → pd < 4 → AllHome s →
            (∀ z, (s.resolvePa pa).toOption = some z → z.1 ∉ s.moving) →
            s.paReady pa 16 true = true → s.paReady (pteTarget n) 65536 false = true →
            (i = .unmap → rqCopy e = 0 → begins i (unmapped n 0) none) ∧
            (i = .migrate → s.takeFrame (rqPool e) = some (q, u) →
              (s.copyPage (pteTarget n) (framePa (rqPool e) q)).isSome = true →
              begins i (leafFor n (rqPool e) q) (some (rqPool e, q)))))))

/-- R407, R408, R411, R413, R415, R405, R417, R419, R430: power-on in three executions (log 91): every die in PARTITION, then those
that pass stage 1 in TRAINING, and then every die that passes its stages is brought up, the others are fenced with an entry in the
log, and the package opens with the image that boots from the drives of Depot's die, or enters recovery mode. A package reset leaves
out dies fenced at run time. Fencing takes a die out of the live set for good, with an entry of its cause (log 53); SEQRST starts a
die's sequencers again; the watchdog resets one management block, which is logged, and Depot goes on (log 46); in recovery mode a
port's write of 1 to RCVGO makes RCVSTAT 1, and RCVGO installs an image that is accepted. -/
def Obligations.BringUpSteps : Prop :=
  ∀ (s : State) (d k p : Nat) (img : List Byte) (v : Word64),
    let b := s.bringUp
    let live := b.passing []
    let x := s.port p
    let bs := s.homeBytes (upFrom (hostLoc p x.rcvaddr.toNat) x.rcvlen.toNat)
    let others := s.liveDies.filter (fun y => y != d)
    let out := (upFrom 0 4).filter (fun y => (s.die y).state == .fenced)
    let at_ (x : DieState) : Prop := ∃ y, y < 4 ∧ (s.die y).state = x
    let drives (d : Nat) (s : State) : Vector Drive 2 := vget s.depot.drives d (Vector.replicate 2 Drive.empty)
    let own := s.depot.die.getD 0
    let logged (t : State) (kind die detail : Nat) : Prop :=
      ∃ e ∈ t.depot.log, e.kind = kind ∧ e.die = die ∧ e.detail = BitVec.ofNat 64 detail
    (¬at_ .partition → ¬at_ .training → ∃ t, exec .powerOn s = .next t ∧ t.livedies = 0 ∧ t.jobs = [] ∧
      t.bringUp = b ∧ t.depot.drives = s.depot.drives ∧ ∀ y, y < 4 → t.die y = { Die.reset y with state := .partition }) ∧
    (at_ .partition → ¬at_ .training → ∃ t, exec .powerOn s = .next t ∧ { t with dies := s.dies } = s ∧ ∀ y, y < 4 →
      (b.failed [] y = 1 → t.die y = { s.die y with state := .fenced, bustage := 1 }) ∧
      (b.failed [] y ≠ 1 → t.die y = { s.die y with state := .training })) ∧
    (at_ .training → b.depotDie live = some k → k < 4 → bootImage (drives k s) s.depot.fsvn = some img →
      ∃ t, exec .powerOn s = .next t ∧
      t.depot.die = some k ∧ t.depot.open_ = true ∧ t.depot.recovery = false ∧ t.livedies = dieBits live ∧ t.jobs = [] ∧
      t.depot.reference = live.head? ∧ t.igroups = groupsFor b.igroups live.length ∧
      (∀ y, y < 4 → y ≠ k → drives y t = drives y s) ∧
      ∀ y, y < 4 → (t.die y).state = (if y ∈ live then .live else .fenced) ∧
        (y ∉ live → (t.die y).bustage = b.failed [] y ∧ logged t 3 y (b.failed [] y))) ∧
    (at_ .training → b.depotDie live = some k → k < 4 → bootImage (drives k s) s.depot.fsvn = none →
      ∃ t, exec .powerOn s = .next t ∧
      t.depot.die = some k ∧ t.depot.recovery = true ∧ t.depot.open_ = false ∧ t.livedies = 0) ∧
    (at_ .training → b.depotDie live = none → ∃ t, exec .powerOn s = .next t ∧ t.depot.die = none ∧ t.livedies = 0) ∧
    (∀ y, y < 4 → (s.packageReset.die y).state = (if y ∈ b.passing out then .live else .fenced) ∧
      (y ∈ out → y ∉ b.passing out ∧ (s.packageReset.die y).bustage = (s.die y).bustage)) ∧
    (s.live d = true → s.idle = true → s.depot.held = [] → ∃ t, exec (.fence d) s = .next t ∧
      t.livedies = dieBits others ∧ (t.die d).state = .fenced ∧ t.depot.die = b.depotDie others ∧ logged t 3 d 1 ∧
      (∀ l ∈ t.links, l.a = d ∨ l.b = d → l.up = false) ∧ (∀ c ∈ t.ctxs, c.die ≠ d) ∧
      t.igroups = groupsFor b.igroups others.length) ∧
    (s.live d = false → exec (.fence d) s = .next s ∧ exec (.seqrst d) s = .next s ∧ exec (.mgmtWatchdog d) s = .next s) ∧
    (s.live d = true → (∀ c ∈ s.ctxs, c.die ≠ d) → AllHome s →
      ∃ t, exec (.seqrst d) s = .next t ∧ (t.die d).stopped = false ∧ t.barriers = s.barriers.filter (fun y => y.die != d) ∧
        t.mem = s.mem ∧ t.ctxs = s.ctxs ∧ t.tasks = s.tasks) ∧
    (s.live d = true → ∃ t, exec (.mgmtWatchdog d) s = .next t ∧ { t with depot := s.depot } = s ∧
      t.depot.logNext = s.depot.logNext + 1 ∧ (∃ e ∈ t.depot.log, e.kind = 6 ∧ e.die = d ∧ e.seq = s.depot.logNext) ∧
      { t.depot with log := s.depot.log, logNext := s.depot.logNext } = s.depot) ∧
    (p < 2 → s.portUp p = true → s.depot.recovery = true →
      (bit v.toNat 0 = true → PortSets (.registerWrite p 0x3018 v) s p { x with rcvstat := 1 }) ∧
      PortSets (.registerWrite p 0x3008 v) s p { x with rcvaddr := v } ∧
      PortSets (.registerWrite p 0x3010 v) s p { x with rcvlen := v }) ∧
    (p < 2 → s.portUp p = true → s.depot.recovery = true → own < 4 → x.rcvstat = 1 → (p = 0 ∨ (s.port 0).rcvstat ≠ 1) →
      x.rcvaddr.toNat + x.rcvlen.toNat ≤ 2 ^ 44 →
      (imageAccepted bs s.depot.fsvn = true → ∃ t, exec (.rcvgo p) s = .next t ∧ (t.port p).rcvstat = 2 ∧
        drives own t = (drives own s).map (fun y => { y with stage := bs, image := bs, control := 0 })) ∧
      (imageAccepted bs s.depot.fsvn = false → ∃ t, exec (.rcvgo p) s = .next t ∧ (t.port p).rcvstat = 3 ∧
        drives own t = (drives own s).map (fun y => { y with stage := bs }))) ∧
    (s.portUp p = false ∨ s.depot.recovery = false ∨ x.rcvstat ≠ 1 → exec (.rcvgo p) s = .next s)

/-- R418, R420-R430: Depot's mailboxes and periods. A request that is taken is done, with STATUS 1, or refused, with STATUS
2 and nothing else. At a period start every budget is full again, and a table that waits takes effect; SETBUDGET and GETBUDGET come
after the start of the period that they stand in. Each 1 ms of station time Depot halves PWR of a die over its limit, or above
100 °C (log 54), and at 110 °C it resets the package, in one step (log 50) and with an entry of detail 0 (log 53). The nonce of
REPORT's signature is a free value. -/
def Obligations.DepotRequests : Prop :=
  ∀ (s u : State) (p n : Nat) (ls : List Nat), n < 4 →
    let m := s.mail p
    let d := mailDie m
    let a := mailAddr m
    let len := mailLen m
    let x := s.die n
    let bs := s.homeBytes ls
    let entries := (s.depot.log.filter (fun e => decide (bf m 192 64 ≤ e.seq))).flatMap LogEntry.bytes
    let refused (i : Instr) : Prop := exec i s = .next (s.mailDone p false)
    let limit := tablePwr x.budget.toNat
    let own := s.depot.die.getD 0
    let drives (s : State) : Vector Drive 2 := vget s.depot.drives own (Vector.replicate 2 Drive.empty)
    let b := s.budgetStart d
    (s.mailPending p 1 = true → s.fresh.2.putBytes (s.mailbox p + 64) (s.reportHead m ++
        (toBytes 64 (ecdsaSign identitySecret (sha256 (s.reportHead m))
          (1 + Config.signNonce s.freeCtr % (p256N - 1))).toNat).reverse) = some u →
      exec (.report p) s = .next (u.mailDone p true)) ∧
    (s.mailPending p 2 = true → own < 4 → s.paLocs a len = some ls →
      (imageAccepted bs s.depot.fsvn = true → ∃ t : State, exec (.update p) s = .next (t.mailDone p true) ∧
        drives t = (drives s).map (fun y => { y with stage := bs, image := bs, control := 0 }) ∧
        t.depot.logNext = s.depot.logNext + 1 ∧ t.mem = s.mem) ∧
      (imageAccepted bs s.depot.fsvn = false → ∃ t : State, exec (.update p) s = .next (t.mailDone p false) ∧
        drives t = (drives s).map (fun y => { y with stage := bs }) ∧ t.mem = s.mem)) ∧
    (s.mailPending p 3 = true →
      (s.mailOk m false = true → len = 144 → ∀ t, s.readPa a 144 = some t →
        (b.budgetOk d t = true → exec (.setbudget p) s = .next
          ((b.setDie d { b.die d with pending := some (BitVec.ofNat 1152 t) }).mailDone p true)) ∧
        (b.budgetOk d t = false → refused (.setbudget p))) ∧
      (s.mailOk m false = false ∨ len ≠ 144 → refused (.setbudget p))) ∧
    (s.mailPending p 4 = true →
      (s.mailOk m false = true → len = 144 → b.putBytes a (toBytes 144 (b.die d).budget.toNat) = some u →
        exec (.getbudget p) s = .next (u.mailDone p true)) ∧
      (s.mailOk m false = false ∨ len ≠ 144 → refused (.getbudget p))) ∧
    (s.mailPending p 5 = true →
      (s.mailOk m false = true → len = 128 → s.putBytes a (s.telemetryBytes d) = some u →
        exec (.telemetry p) s = .next (u.mailDone p true)) ∧
      (s.mailOk m false = false ∨ len ≠ 128 → refused (.telemetry p))) ∧
    (s.mailPending p 6 = true →
      (s.mailOk m true = true → len % 32 = 0 → len ≠ 0 → s.putBytes a ((entries ++ List.replicate len 0).take len) = some u →
        exec (.log p) s = .next (u.mailDone p true)) ∧
      (s.mailOk m true = false ∨ len % 32 ≠ 0 ∨ len = 0 → refused (.log p))) ∧
    (s.mailPending p 7 = true →
      (s.mailOk m false = true → len = 0 → s.idle = true → exec (.reset p) s = .next ((s.mailDone p true).packageReset)) ∧
      (s.mailOk m false = false ∨ len ≠ 0 ∨ s.idle = false → refused (.reset p))) ∧
    (∀ cmd i, (cmd, i) ∈ [(1, Instr.report p), (2, .update p), (3, .setbudget p), (4, .getbudget p), (5, .telemetry p),
        (6, .log p), (7, .reset p)] → s.mailPending p cmd = false → exec i s = .next s) ∧
    exec (.budgetPeriodStart d) s = .next b ∧
    (x.actPeriod < x.stime.toNat / Config.usec → DieSets (.budgetPeriodStart n) s n { x with
      actPeriod := x.stime.toNat / Config.usec, left := [], budget := x.pending.getD x.budget, pending := none, waited := false,
      counters := { x.counters with budwait := x.counters.budwait + if x.waited then 1 else 0 } }) ∧
    (x.stime.toNat / Config.usec ≤ x.actPeriod → exec (.budgetPeriodStart n) s = .next s) ∧
    (s.pagerUp = true → s.live n = true →
      (110 * 16 ≤ x.junction → exec (.powerCheck n) s = .next ((s.addLog 4 n 0).packageReset)) ∧
      (x.junction < 110 * 16 → x.stime.toNat < x.powerAt + 1000 * Config.usec → exec (.powerCheck n) s = .next s) ∧
      (x.junction < 110 * 16 → x.powerAt + 1000 * Config.usec ≤ x.stime.toNat → ∃ t, exec (.powerCheck n) s = .next t ∧ (t.die n).overpower = decide (limit < x.power) ∧
        (t.die n).powerAt = x.stime.toNat ∧
        ((100 * 16 < x.junction ∨ (x.overheated = true ∧ 95 * 16 ≤ x.junction)) →
          (t.die n).overheated = true ∧ (t.die n).halved = x.halved + 1) ∧
        (x.junction ≤ 95 * 16 - 1 → (t.die n).overheated = false ∧ (x.overheated = true → (t.die n).halved = 0)) ∧
        t.mem = s.mem ∧ t.jobs = s.jobs ∧ t.regions = s.regions))

/-- R140, R141: REDUCTION_CONTRIBUTION. A contribution to no open reduction, or of an index that is out of range or
has come before, is discarded with a PROTECT event of subcause 21; one that is not the next is kept in the reorder
buffer while that has room, and waits in transport when it has none; the next one is added, the first being taken as
it is. R142, R386: a merged atomic or contribution of a reduction window is applied at its home as one, whether or
not the window's entry is still valid. The value that a merged compare and swap expects is a free one (log 10). A
contribution whose address leads to no reduction slot, and an atomic that a busy weight store refuses (log 89),
change no memory and are reported; one that waits on its way is not applied yet (log 95). -/
def Obligations.ReductionContributions : Prop := Claims.Contributions ∧ Claims.SwitchResults

/-- R375-R380, R386: the registers of a host port that is in force. JOBRES is read and cleared; INTSTAT clears by
1s; a free semaphore is taken by a nonzero token and given back by its owner with 0, and no other write changes it;
WINDATA takes effect from the owner of SEM[0]; a port reset gives up what the port holds, its place at the gate of
host DMA too, and sets bit 1 of the other port's INTSTAT in every case (log 51). R377: an access of 8 bytes through
the aperture, at APBASE plus its offset (log 41). A write stores them; a read returns them, all ones where no memory
answers (log 41). One that must wait, for its home, its bank or its die's budget of host DMA (R424), keeps its
address and goes behind those that wait at its port (R390), and a write to a busy weight store writes nothing, which
nothing reports (R129, log 89). -/
def Obligations.HostRegistersAndAperture : Prop := Claims.HostRegisters ∧ Claims.ApertureAccesses

/-! ### Words, steps, reset and invariants -/

/-- R175, R179-R187, R202-R226: words written out bit by bit from the tables of 08_encodings.md decode to the instructions
that they stand for. -/
def Obligations.DecodedWords : Prop :=
  decodeScalar 0x04853408 = .ok (.sar 4 5 6 true) ∧
    decodeScalar 0x04690014 = .ok (.clz 3 9 false) ∧
    decodeScalar 0x0C84FF00 = .ok (.andi 4 4 0xFF00) ∧
    decodeScalar 0x18420004 = .ok (.shli 2 2 4) ∧
    decodeScalar 0x24432404 = .ok (.cmp 2 3 4 true .ltu) ∧
    decodeScalar 0x2C221800 = .ok (.cand 1 2 3) ∧
    decodeScalar 0x30E22803 = .ok (.sel 7 2 5 3) ∧
    decodeScalar 0x40811200 = .ok (.fadd 4 1 2 .f32 .rne) ∧
    decodeScalar 0x44221A01 = .ok (.fcmp 1 2 3 .f32 .lt)

/-- R34, R35, R177, R231, R263, R286: what a step runs. A context whose block holds a word that decodes runs that
instruction; a word that does not decode traps its task with ILLEGAL; behind the last word the block falls through; a context
without a block fetches the words at its address. A started command and an operator of a RUNNING region run the instruction
of their word; an operator of a tile whose generator several share waits for its draw (R109, log 84), and in a region whose image
is being read again (R363) the reading goes on. An event of the agenda is run, and the agenda goes on (log 1). A step in which a walk
of the hardware to a job's structures waits or meets a page fault is not taken: it is made again, and the fault is pending meanwhile
(R397, log 95). -/
def Obligations.StepRunsTheDecodedInstruction : Prop :=
  ∀ (s : State) (d q k job qid tln v ix : Nat) (x : Ctx) (i : Instr) (w : Word32) (c : Cmd) (r : Region) (o : Op)
    (rest : List Turn) (hb bs : List Byte) (n : Nat) (nostore : Bool) (why code at_ : Nat) (ts ts' : List Trans)
    (u : State),
    let runs (i : Instr) : Prop := step s = s.settled (exec i s)
    let is (t : State) : Prop := step s = s.settled (.next t)
    (s.agenda = [] → s.focus = .context d q k → s.ctx? d q k = some x →
      (x.words ≠ [] → x.words[x.ip]? = some w → decodeScalar w = .ok i → runs i) ∧
      (x.words ≠ [] → x.words[x.ip]? = some w → decodeScalar w = .error why →
        is (s.trapTask x 0x01 0 (detailOf x.ip why))) ∧
      (x.words ≠ [] → x.words[x.ip]? = none → is (s.fallThrough x)) ∧
      (x.words = [] → s.fetchBytes x 4 = .ok (hb, ts') → decodeHeader (BitVec.ofNat 32 (ofBytes hb)) = some (n, nostore) →
        s.fetchBytes x (4 * (n + 2)) = .ok (bs, ts) →
        (s.dmaPass x ts = none → is (s.dmaPark x)) ∧
        (s.dmaPass x ts = some u →
          (blockCheck nostore ((wordsOf (n + 2) bs).drop 1) = none →
            is (u.setCtx { x with words := wordsOf (n + 2) bs, ip := 1, stalled := none })) ∧
          (blockCheck nostore ((wordsOf (n + 2) bs).drop 1) = some (code, at_, why) →
            is (u.trapTask x code 0 (detailOf at_ why)))))) ∧
    (s.agenda = [] → s.focus = .command job qid tln → s.cmd? job qid tln = some c → c.phase = .running →
      decodeCmd c.word = .ok i → runs i) ∧
    (s.agenda = [] → s.focus = .operator job v ix → s.region? job v = some r → r.state = .running →
      r.reloading = false → r.body.ops[ix]? = some o → decodeOp o.word = some i → ∀ y, r.view ix = some y →
      (s.drawHeld r y = false → runs i) ∧ (s.drawHeld r y = true → is s)) ∧
    (s.agenda = [] → s.focus = .operator job v ix → s.region? job v = some r → r.reloading = true →
      (r.view ix).isSome = true → is (s.reload r)) ∧
    (s.agenda = .event i :: rest → step s =
      State.settled { s with agenda := rest ++ [.event i] } (exec i { s with agenda := rest })) ∧
    ∀ (b t : State) (m : HwMiss) (f : Fault) (e : Refusal) (level cause : Nat), b.settled (.fault f) = .fault f ∧
      b.settled (.refused e) = .refused e ∧ (t.missed = none → b.settled (.next t) = .next t) ∧
      (t.missed = some m → m.fault = none → b.settled (.next t) = .next b) ∧
      (t.missed = some m → m.fault = some (level, cause) → b.walkFaulted m = true → b.settled (.next t) = .next b) ∧
      (t.missed = some m → m.fault = some (level, cause) → b.walkFaulted m = false → b.settled (.next t) = .next
        (b.pageFault (b.liveDies.headD 0) m.job .hardware m.va 0 .read level cause).2)

/-- R375, R376, R405, R410, R423, R424: what reset leaves. No die is live, no job is resident, no semaphore is held, every
window word and every register of a host port is 0, budgets stand at their defaults and ORIENT at its straps; memory lists
nothing and is in its canonical form (log 4). LIVEDIES is 0 and the dies are off until POWER_ON (log 3). -/
def Obligations.ResetValues : Prop :=
  State.reset.livedies = 0 ∧ State.reset.jobs = [] ∧ State.reset.regions = [] ∧ State.reset.ctxs = [] ∧
    State.reset.mem = [] ∧ State.reset.mem.wf = true ∧ (∀ n, State.reset.sem n = 0) ∧
    (∀ p, p < 2 → State.reset.port p = Port.reset ∧ Port.reset.apbase = 0 ∧ Port.reset.jobres = 0 ∧
      Port.reset.intstat = 0 ∧ Port.reset.winsel = 0) ∧
    (∀ d, d < 4 → (State.reset.die d).state = .off ∧ (State.reset.die d).stime = 0 ∧
      tablePwr (State.reset.die d).budget.toNat = 600 ∧
      ∀ k, k < 8 → bf (State.reset.die d).budget.toNat (8 * k) 8 = 32) ∧
    (State.reset.die 0).orient = 0x090 ∧ (State.reset.die 1).orient = 0x285 ∧ (State.reset.die 2).orient = 0x192 ∧
    (State.reset.die 3).orient = 0x387

/-- R175, R188-R193, R284: the decoders give back every well-formed instruction from the word that the encoder makes of it, each
operand at each of its values: scalar words, stream commands and operator words. -/
def Obligations.DecodeEncode : Prop := ∀ i : Instr, Laws.RoundTrip.Statement i

/-- Log 5, R126: the memory of every state that a step reaches from one in canonical form is in canonical form: addresses rise
strictly, and no entry equals what an unlisted address reads as. -/
def Obligations.MemoryStaysCanonical : Prop :=
  ∀ s t : State, s.mem.wf = true → step s = .next t → t.mem.wf = true

end Statements
end

