-- ==== Sys2Proof/Laws/Memory.lean ====
section
/-! SUPPORT. Memory keeps its canonical form, and reads after writes (05_memory.md; log 4). -/

namespace Sys2Proof.Machine

theorem Memory.wfFrom_none {m : Memory} {lo : Option Nat} (h : Memory.wfFrom lo m = true) :
    Memory.wfFrom none m = true := by
  cases m with
  | nil => rfl
  | cons c m => cases lo <;> simp_all [Memory.wfFrom]

theorem Memory.wfFrom_mono {m : Memory} {a b : Nat} (hab : a ≤ b) (h : Memory.wfFrom (some b) m = true) :
    Memory.wfFrom (some a) m = true := by
  cases m with
  | nil => rfl
  | cons c m =>
    simp only [Memory.wfFrom, Bool.and_eq_true, decide_eq_true_eq] at h ⊢
    exact ⟨⟨by omega, h.1.2⟩, h.2⟩

theorem Memory.write_wfFrom (m : Memory) (lo : Option Nat) (a : Nat) (v : Byte)
    (hlo : ∀ l, lo = some l → l < a) (h : Memory.wfFrom lo m = true) :
    Memory.wfFrom lo (m.write a v) = true := by
  induction m generalizing lo with
  | nil =>
    unfold Memory.write
    split
    · rfl
    · cases lo <;> simp_all [Memory.wfFrom]
  | cons c m ih =>
    obtain ⟨k, x⟩ := c
    have hk : ∀ l, lo = some l → l < k := by
      intro l hl; subst hl; simp only [Memory.wfFrom, Bool.and_eq_true, decide_eq_true_eq] at h; exact h.1.1
    have hx : x ≠ Memory.unlisted := by
      simp only [Memory.wfFrom, Bool.and_eq_true, decide_eq_true_eq] at h; exact h.1.2
    have hm : Memory.wfFrom (some k) m = true := by
      simp only [Memory.wfFrom, Bool.and_eq_true] at h; exact h.2
    have build : ∀ (key : Nat) (y : Byte) (t : Memory), (∀ l, lo = some l → l < key) → y ≠ Memory.unlisted →
        Memory.wfFrom (some key) t = true → Memory.wfFrom lo ((key, y) :: t) = true := by
      intro key y t h1 h2 h3
      cases lo <;> simp_all [Memory.wfFrom]
    unfold Memory.write
    split
    · rename_i hak
      split
      · exact build k x m hk hx hm
      · exact build a v _ hlo ‹_› (by simp_all [Memory.wfFrom])
    · split
      · rename_i h1 h2; subst h2
        split
        · cases lo with
          | none => exact Memory.wfFrom_none hm
          | some l => exact Memory.wfFrom_mono (Nat.le_of_lt (hk l rfl)) hm
        · exact build a v m hk ‹_› hm
      · refine build k x _ hk hx (ih (some k) ?_ hm)
        intro l hl; cases hl; omega

/-- Every write keeps the canonical form. -/
theorem Memory.write_wf {m : Memory} (a : Nat) (v : Byte) (h : m.wf = true) : (m.write a v).wf = true :=
  Memory.write_wfFrom m none a v (by simp) h

theorem Memory.writeCells_wf {m : Memory} (cs : List Host.Cell) (h : m.wf = true) : (m.writeCells cs).wf = true := by
  unfold Memory.writeCells
  induction cs generalizing m with
  | nil => exact h
  | cons c cs ih => exact ih (Memory.write_wf c.1 c.2 h)

/-- Writes whose bytes depend on their locations keep the canonical form. -/
theorem Memory.foldWrite_wf {α : Type} (f : α → Nat) (g : α → Byte) (l : List α) {m : Memory} (h : m.wf = true) :
    (l.foldl (fun m x => m.write (f x) (g x)) m).wf = true := by
  induction l generalizing m with
  | nil => exact h
  | cons c cs ih => exact ih (Memory.write_wf _ _ h)

theorem Memory.read_of_above (m : Memory) (lo a : Nat) (hla : a ≤ lo) (h : Memory.wfFrom (some lo) m = true) :
    m.read a = Memory.unlisted := by
  induction m generalizing lo with
  | nil => rfl
  | cons c m ih =>
    obtain ⟨k, x⟩ := c
    simp only [Memory.wfFrom, Bool.and_eq_true, decide_eq_true_eq] at h
    have : a ≠ k := by omega
    simp only [Memory.read, this, if_false]
    exact ih k (by omega) h.2

/-- A read after a write to the same place gives the value written. -/
theorem Memory.read_write_same (m : Memory) (lo : Option Nat) (a : Nat) (v : Byte) (h : Memory.wfFrom lo m = true) :
    (m.write a v).read a = v := by
  induction m generalizing lo with
  | nil =>
    unfold Memory.write
    split
    · rename_i hv; simp [Memory.read, hv]
    · simp [Memory.read]
  | cons c m ih =>
    obtain ⟨k, x⟩ := c
    have hm : Memory.wfFrom (some k) m = true := by
      simp only [Memory.wfFrom, Bool.and_eq_true] at h; exact h.2
    unfold Memory.write
    split
    · rename_i hak
      split
      · rename_i hv
        have hne : a ≠ k := by omega
        simp only [Memory.read, hne, if_false, hv]
        exact Memory.read_of_above m k a (by omega) hm
      · simp [Memory.read]
    · split
      · rename_i h1 h2; subst h2
        split
        · rename_i hv
          rw [hv]
          exact Memory.read_of_above m a a (Nat.le_refl a) hm
        · simp [Memory.read]
      · rename_i h1 h2
        simp only [Memory.read, h2, if_false]
        exact ih (some k) hm

/-- A write leaves every other place alone. -/
theorem Memory.read_write_other (m : Memory) (a b : Nat) (v : Byte) (hab : b ≠ a) :
    (m.write a v).read b = m.read b := by
  induction m with
  | nil =>
    unfold Memory.write
    split <;> simp [Memory.read, hab]
  | cons c m ih =>
    obtain ⟨k, x⟩ := c
    unfold Memory.write
    split
    · split <;> simp [Memory.read, hab]
    · split
      · rename_i h2; subst h2
        split <;> simp [Memory.read, hab]
      · simp only [Memory.read, ih]

theorem Memory.read_writeCells_other (m : Memory) (cs : List Host.Cell) (b : Nat) (h : ∀ c ∈ cs, b ≠ c.1) :
    (m.writeCells cs).read b = m.read b := by
  unfold Memory.writeCells
  induction cs generalizing m with
  | nil => rfl
  | cons c cs ih =>
    rw [List.foldl_cons, ih _ (fun x hx => h x (List.mem_cons_of_mem _ hx))]
    exact Memory.read_write_other m c.1 b c.2 (h c (List.mem_cons_self ..))

/-- Two memories in canonical form that read alike everywhere are equal. -/
theorem Memory.ext_read (m n : Memory) (lo : Option Nat) (hm : Memory.wfFrom lo m = true) (hn : Memory.wfFrom lo n = true)
    (h : ∀ a, m.read a = n.read a) : m = n := by
  induction m generalizing n lo with
  | nil =>
    cases n with
    | nil => rfl
    | cons c n =>
      obtain ⟨k, x⟩ := c
      have := h k
      simp only [Memory.read, if_true] at this
      simp only [Memory.wfFrom, Bool.and_eq_true, decide_eq_true_eq] at hn
      exact absurd this.symm hn.1.2
  | cons c m ih =>
    obtain ⟨k, x⟩ := c
    simp only [Memory.wfFrom, Bool.and_eq_true, decide_eq_true_eq] at hm
    cases n with
    | nil =>
      have := h k
      simp only [Memory.read, if_true] at this
      exact absurd this hm.1.2
    | cons d n =>
      obtain ⟨l, y⟩ := d
      simp only [Memory.wfFrom, Bool.and_eq_true, decide_eq_true_eq] at hn
      have hkl : k = l := by
        rcases Nat.lt_trichotomy k l with h1 | h1 | h1
        · have h2 := h k
          have h3 : k ≠ l := by omega
          simp only [Memory.read, if_true, h3, if_false] at h2
          rw [Memory.read_of_above n l k (by omega) hn.2] at h2
          exact absurd h2 hm.1.2
        · exact h1
        · have h2 := h l
          have h3 : l ≠ k := by omega
          simp only [Memory.read, if_true, h3, if_false] at h2
          rw [Memory.read_of_above m k l (by omega) hm.2] at h2
          exact absurd h2.symm hn.1.2
      subst hkl
      have hxy : x = y := by
        have := h k
        simpa [Memory.read] using this
      subst hxy
      have : m = n := by
        refine ih n (some k) hm.2 hn.2 (fun a => ?_)
        by_cases ha : a ≤ k
        · rw [Memory.read_of_above m k a ha hm.2, Memory.read_of_above n k a ha hn.2]
        · have := h a
          have h3 : a ≠ k := by omega
          simpa [Memory.read, h3] using this
      rw [this]

end Sys2Proof.Machine
end

