-- ==== Sys2Proof/Laws/State.lean ====
section
/-! SUPPORT. One lemma per field and update of the state: an update of one part leaves every other field alone. -/

namespace Sys2Proof.Machine

variable (s : State)

/-! ### `setDie` -/

@[simp] theorem State.setDie_agenda (d : Nat) (x : Die) : (s.setDie d x).agenda = s.agenda := rfl
@[simp] theorem State.setDie_focus (d : Nat) (x : Die) : (s.setDie d x).focus = s.focus := rfl
@[simp] theorem State.setDie_freeCtr (d : Nat) (x : Die) : (s.setDie d x).freeCtr = s.freeCtr := rfl
@[simp] theorem State.setDie_livedies (d : Nat) (x : Die) : (s.setDie d x).livedies = s.livedies := rfl
@[simp] theorem State.setDie_igroups (d : Nat) (x : Die) : (s.setDie d x).igroups = s.igroups := rfl
@[simp] theorem State.setDie_mem (d : Nat) (x : Die) : (s.setDie d x).mem = s.mem := rfl
@[simp] theorem State.setDie_history (d : Nat) (x : Die) : (s.setDie d x).history = s.history := rfl
@[simp] theorem State.setDie_homeClock (d : Nat) (x : Die) : (s.setDie d x).homeClock = s.homeClock := rfl
@[simp] theorem State.setDie_refused (d : Nat) (x : Die) : (s.setDie d x).refused = s.refused := rfl
@[simp] theorem State.setDie_releases (d : Nat) (x : Die) : (s.setDie d x).releases = s.releases := rfl
@[simp] theorem State.setDie_views (d : Nat) (x : Die) : (s.setDie d x).views = s.views := rfl
@[simp] theorem State.setDie_words (d : Nat) (x : Die) : (s.setDie d x).words = s.words := rfl
@[simp] theorem State.setDie_phases (d : Nat) (x : Die) : (s.setDie d x).phases = s.phases := rfl
@[simp] theorem State.setDie_staffs (d : Nat) (x : Die) : (s.setDie d x).staffs = s.staffs := rfl
@[simp] theorem State.setDie_slots (d : Nat) (x : Die) : (s.setDie d x).slots = s.slots := rfl
@[simp] theorem State.setDie_pubs (d : Nat) (x : Die) : (s.setDie d x).pubs = s.pubs := rfl
@[simp] theorem State.setDie_transit (d : Nat) (x : Die) : (s.setDie d x).transit = s.transit := rfl
@[simp] theorem State.setDie_reductions (d : Nat) (x : Die) : (s.setDie d x).reductions = s.reductions := rfl
@[simp] theorem State.setDie_tasks (d : Nat) (x : Die) : (s.setDie d x).tasks = s.tasks := rfl
@[simp] theorem State.setDie_ctxs (d : Nat) (x : Die) : (s.setDie d x).ctxs = s.ctxs := rfl
@[simp] theorem State.setDie_barriers (d : Nat) (x : Die) : (s.setDie d x).barriers = s.barriers := rfl
@[simp] theorem State.setDie_queues (d : Nat) (x : Die) : (s.setDie d x).queues = s.queues := rfl
@[simp] theorem State.setDie_txruns (d : Nat) (x : Die) : (s.setDie d x).txruns = s.txruns := rfl
@[simp] theorem State.setDie_colls (d : Nat) (x : Die) : (s.setDie d x).colls = s.colls := rfl
@[simp] theorem State.setDie_regions (d : Nat) (x : Die) : (s.setDie d x).regions = s.regions := rfl
@[simp] theorem State.setDie_snaps (d : Nat) (x : Die) : (s.setDie d x).snaps = s.snaps := rfl
@[simp] theorem State.setDie_jobs (d : Nat) (x : Die) : (s.setDie d x).jobs = s.jobs := rfl
@[simp] theorem State.setDie_endWords (d : Nat) (x : Die) : (s.setDie d x).endWords = s.endWords := rfl
@[simp] theorem State.setDie_ports (d : Nat) (x : Die) : (s.setDie d x).ports = s.ports := rfl
@[simp] theorem State.setDie_sems (d : Nat) (x : Die) : (s.setDie d x).sems = s.sems := rfl
@[simp] theorem State.setDie_windows (d : Nat) (x : Die) : (s.setDie d x).windows = s.windows := rfl
@[simp] theorem State.setDie_links (d : Nat) (x : Die) : (s.setDie d x).links = s.links := rfl
@[simp] theorem State.setDie_depot (d : Nat) (x : Die) : (s.setDie d x).depot = s.depot := rfl
@[simp] theorem State.setDie_bringUp (d : Nat) (x : Die) : (s.setDie d x).bringUp = s.bringUp := rfl
@[simp] theorem State.setDie_moving (d : Nat) (x : Die) : (s.setDie d x).moving = s.moving := rfl
@[simp] theorem State.setDie_badBytes (d : Nat) (x : Die) : (s.setDie d x).badBytes = s.badBytes := rfl
@[simp] theorem State.setDie_missed (d : Nat) (x : Die) : (s.setDie d x).missed = s.missed := rfl

/-! ### `setJob` -/

@[simp] theorem State.setJob_agenda (x : Job) : (s.setJob x).agenda = s.agenda := rfl
@[simp] theorem State.setJob_focus (x : Job) : (s.setJob x).focus = s.focus := rfl
@[simp] theorem State.setJob_freeCtr (x : Job) : (s.setJob x).freeCtr = s.freeCtr := rfl
@[simp] theorem State.setJob_livedies (x : Job) : (s.setJob x).livedies = s.livedies := rfl
@[simp] theorem State.setJob_igroups (x : Job) : (s.setJob x).igroups = s.igroups := rfl
@[simp] theorem State.setJob_mem (x : Job) : (s.setJob x).mem = s.mem := rfl
@[simp] theorem State.setJob_history (x : Job) : (s.setJob x).history = s.history := rfl
@[simp] theorem State.setJob_homeClock (x : Job) : (s.setJob x).homeClock = s.homeClock := rfl
@[simp] theorem State.setJob_refused (x : Job) : (s.setJob x).refused = s.refused := rfl
@[simp] theorem State.setJob_releases (x : Job) : (s.setJob x).releases = s.releases := rfl
@[simp] theorem State.setJob_views (x : Job) : (s.setJob x).views = s.views := rfl
@[simp] theorem State.setJob_words (x : Job) : (s.setJob x).words = s.words := rfl
@[simp] theorem State.setJob_phases (x : Job) : (s.setJob x).phases = s.phases := rfl
@[simp] theorem State.setJob_staffs (x : Job) : (s.setJob x).staffs = s.staffs := rfl
@[simp] theorem State.setJob_slots (x : Job) : (s.setJob x).slots = s.slots := rfl
@[simp] theorem State.setJob_pubs (x : Job) : (s.setJob x).pubs = s.pubs := rfl
@[simp] theorem State.setJob_transit (x : Job) : (s.setJob x).transit = s.transit := rfl
@[simp] theorem State.setJob_reductions (x : Job) : (s.setJob x).reductions = s.reductions := rfl
@[simp] theorem State.setJob_tasks (x : Job) : (s.setJob x).tasks = s.tasks := rfl
@[simp] theorem State.setJob_ctxs (x : Job) : (s.setJob x).ctxs = s.ctxs := rfl
@[simp] theorem State.setJob_barriers (x : Job) : (s.setJob x).barriers = s.barriers := rfl
@[simp] theorem State.setJob_queues (x : Job) : (s.setJob x).queues = s.queues := rfl
@[simp] theorem State.setJob_txruns (x : Job) : (s.setJob x).txruns = s.txruns := rfl
@[simp] theorem State.setJob_colls (x : Job) : (s.setJob x).colls = s.colls := rfl
@[simp] theorem State.setJob_regions (x : Job) : (s.setJob x).regions = s.regions := rfl
@[simp] theorem State.setJob_snaps (x : Job) : (s.setJob x).snaps = s.snaps := rfl
@[simp] theorem State.setJob_endWords (x : Job) : (s.setJob x).endWords = s.endWords := rfl
@[simp] theorem State.setJob_ports (x : Job) : (s.setJob x).ports = s.ports := rfl
@[simp] theorem State.setJob_sems (x : Job) : (s.setJob x).sems = s.sems := rfl
@[simp] theorem State.setJob_windows (x : Job) : (s.setJob x).windows = s.windows := rfl
@[simp] theorem State.setJob_dies (x : Job) : (s.setJob x).dies = s.dies := rfl
@[simp] theorem State.setJob_links (x : Job) : (s.setJob x).links = s.links := rfl
@[simp] theorem State.setJob_depot (x : Job) : (s.setJob x).depot = s.depot := rfl
@[simp] theorem State.setJob_bringUp (x : Job) : (s.setJob x).bringUp = s.bringUp := rfl
@[simp] theorem State.setJob_moving (x : Job) : (s.setJob x).moving = s.moving := rfl
@[simp] theorem State.setJob_badBytes (x : Job) : (s.setJob x).badBytes = s.badBytes := rfl
@[simp] theorem State.setJob_missed (x : Job) : (s.setJob x).missed = s.missed := rfl

/-! ### `setView` -/

@[simp] theorem State.setView_agenda (j n : Nat) (v r : View) : (s.setView j n v r).agenda = s.agenda := rfl
@[simp] theorem State.setView_focus (j n : Nat) (v r : View) : (s.setView j n v r).focus = s.focus := rfl
@[simp] theorem State.setView_freeCtr (j n : Nat) (v r : View) : (s.setView j n v r).freeCtr = s.freeCtr := rfl
@[simp] theorem State.setView_livedies (j n : Nat) (v r : View) : (s.setView j n v r).livedies = s.livedies := rfl
@[simp] theorem State.setView_igroups (j n : Nat) (v r : View) : (s.setView j n v r).igroups = s.igroups := rfl
@[simp] theorem State.setView_mem (j n : Nat) (v r : View) : (s.setView j n v r).mem = s.mem := rfl
@[simp] theorem State.setView_history (j n : Nat) (v r : View) : (s.setView j n v r).history = s.history := rfl
@[simp] theorem State.setView_homeClock (j n : Nat) (v r : View) : (s.setView j n v r).homeClock = s.homeClock := rfl
@[simp] theorem State.setView_refused (j n : Nat) (v r : View) : (s.setView j n v r).refused = s.refused := rfl
@[simp] theorem State.setView_releases (j n : Nat) (v r : View) : (s.setView j n v r).releases = s.releases := rfl
@[simp] theorem State.setView_words (j n : Nat) (v r : View) : (s.setView j n v r).words = s.words := rfl
@[simp] theorem State.setView_phases (j n : Nat) (v r : View) : (s.setView j n v r).phases = s.phases := rfl
@[simp] theorem State.setView_staffs (j n : Nat) (v r : View) : (s.setView j n v r).staffs = s.staffs := rfl
@[simp] theorem State.setView_slots (j n : Nat) (v r : View) : (s.setView j n v r).slots = s.slots := rfl
@[simp] theorem State.setView_pubs (j n : Nat) (v r : View) : (s.setView j n v r).pubs = s.pubs := rfl
@[simp] theorem State.setView_transit (j n : Nat) (v r : View) : (s.setView j n v r).transit = s.transit := rfl
@[simp] theorem State.setView_reductions (j n : Nat) (v r : View) : (s.setView j n v r).reductions = s.reductions := rfl
@[simp] theorem State.setView_tasks (j n : Nat) (v r : View) : (s.setView j n v r).tasks = s.tasks := rfl
@[simp] theorem State.setView_ctxs (j n : Nat) (v r : View) : (s.setView j n v r).ctxs = s.ctxs := rfl
@[simp] theorem State.setView_barriers (j n : Nat) (v r : View) : (s.setView j n v r).barriers = s.barriers := rfl
@[simp] theorem State.setView_queues (j n : Nat) (v r : View) : (s.setView j n v r).queues = s.queues := rfl
@[simp] theorem State.setView_txruns (j n : Nat) (v r : View) : (s.setView j n v r).txruns = s.txruns := rfl
@[simp] theorem State.setView_colls (j n : Nat) (v r : View) : (s.setView j n v r).colls = s.colls := rfl
@[simp] theorem State.setView_regions (j n : Nat) (v r : View) : (s.setView j n v r).regions = s.regions := rfl
@[simp] theorem State.setView_snaps (j n : Nat) (v r : View) : (s.setView j n v r).snaps = s.snaps := rfl
@[simp] theorem State.setView_jobs (j n : Nat) (v r : View) : (s.setView j n v r).jobs = s.jobs := rfl
@[simp] theorem State.setView_endWords (j n : Nat) (v r : View) : (s.setView j n v r).endWords = s.endWords := rfl
@[simp] theorem State.setView_ports (j n : Nat) (v r : View) : (s.setView j n v r).ports = s.ports := rfl
@[simp] theorem State.setView_sems (j n : Nat) (v r : View) : (s.setView j n v r).sems = s.sems := rfl
@[simp] theorem State.setView_windows (j n : Nat) (v r : View) : (s.setView j n v r).windows = s.windows := rfl
@[simp] theorem State.setView_dies (j n : Nat) (v r : View) : (s.setView j n v r).dies = s.dies := rfl
@[simp] theorem State.setView_links (j n : Nat) (v r : View) : (s.setView j n v r).links = s.links := rfl
@[simp] theorem State.setView_depot (j n : Nat) (v r : View) : (s.setView j n v r).depot = s.depot := rfl
@[simp] theorem State.setView_bringUp (j n : Nat) (v r : View) : (s.setView j n v r).bringUp = s.bringUp := rfl
@[simp] theorem State.setView_moving (j n : Nat) (v r : View) : (s.setView j n v r).moving = s.moving := rfl
@[simp] theorem State.setView_badBytes (j n : Nat) (v r : View) : (s.setView j n v r).badBytes = s.badBytes := rfl
@[simp] theorem State.setView_missed (j n : Nat) (v r : View) : (s.setView j n v r).missed = s.missed := rfl

/-! ### `setBerth` -/

@[simp] theorem State.setBerth_agenda (d : Nat) (b : Berth) : (s.setBerth d b).agenda = s.agenda := rfl
@[simp] theorem State.setBerth_focus (d : Nat) (b : Berth) : (s.setBerth d b).focus = s.focus := rfl
@[simp] theorem State.setBerth_freeCtr (d : Nat) (b : Berth) : (s.setBerth d b).freeCtr = s.freeCtr := rfl
@[simp] theorem State.setBerth_livedies (d : Nat) (b : Berth) : (s.setBerth d b).livedies = s.livedies := rfl
@[simp] theorem State.setBerth_igroups (d : Nat) (b : Berth) : (s.setBerth d b).igroups = s.igroups := rfl
@[simp] theorem State.setBerth_mem (d : Nat) (b : Berth) : (s.setBerth d b).mem = s.mem := rfl
@[simp] theorem State.setBerth_history (d : Nat) (b : Berth) : (s.setBerth d b).history = s.history := rfl
@[simp] theorem State.setBerth_homeClock (d : Nat) (b : Berth) : (s.setBerth d b).homeClock = s.homeClock := rfl
@[simp] theorem State.setBerth_refused (d : Nat) (b : Berth) : (s.setBerth d b).refused = s.refused := rfl
@[simp] theorem State.setBerth_releases (d : Nat) (b : Berth) : (s.setBerth d b).releases = s.releases := rfl
@[simp] theorem State.setBerth_views (d : Nat) (b : Berth) : (s.setBerth d b).views = s.views := rfl
@[simp] theorem State.setBerth_words (d : Nat) (b : Berth) : (s.setBerth d b).words = s.words := rfl
@[simp] theorem State.setBerth_phases (d : Nat) (b : Berth) : (s.setBerth d b).phases = s.phases := rfl
@[simp] theorem State.setBerth_staffs (d : Nat) (b : Berth) : (s.setBerth d b).staffs = s.staffs := rfl
@[simp] theorem State.setBerth_slots (d : Nat) (b : Berth) : (s.setBerth d b).slots = s.slots := rfl
@[simp] theorem State.setBerth_pubs (d : Nat) (b : Berth) : (s.setBerth d b).pubs = s.pubs := rfl
@[simp] theorem State.setBerth_transit (d : Nat) (b : Berth) : (s.setBerth d b).transit = s.transit := rfl
@[simp] theorem State.setBerth_reductions (d : Nat) (b : Berth) : (s.setBerth d b).reductions = s.reductions := rfl
@[simp] theorem State.setBerth_tasks (d : Nat) (b : Berth) : (s.setBerth d b).tasks = s.tasks := rfl
@[simp] theorem State.setBerth_ctxs (d : Nat) (b : Berth) : (s.setBerth d b).ctxs = s.ctxs := rfl
@[simp] theorem State.setBerth_barriers (d : Nat) (b : Berth) : (s.setBerth d b).barriers = s.barriers := rfl
@[simp] theorem State.setBerth_queues (d : Nat) (b : Berth) : (s.setBerth d b).queues = s.queues := rfl
@[simp] theorem State.setBerth_txruns (d : Nat) (b : Berth) : (s.setBerth d b).txruns = s.txruns := rfl
@[simp] theorem State.setBerth_colls (d : Nat) (b : Berth) : (s.setBerth d b).colls = s.colls := rfl
@[simp] theorem State.setBerth_regions (d : Nat) (b : Berth) : (s.setBerth d b).regions = s.regions := rfl
@[simp] theorem State.setBerth_snaps (d : Nat) (b : Berth) : (s.setBerth d b).snaps = s.snaps := rfl
@[simp] theorem State.setBerth_jobs (d : Nat) (b : Berth) : (s.setBerth d b).jobs = s.jobs := rfl
@[simp] theorem State.setBerth_endWords (d : Nat) (b : Berth) : (s.setBerth d b).endWords = s.endWords := rfl
@[simp] theorem State.setBerth_ports (d : Nat) (b : Berth) : (s.setBerth d b).ports = s.ports := rfl
@[simp] theorem State.setBerth_sems (d : Nat) (b : Berth) : (s.setBerth d b).sems = s.sems := rfl
@[simp] theorem State.setBerth_windows (d : Nat) (b : Berth) : (s.setBerth d b).windows = s.windows := rfl
@[simp] theorem State.setBerth_links (d : Nat) (b : Berth) : (s.setBerth d b).links = s.links := rfl
@[simp] theorem State.setBerth_depot (d : Nat) (b : Berth) : (s.setBerth d b).depot = s.depot := rfl
@[simp] theorem State.setBerth_bringUp (d : Nat) (b : Berth) : (s.setBerth d b).bringUp = s.bringUp := rfl
@[simp] theorem State.setBerth_moving (d : Nat) (b : Berth) : (s.setBerth d b).moving = s.moving := rfl
@[simp] theorem State.setBerth_badBytes (d : Nat) (b : Berth) : (s.setBerth d b).badBytes = s.badBytes := rfl
@[simp] theorem State.setBerth_missed (d : Nat) (b : Berth) : (s.setBerth d b).missed = s.missed := rfl

/-! ### `setAux` -/

@[simp] theorem State.setAux_agenda (t : TaskAux) : (s.setAux t).agenda = s.agenda := rfl
@[simp] theorem State.setAux_focus (t : TaskAux) : (s.setAux t).focus = s.focus := rfl
@[simp] theorem State.setAux_freeCtr (t : TaskAux) : (s.setAux t).freeCtr = s.freeCtr := rfl
@[simp] theorem State.setAux_livedies (t : TaskAux) : (s.setAux t).livedies = s.livedies := rfl
@[simp] theorem State.setAux_igroups (t : TaskAux) : (s.setAux t).igroups = s.igroups := rfl
@[simp] theorem State.setAux_mem (t : TaskAux) : (s.setAux t).mem = s.mem := rfl
@[simp] theorem State.setAux_history (t : TaskAux) : (s.setAux t).history = s.history := rfl
@[simp] theorem State.setAux_homeClock (t : TaskAux) : (s.setAux t).homeClock = s.homeClock := rfl
@[simp] theorem State.setAux_refused (t : TaskAux) : (s.setAux t).refused = s.refused := rfl
@[simp] theorem State.setAux_releases (t : TaskAux) : (s.setAux t).releases = s.releases := rfl
@[simp] theorem State.setAux_views (t : TaskAux) : (s.setAux t).views = s.views := rfl
@[simp] theorem State.setAux_words (t : TaskAux) : (s.setAux t).words = s.words := rfl
@[simp] theorem State.setAux_phases (t : TaskAux) : (s.setAux t).phases = s.phases := rfl
@[simp] theorem State.setAux_staffs (t : TaskAux) : (s.setAux t).staffs = s.staffs := rfl
@[simp] theorem State.setAux_slots (t : TaskAux) : (s.setAux t).slots = s.slots := rfl
@[simp] theorem State.setAux_pubs (t : TaskAux) : (s.setAux t).pubs = s.pubs := rfl
@[simp] theorem State.setAux_transit (t : TaskAux) : (s.setAux t).transit = s.transit := rfl
@[simp] theorem State.setAux_reductions (t : TaskAux) : (s.setAux t).reductions = s.reductions := rfl
@[simp] theorem State.setAux_ctxs (t : TaskAux) : (s.setAux t).ctxs = s.ctxs := rfl
@[simp] theorem State.setAux_barriers (t : TaskAux) : (s.setAux t).barriers = s.barriers := rfl
@[simp] theorem State.setAux_queues (t : TaskAux) : (s.setAux t).queues = s.queues := rfl
@[simp] theorem State.setAux_txruns (t : TaskAux) : (s.setAux t).txruns = s.txruns := rfl
@[simp] theorem State.setAux_colls (t : TaskAux) : (s.setAux t).colls = s.colls := rfl
@[simp] theorem State.setAux_regions (t : TaskAux) : (s.setAux t).regions = s.regions := rfl
@[simp] theorem State.setAux_snaps (t : TaskAux) : (s.setAux t).snaps = s.snaps := rfl
@[simp] theorem State.setAux_jobs (t : TaskAux) : (s.setAux t).jobs = s.jobs := rfl
@[simp] theorem State.setAux_endWords (t : TaskAux) : (s.setAux t).endWords = s.endWords := rfl
@[simp] theorem State.setAux_ports (t : TaskAux) : (s.setAux t).ports = s.ports := rfl
@[simp] theorem State.setAux_sems (t : TaskAux) : (s.setAux t).sems = s.sems := rfl
@[simp] theorem State.setAux_windows (t : TaskAux) : (s.setAux t).windows = s.windows := rfl
@[simp] theorem State.setAux_dies (t : TaskAux) : (s.setAux t).dies = s.dies := rfl
@[simp] theorem State.setAux_links (t : TaskAux) : (s.setAux t).links = s.links := rfl
@[simp] theorem State.setAux_depot (t : TaskAux) : (s.setAux t).depot = s.depot := rfl
@[simp] theorem State.setAux_bringUp (t : TaskAux) : (s.setAux t).bringUp = s.bringUp := rfl
@[simp] theorem State.setAux_moving (t : TaskAux) : (s.setAux t).moving = s.moving := rfl
@[simp] theorem State.setAux_badBytes (t : TaskAux) : (s.setAux t).badBytes = s.badBytes := rfl
@[simp] theorem State.setAux_missed (t : TaskAux) : (s.setAux t).missed = s.missed := rfl

/-! ### `setCtx` -/

@[simp] theorem State.setCtx_agenda (c : Ctx) : (s.setCtx c).agenda = s.agenda := rfl
@[simp] theorem State.setCtx_focus (c : Ctx) : (s.setCtx c).focus = s.focus := rfl
@[simp] theorem State.setCtx_freeCtr (c : Ctx) : (s.setCtx c).freeCtr = s.freeCtr := rfl
@[simp] theorem State.setCtx_livedies (c : Ctx) : (s.setCtx c).livedies = s.livedies := rfl
@[simp] theorem State.setCtx_igroups (c : Ctx) : (s.setCtx c).igroups = s.igroups := rfl
@[simp] theorem State.setCtx_mem (c : Ctx) : (s.setCtx c).mem = s.mem := rfl
@[simp] theorem State.setCtx_history (c : Ctx) : (s.setCtx c).history = s.history := rfl
@[simp] theorem State.setCtx_homeClock (c : Ctx) : (s.setCtx c).homeClock = s.homeClock := rfl
@[simp] theorem State.setCtx_refused (c : Ctx) : (s.setCtx c).refused = s.refused := rfl
@[simp] theorem State.setCtx_releases (c : Ctx) : (s.setCtx c).releases = s.releases := rfl
@[simp] theorem State.setCtx_views (c : Ctx) : (s.setCtx c).views = s.views := rfl
@[simp] theorem State.setCtx_words (c : Ctx) : (s.setCtx c).words = s.words := rfl
@[simp] theorem State.setCtx_phases (c : Ctx) : (s.setCtx c).phases = s.phases := rfl
@[simp] theorem State.setCtx_staffs (c : Ctx) : (s.setCtx c).staffs = s.staffs := rfl
@[simp] theorem State.setCtx_slots (c : Ctx) : (s.setCtx c).slots = s.slots := rfl
@[simp] theorem State.setCtx_pubs (c : Ctx) : (s.setCtx c).pubs = s.pubs := rfl
@[simp] theorem State.setCtx_transit (c : Ctx) : (s.setCtx c).transit = s.transit := rfl
@[simp] theorem State.setCtx_reductions (c : Ctx) : (s.setCtx c).reductions = s.reductions := rfl
@[simp] theorem State.setCtx_tasks (c : Ctx) : (s.setCtx c).tasks = s.tasks := rfl
@[simp] theorem State.setCtx_barriers (c : Ctx) : (s.setCtx c).barriers = s.barriers := rfl
@[simp] theorem State.setCtx_queues (c : Ctx) : (s.setCtx c).queues = s.queues := rfl
@[simp] theorem State.setCtx_txruns (c : Ctx) : (s.setCtx c).txruns = s.txruns := rfl
@[simp] theorem State.setCtx_colls (c : Ctx) : (s.setCtx c).colls = s.colls := rfl
@[simp] theorem State.setCtx_regions (c : Ctx) : (s.setCtx c).regions = s.regions := rfl
@[simp] theorem State.setCtx_snaps (c : Ctx) : (s.setCtx c).snaps = s.snaps := rfl
@[simp] theorem State.setCtx_jobs (c : Ctx) : (s.setCtx c).jobs = s.jobs := rfl
@[simp] theorem State.setCtx_endWords (c : Ctx) : (s.setCtx c).endWords = s.endWords := rfl
@[simp] theorem State.setCtx_ports (c : Ctx) : (s.setCtx c).ports = s.ports := rfl
@[simp] theorem State.setCtx_sems (c : Ctx) : (s.setCtx c).sems = s.sems := rfl
@[simp] theorem State.setCtx_windows (c : Ctx) : (s.setCtx c).windows = s.windows := rfl
@[simp] theorem State.setCtx_dies (c : Ctx) : (s.setCtx c).dies = s.dies := rfl
@[simp] theorem State.setCtx_links (c : Ctx) : (s.setCtx c).links = s.links := rfl
@[simp] theorem State.setCtx_depot (c : Ctx) : (s.setCtx c).depot = s.depot := rfl
@[simp] theorem State.setCtx_bringUp (c : Ctx) : (s.setCtx c).bringUp = s.bringUp := rfl
@[simp] theorem State.setCtx_moving (c : Ctx) : (s.setCtx c).moving = s.moving := rfl
@[simp] theorem State.setCtx_badBytes (c : Ctx) : (s.setCtx c).badBytes = s.badBytes := rfl
@[simp] theorem State.setCtx_missed (c : Ctx) : (s.setCtx c).missed = s.missed := rfl

/-! ### `dropCtx` -/

@[simp] theorem State.dropCtx_agenda (c : Ctx) : (s.dropCtx c).agenda = s.agenda := rfl
@[simp] theorem State.dropCtx_focus (c : Ctx) : (s.dropCtx c).focus = s.focus := rfl
@[simp] theorem State.dropCtx_freeCtr (c : Ctx) : (s.dropCtx c).freeCtr = s.freeCtr := rfl
@[simp] theorem State.dropCtx_livedies (c : Ctx) : (s.dropCtx c).livedies = s.livedies := rfl
@[simp] theorem State.dropCtx_igroups (c : Ctx) : (s.dropCtx c).igroups = s.igroups := rfl
@[simp] theorem State.dropCtx_mem (c : Ctx) : (s.dropCtx c).mem = s.mem := rfl
@[simp] theorem State.dropCtx_history (c : Ctx) : (s.dropCtx c).history = s.history := rfl
@[simp] theorem State.dropCtx_homeClock (c : Ctx) : (s.dropCtx c).homeClock = s.homeClock := rfl
@[simp] theorem State.dropCtx_refused (c : Ctx) : (s.dropCtx c).refused = s.refused := rfl
@[simp] theorem State.dropCtx_releases (c : Ctx) : (s.dropCtx c).releases = s.releases := rfl
@[simp] theorem State.dropCtx_views (c : Ctx) : (s.dropCtx c).views = s.views := rfl
@[simp] theorem State.dropCtx_words (c : Ctx) : (s.dropCtx c).words = s.words := rfl
@[simp] theorem State.dropCtx_phases (c : Ctx) : (s.dropCtx c).phases = s.phases := rfl
@[simp] theorem State.dropCtx_staffs (c : Ctx) : (s.dropCtx c).staffs = s.staffs := rfl
@[simp] theorem State.dropCtx_slots (c : Ctx) : (s.dropCtx c).slots = s.slots := rfl
@[simp] theorem State.dropCtx_pubs (c : Ctx) : (s.dropCtx c).pubs = s.pubs := rfl
@[simp] theorem State.dropCtx_transit (c : Ctx) : (s.dropCtx c).transit = s.transit := rfl
@[simp] theorem State.dropCtx_reductions (c : Ctx) : (s.dropCtx c).reductions = s.reductions := rfl
@[simp] theorem State.dropCtx_tasks (c : Ctx) : (s.dropCtx c).tasks = s.tasks := rfl
@[simp] theorem State.dropCtx_barriers (c : Ctx) : (s.dropCtx c).barriers = s.barriers := rfl
@[simp] theorem State.dropCtx_queues (c : Ctx) : (s.dropCtx c).queues = s.queues := rfl
@[simp] theorem State.dropCtx_txruns (c : Ctx) : (s.dropCtx c).txruns = s.txruns := rfl
@[simp] theorem State.dropCtx_colls (c : Ctx) : (s.dropCtx c).colls = s.colls := rfl
@[simp] theorem State.dropCtx_regions (c : Ctx) : (s.dropCtx c).regions = s.regions := rfl
@[simp] theorem State.dropCtx_snaps (c : Ctx) : (s.dropCtx c).snaps = s.snaps := rfl
@[simp] theorem State.dropCtx_jobs (c : Ctx) : (s.dropCtx c).jobs = s.jobs := rfl
@[simp] theorem State.dropCtx_endWords (c : Ctx) : (s.dropCtx c).endWords = s.endWords := rfl
@[simp] theorem State.dropCtx_ports (c : Ctx) : (s.dropCtx c).ports = s.ports := rfl
@[simp] theorem State.dropCtx_sems (c : Ctx) : (s.dropCtx c).sems = s.sems := rfl
@[simp] theorem State.dropCtx_windows (c : Ctx) : (s.dropCtx c).windows = s.windows := rfl
@[simp] theorem State.dropCtx_dies (c : Ctx) : (s.dropCtx c).dies = s.dies := rfl
@[simp] theorem State.dropCtx_links (c : Ctx) : (s.dropCtx c).links = s.links := rfl
@[simp] theorem State.dropCtx_depot (c : Ctx) : (s.dropCtx c).depot = s.depot := rfl
@[simp] theorem State.dropCtx_bringUp (c : Ctx) : (s.dropCtx c).bringUp = s.bringUp := rfl
@[simp] theorem State.dropCtx_moving (c : Ctx) : (s.dropCtx c).moving = s.moving := rfl
@[simp] theorem State.dropCtx_badBytes (c : Ctx) : (s.dropCtx c).badBytes = s.badBytes := rfl
@[simp] theorem State.dropCtx_missed (c : Ctx) : (s.dropCtx c).missed = s.missed := rfl

/-! ### `setQueue` -/

@[simp] theorem State.setQueue_agenda (x : Queue) : (s.setQueue x).agenda = s.agenda := rfl
@[simp] theorem State.setQueue_focus (x : Queue) : (s.setQueue x).focus = s.focus := rfl
@[simp] theorem State.setQueue_freeCtr (x : Queue) : (s.setQueue x).freeCtr = s.freeCtr := rfl
@[simp] theorem State.setQueue_livedies (x : Queue) : (s.setQueue x).livedies = s.livedies := rfl
@[simp] theorem State.setQueue_igroups (x : Queue) : (s.setQueue x).igroups = s.igroups := rfl
@[simp] theorem State.setQueue_mem (x : Queue) : (s.setQueue x).mem = s.mem := rfl
@[simp] theorem State.setQueue_history (x : Queue) : (s.setQueue x).history = s.history := rfl
@[simp] theorem State.setQueue_homeClock (x : Queue) : (s.setQueue x).homeClock = s.homeClock := rfl
@[simp] theorem State.setQueue_refused (x : Queue) : (s.setQueue x).refused = s.refused := rfl
@[simp] theorem State.setQueue_releases (x : Queue) : (s.setQueue x).releases = s.releases := rfl
@[simp] theorem State.setQueue_views (x : Queue) : (s.setQueue x).views = s.views := rfl
@[simp] theorem State.setQueue_words (x : Queue) : (s.setQueue x).words = s.words := rfl
@[simp] theorem State.setQueue_phases (x : Queue) : (s.setQueue x).phases = s.phases := rfl
@[simp] theorem State.setQueue_staffs (x : Queue) : (s.setQueue x).staffs = s.staffs := rfl
@[simp] theorem State.setQueue_slots (x : Queue) : (s.setQueue x).slots = s.slots := rfl
@[simp] theorem State.setQueue_pubs (x : Queue) : (s.setQueue x).pubs = s.pubs := rfl
@[simp] theorem State.setQueue_transit (x : Queue) : (s.setQueue x).transit = s.transit := rfl
@[simp] theorem State.setQueue_reductions (x : Queue) : (s.setQueue x).reductions = s.reductions := rfl
@[simp] theorem State.setQueue_tasks (x : Queue) : (s.setQueue x).tasks = s.tasks := rfl
@[simp] theorem State.setQueue_ctxs (x : Queue) : (s.setQueue x).ctxs = s.ctxs := rfl
@[simp] theorem State.setQueue_barriers (x : Queue) : (s.setQueue x).barriers = s.barriers := rfl
@[simp] theorem State.setQueue_txruns (x : Queue) : (s.setQueue x).txruns = s.txruns := rfl
@[simp] theorem State.setQueue_colls (x : Queue) : (s.setQueue x).colls = s.colls := rfl
@[simp] theorem State.setQueue_regions (x : Queue) : (s.setQueue x).regions = s.regions := rfl
@[simp] theorem State.setQueue_snaps (x : Queue) : (s.setQueue x).snaps = s.snaps := rfl
@[simp] theorem State.setQueue_jobs (x : Queue) : (s.setQueue x).jobs = s.jobs := rfl
@[simp] theorem State.setQueue_endWords (x : Queue) : (s.setQueue x).endWords = s.endWords := rfl
@[simp] theorem State.setQueue_ports (x : Queue) : (s.setQueue x).ports = s.ports := rfl
@[simp] theorem State.setQueue_sems (x : Queue) : (s.setQueue x).sems = s.sems := rfl
@[simp] theorem State.setQueue_windows (x : Queue) : (s.setQueue x).windows = s.windows := rfl
@[simp] theorem State.setQueue_dies (x : Queue) : (s.setQueue x).dies = s.dies := rfl
@[simp] theorem State.setQueue_links (x : Queue) : (s.setQueue x).links = s.links := rfl
@[simp] theorem State.setQueue_depot (x : Queue) : (s.setQueue x).depot = s.depot := rfl
@[simp] theorem State.setQueue_bringUp (x : Queue) : (s.setQueue x).bringUp = s.bringUp := rfl
@[simp] theorem State.setQueue_moving (x : Queue) : (s.setQueue x).moving = s.moving := rfl
@[simp] theorem State.setQueue_badBytes (x : Queue) : (s.setQueue x).badBytes = s.badBytes := rfl
@[simp] theorem State.setQueue_missed (x : Queue) : (s.setQueue x).missed = s.missed := rfl

/-! ### `setCmd` -/

@[simp] theorem State.setCmd_agenda (j q : Nat) (c : Cmd) : (s.setCmd j q c).agenda = s.agenda := rfl
@[simp] theorem State.setCmd_focus (j q : Nat) (c : Cmd) : (s.setCmd j q c).focus = s.focus := rfl
@[simp] theorem State.setCmd_freeCtr (j q : Nat) (c : Cmd) : (s.setCmd j q c).freeCtr = s.freeCtr := rfl
@[simp] theorem State.setCmd_livedies (j q : Nat) (c : Cmd) : (s.setCmd j q c).livedies = s.livedies := rfl
@[simp] theorem State.setCmd_igroups (j q : Nat) (c : Cmd) : (s.setCmd j q c).igroups = s.igroups := rfl
@[simp] theorem State.setCmd_mem (j q : Nat) (c : Cmd) : (s.setCmd j q c).mem = s.mem := rfl
@[simp] theorem State.setCmd_history (j q : Nat) (c : Cmd) : (s.setCmd j q c).history = s.history := rfl
@[simp] theorem State.setCmd_homeClock (j q : Nat) (c : Cmd) : (s.setCmd j q c).homeClock = s.homeClock := rfl
@[simp] theorem State.setCmd_refused (j q : Nat) (c : Cmd) : (s.setCmd j q c).refused = s.refused := rfl
@[simp] theorem State.setCmd_releases (j q : Nat) (c : Cmd) : (s.setCmd j q c).releases = s.releases := rfl
@[simp] theorem State.setCmd_views (j q : Nat) (c : Cmd) : (s.setCmd j q c).views = s.views := rfl
@[simp] theorem State.setCmd_words (j q : Nat) (c : Cmd) : (s.setCmd j q c).words = s.words := rfl
@[simp] theorem State.setCmd_phases (j q : Nat) (c : Cmd) : (s.setCmd j q c).phases = s.phases := rfl
@[simp] theorem State.setCmd_staffs (j q : Nat) (c : Cmd) : (s.setCmd j q c).staffs = s.staffs := rfl
@[simp] theorem State.setCmd_slots (j q : Nat) (c : Cmd) : (s.setCmd j q c).slots = s.slots := rfl
@[simp] theorem State.setCmd_pubs (j q : Nat) (c : Cmd) : (s.setCmd j q c).pubs = s.pubs := rfl
@[simp] theorem State.setCmd_transit (j q : Nat) (c : Cmd) : (s.setCmd j q c).transit = s.transit := rfl
@[simp] theorem State.setCmd_reductions (j q : Nat) (c : Cmd) : (s.setCmd j q c).reductions = s.reductions := rfl
@[simp] theorem State.setCmd_tasks (j q : Nat) (c : Cmd) : (s.setCmd j q c).tasks = s.tasks := rfl
@[simp] theorem State.setCmd_ctxs (j q : Nat) (c : Cmd) : (s.setCmd j q c).ctxs = s.ctxs := rfl
@[simp] theorem State.setCmd_barriers (j q : Nat) (c : Cmd) : (s.setCmd j q c).barriers = s.barriers := rfl
@[simp] theorem State.setCmd_txruns (j q : Nat) (c : Cmd) : (s.setCmd j q c).txruns = s.txruns := rfl
@[simp] theorem State.setCmd_colls (j q : Nat) (c : Cmd) : (s.setCmd j q c).colls = s.colls := rfl
@[simp] theorem State.setCmd_regions (j q : Nat) (c : Cmd) : (s.setCmd j q c).regions = s.regions := rfl
@[simp] theorem State.setCmd_snaps (j q : Nat) (c : Cmd) : (s.setCmd j q c).snaps = s.snaps := rfl
@[simp] theorem State.setCmd_jobs (j q : Nat) (c : Cmd) : (s.setCmd j q c).jobs = s.jobs := rfl
@[simp] theorem State.setCmd_endWords (j q : Nat) (c : Cmd) : (s.setCmd j q c).endWords = s.endWords := rfl
@[simp] theorem State.setCmd_ports (j q : Nat) (c : Cmd) : (s.setCmd j q c).ports = s.ports := rfl
@[simp] theorem State.setCmd_sems (j q : Nat) (c : Cmd) : (s.setCmd j q c).sems = s.sems := rfl
@[simp] theorem State.setCmd_windows (j q : Nat) (c : Cmd) : (s.setCmd j q c).windows = s.windows := rfl
@[simp] theorem State.setCmd_dies (j q : Nat) (c : Cmd) : (s.setCmd j q c).dies = s.dies := rfl
@[simp] theorem State.setCmd_links (j q : Nat) (c : Cmd) : (s.setCmd j q c).links = s.links := rfl
@[simp] theorem State.setCmd_depot (j q : Nat) (c : Cmd) : (s.setCmd j q c).depot = s.depot := rfl
@[simp] theorem State.setCmd_bringUp (j q : Nat) (c : Cmd) : (s.setCmd j q c).bringUp = s.bringUp := rfl
@[simp] theorem State.setCmd_moving (j q : Nat) (c : Cmd) : (s.setCmd j q c).moving = s.moving := rfl
@[simp] theorem State.setCmd_badBytes (j q : Nat) (c : Cmd) : (s.setCmd j q c).badBytes = s.badBytes := rfl
@[simp] theorem State.setCmd_missed (j q : Nat) (c : Cmd) : (s.setCmd j q c).missed = s.missed := rfl

/-! ### `setRegion` -/

@[simp] theorem State.setRegion_agenda (r : Region) : (s.setRegion r).agenda = s.agenda := rfl
@[simp] theorem State.setRegion_focus (r : Region) : (s.setRegion r).focus = s.focus := rfl
@[simp] theorem State.setRegion_freeCtr (r : Region) : (s.setRegion r).freeCtr = s.freeCtr := rfl
@[simp] theorem State.setRegion_livedies (r : Region) : (s.setRegion r).livedies = s.livedies := rfl
@[simp] theorem State.setRegion_igroups (r : Region) : (s.setRegion r).igroups = s.igroups := rfl
@[simp] theorem State.setRegion_mem (r : Region) : (s.setRegion r).mem = s.mem := rfl
@[simp] theorem State.setRegion_history (r : Region) : (s.setRegion r).history = s.history := rfl
@[simp] theorem State.setRegion_homeClock (r : Region) : (s.setRegion r).homeClock = s.homeClock := rfl
@[simp] theorem State.setRegion_refused (r : Region) : (s.setRegion r).refused = s.refused := rfl
@[simp] theorem State.setRegion_releases (r : Region) : (s.setRegion r).releases = s.releases := rfl
@[simp] theorem State.setRegion_views (r : Region) : (s.setRegion r).views = s.views := rfl
@[simp] theorem State.setRegion_words (r : Region) : (s.setRegion r).words = s.words := rfl
@[simp] theorem State.setRegion_phases (r : Region) : (s.setRegion r).phases = s.phases := rfl
@[simp] theorem State.setRegion_staffs (r : Region) : (s.setRegion r).staffs = s.staffs := rfl
@[simp] theorem State.setRegion_slots (r : Region) : (s.setRegion r).slots = s.slots := rfl
@[simp] theorem State.setRegion_pubs (r : Region) : (s.setRegion r).pubs = s.pubs := rfl
@[simp] theorem State.setRegion_transit (r : Region) : (s.setRegion r).transit = s.transit := rfl
@[simp] theorem State.setRegion_reductions (r : Region) : (s.setRegion r).reductions = s.reductions := rfl
@[simp] theorem State.setRegion_tasks (r : Region) : (s.setRegion r).tasks = s.tasks := rfl
@[simp] theorem State.setRegion_ctxs (r : Region) : (s.setRegion r).ctxs = s.ctxs := rfl
@[simp] theorem State.setRegion_barriers (r : Region) : (s.setRegion r).barriers = s.barriers := rfl
@[simp] theorem State.setRegion_queues (r : Region) : (s.setRegion r).queues = s.queues := rfl
@[simp] theorem State.setRegion_txruns (r : Region) : (s.setRegion r).txruns = s.txruns := rfl
@[simp] theorem State.setRegion_colls (r : Region) : (s.setRegion r).colls = s.colls := rfl
@[simp] theorem State.setRegion_snaps (r : Region) : (s.setRegion r).snaps = s.snaps := rfl
@[simp] theorem State.setRegion_jobs (r : Region) : (s.setRegion r).jobs = s.jobs := rfl
@[simp] theorem State.setRegion_endWords (r : Region) : (s.setRegion r).endWords = s.endWords := rfl
@[simp] theorem State.setRegion_ports (r : Region) : (s.setRegion r).ports = s.ports := rfl
@[simp] theorem State.setRegion_sems (r : Region) : (s.setRegion r).sems = s.sems := rfl
@[simp] theorem State.setRegion_windows (r : Region) : (s.setRegion r).windows = s.windows := rfl
@[simp] theorem State.setRegion_dies (r : Region) : (s.setRegion r).dies = s.dies := rfl
@[simp] theorem State.setRegion_links (r : Region) : (s.setRegion r).links = s.links := rfl
@[simp] theorem State.setRegion_depot (r : Region) : (s.setRegion r).depot = s.depot := rfl
@[simp] theorem State.setRegion_bringUp (r : Region) : (s.setRegion r).bringUp = s.bringUp := rfl
@[simp] theorem State.setRegion_moving (r : Region) : (s.setRegion r).moving = s.moving := rfl
@[simp] theorem State.setRegion_badBytes (r : Region) : (s.setRegion r).badBytes = s.badBytes := rfl
@[simp] theorem State.setRegion_missed (r : Region) : (s.setRegion r).missed = s.missed := rfl

/-! ### `dropRegion` -/

@[simp] theorem State.dropRegion_agenda (j v : Nat) : (s.dropRegion j v).agenda = s.agenda := rfl
@[simp] theorem State.dropRegion_focus (j v : Nat) : (s.dropRegion j v).focus = s.focus := rfl
@[simp] theorem State.dropRegion_freeCtr (j v : Nat) : (s.dropRegion j v).freeCtr = s.freeCtr := rfl
@[simp] theorem State.dropRegion_livedies (j v : Nat) : (s.dropRegion j v).livedies = s.livedies := rfl
@[simp] theorem State.dropRegion_igroups (j v : Nat) : (s.dropRegion j v).igroups = s.igroups := rfl
@[simp] theorem State.dropRegion_mem (j v : Nat) : (s.dropRegion j v).mem = s.mem := rfl
@[simp] theorem State.dropRegion_history (j v : Nat) : (s.dropRegion j v).history = s.history := rfl
@[simp] theorem State.dropRegion_homeClock (j v : Nat) : (s.dropRegion j v).homeClock = s.homeClock := rfl
@[simp] theorem State.dropRegion_refused (j v : Nat) : (s.dropRegion j v).refused = s.refused := rfl
@[simp] theorem State.dropRegion_releases (j v : Nat) : (s.dropRegion j v).releases = s.releases := rfl
@[simp] theorem State.dropRegion_views (j v : Nat) : (s.dropRegion j v).views = s.views := rfl
@[simp] theorem State.dropRegion_words (j v : Nat) : (s.dropRegion j v).words = s.words := rfl
@[simp] theorem State.dropRegion_phases (j v : Nat) : (s.dropRegion j v).phases = s.phases := rfl
@[simp] theorem State.dropRegion_staffs (j v : Nat) : (s.dropRegion j v).staffs = s.staffs := rfl
@[simp] theorem State.dropRegion_slots (j v : Nat) : (s.dropRegion j v).slots = s.slots := rfl
@[simp] theorem State.dropRegion_pubs (j v : Nat) : (s.dropRegion j v).pubs = s.pubs := rfl
@[simp] theorem State.dropRegion_transit (j v : Nat) : (s.dropRegion j v).transit = s.transit := rfl
@[simp] theorem State.dropRegion_reductions (j v : Nat) : (s.dropRegion j v).reductions = s.reductions := rfl
@[simp] theorem State.dropRegion_tasks (j v : Nat) : (s.dropRegion j v).tasks = s.tasks := rfl
@[simp] theorem State.dropRegion_ctxs (j v : Nat) : (s.dropRegion j v).ctxs = s.ctxs := rfl
@[simp] theorem State.dropRegion_barriers (j v : Nat) : (s.dropRegion j v).barriers = s.barriers := rfl
@[simp] theorem State.dropRegion_queues (j v : Nat) : (s.dropRegion j v).queues = s.queues := rfl
@[simp] theorem State.dropRegion_txruns (j v : Nat) : (s.dropRegion j v).txruns = s.txruns := rfl
@[simp] theorem State.dropRegion_colls (j v : Nat) : (s.dropRegion j v).colls = s.colls := rfl
@[simp] theorem State.dropRegion_snaps (j v : Nat) : (s.dropRegion j v).snaps = s.snaps := rfl
@[simp] theorem State.dropRegion_jobs (j v : Nat) : (s.dropRegion j v).jobs = s.jobs := rfl
@[simp] theorem State.dropRegion_endWords (j v : Nat) : (s.dropRegion j v).endWords = s.endWords := rfl
@[simp] theorem State.dropRegion_ports (j v : Nat) : (s.dropRegion j v).ports = s.ports := rfl
@[simp] theorem State.dropRegion_sems (j v : Nat) : (s.dropRegion j v).sems = s.sems := rfl
@[simp] theorem State.dropRegion_windows (j v : Nat) : (s.dropRegion j v).windows = s.windows := rfl
@[simp] theorem State.dropRegion_dies (j v : Nat) : (s.dropRegion j v).dies = s.dies := rfl
@[simp] theorem State.dropRegion_links (j v : Nat) : (s.dropRegion j v).links = s.links := rfl
@[simp] theorem State.dropRegion_depot (j v : Nat) : (s.dropRegion j v).depot = s.depot := rfl
@[simp] theorem State.dropRegion_bringUp (j v : Nat) : (s.dropRegion j v).bringUp = s.bringUp := rfl
@[simp] theorem State.dropRegion_moving (j v : Nat) : (s.dropRegion j v).moving = s.moving := rfl
@[simp] theorem State.dropRegion_badBytes (j v : Nat) : (s.dropRegion j v).badBytes = s.badBytes := rfl
@[simp] theorem State.dropRegion_missed (j v : Nat) : (s.dropRegion j v).missed = s.missed := rfl

/-! ### `setBarrier` -/

@[simp] theorem State.setBarrier_agenda (b : Barrier) : (s.setBarrier b).agenda = s.agenda := rfl
@[simp] theorem State.setBarrier_focus (b : Barrier) : (s.setBarrier b).focus = s.focus := rfl
@[simp] theorem State.setBarrier_freeCtr (b : Barrier) : (s.setBarrier b).freeCtr = s.freeCtr := rfl
@[simp] theorem State.setBarrier_livedies (b : Barrier) : (s.setBarrier b).livedies = s.livedies := rfl
@[simp] theorem State.setBarrier_igroups (b : Barrier) : (s.setBarrier b).igroups = s.igroups := rfl
@[simp] theorem State.setBarrier_mem (b : Barrier) : (s.setBarrier b).mem = s.mem := rfl
@[simp] theorem State.setBarrier_history (b : Barrier) : (s.setBarrier b).history = s.history := rfl
@[simp] theorem State.setBarrier_homeClock (b : Barrier) : (s.setBarrier b).homeClock = s.homeClock := rfl
@[simp] theorem State.setBarrier_refused (b : Barrier) : (s.setBarrier b).refused = s.refused := rfl
@[simp] theorem State.setBarrier_releases (b : Barrier) : (s.setBarrier b).releases = s.releases := rfl
@[simp] theorem State.setBarrier_views (b : Barrier) : (s.setBarrier b).views = s.views := rfl
@[simp] theorem State.setBarrier_words (b : Barrier) : (s.setBarrier b).words = s.words := rfl
@[simp] theorem State.setBarrier_phases (b : Barrier) : (s.setBarrier b).phases = s.phases := rfl
@[simp] theorem State.setBarrier_staffs (b : Barrier) : (s.setBarrier b).staffs = s.staffs := rfl
@[simp] theorem State.setBarrier_slots (b : Barrier) : (s.setBarrier b).slots = s.slots := rfl
@[simp] theorem State.setBarrier_pubs (b : Barrier) : (s.setBarrier b).pubs = s.pubs := rfl
@[simp] theorem State.setBarrier_transit (b : Barrier) : (s.setBarrier b).transit = s.transit := rfl
@[simp] theorem State.setBarrier_reductions (b : Barrier) : (s.setBarrier b).reductions = s.reductions := rfl
@[simp] theorem State.setBarrier_tasks (b : Barrier) : (s.setBarrier b).tasks = s.tasks := rfl
@[simp] theorem State.setBarrier_ctxs (b : Barrier) : (s.setBarrier b).ctxs = s.ctxs := rfl
@[simp] theorem State.setBarrier_queues (b : Barrier) : (s.setBarrier b).queues = s.queues := rfl
@[simp] theorem State.setBarrier_txruns (b : Barrier) : (s.setBarrier b).txruns = s.txruns := rfl
@[simp] theorem State.setBarrier_colls (b : Barrier) : (s.setBarrier b).colls = s.colls := rfl
@[simp] theorem State.setBarrier_regions (b : Barrier) : (s.setBarrier b).regions = s.regions := rfl
@[simp] theorem State.setBarrier_snaps (b : Barrier) : (s.setBarrier b).snaps = s.snaps := rfl
@[simp] theorem State.setBarrier_jobs (b : Barrier) : (s.setBarrier b).jobs = s.jobs := rfl
@[simp] theorem State.setBarrier_endWords (b : Barrier) : (s.setBarrier b).endWords = s.endWords := rfl
@[simp] theorem State.setBarrier_ports (b : Barrier) : (s.setBarrier b).ports = s.ports := rfl
@[simp] theorem State.setBarrier_sems (b : Barrier) : (s.setBarrier b).sems = s.sems := rfl
@[simp] theorem State.setBarrier_windows (b : Barrier) : (s.setBarrier b).windows = s.windows := rfl
@[simp] theorem State.setBarrier_dies (b : Barrier) : (s.setBarrier b).dies = s.dies := rfl
@[simp] theorem State.setBarrier_links (b : Barrier) : (s.setBarrier b).links = s.links := rfl
@[simp] theorem State.setBarrier_depot (b : Barrier) : (s.setBarrier b).depot = s.depot := rfl
@[simp] theorem State.setBarrier_bringUp (b : Barrier) : (s.setBarrier b).bringUp = s.bringUp := rfl
@[simp] theorem State.setBarrier_moving (b : Barrier) : (s.setBarrier b).moving = s.moving := rfl
@[simp] theorem State.setBarrier_badBytes (b : Barrier) : (s.setBarrier b).badBytes = s.badBytes := rfl
@[simp] theorem State.setBarrier_missed (b : Barrier) : (s.setBarrier b).missed = s.missed := rfl

/-! ### `setPhase` -/

@[simp] theorem State.setPhase_agenda (p : PhaseAt) : (s.setPhase p).agenda = s.agenda := rfl
@[simp] theorem State.setPhase_focus (p : PhaseAt) : (s.setPhase p).focus = s.focus := rfl
@[simp] theorem State.setPhase_freeCtr (p : PhaseAt) : (s.setPhase p).freeCtr = s.freeCtr := rfl
@[simp] theorem State.setPhase_livedies (p : PhaseAt) : (s.setPhase p).livedies = s.livedies := rfl
@[simp] theorem State.setPhase_igroups (p : PhaseAt) : (s.setPhase p).igroups = s.igroups := rfl
@[simp] theorem State.setPhase_mem (p : PhaseAt) : (s.setPhase p).mem = s.mem := rfl
@[simp] theorem State.setPhase_history (p : PhaseAt) : (s.setPhase p).history = s.history := rfl
@[simp] theorem State.setPhase_homeClock (p : PhaseAt) : (s.setPhase p).homeClock = s.homeClock := rfl
@[simp] theorem State.setPhase_refused (p : PhaseAt) : (s.setPhase p).refused = s.refused := rfl
@[simp] theorem State.setPhase_releases (p : PhaseAt) : (s.setPhase p).releases = s.releases := rfl
@[simp] theorem State.setPhase_views (p : PhaseAt) : (s.setPhase p).views = s.views := rfl
@[simp] theorem State.setPhase_words (p : PhaseAt) : (s.setPhase p).words = s.words := rfl
@[simp] theorem State.setPhase_staffs (p : PhaseAt) : (s.setPhase p).staffs = s.staffs := rfl
@[simp] theorem State.setPhase_slots (p : PhaseAt) : (s.setPhase p).slots = s.slots := rfl
@[simp] theorem State.setPhase_pubs (p : PhaseAt) : (s.setPhase p).pubs = s.pubs := rfl
@[simp] theorem State.setPhase_transit (p : PhaseAt) : (s.setPhase p).transit = s.transit := rfl
@[simp] theorem State.setPhase_reductions (p : PhaseAt) : (s.setPhase p).reductions = s.reductions := rfl
@[simp] theorem State.setPhase_tasks (p : PhaseAt) : (s.setPhase p).tasks = s.tasks := rfl
@[simp] theorem State.setPhase_ctxs (p : PhaseAt) : (s.setPhase p).ctxs = s.ctxs := rfl
@[simp] theorem State.setPhase_barriers (p : PhaseAt) : (s.setPhase p).barriers = s.barriers := rfl
@[simp] theorem State.setPhase_queues (p : PhaseAt) : (s.setPhase p).queues = s.queues := rfl
@[simp] theorem State.setPhase_txruns (p : PhaseAt) : (s.setPhase p).txruns = s.txruns := rfl
@[simp] theorem State.setPhase_colls (p : PhaseAt) : (s.setPhase p).colls = s.colls := rfl
@[simp] theorem State.setPhase_regions (p : PhaseAt) : (s.setPhase p).regions = s.regions := rfl
@[simp] theorem State.setPhase_snaps (p : PhaseAt) : (s.setPhase p).snaps = s.snaps := rfl
@[simp] theorem State.setPhase_jobs (p : PhaseAt) : (s.setPhase p).jobs = s.jobs := rfl
@[simp] theorem State.setPhase_endWords (p : PhaseAt) : (s.setPhase p).endWords = s.endWords := rfl
@[simp] theorem State.setPhase_ports (p : PhaseAt) : (s.setPhase p).ports = s.ports := rfl
@[simp] theorem State.setPhase_sems (p : PhaseAt) : (s.setPhase p).sems = s.sems := rfl
@[simp] theorem State.setPhase_windows (p : PhaseAt) : (s.setPhase p).windows = s.windows := rfl
@[simp] theorem State.setPhase_dies (p : PhaseAt) : (s.setPhase p).dies = s.dies := rfl
@[simp] theorem State.setPhase_links (p : PhaseAt) : (s.setPhase p).links = s.links := rfl
@[simp] theorem State.setPhase_depot (p : PhaseAt) : (s.setPhase p).depot = s.depot := rfl
@[simp] theorem State.setPhase_bringUp (p : PhaseAt) : (s.setPhase p).bringUp = s.bringUp := rfl
@[simp] theorem State.setPhase_moving (p : PhaseAt) : (s.setPhase p).moving = s.moving := rfl
@[simp] theorem State.setPhase_badBytes (p : PhaseAt) : (s.setPhase p).badBytes = s.badBytes := rfl
@[simp] theorem State.setPhase_missed (p : PhaseAt) : (s.setPhase p).missed = s.missed := rfl

/-! ### `setSlot` -/

@[simp] theorem State.setSlot_agenda (x : Slot) : (s.setSlot x).agenda = s.agenda := rfl
@[simp] theorem State.setSlot_focus (x : Slot) : (s.setSlot x).focus = s.focus := rfl
@[simp] theorem State.setSlot_freeCtr (x : Slot) : (s.setSlot x).freeCtr = s.freeCtr := rfl
@[simp] theorem State.setSlot_livedies (x : Slot) : (s.setSlot x).livedies = s.livedies := rfl
@[simp] theorem State.setSlot_igroups (x : Slot) : (s.setSlot x).igroups = s.igroups := rfl
@[simp] theorem State.setSlot_mem (x : Slot) : (s.setSlot x).mem = s.mem := rfl
@[simp] theorem State.setSlot_history (x : Slot) : (s.setSlot x).history = s.history := rfl
@[simp] theorem State.setSlot_homeClock (x : Slot) : (s.setSlot x).homeClock = s.homeClock := rfl
@[simp] theorem State.setSlot_refused (x : Slot) : (s.setSlot x).refused = s.refused := rfl
@[simp] theorem State.setSlot_releases (x : Slot) : (s.setSlot x).releases = s.releases := rfl
@[simp] theorem State.setSlot_views (x : Slot) : (s.setSlot x).views = s.views := rfl
@[simp] theorem State.setSlot_words (x : Slot) : (s.setSlot x).words = s.words := rfl
@[simp] theorem State.setSlot_phases (x : Slot) : (s.setSlot x).phases = s.phases := rfl
@[simp] theorem State.setSlot_staffs (x : Slot) : (s.setSlot x).staffs = s.staffs := rfl
@[simp] theorem State.setSlot_pubs (x : Slot) : (s.setSlot x).pubs = s.pubs := rfl
@[simp] theorem State.setSlot_transit (x : Slot) : (s.setSlot x).transit = s.transit := rfl
@[simp] theorem State.setSlot_reductions (x : Slot) : (s.setSlot x).reductions = s.reductions := rfl
@[simp] theorem State.setSlot_tasks (x : Slot) : (s.setSlot x).tasks = s.tasks := rfl
@[simp] theorem State.setSlot_ctxs (x : Slot) : (s.setSlot x).ctxs = s.ctxs := rfl
@[simp] theorem State.setSlot_barriers (x : Slot) : (s.setSlot x).barriers = s.barriers := rfl
@[simp] theorem State.setSlot_queues (x : Slot) : (s.setSlot x).queues = s.queues := rfl
@[simp] theorem State.setSlot_txruns (x : Slot) : (s.setSlot x).txruns = s.txruns := rfl
@[simp] theorem State.setSlot_colls (x : Slot) : (s.setSlot x).colls = s.colls := rfl
@[simp] theorem State.setSlot_regions (x : Slot) : (s.setSlot x).regions = s.regions := rfl
@[simp] theorem State.setSlot_snaps (x : Slot) : (s.setSlot x).snaps = s.snaps := rfl
@[simp] theorem State.setSlot_jobs (x : Slot) : (s.setSlot x).jobs = s.jobs := rfl
@[simp] theorem State.setSlot_endWords (x : Slot) : (s.setSlot x).endWords = s.endWords := rfl
@[simp] theorem State.setSlot_ports (x : Slot) : (s.setSlot x).ports = s.ports := rfl
@[simp] theorem State.setSlot_sems (x : Slot) : (s.setSlot x).sems = s.sems := rfl
@[simp] theorem State.setSlot_windows (x : Slot) : (s.setSlot x).windows = s.windows := rfl
@[simp] theorem State.setSlot_dies (x : Slot) : (s.setSlot x).dies = s.dies := rfl
@[simp] theorem State.setSlot_links (x : Slot) : (s.setSlot x).links = s.links := rfl
@[simp] theorem State.setSlot_depot (x : Slot) : (s.setSlot x).depot = s.depot := rfl
@[simp] theorem State.setSlot_bringUp (x : Slot) : (s.setSlot x).bringUp = s.bringUp := rfl
@[simp] theorem State.setSlot_moving (x : Slot) : (s.setSlot x).moving = s.moving := rfl
@[simp] theorem State.setSlot_badBytes (x : Slot) : (s.setSlot x).badBytes = s.badBytes := rfl
@[simp] theorem State.setSlot_missed (x : Slot) : (s.setSlot x).missed = s.missed := rfl

/-! ### `setRed` -/

@[simp] theorem State.setRed_agenda (r : Reduction) : (s.setRed r).agenda = s.agenda := rfl
@[simp] theorem State.setRed_focus (r : Reduction) : (s.setRed r).focus = s.focus := rfl
@[simp] theorem State.setRed_freeCtr (r : Reduction) : (s.setRed r).freeCtr = s.freeCtr := rfl
@[simp] theorem State.setRed_livedies (r : Reduction) : (s.setRed r).livedies = s.livedies := rfl
@[simp] theorem State.setRed_igroups (r : Reduction) : (s.setRed r).igroups = s.igroups := rfl
@[simp] theorem State.setRed_mem (r : Reduction) : (s.setRed r).mem = s.mem := rfl
@[simp] theorem State.setRed_history (r : Reduction) : (s.setRed r).history = s.history := rfl
@[simp] theorem State.setRed_homeClock (r : Reduction) : (s.setRed r).homeClock = s.homeClock := rfl
@[simp] theorem State.setRed_refused (r : Reduction) : (s.setRed r).refused = s.refused := rfl
@[simp] theorem State.setRed_releases (r : Reduction) : (s.setRed r).releases = s.releases := rfl
@[simp] theorem State.setRed_views (r : Reduction) : (s.setRed r).views = s.views := rfl
@[simp] theorem State.setRed_words (r : Reduction) : (s.setRed r).words = s.words := rfl
@[simp] theorem State.setRed_phases (r : Reduction) : (s.setRed r).phases = s.phases := rfl
@[simp] theorem State.setRed_staffs (r : Reduction) : (s.setRed r).staffs = s.staffs := rfl
@[simp] theorem State.setRed_slots (r : Reduction) : (s.setRed r).slots = s.slots := rfl
@[simp] theorem State.setRed_pubs (r : Reduction) : (s.setRed r).pubs = s.pubs := rfl
@[simp] theorem State.setRed_transit (r : Reduction) : (s.setRed r).transit = s.transit := rfl
@[simp] theorem State.setRed_tasks (r : Reduction) : (s.setRed r).tasks = s.tasks := rfl
@[simp] theorem State.setRed_ctxs (r : Reduction) : (s.setRed r).ctxs = s.ctxs := rfl
@[simp] theorem State.setRed_barriers (r : Reduction) : (s.setRed r).barriers = s.barriers := rfl
@[simp] theorem State.setRed_queues (r : Reduction) : (s.setRed r).queues = s.queues := rfl
@[simp] theorem State.setRed_txruns (r : Reduction) : (s.setRed r).txruns = s.txruns := rfl
@[simp] theorem State.setRed_colls (r : Reduction) : (s.setRed r).colls = s.colls := rfl
@[simp] theorem State.setRed_regions (r : Reduction) : (s.setRed r).regions = s.regions := rfl
@[simp] theorem State.setRed_snaps (r : Reduction) : (s.setRed r).snaps = s.snaps := rfl
@[simp] theorem State.setRed_jobs (r : Reduction) : (s.setRed r).jobs = s.jobs := rfl
@[simp] theorem State.setRed_endWords (r : Reduction) : (s.setRed r).endWords = s.endWords := rfl
@[simp] theorem State.setRed_ports (r : Reduction) : (s.setRed r).ports = s.ports := rfl
@[simp] theorem State.setRed_sems (r : Reduction) : (s.setRed r).sems = s.sems := rfl
@[simp] theorem State.setRed_windows (r : Reduction) : (s.setRed r).windows = s.windows := rfl
@[simp] theorem State.setRed_dies (r : Reduction) : (s.setRed r).dies = s.dies := rfl
@[simp] theorem State.setRed_links (r : Reduction) : (s.setRed r).links = s.links := rfl
@[simp] theorem State.setRed_depot (r : Reduction) : (s.setRed r).depot = s.depot := rfl
@[simp] theorem State.setRed_bringUp (r : Reduction) : (s.setRed r).bringUp = s.bringUp := rfl
@[simp] theorem State.setRed_moving (r : Reduction) : (s.setRed r).moving = s.moving := rfl
@[simp] theorem State.setRed_badBytes (r : Reduction) : (s.setRed r).badBytes = s.badBytes := rfl
@[simp] theorem State.setRed_missed (r : Reduction) : (s.setRed r).missed = s.missed := rfl

/-! ### `dropRed` -/

@[simp] theorem State.dropRed_agenda (r : Reduction) : (s.dropRed r).agenda = s.agenda := rfl
@[simp] theorem State.dropRed_focus (r : Reduction) : (s.dropRed r).focus = s.focus := rfl
@[simp] theorem State.dropRed_freeCtr (r : Reduction) : (s.dropRed r).freeCtr = s.freeCtr := rfl
@[simp] theorem State.dropRed_livedies (r : Reduction) : (s.dropRed r).livedies = s.livedies := rfl
@[simp] theorem State.dropRed_igroups (r : Reduction) : (s.dropRed r).igroups = s.igroups := rfl
@[simp] theorem State.dropRed_mem (r : Reduction) : (s.dropRed r).mem = s.mem := rfl
@[simp] theorem State.dropRed_history (r : Reduction) : (s.dropRed r).history = s.history := rfl
@[simp] theorem State.dropRed_homeClock (r : Reduction) : (s.dropRed r).homeClock = s.homeClock := rfl
@[simp] theorem State.dropRed_refused (r : Reduction) : (s.dropRed r).refused = s.refused := rfl
@[simp] theorem State.dropRed_releases (r : Reduction) : (s.dropRed r).releases = s.releases := rfl
@[simp] theorem State.dropRed_views (r : Reduction) : (s.dropRed r).views = s.views := rfl
@[simp] theorem State.dropRed_words (r : Reduction) : (s.dropRed r).words = s.words := rfl
@[simp] theorem State.dropRed_phases (r : Reduction) : (s.dropRed r).phases = s.phases := rfl
@[simp] theorem State.dropRed_staffs (r : Reduction) : (s.dropRed r).staffs = s.staffs := rfl
@[simp] theorem State.dropRed_slots (r : Reduction) : (s.dropRed r).slots = s.slots := rfl
@[simp] theorem State.dropRed_pubs (r : Reduction) : (s.dropRed r).pubs = s.pubs := rfl
@[simp] theorem State.dropRed_transit (r : Reduction) : (s.dropRed r).transit = s.transit := rfl
@[simp] theorem State.dropRed_tasks (r : Reduction) : (s.dropRed r).tasks = s.tasks := rfl
@[simp] theorem State.dropRed_ctxs (r : Reduction) : (s.dropRed r).ctxs = s.ctxs := rfl
@[simp] theorem State.dropRed_barriers (r : Reduction) : (s.dropRed r).barriers = s.barriers := rfl
@[simp] theorem State.dropRed_queues (r : Reduction) : (s.dropRed r).queues = s.queues := rfl
@[simp] theorem State.dropRed_txruns (r : Reduction) : (s.dropRed r).txruns = s.txruns := rfl
@[simp] theorem State.dropRed_colls (r : Reduction) : (s.dropRed r).colls = s.colls := rfl
@[simp] theorem State.dropRed_regions (r : Reduction) : (s.dropRed r).regions = s.regions := rfl
@[simp] theorem State.dropRed_snaps (r : Reduction) : (s.dropRed r).snaps = s.snaps := rfl
@[simp] theorem State.dropRed_jobs (r : Reduction) : (s.dropRed r).jobs = s.jobs := rfl
@[simp] theorem State.dropRed_endWords (r : Reduction) : (s.dropRed r).endWords = s.endWords := rfl
@[simp] theorem State.dropRed_ports (r : Reduction) : (s.dropRed r).ports = s.ports := rfl
@[simp] theorem State.dropRed_sems (r : Reduction) : (s.dropRed r).sems = s.sems := rfl
@[simp] theorem State.dropRed_windows (r : Reduction) : (s.dropRed r).windows = s.windows := rfl
@[simp] theorem State.dropRed_dies (r : Reduction) : (s.dropRed r).dies = s.dies := rfl
@[simp] theorem State.dropRed_links (r : Reduction) : (s.dropRed r).links = s.links := rfl
@[simp] theorem State.dropRed_depot (r : Reduction) : (s.dropRed r).depot = s.depot := rfl
@[simp] theorem State.dropRed_bringUp (r : Reduction) : (s.dropRed r).bringUp = s.bringUp := rfl
@[simp] theorem State.dropRed_moving (r : Reduction) : (s.dropRed r).moving = s.moving := rfl
@[simp] theorem State.dropRed_badBytes (r : Reduction) : (s.dropRed r).badBytes = s.badBytes := rfl
@[simp] theorem State.dropRed_missed (r : Reduction) : (s.dropRed r).missed = s.missed := rfl

/-! ### `setRun` -/

@[simp] theorem State.setRun_agenda (r : TxRun) : (s.setRun r).agenda = s.agenda := rfl
@[simp] theorem State.setRun_focus (r : TxRun) : (s.setRun r).focus = s.focus := rfl
@[simp] theorem State.setRun_freeCtr (r : TxRun) : (s.setRun r).freeCtr = s.freeCtr := rfl
@[simp] theorem State.setRun_livedies (r : TxRun) : (s.setRun r).livedies = s.livedies := rfl
@[simp] theorem State.setRun_igroups (r : TxRun) : (s.setRun r).igroups = s.igroups := rfl
@[simp] theorem State.setRun_mem (r : TxRun) : (s.setRun r).mem = s.mem := rfl
@[simp] theorem State.setRun_history (r : TxRun) : (s.setRun r).history = s.history := rfl
@[simp] theorem State.setRun_homeClock (r : TxRun) : (s.setRun r).homeClock = s.homeClock := rfl
@[simp] theorem State.setRun_refused (r : TxRun) : (s.setRun r).refused = s.refused := rfl
@[simp] theorem State.setRun_releases (r : TxRun) : (s.setRun r).releases = s.releases := rfl
@[simp] theorem State.setRun_views (r : TxRun) : (s.setRun r).views = s.views := rfl
@[simp] theorem State.setRun_words (r : TxRun) : (s.setRun r).words = s.words := rfl
@[simp] theorem State.setRun_phases (r : TxRun) : (s.setRun r).phases = s.phases := rfl
@[simp] theorem State.setRun_staffs (r : TxRun) : (s.setRun r).staffs = s.staffs := rfl
@[simp] theorem State.setRun_slots (r : TxRun) : (s.setRun r).slots = s.slots := rfl
@[simp] theorem State.setRun_pubs (r : TxRun) : (s.setRun r).pubs = s.pubs := rfl
@[simp] theorem State.setRun_transit (r : TxRun) : (s.setRun r).transit = s.transit := rfl
@[simp] theorem State.setRun_reductions (r : TxRun) : (s.setRun r).reductions = s.reductions := rfl
@[simp] theorem State.setRun_tasks (r : TxRun) : (s.setRun r).tasks = s.tasks := rfl
@[simp] theorem State.setRun_ctxs (r : TxRun) : (s.setRun r).ctxs = s.ctxs := rfl
@[simp] theorem State.setRun_barriers (r : TxRun) : (s.setRun r).barriers = s.barriers := rfl
@[simp] theorem State.setRun_queues (r : TxRun) : (s.setRun r).queues = s.queues := rfl
@[simp] theorem State.setRun_colls (r : TxRun) : (s.setRun r).colls = s.colls := rfl
@[simp] theorem State.setRun_regions (r : TxRun) : (s.setRun r).regions = s.regions := rfl
@[simp] theorem State.setRun_snaps (r : TxRun) : (s.setRun r).snaps = s.snaps := rfl
@[simp] theorem State.setRun_jobs (r : TxRun) : (s.setRun r).jobs = s.jobs := rfl
@[simp] theorem State.setRun_endWords (r : TxRun) : (s.setRun r).endWords = s.endWords := rfl
@[simp] theorem State.setRun_ports (r : TxRun) : (s.setRun r).ports = s.ports := rfl
@[simp] theorem State.setRun_sems (r : TxRun) : (s.setRun r).sems = s.sems := rfl
@[simp] theorem State.setRun_windows (r : TxRun) : (s.setRun r).windows = s.windows := rfl
@[simp] theorem State.setRun_dies (r : TxRun) : (s.setRun r).dies = s.dies := rfl
@[simp] theorem State.setRun_links (r : TxRun) : (s.setRun r).links = s.links := rfl
@[simp] theorem State.setRun_depot (r : TxRun) : (s.setRun r).depot = s.depot := rfl
@[simp] theorem State.setRun_bringUp (r : TxRun) : (s.setRun r).bringUp = s.bringUp := rfl
@[simp] theorem State.setRun_moving (r : TxRun) : (s.setRun r).moving = s.moving := rfl
@[simp] theorem State.setRun_badBytes (r : TxRun) : (s.setRun r).badBytes = s.badBytes := rfl
@[simp] theorem State.setRun_missed (r : TxRun) : (s.setRun r).missed = s.missed := rfl

/-! ### `dropRun` -/

@[simp] theorem State.dropRun_agenda (r : TxRun) : (s.dropRun r).agenda = s.agenda := rfl
@[simp] theorem State.dropRun_focus (r : TxRun) : (s.dropRun r).focus = s.focus := rfl
@[simp] theorem State.dropRun_freeCtr (r : TxRun) : (s.dropRun r).freeCtr = s.freeCtr := rfl
@[simp] theorem State.dropRun_livedies (r : TxRun) : (s.dropRun r).livedies = s.livedies := rfl
@[simp] theorem State.dropRun_igroups (r : TxRun) : (s.dropRun r).igroups = s.igroups := rfl
@[simp] theorem State.dropRun_mem (r : TxRun) : (s.dropRun r).mem = s.mem := rfl
@[simp] theorem State.dropRun_history (r : TxRun) : (s.dropRun r).history = s.history := rfl
@[simp] theorem State.dropRun_homeClock (r : TxRun) : (s.dropRun r).homeClock = s.homeClock := rfl
@[simp] theorem State.dropRun_refused (r : TxRun) : (s.dropRun r).refused = s.refused := rfl
@[simp] theorem State.dropRun_releases (r : TxRun) : (s.dropRun r).releases = s.releases := rfl
@[simp] theorem State.dropRun_views (r : TxRun) : (s.dropRun r).views = s.views := rfl
@[simp] theorem State.dropRun_words (r : TxRun) : (s.dropRun r).words = s.words := rfl
@[simp] theorem State.dropRun_phases (r : TxRun) : (s.dropRun r).phases = s.phases := rfl
@[simp] theorem State.dropRun_staffs (r : TxRun) : (s.dropRun r).staffs = s.staffs := rfl
@[simp] theorem State.dropRun_slots (r : TxRun) : (s.dropRun r).slots = s.slots := rfl
@[simp] theorem State.dropRun_pubs (r : TxRun) : (s.dropRun r).pubs = s.pubs := rfl
@[simp] theorem State.dropRun_transit (r : TxRun) : (s.dropRun r).transit = s.transit := rfl
@[simp] theorem State.dropRun_reductions (r : TxRun) : (s.dropRun r).reductions = s.reductions := rfl
@[simp] theorem State.dropRun_tasks (r : TxRun) : (s.dropRun r).tasks = s.tasks := rfl
@[simp] theorem State.dropRun_ctxs (r : TxRun) : (s.dropRun r).ctxs = s.ctxs := rfl
@[simp] theorem State.dropRun_barriers (r : TxRun) : (s.dropRun r).barriers = s.barriers := rfl
@[simp] theorem State.dropRun_queues (r : TxRun) : (s.dropRun r).queues = s.queues := rfl
@[simp] theorem State.dropRun_colls (r : TxRun) : (s.dropRun r).colls = s.colls := rfl
@[simp] theorem State.dropRun_regions (r : TxRun) : (s.dropRun r).regions = s.regions := rfl
@[simp] theorem State.dropRun_snaps (r : TxRun) : (s.dropRun r).snaps = s.snaps := rfl
@[simp] theorem State.dropRun_jobs (r : TxRun) : (s.dropRun r).jobs = s.jobs := rfl
@[simp] theorem State.dropRun_endWords (r : TxRun) : (s.dropRun r).endWords = s.endWords := rfl
@[simp] theorem State.dropRun_ports (r : TxRun) : (s.dropRun r).ports = s.ports := rfl
@[simp] theorem State.dropRun_sems (r : TxRun) : (s.dropRun r).sems = s.sems := rfl
@[simp] theorem State.dropRun_windows (r : TxRun) : (s.dropRun r).windows = s.windows := rfl
@[simp] theorem State.dropRun_dies (r : TxRun) : (s.dropRun r).dies = s.dies := rfl
@[simp] theorem State.dropRun_links (r : TxRun) : (s.dropRun r).links = s.links := rfl
@[simp] theorem State.dropRun_depot (r : TxRun) : (s.dropRun r).depot = s.depot := rfl
@[simp] theorem State.dropRun_bringUp (r : TxRun) : (s.dropRun r).bringUp = s.bringUp := rfl
@[simp] theorem State.dropRun_moving (r : TxRun) : (s.dropRun r).moving = s.moving := rfl
@[simp] theorem State.dropRun_badBytes (r : TxRun) : (s.dropRun r).badBytes = s.badBytes := rfl
@[simp] theorem State.dropRun_missed (r : TxRun) : (s.dropRun r).missed = s.missed := rfl

/-! ### `setPort` -/

@[simp] theorem State.setPort_agenda (p : Nat) (x : Port) : (s.setPort p x).agenda = s.agenda := rfl
@[simp] theorem State.setPort_focus (p : Nat) (x : Port) : (s.setPort p x).focus = s.focus := rfl
@[simp] theorem State.setPort_freeCtr (p : Nat) (x : Port) : (s.setPort p x).freeCtr = s.freeCtr := rfl
@[simp] theorem State.setPort_livedies (p : Nat) (x : Port) : (s.setPort p x).livedies = s.livedies := rfl
@[simp] theorem State.setPort_igroups (p : Nat) (x : Port) : (s.setPort p x).igroups = s.igroups := rfl
@[simp] theorem State.setPort_mem (p : Nat) (x : Port) : (s.setPort p x).mem = s.mem := rfl
@[simp] theorem State.setPort_history (p : Nat) (x : Port) : (s.setPort p x).history = s.history := rfl
@[simp] theorem State.setPort_homeClock (p : Nat) (x : Port) : (s.setPort p x).homeClock = s.homeClock := rfl
@[simp] theorem State.setPort_refused (p : Nat) (x : Port) : (s.setPort p x).refused = s.refused := rfl
@[simp] theorem State.setPort_releases (p : Nat) (x : Port) : (s.setPort p x).releases = s.releases := rfl
@[simp] theorem State.setPort_views (p : Nat) (x : Port) : (s.setPort p x).views = s.views := rfl
@[simp] theorem State.setPort_words (p : Nat) (x : Port) : (s.setPort p x).words = s.words := rfl
@[simp] theorem State.setPort_phases (p : Nat) (x : Port) : (s.setPort p x).phases = s.phases := rfl
@[simp] theorem State.setPort_staffs (p : Nat) (x : Port) : (s.setPort p x).staffs = s.staffs := rfl
@[simp] theorem State.setPort_slots (p : Nat) (x : Port) : (s.setPort p x).slots = s.slots := rfl
@[simp] theorem State.setPort_pubs (p : Nat) (x : Port) : (s.setPort p x).pubs = s.pubs := rfl
@[simp] theorem State.setPort_transit (p : Nat) (x : Port) : (s.setPort p x).transit = s.transit := rfl
@[simp] theorem State.setPort_reductions (p : Nat) (x : Port) : (s.setPort p x).reductions = s.reductions := rfl
@[simp] theorem State.setPort_tasks (p : Nat) (x : Port) : (s.setPort p x).tasks = s.tasks := rfl
@[simp] theorem State.setPort_ctxs (p : Nat) (x : Port) : (s.setPort p x).ctxs = s.ctxs := rfl
@[simp] theorem State.setPort_barriers (p : Nat) (x : Port) : (s.setPort p x).barriers = s.barriers := rfl
@[simp] theorem State.setPort_queues (p : Nat) (x : Port) : (s.setPort p x).queues = s.queues := rfl
@[simp] theorem State.setPort_txruns (p : Nat) (x : Port) : (s.setPort p x).txruns = s.txruns := rfl
@[simp] theorem State.setPort_colls (p : Nat) (x : Port) : (s.setPort p x).colls = s.colls := rfl
@[simp] theorem State.setPort_regions (p : Nat) (x : Port) : (s.setPort p x).regions = s.regions := rfl
@[simp] theorem State.setPort_snaps (p : Nat) (x : Port) : (s.setPort p x).snaps = s.snaps := rfl
@[simp] theorem State.setPort_jobs (p : Nat) (x : Port) : (s.setPort p x).jobs = s.jobs := rfl
@[simp] theorem State.setPort_endWords (p : Nat) (x : Port) : (s.setPort p x).endWords = s.endWords := rfl
@[simp] theorem State.setPort_sems (p : Nat) (x : Port) : (s.setPort p x).sems = s.sems := rfl
@[simp] theorem State.setPort_windows (p : Nat) (x : Port) : (s.setPort p x).windows = s.windows := rfl
@[simp] theorem State.setPort_dies (p : Nat) (x : Port) : (s.setPort p x).dies = s.dies := rfl
@[simp] theorem State.setPort_links (p : Nat) (x : Port) : (s.setPort p x).links = s.links := rfl
@[simp] theorem State.setPort_depot (p : Nat) (x : Port) : (s.setPort p x).depot = s.depot := rfl
@[simp] theorem State.setPort_bringUp (p : Nat) (x : Port) : (s.setPort p x).bringUp = s.bringUp := rfl
@[simp] theorem State.setPort_moving (p : Nat) (x : Port) : (s.setPort p x).moving = s.moving := rfl
@[simp] theorem State.setPort_badBytes (p : Nat) (x : Port) : (s.setPort p x).badBytes = s.badBytes := rfl
@[simp] theorem State.setPort_missed (p : Nat) (x : Port) : (s.setPort p x).missed = s.missed := rfl

end Sys2Proof.Machine
end

