-- ==== Sys2Proof/Laws/Parts.lean ====
section
/-! SUPPORT. Reads of a part of the state after an update: what was written is read back, and everything else of that
part is as it was. -/

namespace Sys2Proof

theorem find?_upsert_same {α : Type} (p : α → Bool) (x : α) (l : List α) (h : p x = true) :
    (upsert p x l).find? p = some x := by
  induction l with
  | nil => simp [upsert, h]
  | cons y ys ih =>
    unfold upsert
    split
    · simp [h]
    · rename_i hy
      simp [hy, ih]

theorem find?_upsert_other {α : Type} (p q : α → Bool) (x : α) (l : List α) (hx : q x = false)
    (hp : ∀ y, p y = true → q y = false) : (upsert p x l).find? q = l.find? q := by
  induction l with
  | nil => simp [upsert, hx]
  | cons y ys ih =>
    unfold upsert
    split
    · rename_i hy
      simp [hx, hp y hy]
    · simp [List.find?_cons, ih]

namespace Machine

theorem vget_vset_same {α : Type} {n : Nat} (v : Vector α n) (i : Nat) (x d : α) (h : i < n) :
    vget (vset v i x) i d = x := by
  simp [vget, vset, Vector.toList_setIfInBounds, List.getD_eq_getElem?_getD, h]

theorem vget_vset_other {α : Type} {n : Nat} (v : Vector α n) (i j : Nat) (x d : α) (h : i ≠ j) :
    vget (vset v i x) j d = vget v j d := by
  simp [vget, vset, Vector.toList_setIfInBounds, List.getD_eq_getElem?_getD, h]

theorem State.die_setDie_same (s : State) (d : Nat) (x : Die) (h : d < 4) : (s.setDie d x).die d = x :=
  vget_vset_same _ _ _ _ h

theorem State.die_setDie_other (s : State) (d e : Nat) (x : Die) (h : d ≠ e) : (s.setDie d x).die e = s.die e :=
  vget_vset_other _ _ _ _ _ h

theorem State.job?_setJob_same (s : State) (x : Job) : (s.setJob x).job? x.num = some x :=
  find?_upsert_same _ _ _ (by simp)

theorem State.job?_setJob_other (s : State) (x : Job) (n : Nat) (h : x.num ≠ n) : (s.setJob x).job? n = s.job? n :=
  find?_upsert_other _ _ _ _ (by simp [h]) (fun y hy => by simp at hy ⊢; omega)

theorem State.ctx?_setCtx_same (s : State) (c : Ctx) : (s.setCtx c).ctx? c.die c.seq c.ctx = some c :=
  find?_upsert_same _ _ _ (by simp)

theorem State.ctx?_setCtx_other (s : State) (c : Ctx) (d q k : Nat) (h : ¬(c.die = d ∧ c.seq = q ∧ c.ctx = k)) :
    (s.setCtx c).ctx? d q k = s.ctx? d q k := by
  refine find?_upsert_other _ _ _ _ ?_ (fun y hy => ?_)
  · simp only [Bool.and_eq_false_iff, beq_eq_false_iff_ne]; omega
  · simp only [Bool.and_eq_true, beq_iff_eq, Bool.and_eq_false_iff, beq_eq_false_iff_ne] at hy ⊢
    omega

theorem State.aux_setAux_same (s : State) (t : TaskAux) : (s.setAux t).aux t.job t.idx = t := by
  unfold State.aux State.setAux
  simp only
  rw [find?_upsert_same _ _ _ (by simp)]

theorem State.aux_setAux_other (s : State) (t : TaskAux) (j i : Nat) (h : ¬(t.job = j ∧ t.idx = i)) :
    (s.setAux t).aux j i = s.aux j i := by
  unfold State.aux State.setAux
  simp only
  rw [find?_upsert_other]
  · simp only [Bool.and_eq_false_iff, beq_eq_false_iff_ne]; omega
  · intro y hy
    simp only [Bool.and_eq_true, beq_iff_eq, Bool.and_eq_false_iff, beq_eq_false_iff_ne] at hy ⊢
    omega

theorem State.queue_setQueue_same (s : State) (x : Queue) : (s.setQueue x).queue x.job x.qid = x := by
  unfold State.queue State.setQueue
  simp only
  rw [find?_upsert_same _ _ _ (by simp)]

theorem State.queue_setQueue_other (s : State) (x : Queue) (j q : Nat) (h : ¬(x.job = j ∧ x.qid = q)) :
    (s.setQueue x).queue j q = s.queue j q := by
  unfold State.queue State.setQueue
  simp only
  rw [find?_upsert_other]
  · simp only [Bool.and_eq_false_iff, beq_eq_false_iff_ne]; omega
  · intro y hy
    simp only [Bool.and_eq_true, beq_iff_eq, Bool.and_eq_false_iff, beq_eq_false_iff_ne] at hy ⊢
    omega

theorem State.region?_setRegion_same (s : State) (r : Region) : (s.setRegion r).region? r.job r.v = some r :=
  find?_upsert_same _ _ _ (by simp)

theorem State.region?_setRegion_other (s : State) (r : Region) (j v : Nat) (h : ¬(r.job = j ∧ r.v = v)) :
    (s.setRegion r).region? j v = s.region? j v := by
  refine find?_upsert_other _ _ _ _ ?_ (fun y hy => ?_)
  · simp only [Bool.and_eq_false_iff, beq_eq_false_iff_ne]; omega
  · simp only [Bool.and_eq_true, beq_iff_eq, Bool.and_eq_false_iff, beq_eq_false_iff_ne] at hy ⊢
    omega

theorem State.region?_dropRegion_same (s : State) (j v : Nat) : (s.dropRegion j v).region? j v = none := by
  unfold State.region? State.dropRegion
  simp only [List.find?_eq_none, List.mem_filter]
  rintro x ⟨-, hx⟩ h
  simp [h] at hx

theorem State.barrier_setBarrier_same (s : State) (b : Barrier) : (s.setBarrier b).barrier b.die b.num = b := by
  unfold State.barrier State.setBarrier
  simp only
  rw [find?_upsert_same _ _ _ (by simp)]

theorem State.barrier_setBarrier_other (s : State) (b : Barrier) (d n : Nat) (h : ¬(b.die = d ∧ b.num = n)) :
    (s.setBarrier b).barrier d n = s.barrier d n := by
  unfold State.barrier State.setBarrier
  simp only
  rw [find?_upsert_other]
  · simp only [Bool.and_eq_false_iff, beq_eq_false_iff_ne]; omega
  · intro y hy
    simp only [Bool.and_eq_true, beq_iff_eq, Bool.and_eq_false_iff, beq_eq_false_iff_ne] at hy ⊢
    omega

theorem State.phaseAt_setPhase_same (s : State) (p : PhaseAt) : (s.setPhase p).phaseAt p.at_ p.die = p := by
  unfold State.phaseAt State.setPhase
  simp only
  rw [find?_upsert_same _ _ _ (by simp)]

theorem State.viewOf_setView_same (s : State) (j n : Nat) (v r : View) : (s.setView j n v r).viewOf j n = (v, r) := by
  unfold State.viewOf State.setView
  simp only
  rw [find?_upsert_same _ _ _ (by simp)]

/-- The focus party after an update of its context. -/
theorem State.cur_setCtx_same (s : State) (c : Ctx) (h : s.focus = .context c.die c.seq c.ctx) :
    (s.setCtx c).cur = some c := by
  unfold State.cur
  rw [State.setCtx_focus, h]
  exact State.ctx?_setCtx_same s c

/-- The context in focus is the one that its place names. -/
theorem State.cur_place {s : State} {c : Ctx} (h : s.cur = some c) : s.focus = .context c.die c.seq c.ctx := by
  unfold State.cur at h
  split at h
  · rename_i d q k hf
    unfold State.ctx? at h
    have := List.find?_some h
    simp only [Bool.and_eq_true, beq_iff_eq] at this
    rw [hf, this.1.1, this.1.2, this.2]
  · cases h

/-! ### The register file (09_scalar_compute.md R198) -/

@[simp] theorem RegFile.rdG_zero (r : RegFile) : r.rdG 0 = 0 := by simp [RegFile.rdG]
@[simp] theorem RegFile.rdTaint_zero (r : RegFile) : r.rdTaint 0 = false := by simp [RegFile.rdTaint]
@[simp] theorem RegFile.rdC_zero (r : RegFile) : r.rdC 0 = true := by simp [RegFile.rdC]
@[simp] theorem RegFile.setG_zero (r : RegFile) (v : Word64) (t : Bool) (w : View) : r.setG 0 v t w = r := by
  simp [RegFile.setG]
@[simp] theorem RegFile.setC_zero (r : RegFile) (v : Bool) : r.setC 0 v = r := by simp [RegFile.setC]

theorem RegFile.rdG_setG_same (r : RegFile) (i : GReg) (v : Word64) (t : Bool) (w : View) (h : i ≠ 0) :
    (r.setG i v t w).rdG i = v := by
  simp only [RegFile.rdG, RegFile.setG, if_neg h]
  exact vget_vset_same _ _ _ _ i.isLt

theorem RegFile.rdG_setG_other (r : RegFile) (i j : GReg) (v : Word64) (t : Bool) (w : View) (h : i ≠ j) :
    (r.setG i v t w).rdG j = r.rdG j := by
  unfold RegFile.rdG RegFile.setG
  by_cases hi : i = 0
  · simp [hi]
  · have : i.toNat ≠ j.toNat := fun e => h (BitVec.eq_of_toNat_eq e)
    simp only [if_neg hi, vget_vset_other _ _ _ _ _ this]

theorem RegFile.rdTaint_setG_same (r : RegFile) (i : GReg) (v : Word64) (t : Bool) (w : View) (h : i ≠ 0) :
    (r.setG i v t w).rdTaint i = t := by
  simp only [RegFile.rdTaint, RegFile.setG, if_neg h, bne_iff_ne.mpr h, Bool.true_and]
  exact vget_vset_same _ _ _ _ i.isLt

theorem RegFile.rdTaint_setG_other (r : RegFile) (i j : GReg) (v : Word64) (t : Bool) (w : View) (h : i ≠ j) :
    (r.setG i v t w).rdTaint j = r.rdTaint j := by
  unfold RegFile.rdTaint RegFile.setG
  by_cases hi : i = 0
  · simp [hi]
  · have : i.toNat ≠ j.toNat := fun e => h (BitVec.eq_of_toNat_eq e)
    simp only [if_neg hi, vget_vset_other _ _ _ _ _ this]

theorem RegFile.rdC_setC_same (r : RegFile) (i : CReg) (v : Bool) (h : i ≠ 0) : (r.setC i v).rdC i = v := by
  simp only [RegFile.rdC, RegFile.setC, if_neg h, beq_eq_false_iff_ne.mpr h, Bool.false_or]
  exact vget_vset_same _ _ _ _ i.isLt

theorem RegFile.rdC_setC_other (r : RegFile) (i j : CReg) (v : Bool) (h : i ≠ j) : (r.setC i v).rdC j = r.rdC j := by
  unfold RegFile.rdC RegFile.setC
  by_cases hi : i = 0
  · simp [hi]
  · have : i.toNat ≠ j.toNat := fun e => h (BitVec.eq_of_toNat_eq e)
    simp only [if_neg hi, vget_vset_other _ _ _ _ _ this]

theorem RegFile.rdF_setFbits_same (r : RegFile) (i : FReg) (v : Word64) : (r.setFbits i v).rdF i = v :=
  vget_vset_same _ _ _ _ i.isLt

theorem RegFile.rdF_setFbits_other (r : RegFile) (i j : FReg) (v : Word64) (h : i ≠ j) :
    (r.setFbits i v).rdF j = r.rdF j :=
  vget_vset_other _ _ _ _ _ (fun e => h (BitVec.eq_of_toNat_eq e))

/-! ### The party in focus -/

/-- Everything that a scalar instruction comes to: its meaning applied to the context in focus. -/
theorem execTask_cur {s : State} {c : Ctx} (f : State → Ctx → State) (h : s.cur = some c) :
    execTask f s = .next (f s c) := by
  simp [execTask, h]

theorem execTask_next {s t : State} {f : State → Ctx → State} (h : execTask f s = .next t) :
    ∃ c, s.cur = some c ∧ t = f s c := by
  unfold execTask at h
  split at h
  · rename_i c hc; cases h; exact ⟨c, hc, rfl⟩
  · cases h

/-- Everything that a stream command comes to. -/
theorem execCmd_next {s t : State} {f : State → Nat → Nat → Cmd → State} (h : execCmd f s = .next t) :
    ∃ j q c, s.curCmd = some (j, q, c) ∧ t = if c.phase = .running then f s j q c else s := by
  unfold execCmd at h
  split at h
  · rename_i j q c hc; cases h; exact ⟨j, q, c, hc, rfl⟩
  · cases h

theorem execCmd_cur {s : State} {j q : Nat} {c : Cmd} (f : State → Nat → Nat → Cmd → State)
    (h : s.curCmd = some (j, q, c)) (hr : c.phase = .running) : execCmd f s = .next (f s j q c) := by
  simp [execCmd, h, hr]

/-- Everything that an operator comes to. -/
theorem execOp_next {s t : State} {f : OpView → Fire} (h : execOp f s = .next t) :
    ∃ r v, s.curOp = some (r, v) ∧ t = s.fireWith r v (f v) := by
  unfold execOp at h
  split at h
  · rename_i r v hc; cases h; exact ⟨r, v, hc, rfl⟩
  · cases h

theorem execOp_cur {s : State} {r : Region} {v : OpView} (f : OpView → Fire) (h : s.curOp = some (r, v)) :
    execOp f s = .next (s.fireWith r v (f v)) := by
  simp [execOp, h]

end Machine

end Sys2Proof
end

