-- ==== Sys2Proof/Laws/Operators.lean ====
section
/-! SUPPORT. What firing comes to, and what the front of an operator's aligned inputs is: said once for all operators. -/

namespace Sys2Proof.Machine

theorem curOp_reg {s : State} {r : Region} {v : OpView} (h : s.curOp = some (r, v)) : v.reg = r := by
  unfold State.curOp at h
  split at h
  · split at h
    · simp only [Region.view, Option.map_eq_some_iff, Prod.mk.injEq] at h
      obtain ⟨_, ⟨_, _, rfl⟩, rfl, rfl⟩ := h
      rfl
    · cases h
  · cases h

theorem fireWith_stuck {s : State} {r : Region} {v : OpView} (k : Nat) (hr : r.state = .running) (hl : r.reloading = false)
    (hf : v.op.frozen = false) (ho : v.op.outbox = []) : s.fireWith r v (.stuck k) = s := by
  simp [State.fireWith, hr, hl, hf, ho]

theorem fireWith_trap {s : State} {r : Region} {v : OpView} (t : Trap) (hr : r.state = .running) (hl : r.reloading = false)
    (hf : v.op.frozen = false) (ho : v.op.outbox = []) : s.fireWith r v (.trap t) = s.setRegion (r.trapped v t) := by
  simp [State.fireWith, hr, hl, hf, ho]

theorem fireWith_go {s s' : State} {r : Region} {v : OpView} (g : Firing) (hr : r.state = .running) (hl : r.reloading = false)
    (hf : v.op.frozen = false) (ho : v.op.outbox = []) (hs : ∀ p ∈ g.ports, r.body.space v.ix p = true)
    (he : s.sramBad r v = false) (hb : s.regionSpent r = false)
    (hc : s.charge r.die 0 r.unit r.job (Bill.cycle (if opc v.op.word < 0x40 then 1 else 0)) = some s') :
    s.fireWith r v (.go g) = s'.setRegion { r.fired v g with moved := (s'.die r.die).stime } := by
  have : g.ports.all (r.body.space v.ix) = true := List.all_eq_true.2 hs
  simp [State.fireWith, hr, hl, hf, ho, this, he, hb, hc]

theorem fireWith_blocked {s : State} {r : Region} {v : OpView} (g : Firing) (p : Nat) (hr : r.state = .running)
    (hf : v.op.frozen = false) (ho : v.op.outbox = []) (hp : p ∈ g.ports) (hs : r.body.space v.ix p = false) :
    s.fireWith r v (.go g) = s := by
  have : g.ports.all (r.body.space v.ix) = false := by
    apply Bool.eq_false_iff.2
    intro h
    rw [List.all_eq_true.1 h p hp] at hs
    cases hs
  simp [State.fireWith, hr, hf, ho, this]

/-- `b` is `a` but for its budgets and what has been drawn of them in this period. -/
def GateDie (a b : Die) : Prop :=
  ∃ k l bu p w n, b = { a with
    actPeriod := k, left := l, budget := bu, pending := p, waited := w, counters := { a.counters with budwait := n } }

theorem GateDie.refl (a : Die) : GateDie a a := ⟨_, _, _, _, _, _, rfl⟩

theorem GateDie.trans {a b c : Die} (h : GateDie a b) (g : GateDie b c) : GateDie a c := by
  obtain ⟨_, _, _, _, _, _, rfl⟩ := h
  obtain ⟨_, _, _, _, _, _, rfl⟩ := g
  exact ⟨_, _, _, _, _, _, rfl⟩

/-- `t` is `s` but for the budgets of its dies and what has been drawn of them. -/
def GateSide (s t : State) : Prop := ∃ ds, t = { s with dies := ds } ∧ ∀ d, GateDie (s.die d) (t.die d)

theorem GateSide.refl (s : State) : GateSide s s := ⟨_, rfl, fun _ => .refl _⟩

theorem GateSide.trans {s t u : State} (h : GateSide s t) (g : GateSide t u) : GateSide s u := by
  obtain ⟨_, rfl, hd⟩ := h
  obtain ⟨_, rfl, gd⟩ := g
  exact ⟨_, rfl, fun d => (hd d).trans (gd d)⟩

theorem GateSide.setDie (s : State) (d : Nat) (x : Die) (h : GateDie (s.die d) x) : GateSide s (s.setDie d x) := by
  refine ⟨_, rfl, fun k => ?_⟩
  by_cases hd : d = k
  · subst hd
    by_cases h4 : d < 4
    · rw [State.die_setDie_same _ _ _ h4]; exact h
    · have : (s.setDie d x).die d = s.die d := by
        have hn : ¬ d < 4 := h4
        simp [State.die, State.setDie, vget, vset, hn]
      rw [this]; exact .refl _
  · rw [State.die_setDie_other _ _ _ _ hd]; exact .refl _

theorem GateSide.stime {s t : State} (h : GateSide s t) (d : Nat) : (t.die d).stime = (s.die d).stime := by
  obtain ⟨_, _, hd⟩ := h
  obtain ⟨_, _, _, _, _, _, e⟩ := hd d
  rw [e]

theorem budgetStart_side (s : State) (die : Nat) : GateSide s (s.budgetStart die) := by
  unfold State.budgetStart
  simp only
  split
  · exact .setDie s die _ ⟨_, _, _, _, _, _, rfl⟩
  · exact .refl s

theorem GateSide.left (s : State) (die : Nat) (l : List (Nat × Nat × Nat × Nat × Nat)) :
    GateSide s (if l = (s.die die).left then s else s.setDie die { s.die die with left := l }) := by
  split
  · exact .refl s
  · exact .setDie s die _ ⟨_, _, _, _, _, _, rfl⟩

theorem payUnits_side (s : State) (die kind unit job n : Nat) (c : Nat × Nat × Nat) :
    GateSide s (s.payUnits die kind unit job n c).2 := by
  exact .left s die _

theorem pay_side (s : State) (die kind unit job : Nat) (b : Bill) : GateSide s (s.pay die kind unit job b).2 := by
  have h1 := budgetStart_side s die
  have h2 := payUnits_side (s.budgetStart die) die kind unit job b.reqs (1, 0, 12)
  have h3 := payUnits_side ((s.budgetStart die).payUnits die kind unit job b.reqs (1, 0, 12)).2 die kind unit job b.cells (0, 1, 2)
  unfold State.pay
  generalize hu : (s.budgetStart die).payUnits die kind unit job b.reqs (1, 0, 12) = p at h2 h3
  generalize hv : p.2.payUnits die kind unit job b.cells (0, 1, 2) = q at h3
  obtain ⟨x, t⟩ := p
  obtain ⟨y, u⟩ := q
  simp only [hu, hv]
  split
  · exact h1.trans h2
  · split
    · exact (h1.trans h2).trans h3
    · exact ((h1.trans h2).trans h3).trans (payUnits_side u die kind unit job b.work (0, 0, b.per))

/-- What passes a gate changes the budgets of dies and what has been drawn of them, and nothing else. -/
theorem charge_side {s t : State} {die kind unit job : Nat} {b : Bill} (h : s.charge die kind unit job b = some t) :
    GateSide s t := by
  unfold State.charge at h
  have hp := pay_side s die kind unit job b
  generalize s.pay die kind unit job b = p at h hp
  obtain ⟨r, u⟩ := p
  simp only at h
  split at h
  · cases h; exact hp
  · cases h

theorem charge_stime {s t : State} {die kind unit job : Nat} {b : Bill} (h : s.charge die kind unit job b = some t) (d : Nat) :
    (t.die d).stime = (s.die d).stime := (charge_side h).stime d

theorem mem_insertNat {n x : Nat} {l : List Nat} : x ∈ insertNat n l ↔ x = n ∨ x ∈ l := by
  induction l with
  | nil => simp [insertNat]
  | cons y ys ih =>
    unfold insertNat
    split
    · simp
    · split
      · subst_vars; simp
      · simp only [List.mem_cons, ih]
        constructor
        · rintro (h | h | h)
          · exact .inr (.inl h)
          · exact .inl h
          · exact .inr (.inr h)
        · rintro (h | h | h)
          · exact .inr (.inl h)
          · exact .inl h
          · exact .inr (.inr h)

theorem mem_firing_ports {f : Firing} {p : Nat} : p ∈ f.ports ↔ ∃ b, (p, b) ∈ f.emit := by
  have gen : ∀ (es : List (Nat × Beat)) (l : List Nat), p ∈ es.foldl (fun l e => insertNat e.1 l) l ↔
      p ∈ l ∨ ∃ b, (p, b) ∈ es := by
    intro es
    induction es with
    | nil => simp
    | cons e es ih =>
      intro l
      rw [List.foldl_cons, ih, mem_insertNat]
      constructor
      · rintro ((h | h) | ⟨b, h⟩)
        · exact .inr ⟨e.2, by simp [h]⟩
        · exact .inl h
        · exact .inr ⟨b, by simp [h]⟩
      · rintro (h | ⟨b, h⟩)
        · exact .inl (.inr h)
        · rcases List.mem_cons.1 h with h | h
          · exact .inl (.inl (by rw [← h]))
          · exact .inr ⟨b, h⟩
  rw [Firing.ports, gen]
  simp

theorem mem_toAll {v : OpView} {b c : Beat} {p : Nat} : (p, c) ∈ v.toAll b ↔ p ∈ v.outPorts ∧ c = b := by
  simp only [OpView.toAll, List.mem_map, Prod.mk.injEq]
  constructor
  · rintro ⟨q, hq, rfl, rfl⟩; exact ⟨hq, rfl⟩
  · rintro ⟨h, rfl⟩; exact ⟨p, h, rfl, rfl⟩

/-! ### The front of the aligned inputs -/

theorem firstPort_none {α : Type} (f : Nat → Option α) (ps : List Nat) (h : ∀ p ∈ ps, f p = none) :
    firstPort ps f = none := by
  induction ps with
  | nil => rfl
  | cons p ps ih =>
    unfold firstPort
    rw [h p (by simp)]
    exact ih (fun q hq => h q (by simp [hq]))

/-- The heads of the inputs `ps` are the beats `bs`; none is held, fed back around a cycle or behind a marker. -/
structure OpView.HeadsAt (v : OpView) (ps : List Nat) (bs : List Beat) : Prop where
  len : bs.length = ps.length
  head : ∀ x ∈ ps.zip bs, v.head x.1 = some x.2 ∧ x.2.held = false ∧ v.fedBack x.1 = false ∧
    v.op.marked.contains x.1 = false

theorem OpView.HeadsAt.cons {v : OpView} {p : Nat} {ps : List Nat} {b : Beat} {bs : List Beat}
    (h : v.HeadsAt (p :: ps) (b :: bs)) : v.HeadsAt ps bs :=
  ⟨by simpa using h.len, fun x hx => h.head x (by simp [hx])⟩

theorem OpView.HeadsAt.filterMap {v : OpView} {ps : List Nat} {bs : List Beat} (h : v.HeadsAt ps bs) :
    ps.filterMap v.head = bs := by
  induction ps generalizing bs with
  | nil =>
    have := h.len
    simp at this
    simp [this]
  | cons p ps ih =>
    cases bs with
    | nil => have := h.len; simp at this
    | cons b bs =>
      have h1 := (h.head (p, b) (by simp)).1
      simp only at h1
      rw [List.filterMap_cons, h1, ih h.cons]

theorem OpView.HeadsAt.mem {v : OpView} {ps : List Nat} {bs : List Beat} (h : v.HeadsAt ps bs) {p : Nat} (hp : p ∈ ps) :
    ∃ b ∈ bs, v.head p = some b ∧ b.held = false ∧ v.fedBack p = false ∧ v.op.marked.contains p = false := by
  induction ps generalizing bs with
  | nil => cases hp
  | cons q ps ih =>
    cases bs with
    | nil => have := h.len; simp at this
    | cons b bs =>
      rcases List.mem_cons.1 hp with rfl | hp
      · exact ⟨b, by simp, h.head (p, b) (by simp)⟩
      · obtain ⟨c, hc, h2⟩ := ih h.cons hp
        exact ⟨c, by simp [hc], h2⟩

/-- Inputs at whose heads stand beats that are no config beats and no markers come to what their heads come to. -/
theorem front_heads {v : OpView} {ps : List Nat} {bs : List Beat} (shape : Nat) (h : v.HeadsAt ps bs) (hne : ps ≠ [])
    (hk : ∀ b ∈ bs, b.kind ≠ .config ∧ b.kind ≠ .marker) : v.front ps shape = v.heads ps ps shape := by
  have hback : ps.filter v.fedBack = [] := by
    rw [List.filter_eq_nil_iff]
    intro p hp
    obtain ⟨_, _, _, _, hf, _⟩ := h.mem hp
    simp [hf]
  have hpass : v.passHeld ps = none := firstPort_none _ _ (fun p hp => by
    obtain ⟨b, _, hb, hh, _⟩ := h.mem hp
    simp [hb, hh])
  have hconf : v.configHead ps = none := firstPort_none _ _ (fun p hp => by
    obtain ⟨b, hm, hb, _⟩ := h.mem hp
    simp [hb, (hk b hm).1])
  have hmark : v.markerHead ps = none := firstPort_none _ _ (fun p hp => by
    obtain ⟨b, hm, hb, _⟩ := h.mem hp
    simp [hb, (hk b hm).2])
  have hany : ps.any v.op.marked.contains = false := by
    rw [List.any_eq_false]
    intro p hp
    obtain ⟨_, _, _, _, _, hf⟩ := h.mem hp
    simpa using hf
  have hlen : ([] : List Nat).length ≠ ps.length := by
    intro hl
    exact hne (List.eq_nil_of_length_eq_zero hl.symm)
  unfold OpView.front
  simp only [hback, hpass, if_neg hlen]
  have hdrop : v.dropBack [] = none := rfl
  have hown : ps.filter (fun p => !List.contains ([] : List Nat) p) = ps := List.filter_eq_self.2 (by simp)
  simp only [hdrop, hown, hconf, hmark, hany]
  rfl

/-- Positions on all inputs. -/
theorem front_pos {v : OpView} {ps : List Nat} {bs : List Beat} (shape : Nat) (h : v.HeadsAt ps bs) (hne : ps ≠ [])
    (hk : ∀ b ∈ bs, b.kind.takesPosition = true) : v.front ps shape = .pos bs := by
  have hk' : ∀ b ∈ bs, b.kind ≠ .config ∧ b.kind ≠ .marker := by
    intro b hb
    have := hk b hb
    constructor <;> (intro hh; rw [hh] at this; cases this)
  rw [front_heads shape h hne hk']
  unfold OpView.heads
  simp only [h.filterMap, h.len, ne_eq, not_true_eq_false, if_false]
  cases bs with
  | nil => exact absurd (List.eq_nil_of_length_eq_zero h.len.symm) hne
  | cons b bs =>
    simp only [hk b (by simp), if_true]
    have : (b :: bs).all (fun b => b.kind.takesPosition) = true := List.all_eq_true.2 hk
    simp [this]

/-- The same stop on all inputs. -/
theorem front_stop {v : OpView} {ps : List Nat} {bs : List Beat} (shape : Nat) (b : Beat) (h : v.HeadsAt ps bs)
    (hne : ps ≠ []) (hb : ∀ x ∈ bs, x = b) (hk : b.kind = .stop) : v.front ps shape = .stop ps b.level := by
  have hk' : ∀ x ∈ bs, x.kind ≠ .config ∧ x.kind ≠ .marker := by
    intro x hx
    rw [hb x hx, hk]
    exact ⟨by decide, by decide⟩
  rw [front_heads shape h hne hk']
  unfold OpView.heads
  simp only [h.filterMap, h.len, ne_eq, not_true_eq_false, if_false]
  cases bs with
  | nil => exact absurd (List.eq_nil_of_length_eq_zero h.len.symm) hne
  | cons c bs =>
    obtain rfl : c = b := hb c (by simp)
    have hp : c.kind.takesPosition = false := by rw [hk]; rfl
    have : (c :: bs).all (fun x => x.kind == c.kind && x.data == c.data) = true := by
      rw [List.all_eq_true]
      intro x hx
      rw [hb x hx]
      simp
    dsimp only
    rw [if_neg (by rw [hp]; exact Bool.false_ne_true), if_pos this, if_pos hk]

theorem plainFront_pos {v : OpView} {ps : List Nat} {bs : List Beat} (shape : Nat) (k : List Beat → Fire)
    (h : v.HeadsAt ps bs) (hne : ps ≠ []) (hk : ∀ b ∈ bs, b.kind.takesPosition = true) :
    v.plainFront ps shape k = k bs := by
  simp [OpView.plainFront, front_pos shape h hne hk]

theorem plainFront_stop {v : OpView} {ps : List Nat} {bs : List Beat} (shape : Nat) (k : List Beat → Fire) (b : Beat)
    (h : v.HeadsAt ps bs) (hne : ps ≠ []) (hb : ∀ x ∈ bs, x = b) (hk : b.kind = .stop) :
    v.plainFront ps shape k = .go { take := ps, emit := v.toAll (stopBeat b.level) } := by
  simp [OpView.plainFront, front_stop shape b h hne hb hk]

/-- Data beats at an elementwise operator reach its function. -/
theorem elementwise_data {v : OpView} {ps : List Nat} {bs : List Beat} (k : Fire) (hk : ∀ b ∈ bs, b.kind = .data) :
    v.elementwise ps bs k = k := by
  have h1 : bs.any (fun b => b.kind == .cond) = false := by
    rw [List.any_eq_false]
    intro b hb
    simp [hk b hb]
  have h2 : (ps.zip bs).find? (fun p => p.2.kind == .poison) = none := by
    rw [List.find?_eq_none]
    intro x hx
    simp [hk x.2 (List.of_mem_zip hx).2]
  simp [OpView.elementwise, h1, h2]

end Sys2Proof.Machine
end

