-- ==== Sys2Proof/Laws/Shapes.lean ====
section
/-! SUPPORT. What the shared operations can change: each lemma says once which fields an operation may touch, so that
a proof cites it and does not unfold the operation. -/

namespace Sys2Proof.Machine

/-- `t` is `s` but for memory and its history, what is kept of tasks, the dies, the host ports and a walk that missed. -/
def TaskSide (s t : State) : Prop :=
  ∃ m h k b ts ds ps x, t = { s with
    mem := m, history := h, homeClock := k, badBytes := b, tasks := ts, dies := ds, ports := ps, missed := x }

theorem TaskSide.refl (s : State) : TaskSide s s := ⟨_, _, _, _, _, _, _, _, rfl⟩

theorem TaskSide.trans {s t u : State} (h : TaskSide s t) (g : TaskSide t u) : TaskSide s u := by
  obtain ⟨_, _, _, _, _, _, _, _, rfl⟩ := h
  obtain ⟨_, _, _, _, _, _, _, _, rfl⟩ := g
  exact ⟨_, _, _, _, _, _, _, _, rfl⟩

theorem TaskSide.foldl {α : Type} (f : State → α → State) (h : ∀ s a, TaskSide s (f s a)) :
    ∀ (l : List α) (s : State), TaskSide s (l.foldl f s)
  | [], s => .refl s
  | a :: l, s => (h s a).trans (TaskSide.foldl f h l (f s a))

/-! ### Stores of the hardware -/

theorem length_toBytes (k n : Nat) : (toBytes k n).length = k := by
  induction k generalizing n with
  | zero => rfl
  | succ k ih => simp [toBytes, ih]

/-- A store that is placed when it is made. -/
theorem State.storeNow_shape (s : State) (a : Agent) (bs : List Host.Cell) (v : View) (o : Bool) :
    ∃ h b, (s.storeNow a bs v o).2 =
      { s with mem := s.mem.writeCells bs, history := h, homeClock := s.homeClock + 1, badBytes := b } := by
  unfold State.storeNow State.addStore State.putHome
  simp only [List.getElem?_append_right (Nat.le_refl _), Nat.sub_self]
  exact ⟨_, _, rfl⟩

theorem State.hwPlace_shape (s : State) (job : Nat) (bs : List Host.Cell) :
    ∃ h b, s.hwPlace job bs =
      { s with mem := s.mem.writeCells bs, history := h, homeClock := s.homeClock + 1, badBytes := b } :=
  State.storeNow_shape _ _ _ _ _

theorem State.hwPlace_mem (s : State) (job : Nat) (bs : List Host.Cell) : (s.hwPlace job bs).mem = s.mem.writeCells bs := by
  obtain ⟨_, _, e⟩ := s.hwPlace_shape job bs
  rw [e]

/-- `t` is `s` but for memory and its history, and a walk that missed. -/
def MemSide (s t : State) : Prop :=
  ∃ m h k b x, t = { s with mem := m, history := h, homeClock := k, badBytes := b, missed := x }

theorem MemSide.refl (s : State) : MemSide s s := ⟨_, _, _, _, _, rfl⟩

theorem MemSide.trans {s t u : State} (h : MemSide s t) (g : MemSide t u) : MemSide s u := by
  obtain ⟨_, _, _, _, _, rfl⟩ := h
  obtain ⟨_, _, _, _, _, rfl⟩ := g
  exact ⟨_, _, _, _, _, rfl⟩

theorem MemSide.foldl {α : Type} (f : State → α → State) (h : ∀ s a, MemSide s (f s a)) :
    ∀ (l : List α) (s : State), MemSide s (l.foldl f s)
  | [], s => .refl s
  | a :: l, s => (h s a).trans (MemSide.foldl f h l (f s a))

theorem MemSide.task {s t : State} (h : MemSide s t) : TaskSide s t := by
  obtain ⟨_, _, _, _, _, rfl⟩ := h
  exact ⟨_, _, _, _, _, _, _, _, rfl⟩

theorem State.hwPlace_side (s : State) (job : Nat) (bs : List Host.Cell) : MemSide s (s.hwPlace job bs) := by
  obtain ⟨h, b, e⟩ := s.hwPlace_shape job bs
  exact ⟨_, h, _, b, _, e⟩

theorem State.hwStore_side (s : State) (job : Nat) (bs : List Host.Cell) : MemSide s (s.hwStore job bs) := by
  unfold State.hwStore
  split
  · exact .refl s
  · exact s.hwPlace_side ..

/-- A write of the hardware to bytes that lie in no busy weight store. -/
theorem State.hwStore_mem {s : State} {job : Nat} {bs : List Host.Cell} (h : s.wsHit (bs.map (·.1)) = false) :
    (s.hwStore job bs).mem = s.mem.writeCells bs := by
  unfold State.hwStore
  rw [if_neg (by simp [h]), State.hwPlace_mem]

theorem State.bumpWver_side (s : State) (job : Nat) (ls : List Nat) : MemSide s (s.bumpWver job ls) := by
  unfold State.bumpWver
  exact MemSide.foldl _ (fun s l => s.hwPlace_side ..) _ s

theorem State.bumpWver_nil (s : State) (job : Nat) : s.bumpWver job [] = s := rfl

theorem State.bumpWver_mem (s : State) (job : Nat) (ls : List Nat) : (s.bumpWver job ls).mem = s.mem.counted ls := by
  unfold State.bumpWver Memory.counted
  suffices h : ∀ (l : List Nat) (s : State), (l.foldl (fun (s : State) l =>
      let w := ofBytes (s.homeBytes (upFrom (l + 12) 4))
      s.hwPlace job (cells (upFrom (l + 12) 4) (toBytes 4 (w + 1)))) s).mem = l.foldl (fun m l =>
        m.writeCells (cells (upFrom (l + 12) 4) (toBytes 4 (ofBytes ((upFrom (l + 12) 4).map m.read) + 1)))) s.mem from h _ s
  intro l
  induction l with
  | nil => intro s; rfl
  | cons x l ih => intro s; rw [List.foldl_cons, List.foldl_cons, ih, State.hwPlace_mem]; rfl

/-! ### Walks that miss -/

theorem State.miss_side (s : State) (m : HwMiss) : MemSide s (s.miss m) := by
  unfold State.miss
  split
  · exact .refl s
  · exact ⟨_, _, _, _, _, rfl⟩

theorem State.hwTouch_side (s : State) (job va n : Nat) : MemSide s (s.hwTouch job va n) := by
  unfold State.hwTouch
  split
  · exact s.miss_side _
  · exact .refl s

theorem State.recTouch_side (s : State) (job i : Nat) : MemSide s (s.recTouch job i) := by
  unfold State.recTouch
  split
  · split
    · exact s.hwTouch_side ..
    · exact .refl s
  · exact .refl s

/-- What the hardware can reach keeps nothing from a step. -/
theorem State.hwTouch_none {s : State} {job va n : Nat} {ts : List Trans} (h : s.hwSpan job va n = some ts) :
    s.hwTouch job va n = s := by
  unfold State.hwSpan at h
  unfold State.hwTouch State.hwMissed
  cases hj : s.job? job with
  | none => simp [hj] at h
  | some j =>
    simp only [hj] at h ⊢
    cases ht : s.translateSpan j.ranges job .read va n with
    | error e => simp [ht] at h
    | ok us =>
      simp only [ht] at h ⊢
      split at h
      · cases h
      · rename_i hw
        rw [if_neg hw]

/-! ### Writes to a job's structures -/

theorem State.hwPut_side (s : State) (job : Nat) (ts : List Trans) (bs : List Byte) : MemSide s (s.hwPut job ts bs) := by
  unfold State.hwPut
  split
  · exact .refl s
  · exact (s.bumpWver_side job _).trans (State.hwStore_side ..)

theorem State.hwWrite_mem_side (s : State) (job va n v : Nat) : MemSide s (s.hwWrite job va n v) := by
  unfold State.hwWrite
  split
  · exact s.hwPut_side ..
  · exact s.hwTouch_side ..

theorem State.hwWrite_side (s : State) (job va n v : Nat) : TaskSide s (s.hwWrite job va n v) :=
  (s.hwWrite_mem_side ..).task

/-- Counting writes moves no party that makes a weight store busy. -/
theorem State.bumpWver_wsHit (s : State) (job : Nat) (ls xs : List Nat) : (s.bumpWver job ls).wsHit xs = s.wsHit xs := by
  obtain ⟨_, _, _, _, _, e⟩ := s.bumpWver_side job ls
  rw [e]
  rfl

/-- A write to a job's structures in no busy weight store: the page leaves that lead there count it, and the bytes hold it. -/
theorem State.hwPut_mem {s : State} {job : Nat} {ts : List Trans} {bs : List Byte} (hb : bs.length = ts.length)
    (h : s.wsHit (ts.map (·.loc)) = false) : (s.hwPut job ts bs).mem = s.mem.landed ts bs := by
  unfold State.hwPut Memory.landed
  rw [if_neg (by simp [h]), State.hwStore_mem, State.bumpWver_mem]
  rw [State.bumpWver_wsHit]
  have : (cells (ts.map (·.loc)) bs).map (·.1) = ts.map (·.loc) := by
    unfold cells
    rw [List.map_fst_zip]
    simp [hb]
  rw [this, h]

theorem State.hwWrite_mem {s : State} {job va n : Nat} {ts : List Trans} (v : Nat) (h : s.hwSpan job va n = some ts)
    (hn : ts.length = n) (hw : s.wsHit (ts.map (·.loc)) = false) :
    (s.hwWrite job va n v).mem = s.mem.landed ts (toBytes n v) := by
  unfold State.hwWrite
  simp only [h]
  exact State.hwPut_mem (by rw [length_toBytes, hn]) hw

theorem State.paWrite_side (s : State) (pa n v : Nat) : MemSide s (s.paWrite pa n v) := by
  unfold State.paWrite
  split
  · exact s.hwStore_side ..
  · exact .refl s

/-! ### Task records -/

theorem State.setWord0_mem_side (s : State) (job i v : Nat) : MemSide s (s.setWord0 job i v) := by
  unfold State.setWord0
  split
  · exact s.hwWrite_mem_side ..
  · exact .refl s

theorem State.setWord0_mem {s : State} {job i : Nat} {j : Job} {ts : List Trans} (v : Nat) (hj : s.job? job = some j)
    (hl : s.hwSpan job (j.recVa i) 8 = some ts) (hn : ts.length = 8) (hw : s.wsHit (ts.map (·.loc)) = false) :
    (s.setWord0 job i v).mem = s.mem.landed ts (toBytes 8 v) := by
  unfold State.setWord0
  simp only [hj]
  exact State.hwWrite_mem v hl hn hw

theorem State.setWord0_side (s : State) (job i v : Nat) : TaskSide s (s.setWord0 job i v) := (s.setWord0_mem_side ..).task

theorem State.setTaskState_side (s : State) (job i st : Nat) : TaskSide s (s.setTaskState job i st) := by
  unfold State.setTaskState
  split
  · exact s.setWord0_side ..
  · exact (s.recTouch_side ..).task

theorem State.aux_place (s : State) (job i : Nat) : (s.aux job i).job = job ∧ (s.aux job i).idx = i := by
  unfold State.aux
  split
  · rename_i x hx
    simpa using List.find?_some hx
  · exact ⟨rfl, rfl⟩

/-! ### The ready queue -/

theorem State.enqueue_shape (s : State) (die : Nat) (e : ReadyEntry) : ∃ d, s.enqueue die e = { s with dies := d } := by
  unfold State.enqueue
  simp only
  split
  · exact ⟨_, rfl⟩
  · split <;> exact ⟨_, rfl⟩

theorem State.enqueue_side (s : State) (die : Nat) (e : ReadyEntry) : TaskSide s (s.enqueue die e) := by
  obtain ⟨d, h⟩ := s.enqueue_shape die e
  exact ⟨_, _, _, _, _, d, _, _, h⟩

theorem State.setAux_side (s : State) (t : TaskAux) : TaskSide s (s.setAux t) := ⟨_, _, _, _, _, _, _, _, rfl⟩
theorem State.setDie_side (s : State) (d : Nat) (x : Die) : TaskSide s (s.setDie d x) := ⟨_, _, _, _, _, _, _, _, rfl⟩
theorem State.raiseVector_side (s : State) (p v : Nat) : TaskSide s (s.raiseVector p v) := ⟨_, _, _, _, _, _, _, _, rfl⟩

theorem State.mem_insertReady (s : State) (e : ReadyEntry) (l : List ReadyEntry) : e ∈ s.insertReady e l := by
  induction l with
  | nil => simp [State.insertReady]
  | cons x xs ih =>
    unfold State.insertReady
    split
    · simp
    · simp [ih]

/-- An entry that joins the queue stands in it, or in the chain behind it. -/
theorem State.enqueue_in (s : State) {die : Nat} (e : ReadyEntry) (h : die < 4) :
    e ∈ ((s.enqueue die e).die die).ready ∨ e ∈ ((s.enqueue die e).die die).chain := by
  unfold State.enqueue
  simp only
  split
  · rename_i hc
    simpa only [Bool.or_eq_true, List.contains_iff_mem] using hc
  · split
    · left; rw [State.die_setDie_same _ _ _ h]; exact s.mem_insertReady e _
    · right; rw [State.die_setDie_same _ _ _ h]; simp

theorem State.dequeue_side (s : State) (e : ReadyEntry) : ∃ d, s.dequeue e = { s with dies := d } := by
  unfold State.dequeue
  suffices h : ∀ (l : List Nat) (s : State), ∃ d, l.foldl (fun (s : State) k =>
      let d := s.die k
      if d.ready.contains e || d.chain.contains e then
        let r := d.ready.filter (· != e)
        let c := d.chain.filter (· != e)
        if r.length < Config.readyEntries then
          match c with
          | x :: xs => s.setDie k { d with ready := s.insertReady x r, chain := xs }
          | [] => s.setDie k { d with ready := r, chain := [] }
        else s.setDie k { d with ready := r, chain := c }
      else s) s = { s with dies := d } from h _ s
  intro l
  induction l with
  | nil => intro s; exact ⟨_, rfl⟩
  | cons k l ih =>
    intro s
    rw [List.foldl_cons]
    obtain ⟨d, e⟩ := ih (let d := s.die k
      if d.ready.contains e || d.chain.contains e then
        let r := d.ready.filter (· != e)
        let c := d.chain.filter (· != e)
        if r.length < Config.readyEntries then
          match c with
          | x :: xs => s.setDie k { d with ready := s.insertReady x r, chain := xs }
          | [] => s.setDie k { d with ready := r, chain := [] }
        else s.setDie k { d with ready := r, chain := c }
      else s)
    rw [e]
    simp only
    split
    · split
      · split <;> exact ⟨_, rfl⟩
      · exact ⟨_, rfl⟩
    · exact ⟨_, rfl⟩

theorem State.liveDies_lt {s : State} {d : Nat} (h : d ∈ s.liveDies) : d < 4 := by
  unfold State.liveDies at h
  simp at h
  omega

theorem State.dieFor_lt (s : State) {d : Nat} (h : d < 4) : s.dieFor d < 4 := by
  unfold State.dieFor
  split
  · exact h
  · cases hl : s.liveDies with
    | nil => simpa using h
    | cons a l => simpa using State.liveDies_lt (s := s) (by rw [hl]; simp)

theorem State.taskDie_lt (s : State) (w : Nat) : s.taskDie w < 4 := s.dieFor_lt (by unfold recHdie bf; omega)

theorem State.makeReady_side (s : State) (job i : Nat) : TaskSide s (s.makeReady job i) := by
  unfold State.makeReady
  split
  · exact (s.recTouch_side ..).task
  · split
    · exact ⟨_, _, _, _, _, _, _, _, rfl⟩
    · dsimp only
      exact ((s.setWord0_side ..).trans (State.setAux_side ..)).trans (State.enqueue_side ..)

theorem State.wake_side (s : State) (p : TaskAux → Park → Bool) : TaskSide s (s.wake p) := by
  unfold State.wake
  refine TaskSide.foldl _ (fun s t => ?_) _ s
  split
  · split
    · exact s.makeReady_side ..
    · exact .refl s
  · exact .refl s

/-! ### Events and notifies -/

theorem State.decrement_side (s : State) (job i g : Nat) : TaskSide s (s.decrement job i g).2 := by
  unfold State.decrement
  split
  · exact (s.recTouch_side ..).task
  · split
    · exact .refl s
    · split
      · exact .refl s
      · simp only
        split
        · exact (s.setWord0_side ..).trans (State.makeReady_side ..)
        · exact s.setWord0_side ..

theorem State.appendEvent_side (s : State) (job die : Nat) (e : EventRec) : TaskSide s (s.appendEvent job die e) := by
  unfold State.appendEvent
  split
  · exact .refl s
  · split
    · exact (s.hwTouch_side ..).task
    · simp only
      split
      · exact s.hwWrite_side ..
      · exact ((s.hwWrite_side ..).trans (State.hwWrite_side ..)).trans (State.raiseVector_side ..)

theorem State.countDead_side (s : State) (job i : Nat) : TaskSide s (s.countDead job i) := by
  unfold State.countDead
  split
  · exact ⟨_, _, _, _, _, _, _, _, rfl⟩
  · exact .refl s

theorem State.notifyHandler_side (s : State) (job die : Nat) : TaskSide s (s.notifyHandler job die) := by
  unfold State.notifyHandler
  split
  · exact .refl s
  · rename_i j _
    split
    · exact .refl s
    · simp only
      have h := s.decrement_side job j.handler (recGen ((s.taskRec job j.handler).getD 0))
      split <;> (rename_i e; rw [e] at h)
      · exact h
      · exact h.trans ((State.countDead_side ..).trans (State.appendEvent_side ..))
      · exact h.trans ((State.countDead_side ..).trans (State.appendEvent_side ..))

/-- Posting an event changes memory, what is kept of the handler's task, the dies and a port's vectors. -/
theorem State.postEvent_side (s : State) (job die : Nat) (e : EventRec) : TaskSide s (s.postEvent job die e) := by
  unfold State.postEvent
  split
  · exact s.appendEvent_side ..
  · exact (s.appendEvent_side ..).trans (State.notifyHandler_side ..)

theorem State.postDead_side (s : State) (job die i g det : Nat) : TaskSide s (s.postDead job die i g det) := by
  unfold State.postDead
  simp only
  split <;> split
  all_goals first
    | exact (s.countDead_side ..).trans (State.appendEvent_side ..)
    | exact (s.countDead_side ..).trans (State.postEvent_side ..)

theorem State.notify_side (s : State) (job die i g : Nat) : TaskSide s (s.notify job die i g) := by
  unfold State.notify
  have h := s.decrement_side job i g
  split <;> (rename_i e; rw [e] at h)
  · exact h
  · exact h.trans (State.postDead_side ..)
  · exact h.trans (State.postDead_side ..)

/-! ### Releases -/

/-- `t` is `s` but for memory, its history, the stores that a busy weight store has refused and a walk that missed. -/
def PlaceSide (s t : State) : Prop :=
  ∃ m h k b f x, t = { s with mem := m, history := h, homeClock := k, badBytes := b, refused := f, missed := x }

theorem PlaceSide.refl (s : State) : PlaceSide s s := ⟨_, _, _, _, _, _, rfl⟩

theorem PlaceSide.trans {s t u : State} (h : PlaceSide s t) (g : PlaceSide t u) : PlaceSide s u := by
  obtain ⟨_, _, _, _, _, _, rfl⟩ := h
  obtain ⟨_, _, _, _, _, _, rfl⟩ := g
  exact ⟨_, _, _, _, _, _, rfl⟩

theorem MemSide.placed {s t : State} (h : MemSide s t) : PlaceSide s t := by
  obtain ⟨_, _, _, _, _, rfl⟩ := h
  exact ⟨_, _, _, _, _, _, rfl⟩

theorem PlaceSide.foldl {α : Type} (f : State → α → State) (h : ∀ s a, PlaceSide s (f s a)) :
    ∀ (l : List α) (s : State), PlaceSide s (l.foldl f s)
  | [], s => .refl s
  | a :: l, s => (h s a).trans (PlaceSide.foldl f h l (f s a))

theorem State.putHome_shape (s : State) (i : Nat) : PlaceSide s (s.putHome i) := by
  unfold State.putHome
  split <;> exact ⟨_, _, _, _, _, _, rfl⟩

theorem State.place_shape (s : State) (i : Nat) : PlaceSide s (s.place i) := by
  unfold State.place
  split
  · split
    · exact .refl s
    · split
      · exact s.putHome_shape i
      · split
        · exact ⟨_, _, _, _, _, _, rfl⟩
        · exact .trans (s.bumpWver_side ..).placed (State.putHome_shape ..)
  · exact .refl s

theorem State.placeOwn_shape (s : State) (job agent : Nat) (v : View) : PlaceSide s (s.placeOwn job agent v) := by
  unfold State.placeOwn
  refine PlaceSide.foldl _ (fun s i => ?_) v s
  split
  · split
    · exact s.place_shape i
    · exact .refl s
  · exact .refl s

/-- A release puts the agent's own stores at their homes and is kept; it changes nothing else. -/
theorem State.release_shape (s : State) (a : Agent) (scope : Nat) (v r : View) :
    ∃ m h k b f x, (s.release a scope v r).2 =
      { s with mem := m, history := h, homeClock := k, badBytes := b, refused := f, missed := x,
               releases := s.releases ++ [(s.release a scope v r).1] } := by
  obtain ⟨m, h, k, b, f, x, e⟩ := s.placeOwn_shape a.job a.num v
  refine ⟨m, h, k, b, f, x, ?_⟩
  unfold State.release
  simp only [e]

end Sys2Proof.Machine
end

