-- ==== Sys2Proof/Tests/Slice0.lean ====
section
/-! SUPPORT. Tests: ill-formed terms that the checks refuse, words written out from the encoding tables, single steps on
a small package, and witnesses that meet the hypotheses of the statements. -/

namespace Sys2Proof.Tests

open Sys2Proof.Machine Sys2Proof.Claims

set_option Elab.async false

/-! ### A small package -/

/-- `n` bytes of a number at ascending locations. -/
def bytesAt (a n v : Nat) : List Host.Cell := (upFrom a n).zip (toBytes n v)

/-- Word 0 to word 7 of a valid task record: COUNT, GEN 7, STATE, ENTRY 0x20000, ARG 0x55, save area 0x30000. -/
def aRecord (count state : Nat) : Nat :=
  count + 7 * 2 ^ 32 + state * 2 ^ 56 + 2 ^ 63 + 0x20000 * 2 ^ 64 + 0x55 * 2 ^ 128 + 0x30000 * 2 ^ 256

/-- An ordinary range of all rights: pages `b` to `l` of 64 KiB at page `frame` of die 0's memory. -/
def plainRange (b l frame : Nat) : BitVec 256 :=
  BitVec.ofNat 256 (1 + 15 * 2 ^ 83 + 1 * 2 ^ 146 + frame * 2 ^ 148 + l * 2 ^ 176 + b * 2 ^ 216)

/-- A versioned range of package scope: K = 2, Q = 1, slots of 64 bytes, its pool at offset 0x200000 of die 0. -/
def versionedRange (b l : Nat) : BitVec 256 :=
  BitVec.ofNat 256 (1 + 15 * 2 ^ 83 + 2 ^ 88 + 4 * 2 ^ 89 + 1 * 2 ^ 95 + (2 ^ 46 + 0x200000) / 64 * 2 ^ 102 + l * 2 ^ 176 +
    b * 2 ^ 216)
/-- The same with slots of 8 KiB and its pool at offset 0x300000. -/
def frameRange (b l : Nat) : BitVec 256 :=
  BitVec.ofNat 256 (1 + 15 * 2 ^ 83 + 2 ^ 88 + 4 * 2 ^ 89 + 1 * 2 ^ 95 + 7 * 2 ^ 98 + (2 ^ 46 + 0x300000) / 64 * 2 ^ 102 +
    l * 2 ^ 176 + b * 2 ^ 216)
/-- Descriptors: of an encoding of a frame of 64 by 64 in range 5 into 0x30400, at most 100 bytes, length at 0x30500; of a
sum over dies 0 and 1 of one BF16 number at 0x30000 into 0x30300; of a transducer run into 0x30200, at most 16 bytes, with
its result at 0x30280, and two chunks of one byte. -/
def encodeDesc : Nat := 0x50000 + 0x30400 * 2 ^ 64 + 100 * 2 ^ 128 + 64 * 2 ^ 160 + 64 * 2 ^ 176 + 2 ^ 216 + 0x30500 * 2 ^ 256
def collDesc : Nat := 0x30000 + 0x30300 * 2 ^ 64 + 1 * 2 ^ 128 + 0x09 * 2 ^ 168 + 3 * 2 ^ 184
def chunkDesc : Nat := 0x30000 + 1 * 2 ^ 64 + 2932127518 * 2 ^ 96
def runDesc : Nat := 0x30200 + 16 * 2 ^ 64 + 0x30280 * 2 ^ 192

/-- Job 1: four task records at 0x10000, an event ring of 16 at 0x18000, phase shares of 1, a relocation table at offset
0x140000 of die 0, two berths of 64 KiB. -/
def aJob : Job :=
  { num := 1
    record := BitVec.ofNat 1024 (3 * 2 ^ 32 + 0x10000 * 2 ^ 64 + 0x19000 * 2 ^ 192 + 0x18000 * 2 ^ 256 + 4 * 2 ^ 320 +
      (2 ^ 46 + 0x140000) * 2 ^ 400 + 1 * 2 ^ 464 + 1 * 2 ^ 480 + 1 * 2 ^ 512 + 0x1A000 * 2 ^ 768 + 0x100000 * 2 ^ 584 +
      0x30000 * 2 ^ 648 + 2 * 2 ^ 704)
    recPa := 0, ranges := [plainRange 1 3 0x10, versionedRange 4 4, frameRange 5 5], createdAt := 1, stamp := Vector.replicate 4 0
    started := true, ended := none, cancelling := false, held := false, arms := [], view := [] }

def liveDie (d : Nat) : Die := { Die.reset d with state := .live, stime := 0x1000 }

/-- What the loader has put into memory: three task records, a number at 0x30000, the descriptor of a copy of 8 bytes at
0x31000, and the relocation of region 0. -/
def loaded : List Host.Cell :=
  bytesAt 0x100000 64 (aRecord 0 3) ++ bytesAt 0x100080 64 (aRecord 1 0) ++ bytesAt 0x100100 64 (aRecord 0 1) ++
    bytesAt 0x120000 8 0x0123456789ABCDEF ++
    bytesAt 0x121000 32 (0x30000 + 0x30100 * 2 ^ 64 + 8 * 2 ^ 128) ++
    bytesAt 0x122000 32 runDesc ++ bytesAt 0x122020 24 chunkDesc ++ bytesAt 0x122038 24 chunkDesc ++
    bytesAt 0x123000 64 encodeDesc ++ bytesAt 0x124000 32 collDesc ++ bytesAt 0x140000 8 (2 ^ 63)

/-- A package with four live dies, the job, and its records: 0 runs, 1 waits for one notify, 2 is ready. -/
def pkg : State :=
  { State.reset with
    livedies := 15, jobs := [aJob]
    dies := #v[{ liveDie 0 with ready := [{ job := 1, idx := 2 }] }, liveDie 1, liveDie 2, liveDie 3]
    links := State.reset.links.map (fun l => { l with up := true })
    depot := { Depot.reset with die := some 0, open_ := true }
    mem := Memory.writeCells [] loaded
    history := [{ by_ := hostAgent 0, bytes := loaded, view := [], placed := 1, ordinary := false, src := none }], homeClock := 1 }

/-- Registers with a pointer into the ordinary range in g2, one into the versioned range in g3, and numbers. -/
def someRegs : RegFile :=
  ((((RegFile.zero.setPlain 2 0x30000).setPlain 3 0x40000).setPlain 4 7).setPlain 5 1).setC 1 true

/-- A context on die 0 that runs task 0 of the job. -/
def aCtx : Ctx :=
  { die := 0, seq := 0, ctx := 0, job := 1, idx := 0, gen := 7, pc := 0x20000, words := [0, 0, 0], ip := 1,
    base := RegFile.zero, regs := someRegs, raised := 0, baseView := [], view := [], baseRel := [], rel := [], held := [],
    commitPt := none, issues := [], taskOps := [], halting := false, stalled := none }

/-- The package with a context whose turn it is. -/
def withCtx (c : Ctx) : State := { pkg with ctxs := [c], focus := .context c.die c.seq c.ctx }

def okOf {ε α : Type} (d : α) : Except ε α → α
  | .ok x => x
  | .error _ => d

/-- The bytes that an access comes to. -/
def reached (s : State) (kind : AccKind) (va n : Nat) : List Trans := okOf [] (s.access 0 1 (s.jobRanges 1) kind va n)

/-! ### Ill-formed terms -/

def noFlags : CmdHead := { notify := false, arrive := false, after := false, inherit := false, sel := 0 }
/-- SEL without NOTIFY or ARRIVE (R189). -/
def strayName : CmdHead := { noFlags with sel := 3 }

theorem test_wf_head : strayName.wf = false ∧ noFlags.wf = true ∧ { strayName with arrive := true }.wf = true := by decide
theorem test_wf_newest : WellFormed (.vld 1 2 3 .d .newest) = false ∧ WellFormed (.vld 1 2 0 .d .newest) = true := by decide
theorem test_wf_scope : WellFormed (.phase 1) = false ∧ WellFormed (.pwait 1 2 0) = false ∧ WellFormed (.pnum 1 1) = false ∧
    WellFormed (.tcancelPhase 0) = false ∧ WellFormed (.phase 2) = true := by decide
theorem test_wf_skip : WellFormed (.skip 1 0) = false ∧ WellFormed (.skip 1 1) = true := by decide
theorem test_wf_pair : WellFormed (.scmd 3 1) = false ∧ WellFormed (.scmdt 5 1 2) = false ∧ WellFormed (.scmd 4 1) = true := by decide
theorem test_wf_sysreg : WellFormed (.sysrd 1 0x007) = false ∧ WellFormed (.syswr 1 0x021) = false ∧
    WellFormed (.sysrd 1 0x020) = true := by decide
theorem test_wf_commands : ∀ i ∈ [Instr.load strayName 1 1 false 1 0, .store strayName 1 1 1 0, .publish strayName 1 1 1 0,
    .vload strayName 1 1 0 false 1 0, .copy strayName 0, .copyv strayName 0, .fill strayName 0, .arm strayName 1 1 0,
    .disarm strayName 1, .config strayName 1 1 1 0, .stop strayName 1, .marker strayName 1 1, .snap strayName 1 1 0,
    .resume strayName 1 1 0, .hang strayName 1 1 0, .wsload strayName 1 0, .wsread strayName 1 0, .berthfill strayName 1 0,
    .berthevict strayName true 1 0, .berthpin strayName true 1, .berthfree strayName 1, .txload strayName 1 0,
    .txrun strayName 1 0, .encode strayName true 1 0, .coll strayName 1 0, .notify strayName, .bwait strayName 1 0,
    .tlwaitq strayName 1 0], WellFormed i = false := by decide

/-! ### Words written out from the encoding tables of 08_encodings.md and the examples of the manual -/

theorem test_word_sar : decodeScalar 0x04853408 = .ok (.sar 4 5 6 true) := by decide
theorem test_word_clz : decodeScalar 0x04690014 = .ok (.clz 3 9 false) := by decide
theorem test_word_div : decodeScalar 0x0483000C = .ok (.div 4 3 0 false) := by decide
theorem test_word_andi : decodeScalar 0x0C84FF00 = .ok (.andi 4 4 0xFF00) := by decide
theorem test_word_shli : decodeScalar 0x18420004 = .ok (.shli 2 2 4) := by decide
theorem test_word_lim : decodeScalar 0x1D5FFFFB = .ok (.lim 10 (-5)) := by decide
theorem test_word_cmp : decodeScalar 0x24432404 = .ok (.cmp 2 3 4 true .ltu) := by decide
theorem test_word_cmpi : decodeScalar 0x2844FFFF = .ok (.cmpi .eq 2 4 (-1)) := by decide
theorem test_word_cond : decodeScalar 0x2C221800 = .ok (.cand 1 2 3) ∧ decodeScalar 0x2C810003 = .ok (.cnot 4 1) := by decide
theorem test_word_sel : decodeScalar 0x30E22803 = .ok (.sel 7 2 5 3) := by decide
theorem test_word_lea : decodeScalar 0x34C21803 = .ok (.lea 6 2 3 3) := by decide
theorem test_word_taint : decodeScalar 0x38840000 = .ok (.untaint 4 4) ∧ decodeScalar 0x38A40001 = .ok (.istaint 5 4) := by decide
theorem test_word_fadd : decodeScalar 0x40811200 = .ok (.fadd 4 1 2 .f32 .rne) := by decide
theorem test_word_fcvt : decodeScalar 0x40E60C0A = .ok (.fcvt 7 6 .f32 .bf16 .rne) := by decide
theorem test_word_fcvti : decodeScalar 0x4064124B = .ok (.fcvti 3 4 .i32 .f32 .rtz) := by decide
theorem test_word_icvtf : decodeScalar 0x40A2020C = .ok (.icvtf 5 2 .i64 .f32 .rne) := by decide
theorem test_word_fcmp : decodeScalar 0x44221A01 = .ok (.fcmp 1 2 3 .f32 .lt) := by decide
theorem test_word_loads : decodeScalar 0x60824004 = .ok (.ld 4 2 .w 4) ∧ decodeScalar 0x60678005 = .ok (.ld 3 7 .bu 5) ∧
    decodeScalar 0x68836000 = .ok (.ldc 4 3 .d 0) ∧ decodeScalar 0x6C41A003 = .ok (.fld 2 1 .bf16 3) := by decide
theorem test_word_stores : decodeScalar 0x64A16003 = .ok (.st 5 1 .d 3) ∧ decodeScalar 0x64651FFF = .ok (.st 3 5 .b (-1)) ∧
    decodeScalar 0x70224002 = .ok (.fst 1 2 .f32 2) := by decide
theorem test_word_phases : decodeScalar 0x90000400 = .ok (.phase 4) ∧ decodeScalar 0x90240401 = .ok (.pwait 1 4 4) ∧
    decodeScalar 0x90A00302 = .ok (.pnum 5 3) := by decide
theorem test_word_barriers : decodeScalar 0x90A32003 = .ok (.barm 5 3 4) ∧ decodeScalar 0x90032004 = .ok (.barr 3 4) ∧
    decodeScalar 0x90432005 = .ok (.barw 2 3 4) := by decide
theorem test_word_timelines : decodeScalar 0x90032006 = .ok (.tlwait 3 4) ∧ decodeScalar 0x90C00008 = .ok (.stime 6) ∧
    decodeScalar 0x90060009 = .ok (.twait 6) := by decide
theorem test_word_exits : decodeScalar 0xC8090000 = .ok (.cex 9) ∧ decodeScalar 0xD0000000 = .ok .done ∧
    decodeScalar 0xD9000001 = .ok (.skip 2 1) := by decide
theorem test_word_system : decodeScalar 0xFC600012 = .ok (.sysrd 3 0x012) ∧ decodeScalar 0xFC801014 = .ok (.syswr 4 0x014) ∧
    decodeScalar 0xFC002007 = .ok (.trap 7) ∧ decodeScalar 0xFC003000 = .ok .halt := by decide

theorem test_word_versions : decodeScalar 0x74E8300C = .ok (.vld 7 8 6 .d .exact) ∧
    decodeScalar 0x74821809 = .ok (.vld 4 2 3 .w .atLeast) ∧ decodeScalar 0x78E83000 = .ok (.vpub 7 8 6) ∧
    decodeScalar 0x7C053000 = .ok (.vretire 5 6) ∧ decodeScalar 0x7C820002 = .ok (.vnewest 4 2) := by decide
theorem test_word_atomics : decodeScalar 0x80A23288 = .ok (.amoswap 5 2 6 false .rel 4) ∧
    decodeScalar 0x80822989 = .ok (.amocas 4 2 5 false .acq 4) ∧ decodeScalar 0x80622400 = .ok (.amoadd 3 2 4 true .relaxed 0) ∧
    decodeScalar 0x84C21C00 = .ok (.redf 6 2 3 true) ∧ decodeScalar 0x84021C01 = .ok (.redinit 2 3 true) := by decide
theorem test_word_tasks : decodeScalar 0xA0040000 = .ok (.tdec 4) ∧ decodeScalar 0xA0032002 = .ok (.tset 3 4) ∧
    decodeScalar 0xA0020104 = .ok (.tcancelLaunch 2) ∧ decodeScalar 0xA0000384 = .ok (.tcancelPhase 4) ∧
    decodeScalar 0xE10A0000 = .ok (.scmd 8 10) ∧ decodeScalar 0xE10A5801 = .ok (.scmdt 8 10 11) := by decide

/-- R209: c register bits 4:3 must be 0 (reason 4); relation 6 is reason 2. R206: shift 0b11 is reason 2. R230: k is not 0. -/
theorem test_word_refused : decodeScalar 0x25432404 = .error 4 ∧ decodeScalar 0x24432406 = .error 2 ∧
    decodeScalar 0x1842C004 = .error 2 ∧ decodeScalar 0x18420044 = .error 3 := by decide

/-- R189: `load region=2, port=5, a=0x40_0000, b=24, notify`, and two commands of R262. -/
theorem test_word_load : decodeCmd 0x01800850000000180000000040000000 =
    .ok (.load { noFlags with notify := true } 2 5 false 24 0x400000) := by decide
theorem test_word_copy : decodeCmd 0x05800000000000000000000040100003 =
    .ok (.copy { noFlags with notify := true, sel := 3 } 0x401000) := by decide
theorem test_word_txrun : decodeCmd 0x19400000000000060000000040200001 =
    .ok (.txrun { noFlags with arrive := true, sel := 1 } 6 0x402000) := by decide
theorem test_word_command_refused : decodeCmd 0x0F000000000000000000000000000000 = .error 1 ∧
    decodeCmd 0x05000000000000010000000040100000 = .error 3 := by decide

/-- Inputs from edges 1 and 2, output 0 on edge 3. -/
def edges123 : OpCfg :=
  { deferred := false, sat := true, rnd := 2, in0 := 1, in1 := 2, in2 := 0xFFF, in3 := 0xFFF, out0 := 3, out1 := 0xFFF,
    out2 := 0xFFF, out3 := 0xFFF }

/-- R193, R303: `vadd`, saturating, RDN, AFMT 2, ACC 1, ALEV 1. -/
theorem test_word_vadd :
    decodeOp 0x2050FFFFFF002001FFFFFFFFF003024800000000000000000000000000000000 =
      some (.vadd edges123 { afmt := 2, acc := 1, alev := 1, rel := 0, op := 0, span := 0, immb := false, const := 0 }) := by
  decide
/-- R314: `agen` of four loops, without inputs. -/
theorem test_word_agen :
    decodeOp 0x5000FFFFFFFFFFFFFFFFFFFFF003000300010000000000400100000000000002 =
      some (.agen { edges123 with sat := false, rnd := 0, in0 := 0xFFF, in1 := 0xFFF }
        { n0 := 3, n1 := 1, n2 := 0, n3 := 0, s0 := 0x40, s1 := 0x100, s2 := 0, s3 := 0, nt := 2 }) := by decide
/-- Bits 242:240 are reserved, and opcode 0x01 is not assigned. -/
theorem test_word_operator_refused :
    decodeOp 0x2051FFFFFF002001FFFFFFFFF003000000000000000000000000000000000000 = none ∧
    decodeOp 0x0100FFFFFF002001FFFFFFFFF003000000000000000000000000000000000000 = none := by decide

/-- The opcode table's words: four bytes of a scalar instruction. -/
theorem test_table_word : decodeTableWord 32 0x04690014 = some (.clz 3 9 false) := by decide

/-! ### Single steps, with results from the worked examples of the manual -/

/-- The context after one instruction on a register file. -/
def after (i : Instr) (r : RegFile) : Option Ctx :=
  match exec i (withCtx { aCtx with regs := r }) with
  | .next t => t.cur
  | _ => none

/-- Registers g1 = `a` and g2 = `b`. -/
def regsAB (a b : Word64) : RegFile := (RegFile.zero.setPlain 1 a).setPlain 2 b

/-- g3 and the raised flags after an instruction on g1 and g2. -/
def givesAB (i : Instr) (a b : Word64) : Option (Word64 × BitVec 8) := (after i (regsAB a b)).map (fun c => (c.regs.rdG 3, c.raised))

/-- f3 and the raised flags after an instruction on f1 and f2. -/
def givesF (i : Instr) (a b : Nat) : Option (Word64 × BitVec 8) :=
  (after i ((RegFile.zero.setF 1 .f64 a).setF 2 .f64 b)).map (fun c => (c.regs.rdF 3, c.raised))

-- R204, the table of results
theorem test_div : givesAB (.div 3 1 2 false) 7 (-2) = some (-3, 0) := by decide +kernel
theorem test_rem : givesAB (.rem 3 1 2 false) (-7) 2 = some (-1, 0) := by decide +kernel
theorem test_remu_by_zero : givesAB (.remu 3 1 2 true) 0x1234567800000009 0 = some (-1, 64) := by decide +kernel
theorem test_divu_w : givesAB (.divu 3 1 2 true) 0x00000000FFFFFFFF 1 = some (-1, 0) := by decide +kernel
theorem test_div_overflow : givesAB (.div 3 1 2 false) 0x8000000000000000 (-1) = some (0x8000000000000000, 0) := by decide +kernel
theorem test_sar_w : givesAB (.sar 3 1 2 true) 0x0000000080000010 0x24 = some (0xFFFFFFFFF8000001, 0) := by decide +kernel
theorem test_shr : givesAB (.shr 3 1 2 false) 0x8000000000000000 63 = some (1, 0) := by decide +kernel
theorem test_mulh : givesAB (.mulh 3 1 2 false) (-1) (-1) = some (0, 0) := by decide +kernel
theorem test_mulhu : givesAB (.mulhu 3 1 2 false) (-1) (-1) = some (0xFFFFFFFFFFFFFFFE, 0) := by decide +kernel
theorem test_clz_w : givesAB (.clz 3 1 true) 0xFFFFFFFF00000000 0 = some (32, 0) := by decide +kernel
theorem test_brev_w : givesAB (.brev 3 1 true) 1 0 = some (0xFFFFFFFF80000000, 0) := by decide +kernel
theorem test_minu : givesAB (.minu 3 1 2 false) (-1) 3 = some (3, 0) := by decide +kernel
-- R208, the second step of the constant 0xFEDC_BA98_7654_3210
theorem test_lsh : (after (.lsh 1 0xBA98) (regsAB 0xFEDC 0)).map (fun c => c.regs.rdG 1) = some 0xFEDCBA98 := by decide +kernel
-- R210: `cmpi.ltu c1, g5, -1` is true for every value but all ones
theorem test_cmpi_ltu : (after (.cmpi .ltu 1 1 (-1)) (regsAB (-2) 0)).map (fun c => c.regs.rdC 1) = some true ∧
    (after (.cmpi .ltu 1 1 (-1)) (regsAB (-1) 0)).map (fun c => c.regs.rdC 1) = some false := by decide +kernel
-- R221: -0.4 and -1.0 to u32 under RTZ
theorem test_fcvti_u32 : givesF (.fcvti 3 1 .u32 .f32 .rtz) 0xBECCCCCD 0 = some (0, 1) ∧
    givesF (.fcvti 3 1 .u32 .f32 .rtz) 0xBF800000 0 = some (0, 16) := by decide +kernel
-- the worked job of 09_scalar_compute.md: 3.875 / 3.0, then to BF16
theorem test_fdiv : givesF (.fdiv 3 1 2 .f32 .rne) 0x40780000 0x40400000 = some (0x3FA55555, 1) := by decide +kernel
theorem test_fcvt_bf16 : givesF (.fcvt 3 1 .f32 .bf16 .rne) 0x3FA55555 0 = some (0x3FA5, 1) := by decide +kernel
theorem test_fadd : givesF (.fadd 3 1 2 .f32 .rne) 0x3FC00000 0x40100000 = some (0x40700000, 0) := by decide +kernel
-- R217: the square root of -0 is -0; infinity minus infinity is the canonical NaN with NV
theorem test_fsqrt : givesF (.fsqrt 3 1 .f32 .rne) 0x80000000 0 = some (0x80000000, 0) := by decide +kernel
theorem test_fsub_inf : givesF (.fsub 3 1 2 .f32 .rne) 0x7F800000 0x7F800000 = some (0x7FC00000, 16) := by decide +kernel
-- R235: a byte is sign-extended; the package's memory holds EF at 0x30000
theorem test_ld_b : (after (.ld 1 2 .b 0) someRegs).map (fun c => c.regs.rdG 1) = some 0xFFFFFFFFFFFFFFEF := by decide +kernel
theorem test_ld_wu : (after (.ld 1 2 .wu 1) someRegs).map (fun c => c.regs.rdG 1) = some 0x01234567 := by decide +kernel
-- R233, R34: a store is not in memory before the commit
theorem test_st_held : (after (.st 4 2 .b 0) someRegs).map (fun c => c.held.length) = some 1 ∧
    (match exec (.st 4 2 .b 0) (withCtx aCtx) with
      | .next t => t.mem.read 0x120000
      | _ => 0) = 0xEF := by decide +kernel
-- R234, R235: 2^56 and above is PROTECT, which ends the block
theorem test_ld_high : after (.ld 1 2 .b 0) (regsAB 0 (2 ^ 56)) = none := by decide +kernel
-- R230: a skip of one instruction
theorem test_skip : (after (.skip 1 1) someRegs).map (fun c => c.ip) = some 3 ∧
    (after (.skip 2 1) someRegs).map (fun c => c.ip) = some 2 := by decide +kernel
-- R47, R247: EXPECT 3, GEN 9; the arrival that completes generation 9 carries the error flag
def aBarrier : Barrier :=
  { die := 0, num := 5, expect := 3, sum := 2, gen := 9, err := false, lasterr := false, overrun := false, notify := none,
    owner := 1, rels := [] }
def barrierAfter (i : Instr) (s : State) (die num : Nat) : Option Barrier :=
  match exec i s with
  | .next t => some (t.barrier die num)
  | _ => none
theorem test_barrier : (barrierAfter (.barrierArrival 1 0 5 1 true 0) { pkg with barriers := [aBarrier] } 0 5).map
    (fun b => (b.gen, b.lasterr, b.sum, b.err, b.overrun)) = some (10, true, 0, false, false) := by decide +kernel
theorem test_barrier_passed : { aBarrier with gen := 10 }.passed 9 = true ∧ { aBarrier with gen := 10 }.passed 10 = false := by
  decide
-- R26: COUNT 1 of a waiting record comes to 0, and the task is READY
theorem test_notify : (match exec (.taskNotify 1 1 7) pkg with
      | .next t => t.taskRec 1 1
      | _ => none) = some (aRecord 0 1) := by decide +kernel
-- R138, the worked example: K = 2, Q = 2, live {1, 2}; version 2 retired by one reader, then version 1 by another
def slot12 (r1 r2 : Nat) : Slot :=
  { job := 1, range := 1, slot := 0, rels := [],
    live := [{ num := 1, stamp := 0, retired := r1, data := [] }, { num := 2, stamp := 0, retired := r2, data := [] }] }
theorem test_reclaim : (reclaimLive 2 (slot12 2 1).live).map (fun v => v.num) = [2] ∧
    (reclaimLive 2 (slot12 1 1).live).map (fun v => v.num) = [1, 2] := by decide
theorem test_vlook : vlook (slot12 0 0) .exact 0 = .gone ∧ vlook (slot12 0 0) .exact 3 = .wait ∧
    vlook (slot12 0 0) .atLeast 3 = .wait ∧
    vlook { slot12 0 0 with live := [{ num := 2, stamp := 0, retired := 1, data := [] }, { num := 5, stamp := 0, retired := 0, data := [] }] }
      .exact 3 = .skipped := by decide
-- R410: the straps
theorem test_orient : (State.reset.die 0).orient = 0x090 ∧ (State.reset.die 3).orient = 0x387 := by decide
-- R379: a free semaphore is taken by a token
theorem test_semaphore : (match exec (.semWrite 1 4 0x77) pkg with
      | .next t => some (t.sem 4)
      | _ => none) = some 0xC000000000000077 := by decide +kernel

/-! ### Witnesses: concrete states that meet the hypotheses of the statements -/

theorem aCtx_runs : (withCtx aCtx).cur = some aCtx := by decide +kernel
theorem meets_IntegerGroup : (withCtx aCtx).cur = some aCtx := by decide +kernel
theorem meets_Division : (withCtx aCtx).cur = some aCtx ∧ lo true (aCtx.regs.rdG 0) = 0 ∧ lo false (aCtx.regs.rdG 4) ≠ 0 :=
  by decide +kernel
theorem meets_CompareResults : (withCtx aCtx).cur = some aCtx := by decide +kernel
theorem meets_ImmediatesAndAddresses : (withCtx aCtx).cur = some aCtx := by decide +kernel
theorem meets_FloatMoves : (withCtx aCtx).cur = some aCtx := by decide +kernel

/-- A context with a value in f1. -/
def withF (x : Nat) : Ctx := { aCtx with regs := RegFile.zero.setF 1 .f32 x }
/-- Each case of the conversion: a NaN, an infinity, a value above, below and within i32. -/
theorem meets_FloatToInteger : (∀ x ∈ [0x7FC00000, 0xFF800000, 0x4F800000, 0xCF800000, 0x3FC00000],
      (withCtx (withF x)).cur = some (withF x)) ∧
    (withF 0x7FC00000).regs.valF 1 .f32 = .nan ∧ (withF 0xFF800000).regs.valF 1 .f32 = .inf true ∧
    ([0x4F800000, 0xCF800000, 0x3FC00000].all (fun x => match (withF x).regs.valF 1 .f32 with
      | .fin _ => true
      | _ => false)) = true := by decide +kernel
theorem meets_FloatArithmeticAndValues : (withCtx (withF 0x3FC00000)).cur = some (withF 0x3FC00000) ∧
    (∃ x : Ex, x.den ≠ 0 ∧ x.num ≠ 0 ∧ x.neg = true) ∧ (∃ x : Ex, x.den ≠ 0 ∧ x.num = 0) :=
  ⟨by decide +kernel, ⟨⟨true, 3, 2⟩, by decide⟩, ⟨⟨false, 0, 1⟩, by decide⟩⟩

/-! #### Scalar memory -/

def plainAt (n : Nat) (kind : AccKind) : List Trans := reached (withCtx aCtx) kind 0x30000 n
def slotBytes (n : Nat) (kind : AccKind) : List Trans := reached (withCtx aCtx) kind 0x40000 n

/-- The base in g2 and displacement 0, at each width: the access comes to its bytes, none of them versioned. -/
theorem meets_LoadResults : (withCtx aCtx).cur = some aCtx ∧
    (∀ m ∈ [LdMode.b, .h, .w, .d], Reaches (withCtx aCtx) aCtx .read (addrOf aCtx 2 0 m.bytes) m.bytes (plainAt m.bytes .read)) ∧
    (∀ m ∈ [FMode.f16, .f32, .f64, .bf16],
      Reaches (withCtx aCtx) aCtx .read (addrOf aCtx 2 0 m.bytes) m.bytes (plainAt m.bytes .read)) ∧
    Plain (plainAt 8 .read) := by unfold Reaches Plain; decide +kernel
/-- A block that has stored a byte. -/
def stored : Ctx := { aCtx with held := [(1, .store 0x30000 ((plainAt 1 .write).map (fun t => t.loc)) [0x5A] [])] }
theorem meets_StoresAndForwarding : (withCtx aCtx).cur = some aCtx ∧
    Reaches (withCtx aCtx) aCtx .write (addrOf aCtx 2 0 8) 8 (plainAt 8 .write) ∧ Plain (plainAt 8 .write) ∧
    Reaches (withCtx aCtx) aCtx .write (addrOf aCtx 3 0 8) 8 (slotBytes 8 .write) ∧ ¬ Plain (slotBytes 8 .write) ∧
    stored.held = [] ++ [(1, .store 0x30000 ((plainAt 1 .write).map (fun t => t.loc)) [0x5A] [])] ∧
    ((plainAt 1 .write).map (fun t => t.loc)).Nodup ∧ (plainAt 1 .write).length = 1 := by
  unfold Reaches Plain; decide +kernel

/-- 2^56; an odd address; an address that no range holds; a write that waits for a die out of reach. -/
theorem meets_FailingAccesses : (withCtx aCtx).cur = some aCtx ∧
    2 ^ 56 ≤ addrOf { aCtx with regs := regsAB (2 ^ 56) 0 } 1 0 2 ∧
    addrOf { aCtx with regs := regsAB 0x30001 0 } 1 0 2 % 2 ≠ 0 ∧
    (match (withCtx aCtx).access 0 1 ((withCtx aCtx).jobRanges 1) .read 0x90000 4 with
      | .error f => some f.1
      | .ok _ => none) = some (.prot 1) ∧ aCtx.stalled = none := by decide +kernel

/-- The slot of the versioned range, with versions 1 and 2. -/
def twoVersions : State := { withCtx aCtx with slots := [slot12 0 0] }
def theRef : SlotRef := { range := 1, slot := 0, off := 0, entry := versionedRange 4 4 }
theorem meets_VersionReads : twoVersions.cur = some aCtx ∧
    Reaches twoVersions aCtx .read 0x40000 8 (slotBytes 8 .read) ∧ (aCtx.regs.rdG 3).toNat = 0x40000 ∧
    (slotBytes 8 .read).head?.map (fun t => (rgVers t.entry, slotRef 0x40000 t)) = some (true, theRef) ∧
    (slotBytes 1 .read).length = 1 ∧
    vlook (twoVersions.slotAt 1 theRef) .exact 1 = .version { num := 1, stamp := 0, retired := 0, data := [] } ∧
    vlook (twoVersions.slotAt 1 theRef) .exact 0 = .gone ∧ vlook (twoVersions.slotAt 1 theRef) .exact 3 = .wait := by
  unfold Reaches; decide +kernel

theorem meets_AtomicsAndHeldOperations : (withCtx aCtx).cur = some aCtx ∧
    Reaches (withCtx aCtx) aCtx .atomic 0x30000 4 (plainAt 4 .atomic) ∧
    Reaches (withCtx aCtx) aCtx .atomic 0x30000 8 (plainAt 8 .atomic) ∧ Plain (plainAt 8 .atomic) ∧
    Reaches (withCtx aCtx) aCtx .write 0x40000 8 (slotBytes 8 .write) ∧
    Reaches (withCtx aCtx) aCtx .atomic 0x40000 4 (slotBytes 4 .atomic) ∧
    (slotBytes 8 .atomic).head?.map (fun t => (rgVers t.entry, slotRef 0x40000 t)) = some (true, theRef) ∧
    (withCtx aCtx).mem.wf = true ∧ ((plainAt 8 .atomic).map (fun t => t.loc)).Nodup ∧ (plainAt 8 .atomic).length = 8 := by
  unfold Reaches Plain; decide +kernel

/-! #### Waits, the system, the end of a block -/

/-- A barrier of job 1 on die 0, a phase at 2, and a queue whose counter stands at 5. -/
def waitState : State :=
  { withCtx aCtx with
    barriers := [{ aBarrier with gen := 10 }]
    queues := [{ (pkg.queue 1 0x1000) with counter := 5 }]
    phases := [{ (pkg.phaseAt (aCtx.agent.instOf 3) 0) with p := 2 }] }
theorem meets_Waits : waitState.cur = some aCtx ∧ waitState.phaseShare 1 3 ≠ 0 ∧
    (waitState.phaseAt (aCtx.agent.instOf 3) 0).p = 2 ∧ waitState.live (barDie 5) = true ∧ barNum 5 < 768 ∧
    (waitState.barrier 0 5).heldByOther 1 = false ∧ (waitState.barrier 0 5).passed 9 = true ∧
    (waitState.barrier 0 5).passed 10 = false ∧ waitState.queueFault 1 0x1000 = none ∧
    (waitState.queue 1 0x1000).counter = 5 ∧ (waitState.die 0).stime = 0x1000 := by decide +kernel
/-- A scope without a share, a dead die, a barrier that does not exist or is another job's, a queue of a dead die or none. -/
theorem meets_Waits_faults : waitState.phaseShare 1 5 = 0 ∧ { waitState with livedies := 1 }.live (barDie 0x405) = false ∧
    768 ≤ barNum 768 ∧ (waitState.barrier 0 5).heldByOther 2 = true ∧ waitState.queueFault 1 0x1008 = some (.prot 7) ∧
    { waitState with livedies := 1 }.queueFault 1 0x1400 = some .dieLost := by decide +kernel
theorem meets_PhasesBarriersTimelines : waitState.cur = some aCtx ∧ waitState.phaseShare 1 3 ≠ 0 ∧
    waitState.phaseShare 1 5 = 0 ∧ (waitState.phaseAt (aCtx.agent.instOf 3) 0).p ≠ BitVec.allOnes 32 ∧
    waitState.live (barDie 5) = true ∧ waitState.live (barDie 0xFFFFFFFFFFFFFFFF) = true ∧
    barNum 767 < 768 ∧ 768 ≤ barNum 768 ∧ { waitState with livedies := 1 }.live (barDie 0x405) = false ∧
    (waitState.barrier 0 5).heldByOther 1 = false ∧ (waitState.barrier 0 5).heldByOther 2 = true := by decide +kernel
theorem meets_CapturedOperations : waitState.cur = some aCtx ∧ waitState.queueFault 1 0x1007 = none ∧
    waitState.queueFault 1 0x1008 = some (.prot 7) ∧ { waitState with livedies := 1 }.queueFault 1 0x1400 = some .dieLost := by
  decide +kernel
theorem meets_SystemRegisters : waitState.cur = some aCtx ∧ waitState.job? aCtx.job = some aJob ∧
    bit aJob.record.toNat 8 = false ∧ bit { aJob with record := aJob.record + 256 }.record.toNat 8 = true := by decide +kernel
theorem aCtx_quiet : Quiet (withCtx aCtx) aCtx := by unfold Quiet; decide +kernel
theorem meets_Exits : (withCtx aCtx).cur = some aCtx ∧ Quiet (withCtx aCtx) aCtx ∧ aCtx.regs.rdC 1 = true ∧
    aCtx.regs.rdC 2 = false ∧ (aCtx.regs.rdG 2).toNat < 2 ^ 56 ∧ (aCtx.regs.rdG 2).toNat % 16 = 0 ∧
    (aCtx.regs.rdG 4).toNat % 16 ≠ 0 :=
  ⟨by decide +kernel, by unfold Quiet; decide +kernel, by decide +kernel⟩
theorem meets_TaskEnds : (withCtx aCtx).cur = some aCtx ∧ Quiet (withCtx aCtx) aCtx ∧
    (withCtx aCtx).job? 1 = some aJob ∧ (withCtx aCtx).taskRec 1 0 = some (aRecord 0 3) ∧
    ((withCtx aCtx).hwSpan 1 (aJob.recVa 0) 8).isSome = true ∧ bit (aRecord 0 3) 383 = false ∧
    ((withCtx aCtx).aux 1 0).node = none :=
  ⟨by decide +kernel, by unfold Quiet; decide +kernel, by decide +kernel⟩
def bytes0 : List Byte := toBytes 8 0x1122334455667788
/-- Ranges over die 0's weight store (page 64) and the host memory of port 1 (page 65). -/
def weightRange : BitVec 256 :=
  BitVec.ofNat 256 (1 + 15 * 2 ^ 83 + 2 * 2 ^ 146 + 0x4000 * 2 ^ 148 + 64 * 2 ^ 176 + 64 * 2 ^ 216)
def hostRange : BitVec 256 := BitVec.ofNat 256 (1 + 15 * 2 ^ 83 + 3 * 2 ^ 146 + 2 ^ 144 + 65 * 2 ^ 176 + 65 * 2 ^ 216)
/-- The job with shares of 2 for its phases at quarters, and those ranges; its weight store is open and busy. -/
def wideJob : Job := { aJob with record := aJob.record + BitVec.ofNat 1024 (2 ^ 464), ranges := aJob.ranges ++ [weightRange, hostRange] }
def wide (c : Ctx) : State := { withCtx c with jobs := [wideJob] }
def writing (c : Ctx) : State :=
  { wide c with
    dies := pkg.dies.map (fun d => { d with stime := 20000 })
    queues := [{ pkg.queue 1 0x5000 with started := [
      { tln := 1, word := BitVec.ofNat 128 (0x11 * 2 ^ 120), cls := 0, deadline := 0, view := [], phase := .running, progress := 0,
        buf := [], desc := 1, stalled := none, node := none, counted := [] }] }] }
/-- An access to a host whose budget of DMA is spent. -/
theorem meets_AccessChecks_budget :
    (match (wide aCtx).access 0 1 ((wide aCtx).jobRanges 1) .read 0x410000 8 with
      | .ok ts => ts.all (fun t => isHostLoc t.loc) && ((wide aCtx).dmaPass aCtx ts).isSome &&
          (({ wide aCtx with dies := (wide aCtx).dies.map (fun d => { d with left := [(6, 0, 0, 0, 0)] }) } : State).dmaPass aCtx ts).isNone
      | .error _ => false) = true := by decide +kernel

/-- Blocks that hold one operation each: they commit, and their context goes on at the target of the exit. -/
def holding (h : HeldOp) : Ctx := { aCtx with held := [(0, h)] }
def pointing (x : CommitPoint) : Ctx := { aCtx with commitPt := some (0, x) }
/-- What stands of the premises of a commit: nothing stops it, and its context lives and goes on behind it. -/
def goesOn (s : State) (c : Ctx) : Bool :=
  s.cur == some c && (s.commitStop c).isNone && !(s.aux c.job c.idx).owesOF &&
    match exec (.jex 0) s with
    | .next t => t.cur.map (fun x => (x.held, x.commitPt, x.words, x.pc)) == some ([], none, [], c.pc) && t.refused == [] &&
        !(t.aux c.job c.idx).missed && t.lives c
    | _ => false
def oneVersion (c : Ctx) : State := { withCtx c with slots := [{ slot12 0 0 with live := (slot12 0 0).live.take 1 }] }
/-- Semaphore window 0 of the package: addresses 0x30000 to 0x4FFFF of job 1. -/
def windowed (c : Ctx) : State :=
  { withCtx c with windows := pkg.windows.set 0 #v[0x8000000000030000, 0x4FFFF, 1, 0] }
def opened (c : Ctx) : State :=
  { withCtx c with
    reductions := [{ job := 1, va := 0x40000, target := theRef, f32 := true, count := 3, next := 0, acc := 0, held := [],
                     agent := c.agent, view := [] }] }
theorem meets_HeldOperationsCommit :
    (withCtx aCtx).slotOf 1 0x40000 = some theRef ∧
    (let c := holding (.vpub 0x40000 7 3 [] []); goesOn (oneVersion c) c = true) ∧
    (let c := holding (.vretire 0x40000 1); goesOn (oneVersion c) c = true) ∧
    (let c := holding (.phase 3); goesOn (withCtx c) c = true ∧ goesOn (wide c) c = true) ∧
    (withCtx aCtx).phaseShare 1 3 = 1 ∧ (wide aCtx).phaseShare 1 3 = 2 ∧
    (let c := holding (.barm 5 (2 ^ 32) 3); goesOn (withCtx c) c = true) ∧
    (let c := holding (.barr 5 1)
     goesOn { withCtx c with barriers := [aBarrier] } c = true ∧ goesOn { withCtx c with barriers := [{ aBarrier with sum := 1 }] } c = true) := by
  decide +kernel
/-- An addition, an exchange that fails and one that succeeds; the same to a busy weight store and to a window. -/
theorem meets_HeldOperationsCommit_points :
    (let c := pointing (.amo .add 0x30000 false .relaxed 4 1 0 3)
     goesOn (withCtx c) c = true ∧ (withCtx c).windowOf 1 0x30000 = none ∧ (withCtx c).access 0 1 ((withCtx c).jobRanges 1) .atomic 0x30000 8 =
       .ok (plainAt 8 .atomic)) ∧
    (let c := pointing (.amo .cas 0x30000 false .rel 4 1 0 3)
     goesOn (withCtx c) c = true) ∧
    (let c := pointing (.amo .swap 0x400000 true .acqrel 4 1 0 3)
     (writing c).wsBusy 0 = true ∧ goesOn (writing c) c = true) ∧
    ((windowed aCtx).windowOf 1 0x30000).isSome = true ∧ ((windowed aCtx).windowOf 1 0x50000) = none ∧
    (let c := pointing (.redinit 0x40000 true 3)
     goesOn (withCtx c) c = true ∧ goesOn (opened c) c = true ∧ goesOn (windowed c) c = true ∧
       ((withCtx c).redAt 1 theRef true) = none ∧ ((opened c).redAt 1 theRef true).isSome = true) ∧
    (let c := pointing (.redf 0x40000 true 0 0x3F800000)
     goesOn (withCtx c) c = true ∧ goesOn (opened c) c = true ∧ goesOn (windowed c) c = true) := by decide +kernel
/-- An access outside every range, a publication of a number that is not above NEWEST, a full pool, the highest phase, a queue
without room. -/
theorem meets_CommitStops :
    (let c := holding (.store 0x90000 [] [1] [])
     ((withCtx c).access 0 1 ((withCtx c).jobRanges 1) .write 0x90000 1).toOption.isNone = true ∧ ((withCtx c).commitStop c).isSome = true) ∧
    (let c := pointing (.amo .add 0x90000 false .relaxed 4 1 0 3); ((withCtx c).commitStop c).isSome = true) ∧
    (slotBytes 8 .write).length = 8 ∧ (twoVersions.slotAt 1 theRef).newest = 2 ∧
    rgK theRef.entry ≤ (twoVersions.slotAt 1 theRef).live.length ∧
    (let c := holding (.phase 3)
     let s := { withCtx c with phases := [{ (pkg.phaseAt (c.agent.instOf 3) 0) with p := BitVec.allOnes 32 }] }
     (s.phaseAt (c.agent.instOf 3) c.die).p = BitVec.allOnes 32 ∧ (s.commitStop c).isSome = true) := by decide +kernel
/-- The job has no spill context left. -/
def fullQueue (c : Ctx) : State :=
  { withCtx c with queues := [{ pkg.queue 1 0 with spill := [
      { tln := 1, word := 0, cls := 0, deadline := 0, view := [], phase := .running, progress := 0, buf := [], desc := 0,
        stalled := none, node := none, counted := [] }] }] }
theorem meets_CommitStops_room :
    (let c : Ctx := { aCtx with issues := [{ qid := 0, word := 0, dest := none }] }
     (fullQueue c).room 1 0 = 0 ∧ (fullQueue c).cur = some c ∧ ((fullQueue c).commitStop c).isSome = true ∧
       ((fullQueue c).queue 1 0).overflowed = false) := by decide +kernel
/-- A store to plain memory, one to a weight store that is open, and one into word 0 of the valid record 1. -/
theorem meets_HeldStoresCommit :
    (let c := holding (.store 0x30000 ((plainAt 8 .write).map (fun t => t.loc)) bytes0 [])
     goesOn (withCtx c) c = true) ∧
    (let c := holding (.store 0x10080 [] bytes0 []); (withCtx c).commitStop c = none ∧ (withCtx c).lives c = true ∧ (withCtx c).taskRec 1 1 = some (aRecord 1 0)) ∧
    (let c := holding (.store 0x400000 [] bytes0 [])
     goesOn { wide c with dies := pkg.dies.map (fun d => { d with stime := 20000 }) } c = true) ∧
    (let c := holding (.store 0x30000 ((plainAt 8 .write).map (fun t => t.loc)) bytes0 [])
     (match exec (.jex 0) (withCtx c) with
      | .next t => t.history.map (fun r => r.placed)
      | _ => []) = [1, 0]) := by decide +kernel
/-- Issues with room on chip and behind a command in the spill ring; operations on records 1 and 2; a task that cancels itself. -/
def acting (op : TaskOp) : Ctx := { aCtx with taskOps := [op] }
theorem meets_OperationsCommit :
    (let c : Ctx := { aCtx with issues := [{ qid := 0, word := 0, dest := some 3 }] }
     goesOn (withCtx c) c = true ∧ ((withCtx c).queue 1 0).spill = [] ∧ ((withCtx c).queue 1 0).onChip.length < Config.onChipQueue) ∧
    (withCtx aCtx).selfCancel aCtx .cancelJob = true ∧ (withCtx (acting .cancelJob)).commitStop (acting .cancelJob) = none ∧
    (withCtx (acting .cancelJob)).lives (acting .cancelJob) = true ∧
    (let op := TaskOp.dec (BitVec.ofNat 64 (1 + 7 * 2 ^ 16))
     goesOn (withCtx (acting op)) (acting op) = true ∧ (withCtx aCtx).selfCancel aCtx op = false) ∧
    (withCtx aCtx).taskRec 1 1 = some (aRecord 1 0) ∧ recCount (aRecord 1 0) = 1 ∧ recGen (aRecord 1 0) = 7 ∧
    (withCtx aCtx).taskRec 1 2 = some (aRecord 0 1) ∧ recCount (aRecord 0 1) = 0 ∧ recValid (aRecord 0 1) = true ∧
    (withCtx aCtx).taskRec 1 3 = some 0 ∧ bit 0 63 = false ∧ recGen 0 = 0 ∧
    ({ job := 1, idx := 1 } : ReadyEntry) ∉ ((withCtx aCtx).die ((withCtx aCtx).taskDie (aRecord 1 0))).ready ∧
    (let op := TaskOp.set 3 (BitVec.ofNat 64 (2 ^ 63 + 8 * 2 ^ 32)); goesOn (withCtx (acting op)) (acting op) = true) := by
  decide +kernel
theorem meets_TrapInstruction : (withCtx aCtx).cur = some aCtx := by decide +kernel
theorem meets_FaultsAndParks : (withCtx aCtx).ctx? aCtx.die aCtx.seq aCtx.ctx = some aCtx ∧
    ((withCtx aCtx).abort aCtx).lives aCtx = true := by decide +kernel

/-! #### Tasks and the scheduler -/

theorem meets_SaveAndDispatch : Legal RegFile.zero ∧ pkg.live 0 = true ∧ (pkg.die 0).stopped = false ∧ pkg.ctx? 0 15 7 = none ∧
    pkg.nextReady 0 = some { job := 1, idx := 2 } ∧ pkg.nextReady 1 = none ∧ pkg.taskRec 1 2 = some (aRecord 0 1) ∧
    (pkg.aux 1 2).saved = none ∧ (pkg.hwLocs 1 (recSave (aRecord 0 1)) 392).isSome = true := by
  unfold Legal; decide +kernel
theorem meets_ReadyAndNotified : pkg.job? 1 = some aJob ∧ pkg.taskRec 1 1 = some (aRecord 1 0) ∧
    recValid (aRecord 1 0) = true ∧ recGen (aRecord 1 0) = 7 ∧ recCount (aRecord 1 0) = 1 ∧ recState (aRecord 1 0) = 0 ∧
    (pkg.hwSpan 1 (aJob.recVa 1) 8).isSome = true ∧ pkg.taskRec 1 2 = some (aRecord 0 1) ∧ recCount (aRecord 0 1) = 0 ∧
    recValid (aRecord 2 0 - 2 ^ 63) = false := by decide +kernel
/-- No context of die 0 is free: one runs task 0, of class 0, the others tasks without a record; the ready task has class 1. -/
def crowded : State :=
  { pkg with
    ctxs := (upFrom 0 128).map (fun k => { aCtx with seq := k / 8, ctx := k % 8, idx := if k = 0 then 0 else 9 + k })
    mem := pkg.mem.writeCells (bytesAt 0x100100 64 (aRecord 0 1 + 2 ^ 60)) }
/-- The running task of the highest record index is the one that yields. -/
def lastCtx : Ctx := { aCtx with seq := 15, ctx := 7, idx := 136 }
theorem meets_PreemptionAndTime_crowded : 128 ≤ (crowded.ctxs.filter (fun x => x.die == 0)).length ∧
    crowded.nextReady 0 = some { job := 1, idx := 2 } ∧ recClass ((crowded.taskRec 1 2).getD 0) = 1 ∧
    crowded.ctxs.getLast? = some lastCtx ∧ crowded.ctx? 0 15 7 = some lastCtx ∧
    crowded.ctxs.all (fun x => x == lastCtx || (crowded.yieldsBefore lastCtx x && !crowded.yieldsBefore x lastCtx)) = true := by
  decide +kernel
theorem meets_PreemptionAndTime : (crowded.toYield 0).isSome = true ∧ pkg.toYield 0 = none ∧
    (pkg.die 0).period < ({ liveDie 0 with stime := 16000 }).stime.toNat / 16000 ∧
    recDeadline (aRecord 0 1 + 5 * 2 ^ 192) ≠ 0 ∧ recDeadline (aRecord 0 1 + 5 * 2 ^ 192) < (pkg.die 0).stime.toNat ∧
    bit (aRecord 0 1) 445 = false ∧ (pkg.aux 1 2).missed = false ∧ recValid (aRecord 0 1 + 5 * 2 ^ 192) = true ∧
    ({ pkg with tasks := [{ (pkg.aux 1 1) with park := some (.time 5) }] }.aux 1 1).park = some (.time 5) ∧
    ({ pkg with tasks := [{ (pkg.aux 1 1) with park := some (.bank 0 5) }] }.aux 1 1).park = some (.bank 0 5) := by
  decide +kernel

/-- The save area and word 0 can be written; the event ring of 16 is empty, or full; the handler is task 1 or none. -/
def ring (prod : Nat) (handler : Nat) : State :=
  { withCtx aCtx with
    mem := pkg.mem.writeCells (bytesAt 0x108000 24 prod)
    jobs := [{ aJob with record := aJob.record ||| BitVec.ofNat 1024 (handler * 2 ^ 16) }] }
theorem meets_TakingAFault : (withCtx aCtx).lives aCtx = true ∧
    ((withCtx aCtx).hwSpan 1 (recSave (aRecord 0 3)) 392).isSome = true ∧ ((withCtx aCtx).taskRec 1 0) = some (aRecord 0 3) ∧
    ((withCtx aCtx).abort aCtx).taskRec 1 0 = some (aRecord 0 3) ∧
    (((withCtx aCtx).abort aCtx).hwSpan 1 (aJob.recVa 0) 8).isSome = true ∧
    (withCtx { aCtx with gen := 6 }).lives { aCtx with gen := 6 } = false ∧
    ((withCtx { aCtx with gen := 6 }).abort { aCtx with gen := 6 }).lives { aCtx with gen := 6 } = false := by decide +kernel
theorem meets_PostingAnEvent :
    (∀ x ∈ [(15, 1), (16, 1), (0, 0xFFFF)], (ring x.1 x.2).hwRead 1 0x18000 24 = some x.1 ∧
      (((ring x.1 x.2).job? 1).map (fun j => (j.evRing, j.evCap, j.handler))) = some (0x18000, 16, x.2) ∧
      ((ring x.1 x.2).hwSpan 1 (0x18000 + 64 + 64 * (x.1 % 16)) 64).isSome = true ∧ ((ring x.1 x.2).hwSpan 1 0x18010 4).isSome = true ∧
      ((ring x.1 x.2).hwSpan 1 0x18000 8).isSome = true) ∧
    ((ring 15 1).appendEvent 1 0 { code := 0x15, srck := 0, index := 0 }).taskRec 1 1 = some (aRecord 1 0) := by decide +kernel
def someOf {α : Type} (d : α) (o : Option α) : α := o.getD d

/-- The share of die 0 of a package boundary is in; a staff of a window boundary is on its way. -/
def staffed : State :=
  { pkg with
    phases := [{ pkg.phaseAt { scope := 4, job := 1, key := 0 } 0 with arrived := 1 }]
    staffs := [{ skind := 1, sdie := 1, ddie := 0, scope := 6, job := 1, phase := 1, rseq := 0, stamp := 0, rels := [], covers := [] }] }
theorem meets_BarriersAndBoundaries : waitState.live 0 = true ∧ (waitState.barrier 0 5).expect = 3 ∧
    (waitState.barrier 0 6).expect = 0 ∧
    staffed.live 0 = true ∧ (staffed.job? 1).isSome = true ∧ staffed.shareDone { scope := 4, job := 1, key := 0 } 0 = true ∧
    (staffed.phaseAt { scope := 4, job := 1, key := 0 } 0).sent < 1 ∧ staffed.reach 1 0 = true ∧
    (staffed.staffs.find? (fun y => y.sdie == 1 && y.ddie == 0 && y.scope == 6 && y.job == 1)).isSome = true ∧
    staffed.shareDone { scope := 6, job := 1, key := 0 } 0 = false := by decide +kernel

/-- A publication of version `n` of the slot with versions 1 and 2, or with the first of them alone. -/
def publishing (n : BitVec 32) (live : List Version) : State :=
  { twoVersions with
    slots := [{ slot12 0 0 with live := live }]
    pubs := [{ job := 1, va := 0x40000, target := theRef, num := n, auto := false, data := [(0, 7)], agent := aCtx.agent, view := [], cmd := none }] }
/-- The same after the release of its publisher. -/
def publishingReleased (n : BitVec 32) : State :=
  let s := publishing n ((slot12 0 0).live.take 1)
  (({ s with pubs := s.pubs.eraseIdx 0 } : State).release aCtx.agent (rgScope theRef.entry) [] []).2
theorem meets_VersionRulesAndSteps : (publishing 3 (slot12 0 0).live).slotOf 1 0x40000 = some theRef ∧
    (publishing 3 (slot12 0 0).live).pubs[0]?.map (fun p => (p.cmd, p.num)) = some (none, 3) ∧
    rgK theRef.entry ≤ ((publishing 3 (slot12 0 0).live).slotAt 1 theRef).live.length ∧
    ((publishing 3 ((slot12 0 0).live.take 1)).slotAt 1 theRef).newest < 3 ∧
    ((publishing 3 ((slot12 0 0).live.take 1)).slotAt 1 theRef).live.length < rgK theRef.entry ∧
    ((publishingReleased 3).slotAt 1 theRef).live.getLast?.map (fun y => y.data.wf) = some true ∧
    ((publishing 1 ((slot12 0 0).live.take 1)).slotAt 1 theRef).newest = 1 ∧
    (twoVersions.slotAt 1 theRef).floor = 1 := by decide +kernel

def aContribution (k : Nat) : Contribution :=
  { job := 1, va := 0x40000, target := theRef, f32 := true, index := k, value := 0x3F800000, source := .switch }
def reducing (k : Nat) : State :=
  { pkg with
    transit := [aContribution k]
    reductions := [{ job := 1, va := 0x40000, target := theRef, f32 := true, count := 3, next := 0, acc := 0, held := [], agent := aCtx.agent, view := [] }] }
/-- Index 0 is the next, 2 the last to be held, 3 is out of range; window 5 of the job covers its address. -/
theorem meets_ReductionContributions : (reducing 0).transit[0]? = some (aContribution 0) ∧
    ((reducing 0).redAt 1 theRef true).map (fun r => (r.next, r.count, r.held)) = some (0, 3, []) ∧
    (reducing 2).heldAt theRef < 256 ∧ (aContribution 3).index = 3 ∧ ({ reducing 0 with reductions := [] }.redAt 1 theRef true) = none ∧
    (reducing 0).resident? 1 = some aJob ∧ pkg.mem.wf = true ∧
    pkg.slotOf 1 0x40000 = some theRef ∧ pkg.slotOf 1 0x30000 = none ∧
    (match pkg.access 0 1 aJob.ranges .atomic 0x30000 8 with
      | .ok ts => ts.length == 8 && ts.all (fun t => !rgVers t.entry) && !pkg.wsHit (ts.map (fun t => t.loc)) &&
          decide (ts.map (fun t => t.loc)).Nodup && ts.all (fun t => t.home == 0)
      | .error _ => false) = true ∧
    (match (wide aCtx).access 0 1 wideJob.ranges .atomic 0x400000 8 with
      | .error f => f.1 == .moving
      | .ok _ => false) = true ∧
    (match (writing aCtx).access 0 1 wideJob.ranges .atomic 0x400000 8 with
      | .ok ts => (writing aCtx).wsHit (ts.map (fun t => t.loc))
      | .error _ => false) = true := by decide +kernel

/-! #### Stream commands -/

def aCmd (op : Nat) : Cmd :=
  { tln := 1, word := BitVec.ofNat 128 (op * 2 ^ 120), cls := 0, deadline := 0, view := [], phase := .running, progress := 0,
    buf := [], desc := 0, stalled := none, node := none, counted := [] }
/-- Command `c` runs on queue `q` of the job. -/
def withCmd (q : Nat) (c : Cmd) : State :=
  { pkg with queues := [{ pkg.queue 1 q with started := [c] }], focus := .command 1 q c.tln }
/-- A region of the job that holds nothing. -/
def aRegion (st : RegionState) : Region :=
  { job := 1, v := 0, state := st, die := 0, x0 := 0, y0 := 0, w := 1, h := 1, imgVa := 0, imgLen := 0, seed := 0, watchdog := 0,
    ranges := aJob.ranges, body := { ops := [], edges := [], tiles := [], ports := [] }, granules := [], launch := none,
    launchIn := [], node := none, nodes := [], trap := none, cause := 0, marker := 0, stopTime := 0, fault := none, hangUs := 0, hangBuf := 0,
    moved := 0, stalls := [], preempt := none, cutOpen := false, grouped := [], saved := none, reloading := false,
    mapDue := none, resumeDue := false }
/-- A queued command that its context takes next. -/
def queued (q : Nat) (c : Cmd) (r : Region) : State :=
  { pkg with queues := [{ pkg.queue 1 q with onChip := [c] }], regions := [r], agenda := [] }
/-- A port of a region, and a `load` of 64 bytes for it. -/
def aPort : ExtPort := { op := 0, kind := 0, cmds := [] }
def aLoad : Cmd := { aCmd 1 with word := 0x01 * 2 ^ 120 + 64 * 2 ^ 64 + 0x30000 * 2 ^ 8 }
def portRegion (st : RegionState) : Region := { aRegion st with body := { (aRegion st).body with ports := [aPort] } }
theorem meets_CommandsStartAndFinish :
    (queued 0 aLoad (portRegion .armed)).cmd? 1 0 1 = none ∧ (queued 0 aLoad (portRegion .armed)).winsEngine 1 0 aLoad = true ∧
    (queued 0 aLoad (portRegion .armed)).candidate 1 0 = some (0, aLoad, .go) ∧
    (queued 0 aLoad (aRegion .loaded)).candidate 1 0 = some (0, aLoad, .wrongState) ∧ pkg.candidate 1 0 = none ∧
    isData aLoad.op = true ∧ (portRegion .armed).body.ports[aLoad.port]? = some aPort ∧
    ((withCmd 0x1000 { aCmd 0x1C with phase := .ended .ok }).cmd? 1 0x1000 1).map (fun c => (c.phase, isData c.op)) = some (.ended .ok, false) := by
  decide +kernel
theorem meets_WaitingCommands :
    Running (withCmd 0 (aCmd 1)) 1 0 (aCmd 1) ∧ Running (withCmd 0x1000 (aCmd 0x1D)) 1 0x1000 (aCmd 0x1D) ∧
    (withCmd 0x1000 (aCmd 0x1D)).live 0 = true ∧ { withCmd 0x1000 (aCmd 0x1D) with livedies := 1 }.live 1 = false ∧
    { withCmd 0x1000 (aCmd 0x1D) with barriers := [{ aBarrier with gen := 10 }] }.barrier 0 5 = { aBarrier with gen := 10 } ∧
    ((withCmd 0x1000 (aCmd 0x1D)).barrier 0 767).expect = 0 ∧ (withCmd 0x1000 (aCmd 0x1E)).queueFault 1 0x1001 = none ∧
    (withCmd 0x1000 (aCmd 0x1E)).queueFault 1 0x1008 = some (.prot 7) := by unfold Running; decide +kernel

def cmdReached (q : Nat) (c : Cmd) (kind : AccKind) (va n : Nat) : List Trans :=
  okOf [] ((withCmd q c).access ((withCmd q c).queueDie 1 q) 1 ((withCmd q c).jobRanges 1) kind va n)
/-- The copy of 8 bytes from 0x30000 to 0x30100. -/
def copyDesc : Nat := 0x30000 + 0x30100 * 2 ^ 64 + 8 * 2 ^ 128
def copying (p : Nat) (bs : List Byte) : Cmd := { aCmd 5 with desc := copyDesc + 2 ^ 256, progress := p, buf := bs }
/-- The unit of the copy queue has used up its budgets. -/
def budgetSpent : State :=
  let s := withCmd 0x1000 (copying 0 [])
  { s with dies := s.dies.map (fun d => { d with left := [(1, 0, 0, 0, 0)] }) }
def bytes8 : List Byte := toBytes 8 0x0123456789ABCDEF
theorem meets_CopyCommands :
    Running (withCmd 0x1000 (aCmd 5)) 1 0x1000 (aCmd 5) ∧ CmdReads (withCmd 0x1000 (aCmd 5)) 1 0x1000 0x31000 32 (cmdReached 0x1000 (aCmd 5) .read 0x31000 32) ∧
    copyDesc = ofBytes ((withCmd 0x1000 (aCmd 5)).readBytes 1 [] ((cmdReached 0x1000 (aCmd 5) .read 0x31000 32).map (fun x => x.loc))) ∧
    copyDescOk 5 copyDesc = true ∧ copyDescOk 5 0 = false ∧
    CmdReads (withCmd 0x1000 (copying 0 [])) 1 0x1000 0x30000 8 (cmdReached 0x1000 (copying 0 []) .read 0x30000 8) ∧
    ((withCmd 0x1000 (copying 0 [])).passGate 0 1 (qNum 0x1000) 1 0x1000 (copying 0 []) (cmdReached 0x1000 (copying 0 []) .read 0x30000 8)).isRight = true ∧
    (budgetSpent.passGate 0 1 (qNum 0x1000) 1 0x1000 (copying 0 []) (cmdReached 0x1000 (copying 0 []) .read 0x30000 8)).isLeft = true ∧
    pubCheck (slot12 0 0) (versionedRange 4 4) 2 = .exists_ ∧ pubCheck (slot12 0 0) (versionedRange 4 4) 3 = .full ∧
    pubCheck { slot12 0 0 with live := (slot12 0 0).live.take 1 } (versionedRange 4 4) 3 = .ok := by
  unfold Running CmdReads Plain; decide +kernel
/-- A version of 8 bytes for the slot at 0x40000: its bytes are read, and its publication waits or passes at the gate. -/
def copyvDesc : Nat := 0x30000 + 0x40000 * 2 ^ 64 + 8 * 2 ^ 128 + 3 * 2 ^ 192
def versioning (p : Nat) (bs : List Byte) : Cmd := { aCmd 7 with desc := copyvDesc + 2 ^ 256, progress := p, buf := bs }
def versionTo : List Trans := cmdReached 0x1000 (versioning 8 bytes8) .write 0x40000 8
theorem meets_CopyCommands_version :
    Running (withCmd 0x1000 (versioning 8 bytes8)) 1 0x1000 (versioning 8 bytes8) ∧ copyvDesc < 2 ^ 256 ∧
    (withCmd 0x1000 (versioning 8 bytes8)).slotOf 1 0x40000 = some theRef ∧ theRef.off + 8 ≤ rgZ theRef.entry ∧
    (withCmd 0x1000 (versioning 8 bytes8)).slotOf 1 0x30000 = none ∧ rgZ theRef.entry = 64 ∧ versionTo.length = 8 ∧
    ((withCmd 0x1000 (versioning 8 bytes8)).queuePass 1 0x1000 (versioning 8 bytes8) versionTo).isRight = true ∧
    (budgetSpent.queuePass 1 0x1000 (copying 0 []) versionTo).isLeft = true := by
  unfold Running; decide +kernel
def copyTo : List Trans := cmdReached 0x1000 (copying 8 bytes8) .write 0x30100 8
/-- The bytes are read: the last request writes them. -/
theorem meets_CopyCommands_writes : ∃ g, CmdWrites (withCmd 0x1000 (copying 8 bytes8)) 1 0x1000 1 (copying 8 bytes8) 0x30100 8 copyTo g := by
  have h : ((withCmd 0x1000 (copying 8 bytes8)).passGate ((withCmd 0x1000 (copying 8 bytes8)).queueDie 1 0x1000) 1 (qNum 0x1000) 1 0x1000
      (copying 8 bytes8) copyTo).isRight = true := by decide +kernel
  obtain ⟨g, hg⟩ := Sum.isRight_iff.mp h
  refine ⟨g, by decide +kernel, ?_, by decide +kernel, hg, by decide +kernel⟩
  unfold Plain; decide +kernel

/-- `wsload` of 64 KiB into the first bank: its bytes are read, and the store is open; during the first microseconds of a
refresh window it is closed. -/
def wsB : BitVec 36 := 1 * 2 ^ 20
def loading (p : Nat) : Cmd := { aCmd 0x10 with desc := 1, progress := p, buf := List.replicate (p - 65536) 0 }
def openBanks : State := { withCmd 0x5000 (loading 0) with dies := pkg.dies.map (fun d => { d with stime := 20000 }) }
theorem meets_WeightStoreAccesses : Running openBanks 1 0x5000 (loading 0) ∧ openBanks.wsBusy 0 = false ∧
    { openBanks with queues := [{ openBanks.queue 1 0x5000 with started := [aCmd 0x11] }] }.wsBusy 0 = true ∧
    CmdReads openBanks 1 0x5000 0x30000 256 (okOf [] (openBanks.access 0 1 (openBanks.jobRanges 1) .read 0x30000 256)) ∧
    (∀ l ∈ upFrom (windowLoc 0 0x40000000) 256, openBanks.wsClosed l = false) ∧
    pkg.wsClosed (windowLoc 0 0x40000000) = true := by unfold Running CmdReads Plain; decide +kernel
/-- The bytes are read and go to the bank; `wsread` reads a store without an error; a task waits for a word of the store. -/
def landing : Cmd := { aCmd 0x10 with desc := 1, progress := 65536, buf := List.replicate 256 0 }
def waiter : Ctx := { aCtx with stalled := some (0x400000, 0) }
def weighed : State := { wide waiter with dies := pkg.dies.map (fun d => { d with stime := 20000 }) }
theorem meets_WeightStoreAccesses_land :
    Running { openBanks with queues := [{ pkg.queue 1 0x5000 with started := [landing] }] } 1 0x5000 landing ∧ request 0 65536 = 256 ∧
    256 ≤ (landing.buf.drop 0).length ∧ openBanks.badBytes = [] ∧
    weighed.wsClosed (windowLoc 0 0x40000000) = false ∧ weighed.ctx? 0 0 0 = some waiter ∧
    (weighed.translate (weighed.jobRanges 1) 1 .read 0x400000).toOption.map (fun t =>
      (wsDie? t.loc, ((t.loc - 2 ^ 44) % 2 ^ 40 - 0x40000000) / 2 ^ 26)) = some (some 0, 0) := by
  unfold Running; decide +kernel

def berthCmd (s : BerthState) (c : Cmd) : State :=
  { withCmd 0x6000 c with
    dies := pkg.dies.set 0 { pkg.die 0 with berths := [{ job := 1, idx := 0, state := s, gen := 3 }] } }
theorem meets_Berths : Running (berthCmd .free (aCmd 0x12)) 1 0x6000 (aCmd 0x12) ∧
    (berthCmd .free (aCmd 0x12)).job? 1 = some aJob ∧ 0 < aJob.berthCount ∧
    (∀ x ∈ [BerthState.free, .resident, .pinned, .filling, .evicting], ((berthCmd x (aCmd 0x12)).berth 1 0 0).state = x) := by
  unfold Running; decide +kernel
/-- A table of one state that puts one byte out for each nibble, in lane 0 of die 0. -/
def passTable : TxTable := { states := 1, trans := List.replicate 16 0, emits := [2 ^ 32 + 0x41], accept := [true] }
def onLane (q : Nat) (c : Cmd) : State := { withCmd q c with dies := pkg.dies.set 0 { pkg.die 0 with lanes := [(0, passTable)] } }
def aRun : TxRun :=
  { job := 1, qid := 0x3000, tln := 1, lane := 0, lanes := 1, desc := BitVec.ofNat 256 runDesc,
    chunks := [BitVec.ofNat 192 chunkDesc, BitVec.ofNat 192 chunkDesc], decoded := [none, none], released := 0, outBytes := 0 }
def laneBytes (n va : Nat) : List Byte :=
  (onLane 0x3000 (aCmd 0x19)).readBytes 1 [] ((cmdReached 0x3000 (aCmd 0x19) .read va n).map (fun z => z.loc))
/-- An image of zeros is a table of one state and one emit entry; 89 bytes. -/
theorem meets_Transducers : Running (onLane 0x3000 (aCmd 0x19)) 1 0x3000 (aCmd 0x19) ∧
    (∀ n ∈ [16, 89], CmdReads (onLane 0x3000 (aCmd 0x19)) 1 0x3000 0x32100 n (cmdReached 0x3000 (aCmd 0x19) .read 0x32100 n)) ∧
    txSize (laneBytes 16 0x32100) = 89 ∧ (txParse (laneBytes 89 0x32100)).isSome = true ∧
    CmdReads (onLane 0x3000 (aCmd 0x19)) 1 0x3000 0x32000 80 (cmdReached 0x3000 (aCmd 0x19) .read 0x32000 80) ∧
    (onLane 0x3000 (aCmd 0x19)).txOk 0x3000 (sliceNat (laneBytes 80 0x32000) 0 32)
      ((upFrom 0 2).map (fun i => BitVec.ofNat 192 (sliceNat (laneBytes 80 0x32000) (32 + 24 * i) 24))) = true ∧
    (onLane 0x3000 (aCmd 0x19)).txOk 0x3000 (2 ^ 255) [] = false ∧ (onLane 0x3000 (aCmd 0x19)).txruns = [] := by
  unfold Running CmdReads Plain; decide +kernel
theorem meets_Transducers_chunk :
    { onLane 0x3000 (aCmd 0x19) with txruns := [aRun] }.txrun? 1 0x3000 1 = some aRun ∧ aRun.mayDecode 0 = true ∧
    txDecode passTable 0 (chunkCrc (BitVec.ofNat 192 chunkDesc)) [0xEF] = { out := some [0x41, 0x41], cause := 0 } ∧
    (laneBytes 1 0x30000) = [0xEF] ∧ ((onLane 0x3000 (aCmd 0x19)).die 0).lane 0 = some passTable ∧ qKind 0x3000 = 3 ∧
    aRun.outBytes + 2 ≤ bf aRun.desc.toNat 64 40 ∧
    (onLane 0x3000 (aCmd 0x19)).wsHit ((cmdReached 0x3000 (aCmd 0x19) .write 0x30200 2).map (fun z => z.loc)) = false ∧ (cmdReached 0x3000 (aCmd 0x19) .write 0x30200 2).length = 2 ∧
    Plain (cmdReached 0x3000 (aCmd 0x19) .write 0x30200 2) ∧
    aRun.chunks.length = 2 ∧ aRun.decoded.length = 2 := by unfold Plain; decide +kernel

def cmdBytes (q : Nat) (c : Cmd) (va n : Nat) : Nat :=
  ofBytes ((withCmd q c).readBytes 1 [] ((cmdReached q c .read va n).map (fun z => z.loc)))
/-- The third turn of an encoding, with a bitstream of 100 bytes, and with one that exceeds OLIM. -/
def encoded (n : Nat) : Cmd := { aCmd 0x1A with desc := encodeDesc + 2 ^ 512, progress := 1, buf := List.replicate n 0 }
theorem meets_EncodersAndCollectives : (∀ n ∈ [100, 101], Running (withCmd 0x4000 (encoded n)) 1 0x4000 (encoded n)) ∧
    CmdReads (withCmd 0x4000 (aCmd 0x1A)) 1 0x4000 0x33000 64 (cmdReached 0x4000 (aCmd 0x1A) .read 0x33000 64) ∧
    cmdBytes 0x4000 (aCmd 0x1A) 0x33000 64 = encodeDesc ∧ encOlim encodeDesc = 100 ∧ encDescOk encodeDesc = true ∧
    encDescOk 0 = false ∧ bit encodeDesc 216 = true ∧
    (cmdReached 0x4000 (aCmd 0x1A) .write 0x30400 100).length = 100 ∧ Plain (cmdReached 0x4000 (aCmd 0x1A) .write 0x30400 100) ∧
    (cmdReached 0x4000 (aCmd 0x1A) .write 0x30500 4).length = 4 ∧ encodeDesc < 2 ^ 512 ∧
    (withCmd 0x4000 (encoded 100)).wsHit ((cmdReached 0x4000 (aCmd 0x1A) .write 0x30400 100).map (fun z => z.loc)) = false ∧
    (cmdReached 0x4000 (aCmd 0x1A) .read 0x50000 1).map (fun t => (rgVers t.entry, (slotRef 0x50000 t).off + encFrame encodeDesc)) =
      [(true, 6144)] ∧ 6144 ≤ rgZ (frameRange 5 5) := by unfold Running CmdReads Plain; decide +kernel
/-- Dies 0 and 1 have entered call 9. -/
def aCall (d : Nat) : CollCall :=
  { job := 1, id := 9, die := d, qid := 0x1000 + d * 2 ^ 10, tln := 1, desc := BitVec.ofNat 256 collDesc,
    members := [0, 1], beyond := false }
def calling : State := { withCmd 0x1000 { aCmd 0x1B with desc := collDesc + 2 ^ 256 } with colls := [aCall 0, aCall 1] }
theorem meets_EncodersAndCollectives_coll :
    CmdReads (withCmd 0x1000 (aCmd 0x1B)) 1 0x1000 0x34000 32 (cmdReached 0x1000 (aCmd 0x1B) .read 0x34000 32) ∧
    cmdBytes 0x1000 (aCmd 0x1B) 0x34000 32 = collDesc ∧ collDescOk collDesc = true ∧ collDescOk 0 = false ∧
    calling.collMembers 1 collDesc = some ([0, 1], false) ∧ calling.callsOf 1 9 = [aCall 0, aCall 1] ∧ collDesc < 2 ^ 256 ∧
    [0, 1].all calling.live = true ∧ collAgrees [collDesc, collDesc] 2 = true ∧
    (okOf [] (calling.collRead [aCall 0, aCall 1])).length = 2 ∧
    (calling.cmd? 1 0x1000 1).map (fun c => c.desc) = some (collDesc + 2 ^ 256) ∧
    (cmdReached 0x1000 (aCmd 0x1B) .write 0x30300 4).length = 4 := by unfold CmdReads Plain; decide +kernel

/-! #### Regions -/

/-- Command `c` of the region's queue runs, and region 0 is `r`. -/
def regionCmd (c : Cmd) (r : Region) : State := { withCmd 0 c with regions := [r] }
theorem meets_RegionCommands : Running (regionCmd (aCmd 0x0B) (aRegion .armed)) 1 0 (aCmd 0x0B) ∧
    (withCmd 0 (aCmd 0x0B)).region? 1 0 = none ∧
    (∀ x ∈ [RegionState.armed, .running, .stopped], (regionCmd (aCmd 0x0B) (aRegion x)).region? 1 0 = some (aRegion x) ∧ x.holdsTiles = true) ∧
    CmdReads (regionCmd (aCmd 0x0A) (aRegion .armed)) 1 0 0x32100 64
      (okOf [] ((regionCmd (aCmd 0x0A) (aRegion .armed)).access 0 1 aJob.ranges .read 0x32100 64)) ∧
    recordsOk 1 (List.replicate 64 0) = true ∧ recordsOk 1 (List.replicate 64 0xFF) = false ∧
    { aRegion .running with preempt := some (0x1000, 0, 1) }.cutMade = true ∧
    (∀ x ∈ (regionCmd (aCmd 0x0B) (aRegion .running)).regions, x.resumeDue = false) := by unfold Running CmdReads Plain; decide +kernel
theorem meets_SnapAndResume : Running (regionCmd (aCmd 0x0D) (aRegion .stopped)) 1 0 (aCmd 0x0D) ∧
    (regionCmd (aCmd 0x0D) (aRegion .stopped)).region? 1 0 = some (aRegion .stopped) ∧
    0 < ((aRegion .stopped).image 0).length ∧ (regionCmd (aCmd 0x0E) (aRegion .saved)).overlapped (aRegion .saved) = false ∧
    ((regionCmd (aCmd 0x0D) (aRegion .stopped)).passGate 0 0 (aRegion .stopped).unit 1 0 (aCmd 0x0D) (cmdReached 0x1000 (aCmd 5) .write 0x30100 8)).isRight = true ∧
    (∀ x ∈ (regionCmd (aCmd 0x0D) (aRegion .stopped)).regions, x.resumeDue = false) ∧
    (regionCmd (aCmd 0x0D) (aRegion .stopped)).wsRefuses (cmdReached 0x1000 (aCmd 5) .write 0x30100 8) = false ∧
    ((regionCmd (aCmd 0x0E) (aRegion .stopped)).resumeImage (aRegion .stopped) []).isNone = true := by unfold Running; decide +kernel
/-- A region in place and one that is SAVED; the reading of their images passes the gate. -/
def snapped (st : RegionState) : State := { regionCmd (aCmd 0x0E) (aRegion st) with snaps := [snapOf (aRegion st)] }
theorem meets_SnapAndResume_image : ((aRegion .stopped).image 0).length = 320 ∧ (aRegion .stopped).sramLocs.any pkg.badBytes.contains = false ∧
    (∀ st ∈ [RegionState.stopped, .saved], (snapped st).overlapped (aRegion st) = false) ∧
    ((snapped .saved).queuePass 1 0 (aCmd 0x0E) (cmdReached 0x1000 (aCmd 5) .read 0x30000 8)).isRight = true := by decide +kernel
/-- An image that cannot be placed: the relocation entry of region 1 is not valid. -/
theorem meets_Arming : Running (withCmd 0 (aCmd 8)) 1 0 (aCmd 8) ∧ (withCmd 0 (aCmd 8)).region? 1 0 = none ∧
    (withCmd 0 (aCmd 8)).armingBusy 0 1 0 1 = false ∧
    (match (withCmd 0 (aCmd 8)).armPlace 1 0 0x30000 with
      | .ok r => some r.state
      | .error _ => none) = some .loaded ∧
    (match (withCmd 0 (aCmd 8)).armPlace 1 1 0x30000 with
      | .ok _ => none
      | .error f => some f.code) = some 0x05 := by unfold Running; decide +kernel
/-- A formation image of 4 by 4 tiles with one operator, a `scratch` at (2, 1) without ports, and its CRC64; at 0x35000. -/
def scratchImage : List Byte :=
  let head (crc : Nat) : List Byte :=
    toBytes 128 (0x4E4D5246 + 1 * 2 ^ 32 + 192 * 2 ^ 64 + 4 * 2 ^ 96 + 4 * 2 ^ 104 + 1 * 2 ^ 112 + 7 * 2 ^ 192 + 9 * 2 ^ 224 + crc * 2 ^ 448)
  let body := toBytes 64 (0x41 * 2 ^ 248 + (2 ^ 96 - 1) * 2 ^ 144 + 2 * 2 ^ 256 + 1 * 2 ^ 264)
  head (crc64 (head 0 ++ body)).toNat ++ body
def armable : State :=
  let more := (upFrom 0x125000 192).zip scratchImage
  { withCmd 0 (aCmd 8) with
    mem := pkg.mem.writeCells more
    history := [{ by_ := hostAgent 0, bytes := more ++ loaded, view := [], placed := 1, ordinary := false, src := none }] }
def headRead (n o : Nat) : List Trans := okOf [] (armable.access 0 1 (armable.jobRanges 1) .read (0x35000 + o) n)
/-- The region that binding and the formation store make, and what the checks make of it. -/
def placed0 : Region := okOf (aRegion .empty) (armable.armPlace 1 0 0x35000)
def placed1 : Region := okOf (aRegion .empty) (armable.armStore placed0 192)
theorem meets_Arming_accepted : Running armable 1 0 (aCmd 8) ∧ placed0.state = .loaded ∧ placed1.imgLen = 192 ∧
    (headRead 128 0).length = 128 ∧ (headRead 64 128).length = 64 ∧
    armable.engineBytes 1 [] 0x35000 (headRead 128 0) ++ armable.engineBytes 1 [] (0x35000 + 128) (headRead 64 128) = scratchImage ∧
    imgHeaderOk placed1 (scratchImage.take 128) 192 = none ∧ imgReserved scratchImage = false ∧
    (match armable.armCheck placed1 scratchImage with
      | .ok r => some (r.state, r.seed.toNat, r.watchdog, r.body.ops.length)
      | .error _ => none) = some (.armed, 7, 9, 1) := by unfold Running; decide +kernel
/-- Where the page of the image is not there: the header's reading stops. The gate of the region's queue holds it. -/
def unpaged : State :=
  { armable with jobs := [{ aJob with ranges := [BitVec.ofNat 256 (1 + 15 * 2 ^ 83 + 2 ^ 87 + 1 * 2 ^ 146 + 0x40 * 2 ^ 148 + 3 * 2 ^ 176 + 3 * 2 ^ 216)] }] }
theorem meets_Arming_page :
    (match unpaged.access 0 1 (unpaged.jobRanges 1) .read 0x35000 128 with
     | .error f => some f.1
     | .ok _ => none) = some (.page 1 1) ∧
    (armable.queuePass 1 0 (aCmd 8) (headRead 128 0)).isRight = true ∧
    (({ armable with dies := pkg.dies.map (fun d => { d with left := [(0, 64, 0, 0, 0)] }) } : State).queuePass 1 0 (aCmd 8)
      (headRead 128 0)).isLeft = true ∧
    (aCmd 8).tln ≠ 0 ∧ (armable.armStore placed0 (2 ^ 32)).toOption.isNone = true ∧
    (imgHeaderOk placed1 (scratchImage.take 128) 191).isSome = true := by decide +kernel
/-- The same image with another CRC is refused at step 3. -/
theorem meets_Arming_refused : (match armable.armCheck placed1 (scratchImage.set 56 0) with
    | .ok _ => none
    | .error f => some (f.step, f.sub)) = some (3, 4) := by decide +kernel
/-- 64 microseconds on, with no trunk up. -/
def cutOff : State := { pkg with dies := pkg.dies.map (fun d => { d with stime := 64 * 16000 }), links := [] }
theorem meets_RegionEndsAndErrors : pkg.regions = [] ∧
    { pkg with regions := [aRegion .running] }.region? 1 0 = some (aRegion .running) ∧ (aRegion .running).drained = true ∧
    (aRegion .armed).state ≠ .running ∧ { aRegion .running with launch := some [(0, 1)] }.launch.isSome = true ∧
    (pkg.die 0).stime.toNat = 0x1000 ∧ (0 : Word64).toNat + 1 * 16000 < (20000 : Word64).toNat ∧ (aRegion .running).trap = none ∧
    (aRegion .running).hangUs = 0 ∧
    cutOff.overdue 1 1 0x30000 0 = true ∧ pkg.overdue 1 1 0x30000 0 = false ∧
    { pkg with regions := [aRegion .running] }.configOwed (aRegion .running) = false ∧ (aRegion .running).mapDue = none ∧
    { aRegion .running with mapDue := some [0] }.mapDue = some [0] := by decide +kernel
/-- A berth command and a task that have waited for a die out of reach. -/
def lateFill : Cmd := { aCmd 0x12 with desc := 1, stalled := some (0x30000, 0) }
def late : State := { cutOff with queues := [{ pkg.queue 1 0x6400 with started := [lateFill] }] }
theorem meets_RegionEndsAndErrors_late : (late.cmd? 1 0x6400 1) = some lateFill ∧ lateFill.op = 0x12 ∧ lateFill.desc ≠ 0 ∧ qDie 0x6400 = 1 ∧
    late.queueDie 1 0x6400 = 1 ∧ late.overdue 1 1 0x30000 0 = true ∧ late.txrun? 1 0x6400 1 = none ∧
    (aCmd 5).op ≠ 0x1B ∧ { aCmd 5 with stalled := some (0x30000, 0) }.phase = .running := by decide +kernel
/-! #### Operators -/

/-- Two lanes and four beats. -/
def anOrder : Order :=
  { lanes := [{ dim := 0, ext := 2, step := 1, ragged := false }], beats := [{ dim := 1, ext := 4, step := 1, ragged := false }] }
def anOp (word : Nat) (slot : Nat) (mem : OpMem) : Op :=
  { word := BitVec.ofNat 256 word, armed := BitVec.ofNat 256 word, forced := false, x := 0, y := 0, slot := slot, deferred := false,
    mem := mem, outbox := [], pos := [], marked := [], finals := [], frozen := false, inside := [] }
def anEdge (sop dop sport dport fmt : Nat) (link : List Beat) : Edge :=
  { sop := sop, dop := dop, sport := sport, dport := dport, fmt := fmt, desc := 0, strict := false, p := anOrder, q := anOrder,
    link := link, out := [], siding := none, room := 4 }
/-- A running region: operator 0, of an opcode, between a source and a sink; its inputs hold `beats`. -/
def opRegion (op fmt : Nat) (mem : OpMem) (beats : List Beat) : Region :=
  { aRegion .running with
    body :=
      { ops := [anOp (op * 2 ^ 248) 0 mem, anOp (0x60 * 2 ^ 248) 1 (.port 0 false), anOp (0x61 * 2 ^ 248) 2 (.port 0 false)]
        edges := (beats.zip (upFrom 0 beats.length)).map (fun b => anEdge 1 0 b.2 b.2 fmt [b.1]) ++ [anEdge 0 2 0 0 fmt []]
        tiles := [{ x := 0, y := 0, tflags := 0, gen := 1 }], ports := [] } }
def opState (r : Region) : State := { pkg with regions := [r], focus := .operator 1 0 0 }
def opView (r : Region) : OpView := mkView r 0 (r.body.ops.headD (anOp 0 0 .idle))

theorem passes_of {s : State} {r : Region} {v : OpView} (h : ∀ p ∈ v.outPorts, r.body.space v.ix p = true)
    (hb : s.sramBad r v = false) (hs : s.regionSpent r = false)
    (hc : (s.charge r.die 0 r.unit r.job (Bill.cycle (if opc v.op.word < 0x40 then 1 else 0))).isSome = true) :
    ∃ s', Passes s r v s' := by
  obtain ⟨s', hs'⟩ := Option.isSome_iff_exists.mp hc
  exact ⟨s', h, hb, hs, hs'⟩

/-- The operator is ready, its outputs have space, the gate passes it, and its inputs hold the beats. -/
def meetsOp (op fmt : Nat) (mem : OpMem) (beats : List Beat) : Prop :=
  let r := opRegion op fmt mem beats
  Ready (opState r) r (opView r) ∧ At (opView r) (upFrom 0 beats.length) beats ∧
    (∀ p ∈ (opView r).outPorts, r.body.space 0 p = true) ∧ (opState r).sramBad r (opView r) = false ∧
    (opState r).regionSpent r = false ∧ ((opState r).charge 0 0 r.unit 1 (Bill.cycle 1)).isSome = true ∧ (opView r).inFmt 0 = fmt ∧ (opView r).inLanes 0 = 2

def two32 (a b : Nat) : Beat := dataBeat (packLanes 32 [a, b])

theorem meets_VectorIntegers : meetsOp 0x20 0x06 .idle [two32 1 2, two32 0xFFFFFFFF 4] ∧ intRangeOf 0x06 = some (-2147483648, 2147483647) ∧
    intOf 0x06 0xFFFFFFFF = -1 := by unfold meetsOp Ready At; decide +kernel
theorem meets_VectorFloats : meetsOp 0x23 0x0A .idle [two32 0 0x3F800000, two32 0 0, two32 0 0] ∧ floatOf 0x0A = some .fp32 := by
  unfold meetsOp Ready At; decide +kernel
/-- A conversion: FP32 to INT32, INT32 to FP32. -/
def converting (fi fo : Nat) (b : Beat) : Region :=
  let r := opRegion 0x38 fi .idle [b]
  { r with body := { r.body with edges := [anEdge 1 0 0 0 fi [b], anEdge 0 2 0 0 fo []] } }
theorem meets_VectorFloats_convert : ∀ x ∈ [((0x0A, 0x06) : Nat × Nat), (0x06, 0x0A)],
    Ready (opState (converting x.1 x.2 (two32 1 2))) (converting x.1 x.2 (two32 1 2)) (opView (converting x.1 x.2 (two32 1 2))) ∧
    At (opView (converting x.1 x.2 (two32 1 2))) [0] [two32 1 2] ∧ (opView (converting x.1 x.2 (two32 1 2))).inFmt 0 = x.1 ∧
    (opView (converting x.1 x.2 (two32 1 2))).outFmt 0 = x.2 ∧ floatOf 0x06 = none ∧ (intRangeOf 0x06).isSome = true := by
  unfold Ready At; decide +kernel
/-- The ranges of `vexp2` at their boundaries, and a negative number. -/
theorem meets_VectorFloats_values :
    Ex.lt ⟨false, 128, 1⟩ ⟨false, 128, 1⟩ = false ∧ Ex.lt ⟨false, 255, 2⟩ ⟨false, 128, 1⟩ = true ∧
    Ex.lt ⟨true, 160, 1⟩ (Ex.ofInt (-160)) = false ∧ Ex.lt ⟨true, 321, 2⟩ (Ex.ofInt (-160)) = true := by decide +kernel
theorem meets_Accumulations : meetsOp 0x20 0x0A (.acc 0 []) [two32 0 0x3F800000] ∧ meetsOp 0x24 0x0A (.acc 0 []) [stopBeat 1] ∧
    accPoison (heldAcc (.acc 0 [])) = none ∧ (opView (opRegion 0x24 0x0A (.acc 0 []) [stopBeat 7])).inLevel 0 = 1 ∧
    tagDiffers (.acc 0 []) 0x0A = false ∧ tagDiffers (.acc (tagOf 0x06 0) [.val 1, .val 2]) 0x0A = true ∧
    meetsOp 0x20 0x0A (.acc (tagOf 0x06 0) [.val 1, .val 2]) [two32 0 0x3F800000] := by
  unfold meetsOp Ready At; decide +kernel
/-- Three elements of a tree: a pair and one that passes; none of them faults. -/
theorem meets_Accumulations_values : floatOf 0x0A = some .fp32 ∧ floatOf 0x06 = none ∧
    (∀ code ∈ [0x06, 0x0A], ∀ op ∈ [0, 1, 2], let q := pairUp op { rnd := 0, sat := true } code [(0, 1), (1, 2), (2, 3)] 1
      q.fault = none ∧ q.vals.length = 2 ∧ (treeOf op { rnd := 0, sat := true } code 3 [(0, 1), (1, 2), (2, 3)] 1).fault = none) := by
  decide +kernel
/-- Stops, holes, poison, and a sum of two lanes of which the second overflows. -/
theorem meets_FiringAndControl : (∀ b ∈ [stopBeat 1, holeBeat, poisonOf 1 0 0 0 0 0], meetsOp 0x20 0x06 .idle [b, b]) ∧
    meetsOp 0x20 0x06 .idle [two32 1 0x7FFFFFFF, two32 1 1] ∧
    (opView (opRegion 0x26 0x06 .idle [])).head 0 = none ∧ (opRegion 0x20 0x06 .idle []).trap = none ∧
    (opView (opRegion 0x20 0x06 .idle [])).deferred = false ∧
    ({ opRegion 0x20 0x06 .idle [] with
       body := { (opRegion 0x20 0x06 .idle []).body with edges := [{ anEdge 0 2 0 0 6 [] with room := 0 }] } }).body.space 0 0 = false ∧
    (opRegion 0x20 0x06 .idle [holeBeat, holeBeat]).view 0 = some (opView (opRegion 0x20 0x06 .idle [holeBeat, holeBeat])) ∧
    (opView (opRegion 0x20 0x06 .idle [holeBeat, holeBeat])).ins = [(0, 0), (1, 1)] ∧
    (opView (opRegion 0x20 0x06 .idle [holeBeat, holeBeat])).outs = [(0, 2)] := by
  unfold meetsOp Ready At; decide +kernel
theorem meets_BlockOperators : (∀ x ∈ [((0x36, 0x0A, .idle, [two32 1 2]) : Nat × Nat × OpMem × List Beat),
      (0x35, 0x0A, .idle, [two32 1 2]),
      (0x37, 0x0A, .planes [], [two32 1 2]),
      (0x37, 0x0A, .planes [], [stopBeat 7])], meetsOp x.1 x.2.1 x.2.2.1 x.2.2.2) := by
  unfold meetsOp Ready At; decide +kernel
/-- Scale blocks of every format: NaN scales, and those of numbers; descriptors that align and that do not. -/
theorem meets_BlockOperators_values : (∀ x ∈ [((1, 63) : Nat × Nat), (2, 255), (3, 0x7E), (4, 0x7F)], scaleV x.1 x.2 = .nan) ∧
    scaleV 1 32 ≠ .nan ∧ scaleV (dSfmt 0) 0 ≠ .nan ∧ dAlign 0 = false ∧ dAlign (BitVec.ofNat 32 (2 ^ 17)) = true ∧
    dW (BitVec.ofNat 32 (4 * 2 ^ 18)) = 4 ∧ floatOf 0x0A = some .fp32 ∧ floatOf 0x01 = none ∧ floatOf 0x0F = none ∧
    (∀ y, decodeF .fp32 0x7F800000 ≠ .fin y) ∧ (match decodeF .fp32 0x3F800000 with
      | .fin y => decide (0 < y.den ∧ y.num ≠ 0)
      | _ => false) = true ∧
    bit 1 (0 : Nat) = true ∧ bit 1 (1 : Nat) = false ∧ intRangeOf 0x01 = some (-8, 7) := by
  refine ⟨by decide +kernel, by decide +kernel, by decide +kernel, by decide +kernel, by decide +kernel, by decide +kernel,
    by decide +kernel, by decide +kernel, by decide +kernel, ?_, by decide +kernel, by decide +kernel, by decide +kernel, by decide +kernel⟩
  intro y h
  have e : decodeF .fp32 0x7F800000 = .inf false := by decide +kernel
  rw [e] at h
  cases h
def emptyMmp : MmpMem :=
  { active := none, inactive := none, second := false, acctag := 0, swapDue := false, heads := [], planes := [], us := [], chunk := 0, acc := [], poison := none }
/-- An `mmload` beside an `mmp` of its tile. -/
def mateRegion : Region :=
  { opRegion 0x11 0x0A (.mmload []) [two32 1 2] with
    body := { (opRegion 0x11 0x0A (.mmload []) [two32 1 2]).body with
      ops := [anOp (0x11 * 2 ^ 248) 0 (.mmload []), anOp (0x60 * 2 ^ 248) 1 (.port 0 false), anOp (0x10 * 2 ^ 248) 2 (.mmp emptyMmp)] } }
theorem meets_MatrixOperators : meetsOp 0x11 0x0A (.mmload []) [two32 1 2] ∧ (opView mateRegion).mate = some (2, emptyMmp) ∧
    meetsOp 0x10 0x0A (.mmp emptyMmp) [two32 1 2, two32 1 2] ∧
    (opView (opRegion 0x10 0x0A (.mmp emptyMmp) [two32 1 2, two32 1 2])).has 1 = true := by
  unfold meetsOp Ready At; decide +kernel
/-- An `mmp` of UINT4 by one chunk: a bank of zeros with the tag that is expected, or with another. -/
def aMatrix : MmpParam := { tsa := 0, tsb := 0, bdesc := 0, cmpr := false, uadd := true }
def mmpView : OpView := opView (opRegion 0x10 0x01 (.mmp emptyMmp) [two32 1 2, two32 1 2])
def zeroBank : Bank := { tag := 0, q := [], scale := [], x := [] }
theorem meets_MatrixOperators_values :
    (mmpView.mmpShape aMatrix).kc = 1 ∧ (mmpView.mmpShape aMatrix).heads = 1 ∧ (mmpView.mmpShape aMatrix).intMode = true ∧
    { mmpView.mmpShape aMatrix with fmt := 0x0A }.intMode = false ∧ bf (0 : BitVec 32).toNat 15 2 = 0 ∧
    (mmpView.mmpShape aMatrix).planesDue false (two32 1 2) = 1 ∧ mmpView.atBoundary 0 = true ∧ mmpView.has 0 = true ∧
    (mmpView.mmpShape aMatrix).tagsFit zeroBank 0 = true ∧ (mmpView.mmpShape aMatrix).tagsFit { zeroBank with tag := 1 } 0 = false ∧
    (match (mmpView.mmpShape aMatrix).slice true false [two32 1 2] [two32 1 2] zeroBank 0 [] with
      | .ok a f => (a.length, f)
      | _ => (0, 1)) = (512, 0) ∧
    ((mmpView.mmpShape aMatrix).results true 0 (List.replicate 512 3) []).all (fun x => match x with
      | .ok _ => true
      | .error _ => false) = true := by decide +kernel
/-- A tile of FP32 numbers is 256 beats; a tensor of the edge's order is 4. -/
theorem meets_MatrixOperators_loads : 64 * (64 / laneCountL ((opView mateRegion).inFmt 0) ((opView mateRegion).inDesc 0)) = 256 ∧
    anOrder.beatCount = 4 ∧ (opView mateRegion).posAt 0 = 0 ∧ (opView mateRegion).bankBytes = 1 ∧
    ((opView mateRegion).inEdge 0).map (fun e => e.q.beatCount) = some 4 ∧
    meetsOp 0x11 0x0A (.mmload [two32 1 2]) [stopBeat 1] := by unfold meetsOp Ready At; decide +kernel
theorem meets_MemoryTileOperators : (∀ x ∈ [((0x40, 0x06, .fifo [], [two32 1 2]) : Nat × Nat × OpMem × List Beat),
      (0x42, 0x06, .window [], [two32 1 2]),
      (0x43, 0x06, .pin [] [] none 0, [two32 1 2]),
      (0x43, 0x06, .pin [] [] none 0, [stopBeat 1]),
      (0x51, 0x11, .idle, [two32 1 2]),
      (0x41, 0x11, .scratch [] 0 0, [two32 1 0, two32 1 2])], meetsOp x.1 x.2.1 x.2.2.1 x.2.2.2) ∧
    (opView (opRegion 0x43 0x06 (.pin [] [] none 0) [stopBeat 1])).inLevel 0 = 1 := by
  unfold meetsOp Ready At; decide +kernel
theorem meets_SpecialTilesAndSiding : (∀ x ∈ [((0x75, 0x06, .idle, [two32 1 2]) : Nat × Nat × OpMem × List Beat),
      (0x76, 0x06, .idle, [two32 1 2, condBeat true]),
      (0x77, 0x06, .idle, [condBeat true, two32 1 2, two32 3 4]),
      (0x7A, 0x06, .stopgen 0 0, [two32 1 2, condBeat false]),
      (0x78, 0x06, .delay [] true 0, [two32 1 2]),
      (0x79, 0x06, .stopgen 0 0, [two32 1 2]),
      (0x73, 0x06, .turn 0 [] false, [two32 1 2, two32 3 4]),
      (0x74, 0x06, .turn 0 [] false, [two32 1 2]),
      (0x71, 0x0A, .race [] 0 none, [two32 1 2]),
      (0x7B, 0x0A, .idle, [two32 1 2, two32 3 4]),
      (0x70, 0x06, .siding [] 0, [two32 1 2])], meetsOp x.1 x.2.1 x.2.2.1 x.2.2.2) ∧
    unragged anOrder = anOrder ∧ 1 < anOrder.beatCount ∧
    (opRegion 0x78 0x06 (.delay [] true 0) [two32 1 2]).body.onLoop 0 = false := by
  unfold meetsOp Ready At; decide +kernel

/-- A condition on a COND edge; a beat behind an initial one and one ahead of its place; a `merge` by whole tensors whose turn meets
data, an inner stop, a closing stop and a final one; a second input that has ended. -/
theorem meets_SpecialTilesAndSiding_more : (∀ x ∈ [((0x76, 0x12, .idle, [condBeat true, condBeat true]) : Nat × Nat × OpMem × List Beat),
      (0x78, 0x06, .delay [two32 0 0] false 0, [two32 1 2]),
      (0x78, 0x06, .delay [] false 1, [two32 1 2]),
      (0x7A, 0x06, .stopgen 4 0, [two32 1 2, condBeat true]),
      (0x73, 0x06, .turn 0 [] false, [two32 1 2]),
      (0x73, 0x06, .turn 0 [] false, [stopBeat 1]),
      (0x73, 0x06, .turn 0 [] false, [stopBeat 7]),
      (0x73, 0x06, .turn 0 [1] false, [stopBeat 7])], meetsOp x.1 x.2.1 x.2.2.1 x.2.2.2) ∧
    (opView (opRegion 0x73 0x06 (.turn 0 [] false) [stopBeat 1])).inLevel 0 = 1 ∧
    (opView (opRegion 0x73 0x06 (.turn 0 [] false) [two32 1 2])).outLevel 0 = 1 := by
  unfold meetsOp Ready At; decide +kernel
/-- A port of the region with a `load` or `store` of 4096 bytes at 0x30000. -/
def portCmdOf (op : Nat) : Cmd := { aCmd op with word := BitVec.ofNat 128 (op * 2 ^ 120 + 0x1000 * 2 ^ 64 + 0x30000 * 2 ^ 8), phase := .atPort }
def portReg (op : Nat) (mem : OpMem) (beats : List Beat) : Region :=
  let r := opRegion op 0x11 mem beats
  { r with body := { r.body with ports := [{ op := 0, kind := 0, cmds := [(0, 1)] }] } }
def portState (op cmd : Nat) (mem : OpMem) (beats : List Beat) : State :=
  { opState (portReg op mem beats) with queues := [{ pkg.queue 1 0 with started := [portCmdOf cmd] }] }
/-- A beat that offers an offset. -/
def meetsPort (op cmd : Nat) (mem : OpMem) (beats : List Beat) : Prop :=
  let r := portReg op mem beats
  AtPort (portState op cmd mem beats) r (opView r) 0 (portCmdOf cmd) ∧ At (opView r) (upFrom 0 beats.length) beats
theorem meets_PortOperators : meetsPort 0x60 1 (.port 0 true) [dataBeat 64] ∧ meetsPort 0x60 1 (.port 0 true) [dataBeat 0x1000] ∧
    meetsPort 0x60 1 (.port 0 true) [stopBeat 1] ∧ meetsPort 0x61 2 (.port 0 true) [dataBeat 64, two32 1 2] ∧
    meetsPort 0x62 2 (.port 0 true) [dataBeat 64, two32 1 2] ∧ AllHome (portState 0x62 2 (.port 0 true) []) ∧
    ((portState 0x60 1 (.port 0 true) [dataBeat 64]).passGate 0 0 (portReg 0x60 (.port 0 true) []).unit 1 0 (portCmdOf 1) (((plainAt 64 .read).take 1).flatMap (List.replicate 256))).isRight = true ∧ (plainAt 64 .read).length = 64 := by
  unfold meetsPort AtPort Ready At
  refine ⟨by decide +kernel, by decide +kernel, by decide +kernel, by decide +kernel, by decide +kernel, ?_, by decide +kernel⟩
  intro i x h
  have a : ∀ y ∈ (portState 0x62 2 (.port 0 true) []).history, y.placed ≠ 0 := by decide +kernel
  exact a x (List.mem_of_getElem? h)

/-! #### Replays, hosts, trunks, the pager and Depot -/

/-- A header at 0x30800 whose parameters are in the versioned range, and nodes 0 to 4: a launch node, a task node, a
conditional node on the zero at 0x30F00, a while node on the number at 0x30000 with a cap of 3, an end node. -/
def nodeWord (kind ns pred cap cond : Nat) : Nat :=
  kind * 2 ^ 508 + (ns - 1) * 2 ^ 505 + pred * 2 ^ 464 + cap * 2 ^ 448 + cond * 2 ^ 256
def timetable : List Host.Cell :=
  bytesAt 0x120800 64 (0x40000 * 2 ^ 320 + 5 * 2 ^ 288) ++ bytesAt 0x120840 64 (nodeWord 0 1 1 0 0) ++
    bytesAt 0x120880 64 (nodeWord 1 2 2 0 0) ++ bytesAt 0x1208C0 64 (nodeWord 2 2 1 0 0x30F00) ++
    bytesAt 0x120900 64 (nodeWord 3 2 1 3 0x30000) ++ bytesAt 0x120940 64 (nodeWord 4 1 1 0 0)
def aNode : NodeSt :=
  { left := 1, seen := false, started := false, due := false, ready := false, looping := false, iter := 2, choice := 0, view := [] }
def aReplay (n : NodeSt) : Replay :=
  { job := 1, va := 0x30800, params := { num := 1, stamp := 0, retired := 0, data := [] }, nodes := [n, n, n, n, n],
    capped := false, startedIn := [] }
def withTimetable (d : Die) : State :=
  { pkg with mem := Memory.writeCells [] (bytesAt 0x120000 8 0x0123456789ABCDEF ++ timetable), slots := [slot12 0 0], dies := pkg.dies.set 0 d }
def asked : State := withTimetable { liveDie 0 with replays := [(1, 0x30800)] }
def replaying (n : NodeSt) : State := withTimetable { liveDie 0 with running := [aReplay n] }
theorem meets_Replays_asked : asked.replayOf 1 0x30800 = none ∧ (1, 0x30800) ∈ (asked.die 0).replays ∧
    asked.slotOf 1 (asked.ttRead 1 0x30800 40 7) = some theRef ∧ (asked.slotAt 1 theRef).live.getLast?.isSome = true ∧
    asked.ttRead 1 0x30800 36 2 = 5 := by decide +kernel
theorem meets_Replays_running : (∀ n ∈ [aNode, { aNode with ready := true }, { aNode with due := true }, { aNode with left := 2 }],
      (replaying n).replayOf 1 0x30800 = some (0, aReplay n)) ∧
    (∀ k ∈ [0, 1, 2, 3, 4], ndKind ((replaying aNode).ttNode 1 0x30800 k) = k) ∧
    (replaying aNode).condWord 1 ((replaying aNode).ttNode 1 0x30800 2) = 0 ∧
    (replaying aNode).condWord 1 ((replaying aNode).ttNode 1 0x30800 3) ≠ 0 ∧
    aNode.iter < ndCap ((replaying aNode).ttNode 1 0x30800 3) ∧ ndCap (nodeWord 3 2 1 0 0) = 65536 := by decide +kernel

/-- A running task, a DONE one, a launch of a region in place and of one that is SAVED, replays asked for and running, a resident job. -/
def launched (st : RegionState) : State := regionCmd (aCmd 1) { portRegion st with launch := some [(0, 1)] }
theorem meets_Cancelling : (withCtx aCtx).ctxOf 1 0 7 = some aCtx ∧ (withCtx aCtx).taskRec 1 0 = some (aRecord 0 3) ∧
    recValid (aRecord 0 3) = true ∧ recGen (aRecord 0 3) = 7 ∧ recState (aRecord 0 3) = 3 ∧ recState (aRecord 0 4) = 4 ∧
    ((withCtx aCtx).abort aCtx).taskRec 1 0 = some (aRecord 0 3) ∧ (((withCtx aCtx).abort aCtx).hwSpan 1 (aJob.recVa 0) 8).isSome = true ∧
    (∀ st ∈ [RegionState.running, .saved], ((launched st).region? 1 0).map (fun r => (r.launch, r.state)) = some (some [(0, 1)], st)) ∧
    pkg.region? 1 0 = none ∧ ((replaying aNode).replayOf 1 0x30800).isSome = true ∧ asked.replayOf 1 0x30800 = none ∧
    pkg.resident? 1 = some aJob ∧ pkg.resident? 2 = none := by decide +kernel

/-- Semaphores 0 and 63 are held by ports 0 and 1. -/
def held : State := { pkg with sems := [{ n := 0, owner := 0, token := 5 }, { n := 63, owner := 1, token := 6 }] }
theorem meets_HostRegisters : (∀ p < 2, pkg.portInForce p = true) ∧ pkg.semOwner 0 = none ∧ held.semOwner 0 = some 0 ∧
    held.semOwner 63 = some 1 ∧ held.sems.Pairwise (fun a b => a.n ≠ b.n) ∧ held.semOwner 0 ≠ some 1 := by decide +kernel
theorem meets_ApertureAccesses : pkg.portInForce 0 = true ∧
    ((upFrom (2 ^ 48 - 4) 8).mapM (fun a => (pkg.resolvePa a).toOption)) = none ∧
    ((upFrom (2 ^ 46 + 0x120000) 8).mapM (fun a => (pkg.resolvePa a).toOption)) = some ((upFrom 0x120000 8).map (fun l => (l, 0))) ∧
    pkg.reach 0 0 = true ∧ (∀ l ∈ upFrom 0x120000 8, pkg.wsClosed l = false ∧ l ∉ pkg.badBytes ∧ wsDie? l = none) ∧
    (pkg.passBill 0 (hostGate 0) { reqs := 1, cells := 0, work := 0, per := 0 } Bill.zero).isRight = true ∧
    (({ pkg with dies := pkg.dies.map (fun d => { d with left := [(6, 0, 0, 0, 0)] }) } : State).passBill 0 (hostGate 0)
      { reqs := 1, cells := 0, work := 0, per := 0 } Bill.zero).isLeft = true ∧ (pkg.port 0).waiting = [] ∧ pkg.wsHit (upFrom 0x120000 8) = false := by decide +kernel

/-- A read waits at port 0; die 0 is out of reach; the weight store of die 0 is busy. -/
def queuedPort : State :=
  { pkg with ports := pkg.ports.set 0 { pkg.port 0 with waiting := [{ register := false, write := false, off := 8, value := 0 }] } }
theorem meets_ApertureAccesses_waiting : (queuedPort.port 0).waiting ≠ [] ∧ queuedPort.portInForce 0 = true ∧
    { pkg with links := [] }.reach 0 2 = false ∧
    { pkg with queues := [{ pkg.queue 1 0x5000 with started := [aCmd 0x11] }] }.wsHit (upFrom (windowLoc 0 0x40000000) 8) = true := by
  decide +kernel

/-- A job record at 0x160000, numbered 2, with its range table and its relocations where nothing is listed. -/
def submitted (num : Nat) : State :=
  { pkg with mem := Memory.writeCells [] (bytesAt 0x160000 128
      (num + 3 * 2 ^ 32 + 4 * 2 ^ 320 + (2 ^ 46 + 0x168000) * 2 ^ 336 + (2 ^ 46 + 0x170000) * 2 ^ 400)) }
theorem meets_Jobs_doorbell : doorbellOk (BitVec.ofNat 64 (2 ^ 46 + 0x160000)) = true ∧ doorbellOk 1 = false ∧
    pkg.portInForce 1 = true ∧ pkg.depot.open_ = true ∧ { pkg with depot := { pkg.depot with open_ := false } }.depot.open_ = false ∧
    ((submitted 2).verdict (2 ^ 46 + 0x160000)).1.code = 1 ∧
    (pkg.verdict (2 ^ 48)).1.code = 2 := by decide +kernel
/-- Nothing of the job is left: no record can be read, or all three tasks are DONE. -/
def bare : State := { pkg with jobs := [{ aJob with record := 1 }] }
def finished : State :=
  { pkg with
    mem := (pkg.mem.writeCells (bytesAt 0x100000 64 (aRecord 0 4))).writeCells
      (bytesAt 0x100080 64 (aRecord 0 4) ++ bytesAt 0x100100 64 (aRecord 0 5)) }
def armWord : CmdWord := BitVec.ofNat 128 (8 * 2 ^ 120)
def starting (arms : List CmdWord) : State := { pkg with jobs := [{ aJob with started := false, arms := arms }] }
theorem meets_Jobs : pkg.resident? 1 = some aJob ∧ pkg.job? 1 = some aJob ∧
    (∀ d < 4, (pkg.die d).running = [] ∧ (pkg.die d).replays = []) ∧ pkg.queues = [] ∧ pkg.regions = [] ∧ pkg.txruns = [] ∧
    finished.jobDone aJob = true ∧ pkg.jobDone aJob = false ∧ finished.mem.wf = true ∧
    (finished.hwLocs 1 (aJob.f 768 56) 8).map (fun ls => decide ls.Nodup) = some true ∧
    (starting []).listedArm 1 = none ∧ aJob.f 10 1 = 0 ∧ (∀ x ∈ finished.regions, x.resumeDue = false) ∧
    (finished.hwLocs 1 (aJob.f 768 56) 8).map finished.wsHit = some false ∧
    (starting []).headCheck 1 0 { aCmd 8 with tln := 0, word := armWord } = none := by decide +kernel

/-- A link with a cell that was asked for 16 times; one that is down. -/
def spentLink : Link := { Link.reset 0 1 with up := true, toA := { LinkDir.reset with repeats := [(3, 16)] } }
def upLink : Link := { Link.reset 0 1 with up := true }
/-- The same with the cell of 64 bytes of 0 on its way to die 1. -/
def sentLink : Link := { upLink with toB := { LinkDir.reset with seq := 1, flight := [0] } }
def sending : State := { pkg with links := [sentLink] }
def timed (z : Servo) : State :=
  { pkg with jobs := [], dies := pkg.dies.set 1 { liveDie 1 with servo := z }, depot := { pkg.depot with reference := some 0 } }
theorem meets_TrunksAndTime : pkg.linkUp 0 1 = true ∧ upLink ∈ pkg.links ∧ upLink.joins 0 1 = true ∧
    sending.linkUp 0 1 = true ∧ sending.inFlight 0 1 0 = true ∧ sending.inFlight 0 1 1 = false ∧ sentLink.joins 0 1 = true ∧ (upLink.dir 0).ahead = [] ∧ (upLink.dir 0).repeats = [] ∧ cellSeq 0 = (upLink.dir 0).next ∧ cellVc 0 < 3 ∧
    (spentLink.toA.repeats ++ spentLink.toB.repeats).any (fun q => decide (16 ≤ q.2)) = true ∧
    { pkg with links := [spentLink] }.outstanding 0 1 = [] ∧
    (∀ k ∈ pkg.links, k.joins 0 1 = true → k.spent = false) ∧
    { pkg with jobs := [], links := [Link.reset 0 1] }.idle = true ∧ { pkg with links := [Link.reset 0 1] }.linkUp 0 1 = false := by
  decide +kernel
/-- Dies 0 and 1 are joined to each other by a link whose cell does not come; without it die 1 is lost. -/
def lonely : State := { pkg with links := [spentLink, { Link.reset 0 2 with up := true }, { Link.reset 2 3 with up := true }] }
theorem meets_TrunksAndTime_lost : lonely.reach 0 1 = true ∧ spentLink.joins 0 1 = true ∧ spentLink.up = true ∧
    (lonely.dropLink 0 1).depot.die = some 0 ∧ (lonely.dropLink 0 1).live 1 = true ∧ (lonely.dropLink 0 1).reach 0 1 = false ∧
    (∀ i ∈ (lonely.dropLink 0 1).liveDies, i ≠ 1 → (lonely.dropLink 0 1).reach 0 i = true) ∧
    (∀ i ∈ pkg.liveDies, pkg.reach 0 i = true) := by decide +kernel
/-- A TREQ of die 1 has come to die 0, its TRSP and TFUP to die 1; buffers are free for answers and requests. -/
def treqCell : BitVec 512 := timeCellOf 0x30 1 0 0 1 0
def trspCell : BitVec 512 := timeCellOf 0x31 0 1 0 1 0
def tfupCell : BitVec 512 := timeCellOf 0x32 0 1 1 1 (0x1000 + 0x1000 * 2 ^ 64)
def timedLink : Link :=
  { upLink with
    toA := { LinkDir.reset with out := [treqCell], free := [{ vc := 2, dest := 0, reserved := none }] }
    toB := { LinkDir.reset with out := [trspCell, tfupCell], free := List.replicate 2 { vc := 2, dest := 1, reserved := none } } }
def exchanging (z : Servo) : State := { timed z with links := [timedLink] }
theorem meets_TrunksAndTime_exchange :
    (∀ z ∈ [Servo.zero, { Servo.zero with xnum := 1, stage := 1 }, { Servo.zero with xnum := 1, stage := 3 },
        { Servo.zero with xnum := 1, stage := 3, locked := true }, { Servo.zero with xnum := 1, stage := 3, voided := true }],
      (exchanging z).parent 1 = some 0 ∧ ((exchanging z).die 1).servo = z) ∧
    (let s := exchanging { Servo.zero with xnum := 1 }
     ((s.die 1).clock - (s.die 1).servo.t1).toNat < 262144 ∧
       1 ≤ (s.linkDir 1 0).free.count { vc := 2, dest := 0, reserved := none } ∧
       2 ≤ (s.linkDir 0 1).free.count { vc := 2, dest := 1, reserved := none } ∧
       (s.linkDir 1 0).out.find? (fun c => timeCell c && cellKind c == 0x30 && cellDdie c == 0) = some treqCell ∧
       (s.linkDir 0 1).out.find? (fun c => timeCell c && cellKind c == 0x31 && cellDdie c == 1) = some trspCell ∧
       (s.linkDir 0 1).out.find? (fun c => timeCell c && cellKind c == 0x32 && cellDdie c == 1) = some tfupCell ∧
       cellNum tfupCell = 1 ∧ cellNum trspCell = 1) ∧
    (let s := exchanging { Servo.zero with xnum := 1, t1 := 0 - 262144 }
     262144 ≤ ((s.die 1).clock - (s.die 1).servo.t1).toNat) ∧
    (timed Servo.zero).idle = true ∧ (timed Servo.zero).depot.reference = some 0 ∧ (timed Servo.zero).depot.gmLocked = false ∧
    ((timed Servo.zero).die 0).stime.toNat ≤ (0x1000 : Word64).toNat := by decide +kernel

/-- Pages 8 and 9, paged: their tables in frames 0x40 to 0x42 of die 0, page 8 in frame 0x50 of die 0, nothing for page 9,
whose frame comes from die 1, and a pointer where a page should stand for page 10. -/
def pagedRange : BitVec 256 :=
  BitVec.ofNat 256 (1 + 15 * 2 ^ 83 + 2 ^ 87 + 1 * 2 ^ 146 + 0x40 * 2 ^ 148 + 10 * 2 ^ 176 + 8 * 2 ^ 216)
def leaf8 : Nat := 2 + 15 * 2 ^ 6 + 2 ^ 30 + 0x50 * 2 ^ 32
def tables : List Host.Cell :=
  bytesAt 0x400000 16 (1 + 2 ^ 30 + 0x41 * 2 ^ 32) ++ bytesAt 0x410000 16 (1 + 2 ^ 30 + 0x42 * 2 ^ 32) ++
    bytesAt 0x420000 16 (leaf8 + 7 * 2 ^ 96) ++ bytesAt 0x420010 16 (2 ^ 10 + 2 ^ 12) ++ bytesAt 0x420020 16 3
def aFault (src : FaultSrc) (va : Word64) : PageFault :=
  { token := 5, job := 1, src := src, va := va, pc := 0, kind := 0, level := 3, cause := 0, stamp := 0, det := 0, posted := false, lost := false,
    noframe := false, again := false }
/-- A fault of a command on page `va`, with room in a ring of 16; a swap of the entry of page 8 is asked for. -/
def paging (f : PageFault) (busy : Bool) (more : List Host.Cell) : State :=
  { withCmd 0x1000 { aCmd 5 with phase := .faulted 0 5 } with
    mem := (Memory.writeCells [] tables).writeCells more
    jobs := [{ aJob with ranges := aJob.ranges ++ [pagedRange] }]
    dies := pkg.dies.set 0 { liveDie 0 with
      faults := [f]
      pager := { PagerIf.zero with pgrlog := 4, pgea := BitVec.ofNat 64 (2 ^ 46 + 0x420000), pgexp := 7, busy := busy, swapAt := 2 ^ 46 + 0x420000 } } }
def faulty (va : Word64) : State := paging (aFault (.command 0x1000 1) va) false []
theorem meets_PagerSteps :
    ((faulty 0x80000).die 0).faults.find? (fun f => !f.posted) = some (aFault (.command 0x1000 1) 0x80000) ∧
    ((faulty 0x80000).die 0).pager.room = true ∧
    ((paging { aFault (.command 0x1000 1) 0x80000 with posted := true } false []).pending 0 5).map (fun f => (f.token, f.va.toNat)) = some (5, 0x80000) ∧
    ((faulty 0x80000).cmd? 1 0x1000 1).map (fun c => c.phase) = some (.faulted 0 5) ∧
    (faulty 0x80000).paLocs (bf ((faulty 0x80000).die 0).pager.pgea.toNat 4 44 * 16) 16 = some (upFrom 0x420000 16) ∧
    bf (ofBytes ((faulty 0x80000).homeBytes (upFrom 0x420000 16))) 96 32 = ((faulty 0x80000).die 0).pager.pgexp.toNat ∧
    (faulty 0x80000).pagerUp = true ∧ ((faulty 0x80000).die 0).pager.busy = false ∧
    (faulty 0x80000).paReady (bf ((faulty 0x80000).die 0).pager.pgrbase.toNat 6 42 * 64) 64 true = true := by decide +kernel
/-- An entry that is not valid is swapped; another version is expected. -/
theorem meets_PagerSteps_swap :
    (let s := paging (aFault (.task 1) 0) true (bytesAt 0x420000 8 0)
     (s.die 0).pager.busy = true ∧ s.paLocs (s.die 0).pager.swapAt 16 = some (upFrom 0x420000 16) ∧
       s.paReady (s.die 0).pager.swapAt 8 true = true) ∧
    bf (ofBytes ((paging (aFault (.task 1) 0) false (bytesAt 0x420008 8 0)).homeBytes (upFrom 0x420000 16))) 96 32 ≠ 7 := by
  decide +kernel
def mapping (s : State) (va : Nat) : Nat × Nat :=
  match s.mapPage 1 va 4 with
  | .made _ => (0, 0)
  | .cannot => (1, 0)
  | .noFrame p => (2, p)
  | .wait => (3, 0)
theorem meets_PagerSteps_pages : mapping (faulty 0) 0x80000 = (0, 0) ∧ mapping (faulty 0) 0x90000 = (2, 2) ∧
    mapping (faulty 0) 0xA0000 = (1, 0) := by decide +kernel
/-- The tables of page 8 lie in a weight store whose bank is closed: its mapping waits. -/
def tablesShut : State :=
  { faulty 0 with jobs := [{ aJob with ranges := [BitVec.ofNat 256
      (1 + 15 * 2 ^ 83 + 2 ^ 87 + 2 * 2 ^ 146 + 0x4000 * 2 ^ 148 + 10 * 2 ^ 176 + 8 * 2 ^ 216)] }] }
theorem meets_PagerSteps_waits : mapping tablesShut 0x80000 = (3, 0) := by decide +kernel
/-- Entry 0 of the request ring asks to unmap page 8, or does not say what is asked for. -/
def unmapEntry (op : Nat) : Nat := op * 2 ^ 248 + 1 * 2 ^ 242 + 1 * 2 ^ 192 + 0x80000 * 2 ^ 136
def requesting (op : Nat) : State :=
  paging (aFault (.task 1) 0) false (bytesAt 0x80000 8 1 ++ bytesAt 0x80040 32 (unmapEntry op))
theorem meets_PagerSteps_requests : (requesting 1).request = some (0, unmapEntry 1) ∧ (requesting 1).requestOk (unmapEntry 1) = true ∧
    (requesting 0).request = some (0, unmapEntry 0) ∧ (requesting 0).requestOk (unmapEntry 0) = false ∧
    (requesting 1).leafAt 1 0x80000 = some (3, 2 ^ 46 + 0x420000, leaf8 + 7 * 2 ^ 96) ∧ (requesting 1).moving = [] ∧
    (requesting 1).request = some (0, unmapEntry 1) ∧ (requesting 1).depot.work = none ∧ bf (leaf8 + 7 * 2 ^ 96) 0 2 = 2 ∧
    (requesting 1).pagerDie = 0 ∧ (∀ x ∈ (requesting 1).history, x.placed ≠ 0) ∧
    (requesting 1).paReady (2 ^ 46 + 0x420000) 16 true = true ∧ rqCopy (unmapEntry 1) = 0 ∧ ({ requesting 2 with depot := { pkg.depot with free := [(0, 0)] } }.takeFrame 0).isSome = true := by
  decide +kernel

/-- A page whose swap is still to start, is under way, has succeeded or has failed. -/
def aWork (swapping : Bool) : PageWork :=
  { entry := 2 ^ 46 + 0x420000, old := leaf8 + 7 * 2 ^ 96, wver := 7, new := 0, frame := none, swapping := swapping }
def workingOn (w : PageWork) (busy ok : Bool) : State :=
  let s := requesting 1
  { s with
    depot := { s.depot with taken := true, work := some w }
    dies := s.dies.set 0 { s.die 0 with pager := { (s.die 0).pager with busy := busy, ok := ok } } }
theorem meets_PagerSteps_work : (workingOn (aWork false) false false).request = some (0, unmapEntry 1) ∧
    (∀ x ∈ [(true, false), (false, true), (false, false)], ((workingOn (aWork true) x.1 x.2).die 0).pager.busy = x.1 ∧
      ((workingOn (aWork true) x.1 x.2).die 0).pager.ok = x.2 ∧ (workingOn (aWork true) x.1 x.2).depot.work = some (aWork true)) ∧
    (workingOn (aWork true) false true).paRead (2 ^ 46 + 0x420000) 8 % 2 ^ 64 = leaf8 ∧ { aWork true with new := leaf8 }.new = leaf8 ∧
    (aWork true).new ≠ leaf8 := by
  decide +kernel

/-- No image on the drives; a package whose management blocks all fail. -/
theorem meets_BringUpSteps : State.reset.bringUp.depotDie (State.reset.bringUp.passing []) = some 0 ∧
    bootImage (vget State.reset.depot.drives 0 (Vector.replicate 2 Drive.empty)) State.reset.depot.fsvn = none ∧
    ({ State.reset.bringUp with mgmtOk := Vector.replicate 4 false }.depotDie [0, 1, 2, 3]) = none ∧
    pkg.live 3 = true ∧ State.reset.live 3 = false ∧ (timed Servo.zero).idle = true ∧ pkg.depot.held = [] ∧ pkg.ctxs = [] ∧
    (∀ x ∈ pkg.history, x.placed ≠ 0) ∧ pkg.depot.die = some 0 := by decide +kernel
/-- Two parts of a power-on: every die in PARTITION, then in TRAINING. -/
theorem test_powerOn : (match exec .powerOn State.reset with
    | .next t => match exec .powerOn t with
      | .next u => some ((t.die 3).state, (u.die 3).state, u.livedies)
      | _ => none
    | _ => none) = some (.partition, .training, 0) := by decide +kernel
def inState (x : DieState) : State := { State.reset with dies := State.reset.dies.map (fun d => { d with state := x }) }
theorem meets_BringUpSteps_parts : (State.reset.die 0).state = .off ∧ ((inState .partition).die 0).state = .partition ∧
    ((inState .training).die 0).state = .training ∧ (inState .training).bringUp.depotDie ((inState .training).bringUp.passing []) = some 0 ∧
    (inState .partition).bringUp.failed [] 2 = 0 ∧ { State.reset.bringUp with failing := #v[0, 1, 0, 0] }.failed [] 1 = 1 := by decide +kernel
/-- In recovery mode port 1 has set RCVGO, or has not. -/
def recovering : State :=
  { pkg with depot := { pkg.depot with recovery := true }, ports := pkg.ports.set 1 { pkg.port 1 with rcvstat := 1 } }
theorem meets_BringUpSteps_recovery : recovering.portUp 1 = true ∧ pkg.depot.recovery = false ∧
    (recovering.port 1).rcvstat = 1 ∧ (recovering.port 0).rcvstat ≠ 1 ∧ imageAccepted [] recovering.depot.fsvn = false ∧ (recovering.port 1).rcvaddr.toNat + (recovering.port 1).rcvlen.toNat ≤ 2 ^ 44 := by
  decide +kernel

/-- A request in a port's mailbox: command, die, address and length. -/
def mailing (port cmd d addr len : Nat) : State :=
  { pkg with
    jobs := []
    mem := Memory.writeCells [] (bytesAt (0x100000 + 0x1000 * port) 64 (cmd + d * 2 ^ 128 + addr * 2 ^ 384 + len * 2 ^ 448)) }
theorem meets_DepotRequests :
    (∀ x ∈ [(1, 0), (2, 16), (3, 144), (4, 144), (5, 128), (6, 32), (7, 0)],
      (mailing 1 x.1 2 (2 ^ 46 + 0x150000) x.2).mailPending 1 x.1 = true ∧
      (mailing 1 x.1 2 (2 ^ 46 + 0x150000) x.2).mailPending 0 x.1 = false ∧
      (mailing 1 x.1 2 (2 ^ 46 + 0x150000) x.2).mailOk ((mailing 1 x.1 2 (2 ^ 46 + 0x150000) x.2).mail 1) (x.1 == 6) = true ∧
      mailLen ((mailing 1 x.1 2 (2 ^ 46 + 0x150000) x.2).mail 1) = x.2 ∧
      ((mailing 1 x.1 2 (2 ^ 46 + 0x150000) x.2).paLocs (2 ^ 46 + 0x150000) x.2).isSome = true) ∧
    (mailing 1 3 4 0 144).mailOk ((mailing 1 3 4 0 144).mail 1) false = false ∧ (mailing 0 3 0 0 0).idle = true := by
  decide +kernel
theorem meets_DepotRequests_tables : pkg.readPa (2 ^ 46 + 0x150000) 144 = some 0 ∧ pkg.budgetOk 2 0 = true ∧
    pkg.budgetOk 2 (2 ^ 96) = false ∧ pkg.budgetOk 2 (601 * 2 ^ 64) = false ∧
    imageAccepted [] pkg.depot.fsvn = false ∧
    (pkg.die 0).actPeriod < ({ liveDie 0 with stime := 0x4000 }).stime.toNat / Config.usec ∧
    (pkg.die 0).stime.toNat / Config.usec ≤ ({ liveDie 0 with actPeriod := 1 }).actPeriod ∧ pkg.pagerUp = true ∧
    (pkg.die 1).stime.toNat < 1 + 1000 * Config.usec ∧ 1000 * Config.usec ≤ (16000000 : Word64).toNat ∧
    (∀ x ∈ [110 * 16, 110 * 16 - 1, 95 * 16 - 1], (({ pkg with dies := pkg.dies.set 1 { liveDie 1 with junction := x } } : State).die 1).junction = x) := by
  decide +kernel

/-! #### What a step runs -/

theorem meets_StepRunsTheDecodedInstruction :
    (withCtx aCtx).agenda = [] ∧ (withCtx aCtx).ctx? 0 0 0 = some aCtx ∧ aCtx.words[aCtx.ip]? = some 0 ∧
    (decodeScalar 0x04690014).toOption = some (.clz 3 9 false) ∧ (decodeScalar 0xFFFFFFFF).toOption = none ∧
    { aCtx with ip := 3 }.words[3]? = none ∧
    decodeHeader 0 = some (0, false) ∧ blockCheck false [0x04690014] = none ∧
    ((withCmd 0x1000 (aCmd 0x1D)).cmd? 1 0x1000 1).map (fun c => (c.phase, (decodeCmd c.word).toOption.isSome)) =
      some (.running, true) ∧
    ({ withCtx aCtx with missed := some { job := 1, va := 0x30000, fault := none } }).missed ≠ none ∧ (withCtx aCtx).missed = none ∧
    (withCtx aCtx).walkFaulted { job := 1, va := 0x30000, fault := some (3, 0) } = false ∧
    ({ withCtx aCtx with dies := pkg.dies.set 0 { pkg.die 0 with faults := [aFault .hardware 0x30000] } }).walkFaulted
      { job := 1, va := 0x30000, fault := some (3, 0) } = true := by decide +kernel
theorem meets_MemoryStaysCanonical : pkg.mem.wf = true ∧
    (match step { pkg with agenda := [.event (.hostPortReset 0)] } with
     | .next t => t.agenda.isEmpty
     | _ => false) = true := by decide +kernel

theorem mapM_all {α β : Type} (f : α → Option β) : ∀ l : List α, (∀ a ∈ l, (f a).isSome = true) → (l.mapM f).isSome = true
  | [], _ => rfl
  | a :: l, h => by
    obtain ⟨b, hb⟩ := Option.isSome_iff_exists.mp (h a (List.mem_cons_self ..))
    obtain ⟨bs, hbs⟩ := Option.isSome_iff_exists.mp (mapM_all f l (fun x hx => h x (List.mem_cons_of_mem _ hx)))
    simp [List.mapM_cons, hb, hbs]
theorem mem_upFrom_lt : ∀ n a x, x ∈ upFrom a n → a ≤ x ∧ x < a + n
  | 0, _, _, h => by simp [upFrom] at h
  | n + 1, a, x, h => by
    rcases List.mem_cons.mp h with h | h
    · omega
    · have := mem_upFrom_lt n (a + 1) x h; omega
theorem resolves (s : State) (o : Nat) (h0 : s.live 0 = true) (hf : s.ifoot 0 = 0) (h : o < 2 ^ 30) :
    s.resolvePa (2 ^ 46 + o) = .ok (dramLoc 0 o, 0) := by
  have h1 : bf (2 ^ 46 + o) 46 2 = 1 := by unfold bf; omega
  have h2 : bf (2 ^ 46 + o) 44 2 = 0 := by unfold bf; omega
  have h3 : (2 ^ 46 + o) % 2 ^ 44 = o := by omega
  have h5 : ¬ o ≥ Config.dramBytes := by unfold Config.dramBytes; omega
  unfold State.resolvePa
  simp only [h1, h2, h3]
  simp [h0, hf, h5]
  exact ⟨by omega, by decide⟩
theorem reachable (s : State) (b n : Nat) (h0 : s.live 0 = true) (hf : s.ifoot 0 = 0) (h : b + n ≤ 2 ^ 30) :
    (s.paLocs (2 ^ 46 + b) n).isSome = true := by
  unfold State.paLocs
  refine mapM_all _ _ (fun a ha => ?_)
  have h1 := mem_upFrom_lt _ _ _ ha
  obtain ⟨o, rfl⟩ : ∃ o, a = 2 ^ 46 + o := ⟨a - 2 ^ 46, by omega⟩
  rw [resolves s o h0 hf (by omega)]
  rfl
theorem copies (s : State) (a b : Nat) (ha : (s.paLocs a 65536).isSome = true) (hb : (s.paLocs b 65536).isSome = true) :
    (s.copyPage a b).isSome = true := by
  obtain ⟨x, hx⟩ := Option.isSome_iff_exists.mp ha
  obtain ⟨y, hy⟩ := Option.isSome_iff_exists.mp hb
  unfold State.copyPage
  simp only [hx, hy, Option.isSome_some]
/-- A page can be copied from frame 0x50 of die 0 to frame 0x51. -/
theorem meets_PagerSteps_migrate : ((faulty 0).copyPage (pteTarget leaf8) (framePa 1 0x51)).isSome = true := by
  have e1 : pteTarget leaf8 = 2 ^ 46 + 0x500000 := by decide +kernel
  have e2 : framePa 1 0x51 = 2 ^ 46 + 0x510000 := by decide +kernel
  have h0 : (faulty 0).live 0 = true := by decide +kernel
  have hf : (faulty 0).ifoot 0 = 0 := by decide +kernel
  rw [e1, e2]
  exact copies _ _ _ (reachable _ _ _ h0 hf (by omega)) (reachable _ _ _ h0 hf (by omega))

/-! #### Single results of the manual's rules, worked out by hand -/

/-- R211, R178: cnot c1, c2 whose field b holds bit 4 alone: reason 4, a c field, comes before reason 3. -/
theorem test_word_cnot_b : decodeScalar 0x2C218003 = .error 4 := by decide +kernel
/-- R70: lanes(i:4 step 1) beats(i:1 step 1): two factors of one dimension with equal steps. -/
theorem test_order_equal_steps :
    ({ lanes := [{ dim := 0, ext := 4, step := 1, ragged := false }], beats := [{ dim := 0, ext := 1, step := 1, ragged := false }] } :
      Order).valid 32 false = false ∧ anOrder.valid 32 false = true := by decide
/-- R117: TARGET is the last page of die 1's memory of a place; offset 64 KiB of the range leaves the place. -/
theorem test_translate_overflow :
    (pkg.translate [BitVec.ofNat 256 (1 + 15 * 2 ^ 83 + 1 * 2 ^ 146 + (2 ^ 28 - 1) * 2 ^ 148 + 2 * 2 ^ 176 + 1 * 2 ^ 216)] 1
      .read 0x20000).toOption.isNone = true := by decide +kernel
/-- R47: an arrival at a barrier with EXPECT = 0 is a dead letter whose DETAIL names no reason, one at number 768 has 5. -/
theorem test_dead_letters : (barrierDead 5 0).detail = 0 ∧ (barrierDead 768 5).detail = 5 := by decide
/-- R5: on the reference die so many units and cycles pass as the turn says. -/
theorem test_time :
    (match step { pkg with depot := { pkg.depot with reference := some 0 }, agenda := [.time [2, 0, 0, 0] [1, 0, 0, 0]] } with
    | .next t => some ((t.die 0).stime.toNat - 0x1000, (t.die 0).cycle.toNat)
    | _ => none) = some (2, 1) := by decide +kernel
/-- FIPS 180-4: the digest of "abc". -/
theorem test_sha256 : sha256 [97, 98, 99] = 0xba7816bf8f01cfea414140de5dae2223b00361a396177a9cb410ff61f20015ad := by
  decide +kernel
/-- RFC 6979, A.2.5: the signature of "sample" with SHA-256 over P-256. -/
theorem test_ecdsa : ecdsaOk
    0x60fed4ba255a9d31c961eb74c6356d68c049b8923b61fa6ce669622e60f29fb67903fe1008b8bc99a41ae9e95628bc64f2f1b20c2d7e9f5177a3c294d4462299
    0xaf2bdbe1aa9b6ec1e2ade1d694f41fc71a831d0268e9891562113d8a62add1bf
    0xefd48b2aacb6a8fd1140dd9cd45e81d69d2c877b56aaf991c34d0ea84eaf3716f7cb1c942d657c41d436c7a1b6e29f65f3e900dbb9aff4064dc4ab2f843acda8 =
      true := by decide +kernel

/-! #### Walks of the hardware over plain ranges -/

theorem resolve_error (s : State) (pa : Nat) (f : TFault) (h : s.resolvePa pa = .error f) : (∃ n, f = .prot n) ∨ f = .dieLost := by
  unfold State.resolvePa at h
  dsimp only at h
  split at h
  · cases h; exact .inl ⟨_, rfl⟩
  · split at h
    · split at h <;> cases h
      exact .inl ⟨_, rfl⟩
    · split at h
      · cases h; exact .inr rfl
      · split at h <;> cases h
        exact .inl ⟨_, rfl⟩
    · split at h
      · cases h; exact .inl ⟨_, rfl⟩
      · split at h <;> cases h
        exact .inr rfl
    · split at h <;> cases h
      exact .inr rfl
theorem wsClosed_low (s : State) (l : Nat) (h : l < 2 ^ 44) : s.wsClosed l = false := by
  have e : wsDie? l = none := by
    unfold wsDie?
    rw [if_neg]
    simp
    omega
  simp [State.wsClosed, State.wsShut, e]
theorem resolve_dram (s : State) (pa l d : Nat) (hp : bf pa 46 2 = 1) (h : s.resolvePa pa = .ok (l, d)) : s.wsClosed l = false := by
  unfold State.resolvePa at h
  simp only [hp] at h
  split at h
  · cases h
  · split at h
    · cases h
    · split at h
      · cases h
      · rename_i h1 h2 h3
        injection h with h
        injection h with h4 h5
        subst h4
        apply wsClosed_low
        unfold dramLoc
        have : bf pa 44 2 < 4 := by unfold bf; omega
        unfold Config.dramBytes at h3
        have : 1 ≤ 1 := by omega
        omega
/-- An entry for main memory of one die, plain or versioned. -/
def plainEntry (e : BitVec 256) : Bool :=
  !bit e.toNat 87 && (if rgVers e then bf (rg e 102 42 * 64) 46 2 == 1 && decide (rg e 102 42 * 64 < 2 ^ 48) else rg e 146 2 == 1)
/-- A translation that ends at a byte which is open, or in a fault that is not for the pager. -/
def Tame (s : State) (x : Except TFault Trans) : Prop :=
  match x with
  | .ok t => s.wsClosed t.loc = false
  | .error f => (∃ n, f = .prot n) ∨ f = .dieLost
/-- What an access to a plain or versioned range in main memory comes to: nothing that waits or leads to the pager. -/
theorem translate_plain (s : State) (ranges : List (BitVec 256)) (job va : Nat) (kind : AccKind)
    (h : ranges.all plainEntry = true) :
    Tame s (s.translate ranges job kind va) := by
  unfold State.translate
  split
  · exact .inl ⟨_, rfl⟩
  · split
    · exact .inl ⟨_, rfl⟩
    · rename_i k e hf
      have he : e ∈ ranges := by
        have := List.mem_of_find?_eq_some hf
        exact (List.of_mem_zip this).2
      have hq := List.all_eq_true.mp h e he
      simp only [plainEntry, Bool.and_eq_true, Bool.not_eq_true'] at hq
      obtain ⟨h1, h2⟩ := hq
      dsimp only
      split
      · exact .inl ⟨_, rfl⟩
      · split
        · rename_i hv
          rw [if_pos hv] at h2
          simp only [Bool.and_eq_true, beq_iff_eq, decide_eq_true_eq] at h2
          obtain ⟨hp, hb⟩ := h2
          split
          · exact .inl ⟨_, rfl⟩
          · rename_i ho
            split
            · rename_i f hr
              exact resolve_error s _ f hr
            · rename_i l d hr
              refine resolve_dram s _ l d ?_ hr
              unfold poolPa
              unfold bf at hp ⊢
              omega
        · rename_i hv
          rw [if_neg hv, beq_iff_eq] at h2
          have hp := h2
          rw [h1]
          simp only [Bool.false_eq_true, if_false]
          split
          · exact .inl ⟨_, rfl⟩
          · rename_i ho
            split
            · rename_i f hr
              exact resolve_error s _ f hr
            · rename_i l d hr
              have hd : s.wsClosed l = false := by
                refine resolve_dram s _ l d ?_ hr
                have : rg e 144 2 < 4 := by unfold rg bf; omega
                unfold paOf
                rw [hp]
                unfold bf
                omega
              have done (b : Bool) : Tame s (if b = true then .error (.prot 6) else .ok
                  { loc := l, pa := paOf (rg e 146 2) (rg e 144 2) (rg e 148 28 * 2 ^ 16 + (va - rgVbase e * 2 ^ 16)),
                    home := d, rng := k, entry := e, path := [] }) := by
                cases b
                · exact hd
                · exact .inl ⟨_, rfl⟩
              by_cases ha : (decide (kind = .atomic) && isHostLoc l) = true
              · rw [if_pos ha]
                exact .inl ⟨_, rfl⟩
              · rw [if_neg ha]
                exact done _
theorem touch_plain (s : State) (j : Job) (job : Nat) (hj : s.job? job = some j)
    (h : j.ranges.all plainEntry = true) : ∀ a n, s.hwTouch job a n = s := by
  have key : ∀ n a, match s.translateSpan j.ranges job .read a n with
      | .ok ts => ∀ t ∈ ts, s.wsClosed t.loc = false
      | .error (f, _) => (∃ k, f = .prot k) ∨ f = .dieLost := by
    intro n
    induction n with
    | zero => intro a; simp [State.translateSpan]
    | succ n ih =>
      intro a
      have h1 : Tame s (s.translate j.ranges job .read a) := translate_plain s j.ranges job a .read h
      have h2 := ih (a + 1)
      unfold State.translateSpan
      revert h1 h2
      cases s.translate j.ranges job .read a with
      | error f => intro h1 _; exact h1
      | ok t =>
        intro h1
        cases s.translateSpan j.ranges job .read (a + 1) n with
        | error f => intro h2; exact h2
        | ok ts =>
          intro h2 x hx
          rcases List.mem_cons.mp hx with rfl | hx
          · exact h1
          · exact h2 x hx
  intro a n
  have h1 := key n a
  have e : s.hwMissed job a n = none := by
    unfold State.hwMissed
    rw [hj]
    revert h1
    dsimp only
    cases s.translateSpan j.ranges job .read a n with
    | ok ts =>
      intro h1
      have : ts.any (fun t => s.wsClosed t.loc) = false := by
        rw [List.any_eq_false]; intro t ht; simp [h1 t ht]
      simp only [this]; rfl
    | error f =>
      obtain ⟨f, a⟩ := f
      rintro (⟨k, rfl⟩ | rfl) <;> rfl
  unfold State.hwTouch
  rw [e]
theorem pkg_job : pkg.job? 1 = some aJob := by decide +kernel
theorem aJob_plain : aJob.ranges.all plainEntry = true := by decide +kernel
theorem job_of (s : State) (h : s.jobs = pkg.jobs) : s.job? 1 = some aJob := by
  unfold State.job?
  rw [h]
  exact pkg_job
theorem replaying_jobs (n : NodeSt) : (replaying n).jobs = pkg.jobs := by
  unfold replaying withTimetable
  rfl
theorem meets_Replays_reads (n : NodeSt) : ∀ a m, (replaying n).hwTouch 1 a m = replaying n :=
  touch_plain (replaying n) aJob 1 (job_of _ (replaying_jobs n)) aJob_plain
theorem meets_Jobs_records : ∀ i, pkg.recTouch 1 i = pkg := by
  intro i
  unfold State.recTouch
  rw [pkg_job]
  dsimp only
  split
  · exact touch_plain pkg aJob 1 pkg_job aJob_plain _ _
  · rfl

end Sys2Proof.Tests
end

/-! SUPPORT. Scalar computation (09_scalar_compute.md R198-R204, R221): what a write of a register leaves to be read, what an
instruction comes to that ends its turn in its own context, and the integer operations on numbers as operations on words. -/

namespace Sys2Proof.Machine

/-! ### The register file: taint views, f registers by format, and the frame of a write (R198) -/

theorem RegFile.rdTview_setG_same (r : RegFile) (i : GReg) (v : Word64) (t : Bool) (w : View) (h : i ≠ 0) :
    (r.setG i v t w).rdTview i = if t then w else [] := by
  have hw : vget (r.setG i v t w).tview i.toNat [] = if t then w else [] := by
    simp only [RegFile.setG, if_neg h]
    exact vget_vset_same _ _ _ _ i.isLt
  rw [RegFile.rdTview, RegFile.rdTaint_setG_same r i v t w h, hw]
  cases t <;> rfl

theorem RegFile.rdTview_setG_other (r : RegFile) (i j : GReg) (v : Word64) (t : Bool) (w : View) (h : i ≠ j) :
    (r.setG i v t w).rdTview j = r.rdTview j := by
  have hw : vget (r.setG i v t w).tview j.toNat [] = vget r.tview j.toNat [] := by
    unfold RegFile.setG
    split
    · rfl
    · exact vget_vset_other _ _ _ _ _ (fun e => h (BitVec.eq_of_toNat_eq e))
  rw [RegFile.rdTview, RegFile.rdTview, RegFile.rdTaint_setG_other r i j v t w h, hw]

theorem RegFile.rdTview_of_untainted (r : RegFile) (i : GReg) (h : r.rdTaint i = false) : r.rdTview i = [] := by
  simp [RegFile.rdTview, h]

@[simp] theorem RegFile.setG_c (r : RegFile) (i : GReg) (v : Word64) (t : Bool) (w : View) :
    (r.setG i v t w).c = r.c := by unfold RegFile.setG; split <;> rfl
@[simp] theorem RegFile.setG_f (r : RegFile) (i : GReg) (v : Word64) (t : Bool) (w : View) :
    (r.setG i v t w).f = r.f := by unfold RegFile.setG; split <;> rfl
@[simp] theorem RegFile.setG_fpctl (r : RegFile) (i : GReg) (v : Word64) (t : Bool) (w : View) :
    (r.setG i v t w).fpctl = r.fpctl := by unfold RegFile.setG; split <;> rfl

@[simp] theorem RegFile.setC_g (r : RegFile) (i : CReg) (v : Bool) : (r.setC i v).g = r.g := by
  unfold RegFile.setC; split <;> rfl
@[simp] theorem RegFile.setC_taint (r : RegFile) (i : CReg) (v : Bool) : (r.setC i v).taint = r.taint := by
  unfold RegFile.setC; split <;> rfl
@[simp] theorem RegFile.setC_tview (r : RegFile) (i : CReg) (v : Bool) : (r.setC i v).tview = r.tview := by
  unfold RegFile.setC; split <;> rfl
@[simp] theorem RegFile.setC_f (r : RegFile) (i : CReg) (v : Bool) : (r.setC i v).f = r.f := by
  unfold RegFile.setC; split <;> rfl
@[simp] theorem RegFile.setC_fpctl (r : RegFile) (i : CReg) (v : Bool) : (r.setC i v).fpctl = r.fpctl := by
  unfold RegFile.setC; split <;> rfl

theorem RegFile.codeF_eq (r : RegFile) (i : FReg) (f : FFmt) : r.codeF i f = (r.rdF i).toNat % 2 ^ f.width := by
  simp [RegFile.codeF, bf]

theorem two_pow_width_le (f : FFmt) : 2 ^ f.width ≤ 2 ^ 64 := by cases f <;> decide

/-- A format reads back the code that was written in it. -/
theorem RegFile.codeF_setF_same (r : RegFile) (i : FReg) (f : FFmt) (code : Nat) :
    (r.setF i f code).codeF i f = code % 2 ^ f.width := by
  have hlt : code % 2 ^ f.width < 2 ^ 64 :=
    (Nat.mod_lt _ (Nat.two_pow_pos _)).trans_le (two_pow_width_le f)
  rw [RegFile.codeF_eq, RegFile.setF, RegFile.rdF_setFbits_same, BitVec.toNat_ofNat, Nat.mod_eq_of_lt hlt, Nat.mod_mod]

/-! ### Two's complement as numbers and as words (R196, R197) -/

theorem toSigned_toNat {n : Nat} (x : BitVec n) : toSigned x.toNat n = x.toInt := by
  cases n with
  | zero => simp [toSigned, BitVec.of_length_zero]
  | succ n =>
    have hpow : 2 ^ (n + 1) = 2 * 2 ^ n := Nat.pow_succ'
    have hiff : x.toNat < 2 ^ (n + 1 - 1) ↔ 2 * x.toNat < 2 ^ (n + 1) := by rw [Nat.add_sub_cancel, hpow]; omega
    simp only [toSigned, Nat.mod_eq_of_lt x.isLt, hiff, BitVec.toInt_eq_toNat_cond]

theorem ofNat_ofSigned (i : Int) (n : Nat) : BitVec.ofNat n (ofSigned i n) = BitVec.ofInt n i := by
  apply BitVec.eq_of_toNat_eq
  rw [BitVec.toNat_ofNat, BitVec.toNat_ofInt, ofSigned, Nat.mod_eq_of_lt]
  have := Int.emod_lt_of_pos i (b := ((2 ^ n : Nat) : Int)) (by exact_mod_cast Nat.two_pow_pos n)
  have := Int.emod_nonneg i (b := ((2 ^ n : Nat) : Int)) (by exact_mod_cast (Nat.two_pow_pos n).ne')
  omega

theorem sext64_toNat {n : Nat} (x : BitVec n) : sext64 x.toNat n = x.signExtend 64 := by
  rw [sext64, toSigned_toNat, ofNat_ofSigned]; rfl

/-! ### The integer operations of R203 and R204 on words of any width -/

section Words

variable {n : Nat} (x y : BitVec n)

theorem ofNat_toNat_ite (p : Prop) [Decidable p] :
    BitVec.ofNat n (if p then x.toNat else y.toNat) = if p then x else y := by
  split <;> simp

theorem ofNat_aluAdd : BitVec.ofNat n (x.toNat + y.toNat) = x + y := by simp [BitVec.ofNat_add]

theorem ofNat_aluSub : BitVec.ofNat n (2 ^ n + x.toNat - y.toNat) = x - y := by
  have hy := y.isLt
  apply BitVec.eq_of_toNat_eq
  rw [BitVec.toNat_ofNat, BitVec.toNat_sub]
  congr 1
  omega

theorem ofNat_aluAnd : BitVec.ofNat n (x.toNat &&& y.toNat) = x &&& y := by simp [BitVec.ofNat_and]
theorem ofNat_aluOr : BitVec.ofNat n (x.toNat ||| y.toNat) = x ||| y := by simp [BitVec.ofNat_or]
theorem ofNat_aluXor : BitVec.ofNat n (x.toNat ^^^ y.toNat) = x ^^^ y := by simp [BitVec.ofNat_xor]

theorem ofNat_aluAndn : BitVec.ofNat n (x.toNat &&& (2 ^ n - 1 - y.toNat)) = x &&& ~~~y := by
  rw [← BitVec.toNat_not, ofNat_aluAnd]

theorem ofNat_aluShl : BitVec.ofNat n (aluShl n x.toNat y.toNat) = x <<< (y.toNat % n) := by
  apply BitVec.eq_of_toNat_eq
  rw [BitVec.toNat_ofNat, BitVec.toNat_shiftLeft, Nat.shiftLeft_eq, aluShl]

theorem ofNat_aluShr : BitVec.ofNat n (aluShr n x.toNat y.toNat) = x >>> (y.toNat % n) := by
  rw [aluShr, ← Nat.shiftRight_eq_div_pow, ← BitVec.toNat_ushiftRight, BitVec.ofNat_toNat, BitVec.setWidth_eq]

theorem ofNat_aluSar : BitVec.ofNat n (aluSar n x.toNat y.toNat) = x.sshiftRight (y.toNat % n) := by
  rw [aluSar, ofNat_ofSigned, toSigned_toNat, BitVec.sshiftRight, Int.shiftRight_eq_div_pow]

theorem ofNat_aluMul : BitVec.ofNat n (x.toNat * y.toNat) = x * y := by simp [BitVec.ofNat_mul]

theorem ofNat_aluMulh : BitVec.ofNat n (aluMulh n x.toNat y.toNat) = BitVec.ofInt n (x.toInt * y.toInt / 2 ^ n) := by
  rw [aluMulh, ofNat_ofSigned, toSigned_toNat, toSigned_toNat, Nat.cast_pow, Nat.cast_ofNat]

theorem ofNat_aluMin :
    BitVec.ofNat n (if toSigned x.toNat n ≤ toSigned y.toNat n then x.toNat else y.toNat) = if x.sle y then x else y := by
  simp only [ofNat_toNat_ite, toSigned_toNat, BitVec.sle_iff_toInt_le]

theorem ofNat_aluMax :
    BitVec.ofNat n (if toSigned x.toNat n ≥ toSigned y.toNat n then x.toNat else y.toNat) = if y.sle x then x else y := by
  simp only [ofNat_toNat_ite, toSigned_toNat, BitVec.sle_iff_toInt_le, ge_iff_le]

theorem ofNat_aluDiv : BitVec.ofNat n (aluDiv n x.toNat y.toNat) = x.sdiv y := by
  rw [aluDiv, ofNat_ofSigned, toSigned_toNat, toSigned_toNat]
  apply BitVec.eq_of_toInt_eq
  rw [BitVec.toInt_ofInt, BitVec.toInt_sdiv]

theorem ofNat_aluRem : BitVec.ofNat n (aluRem n x.toNat y.toNat) = x.srem y := by
  rw [aluRem, ofNat_ofSigned, toSigned_toNat, toSigned_toNat, ← BitVec.toInt_srem, BitVec.ofInt_toInt]

theorem ofNat_aluDivu : BitVec.ofNat n (x.toNat / y.toNat) = x / y := by
  rw [← BitVec.toNat_udiv, BitVec.ofNat_toNat, BitVec.setWidth_eq]

theorem ofNat_aluRemu : BitVec.ofNat n (x.toNat % y.toNat) = x % y := by
  rw [← BitVec.toNat_umod, BitVec.ofNat_toNat, BitVec.setWidth_eq]

end Words

/-! ### Counts and reversal of bits (R203) -/

theorem bit_eq_testBit (n i : Nat) : bit n i = n.testBit i := by
  rw [Nat.testBit_eq_decide_div_mod_eq, bit]; rfl

theorem aluClz_le (n x : Nat) : aluClz n x ≤ n := by unfold aluClz; split <;> omega

theorem testBit_of_lt_aluClz {n x j : Nat} (hj : j < aluClz n x) : x.testBit (n - 1 - j) = false := by
  unfold aluClz at hj
  split at hj
  case isTrue h0 => simp [h0]
  case isFalse h0 =>
    refine Nat.testBit_lt_two_pow ((Nat.log2_lt h0).mp ?_)
    omega

theorem testBit_aluClz {n x : Nat} (hx : x < 2 ^ n) (hk : aluClz n x < n) : x.testBit (n - 1 - aluClz n x) = true := by
  unfold aluClz at hk ⊢
  split at hk
  case isTrue => omega
  case isFalse h0 =>
    have hlog : x.log2 < n := (Nat.log2_lt h0).mpr hx
    have hidx : n - 1 - (n - 1 - x.log2) = x.log2 := by omega
    rw [if_neg h0, hidx, Nat.testBit_log2 h0]

theorem aluCtz_le (n x : Nat) : aluCtz n x ≤ n := by
  induction n generalizing x with
  | zero => exact Nat.le_refl 0
  | succ n ih =>
    have := ih (x / 2)
    unfold aluCtz
    split <;> omega

theorem testBit_of_lt_aluCtz {n x j : Nat} (hj : j < aluCtz n x) : x.testBit j = false := by
  induction n generalizing x j with
  | zero => simp [aluCtz] at hj
  | succ n ih =>
    unfold aluCtz at hj
    split at hj
    case isTrue => omega
    case isFalse h =>
      cases j with
      | zero => simpa [Nat.testBit_zero] using h
      | succ j => rw [Nat.testBit_succ]; exact ih (by omega)

theorem testBit_aluCtz {n x : Nat} (hk : aluCtz n x < n) : x.testBit (aluCtz n x) = true := by
  induction n generalizing x with
  | zero => omega
  | succ n ih =>
    unfold aluCtz at hk ⊢
    split at hk
    case isTrue h => simp [h, Nat.testBit_zero]
    case isFalse h =>
      rw [if_neg h, Nat.add_comm, Nat.testBit_succ]
      exact ih (by omega)

theorem popcount_eq_countP (x n : Nat) : popcount x n = (List.range n).countP (fun j => x.testBit j) := by
  induction n with
  | zero => rfl
  | succ n ih =>
    rw [popcount, ih, bit_eq_testBit, List.range_succ, List.countP_append, List.countP_singleton, Nat.add_comm]
    rfl

theorem aluBrev_lt (n x : Nat) : aluBrev n x < 2 ^ n := by
  induction n generalizing x with
  | zero => exact Nat.one_pos
  | succ n ih =>
    have hlow := ih (x / 2)
    have hbit : x % 2 * 2 ^ n ≤ 1 * 2 ^ n := Nat.mul_le_mul_right _ (by omega)
    rw [aluBrev, Nat.pow_succ']
    omega

theorem testBit_aluBrev (n x i : Nat) : (aluBrev n x).testBit i = (decide (i < n) && x.testBit (n - 1 - i)) := by
  induction n generalizing x with
  | zero => simp [aluBrev]
  | succ n ih =>
    rw [aluBrev, Nat.mul_comm, Nat.testBit_two_pow_mul_add _ (aluBrev_lt n _)]
    by_cases hi : i < n
    · have hidx : n + 1 - 1 - i = n - 1 - i + 1 := by omega
      rw [if_pos hi, ih, hidx, Nat.testBit_succ]
      simp [hi, Nat.lt_succ_of_lt hi]
    · rw [if_neg hi]
      obtain rfl | hlt := Nat.eq_or_lt_of_le (Nat.le_of_not_lt hi)
      · simp [Nat.testBit_zero]
      · have hbit : x % 2 < 2 ^ (i - n) :=
          (Nat.mod_lt x Nat.two_pos).trans_le (Nat.le_self_pow (by omega) 2)
        rw [Nat.testBit_lt_two_pow hbit]
        simp [Nat.not_lt.mpr hlt]

theorem ofNat_aluBrev {n : Nat} (x : BitVec n) : BitVec.ofNat n (aluBrev n x.toNat) = x.reverse := by
  apply BitVec.eq_of_getLsbD_eq
  intro i hi
  rw [BitVec.getLsbD_ofNat, testBit_aluBrev, BitVec.getLsbD_reverse, BitVec.getMsbD, BitVec.getLsbD]
  simp [hi]

end Sys2Proof.Machine

namespace Sys2Proof.Claims

open Sys2Proof.Machine

/-! ### Writes of a register, as the statements say them -/

/-- A write of a g register whose view is empty where the result is untainted. -/
theorem setsG_setG (r : RegFile) (d : GReg) (v : Word64) {t : Bool} {w w' : View} (hw : (if t then w else []) = w') :
    SetsG r (r.setG d v t w) d v t w' := by
  subst hw
  refine ⟨fun hd => ?_, RegFile.rdG_zero _, RegFile.rdTaint_zero _, fun k hk => ?_, RegFile.setG_c .., RegFile.setG_f ..,
    RegFile.setG_fpctl ..⟩
  · exact ⟨RegFile.rdG_setG_same r d v t w hd, RegFile.rdTaint_setG_same r d v t w hd, RegFile.rdTview_setG_same r d v t w hd⟩
  · exact ⟨RegFile.rdG_setG_other r d k v t w hk.symm, RegFile.rdTaint_setG_other r d k v t w hk.symm,
      RegFile.rdTview_setG_other r d k v t w hk.symm⟩

theorem setsG_setPlain (r : RegFile) (d : GReg) (v : Word64) : SetsG r (r.setPlain d v) d v false [] :=
  setsG_setG r d v rfl

theorem setsG_setFrom (r : RegFile) (d : GReg) (v : Word64) (a : GReg) :
    SetsG r (r.setFrom d v a) d v (r.rdTaint a) (r.rdTview a) := by
  refine setsG_setG r d v ?_
  cases ha : r.rdTaint a
  case true => rfl
  case false => simp [RegFile.rdTview_of_untainted r a ha]

theorem setsG_setFrom2 (r : RegFile) (d : GReg) (v : Word64) (a b : GReg) :
    SetsG r (r.setFrom2 d v a b) d v (r.rdTaint a || r.rdTaint b) (unionNat (r.rdTview a) (r.rdTview b)) := by
  refine setsG_setG r d v ?_
  cases hab : r.rdTaint a || r.rdTaint b
  case true => rfl
  case false =>
    obtain ⟨ha, hb⟩ := Bool.or_eq_false_iff.mp hab
    simp [RegFile.rdTview_of_untainted r a ha, RegFile.rdTview_of_untainted r b hb, unionNat]

theorem setsC_setC (r : RegFile) (d : CReg) (v : Bool) : SetsC r (r.setC d v) d v :=
  ⟨RegFile.rdC_setC_same r d v, RegFile.rdC_zero _, fun k hk => RegFile.rdC_setC_other r d k v hk.symm, RegFile.setC_g ..,
    RegFile.setC_taint .., RegFile.setC_tview .., RegFile.setC_f .., RegFile.setC_fpctl ..⟩

theorem setsF_setF (r : RegFile) (d : FReg) (f : FFmt) (code : Nat) : SetsF r (r.setF d f code) d f code :=
  ⟨RegFile.rdF_setFbits_same .., fun k hk => RegFile.rdF_setFbits_other r d k _ hk.symm, rfl, rfl, rfl, rfl, rfl⟩

/-! ### Instructions that end their turn in their own context -/

section Turns

variable {i : Instr} {s : State} {c : Ctx} (hc : s.cur = some c)
include hc

/-- The context in focus, become another at the same place: nothing else of the state changes. -/
theorem movedTo_setCtx {c' : Ctx} (hplace : (c'.die, c'.seq, c'.ctx) = (c.die, c.seq, c.ctx)) :
    MovedTo s c' (s.setCtx c') := by
  obtain ⟨hd, hq, hk⟩ : c'.die = c.die ∧ c'.seq = c.seq ∧ c'.ctx = c.ctx := by simpa using hplace
  refine ⟨s.cur_setCtx_same c' (by rw [hd, hq, hk]; exact State.cur_place hc), fun d q k h => ?_, rfl, fun l => rfl⟩
  exact s.ctx?_setCtx_other c' d q k (fun ⟨h1, h2, h3⟩ => h ⟨h1.symm, h2.symm, h3.symm⟩)

theorem moves_of_execTask {f : State → Ctx → State} {c' : Ctx} (hi : exec i s = execTask f s) (hf : f s c = s.setCtx c')
    (hplace : (c'.die, c'.seq, c'.ctx) = (c.die, c.seq, c.ctx)) : Moves i s c' :=
  ⟨s.setCtx c', by rw [hi, execTask_cur f hc, hf], movedTo_setCtx hc hplace⟩

theorem moves_of_execRegs {f : RegFile → RegFile} (hi : exec i s = execRegs f s) :
    Moves i s { c with regs := f c.regs, ip := c.ip + 1 } :=
  moves_of_execTask hc hi rfl rfl

/-- What a floating-point instruction comes to, from its flags, its rounding code and its result (R200). -/
theorem floats_of_execFp {f : Ctx → Nat × Nat × RegFile} {m fl : Nat} {r' : RegFile} {ok : RegFile → Prop}
    (hi : exec i s = execFp f s) (hf : f c = (fl, m, r')) (hok : ok r') : Floats i s c m fl ok := by
  unfold Floats
  split
  case isTrue h =>
    refine ⟨r', hok, moves_of_execTask hc hi ?_ rfl⟩
    simp only [hf, fpEnabled, h, ne_eq, not_true_eq_false, if_false]
    rfl
  case isFalse h => rw [hi, execFp, execTask_cur _ hc]; simp only [hf, fpEnabled, if_pos (show ¬ _ = 0 from h)]

end Turns

/-! ### Results of the integer group (R203) -/

/-- `aluWidth` and `nw` are the same width, of the model and of the statements. -/
theorem lo_toNat (w : Bool) (x : Word64) : (lo w x).toNat = x.toNat % 2 ^ aluWidth w := BitVec.toNat_setWidth ..

/-- The model's result of a form is that of its low bits as a word. -/
theorem aluResult_mod (w : Bool) (res : Nat) :
    aluResult w (res % 2 ^ aluWidth w) = wide (w := w) (BitVec.ofNat (nw w) res) := by
  have hres : res % 2 ^ aluWidth w = (BitVec.ofNat (nw w) res).toNat := (BitVec.toNat_ofNat ..).symm
  rw [hres]
  cases w with
  | true => exact sext64_toNat _
  | false => exact (BitVec.ofNat_toNat ..).trans ((BitVec.setWidth_eq _).trans (BitVec.signExtend_eq _).symm)

section Integer

variable {i : Instr} {s : State} {c : Ctx} (hc : s.cur = some c) (d a b : GReg) (w : Bool)
include hc

theorem givesG2_of_execAlu2 {op : Nat → Nat → Nat → Nat} {v : BitVec (nw w)} (hi : exec i s = execAlu2 op d a b w s)
    (hv : BitVec.ofNat (nw w) (op (nw w) (lo w (c.regs.rdG a)).toNat (lo w (c.regs.rdG b)).toNat) = v) :
    GivesG2 i s c d (wide v) a b := by
  refine ⟨_, ?_, moves_of_execRegs hc hi⟩
  rw [← hv, ← aluResult_mod, lo_toNat, lo_toNat]
  exact setsG_setFrom2 ..

theorem givesG1_of_execAlu1 {op : Nat → Nat → Nat} {v : BitVec (nw w)} (hi : exec i s = execAlu1 op d a w s)
    (hv : BitVec.ofNat (nw w) (op (nw w) (lo w (c.regs.rdG a)).toNat) = v) : GivesG1 i s c d (wide v) a := by
  refine ⟨_, ?_, moves_of_execRegs hc hi⟩
  rw [← hv, ← aluResult_mod, lo_toNat]
  exact setsG_setFrom ..

end Integer

theorem integerResults : IntegerResults := by
  intro s c d a b w hc x y
  have alu {i v} (op) := givesG2_of_execAlu2 (i := i) hc d a b w (op := op) (v := v)
  exact ⟨alu (fun _ x y => x + y) rfl (ofNat_aluAdd x y),
    alu (fun n x y => 2 ^ n + x - y) rfl (ofNat_aluSub x y),
    alu (fun _ x y => x &&& y) rfl (ofNat_aluAnd x y),
    alu (fun _ x y => x ||| y) rfl (ofNat_aluOr x y),
    alu (fun _ x y => x ^^^ y) rfl (ofNat_aluXor x y),
    alu (fun n x y => x &&& (2 ^ n - 1 - y)) rfl (ofNat_aluAndn x y),
    alu aluShl rfl (ofNat_aluShl x y),
    alu aluShr rfl (ofNat_aluShr x y),
    alu aluSar rfl (ofNat_aluSar x y),
    alu (fun _ x y => x * y) rfl (ofNat_aluMul x y),
    alu aluMulh rfl (ofNat_aluMulh x y),
    alu (fun n x y => x * y / 2 ^ n) rfl rfl,
    alu (fun n x y => if toSigned x n ≤ toSigned y n then x else y) rfl (ofNat_aluMin x y),
    alu (fun n x y => if toSigned x n ≥ toSigned y n then x else y) rfl (ofNat_aluMax x y),
    alu (fun _ x y => if x ≤ y then x else y) rfl (ofNat_toNat_ite x y (x ≤ y)),
    alu (fun _ x y => if x ≥ y then x else y) rfl (ofNat_toNat_ite x y (y ≤ x))⟩

theorem unaryResults : UnaryResults := by
  intro s c d a w hc x
  have alu {i v} (op) := givesG1_of_execAlu1 (i := i) hc d a w (op := op) (v := v)
  refine ⟨⟨aluClz (nw w) x.toNat, aluClz_le .., fun j hj => testBit_of_lt_aluClz hj, testBit_aluClz x.isLt,
    alu aluClz rfl rfl⟩, ⟨aluCtz (nw w) x.toNat, aluCtz_le .., fun j hj => testBit_of_lt_aluCtz hj, testBit_aluCtz,
    alu aluCtz rfl rfl⟩, alu (fun n x => popcount x n) rfl ?_, alu aluBrev rfl (ofNat_aluBrev x)⟩
  exact congrArg _ (popcount_eq_countP x.toNat (nw w))

/-! ### Division (R204) -/

/-- What a division comes to, where the operation on numbers is `q` on words: the result, or all ones and IDZ. -/
theorem divides_of_execDivide {i : Instr} {s : State} {c : Ctx} (hc : s.cur = some c) (d a b : GReg) (w : Bool)
    {op : Nat → Nat → Nat → Nat} {q : BitVec (nw w)} (hi : exec i s = execDivide op d a b w s)
    (hq : BitVec.ofNat (nw w) (op (nw w) (lo w (c.regs.rdG a)).toNat (lo w (c.regs.rdG b)).toNat) = q) :
    ∃ r', SetsG c.regs r' d (wide (if lo w (c.regs.rdG b) = 0 then BitVec.allOnes (nw w) else q))
        (c.regs.rdTaint a || c.regs.rdTaint b) (unionNat (c.regs.rdTview a) (c.regs.rdTview b)) ∧
      Moves i s { c with
        regs := r', ip := c.ip + 1, raised := if lo w (c.regs.rdG b) = 0 then c.raised ||| 64#8 else c.raised } := by
  have hzero : (c.regs.rdG b).toNat % 2 ^ aluWidth w = 0 ↔ lo w (c.regs.rdG b) = 0 := by
    rw [← lo_toNat, ← BitVec.toNat_inj]; rfl
  by_cases hy : lo w (c.regs.rdG b) = 0
  · have hones : aluResult w (2 ^ aluWidth w - 1) = wide (BitVec.allOnes (nw w)) := by cases w <;> decide
    refine ⟨c.regs.setFrom2 d (wide (BitVec.allOnes (nw w))) a b, ?_, moves_of_execTask hc hi ?_ rfl⟩
    · rw [if_pos hy]; exact setsG_setFrom2 ..
    · simp only [if_pos (hzero.mpr hy), if_pos hy, hones]; rfl
  · have hquot : aluResult w (op (aluWidth w) ((c.regs.rdG a).toNat % 2 ^ aluWidth w)
        ((c.regs.rdG b).toNat % 2 ^ aluWidth w) % 2 ^ aluWidth w) = wide q := by
      rw [aluResult_mod, ← hq, lo_toNat, lo_toNat]; rfl
    refine ⟨c.regs.setFrom2 d (wide q) a b, ?_, moves_of_execTask hc hi ?_ rfl⟩
    · rw [if_neg hy]; exact setsG_setFrom2 ..
    · simp only [if_neg (hzero.not.mpr hy), if_neg hy, hquot]

/-! ### Conversion to an integer (R221) -/

theorem rndMode_eq_modeOf (r : FRnd) (fpctl : BitVec 16) : rndMode r fpctl = modeOf r fpctl := by cases r <;> rfl

theorem kindRange_eq_kindBounds (k : IKind) : kindRange k = kindBounds k := by cases k <;> rfl

section Range

variable {m : Nat} {lo hi : Int} {x : Ex}

theorem toIntRange_above (h : hi < (roundInt m 0 x).1) : toIntRange m 0 lo hi (.fin x) = (hi, 16) := by
  simp [toIntRange, h, NV]

theorem toIntRange_below (hhi : ¬hi < (roundInt m 0 x).1) (h : (roundInt m 0 x).1 < lo) :
    toIntRange m 0 lo hi (.fin x) = (lo, 16) := by
  simp [toIntRange, hhi, h, NV]

theorem toIntRange_within (hhi : ¬hi < (roundInt m 0 x).1) (hlo : ¬(roundInt m 0 x).1 < lo) :
    toIntRange m 0 lo hi (.fin x) = ((roundInt m 0 x).1, if (roundInt m 0 x).2 then 1 else 0) := by
  simp [toIntRange, hhi, hlo, NX]

end Range

/-- `fcvti` gives what `toIntRange` gives in the kind's bounds, with its flags. -/
theorem floats_fcvti {s : State} {c : Ctx} (hc : s.cur = some c) (d : GReg) (a : FReg) (f : FFmt) (k : IKind) (r : FRnd)
    {v : FVal} (hv : c.regs.valF a f = v) {t : Int} {fl : Nat}
    (ht : toIntRange (modeOf r c.regs.fpctl) 0 (kindBounds k).1 (kindBounds k).2 v = (t, fl)) :
    Floats (.fcvti d a k f r) s c (modeOf r c.regs.fpctl) fl
      (fun r' => SetsG c.regs r' d (BitVec.ofInt 64 t) false []) := by
  have hi : exec (.fcvti d a k f r) s = execFcvti d a k f r s := rfl
  unfold execFcvti at hi
  refine floats_of_execFp hc hi ?_ (setsG_setPlain c.regs d (BitVec.ofInt 64 t))
  simp only [rndMode_eq_modeOf, kindRange_eq_kindBounds, hv, ht, ofNat_ofSigned]

end Sys2Proof.Claims

section Settled

open Sys2Proof Sys2Proof.Machine Sys2Proof.Claims

/-- Settles O1: a write is read back at its own register, and `setG`, `setC` and `setF` touch nothing else. -/
theorem registerFile : Obligations.RegisterFile := by
  refine ⟨fun r d v t w => ⟨?_, setsG_setG r d v rfl⟩, fun r d v => ⟨?_, setsC_setC r d v⟩, fun r d f code =>
    ⟨setsF_setF r d f code, RegFile.codeF_setF_same r d f code, RegFile.codeF_eq r d f⟩⟩
  · rintro rfl; exact RegFile.setG_zero ..
  · rintro rfl; exact RegFile.setC_zero ..

/-- Settles O2: the quotients and remainders on numbers are those of words, apart from a divisor of 0. -/
theorem division : Obligations.Division := by
  intro s c d a b w hc x y res gives
  have alu {i q} (op) := divides_of_execDivide (i := i) hc d a b w (op := op) (q := q)
  exact ⟨alu aluDiv rfl (ofNat_aluDiv x y), alu (fun _ x y => x / y) rfl (ofNat_aluDivu x y),
    alu aluRem rfl (ofNat_aluRem x y), alu (fun _ x y => x % y) rfl (ofNat_aluRemu x y)⟩

/-- Settles O4: each operation of the group on numbers is the operation on words of the form's width. -/
theorem integerGroup : Obligations.IntegerGroup := ⟨integerResults, unaryResults⟩

/-- Settles O6: `toIntRange` in each of its cases, a NaN, an infinity, and a finite value above, below or within the
bounds. -/
theorem floatToInteger : Obligations.FloatToInteger := by
  refine ⟨by decide, fun s c d a f k r hc => ?_⟩
  intro m lo hi gives
  have conv {v} (hv) {t fl} := floats_fcvti hc d a f k r (v := v) hv (t := t) (fl := fl)
  cases hv : c.regs.valF a f with
  | nan => exact conv hv rfl
  | inf neg => exact conv hv rfl
  | fin x =>
    change if hi < (roundInt m 0 x).1 then gives hi 16 else if (roundInt m 0 x).1 < lo then gives lo 16
      else gives (roundInt m 0 x).1 (if (roundInt m 0 x).2 then 1 else 0)
    split
    case isTrue habove => exact conv hv (toIntRange_above habove)
    case isFalse hhi =>
      split
      case isTrue hbelow => exact conv hv (toIntRange_below hhi hbelow)
      case isFalse hlo => exact conv hv (toIntRange_within hhi hlo)

end Settled

/-! SUPPORT. What a scalar fault leaves of its context and of the saved tasks (02_execution.md R28, R31, R36, R37). -/

namespace Sys2Proof.Machine

/-! ### What is saved of tasks outlives an event and its notify (R26, R28) -/

/-- What was saved of each task when it last gave up its context. -/
def State.savedOf (s : State) (job i : Nat) : Option (RegFile × Word64) := (s.aux job i).saved

theorem State.savedOf_of_tasks {s t : State} (h : t.tasks = s.tasks) : t.savedOf = s.savedOf := by
  unfold State.savedOf State.aux
  rw [h]

theorem MemSide.savedOf {s t : State} (h : MemSide s t) : t.savedOf = s.savedOf := by
  obtain ⟨_, _, _, _, _, rfl⟩ := h
  exact State.savedOf_of_tasks rfl

theorem State.aux_setAux_of_place {s : State} {t : TaskAux} {job i : Nat} (hjob : t.job = job) (hidx : t.idx = i) :
    (s.setAux t).aux job i = t := by
  subst hjob hidx
  exact s.aux_setAux_same t

/-- An update that leaves what was saved of its own task leaves what was saved of all. -/
theorem State.savedOf_setAux {s : State} {t : TaskAux} (h : t.saved = s.savedOf t.job t.idx) :
    (s.setAux t).savedOf = s.savedOf := by
  funext job i
  unfold State.savedOf at h ⊢
  by_cases hkey : t.job = job ∧ t.idx = i
  · obtain ⟨hjob, hidx⟩ := hkey
    rw [State.aux_setAux_of_place hjob hidx, h, hjob, hidx]
  · rw [s.aux_setAux_other t job i hkey]

@[simp] theorem State.savedOf_setAux_park (s : State) (job i : Nat) (p : Option Park) :
    (s.setAux { s.aux job i with park := p }).savedOf = s.savedOf := by
  obtain ⟨hjob, hidx⟩ := s.aux_place job i
  exact State.savedOf_setAux (by simp only [hjob, hidx, State.savedOf])

@[simp] theorem State.savedOf_setWord0 (s : State) (job i v : Nat) : (s.setWord0 job i v).savedOf = s.savedOf :=
  (s.setWord0_mem_side ..).savedOf

@[simp] theorem State.savedOf_enqueue (s : State) (die : Nat) (e : ReadyEntry) : (s.enqueue die e).savedOf = s.savedOf := by
  obtain ⟨d, h⟩ := s.enqueue_shape die e
  exact State.savedOf_of_tasks (by rw [h])

@[simp] theorem State.savedOf_makeReady (s : State) (job i : Nat) : (s.makeReady job i).savedOf = s.savedOf := by
  unfold State.makeReady
  split
  · exact (s.recTouch_side ..).savedOf
  · split
    · exact s.savedOf_setAux_park ..
    · exact (State.savedOf_enqueue ..).trans ((State.savedOf_setAux_park ..).trans (s.savedOf_setWord0 ..))

@[simp] theorem State.savedOf_decrement (s : State) (job i g : Nat) : (s.decrement job i g).2.savedOf = s.savedOf := by
  unfold State.decrement
  split
  · exact (s.recTouch_side ..).savedOf
  · split
    · rfl
    · split
      · rfl
      · dsimp only
        split
        · exact (State.savedOf_makeReady ..).trans (s.savedOf_setWord0 ..)
        · exact s.savedOf_setWord0 ..

@[simp] theorem State.savedOf_appendEvent (s : State) (job die : Nat) (e : EventRec) :
    (s.appendEvent job die e).savedOf = s.savedOf := by
  unfold State.appendEvent
  split
  · rfl
  · split
    · exact (s.hwTouch_side ..).savedOf
    · dsimp only
      split
      · exact (s.hwWrite_mem_side ..).savedOf
      · exact (State.savedOf_of_tasks rfl).trans ((s.hwWrite_mem_side ..).trans (State.hwWrite_mem_side ..)).savedOf

@[simp] theorem State.savedOf_countDead (s : State) (job i : Nat) : (s.countDead job i).savedOf = s.savedOf := by
  unfold State.countDead
  split <;> rfl

@[simp] theorem State.savedOf_notifyHandler (s : State) (job die : Nat) : (s.notifyHandler job die).savedOf = s.savedOf := by
  unfold State.notifyHandler
  split
  · rfl
  case h_2 j _ =>
    split
    · rfl
    · have hdec := s.savedOf_decrement job j.handler (recGen ((s.taskRec job j.handler).getD 0))
      dsimp only
      split <;> rename_i e <;> rw [e] at hdec
      · exact hdec
      · rw [State.savedOf_appendEvent, State.savedOf_countDead, hdec]
      · rw [State.savedOf_appendEvent, State.savedOf_countDead, hdec]

@[simp] theorem State.savedOf_postEvent (s : State) (job die : Nat) (e : EventRec) :
    (s.postEvent job die e).savedOf = s.savedOf := by
  unfold State.postEvent
  split
  · exact s.savedOf_appendEvent ..
  · rw [State.savedOf_notifyHandler, State.savedOf_appendEvent]

/-! ### The abort of a block gives up its context and saves the last commit (R36, R37) -/

theorem State.ctx?_dropCtx_same (s : State) (c : Ctx) : (s.dropCtx c).ctx? c.die c.seq c.ctx = none := by
  simp only [State.ctx?, State.dropCtx, List.find?_eq_none, List.mem_filter]
  rintro x ⟨-, hx⟩ h
  simp [h] at hx

/-- Nothing runs on the context that an abort gives up, whether or not it ran before. -/
theorem State.ctx?_abort_same (s : State) (c : Ctx) : (s.abort c).ctx? c.die c.seq c.ctx = none :=
  State.ctx?_dropCtx_same _ c

theorem State.saveRegs_side (s : State) (c : Ctx) (regs : RegFile) (pc : Word64) : TaskSide s (s.saveRegs c regs pc) := by
  unfold State.saveRegs
  split
  · exact (s.recTouch_side ..).task
  · dsimp only
    split
    · exact (s.hwPut_side ..).task.trans (State.setAux_side ..)
    · exact (s.hwTouch_side ..).task.trans (State.setAux_side ..)

theorem State.savedOf_setAux_saved (s : State) (job i : Nat) (r : Option (RegFile × Word64)) :
    (s.setAux { s.aux job i with saved := r }).savedOf job i = r := by
  obtain ⟨hjob, hidx⟩ := s.aux_place job i
  exact congrArg TaskAux.saved (State.aux_setAux_of_place (t := { s.aux job i with saved := r }) hjob hidx)

theorem State.savedOf_saveRegs {s : State} {c : Ctx} (regs : RegFile) (pc : Word64) (h : s.lives c = true) :
    (s.saveRegs c regs pc).savedOf c.job c.idx = some (regs, pc) := by
  unfold State.saveRegs
  simp only [h, Bool.not_true, Bool.false_eq_true, if_false]
  exact State.savedOf_setAux_saved ..

theorem State.savedOf_abort {s : State} {c : Ctx} (h : s.lives c = true) :
    (s.abort c).savedOf c.job c.idx = some (c.base, c.pc) :=
  State.savedOf_saveRegs c.base c.pc h

theorem State.abort_focus (s : State) (c : Ctx) : (s.abort c).focus = s.focus := by
  obtain ⟨_, _, _, _, _, _, _, _, e⟩ := s.saveRegs_side c c.base c.pc
  simp [State.abort, State.saveAndFree, e]

/-! ### A scalar fault writes the record and posts its event on top of the abort (R31) -/

theorem State.trapTask_side (s : State) (c : Ctx) (code addr detail : Nat) :
    TaskSide (s.abort c) (s.trapTask c code addr detail) := by
  unfold State.trapTask
  dsimp only
  split
  · exact ((s.abort c).recTouch_side ..).task
  · split
    · exact ((s.abort c).setWord0_side ..).trans (State.postEvent_side ..)
    · exact State.postEvent_side ..

@[simp] theorem State.savedOf_trapTask (s : State) (c : Ctx) (code addr detail : Nat) :
    (s.trapTask c code addr detail).savedOf = (s.abort c).savedOf := by
  unfold State.trapTask
  dsimp only
  split
  · exact ((s.abort c).recTouch_side ..).savedOf
  · rw [State.savedOf_postEvent]
    split
    · exact (s.abort c).savedOf_setWord0 ..
    · rfl

theorem TaskSide.cur {s t : State} (h : TaskSide s t) : t.cur = s.cur := by
  obtain ⟨_, _, _, _, _, _, _, _, rfl⟩ := h
  rfl

theorem State.cur_abort {s : State} {c : Ctx} (h : s.cur = some c) : (s.abort c).cur = none := by
  unfold State.cur
  rw [s.abort_focus, State.cur_place h]
  exact s.ctx?_abort_same c

theorem State.cur_trapTask {s : State} {c : Ctx} (code addr detail : Nat) (h : s.cur = some c) :
    (s.trapTask c code addr detail).cur = none := by
  rw [(s.trapTask_side c code addr detail).cur, State.cur_abort h]

theorem exec_trap (k : BitVec 12) (s : State) : exec (.trap k) s = execTrap k s := rfl

end Sys2Proof.Machine

section ScalarMemorySettled

open Sys2Proof Sys2Proof.Machine

/-- Settles O17: `trap` is a scalar fault, which gives up the context in focus and saves the last commit. -/
theorem trapInstruction : Obligations.TrapInstruction := by
  refine ⟨by decide, fun s c k hc => ?_⟩
  have hexec : exec (.trap k) s = .next (s.trapTask c 0x0C 0 (c.ip + k.toNat * 2 ^ 16)) := by
    rw [exec_trap, execTrap, execTask_cur _ hc, detailOf, Nat.zero_mul, Nat.add_zero]
  refine ⟨hexec, _, hexec, State.cur_trapTask _ _ _ hc, fun hlives => ?_⟩
  exact (congrFun₂ (s.savedOf_trapTask c ..) c.job c.idx).trans (State.savedOf_abort hlives)

end ScalarMemorySettled
